-- ==== Sys2Proof/Word.lean ====
section
/-! DEFINITION. The word types of the Langor (spec/01_machine.md R16, R21; spec/03_opcode_map.md R71, R73). -/

namespace Sys2Proof

/-- A byte of memory. -/
abbrev Byte := BitVec 8
/-- One 16-bit word of an instruction chain (R34). -/
abbrev Half := BitVec 16
/-- A scalar register, an address before translation, a mask register. -/
abbrev Word := BitVec 64
/-- A vector register (R71). -/
abbrev Vec := BitVec 512
/-- A tile register (R73). -/
abbrev Tile := BitVec 16384
/-- Fabric time in nanoseconds (R22). -/
abbrev Stamp := BitVec 48
/-- The 128 bytes of a line, byte j in bits 8j+7 to 8j. -/
abbrev LineData := BitVec 1024
/-- A scalar register number. -/
abbrev XReg := BitVec 5
/-- A vector register number. -/
abbrev VReg := BitVec 6
/-- A mask register number. -/
abbrev MReg := BitVec 3
/-- A tile register number. -/
abbrev TReg := BitVec 3

end Sys2Proof
end

