-- ==== Sys2Proof/Syntax.lean ====
section
/-! DEFINITION. The instructions and events: one constructor per row of spec/opcode_table.json.
The rows of pages 0 to 7 are Otric instructions (spec/03_opcode_map.md R61 to R68), with the operands that their chain
of words gives (spec/02_assembly.md R35 to R40, R47): an instruction with a two- and a three-operand form has the
operands d := l op r. The rows after page 7 are the steps that the Langor or the outside takes on its own; their
operands say where. -/

namespace Sys2Proof

/-- Scalar size: RGX SIZE 00, 01, 10, 11 (R38). -/
inductive Size where
  | d | w | h | b
  deriving DecidableEq, Repr

/-- Vector element size: RGX SIZE 00, 01, 10 (R38). -/
inductive VSize where
  | s32 | s16 | s8
  deriving DecidableEq, Repr

/-- Scope codes 0 to 4 (R40, R190). -/
inductive Scope where
  | core | cluster | die | device | system
  deriving DecidableEq, Repr

/-- The rounding choice of QL (R40): 0 uses RMODE, 1 to 5 name a mode. -/
inductive RSel where
  | dyn | rne | rtz | rdn | rup | rna
  deriving DecidableEq, Repr

/-- One of the contexts F0 (0), F1 (1) and H (2) of a core, by device-wide core number (R13, R15). -/
structure CtxId where
  core : Nat
  which : Nat
  deriving DecidableEq, Repr

/-- A cache that holds copies (R19, R20): the data or instruction L1 of a core, the near-tier slice of a cluster
(die·32 + cluster), the far-tier tags of a home slice (die·128 + slice). -/
inductive CacheId where
  | l1 (core : Nat)
  | l1i (core : Nat)
  | near (cluster : Nat)
  | far (slice : Nat)
  deriving DecidableEq, Repr

/-- Where a check finds an uncorrectable error (R394): a copy in a cache, a chunk of 16 bytes, registers, a line in HBM or in an
adder, a record in a deque or trigger table, a context's staging, or the tags of a cache. -/
inductive ErrSite where
  | copy (at_ : CacheId) (line : Nat)
  | scratch (cluster handle chunk : Nat)
  | lane (core entry chunk : Nat)
  | registers (c : CtxId)
  | scalarUnit (c : CtxId)
  | hbm (line : Nat)
  | adder (line : Nat)
  | deque (core i : Nat)
  | trigger (core i : Nat)
  | staging (c : CtxId)
  | tags (at_ : CacheId)
  deriving DecidableEq, Repr

/-- The operations that a home applies as one step (R229 to R233). -/
inductive AmoOp where
  | add | and | or | xor | min | max | minu | maxu | swp | cas | fadd
  deriving DecidableEq, Repr

/-- What an inbound request asks for (R419). -/
inductive InOp where
  | read (len : Nat)
  | write (data : List Byte)
  | atomic (op : AmoOp) (sz : Size) (operand expected : Word)
  | mxacc (addends : Vec) (fmt : Nat)
  deriving DecidableEq, Repr

/-- An inbound request of the host (source 0) or of link k (source k + 1) through an aperture (R418, R419). -/
structure Inbound where
  src : Nat
  ap : Nat
  off : Nat
  op : InOp
  deriving DecidableEq, Repr

/-- The instructions and events, in the order of spec/opcode_table.json. -/
inductive Instr where
  /-- NOP (R124). Does nothing; the n field and any IMX words are ignored. -/
  | nop
  /-- MOV (R124). Copies xb into xa. -/
  | mov (a b : XReg)
  /-- LI (R124). Loads a sign-extended immediate into xa. -/
  | li (a : XReg) (imm : Word)
  /-- LIH (R124). Writes imm[31:0] into bits [63:32] of xa and leaves the low half unchanged. -/
  | lih (a : XReg) (imm : Word)
  /-- ADD (R125). Integer add at the selected size. -/
  | add (d l r : XReg) (sz : Size)
  /-- SUB (R125). Integer subtract at the selected size. -/
  | sub (d l r : XReg) (sz : Size)
  /-- MUL (R125). Signed multiply, keeping the low w bits. -/
  | mul (d l r : XReg) (sz : Size)
  /-- MULH (R125). High half of a signed multiply. -/
  | mulh (d l r : XReg) (sz : Size)
  /-- MULHU (R125). High half of an unsigned multiply. -/
  | mulhu (d l r : XReg) (sz : Size)
  /-- DIV (R126). Signed division truncating towards zero; it never traps. -/
  | div (d l r : XReg) (sz : Size)
  /-- DIVU (R126). Unsigned division; it never traps. -/
  | divu (d l r : XReg) (sz : Size)
  /-- REM (R126). Signed remainder, with the sign of the dividend. -/
  | rem (d l r : XReg) (sz : Size)
  /-- REMU (R126). Unsigned remainder. -/
  | remu (d l r : XReg) (sz : Size)
  /-- AND (R125). Bitwise AND over 64 bits. -/
  | and (d l r : XReg)
  /-- OR (R125). Bitwise OR over 64 bits. -/
  | or (d l r : XReg)
  /-- XOR (R125). Bitwise XOR over 64 bits. -/
  | xor (d l r : XReg)
  /-- SHL (R125). Shift left by a register amount taken modulo w. -/
  | shl (d l r : XReg) (sz : Size)
  /-- SHR (R125). Logical shift right by a register amount taken modulo w. -/
  | shr (d l r : XReg) (sz : Size)
  /-- SRA (R125). Arithmetic shift right by a register amount taken modulo w. -/
  | sra (d l r : XReg) (sz : Size)
  /-- ROTL (R125). Rotate left by a register amount taken modulo w. -/
  | rotl (d l r : XReg) (sz : Size)
  /-- MIN (R125). Signed minimum. -/
  | min (d l r : XReg) (sz : Size)
  /-- MAX (R125). Signed maximum. -/
  | max (d l r : XReg) (sz : Size)
  /-- MINU (R125). Unsigned minimum. -/
  | minu (d l r : XReg) (sz : Size)
  /-- MAXU (R125). Unsigned maximum. -/
  | maxu (d l r : XReg) (sz : Size)
  /-- SEQ (R125). Writes 1 if the two operands are equal, else 0. -/
  | seq (d l r : XReg) (sz : Size)
  /-- SLT (R125). Signed less-than compare. -/
  | slt (d l r : XReg) (sz : Size)
  /-- SLTU (R125). Unsigned less-than compare. -/
  | sltu (d l r : XReg) (sz : Size)
  /-- ADDI (R127). Adds a sign-extended immediate to xa. -/
  | addi (a : XReg) (sz : Size) (imm : Word)
  /-- ANDI (R127). Bitwise AND of xa with an immediate. -/
  | andi (a : XReg) (imm : Word)
  /-- ORI (R127). Bitwise OR of xa with an immediate. -/
  | ori (a : XReg) (imm : Word)
  /-- SHLI (R127). Shift left by an immediate from 0 to w-1. -/
  | shli (a : XReg) (sz : Size) (imm : Word)
  /-- SHRI (R127). Logical shift right by an immediate from 0 to w-1. -/
  | shri (a : XReg) (sz : Size) (imm : Word)
  /-- SRAI (R127). Arithmetic shift right by an immediate from 0 to w-1. -/
  | srai (a : XReg) (sz : Size) (imm : Word)
  /-- SLTI (R127). Signed less-than compare against an immediate. -/
  | slti (a : XReg) (sz : Size) (imm : Word)
  /-- CLZ (R128). Counts the leading zero bits of xb. -/
  | clz (a b : XReg) (sz : Size)
  /-- POPC (R128). Counts the one bits of xb. -/
  | popc (a b : XReg) (sz : Size)
  /-- SEL (R129). Writes xb to xa if xa is nonzero, else xc. -/
  | sel (a b c : XReg)
  /-- LD (R224). Sign-extending load under the page's class, with no witness. -/
  | ld (a b : XReg) (sz : Size) (imm : Word) (na : Bool)
  /-- LDX (R224). Zero-extending load under the page's class, with no witness. -/
  | ldx (a b : XReg) (sz : Size) (imm : Word) (na : Bool)
  /-- ST (R225). Stores under the page's class and scope, and optionally returns a witness. -/
  | st (a b c : XReg) (sz : Size) (imm : Word) (sc : Option Scope) (na : Bool)
  /-- LDW (R224). Load that honours the witness given in xc. -/
  | ldw (a b c : XReg) (sz : Size) (imm : Word) (na : Bool)
  /-- WMAX (R227). Merges two witnesses with witness_max. -/
  | wmax (d l r : XReg)
  /-- B (R130). Unconditional branch by a word displacement. -/
  | br (imm : Word)
  /-- BZ (R130). Branches if xa is zero. -/
  | bz (a : XReg) (imm : Word)
  /-- BNZ (R130). Branches if xa is nonzero. -/
  | bnz (a : XReg) (imm : Word)
  /-- BLTZ (R130). Branches if xa is negative. -/
  | bltz (a : XReg) (imm : Word)
  /-- BGEZ (R130). Branches if xa is non-negative. -/
  | bgez (a : XReg) (imm : Word)
  /-- CALL (R131). Writes the return address to x31 and branches by a displacement. -/
  | call (imm : Word)
  /-- CALLR (R131). Writes the return address to x31 and jumps to xa. -/
  | callr (a : XReg)
  /-- JR (R131). Jumps to the address in xa. -/
  | jr (a : XReg)
  /-- JTAB (R132). Jumps through a table of displacements by an unsigned index, or falls through when the index is out of range. -/
  | jtab (a b : XReg) (imm : Word)
  /-- BANY (R133). Branches if any of the L mask bits is set. -/
  | bany (a : MReg) (sz : VSize) (imm : Word)
  /-- BNONE (R133). Branches if none of the L mask bits is set. -/
  | bnone (a : MReg) (sz : VSize) (imm : Word)
  /-- BALL (R133). Branches if all of the L mask bits are set. -/
  | ball (a : MReg) (sz : VSize) (imm : Word)
  /-- MRD (R134). Copies a mask register into an x register. -/
  | mrd (a : XReg) (b : MReg)
  /-- MWR (R134). Copies an x register into a mask register. -/
  | mwr (a : MReg) (b : XReg)
  /-- TIME (R228). Reads the core's fabric time into xa. -/
  | time (a : XReg)
  /-- BRK (R357). Raises BRK with n in TVAL and next_pc in TADDR. -/
  | brk (imm : Word)
  /-- SYS (R357). Raises SYS with n in TVAL and next_pc in TADDR. -/
  | sys (imm : Word)
  /-- VMOV (R137). Copies the active lanes of vb to va. -/
  | vmov (a b : VReg) (sz : VSize) (mk : MReg)
  /-- VBCAST (R137). Broadcasts xb into the active lanes of va. -/
  | vbcast (a : VReg) (b : XReg) (sz : VSize) (mk : MReg)
  /-- VEXT (R137). Extracts one lane into an x register. -/
  | vext (a : XReg) (b : VReg) (sz : VSize) (imm : Word) (mk : MReg)
  /-- VINS (R137). Inserts xb into one lane of va. -/
  | vins (a : VReg) (b : XReg) (sz : VSize) (imm : Word) (mk : MReg)
  /-- VLD (R139). Contiguous vector load of the active lanes. -/
  | vld (a : VReg) (b : XReg) (sz : VSize) (imm : Word) (mk : MReg)
  /-- VST (R139). Contiguous vector store of the active lanes, returning a witness. -/
  | vst (a : VReg) (b c : XReg) (sz : VSize) (imm : Word) (mk : MReg)
  /-- VLDS (R139). Strided vector load. -/
  | vlds (a : VReg) (b c : XReg) (sz : VSize) (imm : Word) (mk : MReg)
  /-- VGATH (R139). Gathers lanes from indexed addresses. -/
  | vgath (a : VReg) (b : XReg) (c : VReg) (sz : VSize) (imm : Word) (mk : MReg)
  /-- VSCAT (R139). Scatters lanes to indexed addresses in ascending lane order. -/
  | vscat (a : VReg) (b : XReg) (c : VReg) (sz : VSize) (imm : Word) (mk : MReg)
  /-- VLSR (R140). Reads lanes from indexed lane-store entries, taking the lane store if needed. -/
  | vlsr (a b : VReg) (sz : VSize) (mk : MReg)
  /-- VLSW (R140). Writes lanes to indexed lane-store entries. -/
  | vlsw (a b : VReg) (sz : VSize) (mk : MReg)
  /-- VPERM (R141). Permutes lanes by an index vector. -/
  | vperm (d l r : VReg) (sz : VSize) (mk : MReg)
  /-- VROT (R141). Rotates lanes by an immediate count. -/
  | vrot (a b : VReg) (sz : VSize) (imm : Word) (mk : MReg)
  /-- VADD (R142). Lane-wise integer add, wrapping or saturating. -/
  | vadd (d l r : VReg) (sz : VSize) (sat : Bool) (mk : MReg)
  /-- VSUB (R142). Lane-wise integer subtract, wrapping or saturating. -/
  | vsub (d l r : VReg) (sz : VSize) (sat : Bool) (mk : MReg)
  /-- VMUL (R142). Lane-wise integer multiply, wrapping or saturating. -/
  | vmul (d l r : VReg) (sz : VSize) (sat : Bool) (mk : MReg)
  /-- VMULH (R142). Lane-wise high half of a signed multiply. -/
  | vmulh (d l r : VReg) (sz : VSize) (mk : MReg)
  /-- VMIN (R142). Lane-wise signed minimum. -/
  | vmin (d l r : VReg) (sz : VSize) (mk : MReg)
  /-- VMAX (R142). Lane-wise signed maximum. -/
  | vmax (d l r : VReg) (sz : VSize) (mk : MReg)
  /-- VAND (R142). Lane-wise bitwise AND. -/
  | vand (d l r : VReg) (sz : VSize) (mk : MReg)
  /-- VOR (R142). Lane-wise bitwise OR. -/
  | vor (d l r : VReg) (sz : VSize) (mk : MReg)
  /-- VXOR (R142). Lane-wise bitwise XOR. -/
  | vxor (d l r : VReg) (sz : VSize) (mk : MReg)
  /-- VSHL (R142). Lane-wise shift left, wrapping or saturating. -/
  | vshl (d l r : VReg) (sz : VSize) (sat : Bool) (mk : MReg)
  /-- VSHR (R142). Lane-wise logical shift right. -/
  | vshr (d l r : VReg) (sz : VSize) (mk : MReg)
  /-- VSRA (R142). Lane-wise arithmetic shift right. -/
  | vsra (d l r : VReg) (sz : VSize) (mk : MReg)
  /-- VCMP (R143). Lane-wise compare that writes a mask register. -/
  | vcmp (a : MReg) (b c : VReg) (sz : VSize) (imm : Word) (mk : MReg)
  /-- VSEL (R144). Selects each lane from one of two vectors by the mask. -/
  | vsel (d l r : VReg) (sz : VSize) (mk : MReg)
  /-- VDOT4 (R145). Four-byte dot product accumulated into 32-bit lanes. -/
  | vdot4 (a b c : VReg) (imm : Word) (sat : Bool) (mk : MReg)
  /-- VMAC (R145). Lane-wise integer multiply-accumulate. -/
  | vmac (a b c : VReg) (sz : VSize) (sat : Bool) (mk : MReg)
  /-- VRSHR (R146). Lane-wise rounding shift right. -/
  | vrshr (d l r : VReg) (sz : VSize) (rnd : RSel) (mk : MReg)
  /-- VCLAMP (R146). Clamps each lane between a lower and an upper bound. -/
  | vclamp (a b c : VReg) (sz : VSize) (mk : MReg)
  /-- VFADD (R147). Lane-wise floating-point add. -/
  | vfadd (d l r : VReg) (sz : VSize) (rnd : RSel) (mk : MReg)
  /-- VFSUB (R147). Lane-wise floating-point subtract. -/
  | vfsub (d l r : VReg) (sz : VSize) (rnd : RSel) (mk : MReg)
  /-- VFMUL (R147). Lane-wise floating-point multiply. -/
  | vfmul (d l r : VReg) (sz : VSize) (rnd : RSel) (mk : MReg)
  /-- VFMA (R147). Lane-wise fused multiply-add with one rounding. -/
  | vfma (a b c : VReg) (sz : VSize) (rnd : RSel) (mk : MReg)
  /-- VFMIN (R148). Lane-wise IEEE minimumNumber. -/
  | vfmin (d l r : VReg) (sz : VSize) (mk : MReg)
  /-- VFMAX (R148). Lane-wise IEEE maximumNumber. -/
  | vfmax (d l r : VReg) (sz : VSize) (mk : MReg)
  /-- VFRCP (R149). Correctly rounded reciprocal of each lane. -/
  | vfrcp (a b : VReg) (sz : VSize) (rnd : RSel) (mk : MReg)
  /-- VFRSQ (R149). Correctly rounded reciprocal square root of each lane. -/
  | vfrsq (a b : VReg) (sz : VSize) (rnd : RSel) (mk : MReg)
  /-- VFEXP2 (R149). Correctly rounded 2 to the power of each lane. -/
  | vfexp2 (a b : VReg) (sz : VSize) (rnd : RSel) (mk : MReg)
  /-- VCVT (R150). Converts elements between the formats named in a control word. -/
  | vcvt (a b : VReg) (imm : Word) (rnd : RSel) (mk : MReg)
  /-- VREDADD (R152). Exact integer sum of the active lanes into lane 0. -/
  | vredadd (a b : VReg) (sz : VSize) (sat : Bool) (mk : MReg)
  /-- VREDMAX (R152). Signed maximum of the active lanes into lane 0. -/
  | vredmax (a b : VReg) (sz : VSize) (mk : MReg)
  /-- VFRED (R152). Ordered floating-point sum of the active lanes into lane 0. -/
  | vfred (a b : VReg) (sz : VSize) (rnd : RSel) (mk : MReg)
  /-- MLOG (R153). Logical operation on mask registers. -/
  | mlog (d l r : MReg) (sz : VSize) (imm : Word) (mk : MReg)
  /-- MGANG (R178). Opens a gang with a member mask, or closes the open gang. -/
  | mgang (imm : Word)
  /-- MMA (R179). Issues a matrix multiply from scratchpad operands into CR memory. -/
  | mma (a b c : XReg) (imm : Word)
  /-- MMAS (R179). Issues a structured-sparse matrix multiply. -/
  | mmas (a b c : XReg) (imm : Word)
  /-- MMAT (R179). Issues a matrix multiply whose A operand comes from tile registers. -/
  | mmat (a : XReg) (b : TReg) (c : XReg) (imm : Word)
  /-- TLD (R180). Loads a tile register from memory or scratchpad. -/
  | tld (a : TReg) (b c : XReg) (imm : Word)
  /-- TST (R180). Stores a tile register to memory or scratchpad. -/
  | tst (a : TReg) (b c : XReg) (imm : Word)
  /-- TZERO (R181). Zeroes a tile register. -/
  | tzero (a : TReg)
  /-- MHINT (R182). Begins the slice ramp-up and holds full rate for n*64 core cycles. -/
  | mhint (imm : Word)
  /-- MWAIT (R183). Waits for the context's matrix operations and returns the running-maximum witness. -/
  | mwait (a : XReg)
  /-- MSTAT (R184). Reads the slice status word, or the overflow bit or special states of a CR line. -/
  | mstat (a b c : XReg) (imm : Word)
  /-- CRCLR (R185). Clears a range of CR lines. -/
  | crclr (a b c : XReg)
  /-- CRFLUSH (R185). Folds die partials of a CR range into their home values. -/
  | crflush (a b c : XReg)
  /-- CRRD (R186). Reads CR elements at their home under a witness, as values or raw counts. -/
  | crrd (a : VReg) (b c : XReg) (raw : Bool)
  /-- CRADD (R187). Contributes 16 lanes to CR elements. -/
  | cradd (a : VReg) (b c : XReg)
  /-- AMOADD (R229). Atomic add at the home of an SM line. -/
  | amoadd (a b c : XReg) (sz : Size) (sc : Option Scope)
  /-- AMOAND (R229). Atomic AND at the home. -/
  | amoand (a b c : XReg) (sz : Size) (sc : Option Scope)
  /-- AMOOR (R229). Atomic OR at the home. -/
  | amoor (a b c : XReg) (sz : Size) (sc : Option Scope)
  /-- AMOXOR (R229). Atomic XOR at the home. -/
  | amoxor (a b c : XReg) (sz : Size) (sc : Option Scope)
  /-- AMOMIN (R229). Atomic signed minimum at the home. -/
  | amomin (a b c : XReg) (sz : Size) (sc : Option Scope)
  /-- AMOMAX (R229). Atomic signed maximum at the home. -/
  | amomax (a b c : XReg) (sz : Size) (sc : Option Scope)
  /-- AMOMINU (R229). Atomic unsigned minimum at the home. -/
  | amominu (a b c : XReg) (sz : Size) (sc : Option Scope)
  /-- AMOMAXU (R229). Atomic unsigned maximum at the home. -/
  | amomaxu (a b c : XReg) (sz : Size) (sc : Option Scope)
  /-- AMOSWP (R229). Atomic swap at the home. -/
  | amoswp (a b c : XReg) (sz : Size) (sc : Option Scope)
  /-- AMOCAS (R231). Atomic compare-and-swap at the home. -/
  | amocas (a b c : XReg) (sz : Size) (sc : Option Scope)
  /-- AMOFADD (R232). Atomic floating-point add at the home, rounded in RNE. -/
  | amofadd (a b c : XReg) (sz : Size) (sc : Option Scope)
  /-- MXACC (R233). Adds BF16 addends to an MX block at its home and re-encodes the block. -/
  | mxacc (a : VReg) (b c : XReg) (sz : Size) (imm : Word) (sc : Option Scope)
  /-- PRF (R234). Prefetches a line as far as the scope names, with no fault. -/
  | prf (b : XReg) (imm : Word) (sc : Option Scope) (na : Bool)
  /-- WTEST (R236). Tests without waiting whether a witness is satisfied. -/
  | wtest (a b : XReg)
  /-- WWAIT (R237). Waits on a witness and raises the L1 and near-tier floors to its stamp. -/
  | wwait (b : XReg)
  /-- WFRONT (R238). Returns the context's running maximum as a witness. -/
  | wfront (a : XReg)
  /-- SCA (R321). Announces an update to a notification word through Gauze. -/
  | sca (a b : XReg) (imm : Word)
  /-- NRD (R322). Reads a notification word and its witness from the core's replica. -/
  | nrd (a c : XReg) (imm : Word)
  /-- NWAIT (R322). Waits until a notification word differs from a given value. -/
  | nwait (a b c : XReg) (imm : Word)
  /-- PCLR (R239). Clears a line to zero and removes its poisoned or lost mark. -/
  | pclr (a b : XReg) (sc : Option Scope)
  /-- BALLOC (R241). Claims a scratchpad buffer handle of a given size. -/
  | balloc (a b c : XReg)
  /-- BFREE (R242). Releases a scratchpad buffer the core holds. -/
  | bfree (b : XReg)
  /-- BGIVE (R243). Hands a scratchpad buffer to another core of the cluster. -/
  | bgive (b c : XReg)
  /-- BEXPORT_START (R244). With xc = 1, exports a buffer read-only to peers of the co-scheduled group. -/
  | bexportStart (b c : XReg)
  /-- BEXPORT_END (R244). With xc = 0, ends an export once started peer reads finish, and returns the buffer to the exporter. -/
  | bexportEnd (b c : XReg)
  /-- SPLD (R245). Loads one vector from scratchpad. -/
  | spld (a : VReg) (b : XReg) (imm : Word)
  /-- SPST (R245). Stores one vector to scratchpad. -/
  | spst (a : VReg) (b : XReg) (imm : Word)
  /-- CPY (R249). Queues a copy between memory and scratchpad endpoints. -/
  | cpy (a b c : XReg) (sc : Option Scope) (na : Bool)
  /-- CPYM (R249). Queues a copy multicast to the scratchpads of several clusters. -/
  | cpym (a b c : XReg) (sc : Option Scope) (na : Bool)
  /-- CPYR (R251). Queues a copy that reduces its source into the destination in a fixed order. -/
  | cpyr (a b c : XReg) (sc : Option Scope) (na : Bool)
  /-- SBIND (R259). Binds a stream to one of v56 to v63. -/
  | sbind (a : VReg) (b c : XReg) (na : Bool)
  /-- SUNBIND (R261). Ends a stream binding. -/
  | sunbind (a : VReg)
  /-- LNDSET (R254). Sets a landing object's mode, buffers and optional trigger counter. -/
  | lndset (a b c : XReg)
  /-- LNDWAIT (R256). Waits on a landing object and returns its merged witness and status. -/
  | lndwait (a b c : XReg)
  /-- LNDREL_BUFFER (R257). Returns one landing buffer to the landing object with its count cleared. -/
  | lndrelBuffer (a b : XReg)
  /-- LNDREL_DISMANTLE (R257). With xa all ones, dismantles a landing object once no delivery or copy to it remains. -/
  | lndrelDismantle (a b : XReg)
  /-- WAITA (R324). Waits until an SM or REPL word differs from a given value. -/
  | waita (a b c : XReg)
  /-- SPSTAT (R246). Reads scratchpad status: conflict cycles, a handle entry, free bytes or the copy queue depth. -/
  | spstat (a b : XReg) (imm : Word)
  /-- SPAWN (R304). Presents a task record and pushes it onto a deque. -/
  | spawn (a b c : XReg)
  /-- END (R280). Ends the firing: drains its engines, writes back, commits and decrements its launch. -/
  | endf
  /-- ARM (R307). Arms a task record on a trigger counter. -/
  | arm (a b c : XReg)
  /-- DISARM (R308). Removes the watch on a counter. -/
  | disarm (a b : XReg)
  /-- CNTADD (R309). Sends a counter message that adds an amount at the counter's home. -/
  | cntadd (a b : XReg) (sc : Option Scope)
  /-- CNTRD (R310). Reads a counter and its counter witness at its home. -/
  | cntrd (a b c : XReg)
  /-- LVOPEN (R311). Opens a level under a parent level. -/
  | lvopen (a b c : XReg) (imm : Word)
  /-- LVWAIT (R312). Waits until a level completes and returns its witness and status. -/
  | lvwait (a b c : XReg)
  /-- LVCANCEL (R313). Announces the cancellation of a level and the levels beneath it. -/
  | lvcancel (b : XReg)
  /-- LVSTAT (R314). Reads a level-table entry without waiting. -/
  | lvstat (a b c : XReg)
  /-- BARA (R316). Arrives at a Scrim barrier with a generation bit. -/
  | bara (imm : Word)
  /-- BARW (R316). Waits until the named barrier generation ends, then reports released or TIMEOUT. -/
  | barw (a : XReg) (imm : Word)
  /-- BARCFG (R315). Claims, reconfigures or releases a die barrier from a configuration record. -/
  | barcfg (a b c : XReg)
  /-- HSPAWN (R317). Starts the run-ahead helper context at an address. -/
  | hspawn (a b : XReg)
  /-- HSTOP (R317). Stops the helper if it belongs to the issuing firing. -/
  | hstop
  /-- EXPOSE (R318). Commits the staging of an unexposed recoverable firing and exposes it. -/
  | expose
  /-- YIELD (R319). Saves the firing and lets a waiting record of its class or higher run in its place. -/
  | yieldf
  /-- SELF (R320). Reads the firing's start witness, record address or held level count. -/
  | self (a : XReg) (imm : Word)
  /-- CRD (R358). Reads a control register. -/
  | crd (a : XReg) (imm : Word)
  /-- CWR (R358). Writes a control register that has no behaviour of its own, under its field map. -/
  | cwr (a : XReg) (imm : Word)
  /-- SEED_INSTALL (R327). A CWR to SEED.HI suspends the owner's other contexts, writes back its dirty lines and installs the new seed with its draw counters at 0. -/
  | seedInstall (a : XReg)
  /-- TRET (R359). Returns from a handler to the mode recorded in TSTAT.PMODE. -/
  | tret
  /-- TLBINV (R360). Invalidates translations in a scope and applies owner-table changes. -/
  | tlbinv (b c : XReg) (sc : Option Scope)
  /-- TLBPROBE (R361). Walks an owner's translation tables for a VA without filling any TLB. -/
  | tlbprobe (a b c : XReg)
  /-- PMAPW (R362). Makes a die load and check its place map from its image. -/
  | pmapw (a b : XReg)
  /-- PMAPRD (R363). Reads one entry of the place map in effect. -/
  | pmaprd (a b c : XReg)
  /-- TRCMARK (R364). Writes a trace mark record into the owner's session. -/
  | trcmark (imm : Word)
  /-- TRCCTL_OPEN (R365). Opens an owner's trace session into a buffer. -/
  | trcctlOpen (a b c : XReg)
  /-- TRCCTL_CLOSE (R365). Flushes the tail of an owner's trace session and closes it. -/
  | trcctlClose (a b c : XReg)
  /-- TRCCTL_GRANT (R365). A sealed owner grants debug, trace and snapshot access to owner 0 or the host. -/
  | trcctlGrant (a b c : XReg)
  /-- TRCCTL_WITHDRAW (R365). Withdraws a grant. -/
  | trcctlWithdraw (a b c : XReg)
  /-- TRCCTL_STATUS (R365). Returns the trace session's status. -/
  | trcctlStatus (a b c : XReg)
  /-- MPASS (R367). Starts a multi-pass measurement run of a launch. -/
  | mpass (a b : XReg)
  /-- EVSEL (R366). Selects and zeroes a performance counter. -/
  | evsel (a b c : XReg)
  /-- EVRD (R366). Reads a performance counter. -/
  | evrd (a b : XReg)
  /-- RPLCTL_STOP (R368). Stops recording or replay for an owner. -/
  | rplctlStop (a b c : XReg)
  /-- RPLCTL_RECORD (R368). Starts recording a suspended owner into a log. -/
  | rplctlRecord (a b c : XReg)
  /-- RPLCTL_REPLAY (R368). Starts replaying a log for a suspended owner. -/
  | rplctlReplay (a b c : XReg)
  /-- RPLCTL_STATUS (R368). Returns the count of events, FULL, DIVERGED and the mode. -/
  | rplctlStatus (a b c : XReg)
  /-- CTXSAVE (R369). Saves a context's firing into a named slot and frees the context. -/
  | ctxsave (a b c : XReg)
  /-- CTXLOAD (R369). Resumes a saved firing from a slot in a free context of a core. -/
  | ctxload (a b c : XReg)
  /-- IDLE (R370). Gates the context's clocks until a trap is pending or the deque receives a push. -/
  | idle
  /-- RESEED (R372). Installs a new seed for a suspended owner. -/
  | reseed (a b c : XReg)
  /-- XQ (R373). Returns the exceedance bound of the wait at an arbitration class. -/
  | xq (a b c : XReg)
  /-- XDRAW (R374). Reads one draw of a stream without advancing its counter. -/
  | xdraw (a b c : XReg)
  /-- DACCRD (R375). Reads the SUM and COUNT of a delay accumulator. -/
  | daccrd (a b : XReg)
  /-- DACCCLR (R375). Clears one delay accumulator, or all of them. -/
  | daccclr (b : XReg)
  /-- UMRD (R376). Reads a utility-monitor hit count. -/
  | umrd (a b : XReg)
  /-- QSET (R377). Writes one entry of a share or quota table. -/
  | qset (a b c : XReg)
  /-- QRD (R378). Reads one entry of a share or quota table. -/
  | qrd (a b : XReg)
  /-- MEASURE (R379). Hashes a list of pages and extends the owner's measurement chain. -/
  | measure (a : VReg) (b c : XReg)
  /-- ATTEST_REPORT (R380). Writes a signed attestation report. -/
  | attestReport (a b c : XReg) (imm : Word)
  /-- ATTEST_DECAPSULATE (R380). Decapsulates an ML-KEM ciphertext and writes the shared secret into a sealed page. -/
  | attestDecapsulate (a b c : XReg)
  /-- TRAP_ENTRY (R382). Takes a trap pending between instructions, such as an engine fault, NOTICE, TIMER or LOST, at an instruction boundary. -/
  | trapEntry (c : CtxId)
  /-- TDLINE_DEADLINE (R85). Fabric time reaches the armed TDLINE deadline and TIMER becomes pending. -/
  | tdlineDeadline (c : CtxId)
  /-- LEASE_EXPIRY (R207). A clean copy becomes absent once fabric time passes its expiry. -/
  | leaseExpiry (at_ : CacheId) (line : Nat)
  /-- HOME_APPLY (R205). A home slice applies and stamps an SM load, store or atomic that reaches it. -/
  | homeApply (id : Nat)
  /-- WITNESS_DELIVERED (R196). A pending witness or result register is written once its writes are delivered at scope. -/
  | witnessDelivered (c : CtxId) (r : XReg)
  /-- REFUSAL_REPORT (R226). A home's refusal of a store, atomic, write-back or counter message reaches the core and raises POISON. -/
  | refusalReport (id : Nat)
  /-- LOST_REPORT (R385). An issued effect whose home or copy engine was lost is reported as LOST. -/
  | lostReport (id : Nat)
  /-- DIRTY_WRITEBACK (R206). A dirty PRIV line is written back to the level below on eviction. -/
  | dirtyWriteback (at_ : CacheId) (line : Nat)
  /-- CR_FOLD (R174). A die partial evicted from its near-tier slice is folded into the home value. -/
  | crFold (die line : Nat)
  /-- REPL_SEQUENCE (R210). The sequencer die stamps a REPL store and multicasts it to the replicas. -/
  | replSequence (id : Nat)
  /-- REPL_REPLICA_APPLY (R210). A replica applies REPL stores in stamp order and advances its applied-through mark. -/
  | replReplicaApply (die : Nat)
  /-- REPL_MARK (R212). While no store flows, the sequencer sends an applied-through mark every 256 ns. -/
  | replMark
  /-- CLASS_CHANGE_COMPLETE (R209). A page's class change completes once invalidations are acknowledged and the longest lease has run out. -/
  | classChangeComplete (i : Nat)
  /-- ANNOUNCE_PRESENT (R216). Once the running maximum is delivered at device scope, the core presents an announcement into a Gauze window. -/
  | announcePresent (core : Nat)
  /-- GAUZE_WINDOW_APPLY (R216). At 64k + 384 ns each core applies window k's announcements in their total order. -/
  | gauzeWindowApply
  /-- MATRIX_OP_START (R165). A matched gang operation starts once every member has issued it. -/
  | matrixOpStart (core : Nat)
  /-- MATRIX_OP_COMPLETE (R156). A matrix operation completes: its contributions are staged or committed, its buffers are handed on and any fault is reported. -/
  | matrixOpComplete (core : Nat)
  /-- GANG_TIMEOUT (R165). A gang position unmatched 65,536 ns after its first issue raises GANG. -/
  | gangTimeout (core : Nat)
  /-- SLICE_RAMP_DOWN (R177). A matrix slice idle for 256 core cycles ramps down. -/
  | sliceRampDown (core : Nat)
  /-- LANE_STORE_CLEAR (R17). The lane store's clear to zero completes and a waiting lane-store instruction may take it. -/
  | laneStoreClear (core : Nat)
  /-- COPY_ENQUEUE (R249). A copy that waited for room in the full queue passes its buffers to the engine and joins the queue. -/
  | copyEnqueue (c : CtxId)
  /-- COPY_START (R249). The copy engine starts a queued copy, chosen by scheduler draws. -/
  | copyStart (cluster : Nat)
  /-- COPY_COMPLETE (R252). A copy completes, hands on its buffers and records status and witness in its landing object. -/
  | copyComplete (cluster tag : Nat)
  /-- INBOUND_DELIVERY (R255). An inbound scratchpad delivery lands its bytes, refuses or waits, and counts into the landing object. -/
  | inboundDelivery (i : Nat)
  /-- COUNTER_MESSAGE_APPLY (R284). A counter's home applies a counter message and runs the trigger check, making fires. -/
  | counterMessageApply (id : Nat)
  /-- TRIGGER_FIRE_PUSH (R284). A fire reaching the arming core pushes its record onto a deque. -/
  | triggerFirePush (i : Nat)
  /-- DEQUE_PUSH_RETRY (R278). A refused push pending in a trigger entry is retried when the deque loses a record. -/
  | dequePushRetry (core : Nat)
  /-- FIRING_DISPATCH (R279). A free context pops a record, dropping it if cancelled or starting a firing. -/
  | firingDispatch (c : CtxId)
  /-- STEAL_REQUEST (R281). An idle core sends a steal request every 256 ns, or sleeps after a fruitless sweep. -/
  | stealRequest (core : Nat)
  /-- STEAL_REPLY (R281). A victim answers a steal request with its oldest record of the highest class. -/
  | stealReply (i : Nat)
  /-- FIRING_REDISPATCH (R291). A lost unexposed recoverable firing's staging is discarded and its record is pushed to another core. -/
  | firingRedispatch (i : Nat)
  /-- PREEMPTION (R386). After its waits, a context is saved to a slot, or restarted if it is unexposed recoverable. -/
  | preemption (c : CtxId)
  /-- SUSPENDED_RESUME (R391). When an owner's SUSP clears, its suspended slots resume in their places. -/
  | suspendedResume (oid slot : Nat)
  /-- WAITA_POLL (R300). A polled WAITA re-reads its word every 256 core cycles. -/
  | waitaPoll (c : CtxId)
  /-- WAITA_WAKE (R301). A monitored WAITA re-reads its word after a write to the line. -/
  | waitaWake (c : CtxId)
  /-- INSTR_WAIT_END (R303). A waiting instruction completes once the condition it waits for holds. -/
  | instrWaitEnd (c : CtxId)
  /-- BARRIER_TIMEOUT (R296). A barrier generation's time-out expires, flipping G and ending it as timed out. -/
  | barrierTimeout (die bar : Nat)
  /-- QUOTA_INTERVAL (R341). At the end of each utility interval a slice moves ways between partitions and halves its hit counts. -/
  | quotaInterval (far : Bool) (die slice : Nat)
  /-- MPASS_PASS_END (R367). When a pass's launch completes, counts and signatures are recorded and pages are restored before the next pass or DONE. -/
  | mpassPassEnd (oid : Nat)
  /-- REPLAY_HOLD_TIMEOUT (R413). An event held 2^20 ns for its logged predecessor is released and counts as a divergence. -/
  | replayHoldTimeout (id : Nat)
  /-- UNCORRECTABLE_ERROR (R394). A check finds an uncorrectable error and the structure drops, poisons or reports it. -/
  | uncorrectableError (site : ErrSite)
  /-- LINK_CRC_RETRY (R394). A flit failing its CRC on an edge or link is retried. -/
  | linkCrcRetry (wire : Nat)
  /-- EDGE_LINK_FAIL (R394). After 16 failed retries of one flit, the edge or link is failed. -/
  | edgeLinkFail (wire : Nat)
  /-- CORE_FAIL (R399). A core is failed by a second HWERR, 10 us of silence or a report, and its firings and lines are handled. -/
  | coreFail (core : Nat)
  /-- CLUSTER_FAIL (R401). A cluster is failed and its places, copies and exported buffers are handled. -/
  | clusterFail (cluster : Nat)
  /-- DIE_FAIL (R401). A die is lost, which fails its clusters and marks its lines lost elsewhere. -/
  | dieFail (die : Nat)
  /-- GROUP_FATAL_FAULT (R402). A cluster of a co-scheduled group takes a fatal fault and its exported buffers are quarantined. -/
  | groupFatalFault (cluster : Nat)
  /-- CROSS_TRIGGER_HALT (R403). A cross-trigger halts a cluster, and the debug module writes a snapshot. -/
  | crossTriggerHalt (cluster : Nat)
  /-- HALT_RESUME (R404). A halted cluster resumes. -/
  | haltResume (cluster : Nat)
  /-- CRASH_DUMP (R416). On a kernel panic or watchdog expiry the crash kernel halts every cluster and writes the dump. -/
  | crashDump
  /-- INBOUND_REQUEST (R419). A host or link request through an aperture is checked and takes effect by the page's class. -/
  | inboundRequest (q : Inbound)
  /-- APERTURE_COUNTER_WRITE (R420). A write through a CNT aperture becomes a counter message after earlier writes of its source. -/
  | apertureCounterWrite (q : Inbound)
  /-- QRESET (R424). A host write to QRESET closes the owner's trace session and passes the request to the device kernel. -/
  | qreset (w : Word)
  /-- MBOX (R423). A host write to MBOX passes a 64-bit message to the device kernel. -/
  | mbox (w : Word)
  /-- HOST_CTRL_WRITE (R423). A host write to any other offset of the control region is ignored. -/
  | hostCtrlWrite (off : Nat) (w : Word)
  /-- FUNCTION_LEVEL_RESET (R421). A PCIe function-level reset resets the whole package. -/
  | functionLevelReset
  /-- NVME_DMA_WRITE (R425). A device behind an NVMe root port writes to system-core SRAM or a named HBM frame. -/
  | nvmeDmaWrite (sram : Bool) (addr : Nat) (data : List Byte)
  /-- BOOT (R428). At power-on, boot verifies the firmware and configuration, trains HBM and links and starts the device kernel. -/
  | boot (fail : BitVec 8)
  /-- SUPPLY_SAG (R429). A supply sag halves a cluster's arithmetic clock. -/
  | supplySag (cluster : Nat)
  /-- SUPPLY_RESTORE (R429). 50 ns after the supply is back in range, the clock is restored. -/
  | supplyRestore (cluster : Nat)
  /-- POWER_LIMIT_ADJUST (R430). The power manager sets cluster clocks to keep module power within the limit. -/
  | powerLimitAdjust (watts : Nat) (clocks : List (Nat × Nat))
  /-- THERMAL_THROTTLE (R431). A die at 100 C lowers its clusters' clocks in 100 MHz steps. -/
  | thermalThrottle (die : Nat)
  /-- THERMAL_SHUTDOWN (R431). At 110 C on any die, the module removes package power. -/
  | thermalShutdown (die : Nat)
  /-- HOME_SLICE_FAIL (R397). A home slice fails, and the lines it held dirty, or every line of its channel, are marked lost. -/
  | homeSliceFail (die slice : Nat) (tagsReadable : Bool)
  /-- NEAR_TIER_DATA_ARRAYS_FAIL (R397). The data arrays of a near-tier slice fail, and every line its tags show dirty and every CR die partial it holds are marked lost. -/
  | nearTierDataArraysFail (cluster : Nat)
  /-- MHINT_HOLD_END (R177). The n·64 core cycles of full-rate hold that an MHINT began run out, and the slice is no longer held at full rate. -/
  | mhintHoldEnd (core : Nat)
  deriving DecidableEq, Repr

end Sys2Proof
end

