-- ==== Sys2Proof/WellFormed.lean ====
section
/-! DEFINITION. Which instruction terms an instruction chain can carry: the operand must fit the IMX words that the
other prefixes leave room for (spec/02_assembly.md R36, R41), and a row that an immediate selects must hold that
immediate. Events name units that the package has (spec/01_machine.md R8). -/

namespace Sys2Proof

/-- The IMX words a chain has room for beside its RGX and its PGX (R41: at most four prefixes). -/
def imxRoom (rgx pgx : Bool) : Nat := 4 - rgx.toNat - pgx.toNat

/-- The operand `imm` is the sign extension of its low `bits` bits (R36). -/
def fitsSigned (bits : Nat) (imm : Word) : Bool := (imm.setWidth bits).signExtend 64 == imm

/-- The operand `imm` is the zero extension of its low `bits` bits (R36). -/
def fitsZero (bits : Nat) (imm : Word) : Bool := (imm.setWidth bits).setWidth 64 == imm

/-- A context of the package. -/
def CtxId.wf (c : CtxId) : Bool := c.core < 2304 && c.which < 3

/-- A cache of the package. -/
def CacheId.wf : CacheId → Bool
  | .l1 c => c < 2304
  | .l1i c => c < 2304
  | .near c => c < 288
  | .far s => s < 1152

/-- An instruction that some chain encodes, or an event that the package can have. -/
def Instr.wf : Instr → Bool
  | .nop => true
  | .mov _ _ => true
  | .li _ imm => fitsSigned (5 + 10 * imxRoom false false) imm
  | .lih _ imm => fitsSigned (5 + 10 * imxRoom false false) imm
  | .add _ _ _ _ => true
  | .sub _ _ _ _ => true
  | .mul _ _ _ _ => true
  | .mulh _ _ _ _ => true
  | .mulhu _ _ _ _ => true
  | .div _ _ _ _ => true
  | .divu _ _ _ _ => true
  | .rem _ _ _ _ => true
  | .remu _ _ _ _ => true
  | .and _ _ _ => true
  | .or _ _ _ => true
  | .xor _ _ _ => true
  | .shl _ _ _ _ => true
  | .shr _ _ _ _ => true
  | .sra _ _ _ _ => true
  | .rotl _ _ _ _ => true
  | .min _ _ _ _ => true
  | .max _ _ _ _ => true
  | .minu _ _ _ _ => true
  | .maxu _ _ _ _ => true
  | .seq _ _ _ _ => true
  | .slt _ _ _ _ => true
  | .sltu _ _ _ _ => true
  | .addi _ sz imm => fitsSigned (5 + 10 * imxRoom (sz != .d) false) imm
  | .andi _ imm => fitsSigned (5 + 10 * imxRoom false false) imm
  | .ori _ imm => fitsSigned (5 + 10 * imxRoom false false) imm
  | .shli _ sz imm => fitsSigned (5 + 10 * imxRoom (sz != .d) false) imm
  | .shri _ sz imm => fitsSigned (5 + 10 * imxRoom (sz != .d) false) imm
  | .srai _ sz imm => fitsSigned (5 + 10 * imxRoom (sz != .d) false) imm
  | .slti _ sz imm => fitsSigned (5 + 10 * imxRoom (sz != .d) false) imm
  | .clz _ _ _ => true
  | .popc _ _ _ => true
  | .sel _ _ _ => true
  | .ld _ _ sz imm na => fitsSigned (0 + 10 * imxRoom (sz != .d) (na)) imm
  | .ldx _ _ sz imm na => fitsSigned (0 + 10 * imxRoom (sz != .d) (na)) imm
  | .st _ _ c sz imm sc na => fitsSigned (0 + 10 * imxRoom (c != 0 || sz != .d) (sc.isSome || na)) imm
  | .ldw _ _ c sz imm na => fitsSigned (0 + 10 * imxRoom (c != 0 || sz != .d) (na)) imm
  | .wmax _ _ _ => true
  | .br imm => fitsSigned (10 + 10 * imxRoom false false) imm
  | .bz _ imm => fitsSigned (5 + 10 * imxRoom false false) imm
  | .bnz _ imm => fitsSigned (5 + 10 * imxRoom false false) imm
  | .bltz _ imm => fitsSigned (5 + 10 * imxRoom false false) imm
  | .bgez _ imm => fitsSigned (5 + 10 * imxRoom false false) imm
  | .call imm => fitsSigned (10 + 10 * imxRoom false false) imm
  | .callr _ => true
  | .jr _ => true
  | .jtab _ _ imm => fitsZero (0 + 10 * imxRoom false false) imm
  | .bany _ sz imm => fitsSigned (5 + 10 * imxRoom (sz != .s32) false) imm
  | .bnone _ sz imm => fitsSigned (5 + 10 * imxRoom (sz != .s32) false) imm
  | .ball _ sz imm => fitsSigned (5 + 10 * imxRoom (sz != .s32) false) imm
  | .mrd _ _ => true
  | .mwr _ _ => true
  | .time _ => true
  | .brk imm => fitsZero (10 + 10 * imxRoom false false) imm
  | .sys imm => fitsZero (10 + 10 * imxRoom false false) imm
  | .vmov _ _ _ _ => true
  | .vbcast _ _ _ _ => true
  | .vext _ b sz imm _ => fitsZero (0 + 10 * imxRoom (sz != .s32 || b.msb) (true)) imm
  | .vins a _ sz imm _ => fitsZero (0 + 10 * imxRoom (sz != .s32 || a.msb) (true)) imm
  | .vld a _ sz imm _ => fitsSigned (0 + 10 * imxRoom (sz != .s32 || a.msb) (true)) imm
  | .vst a _ c sz imm _ => fitsSigned (0 + 10 * imxRoom (c != 0 || sz != .s32 || a.msb) (true)) imm
  | .vlds a _ c sz imm _ => fitsSigned (0 + 10 * imxRoom (c != 0 || sz != .s32 || a.msb) (true)) imm
  | .vgath a _ c sz imm _ => fitsSigned (0 + 10 * imxRoom (c != 0 || sz != .s32 || a.msb) (true)) imm
  | .vscat a _ c sz imm _ => fitsSigned (0 + 10 * imxRoom (c != 0 || sz != .s32 || a.msb) (true)) imm
  | .vlsr _ _ _ _ => true
  | .vlsw _ _ _ _ => true
  | .vperm _ _ _ _ _ => true
  | .vrot a b sz imm _ => fitsZero (0 + 10 * imxRoom (sz != .s32 || a.msb || b.msb) (true)) imm
  | .vadd _ _ _ _ _ _ => true
  | .vsub _ _ _ _ _ _ => true
  | .vmul _ _ _ _ _ _ => true
  | .vmulh _ _ _ _ _ => true
  | .vmin _ _ _ _ _ => true
  | .vmax _ _ _ _ _ => true
  | .vand _ _ _ _ _ => true
  | .vor _ _ _ _ _ => true
  | .vxor _ _ _ _ _ => true
  | .vshl _ _ _ _ _ _ => true
  | .vshr _ _ _ _ _ => true
  | .vsra _ _ _ _ _ => true
  | .vcmp _ b c sz imm _ => fitsZero (0 + 10 * imxRoom (c != 0 || sz != .s32 || b.msb) (true)) imm
  | .vsel _ _ _ _ _ => true
  | .vdot4 a b c imm _ _ => fitsZero (0 + 10 * imxRoom (c != 0 || a.msb || b.msb) (true)) imm
  | .vmac _ _ _ _ _ _ => true
  | .vrshr _ _ _ _ _ _ => true
  | .vclamp _ _ _ _ _ => true
  | .vfadd _ _ _ _ _ _ => true
  | .vfsub _ _ _ _ _ _ => true
  | .vfmul _ _ _ _ _ _ => true
  | .vfma _ _ _ _ _ _ => true
  | .vfmin _ _ _ _ _ => true
  | .vfmax _ _ _ _ _ => true
  | .vfrcp _ _ _ _ _ => true
  | .vfrsq _ _ _ _ _ => true
  | .vfexp2 _ _ _ _ _ => true
  | .vcvt a b imm _ _ => fitsZero (0 + 10 * imxRoom (a.msb || b.msb) (true)) imm
  | .vredadd _ _ _ _ _ => true
  | .vredmax _ _ _ _ => true
  | .vfred _ _ _ _ _ => true
  | .mlog _ _ _ _ imm _ => fitsZero (0 + 10 * imxRoom (true) (true)) imm
  | .mgang imm => fitsZero (10 + 10 * imxRoom false (true)) imm
  | .mma _ _ c imm => fitsZero (0 + 10 * imxRoom (c != 0) (true)) imm
  | .mmas _ _ c imm => fitsZero (0 + 10 * imxRoom (c != 0) (true)) imm
  | .mmat _ _ c imm => fitsZero (0 + 10 * imxRoom (c != 0) (true)) imm
  | .tld _ _ c imm => fitsZero (0 + 10 * imxRoom (c != 0) (true)) imm
  | .tst _ _ c imm => fitsZero (0 + 10 * imxRoom (c != 0) (true)) imm
  | .tzero _ => true
  | .mhint imm => fitsZero (10 + 10 * imxRoom false (true)) imm
  | .mwait _ => true
  | .mstat _ _ c imm => fitsZero (0 + 10 * imxRoom (c != 0) (true)) imm
  | .crclr _ _ _ => true
  | .crflush _ _ _ => true
  | .crrd _ _ _ _ => true
  | .cradd _ _ _ => true
  | .amoadd _ _ _ _ _ => true
  | .amoand _ _ _ _ _ => true
  | .amoor _ _ _ _ _ => true
  | .amoxor _ _ _ _ _ => true
  | .amomin _ _ _ _ _ => true
  | .amomax _ _ _ _ _ => true
  | .amominu _ _ _ _ _ => true
  | .amomaxu _ _ _ _ _ => true
  | .amoswp _ _ _ _ _ => true
  | .amocas _ _ _ _ _ => true
  | .amofadd _ _ _ _ _ => true
  | .mxacc a _ c sz imm _ => fitsZero (0 + 10 * imxRoom (c != 0 || sz != .d || a.msb) (true)) imm
  | .prf _ imm _ _ => fitsSigned (0 + 10 * imxRoom false (true)) imm
  | .wtest _ _ => true
  | .wwait _ => true
  | .wfront _ => true
  | .sca _ _ imm => fitsZero (0 + 10 * imxRoom false (true)) imm
  | .nrd _ c imm => fitsZero (0 + 10 * imxRoom (c != 0) (true)) imm
  | .nwait _ _ c imm => fitsZero (0 + 10 * imxRoom (c != 0) (true)) imm
  | .pclr _ _ _ => true
  | .balloc _ _ _ => true
  | .bfree _ => true
  | .bgive _ _ => true
  | .bexportStart _ _ => true
  | .bexportEnd _ _ => true
  | .spld a _ imm => fitsSigned (0 + 10 * imxRoom (a.msb) (true)) imm
  | .spst a _ imm => fitsSigned (0 + 10 * imxRoom (a.msb) (true)) imm
  | .cpy _ _ _ _ _ => true
  | .cpym _ _ _ _ _ => true
  | .cpyr _ _ _ _ _ => true
  | .sbind _ _ _ _ => true
  | .sunbind _ => true
  | .lndset _ _ _ => true
  | .lndwait _ _ _ => true
  | .lndrelBuffer _ _ => true
  | .lndrelDismantle _ _ => true
  | .waita _ _ _ => true
  | .spstat _ _ imm => fitsZero (0 + 10 * imxRoom false (true)) imm
  | .spawn _ _ _ => true
  | .endf => true
  | .arm _ _ _ => true
  | .disarm _ _ => true
  | .cntadd _ _ _ => true
  | .cntrd _ _ _ => true
  | .lvopen _ _ c imm => fitsZero (0 + 10 * imxRoom (c != 0) (true)) imm
  | .lvwait _ _ _ => true
  | .lvcancel _ => true
  | .lvstat _ _ _ => true
  | .bara imm => fitsZero 5 imm
  | .barw _ imm => fitsZero 5 imm
  | .barcfg _ _ _ => true
  | .hspawn _ _ => true
  | .hstop => true
  | .expose => true
  | .yieldf => true
  | .self _ imm => fitsZero (0 + 10 * imxRoom false (true)) imm
  | .crd _ imm => fitsZero (5 + 10 * imxRoom false (true)) imm
  | .cwr _ imm => fitsZero (5 + 10 * imxRoom false (true)) imm && imm != 67
  | .seedInstall _ => true
  | .tret => true
  | .tlbinv _ _ _ => true
  | .tlbprobe _ _ _ => true
  | .pmapw _ _ => true
  | .pmaprd _ _ _ => true
  | .trcmark imm => fitsZero (10 + 10 * imxRoom false (true)) imm
  | .trcctlOpen _ _ _ => true
  | .trcctlClose _ _ _ => true
  | .trcctlGrant _ _ _ => true
  | .trcctlWithdraw _ _ _ => true
  | .trcctlStatus _ _ _ => true
  | .mpass _ _ => true
  | .evsel _ _ _ => true
  | .evrd _ _ => true
  | .rplctlStop _ _ _ => true
  | .rplctlRecord _ _ _ => true
  | .rplctlReplay _ _ _ => true
  | .rplctlStatus _ _ _ => true
  | .ctxsave _ _ _ => true
  | .ctxload _ _ _ => true
  | .idle => true
  | .reseed _ _ _ => true
  | .xq _ _ _ => true
  | .xdraw _ _ _ => true
  | .daccrd _ _ => true
  | .daccclr _ => true
  | .umrd _ _ => true
  | .qset _ _ _ => true
  | .qrd _ _ => true
  | .measure _ _ _ => true
  | .attestReport _ _ c imm => fitsZero (0 + 10 * imxRoom (c != 0) (true)) imm && imm != 1
  | .attestDecapsulate _ _ _ => true
  | .trapEntry c => c.wf
  | .tdlineDeadline c => c.wf
  | .leaseExpiry at_ _ => at_.wf
  | .homeApply _ => true
  | .witnessDelivered c _ => c.wf
  | .refusalReport _ => true
  | .lostReport _ => true
  | .dirtyWriteback at_ _ => at_.wf
  | .crFold die _ => decide (die < 9)
  | .replSequence _ => true
  | .replReplicaApply die => decide (die < 9)
  | .replMark => true
  | .classChangeComplete _ => true
  | .announcePresent core => decide (core < 2304)
  | .gauzeWindowApply => true
  | .matrixOpStart core => decide (core < 2304)
  | .matrixOpComplete core => decide (core < 2304)
  | .gangTimeout core => decide (core < 2304)
  | .sliceRampDown core => decide (core < 2304)
  | .laneStoreClear core => decide (core < 2304)
  | .copyEnqueue c => c.wf
  | .copyStart cluster => decide (cluster < 288)
  | .copyComplete cluster _ => decide (cluster < 288)
  | .inboundDelivery _ => true
  | .counterMessageApply _ => true
  | .triggerFirePush _ => true
  | .dequePushRetry core => decide (core < 2304)
  | .firingDispatch c => c.wf
  | .stealRequest core => decide (core < 2304)
  | .stealReply _ => true
  | .firingRedispatch _ => true
  | .preemption c => c.wf
  | .suspendedResume oid _ => decide (oid < 256)
  | .waitaPoll c => c.wf
  | .waitaWake c => c.wf
  | .instrWaitEnd c => c.wf
  | .barrierTimeout die bar => decide (die < 9) && decide (bar < 16)
  | .quotaInterval far die slice => decide (die < 9) && decide (slice < if far then 128 else 32)
  | .mpassPassEnd oid => decide (oid < 256)
  | .replayHoldTimeout _ => true
  | .uncorrectableError _ => true
  | .linkCrcRetry wire => decide (wire < 28)
  | .edgeLinkFail wire => decide (wire < 28)
  | .coreFail core => decide (core < 2304)
  | .clusterFail cluster => decide (cluster < 288)
  | .dieFail die => decide (die < 9)
  | .groupFatalFault cluster => decide (cluster < 288)
  | .crossTriggerHalt cluster => decide (cluster < 288)
  | .haltResume cluster => decide (cluster < 288)
  | .crashDump => true
  | .inboundRequest q => q.src < 17 && q.ap < 64
  | .apertureCounterWrite q => q.src < 17 && q.ap < 64
  | .qreset _ => true
  | .mbox _ => true
  | .hostCtrlWrite _ _ => true
  | .functionLevelReset => true
  | .nvmeDmaWrite _ _ _ => true
  | .boot _ => true
  | .supplySag cluster => decide (cluster < 288)
  | .supplyRestore cluster => decide (cluster < 288)
  | .powerLimitAdjust _ clocks => clocks.all fun c => decide (c.1 < 288) && decide (0 < c.2) && decide (c.2 ≤ 3200000)
  | .thermalThrottle die => decide (die < 9)
  | .thermalShutdown die => decide (die < 9)
  | .homeSliceFail die slice _ => decide (die < 9) && decide (slice < 128)
  | .nearTierDataArraysFail cluster => decide (cluster < 288)
  | .mhintHoldEnd core => decide (core < 2304)

end Sys2Proof
end

