-- ==== Sys2Proof/Decode.lean ====
section
/-! DEFINITION. The decoder and the encoder of Otric chains (spec/02_assembly.md R34 to R48, spec/03_opcode_map.md
R60 to R70). A chain is scanned word by word, as R41 does; its fields are checked against the shape of the instruction
that its page and opcode name; then the instruction is built. The encoder is written from the same tables. -/

namespace Sys2Proof

/-- Why a chain is no instruction. Every one raises ILLEGAL (R39 to R47), but `truncated`, which says that more words
are needed. -/
inductive DecodeError where
  | reservedOpcode
  | tooManyPrefixes
  | prefixOrder
  | reservedPage
  | unassigned
  | unusedImx
  | unusedRgx
  | unusedPgx
  | badModifier
  | badSize
  | badField
  | truncated
  deriving DecidableEq, Repr

/-- The five forms of a base word (R35). -/
inductive Form where
  | a | i | b | j | n
  deriving DecidableEq, Repr

/-- The file that a register field names, or none (R46). -/
inductive Fld where
  | none | x | v | m | t
  deriving DecidableEq, Repr

/-- Whether an instruction takes a size, and of which kind (R38, R48). -/
inductive SizeUse where
  | none | scalar | vector
  deriving DecidableEq, Repr

/-- How an instruction uses its immediate: signed or zero-extended with IMX (R36), the bare field, a field that must
be 0 (R70), or ignored (NOP). -/
inductive ImmUse where
  | none | signed | zero | field | mustBeZero | ignored
  deriving DecidableEq, Repr

/-- The Mod column of R60. `p1` is MK alone; `sat` and `rnd` are MK with QL. -/
inductive ModUse where
  | none | s | n | sn | p1 | sat | rnd | raw
  deriving DecidableEq, Repr

/-- What the tables of R61 to R68 and the entries say of one instruction. `three` marks the two- and three-operand
forms of R47. -/
structure Shape where
  form : Form
  a : Fld
  b : Fld
  c : Fld
  three : Bool
  size : SizeUse
  imm : ImmUse
  mod : ModUse
  deriving DecidableEq, Repr

/-- The fields of a checked chain: the registers (six bits each), SIZE, the operand of R36 and the modifier. -/
structure Fields where
  a : BitVec 6 := 0
  b : BitVec 6 := 0
  c : BitVec 6 := 0
  size : BitVec 2 := 0
  imm : Word := 0
  mod : BitVec 6 := 0
  deriving DecidableEq, Repr

/-- A chain as the scan of R41 leaves it: the IMX count and bits, the payloads [9:0] of RGX and PGX, the base word. -/
structure Chain where
  imxCount : Nat := 0
  imx : BitVec 40 := 0
  rgx : Option (BitVec 10) := none
  pgx : Option (BitVec 10) := none
  base : Half := 0
  deriving DecidableEq, Repr

/-- Opcode bits [15:10] of a word (R35). -/
def opcodeOf (w : Half) : BitVec 6 := w.extractLsb' 10 6
/-- Payload bits [9:0] of a word. -/
def payloadOf (w : Half) : BitVec 10 := w.setWidth 10

/-- What the scan makes of one more word: more words are needed, or the base word ends the chain. -/
inductive Scan where
  | more (c : Chain)
  | last (c : Chain)
  deriving DecidableEq, Repr

/-- The prefixes that a chain holds so far. -/
def Chain.prefixes (c : Chain) : Nat := c.imxCount + c.rgx.isSome.toNat + c.pgx.isSome.toNat

/-- One turn of the loop of R41 on the word `w`. -/
def scanWord (c : Chain) (w : Half) : Except DecodeError Scan :=
  let op := opcodeOf w
  if op = 0x3f then .error .reservedOpcode
  else if op.toNat < 0x3c then .ok (.last { c with base := w })
  else if 4 ≤ c.prefixes then .error .tooManyPrefixes
  else if op = 0x3c then
    if c.rgx.isSome || c.pgx.isSome then .error .prefixOrder
    else .ok (.more { c with imxCount := c.imxCount + 1, imx := (c.imx <<< 10) ||| (payloadOf w).setWidth 40 })
  else if op = 0x3d then
    if c.rgx.isSome || c.pgx.isSome then .error .prefixOrder
    else .ok (.more { c with rgx := some (payloadOf w) })
  else
    if c.pgx.isSome then .error .prefixOrder
    else .ok (.more { c with pgx := some (payloadOf w) })

/-- The scan of R41 over words in order; the rest is what follows the base word. -/
def scanWords : Chain → List Half → Except DecodeError (Chain × List Half)
  | _, [] => .error .truncated
  | c, w :: ws =>
    match scanWord c w with
    | .error e => .error e
    | .ok (.last c') => .ok (c', ws)
    | .ok (.more c') => scanWords c' ws

/-- The instructions of page 0 (R61). -/
def page0Shape (op : Nat) : Option Shape :=
  match op with
  | 0x00 => some ⟨.n, .none, .none, .none, false, .none, .ignored, .none⟩
  | 0x01 => some ⟨.a, .x, .x, .none, false, .none, .none, .none⟩
  | 0x02 => some ⟨.i, .x, .none, .none, false, .none, .signed, .none⟩
  | 0x03 => some ⟨.i, .x, .none, .none, false, .none, .signed, .none⟩
  | 0x04 => some ⟨.a, .x, .x, .x, true, .scalar, .none, .none⟩
  | 0x05 => some ⟨.a, .x, .x, .x, true, .scalar, .none, .none⟩
  | 0x07 => some ⟨.a, .x, .x, .x, true, .scalar, .none, .none⟩
  | 0x08 => some ⟨.a, .x, .x, .x, true, .scalar, .none, .none⟩
  | 0x09 => some ⟨.a, .x, .x, .x, true, .scalar, .none, .none⟩
  | 0x0a => some ⟨.a, .x, .x, .x, true, .scalar, .none, .none⟩
  | 0x0b => some ⟨.a, .x, .x, .x, true, .scalar, .none, .none⟩
  | 0x0c => some ⟨.a, .x, .x, .x, true, .scalar, .none, .none⟩
  | 0x0d => some ⟨.a, .x, .x, .x, true, .scalar, .none, .none⟩
  | 0x0e => some ⟨.a, .x, .x, .x, true, .none, .none, .none⟩
  | 0x0f => some ⟨.a, .x, .x, .x, true, .none, .none, .none⟩
  | 0x10 => some ⟨.a, .x, .x, .x, true, .none, .none, .none⟩
  | 0x13 => some ⟨.a, .x, .x, .x, true, .scalar, .none, .none⟩
  | 0x14 => some ⟨.a, .x, .x, .x, true, .scalar, .none, .none⟩
  | 0x15 => some ⟨.a, .x, .x, .x, true, .scalar, .none, .none⟩
  | 0x19 => some ⟨.a, .x, .x, .x, true, .scalar, .none, .none⟩
  | 0x1c => some ⟨.a, .x, .x, .x, true, .scalar, .none, .none⟩
  | 0x1d => some ⟨.a, .x, .x, .x, true, .scalar, .none, .none⟩
  | 0x1e => some ⟨.a, .x, .x, .x, true, .scalar, .none, .none⟩
  | 0x1f => some ⟨.a, .x, .x, .x, true, .scalar, .none, .none⟩
  | 0x20 => some ⟨.a, .x, .x, .x, true, .scalar, .none, .none⟩
  | 0x21 => some ⟨.a, .x, .x, .x, true, .scalar, .none, .none⟩
  | 0x22 => some ⟨.a, .x, .x, .x, true, .scalar, .none, .none⟩
  | 0x06 => some ⟨.i, .x, .none, .none, false, .scalar, .signed, .none⟩
  | 0x11 => some ⟨.i, .x, .none, .none, false, .none, .signed, .none⟩
  | 0x12 => some ⟨.i, .x, .none, .none, false, .none, .signed, .none⟩
  | 0x16 => some ⟨.i, .x, .none, .none, false, .scalar, .signed, .none⟩
  | 0x17 => some ⟨.i, .x, .none, .none, false, .scalar, .signed, .none⟩
  | 0x18 => some ⟨.i, .x, .none, .none, false, .scalar, .signed, .none⟩
  | 0x23 => some ⟨.i, .x, .none, .none, false, .scalar, .signed, .none⟩
  | 0x1a => some ⟨.a, .x, .x, .none, false, .scalar, .none, .none⟩
  | 0x1b => some ⟨.a, .x, .x, .none, false, .scalar, .none, .none⟩
  | 0x24 => some ⟨.a, .x, .x, .x, false, .none, .none, .none⟩
  | 0x25 => some ⟨.a, .x, .x, .none, false, .scalar, .signed, .n⟩
  | 0x26 => some ⟨.a, .x, .x, .none, false, .scalar, .signed, .n⟩
  | 0x27 => some ⟨.a, .x, .x, .x, false, .scalar, .signed, .sn⟩
  | 0x28 => some ⟨.a, .x, .x, .x, false, .scalar, .signed, .n⟩
  | 0x29 => some ⟨.a, .x, .x, .x, true, .none, .none, .none⟩
  | 0x2a => some ⟨.j, .none, .none, .none, false, .none, .signed, .none⟩
  | 0x2b => some ⟨.b, .x, .none, .none, false, .none, .signed, .none⟩
  | 0x2c => some ⟨.b, .x, .none, .none, false, .none, .signed, .none⟩
  | 0x2d => some ⟨.b, .x, .none, .none, false, .none, .signed, .none⟩
  | 0x2e => some ⟨.b, .x, .none, .none, false, .none, .signed, .none⟩
  | 0x2f => some ⟨.j, .none, .none, .none, false, .none, .signed, .none⟩
  | 0x30 => some ⟨.a, .x, .none, .none, false, .none, .none, .none⟩
  | 0x31 => some ⟨.a, .x, .none, .none, false, .none, .none, .none⟩
  | 0x32 => some ⟨.a, .x, .x, .none, false, .none, .zero, .none⟩
  | 0x33 => some ⟨.b, .m, .none, .none, false, .vector, .signed, .none⟩
  | 0x34 => some ⟨.b, .m, .none, .none, false, .vector, .signed, .none⟩
  | 0x35 => some ⟨.b, .m, .none, .none, false, .vector, .signed, .none⟩
  | 0x36 => some ⟨.a, .x, .m, .none, false, .none, .none, .none⟩
  | 0x37 => some ⟨.a, .m, .x, .none, false, .none, .none, .none⟩
  | 0x38 => some ⟨.a, .x, .none, .none, false, .none, .none, .none⟩
  | 0x39 => some ⟨.n, .none, .none, .none, false, .none, .zero, .none⟩
  | 0x3a => some ⟨.n, .none, .none, .none, false, .none, .zero, .none⟩
  | _ => none

/-- The instructions of page 1 (R62). -/
def page1Shape (op : Nat) : Option Shape :=
  match op with
  | 0x00 => some ⟨.a, .v, .v, .none, false, .vector, .none, .p1⟩
  | 0x01 => some ⟨.a, .v, .x, .none, false, .vector, .none, .p1⟩
  | 0x02 => some ⟨.a, .x, .v, .none, false, .vector, .zero, .p1⟩
  | 0x03 => some ⟨.a, .v, .x, .none, false, .vector, .zero, .p1⟩
  | 0x04 => some ⟨.a, .v, .x, .none, false, .vector, .signed, .p1⟩
  | 0x05 => some ⟨.a, .v, .x, .x, false, .vector, .signed, .p1⟩
  | 0x06 => some ⟨.a, .v, .x, .x, false, .vector, .signed, .p1⟩
  | 0x07 => some ⟨.a, .v, .x, .v, false, .vector, .signed, .p1⟩
  | 0x08 => some ⟨.a, .v, .x, .v, false, .vector, .signed, .p1⟩
  | 0x09 => some ⟨.a, .v, .v, .none, false, .vector, .none, .p1⟩
  | 0x0a => some ⟨.a, .v, .v, .none, false, .vector, .none, .p1⟩
  | 0x0b => some ⟨.a, .v, .v, .v, true, .vector, .none, .p1⟩
  | 0x0c => some ⟨.a, .v, .v, .none, false, .vector, .zero, .p1⟩
  | 0x0d => some ⟨.a, .v, .v, .v, true, .vector, .none, .sat⟩
  | 0x0e => some ⟨.a, .v, .v, .v, true, .vector, .none, .sat⟩
  | 0x0f => some ⟨.a, .v, .v, .v, true, .vector, .none, .sat⟩
  | 0x10 => some ⟨.a, .v, .v, .v, true, .vector, .none, .p1⟩
  | 0x11 => some ⟨.a, .v, .v, .v, true, .vector, .none, .p1⟩
  | 0x12 => some ⟨.a, .v, .v, .v, true, .vector, .none, .p1⟩
  | 0x13 => some ⟨.a, .v, .v, .v, true, .vector, .none, .p1⟩
  | 0x14 => some ⟨.a, .v, .v, .v, true, .vector, .none, .p1⟩
  | 0x15 => some ⟨.a, .v, .v, .v, true, .vector, .none, .p1⟩
  | 0x16 => some ⟨.a, .v, .v, .v, true, .vector, .none, .sat⟩
  | 0x17 => some ⟨.a, .v, .v, .v, true, .vector, .none, .p1⟩
  | 0x18 => some ⟨.a, .v, .v, .v, true, .vector, .none, .p1⟩
  | 0x19 => some ⟨.a, .m, .v, .v, false, .vector, .zero, .p1⟩
  | 0x1a => some ⟨.a, .v, .v, .v, true, .vector, .none, .p1⟩
  | 0x1b => some ⟨.a, .v, .v, .v, false, .none, .zero, .sat⟩
  | 0x1c => some ⟨.a, .v, .v, .v, false, .vector, .none, .sat⟩
  | 0x1d => some ⟨.a, .v, .v, .v, true, .vector, .none, .rnd⟩
  | 0x1e => some ⟨.a, .v, .v, .v, false, .vector, .none, .p1⟩
  | 0x1f => some ⟨.a, .v, .v, .v, true, .vector, .none, .rnd⟩
  | 0x20 => some ⟨.a, .v, .v, .v, true, .vector, .none, .rnd⟩
  | 0x21 => some ⟨.a, .v, .v, .v, true, .vector, .none, .rnd⟩
  | 0x22 => some ⟨.a, .v, .v, .v, false, .vector, .none, .rnd⟩
  | 0x23 => some ⟨.a, .v, .v, .v, true, .vector, .none, .p1⟩
  | 0x24 => some ⟨.a, .v, .v, .v, true, .vector, .none, .p1⟩
  | 0x25 => some ⟨.a, .v, .v, .none, false, .vector, .none, .rnd⟩
  | 0x26 => some ⟨.a, .v, .v, .none, false, .vector, .none, .rnd⟩
  | 0x27 => some ⟨.a, .v, .v, .none, false, .vector, .none, .rnd⟩
  | 0x28 => some ⟨.a, .v, .v, .none, false, .none, .zero, .rnd⟩
  | 0x29 => some ⟨.a, .v, .v, .none, false, .vector, .none, .sat⟩
  | 0x2a => some ⟨.a, .v, .v, .none, false, .vector, .none, .p1⟩
  | 0x2b => some ⟨.a, .v, .v, .none, false, .vector, .none, .rnd⟩
  | 0x2c => some ⟨.a, .m, .m, .m, true, .vector, .zero, .p1⟩
  | _ => none

/-- The instructions of page 2 (R63). -/
def page2Shape (op : Nat) : Option Shape :=
  match op with
  | 0x00 => some ⟨.n, .none, .none, .none, false, .none, .zero, .none⟩
  | 0x01 => some ⟨.a, .x, .x, .x, false, .none, .zero, .none⟩
  | 0x02 => some ⟨.a, .x, .x, .x, false, .none, .zero, .none⟩
  | 0x03 => some ⟨.a, .x, .t, .x, false, .none, .zero, .none⟩
  | 0x04 => some ⟨.a, .t, .x, .x, false, .none, .zero, .none⟩
  | 0x05 => some ⟨.a, .t, .x, .x, false, .none, .zero, .none⟩
  | 0x06 => some ⟨.a, .t, .none, .none, false, .none, .none, .none⟩
  | 0x07 => some ⟨.n, .none, .none, .none, false, .none, .zero, .none⟩
  | 0x08 => some ⟨.a, .x, .none, .none, false, .none, .none, .none⟩
  | 0x09 => some ⟨.a, .x, .x, .x, false, .none, .zero, .none⟩
  | 0x0a => some ⟨.a, .x, .x, .x, false, .none, .none, .none⟩
  | 0x0b => some ⟨.a, .x, .x, .x, false, .none, .none, .none⟩
  | 0x0c => some ⟨.a, .v, .x, .x, false, .none, .none, .raw⟩
  | 0x0d => some ⟨.a, .v, .x, .x, false, .none, .none, .none⟩
  | _ => none

/-- The instructions of page 3 (R64). -/
def page3Shape (op : Nat) : Option Shape :=
  match op with
  | 0x00 => some ⟨.a, .x, .x, .x, false, .scalar, .none, .s⟩
  | 0x01 => some ⟨.a, .x, .x, .x, false, .scalar, .none, .s⟩
  | 0x02 => some ⟨.a, .x, .x, .x, false, .scalar, .none, .s⟩
  | 0x03 => some ⟨.a, .x, .x, .x, false, .scalar, .none, .s⟩
  | 0x04 => some ⟨.a, .x, .x, .x, false, .scalar, .none, .s⟩
  | 0x05 => some ⟨.a, .x, .x, .x, false, .scalar, .none, .s⟩
  | 0x06 => some ⟨.a, .x, .x, .x, false, .scalar, .none, .s⟩
  | 0x07 => some ⟨.a, .x, .x, .x, false, .scalar, .none, .s⟩
  | 0x08 => some ⟨.a, .x, .x, .x, false, .scalar, .none, .s⟩
  | 0x09 => some ⟨.a, .x, .x, .x, false, .scalar, .none, .s⟩
  | 0x0a => some ⟨.a, .x, .x, .x, false, .scalar, .none, .s⟩
  | 0x0b => some ⟨.a, .v, .x, .x, false, .scalar, .zero, .s⟩
  | 0x0c => some ⟨.a, .none, .x, .none, false, .none, .signed, .sn⟩
  | 0x0d => some ⟨.a, .x, .x, .none, false, .none, .none, .none⟩
  | 0x0e => some ⟨.a, .none, .x, .none, false, .none, .none, .none⟩
  | 0x0f => some ⟨.a, .x, .none, .none, false, .none, .none, .none⟩
  | 0x10 => some ⟨.a, .x, .x, .none, false, .none, .zero, .none⟩
  | 0x11 => some ⟨.a, .x, .none, .x, false, .none, .zero, .none⟩
  | 0x12 => some ⟨.a, .x, .x, .x, false, .none, .zero, .none⟩
  | 0x13 => some ⟨.a, .x, .x, .none, false, .none, .none, .s⟩
  | _ => none

/-- The instructions of page 4 (R65). -/
def page4Shape (op : Nat) : Option Shape :=
  match op with
  | 0x00 => some ⟨.a, .x, .x, .x, false, .none, .none, .none⟩
  | 0x01 => some ⟨.a, .none, .x, .none, false, .none, .none, .none⟩
  | 0x02 => some ⟨.a, .none, .x, .x, false, .none, .none, .none⟩
  | 0x03 => some ⟨.a, .none, .x, .x, false, .none, .none, .none⟩
  | 0x04 => some ⟨.a, .v, .x, .none, false, .none, .signed, .none⟩
  | 0x05 => some ⟨.a, .v, .x, .none, false, .none, .signed, .none⟩
  | 0x06 => some ⟨.a, .x, .x, .x, false, .none, .none, .sn⟩
  | 0x07 => some ⟨.a, .x, .x, .x, false, .none, .none, .sn⟩
  | 0x08 => some ⟨.a, .x, .x, .x, false, .none, .none, .sn⟩
  | 0x09 => some ⟨.a, .v, .x, .x, false, .none, .none, .n⟩
  | 0x0a => some ⟨.a, .v, .none, .none, false, .none, .none, .none⟩
  | 0x0b => some ⟨.a, .x, .x, .x, false, .none, .none, .none⟩
  | 0x0c => some ⟨.a, .x, .x, .x, false, .none, .none, .none⟩
  | 0x0d => some ⟨.a, .x, .x, .none, false, .none, .none, .none⟩
  | 0x0e => some ⟨.a, .x, .x, .x, false, .none, .none, .none⟩
  | 0x0f => some ⟨.a, .x, .x, .none, false, .none, .zero, .none⟩
  | _ => none

/-- The instructions of page 5 (R66). -/
def page5Shape (op : Nat) : Option Shape :=
  match op with
  | 0x00 => some ⟨.a, .x, .x, .x, false, .none, .none, .none⟩
  | 0x01 => some ⟨.n, .none, .none, .none, false, .none, .mustBeZero, .none⟩
  | 0x02 => some ⟨.a, .x, .x, .x, false, .none, .none, .none⟩
  | 0x03 => some ⟨.a, .x, .x, .none, false, .none, .none, .none⟩
  | 0x04 => some ⟨.a, .x, .x, .none, false, .none, .none, .s⟩
  | 0x05 => some ⟨.a, .x, .x, .x, false, .none, .none, .none⟩
  | 0x06 => some ⟨.a, .x, .x, .x, false, .none, .zero, .none⟩
  | 0x07 => some ⟨.a, .x, .x, .x, false, .none, .none, .none⟩
  | 0x08 => some ⟨.a, .none, .x, .none, false, .none, .none, .none⟩
  | 0x09 => some ⟨.a, .x, .x, .x, false, .none, .none, .none⟩
  | 0x0a => some ⟨.i, .none, .none, .none, false, .none, .field, .none⟩
  | 0x0b => some ⟨.i, .x, .none, .none, false, .none, .field, .none⟩
  | 0x0c => some ⟨.a, .x, .x, .x, false, .none, .none, .none⟩
  | 0x0d => some ⟨.a, .x, .x, .none, false, .none, .none, .none⟩
  | 0x0e => some ⟨.n, .none, .none, .none, false, .none, .mustBeZero, .none⟩
  | 0x0f => some ⟨.n, .none, .none, .none, false, .none, .mustBeZero, .none⟩
  | 0x10 => some ⟨.n, .none, .none, .none, false, .none, .mustBeZero, .none⟩
  | 0x11 => some ⟨.a, .x, .none, .none, false, .none, .zero, .none⟩
  | _ => none

/-- The instructions of page 6 (R67). -/
def page6Shape (op : Nat) : Option Shape :=
  match op with
  | 0x00 => some ⟨.i, .x, .none, .none, false, .none, .zero, .none⟩
  | 0x01 => some ⟨.i, .x, .none, .none, false, .none, .zero, .none⟩
  | 0x02 => some ⟨.n, .none, .none, .none, false, .none, .mustBeZero, .none⟩
  | 0x03 => some ⟨.a, .none, .x, .x, false, .none, .none, .s⟩
  | 0x04 => some ⟨.a, .x, .x, .x, false, .none, .none, .none⟩
  | 0x05 => some ⟨.a, .x, .x, .none, false, .none, .none, .none⟩
  | 0x06 => some ⟨.a, .x, .x, .x, false, .none, .none, .none⟩
  | 0x07 => some ⟨.n, .none, .none, .none, false, .none, .zero, .none⟩
  | 0x08 => some ⟨.a, .x, .x, .x, false, .none, .none, .none⟩
  | 0x09 => some ⟨.a, .x, .x, .none, false, .none, .none, .none⟩
  | 0x0a => some ⟨.a, .x, .x, .x, false, .none, .none, .none⟩
  | 0x0b => some ⟨.a, .x, .x, .none, false, .none, .none, .none⟩
  | 0x0c => some ⟨.a, .x, .x, .x, false, .none, .none, .none⟩
  | 0x0d => some ⟨.a, .x, .x, .x, false, .none, .none, .none⟩
  | 0x0e => some ⟨.a, .x, .x, .x, false, .none, .none, .none⟩
  | 0x0f => some ⟨.n, .none, .none, .none, false, .none, .mustBeZero, .none⟩
  | _ => none

/-- The instructions of page 7 (R68). -/
def page7Shape (op : Nat) : Option Shape :=
  match op with
  | 0x00 => some ⟨.a, .x, .x, .x, false, .none, .none, .none⟩
  | 0x01 => some ⟨.a, .x, .x, .x, false, .none, .none, .none⟩
  | 0x02 => some ⟨.a, .x, .x, .x, false, .none, .none, .none⟩
  | 0x03 => some ⟨.a, .x, .x, .none, false, .none, .none, .none⟩
  | 0x04 => some ⟨.a, .none, .x, .none, false, .none, .none, .none⟩
  | 0x05 => some ⟨.a, .x, .x, .none, false, .none, .none, .none⟩
  | 0x06 => some ⟨.a, .x, .x, .x, false, .none, .none, .none⟩
  | 0x07 => some ⟨.a, .x, .x, .none, false, .none, .none, .none⟩
  | 0x08 => some ⟨.a, .v, .x, .x, false, .none, .none, .none⟩
  | 0x09 => some ⟨.a, .x, .x, .x, false, .none, .zero, .none⟩
  | _ => none

/-- The instruction that a page and an opcode name, if any (R60, R69). -/
def shapeOf (page op : Nat) : Option Shape :=
  match page with
  | 0 => page0Shape op
  | 1 => page1Shape op
  | 2 => page2Shape op
  | 3 => page3Shape op
  | 4 => page4Shape op
  | 5 => page5Shape op
  | 6 => page6Shape op
  | 7 => page7Shape op
  | _ => none

/-- The scalar size of a SIZE code (R38). -/
def sizeOf (s : BitVec 2) : Size :=
  if s = 0 then .d else if s = 1 then .w else if s = 2 then .h else .b
/-- The element size of a SIZE code other than 11 (R38). -/
def vsizeOf (s : BitVec 2) : VSize := if s = 0 then .s32 else if s = 1 then .s16 else .s8
/-- The SIZE code of a scalar size. -/
def Size.code : Size → BitVec 2
  | .d => 0 | .w => 1 | .h => 2 | .b => 3
/-- The SIZE code of an element size. -/
def VSize.code : VSize → BitVec 2
  | .s32 => 0 | .s16 => 1 | .s8 => 2
/-- The scope of the codes 0 to 4 (R40). -/
def scopeOf (c : BitVec 3) : Scope :=
  if c = 0 then .core else if c = 1 then .cluster else if c = 2 then .die else if c = 3 then .device else .system
/-- The code of a scope (R40). -/
def Scope.code : Scope → BitVec 3
  | .core => 0 | .cluster => 1 | .die => 2 | .device => 3 | .system => 4

/-- XS and SC of a modifier (R40). -/
def modScope (m : BitVec 6) : Option Scope := if m.getLsbD 5 then some (scopeOf (m.extractLsb' 2 3)) else none
/-- NA of a modifier (R40). -/
def modNa (m : BitVec 6) : Bool := m.getLsbD 1
/-- QL as a saturation choice (R40). -/
def modSat (m : BitVec 6) : Bool := m.getLsbD 3
/-- QL as a rounding choice (R40). -/
def modRnd (m : BitVec 6) : RSel :=
  let q := m.extractLsb' 3 3
  if q = 0 then .dyn else if q = 1 then .rne else if q = 2 then .rtz else if q = 3 then .rdn
  else if q = 4 then .rup else .rna
/-- MK of a modifier (R40). -/
def modMask (m : BitVec 6) : MReg := m.setWidth 3
/-- RAW of a modifier (R40). -/
def modRaw (m : BitVec 6) : Bool := m.getLsbD 5

/-- The modifier bits of a scope choice. -/
def scopeBits : Option Scope → BitVec 6
  | none => 0
  | some s => 0x20 ||| (s.code.setWidth 6 <<< 2)
/-- The modifier bit of NA. -/
def naBit (na : Bool) : BitVec 6 := if na then 2 else 0
/-- The modifier bits of a saturation choice. -/
def satBits (sat : Bool) : BitVec 6 := if sat then 8 else 0
/-- The modifier bits of a rounding choice. -/
def rndBits : RSel → BitVec 6
  | .dyn => 0 | .rne => 0x08 | .rtz => 0x10 | .rdn => 0x18 | .rup => 0x20 | .rna => 0x28
/-- The modifier bit of RAW. -/
def rawBit (raw : Bool) : BitVec 6 := if raw then 0x20 else 0

/-- The instruction of page 0 that opcode `op` and the fields `f` name. -/
def page0Instr (op : Nat) (f : Fields) : Option Instr :=
  match op with
  | 0x00 => some (.nop)
  | 0x01 => some (.mov (f.a.setWidth 5) (f.b.setWidth 5))
  | 0x02 => some (.li (f.a.setWidth 5) f.imm)
  | 0x03 => some (.lih (f.a.setWidth 5) f.imm)
  | 0x04 => some (.add (f.a.setWidth 5) (f.b.setWidth 5) (f.c.setWidth 5) (sizeOf f.size))
  | 0x05 => some (.sub (f.a.setWidth 5) (f.b.setWidth 5) (f.c.setWidth 5) (sizeOf f.size))
  | 0x07 => some (.mul (f.a.setWidth 5) (f.b.setWidth 5) (f.c.setWidth 5) (sizeOf f.size))
  | 0x08 => some (.mulh (f.a.setWidth 5) (f.b.setWidth 5) (f.c.setWidth 5) (sizeOf f.size))
  | 0x09 => some (.mulhu (f.a.setWidth 5) (f.b.setWidth 5) (f.c.setWidth 5) (sizeOf f.size))
  | 0x0a => some (.div (f.a.setWidth 5) (f.b.setWidth 5) (f.c.setWidth 5) (sizeOf f.size))
  | 0x0b => some (.divu (f.a.setWidth 5) (f.b.setWidth 5) (f.c.setWidth 5) (sizeOf f.size))
  | 0x0c => some (.rem (f.a.setWidth 5) (f.b.setWidth 5) (f.c.setWidth 5) (sizeOf f.size))
  | 0x0d => some (.remu (f.a.setWidth 5) (f.b.setWidth 5) (f.c.setWidth 5) (sizeOf f.size))
  | 0x0e => some (.and (f.a.setWidth 5) (f.b.setWidth 5) (f.c.setWidth 5))
  | 0x0f => some (.or (f.a.setWidth 5) (f.b.setWidth 5) (f.c.setWidth 5))
  | 0x10 => some (.xor (f.a.setWidth 5) (f.b.setWidth 5) (f.c.setWidth 5))
  | 0x13 => some (.shl (f.a.setWidth 5) (f.b.setWidth 5) (f.c.setWidth 5) (sizeOf f.size))
  | 0x14 => some (.shr (f.a.setWidth 5) (f.b.setWidth 5) (f.c.setWidth 5) (sizeOf f.size))
  | 0x15 => some (.sra (f.a.setWidth 5) (f.b.setWidth 5) (f.c.setWidth 5) (sizeOf f.size))
  | 0x19 => some (.rotl (f.a.setWidth 5) (f.b.setWidth 5) (f.c.setWidth 5) (sizeOf f.size))
  | 0x1c => some (.min (f.a.setWidth 5) (f.b.setWidth 5) (f.c.setWidth 5) (sizeOf f.size))
  | 0x1d => some (.max (f.a.setWidth 5) (f.b.setWidth 5) (f.c.setWidth 5) (sizeOf f.size))
  | 0x1e => some (.minu (f.a.setWidth 5) (f.b.setWidth 5) (f.c.setWidth 5) (sizeOf f.size))
  | 0x1f => some (.maxu (f.a.setWidth 5) (f.b.setWidth 5) (f.c.setWidth 5) (sizeOf f.size))
  | 0x20 => some (.seq (f.a.setWidth 5) (f.b.setWidth 5) (f.c.setWidth 5) (sizeOf f.size))
  | 0x21 => some (.slt (f.a.setWidth 5) (f.b.setWidth 5) (f.c.setWidth 5) (sizeOf f.size))
  | 0x22 => some (.sltu (f.a.setWidth 5) (f.b.setWidth 5) (f.c.setWidth 5) (sizeOf f.size))
  | 0x06 => some (.addi (f.a.setWidth 5) (sizeOf f.size) f.imm)
  | 0x11 => some (.andi (f.a.setWidth 5) f.imm)
  | 0x12 => some (.ori (f.a.setWidth 5) f.imm)
  | 0x16 => some (.shli (f.a.setWidth 5) (sizeOf f.size) f.imm)
  | 0x17 => some (.shri (f.a.setWidth 5) (sizeOf f.size) f.imm)
  | 0x18 => some (.srai (f.a.setWidth 5) (sizeOf f.size) f.imm)
  | 0x23 => some (.slti (f.a.setWidth 5) (sizeOf f.size) f.imm)
  | 0x1a => some (.clz (f.a.setWidth 5) (f.b.setWidth 5) (sizeOf f.size))
  | 0x1b => some (.popc (f.a.setWidth 5) (f.b.setWidth 5) (sizeOf f.size))
  | 0x24 => some (.sel (f.a.setWidth 5) (f.b.setWidth 5) (f.c.setWidth 5))
  | 0x25 => some (.ld (f.a.setWidth 5) (f.b.setWidth 5) (sizeOf f.size) f.imm (modNa f.mod))
  | 0x26 => some (.ldx (f.a.setWidth 5) (f.b.setWidth 5) (sizeOf f.size) f.imm (modNa f.mod))
  | 0x27 => some (.st (f.a.setWidth 5) (f.b.setWidth 5) (f.c.setWidth 5) (sizeOf f.size) f.imm (modScope f.mod) (modNa f.mod))
  | 0x28 => some (.ldw (f.a.setWidth 5) (f.b.setWidth 5) (f.c.setWidth 5) (sizeOf f.size) f.imm (modNa f.mod))
  | 0x29 => some (.wmax (f.a.setWidth 5) (f.b.setWidth 5) (f.c.setWidth 5))
  | 0x2a => some (.br f.imm)
  | 0x2b => some (.bz (f.a.setWidth 5) f.imm)
  | 0x2c => some (.bnz (f.a.setWidth 5) f.imm)
  | 0x2d => some (.bltz (f.a.setWidth 5) f.imm)
  | 0x2e => some (.bgez (f.a.setWidth 5) f.imm)
  | 0x2f => some (.call f.imm)
  | 0x30 => some (.callr (f.a.setWidth 5))
  | 0x31 => some (.jr (f.a.setWidth 5))
  | 0x32 => some (.jtab (f.a.setWidth 5) (f.b.setWidth 5) f.imm)
  | 0x33 => some (.bany (f.a.setWidth 3) (vsizeOf f.size) f.imm)
  | 0x34 => some (.bnone (f.a.setWidth 3) (vsizeOf f.size) f.imm)
  | 0x35 => some (.ball (f.a.setWidth 3) (vsizeOf f.size) f.imm)
  | 0x36 => some (.mrd (f.a.setWidth 5) (f.b.setWidth 3))
  | 0x37 => some (.mwr (f.a.setWidth 3) (f.b.setWidth 5))
  | 0x38 => some (.time (f.a.setWidth 5))
  | 0x39 => some (.brk f.imm)
  | 0x3a => some (.sys f.imm)
  | _ => none

/-- The instruction of page 1 that opcode `op` and the fields `f` name. -/
def page1Instr (op : Nat) (f : Fields) : Option Instr :=
  match op with
  | 0x00 => some (.vmov f.a f.b (vsizeOf f.size) (modMask f.mod))
  | 0x01 => some (.vbcast f.a (f.b.setWidth 5) (vsizeOf f.size) (modMask f.mod))
  | 0x02 => some (.vext (f.a.setWidth 5) f.b (vsizeOf f.size) f.imm (modMask f.mod))
  | 0x03 => some (.vins f.a (f.b.setWidth 5) (vsizeOf f.size) f.imm (modMask f.mod))
  | 0x04 => some (.vld f.a (f.b.setWidth 5) (vsizeOf f.size) f.imm (modMask f.mod))
  | 0x05 => some (.vst f.a (f.b.setWidth 5) (f.c.setWidth 5) (vsizeOf f.size) f.imm (modMask f.mod))
  | 0x06 => some (.vlds f.a (f.b.setWidth 5) (f.c.setWidth 5) (vsizeOf f.size) f.imm (modMask f.mod))
  | 0x07 => some (.vgath f.a (f.b.setWidth 5) f.c (vsizeOf f.size) f.imm (modMask f.mod))
  | 0x08 => some (.vscat f.a (f.b.setWidth 5) f.c (vsizeOf f.size) f.imm (modMask f.mod))
  | 0x09 => some (.vlsr f.a f.b (vsizeOf f.size) (modMask f.mod))
  | 0x0a => some (.vlsw f.a f.b (vsizeOf f.size) (modMask f.mod))
  | 0x0b => some (.vperm f.a f.b f.c (vsizeOf f.size) (modMask f.mod))
  | 0x0c => some (.vrot f.a f.b (vsizeOf f.size) f.imm (modMask f.mod))
  | 0x0d => some (.vadd f.a f.b f.c (vsizeOf f.size) (modSat f.mod) (modMask f.mod))
  | 0x0e => some (.vsub f.a f.b f.c (vsizeOf f.size) (modSat f.mod) (modMask f.mod))
  | 0x0f => some (.vmul f.a f.b f.c (vsizeOf f.size) (modSat f.mod) (modMask f.mod))
  | 0x10 => some (.vmulh f.a f.b f.c (vsizeOf f.size) (modMask f.mod))
  | 0x11 => some (.vmin f.a f.b f.c (vsizeOf f.size) (modMask f.mod))
  | 0x12 => some (.vmax f.a f.b f.c (vsizeOf f.size) (modMask f.mod))
  | 0x13 => some (.vand f.a f.b f.c (vsizeOf f.size) (modMask f.mod))
  | 0x14 => some (.vor f.a f.b f.c (vsizeOf f.size) (modMask f.mod))
  | 0x15 => some (.vxor f.a f.b f.c (vsizeOf f.size) (modMask f.mod))
  | 0x16 => some (.vshl f.a f.b f.c (vsizeOf f.size) (modSat f.mod) (modMask f.mod))
  | 0x17 => some (.vshr f.a f.b f.c (vsizeOf f.size) (modMask f.mod))
  | 0x18 => some (.vsra f.a f.b f.c (vsizeOf f.size) (modMask f.mod))
  | 0x19 => some (.vcmp (f.a.setWidth 3) f.b f.c (vsizeOf f.size) f.imm (modMask f.mod))
  | 0x1a => some (.vsel f.a f.b f.c (vsizeOf f.size) (modMask f.mod))
  | 0x1b => some (.vdot4 f.a f.b f.c f.imm (modSat f.mod) (modMask f.mod))
  | 0x1c => some (.vmac f.a f.b f.c (vsizeOf f.size) (modSat f.mod) (modMask f.mod))
  | 0x1d => some (.vrshr f.a f.b f.c (vsizeOf f.size) (modRnd f.mod) (modMask f.mod))
  | 0x1e => some (.vclamp f.a f.b f.c (vsizeOf f.size) (modMask f.mod))
  | 0x1f => some (.vfadd f.a f.b f.c (vsizeOf f.size) (modRnd f.mod) (modMask f.mod))
  | 0x20 => some (.vfsub f.a f.b f.c (vsizeOf f.size) (modRnd f.mod) (modMask f.mod))
  | 0x21 => some (.vfmul f.a f.b f.c (vsizeOf f.size) (modRnd f.mod) (modMask f.mod))
  | 0x22 => some (.vfma f.a f.b f.c (vsizeOf f.size) (modRnd f.mod) (modMask f.mod))
  | 0x23 => some (.vfmin f.a f.b f.c (vsizeOf f.size) (modMask f.mod))
  | 0x24 => some (.vfmax f.a f.b f.c (vsizeOf f.size) (modMask f.mod))
  | 0x25 => some (.vfrcp f.a f.b (vsizeOf f.size) (modRnd f.mod) (modMask f.mod))
  | 0x26 => some (.vfrsq f.a f.b (vsizeOf f.size) (modRnd f.mod) (modMask f.mod))
  | 0x27 => some (.vfexp2 f.a f.b (vsizeOf f.size) (modRnd f.mod) (modMask f.mod))
  | 0x28 => some (.vcvt f.a f.b f.imm (modRnd f.mod) (modMask f.mod))
  | 0x29 => some (.vredadd f.a f.b (vsizeOf f.size) (modSat f.mod) (modMask f.mod))
  | 0x2a => some (.vredmax f.a f.b (vsizeOf f.size) (modMask f.mod))
  | 0x2b => some (.vfred f.a f.b (vsizeOf f.size) (modRnd f.mod) (modMask f.mod))
  | 0x2c => some (.mlog (f.a.setWidth 3) (f.b.setWidth 3) (f.c.setWidth 3) (vsizeOf f.size) f.imm (modMask f.mod))
  | _ => none

/-- The instruction of page 2 that opcode `op` and the fields `f` name. -/
def page2Instr (op : Nat) (f : Fields) : Option Instr :=
  match op with
  | 0x00 => some (.mgang f.imm)
  | 0x01 => some (.mma (f.a.setWidth 5) (f.b.setWidth 5) (f.c.setWidth 5) f.imm)
  | 0x02 => some (.mmas (f.a.setWidth 5) (f.b.setWidth 5) (f.c.setWidth 5) f.imm)
  | 0x03 => some (.mmat (f.a.setWidth 5) (f.b.setWidth 3) (f.c.setWidth 5) f.imm)
  | 0x04 => some (.tld (f.a.setWidth 3) (f.b.setWidth 5) (f.c.setWidth 5) f.imm)
  | 0x05 => some (.tst (f.a.setWidth 3) (f.b.setWidth 5) (f.c.setWidth 5) f.imm)
  | 0x06 => some (.tzero (f.a.setWidth 3))
  | 0x07 => some (.mhint f.imm)
  | 0x08 => some (.mwait (f.a.setWidth 5))
  | 0x09 => some (.mstat (f.a.setWidth 5) (f.b.setWidth 5) (f.c.setWidth 5) f.imm)
  | 0x0a => some (.crclr (f.a.setWidth 5) (f.b.setWidth 5) (f.c.setWidth 5))
  | 0x0b => some (.crflush (f.a.setWidth 5) (f.b.setWidth 5) (f.c.setWidth 5))
  | 0x0c => some (.crrd f.a (f.b.setWidth 5) (f.c.setWidth 5) (modRaw f.mod))
  | 0x0d => some (.cradd f.a (f.b.setWidth 5) (f.c.setWidth 5))
  | _ => none

/-- The instruction of page 3 that opcode `op` and the fields `f` name. -/
def page3Instr (op : Nat) (f : Fields) : Option Instr :=
  match op with
  | 0x00 => some (.amoadd (f.a.setWidth 5) (f.b.setWidth 5) (f.c.setWidth 5) (sizeOf f.size) (modScope f.mod))
  | 0x01 => some (.amoand (f.a.setWidth 5) (f.b.setWidth 5) (f.c.setWidth 5) (sizeOf f.size) (modScope f.mod))
  | 0x02 => some (.amoor (f.a.setWidth 5) (f.b.setWidth 5) (f.c.setWidth 5) (sizeOf f.size) (modScope f.mod))
  | 0x03 => some (.amoxor (f.a.setWidth 5) (f.b.setWidth 5) (f.c.setWidth 5) (sizeOf f.size) (modScope f.mod))
  | 0x04 => some (.amomin (f.a.setWidth 5) (f.b.setWidth 5) (f.c.setWidth 5) (sizeOf f.size) (modScope f.mod))
  | 0x05 => some (.amomax (f.a.setWidth 5) (f.b.setWidth 5) (f.c.setWidth 5) (sizeOf f.size) (modScope f.mod))
  | 0x06 => some (.amominu (f.a.setWidth 5) (f.b.setWidth 5) (f.c.setWidth 5) (sizeOf f.size) (modScope f.mod))
  | 0x07 => some (.amomaxu (f.a.setWidth 5) (f.b.setWidth 5) (f.c.setWidth 5) (sizeOf f.size) (modScope f.mod))
  | 0x08 => some (.amoswp (f.a.setWidth 5) (f.b.setWidth 5) (f.c.setWidth 5) (sizeOf f.size) (modScope f.mod))
  | 0x09 => some (.amocas (f.a.setWidth 5) (f.b.setWidth 5) (f.c.setWidth 5) (sizeOf f.size) (modScope f.mod))
  | 0x0a => some (.amofadd (f.a.setWidth 5) (f.b.setWidth 5) (f.c.setWidth 5) (sizeOf f.size) (modScope f.mod))
  | 0x0b => some (.mxacc f.a (f.b.setWidth 5) (f.c.setWidth 5) (sizeOf f.size) f.imm (modScope f.mod))
  | 0x0c => some (.prf (f.b.setWidth 5) f.imm (modScope f.mod) (modNa f.mod))
  | 0x0d => some (.wtest (f.a.setWidth 5) (f.b.setWidth 5))
  | 0x0e => some (.wwait (f.b.setWidth 5))
  | 0x0f => some (.wfront (f.a.setWidth 5))
  | 0x10 => some (.sca (f.a.setWidth 5) (f.b.setWidth 5) f.imm)
  | 0x11 => some (.nrd (f.a.setWidth 5) (f.c.setWidth 5) f.imm)
  | 0x12 => some (.nwait (f.a.setWidth 5) (f.b.setWidth 5) (f.c.setWidth 5) f.imm)
  | 0x13 => some (.pclr (f.a.setWidth 5) (f.b.setWidth 5) (modScope f.mod))
  | _ => none

/-- The instruction of page 4 that opcode `op` and the fields `f` name. -/
def page4Instr (op : Nat) (f : Fields) : Option Instr :=
  match op with
  | 0x00 => some (.balloc (f.a.setWidth 5) (f.b.setWidth 5) (f.c.setWidth 5))
  | 0x01 => some (.bfree (f.b.setWidth 5))
  | 0x02 => some (.bgive (f.b.setWidth 5) (f.c.setWidth 5))
  | 0x03 => some (.bexportStart (f.b.setWidth 5) (f.c.setWidth 5))
  | 0x04 => some (.spld f.a (f.b.setWidth 5) f.imm)
  | 0x05 => some (.spst f.a (f.b.setWidth 5) f.imm)
  | 0x06 => some (.cpy (f.a.setWidth 5) (f.b.setWidth 5) (f.c.setWidth 5) (modScope f.mod) (modNa f.mod))
  | 0x07 => some (.cpym (f.a.setWidth 5) (f.b.setWidth 5) (f.c.setWidth 5) (modScope f.mod) (modNa f.mod))
  | 0x08 => some (.cpyr (f.a.setWidth 5) (f.b.setWidth 5) (f.c.setWidth 5) (modScope f.mod) (modNa f.mod))
  | 0x09 => some (.sbind f.a (f.b.setWidth 5) (f.c.setWidth 5) (modNa f.mod))
  | 0x0a => some (.sunbind f.a)
  | 0x0b => some (.lndset (f.a.setWidth 5) (f.b.setWidth 5) (f.c.setWidth 5))
  | 0x0c => some (.lndwait (f.a.setWidth 5) (f.b.setWidth 5) (f.c.setWidth 5))
  | 0x0d => some (.lndrelBuffer (f.a.setWidth 5) (f.b.setWidth 5))
  | 0x0e => some (.waita (f.a.setWidth 5) (f.b.setWidth 5) (f.c.setWidth 5))
  | 0x0f => some (.spstat (f.a.setWidth 5) (f.b.setWidth 5) f.imm)
  | _ => none

/-- The instruction of page 5 that opcode `op` and the fields `f` name. -/
def page5Instr (op : Nat) (f : Fields) : Option Instr :=
  match op with
  | 0x00 => some (.spawn (f.a.setWidth 5) (f.b.setWidth 5) (f.c.setWidth 5))
  | 0x01 => some (.endf)
  | 0x02 => some (.arm (f.a.setWidth 5) (f.b.setWidth 5) (f.c.setWidth 5))
  | 0x03 => some (.disarm (f.a.setWidth 5) (f.b.setWidth 5))
  | 0x04 => some (.cntadd (f.a.setWidth 5) (f.b.setWidth 5) (modScope f.mod))
  | 0x05 => some (.cntrd (f.a.setWidth 5) (f.b.setWidth 5) (f.c.setWidth 5))
  | 0x06 => some (.lvopen (f.a.setWidth 5) (f.b.setWidth 5) (f.c.setWidth 5) f.imm)
  | 0x07 => some (.lvwait (f.a.setWidth 5) (f.b.setWidth 5) (f.c.setWidth 5))
  | 0x08 => some (.lvcancel (f.b.setWidth 5))
  | 0x09 => some (.lvstat (f.a.setWidth 5) (f.b.setWidth 5) (f.c.setWidth 5))
  | 0x0a => some (.bara f.imm)
  | 0x0b => some (.barw (f.a.setWidth 5) f.imm)
  | 0x0c => some (.barcfg (f.a.setWidth 5) (f.b.setWidth 5) (f.c.setWidth 5))
  | 0x0d => some (.hspawn (f.a.setWidth 5) (f.b.setWidth 5))
  | 0x0e => some (.hstop)
  | 0x0f => some (.expose)
  | 0x10 => some (.yieldf)
  | 0x11 => some (.self (f.a.setWidth 5) f.imm)
  | _ => none

/-- The instruction of page 6 that opcode `op` and the fields `f` name. -/
def page6Instr (op : Nat) (f : Fields) : Option Instr :=
  match op with
  | 0x00 => some (.crd (f.a.setWidth 5) f.imm)
  | 0x01 => some (if f.imm = 67 then .seedInstall (f.a.setWidth 5) else .cwr (f.a.setWidth 5) f.imm)
  | 0x02 => some (.tret)
  | 0x03 => some (.tlbinv (f.b.setWidth 5) (f.c.setWidth 5) (modScope f.mod))
  | 0x04 => some (.tlbprobe (f.a.setWidth 5) (f.b.setWidth 5) (f.c.setWidth 5))
  | 0x05 => some (.pmapw (f.a.setWidth 5) (f.b.setWidth 5))
  | 0x06 => some (.pmaprd (f.a.setWidth 5) (f.b.setWidth 5) (f.c.setWidth 5))
  | 0x07 => some (.trcmark f.imm)
  | 0x08 => some (.trcctlOpen (f.a.setWidth 5) (f.b.setWidth 5) (f.c.setWidth 5))
  | 0x09 => some (.mpass (f.a.setWidth 5) (f.b.setWidth 5))
  | 0x0a => some (.evsel (f.a.setWidth 5) (f.b.setWidth 5) (f.c.setWidth 5))
  | 0x0b => some (.evrd (f.a.setWidth 5) (f.b.setWidth 5))
  | 0x0c => some (.rplctlStop (f.a.setWidth 5) (f.b.setWidth 5) (f.c.setWidth 5))
  | 0x0d => some (.ctxsave (f.a.setWidth 5) (f.b.setWidth 5) (f.c.setWidth 5))
  | 0x0e => some (.ctxload (f.a.setWidth 5) (f.b.setWidth 5) (f.c.setWidth 5))
  | 0x0f => some (.idle)
  | _ => none

/-- The instruction of page 7 that opcode `op` and the fields `f` name. -/
def page7Instr (op : Nat) (f : Fields) : Option Instr :=
  match op with
  | 0x00 => some (.reseed (f.a.setWidth 5) (f.b.setWidth 5) (f.c.setWidth 5))
  | 0x01 => some (.xq (f.a.setWidth 5) (f.b.setWidth 5) (f.c.setWidth 5))
  | 0x02 => some (.xdraw (f.a.setWidth 5) (f.b.setWidth 5) (f.c.setWidth 5))
  | 0x03 => some (.daccrd (f.a.setWidth 5) (f.b.setWidth 5))
  | 0x04 => some (.daccclr (f.b.setWidth 5))
  | 0x05 => some (.umrd (f.a.setWidth 5) (f.b.setWidth 5))
  | 0x06 => some (.qset (f.a.setWidth 5) (f.b.setWidth 5) (f.c.setWidth 5))
  | 0x07 => some (.qrd (f.a.setWidth 5) (f.b.setWidth 5))
  | 0x08 => some (.measure f.a (f.b.setWidth 5) (f.c.setWidth 5))
  | 0x09 => some (if f.imm = 1 then .attestDecapsulate (f.a.setWidth 5) (f.b.setWidth 5) (f.c.setWidth 5) else .attestReport (f.a.setWidth 5) (f.b.setWidth 5) (f.c.setWidth 5) f.imm)
  | _ => none

/-- The instruction that a page, an opcode and checked fields name. Of the rows that share their words, the first;
`Machine.selectForm` picks the row by the register's value when the instruction executes. -/
def instrOf (page op : Nat) (f : Fields) : Option Instr :=
  match page with
  | 0 => page0Instr op f
  | 1 => page1Instr op f
  | 2 => page2Instr op f
  | 3 => page3Instr op f
  | 4 => page4Instr op f
  | 5 => page5Instr op f
  | 6 => page6Instr op f
  | 7 => page7Instr op f
  | _ => none

/-- The row that the decoder gives for an instruction's words: of the rows that share their words, the first (R244, R257, R365,
R368); for every other instruction, itself. -/
def Instr.firstRow : Instr → Instr
  | .bexportEnd b c => .bexportStart b c
  | .lndrelDismantle a b => .lndrelBuffer a b
  | .trcctlClose a b c => .trcctlOpen a b c
  | .trcctlGrant a b c => .trcctlOpen a b c
  | .trcctlWithdraw a b c => .trcctlOpen a b c
  | .trcctlStatus a b c => .trcctlOpen a b c
  | .rplctlRecord a b c => .rplctlStop a b c
  | .rplctlReplay a b c => .rplctlStop a b c
  | .rplctlStatus a b c => .rplctlStop a b c
  | i => i

/-- A modifier holds only what the row defines, with legal codes (R40, R60). -/
def modOk (u : ModUse) (m : BitVec 6) : Bool :=
  let scOk := if m.getLsbD 5 then (m.extractLsb' 2 3).toNat ≤ 4 else m.extractLsb' 2 3 == 0
  match u with
  | .none => m == 0
  | .s => scOk && m &&& 3 == 0
  | .n => m &&& 0x3d == 0
  | .sn => scOk && m &&& 1 == 0
  | .p1 => m.extractLsb' 3 3 == 0
  | .sat => (m.extractLsb' 3 3).toNat ≤ 1
  | .rnd => (m.extractLsb' 3 3).toNat ≤ 5
  | .raw => m &&& 0x1f == 0

/-- A SIZE code is one that the instruction's kind of size allows (R38, R48). -/
def sizeOk (u : SizeUse) (s : BitVec 2) : Bool :=
  match u with
  | .none => s == 0
  | .scalar => true
  | .vector => s != 3

/-- A register field holds a legal value of its file (R46), and 0 where it names none (R47). -/
def fldOk (k : Fld) (r : BitVec 6) : Bool :=
  match k with
  | .none => r == 0
  | .x => r.toNat < 32
  | .v => true
  | .m => r.toNat < 8
  | .t => r.toNat < 8

/-- RGX is used by instructions that name a register, a c operand or a size (R41). -/
def Shape.usesRgx (s : Shape) : Bool := s.a != .none || s.b != .none || s.c != .none || s.size != .none
/-- PGX is used on pages 1 to 7, and on page 0 where a modifier is defined (R41). -/
def Shape.usesPgx (s : Shape) (page : Nat) : Bool := page != 0 || s.mod != .none
/-- IMX is used by an instruction with an operand that IMX widens or supplies (R41, R70, R316). -/
def Shape.usesImx (s : Shape) : Bool := s.imm == .signed || s.imm == .zero || s.imm == .ignored

/-- The width of the base word's immediate field (R35, R36). -/
def Form.width : Form → Nat
  | .a => 0 | .i => 5 | .b => 5 | .j => 10 | .n => 10

/-- The operand of R36: the IMX bits and the base word's field, extended to 64 bits. -/
def Chain.operand (c : Chain) (s : Shape) : Word :=
  let w := s.form.width
  let raw : Word := (c.imx.setWidth 64 <<< w) ||| ((c.base.setWidth w).setWidth 64)
  let bits := 10 * c.imxCount + w
  match s.imm with
  | .signed => (raw.setWidth bits).signExtend 64
  | .none => 0
  | .ignored => 0
  | _ => raw

/-- The register, size and modifier fields of a chain (R35, R38, R39), and the reading of R47: with RGX absent, a
two- and three-operand instruction has a := a op b. -/
def Chain.fields (c : Chain) (s : Shape) : Fields :=
  let rg := c.rgx.getD 0
  let fa : BitVec 6 :=
    if s.form = .j || s.form = .n then (rg.extractLsb' 3 1).setWidth 6 <<< 5
    else ((rg.extractLsb' 3 1).setWidth 6 <<< 5) ||| (c.base.extractLsb' 5 5).setWidth 6
  let fb : BitVec 6 :=
    if s.form = .a then ((rg.extractLsb' 2 1).setWidth 6 <<< 5) ||| (c.base.setWidth 5).setWidth 6
    else (rg.extractLsb' 2 1).setWidth 6 <<< 5
  let fc : BitVec 6 := ((rg.extractLsb' 4 1).setWidth 6 <<< 5) ||| (rg.extractLsb' 5 5).setWidth 6
  let two := s.three && c.rgx.isNone
  { a := fa
    b := if two then fa else fb
    c := if two then fb else fc
    size := rg.setWidth 2
    imm := c.operand s
    mod := (c.pgx.getD 0).setWidth 6 }

/-- The page a chain names (R39). -/
def Chain.page (c : Chain) : Nat := ((c.pgx.getD 0).extractLsb' 6 4).toNat

/-- The checks of R39 to R48 on a scanned chain, and the instruction. -/
def Chain.decode (c : Chain) : Except DecodeError Instr :=
  let op := (opcodeOf c.base).toNat
  if 8 ≤ c.page then .error .reservedPage
  else match shapeOf c.page op with
  | none => .error .unassigned
  | some s =>
    let f := c.fields s
    if c.imxCount != 0 && !s.usesImx then .error .unusedImx
    else if c.rgx.isSome && !s.usesRgx then .error .unusedRgx
    else if c.pgx.isSome && !s.usesPgx c.page then .error .unusedPgx
    else if !modOk s.mod f.mod then .error .badModifier
    else if !sizeOk s.size f.size then .error .badSize
    else if !(fldOk s.a f.a && fldOk s.b f.b && fldOk s.c f.c) then .error .badField
    else if s.imm == .mustBeZero && payloadOf c.base != 0 then .error .badField
    else match instrOf c.page op f with
    | none => .error .unassigned
    | some i => .ok i

/-- Decode the chain at the head of a list of words, with the words that follow it. -/
def decodeWords (ws : List Half) : Except DecodeError (Instr × List Half) :=
  match scanWords {} ws with
  | .error e => .error e
  | .ok (c, rest) =>
    match c.decode with
    | .error e => .error e
    | .ok i => .ok (i, rest)

/-- The words of a list of bytes, each little-endian (R34); an odd last byte is dropped. -/
def wordsOfBytes : List Byte → List Half
  | lo :: hi :: bs => (hi ++ lo : Half) :: wordsOfBytes bs
  | _ => []

/-- The bytes of words, each little-endian (R34). -/
def bytesOfWords : List Half → List Byte
  | [] => []
  | w :: ws => w.setWidth 8 :: w.extractLsb' 8 8 :: bytesOfWords ws

/-- Decode any bytes: an instruction with the words after it, or the reason why there is none. -/
def decode (bs : List Byte) : Except DecodeError (Instr × List Half) := decodeWords (wordsOfBytes bs)

/-- The page, opcode and fields of an instruction, from the encoding tables; none for an event. -/
def Instr.fields : Instr → Option (Nat × Nat × Fields)
  | .nop => some (0, 0x00, {  })
  | .mov a b => some (0, 0x01, { a := a.setWidth 6, b := b.setWidth 6 })
  | .li a imm => some (0, 0x02, { a := a.setWidth 6, imm := imm })
  | .lih a imm => some (0, 0x03, { a := a.setWidth 6, imm := imm })
  | .add d l r sz => some (0, 0x04, { a := d.setWidth 6, b := l.setWidth 6, c := r.setWidth 6, size := sz.code })
  | .sub d l r sz => some (0, 0x05, { a := d.setWidth 6, b := l.setWidth 6, c := r.setWidth 6, size := sz.code })
  | .mul d l r sz => some (0, 0x07, { a := d.setWidth 6, b := l.setWidth 6, c := r.setWidth 6, size := sz.code })
  | .mulh d l r sz => some (0, 0x08, { a := d.setWidth 6, b := l.setWidth 6, c := r.setWidth 6, size := sz.code })
  | .mulhu d l r sz => some (0, 0x09, { a := d.setWidth 6, b := l.setWidth 6, c := r.setWidth 6, size := sz.code })
  | .div d l r sz => some (0, 0x0a, { a := d.setWidth 6, b := l.setWidth 6, c := r.setWidth 6, size := sz.code })
  | .divu d l r sz => some (0, 0x0b, { a := d.setWidth 6, b := l.setWidth 6, c := r.setWidth 6, size := sz.code })
  | .rem d l r sz => some (0, 0x0c, { a := d.setWidth 6, b := l.setWidth 6, c := r.setWidth 6, size := sz.code })
  | .remu d l r sz => some (0, 0x0d, { a := d.setWidth 6, b := l.setWidth 6, c := r.setWidth 6, size := sz.code })
  | .and d l r => some (0, 0x0e, { a := d.setWidth 6, b := l.setWidth 6, c := r.setWidth 6 })
  | .or d l r => some (0, 0x0f, { a := d.setWidth 6, b := l.setWidth 6, c := r.setWidth 6 })
  | .xor d l r => some (0, 0x10, { a := d.setWidth 6, b := l.setWidth 6, c := r.setWidth 6 })
  | .shl d l r sz => some (0, 0x13, { a := d.setWidth 6, b := l.setWidth 6, c := r.setWidth 6, size := sz.code })
  | .shr d l r sz => some (0, 0x14, { a := d.setWidth 6, b := l.setWidth 6, c := r.setWidth 6, size := sz.code })
  | .sra d l r sz => some (0, 0x15, { a := d.setWidth 6, b := l.setWidth 6, c := r.setWidth 6, size := sz.code })
  | .rotl d l r sz => some (0, 0x19, { a := d.setWidth 6, b := l.setWidth 6, c := r.setWidth 6, size := sz.code })
  | .min d l r sz => some (0, 0x1c, { a := d.setWidth 6, b := l.setWidth 6, c := r.setWidth 6, size := sz.code })
  | .max d l r sz => some (0, 0x1d, { a := d.setWidth 6, b := l.setWidth 6, c := r.setWidth 6, size := sz.code })
  | .minu d l r sz => some (0, 0x1e, { a := d.setWidth 6, b := l.setWidth 6, c := r.setWidth 6, size := sz.code })
  | .maxu d l r sz => some (0, 0x1f, { a := d.setWidth 6, b := l.setWidth 6, c := r.setWidth 6, size := sz.code })
  | .seq d l r sz => some (0, 0x20, { a := d.setWidth 6, b := l.setWidth 6, c := r.setWidth 6, size := sz.code })
  | .slt d l r sz => some (0, 0x21, { a := d.setWidth 6, b := l.setWidth 6, c := r.setWidth 6, size := sz.code })
  | .sltu d l r sz => some (0, 0x22, { a := d.setWidth 6, b := l.setWidth 6, c := r.setWidth 6, size := sz.code })
  | .addi a sz imm => some (0, 0x06, { a := a.setWidth 6, size := sz.code, imm := imm })
  | .andi a imm => some (0, 0x11, { a := a.setWidth 6, imm := imm })
  | .ori a imm => some (0, 0x12, { a := a.setWidth 6, imm := imm })
  | .shli a sz imm => some (0, 0x16, { a := a.setWidth 6, size := sz.code, imm := imm })
  | .shri a sz imm => some (0, 0x17, { a := a.setWidth 6, size := sz.code, imm := imm })
  | .srai a sz imm => some (0, 0x18, { a := a.setWidth 6, size := sz.code, imm := imm })
  | .slti a sz imm => some (0, 0x23, { a := a.setWidth 6, size := sz.code, imm := imm })
  | .clz a b sz => some (0, 0x1a, { a := a.setWidth 6, b := b.setWidth 6, size := sz.code })
  | .popc a b sz => some (0, 0x1b, { a := a.setWidth 6, b := b.setWidth 6, size := sz.code })
  | .sel a b c => some (0, 0x24, { a := a.setWidth 6, b := b.setWidth 6, c := c.setWidth 6 })
  | .ld a b sz imm na => some (0, 0x25, { a := a.setWidth 6, b := b.setWidth 6, size := sz.code, imm := imm, mod := naBit na })
  | .ldx a b sz imm na => some (0, 0x26, { a := a.setWidth 6, b := b.setWidth 6, size := sz.code, imm := imm, mod := naBit na })
  | .st a b c sz imm sc na => some (0, 0x27, { a := a.setWidth 6, b := b.setWidth 6, c := c.setWidth 6, size := sz.code, imm := imm, mod := scopeBits sc ||| naBit na })
  | .ldw a b c sz imm na => some (0, 0x28, { a := a.setWidth 6, b := b.setWidth 6, c := c.setWidth 6, size := sz.code, imm := imm, mod := naBit na })
  | .wmax d l r => some (0, 0x29, { a := d.setWidth 6, b := l.setWidth 6, c := r.setWidth 6 })
  | .br imm => some (0, 0x2a, { imm := imm })
  | .bz a imm => some (0, 0x2b, { a := a.setWidth 6, imm := imm })
  | .bnz a imm => some (0, 0x2c, { a := a.setWidth 6, imm := imm })
  | .bltz a imm => some (0, 0x2d, { a := a.setWidth 6, imm := imm })
  | .bgez a imm => some (0, 0x2e, { a := a.setWidth 6, imm := imm })
  | .call imm => some (0, 0x2f, { imm := imm })
  | .callr a => some (0, 0x30, { a := a.setWidth 6 })
  | .jr a => some (0, 0x31, { a := a.setWidth 6 })
  | .jtab a b imm => some (0, 0x32, { a := a.setWidth 6, b := b.setWidth 6, imm := imm })
  | .bany a sz imm => some (0, 0x33, { a := a.setWidth 6, size := sz.code, imm := imm })
  | .bnone a sz imm => some (0, 0x34, { a := a.setWidth 6, size := sz.code, imm := imm })
  | .ball a sz imm => some (0, 0x35, { a := a.setWidth 6, size := sz.code, imm := imm })
  | .mrd a b => some (0, 0x36, { a := a.setWidth 6, b := b.setWidth 6 })
  | .mwr a b => some (0, 0x37, { a := a.setWidth 6, b := b.setWidth 6 })
  | .time a => some (0, 0x38, { a := a.setWidth 6 })
  | .brk imm => some (0, 0x39, { imm := imm })
  | .sys imm => some (0, 0x3a, { imm := imm })
  | .vmov a b sz mk => some (1, 0x00, { a := a, b := b, size := sz.code, mod := mk.setWidth 6 })
  | .vbcast a b sz mk => some (1, 0x01, { a := a, b := b.setWidth 6, size := sz.code, mod := mk.setWidth 6 })
  | .vext a b sz imm mk => some (1, 0x02, { a := a.setWidth 6, b := b, size := sz.code, imm := imm, mod := mk.setWidth 6 })
  | .vins a b sz imm mk => some (1, 0x03, { a := a, b := b.setWidth 6, size := sz.code, imm := imm, mod := mk.setWidth 6 })
  | .vld a b sz imm mk => some (1, 0x04, { a := a, b := b.setWidth 6, size := sz.code, imm := imm, mod := mk.setWidth 6 })
  | .vst a b c sz imm mk => some (1, 0x05, { a := a, b := b.setWidth 6, c := c.setWidth 6, size := sz.code, imm := imm, mod := mk.setWidth 6 })
  | .vlds a b c sz imm mk => some (1, 0x06, { a := a, b := b.setWidth 6, c := c.setWidth 6, size := sz.code, imm := imm, mod := mk.setWidth 6 })
  | .vgath a b c sz imm mk => some (1, 0x07, { a := a, b := b.setWidth 6, c := c, size := sz.code, imm := imm, mod := mk.setWidth 6 })
  | .vscat a b c sz imm mk => some (1, 0x08, { a := a, b := b.setWidth 6, c := c, size := sz.code, imm := imm, mod := mk.setWidth 6 })
  | .vlsr a b sz mk => some (1, 0x09, { a := a, b := b, size := sz.code, mod := mk.setWidth 6 })
  | .vlsw a b sz mk => some (1, 0x0a, { a := a, b := b, size := sz.code, mod := mk.setWidth 6 })
  | .vperm d l r sz mk => some (1, 0x0b, { a := d, b := l, c := r, size := sz.code, mod := mk.setWidth 6 })
  | .vrot a b sz imm mk => some (1, 0x0c, { a := a, b := b, size := sz.code, imm := imm, mod := mk.setWidth 6 })
  | .vadd d l r sz sat mk => some (1, 0x0d, { a := d, b := l, c := r, size := sz.code, mod := satBits sat ||| mk.setWidth 6 })
  | .vsub d l r sz sat mk => some (1, 0x0e, { a := d, b := l, c := r, size := sz.code, mod := satBits sat ||| mk.setWidth 6 })
  | .vmul d l r sz sat mk => some (1, 0x0f, { a := d, b := l, c := r, size := sz.code, mod := satBits sat ||| mk.setWidth 6 })
  | .vmulh d l r sz mk => some (1, 0x10, { a := d, b := l, c := r, size := sz.code, mod := mk.setWidth 6 })
  | .vmin d l r sz mk => some (1, 0x11, { a := d, b := l, c := r, size := sz.code, mod := mk.setWidth 6 })
  | .vmax d l r sz mk => some (1, 0x12, { a := d, b := l, c := r, size := sz.code, mod := mk.setWidth 6 })
  | .vand d l r sz mk => some (1, 0x13, { a := d, b := l, c := r, size := sz.code, mod := mk.setWidth 6 })
  | .vor d l r sz mk => some (1, 0x14, { a := d, b := l, c := r, size := sz.code, mod := mk.setWidth 6 })
  | .vxor d l r sz mk => some (1, 0x15, { a := d, b := l, c := r, size := sz.code, mod := mk.setWidth 6 })
  | .vshl d l r sz sat mk => some (1, 0x16, { a := d, b := l, c := r, size := sz.code, mod := satBits sat ||| mk.setWidth 6 })
  | .vshr d l r sz mk => some (1, 0x17, { a := d, b := l, c := r, size := sz.code, mod := mk.setWidth 6 })
  | .vsra d l r sz mk => some (1, 0x18, { a := d, b := l, c := r, size := sz.code, mod := mk.setWidth 6 })
  | .vcmp a b c sz imm mk => some (1, 0x19, { a := a.setWidth 6, b := b, c := c, size := sz.code, imm := imm, mod := mk.setWidth 6 })
  | .vsel d l r sz mk => some (1, 0x1a, { a := d, b := l, c := r, size := sz.code, mod := mk.setWidth 6 })
  | .vdot4 a b c imm sat mk => some (1, 0x1b, { a := a, b := b, c := c, imm := imm, mod := satBits sat ||| mk.setWidth 6 })
  | .vmac a b c sz sat mk => some (1, 0x1c, { a := a, b := b, c := c, size := sz.code, mod := satBits sat ||| mk.setWidth 6 })
  | .vrshr d l r sz rnd mk => some (1, 0x1d, { a := d, b := l, c := r, size := sz.code, mod := rndBits rnd ||| mk.setWidth 6 })
  | .vclamp a b c sz mk => some (1, 0x1e, { a := a, b := b, c := c, size := sz.code, mod := mk.setWidth 6 })
  | .vfadd d l r sz rnd mk => some (1, 0x1f, { a := d, b := l, c := r, size := sz.code, mod := rndBits rnd ||| mk.setWidth 6 })
  | .vfsub d l r sz rnd mk => some (1, 0x20, { a := d, b := l, c := r, size := sz.code, mod := rndBits rnd ||| mk.setWidth 6 })
  | .vfmul d l r sz rnd mk => some (1, 0x21, { a := d, b := l, c := r, size := sz.code, mod := rndBits rnd ||| mk.setWidth 6 })
  | .vfma a b c sz rnd mk => some (1, 0x22, { a := a, b := b, c := c, size := sz.code, mod := rndBits rnd ||| mk.setWidth 6 })
  | .vfmin d l r sz mk => some (1, 0x23, { a := d, b := l, c := r, size := sz.code, mod := mk.setWidth 6 })
  | .vfmax d l r sz mk => some (1, 0x24, { a := d, b := l, c := r, size := sz.code, mod := mk.setWidth 6 })
  | .vfrcp a b sz rnd mk => some (1, 0x25, { a := a, b := b, size := sz.code, mod := rndBits rnd ||| mk.setWidth 6 })
  | .vfrsq a b sz rnd mk => some (1, 0x26, { a := a, b := b, size := sz.code, mod := rndBits rnd ||| mk.setWidth 6 })
  | .vfexp2 a b sz rnd mk => some (1, 0x27, { a := a, b := b, size := sz.code, mod := rndBits rnd ||| mk.setWidth 6 })
  | .vcvt a b imm rnd mk => some (1, 0x28, { a := a, b := b, imm := imm, mod := rndBits rnd ||| mk.setWidth 6 })
  | .vredadd a b sz sat mk => some (1, 0x29, { a := a, b := b, size := sz.code, mod := satBits sat ||| mk.setWidth 6 })
  | .vredmax a b sz mk => some (1, 0x2a, { a := a, b := b, size := sz.code, mod := mk.setWidth 6 })
  | .vfred a b sz rnd mk => some (1, 0x2b, { a := a, b := b, size := sz.code, mod := rndBits rnd ||| mk.setWidth 6 })
  | .mlog d l r sz imm mk => some (1, 0x2c, { a := d.setWidth 6, b := l.setWidth 6, c := r.setWidth 6, size := sz.code, imm := imm, mod := mk.setWidth 6 })
  | .mgang imm => some (2, 0x00, { imm := imm })
  | .mma a b c imm => some (2, 0x01, { a := a.setWidth 6, b := b.setWidth 6, c := c.setWidth 6, imm := imm })
  | .mmas a b c imm => some (2, 0x02, { a := a.setWidth 6, b := b.setWidth 6, c := c.setWidth 6, imm := imm })
  | .mmat a b c imm => some (2, 0x03, { a := a.setWidth 6, b := b.setWidth 6, c := c.setWidth 6, imm := imm })
  | .tld a b c imm => some (2, 0x04, { a := a.setWidth 6, b := b.setWidth 6, c := c.setWidth 6, imm := imm })
  | .tst a b c imm => some (2, 0x05, { a := a.setWidth 6, b := b.setWidth 6, c := c.setWidth 6, imm := imm })
  | .tzero a => some (2, 0x06, { a := a.setWidth 6 })
  | .mhint imm => some (2, 0x07, { imm := imm })
  | .mwait a => some (2, 0x08, { a := a.setWidth 6 })
  | .mstat a b c imm => some (2, 0x09, { a := a.setWidth 6, b := b.setWidth 6, c := c.setWidth 6, imm := imm })
  | .crclr a b c => some (2, 0x0a, { a := a.setWidth 6, b := b.setWidth 6, c := c.setWidth 6 })
  | .crflush a b c => some (2, 0x0b, { a := a.setWidth 6, b := b.setWidth 6, c := c.setWidth 6 })
  | .crrd a b c raw => some (2, 0x0c, { a := a, b := b.setWidth 6, c := c.setWidth 6, mod := rawBit raw })
  | .cradd a b c => some (2, 0x0d, { a := a, b := b.setWidth 6, c := c.setWidth 6 })
  | .amoadd a b c sz sc => some (3, 0x00, { a := a.setWidth 6, b := b.setWidth 6, c := c.setWidth 6, size := sz.code, mod := scopeBits sc })
  | .amoand a b c sz sc => some (3, 0x01, { a := a.setWidth 6, b := b.setWidth 6, c := c.setWidth 6, size := sz.code, mod := scopeBits sc })
  | .amoor a b c sz sc => some (3, 0x02, { a := a.setWidth 6, b := b.setWidth 6, c := c.setWidth 6, size := sz.code, mod := scopeBits sc })
  | .amoxor a b c sz sc => some (3, 0x03, { a := a.setWidth 6, b := b.setWidth 6, c := c.setWidth 6, size := sz.code, mod := scopeBits sc })
  | .amomin a b c sz sc => some (3, 0x04, { a := a.setWidth 6, b := b.setWidth 6, c := c.setWidth 6, size := sz.code, mod := scopeBits sc })
  | .amomax a b c sz sc => some (3, 0x05, { a := a.setWidth 6, b := b.setWidth 6, c := c.setWidth 6, size := sz.code, mod := scopeBits sc })
  | .amominu a b c sz sc => some (3, 0x06, { a := a.setWidth 6, b := b.setWidth 6, c := c.setWidth 6, size := sz.code, mod := scopeBits sc })
  | .amomaxu a b c sz sc => some (3, 0x07, { a := a.setWidth 6, b := b.setWidth 6, c := c.setWidth 6, size := sz.code, mod := scopeBits sc })
  | .amoswp a b c sz sc => some (3, 0x08, { a := a.setWidth 6, b := b.setWidth 6, c := c.setWidth 6, size := sz.code, mod := scopeBits sc })
  | .amocas a b c sz sc => some (3, 0x09, { a := a.setWidth 6, b := b.setWidth 6, c := c.setWidth 6, size := sz.code, mod := scopeBits sc })
  | .amofadd a b c sz sc => some (3, 0x0a, { a := a.setWidth 6, b := b.setWidth 6, c := c.setWidth 6, size := sz.code, mod := scopeBits sc })
  | .mxacc a b c sz imm sc => some (3, 0x0b, { a := a, b := b.setWidth 6, c := c.setWidth 6, size := sz.code, imm := imm, mod := scopeBits sc })
  | .prf b imm sc na => some (3, 0x0c, { b := b.setWidth 6, imm := imm, mod := scopeBits sc ||| naBit na })
  | .wtest a b => some (3, 0x0d, { a := a.setWidth 6, b := b.setWidth 6 })
  | .wwait b => some (3, 0x0e, { b := b.setWidth 6 })
  | .wfront a => some (3, 0x0f, { a := a.setWidth 6 })
  | .sca a b imm => some (3, 0x10, { a := a.setWidth 6, b := b.setWidth 6, imm := imm })
  | .nrd a c imm => some (3, 0x11, { a := a.setWidth 6, c := c.setWidth 6, imm := imm })
  | .nwait a b c imm => some (3, 0x12, { a := a.setWidth 6, b := b.setWidth 6, c := c.setWidth 6, imm := imm })
  | .pclr a b sc => some (3, 0x13, { a := a.setWidth 6, b := b.setWidth 6, mod := scopeBits sc })
  | .balloc a b c => some (4, 0x00, { a := a.setWidth 6, b := b.setWidth 6, c := c.setWidth 6 })
  | .bfree b => some (4, 0x01, { b := b.setWidth 6 })
  | .bgive b c => some (4, 0x02, { b := b.setWidth 6, c := c.setWidth 6 })
  | .bexportStart b c => some (4, 0x03, { b := b.setWidth 6, c := c.setWidth 6 })
  | .bexportEnd b c => some (4, 0x03, { b := b.setWidth 6, c := c.setWidth 6 })
  | .spld a b imm => some (4, 0x04, { a := a, b := b.setWidth 6, imm := imm })
  | .spst a b imm => some (4, 0x05, { a := a, b := b.setWidth 6, imm := imm })
  | .cpy a b c sc na => some (4, 0x06, { a := a.setWidth 6, b := b.setWidth 6, c := c.setWidth 6, mod := scopeBits sc ||| naBit na })
  | .cpym a b c sc na => some (4, 0x07, { a := a.setWidth 6, b := b.setWidth 6, c := c.setWidth 6, mod := scopeBits sc ||| naBit na })
  | .cpyr a b c sc na => some (4, 0x08, { a := a.setWidth 6, b := b.setWidth 6, c := c.setWidth 6, mod := scopeBits sc ||| naBit na })
  | .sbind a b c na => some (4, 0x09, { a := a, b := b.setWidth 6, c := c.setWidth 6, mod := naBit na })
  | .sunbind a => some (4, 0x0a, { a := a })
  | .lndset a b c => some (4, 0x0b, { a := a.setWidth 6, b := b.setWidth 6, c := c.setWidth 6 })
  | .lndwait a b c => some (4, 0x0c, { a := a.setWidth 6, b := b.setWidth 6, c := c.setWidth 6 })
  | .lndrelBuffer a b => some (4, 0x0d, { a := a.setWidth 6, b := b.setWidth 6 })
  | .lndrelDismantle a b => some (4, 0x0d, { a := a.setWidth 6, b := b.setWidth 6 })
  | .waita a b c => some (4, 0x0e, { a := a.setWidth 6, b := b.setWidth 6, c := c.setWidth 6 })
  | .spstat a b imm => some (4, 0x0f, { a := a.setWidth 6, b := b.setWidth 6, imm := imm })
  | .spawn a b c => some (5, 0x00, { a := a.setWidth 6, b := b.setWidth 6, c := c.setWidth 6 })
  | .endf => some (5, 0x01, {  })
  | .arm a b c => some (5, 0x02, { a := a.setWidth 6, b := b.setWidth 6, c := c.setWidth 6 })
  | .disarm a b => some (5, 0x03, { a := a.setWidth 6, b := b.setWidth 6 })
  | .cntadd a b sc => some (5, 0x04, { a := a.setWidth 6, b := b.setWidth 6, mod := scopeBits sc })
  | .cntrd a b c => some (5, 0x05, { a := a.setWidth 6, b := b.setWidth 6, c := c.setWidth 6 })
  | .lvopen a b c imm => some (5, 0x06, { a := a.setWidth 6, b := b.setWidth 6, c := c.setWidth 6, imm := imm })
  | .lvwait a b c => some (5, 0x07, { a := a.setWidth 6, b := b.setWidth 6, c := c.setWidth 6 })
  | .lvcancel b => some (5, 0x08, { b := b.setWidth 6 })
  | .lvstat a b c => some (5, 0x09, { a := a.setWidth 6, b := b.setWidth 6, c := c.setWidth 6 })
  | .bara imm => some (5, 0x0a, { imm := imm })
  | .barw a imm => some (5, 0x0b, { a := a.setWidth 6, imm := imm })
  | .barcfg a b c => some (5, 0x0c, { a := a.setWidth 6, b := b.setWidth 6, c := c.setWidth 6 })
  | .hspawn a b => some (5, 0x0d, { a := a.setWidth 6, b := b.setWidth 6 })
  | .hstop => some (5, 0x0e, {  })
  | .expose => some (5, 0x0f, {  })
  | .yieldf => some (5, 0x10, {  })
  | .self a imm => some (5, 0x11, { a := a.setWidth 6, imm := imm })
  | .crd a imm => some (6, 0x00, { a := a.setWidth 6, imm := imm })
  | .cwr a imm => some (6, 0x01, { a := a.setWidth 6, imm := imm })
  | .seedInstall a => some (6, 0x01, { a := a.setWidth 6, imm := 67 })
  | .tret => some (6, 0x02, {  })
  | .tlbinv b c sc => some (6, 0x03, { b := b.setWidth 6, c := c.setWidth 6, mod := scopeBits sc })
  | .tlbprobe a b c => some (6, 0x04, { a := a.setWidth 6, b := b.setWidth 6, c := c.setWidth 6 })
  | .pmapw a b => some (6, 0x05, { a := a.setWidth 6, b := b.setWidth 6 })
  | .pmaprd a b c => some (6, 0x06, { a := a.setWidth 6, b := b.setWidth 6, c := c.setWidth 6 })
  | .trcmark imm => some (6, 0x07, { imm := imm })
  | .trcctlOpen a b c => some (6, 0x08, { a := a.setWidth 6, b := b.setWidth 6, c := c.setWidth 6 })
  | .trcctlClose a b c => some (6, 0x08, { a := a.setWidth 6, b := b.setWidth 6, c := c.setWidth 6 })
  | .trcctlGrant a b c => some (6, 0x08, { a := a.setWidth 6, b := b.setWidth 6, c := c.setWidth 6 })
  | .trcctlWithdraw a b c => some (6, 0x08, { a := a.setWidth 6, b := b.setWidth 6, c := c.setWidth 6 })
  | .trcctlStatus a b c => some (6, 0x08, { a := a.setWidth 6, b := b.setWidth 6, c := c.setWidth 6 })
  | .mpass a b => some (6, 0x09, { a := a.setWidth 6, b := b.setWidth 6 })
  | .evsel a b c => some (6, 0x0a, { a := a.setWidth 6, b := b.setWidth 6, c := c.setWidth 6 })
  | .evrd a b => some (6, 0x0b, { a := a.setWidth 6, b := b.setWidth 6 })
  | .rplctlStop a b c => some (6, 0x0c, { a := a.setWidth 6, b := b.setWidth 6, c := c.setWidth 6 })
  | .rplctlRecord a b c => some (6, 0x0c, { a := a.setWidth 6, b := b.setWidth 6, c := c.setWidth 6 })
  | .rplctlReplay a b c => some (6, 0x0c, { a := a.setWidth 6, b := b.setWidth 6, c := c.setWidth 6 })
  | .rplctlStatus a b c => some (6, 0x0c, { a := a.setWidth 6, b := b.setWidth 6, c := c.setWidth 6 })
  | .ctxsave a b c => some (6, 0x0d, { a := a.setWidth 6, b := b.setWidth 6, c := c.setWidth 6 })
  | .ctxload a b c => some (6, 0x0e, { a := a.setWidth 6, b := b.setWidth 6, c := c.setWidth 6 })
  | .idle => some (6, 0x0f, {  })
  | .reseed a b c => some (7, 0x00, { a := a.setWidth 6, b := b.setWidth 6, c := c.setWidth 6 })
  | .xq a b c => some (7, 0x01, { a := a.setWidth 6, b := b.setWidth 6, c := c.setWidth 6 })
  | .xdraw a b c => some (7, 0x02, { a := a.setWidth 6, b := b.setWidth 6, c := c.setWidth 6 })
  | .daccrd a b => some (7, 0x03, { a := a.setWidth 6, b := b.setWidth 6 })
  | .daccclr b => some (7, 0x04, { b := b.setWidth 6 })
  | .umrd a b => some (7, 0x05, { a := a.setWidth 6, b := b.setWidth 6 })
  | .qset a b c => some (7, 0x06, { a := a.setWidth 6, b := b.setWidth 6, c := c.setWidth 6 })
  | .qrd a b => some (7, 0x07, { a := a.setWidth 6, b := b.setWidth 6 })
  | .measure a b c => some (7, 0x08, { a := a, b := b.setWidth 6, c := c.setWidth 6 })
  | .attestReport a b c imm => some (7, 0x09, { a := a.setWidth 6, b := b.setWidth 6, c := c.setWidth 6, imm := imm })
  | .attestDecapsulate a b c => some (7, 0x09, { a := a.setWidth 6, b := b.setWidth 6, c := c.setWidth 6, imm := 1 })
  | .trapEntry _ => none
  | .tdlineDeadline _ => none
  | .leaseExpiry _ _ => none
  | .homeApply _ => none
  | .witnessDelivered _ _ => none
  | .refusalReport _ => none
  | .lostReport _ => none
  | .dirtyWriteback _ _ => none
  | .crFold _ _ => none
  | .replSequence _ => none
  | .replReplicaApply _ => none
  | .replMark => none
  | .classChangeComplete _ => none
  | .announcePresent _ => none
  | .gauzeWindowApply => none
  | .matrixOpStart _ => none
  | .matrixOpComplete _ => none
  | .gangTimeout _ => none
  | .sliceRampDown _ => none
  | .laneStoreClear _ => none
  | .copyEnqueue _ => none
  | .copyStart _ => none
  | .copyComplete _ _ => none
  | .inboundDelivery _ => none
  | .counterMessageApply _ => none
  | .triggerFirePush _ => none
  | .dequePushRetry _ => none
  | .firingDispatch _ => none
  | .stealRequest _ => none
  | .stealReply _ => none
  | .firingRedispatch _ => none
  | .preemption _ => none
  | .suspendedResume _ _ => none
  | .waitaPoll _ => none
  | .waitaWake _ => none
  | .instrWaitEnd _ => none
  | .barrierTimeout _ _ => none
  | .quotaInterval _ _ _ => none
  | .mpassPassEnd _ => none
  | .replayHoldTimeout _ => none
  | .uncorrectableError _ => none
  | .linkCrcRetry _ => none
  | .edgeLinkFail _ => none
  | .coreFail _ => none
  | .clusterFail _ => none
  | .dieFail _ => none
  | .groupFatalFault _ => none
  | .crossTriggerHalt _ => none
  | .haltResume _ => none
  | .crashDump => none
  | .inboundRequest _ => none
  | .apertureCounterWrite _ => none
  | .qreset _ => none
  | .mbox _ => none
  | .hostCtrlWrite _ _ => none
  | .functionLevelReset => none
  | .nvmeDmaWrite _ _ _ => none
  | .boot _ => none
  | .supplySag _ => none
  | .supplyRestore _ => none
  | .powerLimitAdjust _ _ => none
  | .thermalThrottle _ => none
  | .thermalShutdown _ => none
  | .homeSliceFail _ _ _ => none
  | .nearTierDataArraysFail _ => none
  | .mhintHoldEnd _ => none

/-- A word with opcode `op` and payload `p`. -/
def mkWord (op : BitVec 6) (p : BitVec 10) : Half := op ++ p

/-- The fewest IMX words with which the operand fits the form (R53), at most four. -/
def imxNeeded (s : Shape) (imm : Word) : Nat :=
  let fits := fun k => if s.imm == .signed then fitsSigned (10 * k + s.form.width) imm
                       else fitsZero (10 * k + s.form.width) imm
  if !s.usesImx then 0
  else if fits 0 then 0 else if fits 1 then 1 else if fits 2 then 2 else if fits 3 then 3 else 4

/-- The IMX words of an operand, the most significant first (R37). -/
def imxWords (w : Nat) (imm : Word) : Nat → List Half
  | 0 => []
  | k + 1 => mkWord 0x3c (imm.extractLsb' (w + 10 * k) 10) :: imxWords w imm k

/-- The RGX payload of some fields (R38). -/
def rgxPayload (f : Fields) : BitVec 10 :=
  f.c.setWidth 5 ++ f.c.extractLsb' 5 1 ++ f.a.extractLsb' 5 1 ++ f.b.extractLsb' 5 1 ++ f.size

/-- The payload of the base word (R35). -/
def basePayload (s : Shape) (f : Fields) : BitVec 10 :=
  match s.form with
  | .a => f.a.setWidth 5 ++ f.b.setWidth 5
  | .i => f.a.setWidth 5 ++ f.imm.setWidth 5
  | .b => f.a.setWidth 5 ++ f.imm.setWidth 5
  | .j => f.imm.setWidth 10
  | .n => f.imm.setWidth 10

/-- The chain of some fields: IMX, RGX, PGX and the base word, each only where it is needed (R41, R53). -/
def emit (page op : Nat) (s : Shape) (f : Fields) : List Half :=
  let rg := rgxPayload f
  imxWords s.form.width f.imm (imxNeeded s f.imm)
    ++ (if s.three || rg != 0 then [mkWord 0x3d rg] else [])
    ++ (if page != 0 || f.mod != 0 then [mkWord 0x3e (BitVec.ofNat 4 page ++ f.mod)] else [])
    ++ [mkWord (BitVec.ofNat 6 op) (basePayload s f)]

/-- The words of an instruction; an event has none. -/
def encode (i : Instr) : List Half :=
  match i.fields with
  | none => []
  | some (page, op, f) =>
    match shapeOf page op with
    | none => []
    | some s => emit page op s f

/-- The words, in memory order, of an instruction whose bits are `w` as spec/opcode_table.json numbers them. The table
writes a two-word row with its PGX word, the first in memory, in bits 31 to 16; a number whose low half is a prefix
word and whose high half is none is read with the low half first. Log entry 1. -/
def tableWords (nbits w : Nat) : List Half :=
  if nbits ≤ 16 then [BitVec.ofNat 16 w]
  else
    let hi := BitVec.ofNat 16 (w / 65536)
    let lo := BitVec.ofNat 16 w
    if 0x3c ≤ (opcodeOf lo).toNat && (opcodeOf hi).toNat < 0x3c then [lo, hi] else [hi, lo]

/-- What the decoder reads from the bits of an opcode-table row, followed by words of zeros. -/
def decodeTableWord (nbits w : Nat) : Option Instr :=
  match decode (bytesOfWords (tableWords nbits w ++ [0, 0, 0, 0])) with
  | .ok (i, _) => some i
  | .error _ => none

end Sys2Proof
end

