-- ==== Sys2Proof/Config.lean ====
section
/-! DEFINITION. The free values: what the spec leaves open. None has a body, so nothing can be proved of the value
it has. Each takes the model's counter `tick` (State) or the operands on which the value may depend.
Log entries 3, 5, 6, 8. -/

namespace Sys2Proof.Config

/-- How much fabric time one step of the model takes (log entry 3). -/
opaque elapsed : Nat → Stamp
/-- Which of the things that may happen next happens, when the running context cannot go on (log entry 3). -/
opaque choice : Nat → Nat
/-- The on-die entropy source: seeds drawn at boot and by RESEED (R326, R372; log entry 6). -/
opaque entropy : Nat → BitVec 128
/-- The 16-bit delay field of a response, whose waits the model does not time (R342; log entry 8). -/
opaque delay : Nat → BitVec 16
/-- The core cycles that a scratchpad access waits for its bank (R246, R434; log entry 8). -/
opaque bankWait : Nat → BitVec 16
/-- The filler cycles that a matrix operation inserts, of the at most 64 of each ramp (R177; log entry 8). -/
opaque filler : Nat → BitVec 7
/-- The core cycles that a cycle event counts in one step (R366; log entry 8). -/
opaque cycles : Nat → BitVec 16
/-- The bytes that a copy with overlapping source and destination leaves at its destination (R250; log entry 8). -/
opaque overlapByte : Nat → Nat → Byte
/-- Which L1 copy a fill of a full L1 replaces: the spec gives no L1 replacement rule (log entry 8). -/
opaque l1Victim : Nat → Nat
/-- Which entry a fill of a full first-level TLB replaces (log entry 8). -/
opaque tlbVictim : Nat → Nat
/-- Whether a memory stream has read a vector ahead before a later store reached it (R260; log entry 8). -/
opaque readAhead : Nat → Bool
/-- Whether a cluster is failed because its near-tier tags are (R397, R401; log entry 13). -/
opaque tagsLost : Nat → Bool
/-- Whether MXACC's sum of a zero element and a zero addend that are both negative re-encodes as −0: an exact zero has no
sign, and R105 gives the code none (log entry 10). -/
opaque mxZeroNeg : Nat → Nat → Bool
/-- Whether a route between dies goes along its row first, or along its column (log entry 38). -/
opaque rowFirst : Bool
/-- The die of a Langor link (log entry 38). -/
opaque linkDie : Nat → Nat
/-- What the device behind a window makes of an access to it: 1 refuses it, 2 (over a link) finds a marked line, anything
else takes it (R419, R422; log entry 38). -/
opaque farAnswer : Nat → Nat
/-- Whether a flit that fails its CRC is the one that failed last (R394; log entry 13). -/
opaque sameFlit : Nat → Bool
/-- The sequencer die, which the configuration record names (R10; log entry 5). -/
opaque sequencerDie : Nat
/-- The device id at the far end of a link, as the configuration record names it (R426). -/
opaque linkDevice : Nat → Nat
/-- The link that a failure in the sixth step of boot leaves down (R428). -/
opaque deadLink : Nat → Nat
/-- The failure that boot meets after a recovery image (R428). -/
opaque recovery : Nat → BitVec 8
/-- Where the queue of system events lies in the system cores' SRAM (R415; log entry 13). -/
opaque eventQueueAt : Nat
/-- The physical address of the owner table, which the configuration record names (R325; log entry 5). -/
opaque ownerTablePa : BitVec 52
/-- The digest of the running firmware and of the configuration record (R354; log entry 5). -/
opaque firmwareDigest : BitVec 256
opaque configDigest : BitVec 256
/-- The owner's ML-KEM-768 encapsulation key, by owner and key generation, byte by byte (R355; log entry 6). -/
opaque encapsKey : Nat → Nat → Nat → Byte
/-- The shared secret that FIPS 203 decapsulation gives for the owner's key and the 1,088-byte ciphertext, taken as
a little-endian number (R355, R380; log entry 6): the key is drawn from the entropy source and no party sees it. -/
opaque decapsulate : Nat → Nat → Nat → BitVec 256
/-- The ML-DSA-44 signature byte j of the report drawn at a given tick: it draws fresh randomness (R354; log entry 6). -/
opaque signature : Nat → Nat → Byte

end Sys2Proof.Config
end

