-- ==== Sys2Proof/Machine/State.lean ====
section
/-! DEFINITION. The state of a Langor package as plain data: every register, table, queue and mark that the spec names,
held sparsely in lists by number. INVENTORY.md lists each piece with its rule and its reset value. -/

namespace Sys2Proof.Machine

/-- A sparse table: pairs of a number and what is held under it, numbers rising. -/
abbrev Tab (α : Type) := List (Nat × α)

/-- What stops the machine. -/
inductive Fault where
  /-- Raised by `step` on a package without power (R431). Safe: such a package executes nothing. -/
  | noPower
  /-- Raised by `step` while boot has failed and the part stays in ROM (R428, codes 1, 2, 3, 4 and 5). Safe: no Otric
  instruction can run there. -/
  | staysInRom
  deriving DecidableEq, Repr

/-- Why an instruction has no meaning here. -/
inductive Refusal where
  /-- Raised by an arm of `exec` for an instruction that the model does not have. Safe: nothing is claimed of it. -/
  | notModelled (mnemonic : String)
  deriving DecidableEq, Repr

/-- The trap causes of R87, in the order of their codes. -/
inductive Cause where
  | illegal | priv | align | xlate | perm | class_ | ownbuf | witmal | poison | bargen | barcnt | mxfmt | crfmt | stage
  | sealed | brk | sys | notice | preempt | timer | hwerr | lost | gang
  deriving DecidableEq, Repr

/-- What an instruction waits for. It stays at its address and executes again from its start (R303, R386). `drain` is END
or YIELD waiting for what R280 and R386 name; `window` SCA or LVCANCEL until its announcement is presented (R313, R321);
`late` a load of the context that has not taken effect (R203); `replica` a replica's mark, `held` that of an instruction that presents a
record (R303); `walks` TLBINV (R349, R360); `saving` a CTXSAVE, or a TLBINV that suspends
an owner; `resume` CTXLOAD (R391); `entry` no instruction but a context that has popped a resume entry (R391); `aside` an
instruction of the context that waits while later ones go on (R15, R17). -/
inductive Wait where
  | register (r : XReg)
  | laneStore
  | sliceQueue
  | gangSlice
  | copyQueue
  | matrixDone
  | writes (sc : Scope) (mark : Nat)
  | late (id : Nat)
  | replica (st : Stamp) (held : Bool)
  | landing (n : Nat)
  | dismantle (n : Nat)
  | level (idx : Nat)
  | barrier (bar : Nat) (g : Bool)
  | notify (k : Nat) (val : Word)
  | address (va : Word) (val : Word) (polled : Bool)
  | peers (handle : Nat)
  | drain
  | idle (woken : Bool)
  | walks
  | saving (c : CtxId)
  | resume (slot : Nat)
  | entry (slot : Nat)
  | turn (line : Nat) (hold : Option (Option Nat))
  | window (id : Nat)
  | aside
  deriving DecidableEq, Repr

/-- A firing context is free or runs a firing (R279, R280). -/
inductive Life where
  | free | running
  deriving DecidableEq, Repr

/-- The user control registers of R78 and R79 to R85; TSTAT is CMODE, PMODE and INH; `seedLo` holds a written SEED.LO
until SEED.HI installs it (R86). -/
structure Crs where
  fstat : Word := 0
  rmode : Word := 0
  mfmt : Word := 0
  mscalea : Word := 0
  mscaleb : Word := 0
  tvec : Word := 0
  tcause : Word := 0
  tpc : Word := 0
  taddr : Word := 0
  tval : Word := 0
  wscope : Word := 0
  nmask : Word := 0
  tdline : Word := 0
  cmode : Bool := false
  pmode : Bool := false
  inh : Bool := false
  seedLo : Option Word := none
  deriving DecidableEq, Repr

/-- What describes the running firing: OWNER and FIRING of R83, the record copy (R276) and how it was presented (R279). -/
structure Firing where
  oid : BitVec 8 := 0
  isSealed : Bool := false
  retry : BitVec 2 := 0
  recov : Bool := false
  exposed : Bool := false
  prio : BitVec 2 := 0
  launch : BitVec 12 := 0
  fid : BitVec 32 := 0
  record : BitVec 512 := 0
  recAddr : Word := 0
  startWit : Word := 0
  deriving DecidableEq, Repr

/-- A pending register (R196, R230): the writes it counts are those of its context with a number below `mark`;
`stamp` is the running maximum over them so far; `null` says that the null witness is written (R198); for an atomic,
`result` names its flight and `value` is its answer. The instruction's own writes are numbered from `own` (R226). -/
structure Pend where
  reg : XReg
  mark : Nat
  own : Nat := 0
  stamp : Option Stamp
  scope : Scope
  null : Bool := false
  result : Option Nat := none
  value : Option Word := none
  deriving DecidableEq, Repr

/-- A stream binding of v56 to v63 (R259, R260); `pos` counts the vectors taken, `ahead` holds those read ahead. -/
structure Stream where
  reg : VReg
  addr : Word
  shape : Word
  pattern : Word
  na : Bool
  pos : Nat
  ahead : List Vec := []
  deriving DecidableEq, Repr

/-- An engine fault or refusal to be reported at a boundary; `issue` orders it among those of its context (R157, R226,
R383). -/
structure EngFault where
  cause : Cause
  addr : Option Word
  val : Word
  issue : Nat := 0
  deriving DecidableEq, Repr

/-- The special state of a CR element (R116). -/
inductive CrSpec where
  | none | pinf | ninf | nan
  deriving DecidableEq, Repr

/-- A CR element (R113): the count or the value bits, none when nothing has been contributed, and its special state. -/
structure CrElem where
  val : Option Nat := .none
  st : CrSpec := .none
  deriving DecidableEq, Repr

/-- The 32 elements of a logical CR line and its sticky overflow bit (R113). -/
structure CrLine where
  elems : List CrElem
  ovf : Bool := false
  deriving DecidableEq, Repr

/-- Where a CR line lies and how it counts: the physical address of its frame bytes, its format, anchor and owner. -/
structure CrPlace where
  key : Nat
  fmt : BitVec 2
  anchor : BitVec 8
  owner : Nat
  deriving DecidableEq, Repr

/-- What an unexposed recoverable firing holds in its staging (R171, R215, R290, R305). A staged CR line is one entry:
`clear` says that a staged clear precedes the contributions of `line`. -/
inductive Staged where
  | store (va : Word) (pa : Nat) (cls : BitVec 3) (owner : Nat) (data : List Byte)
  | cr (p : CrPlace) (clear : Bool) (line : CrLine)
  | pclr (va : Word) (pa : Nat) (cls : BitVec 3) (owner : Nat) (crp : Option CrPlace)
  | count (va : Word) (pa : Nat) (owner : Nat) (amount : Word)
  | spawn (record : BitVec 512) (addr : Word) (pc : Word)
  | arm (record : BitVec 512) (addr : Word) (pc : Word)
  | disarm (va : Word) (pa : Nat)
  deriving DecidableEq, Repr

/-- The part of a register that a load writes when it takes effect: a scalar from its low bytes with or without sign
extension, or bytes of a vector or tile register from an offset. -/
inductive Dest where
  | x (r : XReg) (n : Nat) (sign : Bool)
  | v (r : VReg) (off n : Nat)
  | t (r : TReg) (off n : Nat)
  deriving DecidableEq, Repr

/-- What a load has read ahead of its place in program order (R203, R204): the address and where it leads, the bytes, or for CR
memory the line as all parties see it at the key `pa`, and the tick at which it was read. -/
structure Sample where
  va : Word
  pa : Nat
  bytes : List Byte
  tick : Nat
  cr : Option CrLine := none
  deriving DecidableEq, Repr

/-- A load of an earlier instruction that has not taken effect yet: its access on its way and what it writes (R203). -/
structure LateLoad where
  id : Nat
  dest : Dest
  deriving DecidableEq, Repr

/-- An instruction that waits while later ones of its context go on (R15, R17): where it stands, what it waits for, and the bytes
at home that it will write. -/
structure Aside where
  instr : Instr
  wait : Wait
  pc : Word
  npc : Word
  chain : Word
  touch : Option (Nat × Nat)
  deriving DecidableEq, Repr

/-- A firing or helper context (R15, R16, R75). `early` holds the reads made ahead and `late` the loads still to take
effect; `lag` makes the loads of the next instruction late. `known` gives, by register, the tick from which its value stands,
`ready` the same of all that the instruction being issued reads, and `wrote` that of the registers being written (R203; log
entry 37). `banks` are those of the last scratchpad access, at the time `bankAt` (R434). `verdict` is the answer that an event has
decided for an instruction that waits, `judged` the stamp that its witness was judged to (R193), and `aside` the instructions
that wait while later ones go on. -/
structure Ctx where
  x : Vector Word 32 := Vector.replicate 32 0
  v : Vector Vec 64 := Vector.replicate 64 0
  m : Vector Word 8 := Vector.replicate 8 0
  t : Vector Tile 8 := Vector.replicate 8 0
  pc : Word := 0
  npc : Word := 0
  chain : Word := 0
  life : Life := .free
  wait : Option Wait := none
  since : Stamp := 0
  firstId : Nat := 0
  woke : Option Wait := none
  trapped : Bool := false
  crs : Crs := {}
  fir : Firing := {}
  runMax : Option Stamp := none
  holds : List (BitVec 12) := []
  pend : List Pend := []
  streams : List Stream := []
  dacc : Tab (Nat × Nat) := []
  staging : List Staged := []
  engFaults : List EngFault := []
  lostPend : List (Nat × Word) := []
  hwerr : Bool := false
  preempt : Bool := false
  timerPend : Bool := false
  noticeSet : Word := 0
  gang : Option (BitVec 8 × Nat) := none
  gangInst : Nat := 0
  copies : List Nat := []
  copyWit : Word := 0
  sig : Word := 0
  evIdx : Nat := 0
  bankWait : Word := 0
  fill : BitVec 32 := 0
  early : List Sample := []
  late : List LateLoad := []
  lag : Bool := false
  known : Tab Nat := []
  ready : Nat := 0
  wrote : Nat := 0
  banks : List Nat := []
  bankAt : Stamp := 0
  verdict : Option (Word × Word) := none
  judged : Option (Option Stamp) := none
  aside : List Aside := []
  deriving DecidableEq, Repr

/-- A record waiting in a deque, or the resume entry of a YIELD that names a slot (R278, R319); `spill` is its place in the
spill region, where it has moved there. -/
structure DequeEntry where
  record : BitVec 512
  addr : Word
  startWit : Word
  fid : BitVec 32
  retry : BitVec 2 := 0
  resume : Option Nat := none
  spill : Option Nat := none
  deriving DecidableEq, Repr

/-- A push that a deque refused: it stays pending and is retried (R278, R285, R291). -/
structure PendPush where
  entry : DequeEntry
  trig : Option Nat
  deriving DecidableEq, Repr

/-- An entry of a core's trigger table (R284): `live` while its watch stands. -/
structure TrigEntry where
  idx : Nat
  record : BitVec 512
  addr : Word
  oid : Nat
  pa : Nat
  live : Bool
  deriving DecidableEq, Repr

/-- A landing object (R253, R254): for modes 1 and 2, each buffer with its byte count and whether a core has it; in a
ring, `next` is the slot that fills and `oldest` the slot that is handed out next. -/
structure Landing where
  n : Nat
  oid : Nat
  mode : Nat
  count : Nat
  wit : Word
  status : Nat
  tcnt : Word
  expect : Nat
  sMode : Bool
  bufs : List (Nat × Nat × Bool)
  next : Nat
  oldest : Nat
  deriving DecidableEq, Repr

/-- The opcodes of the matrix multiplies (R179). -/
inductive MatKind where
  | mma | mmas | mmat
  deriving DecidableEq, Repr

/-- An operand that a matrix slice reads (R160, R163, R168): its rows, for A by row and for B by K position (value rows
for MMAS), the index blocks of MMAS, the E8M0 scales by row or column where its format has them, whether a scale lies outside
its buffer, and the first poisoned byte. -/
structure MatOperand where
  rows : List (List Byte) := []
  index : List (List Byte) := []
  scales : Option (List (List Byte)) := none
  badScales : Bool := false
  fault : Option (Cause × Word) := none
  deriving DecidableEq, Repr

/-- A place in the order of a gang's operations (R165): the member mask, which of the gangs opened with that mask in the
cluster it is, and the number of the operation since its MGANG. -/
structure GangPos where
  mask : BitVec 8
  inst : Nat
  k : Nat
  deriving DecidableEq, Repr

/-- A gang position that has ended without some member: those that have met it (R165). -/
structure DeadGang where
  pos : GangPos
  met : BitVec 8
  deriving DecidableEq, Repr

/-- The latest gang opened with a mask in a cluster, and the members that have opened it (R164). -/
structure GangOpen where
  mask : BitVec 8
  inst : Nat
  joined : BitVec 8
  deriving DecidableEq, Repr

/-- A matrix operation in a slice (R155, R156), with everything sampled at issue (R77, R156, R168). `position` is its place
in its gang (R165); `lines` are the lines of the staging that it will take (R292); `handles` are its buffers, with whether each is an A
buffer (R167); a `discard`ed operation belongs to a firing whose staging is gone. -/
structure MatOp where
  id : Nat
  kind : MatKind
  depth : Nat
  keep : Nat
  mfmt : Word
  daddr : Word
  dfld : Word
  a : MatOperand
  b : MatOperand
  pc : Word
  ctx : CtxId
  oid : Nat
  sMode : Bool
  position : Option GangPos
  lines : List (Nat × Nat) := []
  handles : List (Nat × Bool)
  issuedAt : Stamp
  started : Bool
  gangFault : Bool
  discard : Bool
  deriving DecidableEq, Repr

/-- An announcement waiting to be presented, or presented in a window (R216). -/
inductive AnnKind where
  | word (k op : Nat) (val : Word)
  | cancel (level : Nat)
  deriving DecidableEq, Repr

structure Announce where
  id : Nat
  window : Nat
  core : Nat
  oid : Nat
  kind : AnnKind
  wit : Word
  ctx : CtxId
  fid : BitVec 32
  ev : Nat
  issued : Stamp
  deriving DecidableEq, Repr

/-- A performance counter (R366). -/
structure Perf where
  event : BitVec 8 := 0
  cf : Bool := false
  ctx : Bool := false
  count : Word := 0
  deriving DecidableEq, Repr

/-- A translation held by a TLB, with the address of its entry (R347, R348). -/
structure TlbEntry where
  oid : Nat
  level : Nat
  vpage : Nat
  entry : Word
  entryPa : Nat
  deriving DecidableEq, Repr

/-- Everything a core holds beside its contexts. -/
structure CoreSt where
  deque : List DequeEntry := []
  hw : Nat := 0
  pendPush : List PendPush := []
  trig : List TrigEntry := []
  landing : List Landing := []
  monitor : List CtxId := []
  laneHolder : Option Nat := none
  laneClearing : Bool := false
  lane : Tab Vec := []
  lanePoison : List Nat := []
  slice : List MatOp := []
  sliceGang : Option Nat := none
  rampIdle : Bool := true
  lastDone : Stamp := 0
  hold : Option (Stamp × Stamp) := none
  perf : Vector Perf 4 := Vector.replicate 4 {}
  annQueue : List Announce := []
  stealFails : Nat := 0
  asleep : Bool := false
  l1Floor : Stamp := 0
  hwerrAt : Option Stamp := none
  failed : Bool := false
  helperOf : Option Nat := none
  tlb1 : List TlbEntry := []
  deriving DecidableEq, Repr

/-- A scratchpad buffer (R240, R244): what is not listed in `data` reads as 0 (R241). -/
structure Buf where
  owner : Nat
  holder : Nat
  size : Nat
  exporter : Nat := 0
  data : List Host.Cell := []
  poison : List Nat := []
  readers : Nat := 0
  quarantined : Bool := false
  deriving DecidableEq, Repr

/-- The copy instructions (R250), CPYR with its operation (R251). -/
inductive CopyKind where
  | cpy | cpym
  | cpyr (op : Nat)
  deriving DecidableEq, Repr

/-- A page that a copy has translated and checked before it writes any byte (R249): its address over 65,536, its leaf entry
with the entry's level and address. -/
structure CopyPage where
  page : Nat
  entry : Word
  level : Nat
  entryPa : Nat
  deriving DecidableEq, Repr

/-- A copy in the engine (R247 to R252), with the endpoints and control word read at issue; `tag` is the number taken at its
issue. `checked` says that its pages are; `row` and `off` are how far it has come, `rows` what it has gathered for other
clusters, and `lines` the PRIV lines that it has written. `sent` says that its bytes are written or on their way; `kept`
that its firing is saved (R386); `judged` holds the stamp that its witness was judged to (R193, R220). -/
structure CopyOp where
  tag : Nat
  kind : CopyKind
  dAddr : Word
  dShape : Word
  sAddr : Word
  sShape : Word
  ctl : Word
  wit : Word
  scope : Scope
  na : Bool
  ctx : CtxId
  oid : Nat
  sMode : Bool
  pc : Word
  handles : List Nat
  age : Nat := 0
  started : Bool := false
  checked : Bool := false
  pages : List CopyPage := []
  row : Nat := 0
  off : Nat := 0
  rows : List (Nat × List Byte) := []
  lines : List Nat := []
  sent : Bool := false
  status : Nat := 0
  fault : Option (Cause × Word) := none
  kept : Bool := false
  judged : Option (Option Stamp) := none
  deriving DecidableEq, Repr

/-- What a copy of a saved firing left when it completed, until the firing runs again (R280, R390). -/
structure CopyEnd where
  tag : Nat
  wit : Word
  fault : Option (Cause × Word)
  pc : Word
  lost : Option Word
  deriving DecidableEq, Repr

/-- A partition of a cache slice and its utility counts (R339, R341): QUOTA and hits[1], hits[2], … -/
structure Part where
  quota : Nat
  hits : List Nat
  deriving DecidableEq, Repr

/-- The partitions of one slice, entries 0 to 15 and the overflow 16, the free pool, the shadow tags of the sampled
sets (set, partition, lines with the most recent first), and how many intervals have ended here (R341). -/
structure Quotas where
  parts : List Part
  free : Nat
  shadow : List (Nat × Nat × List Nat)
  done : Nat := 0
  deriving DecidableEq, Repr

/-- What the debug module writes when it halts a cluster (R404): each context as the pieces of a slot with their offsets, the
buffer table, the copy queue and the landing objects of the cores. -/
structure Snapshot where
  contexts : List (CtxId × List (Nat × List Byte))
  bufs : Tab Buf
  copyQ : List CopyOp
  landing : List (Nat × List Landing)
  deriving DecidableEq, Repr

/-- Everything a cluster holds; `fatal` says that a fatal fault of its group has come and is not yet handled (R402). Of the
debug snapshots the second is what the host may see (R353); `passHalt` says that the module passes its halt on (R403). -/
structure ClusterSt where
  bufs : Tab Buf := []
  copyQ : List CopyOp := []
  nearFloor : Tab Stamp := []
  quotas : Quotas := ⟨List.replicate 16 ⟨0, List.replicate 24 0⟩ ++ [⟨24, List.replicate 24 0⟩], 0, [], 0⟩
  deadGangs : List DeadGang := []
  gangs : List GangOpen := []
  tlb2 : List TlbEntry := []
  halted : Bool := false
  passHalt : Bool := false
  snapshot : Option Snapshot := none
  hostSnapshot : Option Snapshot := none
  clockKHz : Nat := 2700000
  sagged : Bool := false
  group : Option Nat := none
  fatal : Bool := false
  failed : Bool := false
  deriving DecidableEq, Repr

/-- A Scrim barrier (R295 to R299). -/
structure Barrier where
  owner : Nat
  members : BitVec 256
  count : Nat
  timeout : Nat
  g : Bool
  arrived : List Nat
  started : Option Stamp
  timedOut : Bool
  deriving DecidableEq, Repr

/-- A share-table entry (R333). -/
structure Share where
  owner : Option Nat := none
  weight : Nat := 0
  deriving DecidableEq, Repr

/-- A quota-table entry (R339). -/
structure Floor where
  owner : Option Nat := none
  floor : Nat := 0
  deriving DecidableEq, Repr

/-- A core place of the place map in effect (R344). -/
structure Place where
  present : Bool
  owner : Nat
  phys : Nat
  deriving DecidableEq, Repr

/-- Everything a die holds. A core place or home slice not listed maps to itself. -/
structure DieSt where
  barriers : Tab Barrier := []
  places : Tab Place := []
  slices : Tab (Bool × Nat) := []
  failedSlices : List Nat := []
  pmapbase : Word := 0
  share : List (List Share) := List.replicate 5 (List.replicate 16 ⟨none, 0⟩ ++ [⟨none, 1⟩])
  floors : List (List Floor) := List.replicate 2 (List.replicate 17 ⟨none, 0⟩)
  farQuotas : Tab Quotas := []
  replMark : Stamp := 0
  walkCache : List TlbEntry := []
  tempC : Nat := 25
  failed : Bool := false
  deriving DecidableEq, Repr

/-- A trace session (R365, R405 to R408). -/
structure Trace where
  opener : Nat
  buf : Word
  size : Nat
  written : Nat
  dropped : Nat
  total : Nat
  marksOnly : Bool
  deriving DecidableEq, Repr

/-- Recording and replay of an owner (R368, R409 to R413): mode 0 stopped, 1 record, 2 replay; `holds` gives, by the number under
which an event is released, since when it has been held. -/
structure Replay where
  mode : Nat := 0
  opener : Nat := 0
  log : Word := 0
  size : Nat := 0
  count : Nat := 0
  full : Bool := false
  diverged : Bool := false
  cont : Bool := false
  used : List Nat := []
  released : List Nat := []
  holds : Tab Stamp := []
  differ : Tab Nat := []
  deriving DecidableEq, Repr

/-- The special states and sticky overflow bit kept beside a CR line (R113). -/
structure CrMeta where
  key : Nat
  sts : List CrSpec
  ovf : Bool
  deriving DecidableEq, Repr

/-- A measurement run (R367, R414): `cores` are those that have run a firing of the pass, `writeSet` the frames whose old
bytes lie in SNAP, in order, and `crSaved` the old special states and sticky bits of their CR lines. -/
structure MPass where
  desc : Word
  caller : Nat
  root : BitVec 512
  rootAddr : Word
  passes : Nat
  pass : Nat
  launch : Nat
  parent : Nat
  snap : Word
  snapSize : Nat
  done : Word
  events : List Nat
  cores : List Nat
  writeSet : List Nat
  crSaved : List CrMeta := []
  sig0 : Word
  sig : Word
  mismatch : Nat
  overrun : Bool
  fault : Bool
  deriving DecidableEq, Repr

/-- What the die keeps of a firing that a slot holds, beside the slot (R166, R260, R383; log entry 12): the number of its gang's
instance, the LOST that it has not taken, the registers that are bound, and the instructions that wait for the lane store. -/
structure SlotKept where
  gangInst : Nat := 0
  lost : List (Nat × Word) := []
  bound : List VReg := []
  aside : List Aside := []
  deriving DecidableEq, Repr

/-- Everything the Langor holds for an owner (R325, R326); `applied` is its owner-table entry as last applied. -/
structure OwnerSt where
  valid : Bool := false
  isSealed : Bool := false
  susp : Bool := false
  root : Nat := 0
  svec : Word := 0
  savearea : Word := 0
  esave : Word := 0
  applied : BitVec 512 := 0
  seed : BitVec 128 := 0
  ctr : Tab Word := []
  slotsUsed : List Nat := []
  keyGen : Nat := 0
  measurement : BitVec 256 := 0
  grant0 : Bool := false
  grantHost : Bool := false
  trace : Option Trace := none
  rpl : Replay := {}
  notif : Vector Word 64 := Vector.replicate 64 0
  notifWit : Vector Word 64 := Vector.replicate 64 0
  nextFid : BitVec 32 := 0
  pushNo : Tab Nat := []
  mpass : Option MPass := none
  slotKept : Tab SlotKept := []
  deriving DecidableEq, Repr

/-- The two marks of a line (R396). -/
inductive Mark where
  | poisoned | lost
  deriving DecidableEq, Repr

/-- A copy of a line in a cache (R20), with the partition that filled it (near and far tier). Far-tier entries are
tags: the bytes at the home are `mem`. `holder` is the context
that holds a PRIV line, and `va` the address under which it reached the line (R226); `engine` says that only copies of that
context have made it dirty (R195, R220). -/
structure Copy where
  at_ : CacheId
  line : Nat
  data : LineData
  fill : Stamp
  expiry : Stamp
  dirty : Bool
  owner : Nat
  holder : Option CtxId
  va : Word
  set : Nat
  part : Nat
  engine : Bool := false
  deriving DecidableEq, Repr

/-- A die partial of a CR line (R172), with the near-tier slice, set and partition of the way it takes; `evicted` says
since when it has lost its way and is on its way to be folded (R174, R413). -/
structure Partial where
  die : Nat
  place : CrPlace
  line : CrLine
  cluster : Nat
  set : Nat
  part : Nat
  evicted : Option Stamp := none
  deriving DecidableEq, Repr

/-- A REPL store that the sequencer has stamped, and the dies whose replica has not applied it (R210), with the number of its
instruction's first access; `owner` is the
page's, and `clear` that of PCLR, which clears marks (R239). -/
structure ReplStore where
  id : Nat
  first : Nat
  ctx : CtxId
  stamp : Stamp
  pa : Nat
  owner : Nat
  data : List Byte
  dies : List Nat
  clear : Bool := false
  deriving DecidableEq, Repr

/-- A watch at a counter's home with the counter witness (R283, R284); `page` is the owner of the counter's page. -/
structure Watch where
  pa : Nat
  page : Nat
  oid : Nat
  core : Nat
  idx : Nat
  thresh : Nat
  rearm : Bool
  wit : Word
  deriving DecidableEq, Repr

/-- A fire on its way to the arming core (R284). -/
structure Fire where
  core : Nat
  idx : Nat
  oid : Nat
  record : BitVec 512
  addr : Word
  wit : Word
  fid : BitVec 32
  deriving DecidableEq, Repr

/-- A page's class change in progress (R28, R209): when the largest expiry of a copy has run out, it completes. -/
structure ClassChange where
  oid : Nat
  level : Nat
  vpage : Nat
  oldEntry : Word
  newEntry : Word
  expiry : Stamp
  deriving DecidableEq, Repr

/-- The leaf entry of a page whose class, format and anchor are in effect (R28): a later entry of the page counts only once
its class change is complete. -/
structure PageClass where
  oid : Nat
  level : Nat
  vpage : Nat
  entry : Word
  deriving DecidableEq, Repr

/-- What the homes, directories and caches hold; `cleared` lists the lines, with their channels, whose mark PCLR has cleared
since their channel was lost (R239, R397). -/
structure HomeSt where
  marks : List (Nat × Mark) := []
  chanLost : List Nat := []
  cleared : List (Nat × Nat) := []
  dieLost : List Nat := []
  sealTags : Tab Nat := []
  crMeta : List CrMeta := []
  partials : List Partial := []
  dir : Tab (BitVec 9) := []
  copies : List Copy := []
  replLog : List ReplStore := []
  watches : List Watch := []
  fires : List Fire := []
  classes : List PageClass := []
  classChanges : List ClassChange := []
  deriving DecidableEq, Repr

/-- What an access on its way to its home does there. A `load` asks its near-tier slice where `near` is set (R224), and a `priv` store
takes effect at its caches (R203). A `commit` carries the staged entries of one line, with the keys of the CRF32 lines of its whole commit and whether a line of that
has been applied (R119); `requests` the SPAWNs, ARMs and DISARMs that follow the lines (R215, R305). A `count` that a staging held is
`staged` (R309). -/
inductive FlightKind where
  | load (entry : Word) (level n : Nat) (na near : Bool)
  | commit (es : List Staged) (order : List Nat) (begun : Bool)
  | requests (es : List Staged)
  | store (data : List Byte)
  | priv (data : List Byte) (na : Bool)
  | repl (data : List Byte)
  | atomic (op : AmoOp) (sz : Size) (operand expected : Word)
  | mxacc (addends : Vec) (fmt : Nat)
  | count (amount : Word) (staged : Bool)
  | pclr (cls : BitVec 3) (crp : Option CrPlace)
  deriving DecidableEq, Repr

/-- Whether a flight is still on its way, or its home has refused it for a mark, or a device at the far end of a link for its
own page's sake, or its home was lost (R226, R385, R419). -/
inductive FlightEnd where
  | onWay | refused | denied | lost
  deriving DecidableEq, Repr

/-- An access of a context on its way to its home (R189, R203). `earlier` says that it may be applied only once every
earlier write of its context is delivered at its scope (R230, R309); `age` counts its draws at the arbiter of the queue that
it has reached, at tick `came` (R334); `first` is the number of its instruction's first access, which the lanes of a vector store share. `path` names the
queues still to pass, each as a class and an index of R329; `fetched` says that its line has come from its HBM channel. -/
structure Flight where
  id : Nat
  first : Nat
  ctx : CtxId
  oid : Nat
  kind : FlightKind
  va : Word
  pa : Nat
  owner : Nat
  scope : Scope
  pc : Word
  wit : Word
  earlier : Bool
  ev : Nat
  age : Nat
  came : Nat
  issued : Stamp
  path : List (Nat × Nat)
  state : FlightEnd
  fetched : Bool := false
  deriving DecidableEq, Repr

/-- An inbound scratchpad delivery (R250, R255). -/
structure Delivery where
  cluster : Nat
  addr : Word
  rows : List (Nat × List Byte)
  tag : Nat
  sender : Nat
  oid : Nat
  wit : Word
  deriving DecidableEq, Repr

/-- A steal request on its way to its victim (R281). -/
structure Steal where
  thief : Nat
  victim : Nat
  deriving DecidableEq, Repr

/-- A lost unexposed recoverable firing to be pushed again (R291). -/
structure Redispatch where
  entry : DequeEntry
  oid : Nat
  core : Nat
  deriving DecidableEq, Repr

/-- What is on its way in the package. -/
structure NetSt where
  flight : List Flight := []
  nextId : Nat := 0
  announced : List Announce := []
  inbound : List Delivery := []
  steals : List Steal := []
  redispatch : List Redispatch := []
  copyEnds : List CopyEnd := []
  deriving DecidableEq, Repr

/-- A system event record (R415). -/
structure SysEvent where
  kind : Nat
  oid : Nat
  cause : Nat
  fid : BitVec 32
  core : Nat
  ctx : Nat
  index : Nat
  addr : Word
  time : Stamp
  deriving DecidableEq, Repr

/-- An entry of an inbound aperture table, doubleword by doubleword (R418). -/
structure Aperture where
  ctl : Word := 0
  vbase : Word := 0
  size : Word := 0
  last : Word := 0
  deriving DecidableEq, Repr

/-- A structure that counts the errors that it corrects (R394); a cache by its place. -/
inductive CheckedUnit where
  | cache (at_ : CacheId)
  | deque (core : Nat)
  | triggers (core : Nat)
  | staging (core : Nat)
  | scratchpad (cluster : Nat)
  | laneStore (core : Nat)
  | registers (core : Nat)
  | scalarUnit (core : Nat)
  | channel (slice : Nat)
  | wire (wire : Nat)
  | adder (slice : Nat)
  deriving DecidableEq, Repr

/-- What a debug read asks for (R353, R394): a scalar, vector, mask, tile or control register of a context, bytes of a scratchpad
buffer or of a frame, or a structure's count of corrections. -/
inductive DebugRead where
  | reg (c : CtxId) (r : XReg)
  | vector (c : CtxId) (r : VReg)
  | mask (c : CtxId) (r : MReg)
  | tile (c : CtxId) (r : TReg)
  | control (c : CtxId) (n : Nat)
  | scratch (cluster handle off n : Nat)
  | frame (pa n : Nat)
  | corrections (u : CheckedUnit)
  deriving DecidableEq, Repr

/-- What the endpoint answered to an inbound request: data, completer abort, or data poisoning (R419). -/
inductive Answer where
  | data (bs : List Byte)
  | done
  | abort
  | poisoned
  deriving DecidableEq, Repr

/-- The latest write of a per-owner, per-die or device-wide register (R77): the register's number and the owner or die, the
stamp and the core. -/
structure CrWrite where
  reg : Nat
  at_ : Nat
  stamp : Stamp
  core : Nat
  deriving DecidableEq, Repr

/-- A unit of an inbound request, of at most 8 aligned bytes: its offset and length, and the page entry, level and address that it
finds (R202). -/
structure InUnit where
  off : Nat
  len : Nat
  entry : Word
  level : Nat
  entryPa : Nat
  pa : Nat
  deriving DecidableEq, Repr

/-- An inbound request that is taking effect unit by unit: the address at which it starts, the units left, and what it has read
(R202, R419). -/
structure InWork where
  q : Inbound
  oid : Nat
  va : Word
  left : List InUnit
  got : List Byte
  deriving DecidableEq, Repr

/-- Device-wide registers and the edges of the package. `apertures` is keyed by source·64 + aperture; `intervals` counts the
quota intervals that have ended (R341), `sysCount` the events ever queued (R415); `inQueue` holds the inbound requests that
wait for earlier writes (R419, R420). -/
structure DevSt where
  leaseL1 : Word := 0x1000
  leasesL1 : List (Stamp × Word) := []
  leaseNear : Word := 0x1000
  crWrites : List CrWrite := []
  umint : Word := 20
  intervals : Nat := 0
  seqDie : Nat := 4
  sysEvents : List SysEvent := []
  sysDropped : Nat := 0
  sysCount : Nat := 0
  corrections : List (CheckedUnit × Nat) := []
  apertures : Tab Aperture := []
  inQueue : List Inbound := []
  inBusy : List InWork := []
  answers : List Answer := []
  mbox : List Word := []
  lastIn : Tab Stamp := []
  linksDown : List Nat := []
  crcRetry : Tab Nat := []
  powerLimitW : Nat := 6600
  recordLimitW : Nat := 6600
  nvmeDma : List Nat := []
  crash : Bool := false
  bootFail : BitVec 8 := 0
  deriving DecidableEq, Repr

/-- One thing that the rest of the package, system software or the outside does: an event of the opcode table, another
context's turn, an act of the system cores (R24, R26): a store, a push of a record, the group of a cluster (R294), an entry of
the aperture tables (R418), events taken from their queue (R415), whether a debug module passes its halt on (R403), a debug
read (R353, R394); an error that a structure corrects (R394); a read that a context makes ahead of its program order, a vector that a
stream reads ahead (R260), the choice that its next load takes effect later (R203), that its waiting instruction lets later ones go
on, or that such an instruction runs now (R15); the frames that the device kernel names for NVMe devices (R425). Log entry 3. -/
inductive Turn where
  | event (i : Instr)
  | switch (c : CtxId)
  | sysStore (pa : Nat) (data : List Byte)
  | sysPush (core : Nat) (oid : Nat) (record : BitVec 512) (addr : Word)
  | sysGroup (cluster : Nat) (group : Option Nat)
  | sysAperture (i : Nat) (a : Aperture)
  | sysTake (n : Nat)
  | passHalt (cluster : Nat) (on : Bool)
  | debug (host : Bool) (what : DebugRead)
  | corrected (u : CheckedUnit)
  | sample (c : CtxId) (va : Word) (n : Nat)
  | vector (c : CtxId) (r : VReg)
  | lag (c : CtxId)
  | setAside (c : CtxId)
  | asideRuns (c : CtxId)
  | dmaFrames (frames : List Nat)
  deriving DecidableEq, Repr

/-- The state of the package. `cx` is the context `cur`, which moves next; `parked` holds the others. -/
structure State where
  now : Stamp := 0
  tick : Nat := 0
  cur : CtxId := ⟨0, 0⟩
  cx : Ctx := {}
  parked : List (CtxId × Ctx) := []
  plan : List Turn := []
  powered : Bool := true
  bootst : Word := 0
  cores : Tab CoreSt := []
  clusters : Tab ClusterSt := []
  dies : Tab DieSt := []
  owners : Tab OwnerSt := []
  mem : List Host.Cell := []
  sysSram : List Host.Cell := []
  home : HomeSt := {}
  net : NetSt := {}
  dev : DevSt := {}
  deriving DecidableEq, Repr

/-- What a byte of physical memory that is not listed reads as: boot writes every line of HBM to zero (R428, step 5).
For the host and link windows, log entry 2. -/
def Memory.unlisted : Byte := 0

/-- The canonical form of a memory: addresses strictly rising, and no entry equal to what an unlisted byte reads as. -/
def Memory.wf : List Host.Cell → Bool
  | [] => true
  | [c] => c.2 != Memory.unlisted
  | c :: d :: m => c.2 != Memory.unlisted && decide (c.1 < d.1) && Memory.wf (d :: m)

/-- The package at power-on, before boot has taken a step (R22, R428): owner 0 exists (R325), every context is free,
fabric time is 0. Log entries 2 to 7 name what the spec gives no value for. -/
def State.reset : State :=
  { owners := [(0, { valid := true, seed := Config.entropy 0, applied := BitVec.twoPow 512 63 })] }

end Sys2Proof.Machine
end

