-- ==== Sys2Proof/Machine/Bits.lean ====
section
/-! DEFINITION. Tables, memory as bytes, little-endian numbers, and the integer helpers of the spec's pseudocode
(spec/02_assembly.md R34; spec/03_opcode_map.md R71, R88, R89; spec/05_core_instructions.md R122, R123). -/

namespace Sys2Proof.Machine

/-! ### Tables -/

/-- What a table holds under `k`, or `d`. -/
def tget {α : Type} (d : α) : Tab α → Nat → α
  | [], _ => d
  | (j, a) :: t, k => if j = k then a else tget d t k

/-- The table with `a` under `k`, numbers rising. -/
def tset {α : Type} : Tab α → Nat → α → Tab α
  | [], k, a => [(k, a)]
  | (j, b) :: t, k, a =>
    if j = k then (k, a) :: t else if k < j then (k, a) :: (j, b) :: t else (j, b) :: tset t k a

/-- The table without `k`. -/
def tdel {α : Type} (t : Tab α) (k : Nat) : Tab α := t.filter fun p => p.1 != k

/-- Replace the elements that `p` picks. -/
def lupd {α : Type} (p : α → Bool) (f : α → α) (l : List α) : List α := l.map fun a => if p a then f a else a

/-- Element `i` of a list, or `d`. -/
def lget {α : Type} (d : α) (l : List α) (i : Nat) : α := l.getD i d

/-! ### Memory: a list of (address, byte) pairs in one canonical form -/

/-- One byte of a memory. -/
def memGet : List Host.Cell → Nat → Byte
  | [], _ => Memory.unlisted
  | (j, b) :: m, a => if j = a then b else if a < j then Memory.unlisted else memGet m a

/-- A memory with one byte written. -/
def memPut : List Host.Cell → Nat → Byte → List Host.Cell
  | [], a, b => if b = Memory.unlisted then [] else [(a, b)]
  | (j, c) :: m, a, b =>
    if j = a then (if b = Memory.unlisted then m else (a, b) :: m)
    else if a < j then (if b = Memory.unlisted then (j, c) :: m else (a, b) :: (j, c) :: m)
    else (j, c) :: memPut m a b

/-- `n` bytes from `a` upwards. -/
def memRead (m : List Host.Cell) (a : Nat) : Nat → List Byte
  | 0 => []
  | n + 1 => memGet m a :: memRead m (a + 1) n

/-- Bytes written from `a` upwards. -/
def memWrite (m : List Host.Cell) (a : Nat) : List Byte → List Host.Cell
  | [] => m
  | b :: bs => memWrite (memPut m a b) (a + 1) bs

/-- A memory with `n` bytes from `src` copied to `dst`; only listed bytes are moved. -/
def memCopy (m : List Host.Cell) (src dst n : Nat) : List Host.Cell :=
  let m1 := m.foldl (fun a (c : Host.Cell) => if dst ≤ c.1 && c.1 < dst + n then memPut a c.1 Memory.unlisted else a) m
  m.foldl (fun a (c : Host.Cell) => if src ≤ c.1 && c.1 < src + n then memPut a (c.1 - src + dst) c.2 else a) m1

/-- A memory with `n` bytes from `a` as no write has touched them. -/
def memClear (m : List Host.Cell) (a n : Nat) : List Host.Cell :=
  m.foldl (fun b (c : Host.Cell) => if a ≤ c.1 && c.1 < a + n then memPut b c.1 Memory.unlisted else b) m

/-- The number whose little-endian bytes are given (R92). -/
def leNat : List Byte → Nat
  | [] => 0
  | b :: bs => b.toNat + 256 * leNat bs

/-- The `n` little-endian bytes of a number. -/
def leBytes : Nat → Nat → List Byte
  | 0, _ => []
  | n + 1, v => BitVec.ofNat 8 v :: leBytes n (v / 256)

/-- Byte `j` of a line. -/
def lineByte (d : LineData) (j : Nat) : Byte := d.extractLsb' (8 * j) 8

/-- `n` bytes of a line from byte `j`. -/
def lineBytes (d : LineData) (j : Nat) : Nat → List Byte
  | 0 => []
  | n + 1 => lineByte d j :: lineBytes d (j + 1) n

/-- A line with bytes replaced from byte `j`. -/
def linePut (d : LineData) (j : Nat) (bs : List Byte) : LineData :=
  let n := bs.length
  let mask : LineData := (BitVec.ofNat 1024 (2 ^ (8 * n) - 1)) <<< (8 * j)
  (d &&& ~~~mask) ||| ((BitVec.ofNat 1024 (leNat bs)) <<< (8 * j) &&& mask)

/-! ### Integers -/

/-- The width of a scalar size in bits (R122). -/
def Size.bits : Size → Nat
  | .d => 64 | .w => 32 | .h => 16 | .b => 8
/-- The width of an element size (R135). -/
def VSize.bits : VSize → Nat
  | .s32 => 32 | .s16 => 16 | .s8 => 8
/-- The lanes of an element size (R71). -/
def VSize.lanes (s : VSize) : Nat := 512 / VSize.bits s

/-- The integer whose `w`-bit two's-complement form is in the low bits of `v` (R123). -/
def sval (v : Word) (w : Nat) : Int := (v.setWidth w).toInt
/-- The non-negative integer in the low `w` bits of `v` (R123). -/
def uval (v : Word) (w : Nat) : Nat := (v.setWidth w).toNat
/-- The low `w` bits of an integer, sign-extended to 64 bits (R89, R122). -/
def sextW (z : Int) (w : Nat) : Word := (BitVec.ofInt w z).signExtend 64
/-- Sign extension of the low `w` bits (R89). -/
def sext (v : Word) (w : Nat) : Word := (v.setWidth w).signExtend 64
/-- Zero extension of the low `w` bits (R89). -/
def zext (v : Word) (w : Nat) : Word := (v.setWidth w).setWidth 64
/-- Rotation to the left by `k` places. -/
def rotl64 (v : Word) (k : Nat) : Word := (v <<< (k % 64)) ||| (v >>> ((64 - k % 64) % 64))
/-- Bits [hi:lo] of a word as a number. -/
def fieldN (v : Word) (hi lo : Nat) : Nat := (v.toNat >>> lo) % 2 ^ (hi + 1 - lo)
/-- Bits [hi:lo] of a task or configuration record as a number. -/
def recN {w : Nat} (v : BitVec w) (hi lo : Nat) : Nat := (v.toNat >>> lo) % 2 ^ (hi + 1 - lo)
/-- Clamp to the signed range of `w` bits, and whether that changed the value (R93, R123). -/
def clampS (z : Int) (w : Nat) : Int × Bool :=
  let hi : Int := 2 ^ (w - 1) - 1
  let lo : Int := -(2 ^ (w - 1))
  if z > hi then (hi, true) else if z < lo then (lo, true) else (z, false)
/-- Clamp to the unsigned range of `w` bits. -/
def clampU (z : Int) (w : Nat) : Int × Bool :=
  let hi : Int := 2 ^ w - 1
  if z > hi then (hi, true) else if z < 0 then (0, true) else (z, false)

/-- Lane `i` of a vector at element size `w` (R71), as a number. -/
def lane (v : Vec) (w i : Nat) : Nat := (v.extractLsb' (w * i) w).toNat
/-- Lane `i` as a signed integer. -/
def laneS (v : Vec) (w i : Nat) : Int := (v.extractLsb' (w * i) w).toInt
/-- A vector with lane `i` replaced. -/
def setLane (v : Vec) (w i : Nat) (x : Nat) : Vec :=
  let mask : Vec := (BitVec.ofNat 512 (2 ^ w - 1)) <<< (w * i)
  (v &&& ~~~mask) ||| ((BitVec.ofNat 512 (x % 2 ^ w)) <<< (w * i))
/-- The `w`-bit pattern of an integer. -/
def pat (z : Int) (w : Nat) : Nat := (BitVec.ofInt w z).toNat

/-- Half-range comparison of stamps: `b` is after `a` (R22, R194). -/
def after (a b : Stamp) : Bool := let d := (b - a).toNat; decide (1 ≤ d) && decide (d < 2 ^ 47)
/-- The later of two stamps under the half-range comparison. -/
def laterOf (a b : Stamp) : Stamp := if after a b then b else a
/-- The running maximum with one more stamp (R195). -/
def mergeStamp (m : Option Stamp) (s : Stamp) : Option Stamp :=
  match m with
  | none => some s
  | some a => some (laterOf a s)

/-- The code of a cause (R87). -/
def Cause.code : Cause → Nat
  | .illegal => 1 | .priv => 2 | .align => 3 | .xlate => 4 | .perm => 5 | .class_ => 6 | .ownbuf => 7 | .witmal => 8
  | .poison => 9 | .bargen => 10 | .barcnt => 11 | .mxfmt => 12 | .crfmt => 13 | .stage => 14 | .sealed => 15
  | .brk => 16 | .sys => 17 | .notice => 18 | .preempt => 19 | .timer => 20 | .hwerr => 21 | .lost => 22 | .gang => 23

/-- The number of a scope (R190). -/
def scopeN (s : Scope) : Nat :=
  match s with
  | .core => 0 | .cluster => 1 | .die => 2 | .device => 3 | .system => 4
/-- The scope of a number; numbers above 4 do not arise. -/
def scopeAt (n : Nat) : Scope :=
  match n with
  | 0 => .core | 1 => .cluster | 2 => .die | 3 => .device | _ => .system

/-! ### Places (R9, R13, R14) -/

/-- The die of a core number. -/
def dieOf (core : Nat) : Nat := core / 256
/-- The place id of a core within its die. -/
def placeOf (core : Nat) : Nat := core % 256
/-- The cluster of a core, as die·32 + cluster id. -/
def clusterOf (core : Nat) : Nat :=
  let p := placeOf core
  dieOf core * 32 + (p / 16) * 2 + (if 8 ≤ p % 16 then 1 else 0)
/-- The core index within the cluster, which is its holder code. -/
def indexOf (core : Nat) : Nat := core % 16 % 8
/-- The core of a cluster with a given index. -/
def coreAt (cluster idx : Nat) : Nat :=
  (cluster / 32) * 256 + (cluster % 32 / 2) * 16 + (cluster % 2) * 8 + idx
/-- Hops between two dies (R9). -/
def hops (d e : Nat) : Nat :=
  (max (d / 3) (e / 3) - min (d / 3) (e / 3)) + (max (d % 3) (e % 3) - min (d % 3) (e % 3))

end Sys2Proof.Machine
end

