-- ==== Sys2Proof/Machine/Float.lean ====
section
/-! DEFINITION. Number formats to the bit (spec/04_formats.md R94 to R119; spec/05_core_instructions.md R147 to R151).
A value is decoded to an exact dyadic number, the operation is exact, and the result is rounded once. -/

namespace Sys2Proof.Machine

/-- Rounding modes (R98). -/
inductive RMode where
  | rne | rtz | rdn | rup | rna
  deriving DecidableEq, Repr

/-- A binary format (R94, R100): exponent and fraction bits, bias, whether it has infinities, its largest finite
significand and the exponent of that significand's last bit, and its canonical NaN. -/
structure FFmt where
  ew : Nat
  fw : Nat
  bias : Nat
  hasInf : Bool
  hasNan : Bool
  maxM : Nat
  maxQ : Int
  nan : Nat
  deriving DecidableEq, Repr

def fp32 : FFmt := ⟨8, 23, 127, true, true, 2 ^ 24 - 1, 104, 0x7fc00000⟩
def bf16 : FFmt := ⟨8, 7, 127, true, true, 2 ^ 8 - 1, 120, 0x7fc0⟩
def fp16 : FFmt := ⟨5, 10, 15, true, true, 2 ^ 11 - 1, 5, 0x7e00⟩
def e4m3 : FFmt := ⟨4, 3, 7, false, true, 14, 5, 0x7f⟩
def e5m2 : FFmt := ⟨5, 2, 15, true, true, 7, 13, 0x7e⟩
def e2m1 : FFmt := ⟨2, 1, 1, false, false, 3, 1, 0⟩

/-- A decoded value: NaN (signalling or not), infinity, or (−1)^neg · m · 2^e. -/
inductive FVal where
  | nan (signalling : Bool)
  | inf (neg : Bool)
  | fin (neg : Bool) (m : Nat) (e : Int)
  deriving DecidableEq, Repr

/-- Bits [3:0] and [5:4] of FSTAT (R79). -/
def flagNX : Nat := 1
def flagUF : Nat := 2
def flagOF : Nat := 4
def flagDZ : Nat := 8
def flagNV : Nat := 16
def flagSAT : Nat := 32

/-- The width of a format in bits. -/
def FFmt.width (f : FFmt) : Nat := 1 + f.ew + f.fw

/-- Decode a bit pattern (R94, R100). -/
def FFmt.decode (f : FFmt) (bits : Nat) : FVal :=
  let neg := bits.testBit (f.ew + f.fw)
  let ex := (bits >>> f.fw) % 2 ^ f.ew
  let fr := bits % 2 ^ f.fw
  let top := 2 ^ f.ew - 1
  if ex = 0 then .fin neg fr (1 - (f.bias : Int) - f.fw)
  else if f.hasInf && ex == top then
    if fr = 0 then .inf neg else .nan (!fr.testBit (f.fw - 1))
  else if f.hasNan && !f.hasInf && ex == top && fr == 2 ^ f.fw - 1 then .nan false
  else .fin neg (2 ^ f.fw + fr) ((ex : Int) - f.bias - f.fw)

/-- Whether a discarded part rounds the magnitude up: `r` of 2^sh was shifted out below `q`, and `sticky` says that
more than zero lies below it (R98). -/
def roundsUp (mode : RMode) (neg : Bool) (q r sh : Nat) (sticky : Bool) : Bool :=
  let half := 2 ^ (sh - 1)
  let inexact := r != 0 || sticky
  let atHalf := sh != 0 && r == half
  let aboveHalf := sh != 0 && (decide (half < r) || (atHalf && sticky))
  match mode with
  | .rne => aboveHalf || (atHalf && !sticky && q % 2 == 1)
  | .rna => aboveHalf || atHalf
  | .rtz => false
  | .rdn => neg && inexact
  | .rup => !neg && inexact

/-- m · 2^e rounded to a multiple of 2^q: the multiple, and whether that was inexact. -/
def roundTo (mode : RMode) (neg : Bool) (m : Nat) (e q : Int) (sticky : Bool) : Nat × Bool :=
  if q ≤ e then
    let n := m * 2 ^ (e - q).toNat
    (if roundsUp mode neg n 0 0 sticky then n + 1 else n, sticky)
  else
    let sh := (q - e).toNat
    let n := m / 2 ^ sh
    let r := m % 2 ^ sh
    (if roundsUp mode neg n r sh sticky then n + 1 else n, r != 0 || sticky)

/-- The number of bits of `m`. -/
def bitLen (m : Nat) : Nat := if m = 0 then 0 else Nat.log2 m + 1

/-- A rounded result: its bits and flags, or an overflow to infinity in the mode's overflow column (R98). -/
inductive Rounded where
  | bits (b : Nat) (flags : Nat)
  | infinite (neg : Bool)
  deriving DecidableEq, Repr

/-- The sign bit of a format. -/
def FFmt.sign (f : FFmt) (neg : Bool) : Nat := if neg then 2 ^ (f.ew + f.fw) else 0

/-- The largest finite value of a sign. -/
def FFmt.maxBits (f : FFmt) (neg : Bool) : Nat :=
  f.sign neg + ((f.maxQ + f.fw + f.bias).toNat <<< f.fw) + (f.maxM - 2 ^ f.fw)

/-- The overflow column of R98: whether the mode gives infinity. -/
def overflowsToInf (mode : RMode) (neg : Bool) : Bool :=
  match mode with
  | .rne => true
  | .rna => true
  | .rtz => false
  | .rdn => neg
  | .rup => !neg

/-- Round (−1)^neg · m · 2^e (with `sticky` below it) to the format (R97, R98): tininess after rounding, UF only when
inexact. -/
def FFmt.round (f : FFmt) (mode : RMode) (neg : Bool) (m : Nat) (e : Int) (sticky : Bool) : Rounded :=
  if m = 0 && !sticky then .bits (f.sign neg) 0
  else
    let p := f.fw + 1
    let qFree := e + (bitLen m : Int) - p
    let qMin : Int := 1 - (f.bias : Int) - f.fw
    let q := max qFree qMin
    let (n0, inexact) := roundTo mode neg m e q sticky
    let (n, q) := if n0 = 2 ^ p then (2 ^ f.fw, q + 1) else (n0, q)
    if q > f.maxQ || (q == f.maxQ && decide (f.maxM < n)) then
      if overflowsToInf mode neg then .infinite neg
      else .bits (f.maxBits neg) (flagOF + flagNX)
    else
      let (nf, _) := roundTo mode neg m e qFree sticky
      let tiny := decide ((nf : Int) * 2 ^ (qFree - (min qFree (1 - (f.bias : Int)))).toNat
        < 2 ^ ((1 - (f.bias : Int)) - (min qFree (1 - (f.bias : Int)))).toNat)
      let flags := (if inexact then flagNX else 0) + (if tiny && inexact then flagUF else 0)
      let bits := if n < 2 ^ f.fw then n else ((q + f.fw + f.bias).toNat <<< f.fw) + (n - 2 ^ f.fw)
      .bits (f.sign neg + bits) flags

/-- The bits and flags of a rounding to a format with infinities (R98, R108). -/
def FFmt.finish (f : FFmt) (r : Rounded) : Nat × Nat :=
  match r with
  | .bits b fl => (b, fl)
  | .infinite neg => (f.sign neg + ((2 ^ f.ew - 1) <<< f.fw), flagOF + flagNX)

/-- ±∞ of a format with infinities. -/
def FFmt.infBits (f : FFmt) (neg : Bool) : Nat := f.sign neg + ((2 ^ f.ew - 1) <<< f.fw)

/-- A signed dyadic number n · 2^e. -/
structure Dy where
  n : Int
  e : Int
  deriving DecidableEq, Repr

def Dy.zero : Dy := ⟨0, 0⟩
/-- The exact sum. -/
def Dy.add (a b : Dy) : Dy :=
  let e := min a.e b.e
  ⟨a.n * 2 ^ (a.e - e).toNat + b.n * 2 ^ (b.e - e).toNat, e⟩
/-- The exact product. -/
def Dy.mul (a b : Dy) : Dy := ⟨a.n * b.n, a.e + b.e⟩
/-- The dyadic of a finite value. -/
def dyOf (neg : Bool) (m : Nat) (e : Int) : Dy := ⟨if neg then -(m : Int) else m, e⟩

/-- Round a dyadic to a format; `zeroNeg` is the sign of an exact zero. -/
def FFmt.roundDy (f : FFmt) (mode : RMode) (d : Dy) (zeroNeg : Bool) : Nat × Nat :=
  f.finish (f.round mode (if d.n = 0 then zeroNeg else decide (d.n < 0)) d.n.natAbs d.e false)

/-- Signalling operands raise NV (R96). -/
def nvOf (vs : List FVal) : Nat := if vs.any (· == .nan true) then flagNV else 0

/-- x + y (R147): bits and flags. -/
def FFmt.add (f : FFmt) (mode : RMode) (x y : FVal) : Nat × Nat :=
  match x, y with
  | .nan _, _ => (f.nan, nvOf [x, y])
  | _, .nan _ => (f.nan, nvOf [x, y])
  | .inf a, .inf b => if a = b then (f.infBits a, 0) else (f.nan, flagNV)
  | .inf a, .fin _ _ _ => (f.infBits a, 0)
  | .fin _ _ _, .inf b => (f.infBits b, 0)
  | .fin a m e, .fin b n g =>
    let zs := if m = 0 && n = 0 && a == b then a else mode == .rdn
    f.roundDy mode ((dyOf a m e).add (dyOf b n g)) zs

/-- The negation of a value. -/
def FVal.neg : FVal → FVal
  | .nan s => .nan s
  | .inf a => .inf (!a)
  | .fin a m e => .fin (!a) m e

/-- x · y (R147). -/
def FFmt.mul (f : FFmt) (mode : RMode) (x y : FVal) : Nat × Nat :=
  match x, y with
  | .nan _, _ => (f.nan, nvOf [x, y])
  | _, .nan _ => (f.nan, nvOf [x, y])
  | .inf a, .inf b => (f.infBits (a != b), 0)
  | .inf a, .fin b m _ => if m = 0 then (f.nan, flagNV) else (f.infBits (a != b), 0)
  | .fin a m _, .inf b => if m = 0 then (f.nan, flagNV) else (f.infBits (a != b), 0)
  | .fin a m e, .fin b n g => f.roundDy mode ((dyOf a m e).mul (dyOf b n g)) (a != b)

/-- x · y + z with one rounding (R109, R147); ∞ · 0 raises NV even with a quiet NaN addend. -/
def FFmt.fma (f : FFmt) (mode : RMode) (x y z : FVal) : Nat × Nat :=
  let invalid := match x, y with
    | .inf _, .fin _ m _ => m == 0
    | .fin _ m _, .inf _ => m == 0
    | _, _ => false
  if invalid then (f.nan, flagNV)
  else match x, y, z with
  | .nan _, _, _ => (f.nan, nvOf [x, y, z])
  | _, .nan _, _ => (f.nan, nvOf [x, y, z])
  | _, _, .nan _ => (f.nan, nvOf [x, y, z])
  | .fin a m e, .fin b n g, .fin c k h =>
    let prod := (dyOf a m e).mul (dyOf b n g)
    let zs := if prod.n = 0 && k = 0 && (a != b) == c then c else mode == .rdn
    f.roundDy mode (prod.add (dyOf c k h)) zs
  | .fin _ _ _, .fin _ _ _, .inf c => (f.infBits c, 0)
  | .inf a, .inf b, z => infPlus (a != b) z
  | .inf a, .fin b _ _, z => infPlus (a != b) z
  | .fin a _ _, .inf b, z => infPlus (a != b) z
where
  infPlus (neg : Bool) (z : FVal) : Nat × Nat :=
    match z with
    | .inf c => if neg = c then (f.infBits c, 0) else (f.nan, flagNV)
    | _ => (f.infBits neg, 0)

/-- Compare two values that are no NaN: x < y, with −0 and +0 equal. -/
def fLess (x y : FVal) : Bool :=
  match x, y with
  | .inf a, .inf b => a && !b
  | .inf a, _ => a
  | _, .inf b => !b
  | .fin a m e, .fin b n g =>
    decide (((dyOf a m e).add ⟨-(dyOf b n g).n, g⟩).n < 0)
  | _, _ => false

/-- Whether two values that are no NaN are equal. -/
def fEq (x y : FVal) : Bool := !fLess x y && !fLess y x

def FVal.isNan : FVal → Bool
  | .nan _ => true
  | _ => false
def FVal.isNeg : FVal → Bool
  | .nan _ => false
  | .inf a => a
  | .fin a _ _ => a

/-- minimumNumber or maximumNumber (R148), on the bit patterns. -/
def FFmt.minmax (f : FFmt) (isMax : Bool) (a b : Nat) : Nat × Nat :=
  let x := f.decode a
  let y := f.decode b
  let fl := nvOf [x, y]
  if x.isNan && y.isNan then (f.nan, fl)
  else if x.isNan then (b, fl)
  else if y.isNan then (a, fl)
  else
    let less := fLess x y || (fEq x y && x.isNeg && !y.isNeg)
    (if less != isMax then a else b, fl)

/-- The integer square root, bit by bit from bit `k` down. -/
def isqrtFrom (x : Nat) : Nat → Nat → Nat
  | 0, r => if (r + 1) * (r + 1) ≤ x then r + 1 else r
  | k + 1, r =>
    let t := r + 2 ^ (k + 1)
    isqrtFrom x k (if t * t ≤ x then t else r)
def isqrt (x : Nat) : Nat := isqrtFrom x (bitLen x / 2 + 1) 0

/-- 1 / x correctly rounded (R149). -/
def FFmt.rcp (f : FFmt) (mode : RMode) (x : FVal) : Nat × Nat :=
  match x with
  | .nan _ => (f.nan, nvOf [x])
  | .inf a => (f.sign a, 0)
  | .fin a m e =>
    if m = 0 then (f.infBits a, flagDZ)
    else
      let k := bitLen m + f.fw + 4
      let q := 2 ^ k / m
      f.finish (f.round mode a q (-(k : Int) - e) (2 ^ k % m != 0))

/-- 1 / √x correctly rounded (R149). -/
def FFmt.rsq (f : FFmt) (mode : RMode) (x : FVal) : Nat × Nat :=
  match x with
  | .nan _ => (f.nan, nvOf [x])
  | .inf a => if a then (f.nan, flagNV) else (0, 0)
  | .fin a m e =>
    if m = 0 then (f.infBits a, flagDZ)
    else if a then (f.nan, flagNV)
    else
      let (m, e) := if e % 2 = 0 then (m, e) else (2 * m, e - 1)
      let k := bitLen m + f.fw + 4
      let r := isqrt (2 ^ (2 * k) / m)
      f.finish (f.round mode false r (-(k : Int) - e / 2) (r * r * m != 2 ^ (2 * k)))

/-- Guard precision of the exponential, in bits after the point. -/
def expBits : Nat := 320

/-- The product, at `expBits` bits, of the square roots 2^(2^−1), 2^(2^−2), … that the `n` fraction bits of `f` select,
the highest first; `root` is the last square root taken. -/
def expProduct (f : Nat) : Nat → Nat → Nat → Nat
  | 0, _, acc => acc
  | n + 1, root, acc =>
    let r := isqrt (root * 2 ^ expBits)
    expProduct f n r (if f.testBit n then acc * r / 2 ^ expBits else acc)

/-- 2^x rounded in the mode (R149). The fractional power is formed with 320 bits; for the formats of R135 no value
2^x with x not an integer lies so near a rounding boundary that more bits would change the result. Log entry 9. -/
def FFmt.exp2 (f : FFmt) (mode : RMode) (x : FVal) : Nat × Nat :=
  match x with
  | .nan _ => (f.nan, nvOf [x])
  | .inf a => if a then (0, 0) else (f.infBits false, 0)
  | .fin a m e =>
    if m = 0 then f.finish (f.round mode false 1 0 false)
    else if e + (bitLen m : Int) > 12 then
      -- |x| ≥ 2^12 lies outside every exponent range: overflow or tiny
      if a then f.finish (f.round mode false 1 (-4096) true) else f.finish (f.round mode false 1 4096 (decide (e < 0)))
    else
      let d := dyOf a m e
      let sh := (-e).toNat
      let whole : Int := if 0 ≤ e then d.n * 2 ^ e.toNat else d.n.fdiv (2 ^ sh)
      let frac : Nat := if 0 ≤ e then 0 else (d.n.fmod (2 ^ sh)).toNat
      if frac = 0 then f.finish (f.round mode false 1 whole false)
      else
        let p := expProduct frac sh (2 * 2 ^ expBits) (2 ^ expBits)
        f.finish (f.round mode false p (whole - expBits) true)

/-- Round a dyadic to an integer (R99). -/
def roundInteger (mode : RMode) (d : Dy) : Int :=
  let (n, _) := roundTo mode (decide (d.n < 0)) d.n.natAbs d.e 0 false
  if d.n < 0 then -(n : Int) else n

/-- round_to_grid of R99: the count and whether it overflowed. -/
def roundToGrid (d : Dy) (anchor : Int) (width : Nat) (mode : RMode) : Int × Bool :=
  let count := roundInteger mode ⟨d.n, d.e - anchor⟩
  let limit : Int := 2 ^ (width - 8)
  if limit ≤ count then (limit - 1, true)
  else if count < -limit then (-limit, true)
  else (count, false)

/-- An exact real, a NaN or an infinity: what a group sum and a decoded block element are (R103, R112). -/
inductive XVal where
  | nan
  | inf (neg : Bool)
  | num (d : Dy)
  deriving DecidableEq, Repr

/-- A decoded value as an extended real. -/
def FVal.ext : FVal → XVal
  | .nan _ => .nan
  | .inf a => .inf a
  | .fin a m e => .num (dyOf a m e)

/-- The sum with the special values of R112. -/
def XVal.add (x y : XVal) : XVal :=
  match x, y with
  | .nan, _ => .nan
  | _, .nan => .nan
  | .inf a, .inf b => if a = b then .inf a else .nan
  | .inf a, _ => .inf a
  | _, .inf b => .inf b
  | .num a, .num b => .num (a.add b)

/-- The product with the special values of R112. -/
def XVal.mul (x y : XVal) : XVal :=
  match x, y with
  | .nan, _ => .nan
  | _, .nan => .nan
  | .inf a, .inf b => .inf (a != b)
  | .inf a, .num d => if d.n = 0 then .nan else .inf (a != decide (d.n < 0))
  | .num d, .inf b => if d.n = 0 then .nan else .inf (b != decide (d.n < 0))
  | .num a, .num b => .num (a.mul b)

/-- A term of a DSH8 byte, from its nibble (R106). -/
def dsh8Term (n : Nat) : Dy := if n % 8 = 7 then Dy.zero else dyOf (n.testBit 3) 1 (-((n % 8 : Nat) : Int))

/-- A DSH8 byte: the exact sum of its two terms (R106). -/
def dsh8 (b : Nat) : Dy := (dsh8Term (b / 16 % 16)).add (dsh8Term (b % 16))

/-- An E8M0 scale (R101): none is the NaN scale. -/
def e8m0 (b : Nat) : Option Int := if b = 0xff then none else some ((b : Int) - 127)

/-- An element under its scale (R102, R103). -/
def scaled (scale : Option Int) (x : XVal) : XVal :=
  match scale, x with
  | none, _ => .nan
  | some k, .num d => .num ⟨d.n, d.e + k⟩
  | some _, y => y

/-- A group sum of BF16 or FP16 products rounded once to the 40-bit group format in RNE (R110, R111). -/
def groupRound (x : XVal) : XVal :=
  match x with
  | .num d =>
    let q := d.e + (bitLen d.n.natAbs : Int) - 40
    if q ≤ d.e then .num d
    else
      let (n, _) := roundTo .rne (decide (d.n < 0)) d.n.natAbs d.e q false
      .num ⟨if d.n < 0 then -(n : Int) else n, q⟩
  | y => y

/-- An extended real rounded to FP32 in RNE (R119, R169); an exact zero takes the sign given. -/
def rne32 (x : XVal) (zeroNeg : Bool) : Nat :=
  match x with
  | .nan => fp32.nan
  | .inf a => fp32.infBits a
  | .num d => (fp32.roundDy .rne d zeroNeg).1

/-- FP32 addition in RNE on bit patterns (R119). -/
def add32 (a b : Nat) : Nat := (fp32.add .rne (fp32.decode a) (fp32.decode b)).1

/-- The format codes of VCVT (R150). -/
inductive CvFmt where
  | int (w : Nat) (signed : Bool)
  | float (f : FFmt)
  deriving DecidableEq, Repr

def cvFmt (code : Nat) : Option CvFmt :=
  match code with
  | 0 => some (.int 8 true) | 1 => some (.int 8 false) | 2 => some (.int 16 true) | 3 => some (.int 16 false)
  | 4 => some (.int 32 true) | 5 => some (.int 32 false) | 6 => some (.float fp32) | 7 => some (.float bf16)
  | 8 => some (.float fp16) | 9 => some (.float e4m3) | 10 => some (.float e5m2) | 11 => some (.float e2m1)
  | _ => none

/-- The width of a format of VCVT. -/
def CvFmt.width : CvFmt → Nat
  | .int w _ => w
  | .float f => f.width

/-- A conversion of one element (R108): its bits and flags; none where the conversion to E2M1 is ILLEGAL. -/
def convert (src dst : CvFmt) (sat : Bool) (mode : RMode) (b : Nat) : Option (Nat × Nat) :=
  match src, dst with
  | .int w sg, .int w' sg' =>
    let z : Int := if sg then (BitVec.ofNat w b).toInt else (b : Int)
    if sat then
      let (c, ch) := if sg' then clampS z w' else clampU z w'
      some (pat c w', if ch then flagSAT else 0)
    else some (pat z w', 0)
  | .int w sg, .float f =>
    let z : Int := if sg then (BitVec.ofNat w b).toInt else (b : Int)
    toFloat f (.fin (decide (z < 0)) z.natAbs 0)
  | .float f, .int w sg =>
    let hi : Int := if sg then 2 ^ (w - 1) - 1 else 2 ^ w - 1
    let lo : Int := if sg then -(2 ^ (w - 1)) else 0
    match f.decode b with
    | .nan _ => some (0, flagNV)
    | .inf neg => some (pat (if neg then lo else hi) w, flagNV)
    | .fin neg m e =>
      let z := roundInteger mode (dyOf neg m e)
      if z > hi then some (pat hi w, flagNV)
      else if z < lo then some (pat lo w, flagNV)
      else some (pat z w, if (Dy.add ⟨z, 0⟩ (dyOf (!neg) m e)).n = 0 then 0 else flagNX)
  | .float f, .float g => toFloat g (f.decode b)
where
  toFloat (g : FFmt) (x : FVal) : Option (Nat × Nat) :=
    match x with
    | .nan s => if g.hasNan then some (g.nan, if s then flagNV else 0) else none
    | .inf neg =>
      if g.hasInf then some (g.infBits neg, 0)
      else if sat then some (g.maxBits neg, 0)
      else if g.hasNan then some (g.nan, 0) else none
    | .fin neg m e =>
      match g.round mode neg m e false with
      | .bits r fl => some (r, fl)
      | .infinite neg =>
        if g.hasInf then some (g.infBits neg, flagOF + flagNX)
        else if sat then some (g.maxBits neg, flagOF + flagNX)
        else if g.hasNan then some (g.nan, flagOF + flagNX) else none

/-- The value read from a CRX count (R115, R117): the nearer bound where it is out of range, with that said. -/
def crClamp (count : Nat) (width : Nat) : Int × Bool :=
  let c := (BitVec.ofNat width count).toInt
  let limit : Int := 2 ^ (width - 8)
  if limit ≤ c then (limit - 1, true) else if c < -limit then (-limit, true) else (c, false)

end Sys2Proof.Machine
end

