-- ==== Sys2Proof/Machine/Access.lean ====
section
/-! DEFINITION. Reading and writing the parts of the state: contexts, cores, clusters, dies, owners, and the register
files with their fixed behaviour (spec/01_machine.md R16; spec/03_opcode_map.md R72, R88). -/

namespace Sys2Proof.Machine

/-! ### Registers of a context -/

/-- A scalar register; x0 reads as zero (R16). -/
def Ctx.getX (c : Ctx) (r : XReg) : Word := if r = 0 then 0 else c.x.get r.toFin
/-- What a load has still to write into. -/
def Dest.isX (d : Dest) (r : XReg) : Bool :=
  match d with
  | .x q _ _ => q == r
  | _ => false
def Dest.isV (d : Dest) (r : VReg) : Bool :=
  match d with
  | .v q _ _ => q == r
  | _ => false
def Dest.isT (d : Dest) (r : TReg) : Bool :=
  match d with
  | .t q _ _ => q == r
  | _ => false
/-- A register is written, and its value stands from the tick that `wrote` holds: numbers 0 to 31 are x, 32 to 95 v, 96 to 103
m, 104 to 111 t. A load that had still to write it is of no use (R203). -/
def Ctx.stands (c : Ctx) (n : Nat) (mine : Dest → Bool) : Ctx :=
  { c with known := tset c.known n c.wrote, late := c.late.filter fun l => !mine l.dest }
/-- Write a scalar register; x0 ignores writes (R16), and a write ends the register's pending state (R196). -/
def Ctx.setX (c : Ctx) (r : XReg) (w : Word) : Ctx :=
  if r = 0 then c
  else { c with x := c.x.set r.toNat w r.isLt, pend := c.pend.filter (·.reg != r) }.stands r.toNat (·.isX r)
/-- A vector register. -/
def Ctx.getV (c : Ctx) (r : VReg) : Vec := c.v.get r.toFin
/-- Write a vector register. -/
def Ctx.setV (c : Ctx) (r : VReg) (w : Vec) : Ctx :=
  { c with v := c.v.set r.toNat w r.isLt }.stands (32 + r.toNat) (·.isV r)
/-- A mask register; m0 reads as all ones (R16). -/
def Ctx.getM (c : Ctx) (r : MReg) : Word := if r = 0 then BitVec.allOnes 64 else c.m.get r.toFin
/-- Write a mask register; m0 ignores writes (R16). -/
def Ctx.setM (c : Ctx) (r : MReg) (w : Word) : Ctx :=
  if r = 0 then c else { c with m := c.m.set r.toNat w r.isLt, known := tset c.known (96 + r.toNat) c.wrote }
/-- A tile register. -/
def Ctx.getT (c : Ctx) (r : TReg) : Tile := c.t.get r.toFin
/-- Write a tile register. -/
def Ctx.setT (c : Ctx) (r : TReg) (w : Tile) : Ctx :=
  { c with t := c.t.set r.toNat w r.isLt }.stands (104 + r.toNat) (·.isT r)

/-! ### The running context -/

/-- Read a scalar register of the running context. -/
def State.getX (s : State) (r : XReg) : Word := s.cx.getX r
/-- Write a scalar register of the running context. -/
def State.setX (s : State) (r : XReg) (w : Word) : State := { s with cx := s.cx.setX r w }
/-- Read a vector register of the running context. -/
def State.getV (s : State) (r : VReg) : Vec := s.cx.getV r
/-- Write a vector register of the running context. -/
def State.setV (s : State) (r : VReg) (w : Vec) : State := { s with cx := s.cx.setV r w }
/-- Read a mask register of the running context. -/
def State.getM (s : State) (r : MReg) : Word := s.cx.getM r
/-- Write a mask register of the running context. -/
def State.setM (s : State) (r : MReg) (w : Word) : State := { s with cx := s.cx.setM r w }
/-- Read a tile register of the running context. -/
def State.getT (s : State) (r : TReg) : Tile := s.cx.getT r
/-- Write a tile register of the running context. -/
def State.setT (s : State) (r : TReg) (w : Tile) : State := { s with cx := s.cx.setT r w }
/-- Continue at an address. -/
def State.setPc (s : State) (pc : Word) : State := { s with cx := { s.cx with pc := pc } }
/-- Continue at the instruction after this one (R41). -/
def State.advance (s : State) : State := s.setPc s.cx.npc
/-- The register after `r` of a pair (R159). -/
def nextReg (r : XReg) : XReg := r + 1

/-- Change the running context. -/
def State.onCx (s : State) (f : Ctx → Ctx) : State := { s with cx := f s.cx }
/-- The owner id of the running firing. -/
def State.oid (s : State) : Nat := s.cx.fir.oid.toNat
/-- The core of the running context. -/
def State.coreNo (s : State) : Nat := s.cur.core
/-- The die of the running context. -/
def State.dieNo (s : State) : Nat := dieOf s.cur.core
/-- The cluster of the running context. -/
def State.clusterNo (s : State) : Nat := clusterOf s.cur.core
/-- A firing that runs unexposed: recoverable and not yet exposed (R290). -/
def Ctx.staged (c : Ctx) : Bool := c.fir.recov && !c.fir.exposed

/-! ### The other contexts -/

/-- The context `c` among the parked ones, or a free one. -/
def parkedGet : List (CtxId × Ctx) → CtxId → Ctx
  | [], _ => {}
  | (d, k) :: l, c => if d = c then k else parkedGet l c
/-- The parked contexts with `c` replaced or added. -/
def parkedSet : List (CtxId × Ctx) → CtxId → Ctx → List (CtxId × Ctx)
  | [], c, k => [(c, k)]
  | (d, j) :: l, c, k => if d = c then (c, k) :: l else (d, j) :: parkedSet l c k
/-- Any context. -/
def State.ctxOf (s : State) (c : CtxId) : Ctx := if c = s.cur then s.cx else parkedGet s.parked c
/-- Replace any context. -/
def State.setCtx (s : State) (c : CtxId) (k : Ctx) : State :=
  if c = s.cur then { s with cx := k } else { s with parked := parkedSet s.parked c k }
/-- Change any context. The number 3 of a core names no context: what a firing that is gone still has on its way bears
it. -/
def State.updCtx (s : State) (c : CtxId) (f : Ctx → Ctx) : State :=
  if c = s.cur then s.onCx f else if c.which = 3 then s else { s with parked := parkedSet s.parked c (f (parkedGet s.parked c)) }
/-- Make another context the one that moves. -/
def State.switchTo (s : State) (c : CtxId) : State :=
  if c = s.cur then s
  else { s with cur := c, cx := parkedGet s.parked c, parked := parkedSet s.parked s.cur s.cx }
/-- Every context that the state lists. -/
def State.contexts (s : State) : List (CtxId × Ctx) := (s.cur, s.cx) :: s.parked.filter (·.1 != s.cur)
/-- Do something as context `c` and come back. -/
def State.asCtx (s : State) (c : CtxId) (f : State → State) : State :=
  let here := s.cur
  (f (s.switchTo c)).switchTo here

/-! ### Cores, clusters, dies, owners -/

def State.coreSt (s : State) (n : Nat) : CoreSt := tget {} s.cores n
def State.updCore (s : State) (n : Nat) (f : CoreSt → CoreSt) : State :=
  { s with cores := tset s.cores n (f (s.coreSt n)) }
def State.clusterSt (s : State) (n : Nat) : ClusterSt := tget {} s.clusters n
def State.updCluster (s : State) (n : Nat) (f : ClusterSt → ClusterSt) : State :=
  { s with clusters := tset s.clusters n (f (s.clusterSt n)) }
def State.dieSt (s : State) (n : Nat) : DieSt := tget {} s.dies n
def State.updDie (s : State) (n : Nat) (f : DieSt → DieSt) : State :=
  { s with dies := tset s.dies n (f (s.dieSt n)) }
def State.ownerSt (s : State) (n : Nat) : OwnerSt := tget {} s.owners n
def State.updOwner (s : State) (n : Nat) (f : OwnerSt → OwnerSt) : State :=
  { s with owners := tset s.owners n (f (s.ownerSt n)) }
def State.onHome (s : State) (f : HomeSt → HomeSt) : State := { s with home := f s.home }
def State.onNet (s : State) (f : NetSt → NetSt) : State := { s with net := f s.net }
def State.onDev (s : State) (f : DevSt → DevSt) : State := { s with dev := f s.dev }

/-- The place map's entry for a core: a place not listed is present, maps to itself and is assigned to owner 0. -/
def State.place (s : State) (core : Nat) : Place :=
  tget ⟨true, 0, placeOf core / 16 * 17 + placeOf core % 16⟩ (s.dieSt (dieOf core)).places (placeOf core)
/-- The owner to which a core is assigned (R278, R344). -/
def State.coreOwner (s : State) (core : Nat) : Nat := (s.place core).owner
/-- The cores assigned to an owner, in ascending number. -/
def State.coresOf (s : State) (oid : Nat) : List Nat :=
  (List.range 2304).filter fun c => (s.place c).present && s.coreOwner c == oid

/-- The 32-byte record of an event (R415). -/
def SysEvent.bytes (e : SysEvent) : List Byte :=
  leBytes 2 e.kind ++ leBytes 1 e.oid ++ leBytes 1 e.cause ++ leBytes 4 e.fid.toNat ++
    leBytes 2 (e.core % 4096 + e.ctx % 2 * 4096) ++ leBytes 2 e.index ++ [0, 0, 0, 0] ++ leBytes 8 e.addr.toNat ++
    leBytes 8 e.time.toNat
/-- Where the queue of 4,096 records holds its n-th record, in turn (R415; log entry 13). -/
def eventPlace (n : Nat) : Nat := Config.eventQueueAt % (2 ^ 25 - 2 ^ 17) + 32 * (n % 4096)

/-- Record a system event (R415): the queue holds 4,096, and what finds it full is counted. -/
def State.sysEvent (s : State) (e : SysEvent) : State :=
  if s.dev.sysEvents.length < 4096 then
    { s with
      dev := { s.dev with sysEvents := s.dev.sysEvents ++ [e], sysCount := s.dev.sysCount + 1 }
      sysSram := memWrite s.sysSram (eventPlace s.dev.sysCount) e.bytes }
  else { s with dev := { s.dev with sysDropped := s.dev.sysDropped + 1 } }

/-- Whether the events of an owner's work for context `c` count: those of the core's assigned owner (R366), and in a measurement
run only those of the firings of its launch (R367). -/
def State.counts (s : State) (c : CtxId) (oid launch : Nat) : Bool :=
  s.coreOwner c.core == oid &&
    match (s.ownerSt oid).mpass with
    | none => true
    | some m => !m.cores.contains c.core || launch == m.launch

/-- Count `n` of a performance event on the core of context `c` (R366), for the owner and the launch of its firing or others. -/
def State.countEv (s : State) (c : CtxId) (code n : Nat) (oid : Nat := (s.ctxOf c).fir.oid.toNat)
    (launch : Nat := (s.ctxOf c).fir.launch.toNat) : State :=
  if !s.counts c oid launch then s else s.updCore c.core fun k =>
    { k with perf := k.perf.map fun p =>
        if p.event.toNat = code && code != 0 && (!p.cf || p.ctx == decide (c.which = 1))
        then { p with count := p.count + BitVec.ofNat 64 n } else p }

/-- A response reached the running context from serving place `idx` (R343): COUNT and SUM saturate. The delay field is a
free value (log entry 8). -/
def State.response (s : State) (idx : Nat) : State :=
  let p := tget (0, 0) s.cx.dacc idx
  let sum := p.1 + (Config.delay s.tick).toNat
  s.onCx fun c => { c with dacc := tset c.dacc idx (min sum (2 ^ 48 - 1), min (p.2 + 1) (2 ^ 32 - 1)) }

/-- A response reached any context from a serving place (R343). -/
def State.responseTo (s : State) (c : CtxId) (idx : Nat) : State :=
  if c.which = 3 then s
  else s.updCtx c fun k =>
    let p := tget (0, 0) k.dacc idx
    { k with dacc := tset k.dacc idx (min (p.1 + (Config.delay s.tick).toNat) (2 ^ 48 - 1), min (p.2 + 1) (2 ^ 32 - 1)) }

/-! ### What stops an instruction -/

/-- An instruction traps at the instruction, with the values that the rule names for TADDR and TVAL (R382), or it waits
with its address unchanged, in the state it has reached where that is not the state it began in. -/
inductive Stop where
  | trap (c : Cause) (addr val : Option Word)
  | wait (w : Wait) (s : Option State)
  deriving DecidableEq, Repr

/-- What an instruction's steps give: a result or a stop. -/
abbrev Act (α : Type) := Except Stop α

/-- ILLEGAL after decoding: TVAL holds the first four words of the chain (R456). -/
def illegal {α : Type} (s : State) : Act α := .error (.trap .illegal none (some s.cx.chain))
/-- A trap that names nothing for TADDR or TVAL. -/
def trapNow {α : Type} (c : Cause) : Act α := .error (.trap c none none)
/-- A trap with an address in TADDR. -/
def trapAt {α : Type} (c : Cause) (addr : Word) : Act α := .error (.trap c (some addr) none)
/-- Go on only if the operand is legal. -/
def require (s : State) (ok : Bool) : Act Unit := if ok then .ok () else illegal s
/-- Go on only in S mode (R59). -/
def needS (s : State) : Act Unit := if s.cx.crs.cmode then .ok () else trapNow .priv
/-- Go on only in S mode of owner 0 (R59). -/
def needS0 (s : State) : Act Unit := if s.cx.crs.cmode && s.cx.fir.oid == 0 then .ok () else trapNow .priv
/-- A pair's first register lies from 1 to 30 (R159, R247, R356). -/
def pairOk (r : XReg) : Bool := decide (1 ≤ r.toNat) && decide (r.toNat ≤ 30)

end Sys2Proof.Machine
end

