-- ==== Sys2Proof/Machine/Damask.lean ====
section
/-! DEFINITION. The Damask draw function, its streams, placement, and the choices made from draws
(spec/12_isolation.md R328 to R335, R337). -/

namespace Sys2Proof.Machine

/-- A 32-bit rotation to the left. -/
def rotl32 (v : BitVec 32) (k : Nat) : BitVec 32 := (v <<< k) ||| (v >>> (32 - k))
/-- Word j of a block (R328). -/
def blockWord (b : BitVec 128) (j : Nat) : BitVec 32 := b.extractLsb' (32 * j) 32
/-- The round constants (R328). -/
def damaskRc (i : Nat) : BitVec 32 := BitVec.ofNat 32 ((i + 1) * 0x9E3779B9)
def damaskA (i : Nat) : Nat := lget 0 [16, 12, 8, 7] (i % 4)
def damaskB (i : Nat) : Nat := lget 0 [11, 5, 13, 9] (i % 4)

/-- The four words of a block between rounds. -/
structure Quad where
  a : BitVec 32
  b : BitVec 32
  c : BitVec 32
  d : BitVec 32
  deriving DecidableEq, Repr

/-- Round `i` of Damask (R328). -/
def damaskRound (key : BitVec 128) (w : Quad) (i : Nat) : Quad :=
  let lo := blockWord key (i % 4) ^^^ damaskRc i
  let hi := rotl32 (blockWord key ((i + 1) % 4)) (i + 1)
  let a := w.a + w.b + lo
  let d := rotl32 (w.d ^^^ a) (damaskA i)
  let c := w.c + d + hi
  let b := rotl32 (w.b ^^^ c) (damaskB i)
  ⟨b, c, d, a⟩

/-- The Damask permutation (R328). -/
def damask (key block : BitVec 128) : BitVec 128 :=
  let w0 : Quad := ⟨blockWord block 0 ^^^ blockWord key 0, blockWord block 1 ^^^ blockWord key 1,
    blockWord block 2 ^^^ blockWord key 2, blockWord block 3 ^^^ blockWord key 3⟩
  let w := (List.range 8).foldl (damaskRound key) w0
  (w.d ^^^ blockWord key 0) ++ (w.c ^^^ blockWord key 1) ++ (w.b ^^^ blockWord key 2) ++ (w.a ^^^ blockWord key 3)

/-- The key of a stream (R329). -/
def streamKey (seed : BitVec 128) (cls idx : Nat) : BitVec 128 :=
  damask seed (BitVec.ofNat 128 (cls % 256 * 65536 + idx % 65536))

/-- The draw of a counter stream at a counter value (R330). -/
def drawAt (seed : BitVec 128) (cls idx : Nat) (counter : Word) : BitVec 128 :=
  damask (streamKey seed cls idx) (counter.setWidth 128)

/-- Where an owner's counter of a stream is kept. -/
def ctrKey (cls idx : Nat) : Nat := cls * 65536 + idx

/-- draw of R89: the next draw of the owner's stream, whose counter advances. -/
def State.draw (s : State) (oid cls idx : Nat) : BitVec 128 × State :=
  let o := s.ownerSt oid
  let n := tget 0 o.ctr (ctrKey cls idx)
  (drawAt o.seed cls idx n, s.updOwner oid fun o => { o with ctr := tset o.ctr (ctrKey cls idx) (n + 1) })

/-- pick_index (R330). -/
def pickIndex (val : BitVec 128) (n : Nat) : Nat := (val.setWidth 64).toNat * n / 2 ^ 64

/-- The first entry whose running sum exceeds `pos`. -/
def pickFrom : List Nat → Nat → Nat → Option Nat
  | [], _, _ => none
  | w :: ws, pos, i => if pos < w then some i else pickFrom ws (pos - w) (i + 1)

/-- pick_weight (R330): an index into the weights, or none when their sum is 0. -/
def pickWeight (val : BitVec 128) (weights : List Nat) : Option Nat :=
  let total := weights.sum
  if total = 0 then none else pickFrom weights ((val.setWidth 32).toNat * total / 2 ^ 32) 0

/-- The home die of a line of HBM (R11). -/
def homeDie (line : Nat) : Nat := line / 2 ^ 31 % 16

/-- The home slice of a line within its die (R332). -/
def homeSlice (s : State) (owner line : Nat) : Nat :=
  let pa := line * 128
  let key := streamKey (s.ownerSt owner).seed 6 (homeDie line)
  let place := damask key (BitVec.ofNat 128 (pa / 2 ^ 14))
  let i := line % 128
  (((place.extractLsb' 7 7).toNat ||| 1) * i + (place.setWidth 7).toNat) % 128

/-- The set of a line within its home slice (R332). -/
def homeSet (s : State) (owner line : Nat) : Nat :=
  let pa := line * 128
  let key := streamKey (s.ownerSt owner).seed 6 (homeDie line)
  let place := damask key (BitVec.ofNat 128 (pa / 2 ^ 14))
  (pa / 2 ^ 14 % 512) ^^^ (place.extractLsb' 14 9).toNat

/-- The near-tier draw of a line (R332). -/
def nearDraw (s : State) (owner line : Nat) : BitVec 128 :=
  damask (streamKey (s.ownerSt owner).seed 5 0) (BitVec.ofNat 128 line)
/-- The set of a line in a near-tier slice (R332). -/
def nearSet (s : State) (owner line : Nat) : Nat := ((nearDraw s owner line).setWidth 10).toNat
/-- The cluster whose slice holds a CR die partial (R332). -/
def partialCluster (s : State) (owner line die : Nat) : Nat :=
  die * 32 + ((nearDraw s owner line).extractLsb' 10 5).toNat

/-! ### Shares and the arbiter -/

/-- The share-table entry of an owner, the overflow being 16 (R333). -/
def shareEntry (tab : List Share) (oid : Nat) : Nat :=
  ((List.range 16).find? fun i => (lget ⟨none, 0⟩ tab i).owner == some oid).getD 16
/-- The weights of a table in table order. -/
def shareWeights (tab : List Share) : List Nat := (List.range 17).map fun i => (lget ⟨none, 0⟩ tab i).weight

/-- How many of the 2^32 values of val[31:0] make pick_weight return entry `i` (R333). -/
def shareCount (tab : List Share) (i : Nat) : Nat :=
  let ws := shareWeights tab
  let total := ws.sum
  if total = 0 then 0
  else
    let lo := (ws.take i).sum
    let hi := lo + lget 0 ws i
    let up := fun x => (x * 2 ^ 32 + total - 1) / total
    up hi - up lo

/-- The valid owners that a table leaves to its overflow entry (R333). -/
def overflowOwners (s : State) (tab : List Share) : Nat :=
  ((List.range 256).filter fun o => (s.ownerSt o).valid && shareEntry tab o == 16).length

/-- XQ's value (R337): ⌈(1 − s)^d · 2^32⌉ with the share as the fraction count / (2^32 · m). -/
def exceedance (s : State) (tab : List Share) (oid d : Nat) : Nat :=
  let i := shareEntry tab oid
  let m := if i = 16 then max 1 (overflowOwners s tab) else 1
  let den := 2 ^ 32 * m
  let num := den - shareCount tab i
  if 256 ≤ d then 0
  else min ((num ^ d * 2 ^ 32 + den ^ d - 1) / den ^ d) (2 ^ 32 - 1)

/-- A request waiting at an arbiter: its owner, its age in draws and its name. The list is in order of arrival. -/
structure Request where
  oid : Nat
  age : Nat
  id : Nat
  deriving DecidableEq, Repr

/-- The oldest request of each owner waiting, in order of arrival. -/
def oldestEach : List Request → List Nat → List Request
  | [], _ => []
  | r :: rs, seen => if seen.contains r.oid then oldestEach rs seen else r :: oldestEach rs (r.oid :: seen)

/-- Insert a request by ascending owner. -/
def insertByOid (r : Request) : List Request → List Request
  | [] => [r]
  | q :: qs => if r.oid ≤ q.oid then r :: q :: qs else q :: insertByOid r qs

/-- One grant opportunity (R334): the request granted, and those whose age rises. -/
def arbitrate (s : State) (tab : List Share) (cls idx : Nat) (waiting : List Request) :
    Option (Nat × List Nat) × State :=
  let olds : List Request := oldestEach waiting []
  match olds with
  | [] => (none, s)
  | first :: _ =>
    match olds.find? (fun (r : Request) => decide (256 ≤ r.age)) with
    | some r => (some (r.id, []), s)
    | none =>
      let (val, s) := s.draw first.oid cls idx
      let cand : List Request := match pickWeight val (shareWeights tab) with
        | none => []
        | some i => olds.filter fun (r : Request) => shareEntry tab r.oid == i
      match cand with
      | [r] => (some (r.id, (olds.filter fun (q : Request) => q.id != r.id).map Request.id), s)
      | _ =>
        let pool : List Request :=
          (if cand.isEmpty then olds else cand).foldr insertByOid []
        let (val, s) := s.draw first.oid (cls + 16) idx
        let ws := pool.map fun (r : Request) => (lget ⟨none, 0⟩ tab (shareEntry tab r.oid)).weight
        let i := (pickWeight val ws).getD (pickIndex val pool.length)
        match pool[i]? with
        | some r => (some (r.id, (olds.filter fun (q : Request) => q.id != r.id).map Request.id), s)
        | none => (none, s)

end Sys2Proof.Machine
end

