-- ==== Sys2Proof/Machine/Queue.lean ====
section
/-! DEFINITION. The physical map, routes and queues: what waits at a queue, who is granted there, and when a write counts as
delivered (spec/15_edges.md R417; spec/07_memory_model.md R189, R197, R203; spec/09_ordering_goals.md R269; spec/12_isolation.md
R329, R333 to R335, R345; spec/14_recovery.md R385, R397). -/

namespace Sys2Proof.Machine

/-! ### The physical map (R417) -/

/-- The end of HBM (R11). -/
def hbmEnd : Nat := 0x24000000000
/-- A physical address in HBM. -/
def inHbm (pa : Nat) : Bool := decide (pa < hbmEnd)
/-- A physical address in the host window. -/
def inHost (pa : Nat) : Bool := decide (2 ^ 51 ≤ pa) && decide (pa < 2 ^ 51 + 2 ^ 50)
/-- A physical address in a link window. -/
def inLink (pa : Nat) : Bool := decide (2 ^ 51 + 2 ^ 50 ≤ pa) && decide (pa < 2 ^ 52)
/-- A physical address in some region. -/
def inRegion (pa : Nat) : Bool := inHbm pa || inHost pa || inLink pa
/-- A physical address in a window. -/
def inWindow (pa : Nat) : Bool := inHost pa || inLink pa

/-- The home slice of a line as die·128 + slice. -/
def sliceKey (s : State) (owner line : Nat) : Nat := homeDie line * 128 + homeSlice s owner line

/-- A class of a page as R27 numbers them. -/
def clsPriv : BitVec 3 := 0
def clsRo : BitVec 3 := 1
def clsSm : BitVec 3 := 2
def clsCr : BitVec 3 := 3
def clsRepl : BitVec 3 := 4

/-- The home slices of a die that lie on the physical slice of one, itself among them: they share its capacity and its
queue (R345). -/
def slicesWith (s : State) (key : Nat) : List Nat :=
  let map := (s.dieSt (key / 128)).slices
  let phys := fun h => (tget (true, h) map h).2
  if map.isEmpty then [key]
  else ((List.range 128).filter fun h => phys h == phys (key % 128)).map fun h => key / 128 * 128 + h

/-! ### Routes (R9, R329) -/

/-- The die beside a die at a port: 0 to 3 north, east, south, west (R9, R329). -/
def beside (die port : Nat) : Option Nat :=
  match port with
  | 0 => if 3 ≤ die then some (die - 3) else none
  | 1 => if die % 3 < 2 then some (die + 1) else none
  | 2 => if die < 6 then some (die + 3) else none
  | _ => if 0 < die % 3 then some (die - 1) else none

/-- The number of the edge between two dies that share a side, 0 to 11: first the six within rows, then the six within
columns (R9). The model's numbering, log entry 13. -/
def edgeNo (a b : Nat) : Nat :=
  let d := min a b
  if max a b = d + 1 then d / 3 * 2 + d % 3 else 6 + d

/-- The port by which an access goes on from a die to another: of the edges that have not failed one that leads nearer, or
else any (R394). The order in which a route turns is open (log entry 38). -/
def portTo (s : State) (a b : Nat) : Option Nat :=
  let up := (if Config.rowFirst then [1, 3, 0, 2] else [0, 2, 1, 3]).filter fun p =>
    match beside a p with
    | some d => !s.dev.linksDown.contains (16 + edgeNo a d)
    | none => false
  (up.find? fun p => (beside a p).any fun d => decide (hops d b < hops a b)).or up.head?

/-- The edge ports, as indexes of class 0, that an access passes from a die to another, of at most `fuel` dies. -/
def portsOn (s : State) (b : Nat) : (fuel : Nat) → (a : Nat) → List Nat
  | 0, _ => []
  | n + 1, a =>
    if a = b then []
    else match portTo s a b with
      | none => []
      | some p => (a * 64 + p) :: portsOn s b n ((beside a p).getD a)
/-- The same from end to end. -/
def portsTo (s : State) (a b : Nat) : List Nat := portsOn s b 9 a

/-- The die at which a context's accesses begin; those from outside the cores begin at die 4 (R26). -/
def startDie (c : CtxId) : Nat := if 2304 ≤ c.core then 4 else dieOf c.core

/-- The queues on the way of an access to the home slice `key`, each as a class and an index (R329). -/
def homePath (s : State) (c : CtxId) (key : Nat) : List (Nat × Nat) :=
  ((portsTo s (startDie c) (key / 128)).map fun p => (0, p)) ++ [(2, key)]

/-- The die of a Langor link (log entry 38). -/
def linkDie (link : Nat) : Nat := Config.linkDie link % 9

/-- The die whose share table governs a queue (R333). -/
def queueDie (q : Nat × Nat) : Nat :=
  match q.1 with
  | 0 => if 0x400 ≤ q.2 then linkDie (q.2 - 0x400) else q.2 / 64
  | 1 => q.2 / 32
  | 4 => q.2 / 32
  | _ => q.2 / 128

/-! ### Accesses on their way (R189, R203) -/

/-- Whether two ranges of bytes share one. -/
def overlaps (a n b m : Nat) : Bool := decide (a < b + m) && decide (b < a + n)

/-- The frame bytes of a CR line, by the format in its page's entry (R113). -/
def crFrame (e : Word) : Nat :=
  match (e.extractLsb' 58 2).toNat with
  | 0 => 256 | 1 => 512 | _ => 128
/-- The bytes that an access of a kind touches, those of a CR load's line. -/
def FlightKind.len (k : FlightKind) : Nat :=
  match k with
  | .store d => d.length
  | .priv d _ => d.length
  | .repl d => d.length
  | .atomic _ sz _ _ => Size.bits sz / 8
  | .mxacc _ _ => 64
  | .count _ _ => 8
  | .pclr _ _ => 128
  | .load e _ n _ _ => if e.extractLsb' 60 3 == clsCr then crFrame e else n
  | .commit _ _ _ => 128
  | .requests _ => 0
/-- The bytes that a flight touches. -/
def Flight.len (f : Flight) : Nat := f.kind.len

/-- Whether a flight is a load (R203). -/
def Flight.isLoad (f : Flight) : Bool :=
  match f.kind with
  | .load _ _ _ _ _ => true
  | _ => false
/-- Whether a flight is a store to a PRIV page, which its caches take (R203). -/
def Flight.isPriv (f : Flight) : Bool :=
  match f.kind with
  | .priv _ _ => true
  | _ => false
/-- What an access on its way goes home for: whether its effect is the sequencer die's (R210, R239). -/
def Flight.sequenced (f : Flight) : Bool :=
  match f.kind with
  | .repl _ => true
  | .pclr cls none => cls == clsRepl
  | _ => false
/-- The REPL bytes that a staged entry writes: its address, and the bytes (R210, R239). -/
def Staged.replWrite : Staged → Option (Nat × List Byte)
  | .store _ pa cls _ bs => if cls == clsRepl then some (pa, bs) else none
  | .pclr _ pa cls _ none => if cls == clsRepl then some (pa, List.replicate 128 0) else none
  | _ => none

/-- Whether the sequencer die, and no home slice, gives a flight its effect (R210, R215, R239). -/
def forSequencer (f : Flight) : Bool :=
  f.sequenced || (match f.kind with
    | .commit es _ _ => es.any fun e => e.replWrite.isSome
    | _ => false)

/-- The link of a link window's address (R417). -/
def linkOf (pa : Nat) : Nat := (pa - (2 ^ 51 + 2 ^ 50)) / 2 ^ 46

/-- An access on its way to a home that can no longer answer: it was lost with its die or link, its slice has failed, or its
link is down (R385, R394); a REPL store also where the sequencer die is gone (R10). A die that has failed refuses what comes
later (R397). -/
def homeGone (s : State) (f : Flight) : Bool :=
  let line := f.pa / 128
  f.state == .lost || !f.isPriv &&
  (if forSequencer f then s.home.dieLost.contains s.dev.seqDie
  else if inHbm f.pa then
    !s.home.dieLost.contains (homeDie line) && (s.dieSt (homeDie line)).failedSlices.contains (homeSlice s f.owner line)
  else inLink f.pa && s.dev.linksDown.contains (linkOf f.pa))

/-- Whether a flight belongs to a copy, whose bytes no order binds to those of other accesses of its core. -/
def ofCopy (s : State) (f : Flight) : Bool :=
  f.ctx.which == 3 && (s.clusterSt (clusterOf f.ctx.core)).copyQ.any fun q => q.tag == f.first

/-- An earlier access of the same context, or of the same copy, to bytes that this one touches (R203). No order binds
accesses to other bytes of a line, the lanes of one vector store among them (R138). -/
def behindOwn (s : State) (f : Flight) : Bool :=
  s.net.flight.any fun g => g.ctx == f.ctx && decide (g.id < f.id) && g.state == .onWay && overlaps g.pa g.len f.pa f.len &&
    (g.first == f.first || (!ofCopy s f && !ofCopy s g))

/-- Whether a write on its way counts as delivered at a scope: one to memory outside the package does once it has left by its
port, but at system scope (R269). -/
def Flight.left (f : Flight) (sc : Scope) : Bool := inWindow f.pa && f.path.isEmpty && sc != .system

/-- Whether every write of a context numbered below `mark` is delivered at a scope, PRIV stores apart (R197). -/
def delivered (s : State) (c : CtxId) (mark : Nat) (sc : Scope) : Bool :=
  s.net.flight.all (fun f => !(f.ctx == c && decide (f.id < mark)) || f.isLoad || f.left sc) &&
  s.home.replLog.all fun r => !(r.ctx == c && decide (r.id < mark)) ||
    (match sc with
      | .core => !r.dies.contains (dieOf c.core)
      | .cluster => !r.dies.contains (dieOf c.core)
      | .die => !r.dies.contains (dieOf c.core)
      | _ => r.dies.isEmpty)

/-- The copy of a line in a cache, present or not. -/
def findCopy (s : State) (a : CacheId) (line : Nat) : Option Copy :=
  s.home.copies.find? fun c => c.at_ == a && c.line == line

/-- Whether two queues are one: the home slices that one physical slice serves share theirs (R345). -/
def sameQueue (s : State) (q r : Nat × Nat) : Bool :=
  q == r || (q.1 == 2 && r.1 == 2 && (slicesWith s q.2).contains r.2)

/-- Whether an access at a physical address of a window comes behind a write of this package that has left for the same bytes and
is not applied: what a port sends arrives in turn (R263, R269; log entry 43). A flight, itself come at tick `came`, comes behind
those that came before it. -/
def behindPort (s : State) (pa n came id : Nat) : Bool :=
  inWindow pa && s.net.flight.any fun g =>
    g.path.isEmpty && g.state == .onWay && !g.isLoad && overlaps g.pa g.len pa n &&
      (decide (g.came < came) || (g.came == came && decide (g.id < id)))

/-- Whether a flight's bytes come from outside the package: a load, or an atomic. -/
def Flight.asks (f : Flight) : Bool :=
  match f.kind with
  | .load _ _ _ _ _ => true
  | .atomic _ _ _ _ => true
  | .mxacc _ _ => true
  | _ => false

/-- The CRF32 lines of the whole commit that a flight belongs to, and whether a line of that commit has been applied (R119). -/
def Flight.order (f : Flight) : List Nat × Bool :=
  match f.kind with
  | .commit _ ks begun => (ks, begun)
  | _ => ([], false)
/-- Whether a commit of another context of the die is under way that writes one of some CRF32 lines: the sums of a die partial take
whole commits one after another, in commit-stamp order (R119, R172; log entry 11). -/
def commitUnderWay (s : State) (c : CtxId) (keys : List Nat) : Bool :=
  s.net.flight.any fun g => g.order.2 && g.ctx != c && dieOf g.ctx.core == dieOf c.core && g.order.1.any keys.contains

/-- Whether a flight that has reached its home may be applied now, its turn in replay apart: the home answers, no access of its own
context comes first, its earlier writes are delivered where it asks for that, those of a commit's requests at their homes, what
left its port before it has arrived, and no other commit is adding to its CRF32 lines (R119, R203, R230, R305, R309). -/
def applicable (s : State) (f : Flight) : Bool :=
  let sc : Scope := match f.kind with
    | .requests _ => .core
    | _ => f.scope
  !forSequencer f && f.state == .onWay && !homeGone s f && !behindOwn s f && (!f.earlier || delivered s f.ctx f.id sc) &&
    !(f.asks && behindPort s f.pa f.len f.came f.id) && (f.order.2 || !commitUnderWay s f.ctx f.order.1)

/-- Whether a flight is an event that replay may hold (R409, R412). -/
def Flight.recordable (f : Flight) : Bool :=
  match f.kind with
  | .atomic _ _ _ _ => true
  | .mxacc _ _ => true
  | .commit _ _ _ => true
  | _ => false
/-- Whether a flight goes on if it is granted, as the arbiter sees it: an event of an owner in replay is held and asks for nothing
(R412; log entry 38). -/
def mayGo (s : State) (f : Flight) : Bool :=
  applicable s f && !(f.recordable && (s.ownerSt f.oid).rpl.mode == 2)

/-! ### Grants (R329, R333 to R335) -/

/-- Whether a flight waits at the head of a queue and could go on if granted: at its home slice or channel, if it may be applied. -/
def waitsAt (s : State) (q : Nat × Nat) (may : Flight → Bool) (f : Flight) : Bool :=
  f.state == .onWay && (match f.path with
    | r :: _ => sameQueue s q r && (decide (r.1 < 2) || may f)
    | [] => false)
/-- The flights that wait at a queue in the order in which they came, those of one tick by owner (R334). -/
def waiting (s : State) (q : Nat × Nat) (may : Flight → Bool) : List Flight :=
  (s.net.flight.filter (waitsAt s q may)).mergeSort fun a b =>
    a.came < b.came || (a.came == b.came && (a.oid < b.oid || (a.oid == b.oid && a.id ≤ b.id)))

/-- Whether a flight granted at its home slice has to wait for its line from the HBM channel (R340). -/
def fetches (s : State) (f : Flight) : Bool :=
  inHbm f.pa && !f.fetched && (findCopy s (.far (sliceKey s f.owner (f.pa / 128))) (f.pa / 128)).isNone
/-- A flight that a queue has granted goes on: from a home slice by its line's channel where the line is not there. -/
def Flight.granted (s : State) (q : Nat × Nat) (g : Flight) : Flight :=
  let rest := g.path.drop 1
  { g with
    path := if q.1 = 2 && fetches s g then (3, sliceKey s g.owner (g.pa / 128)) :: rest else rest
    age := 0
    came := s.tick
    fetched := g.fetched || q.1 == 3 }

/-- One grant opportunity at a queue between the flights that wait there and a request that is no flight (R334): the one granted,
and those whose age rises. -/
def opportunity (s : State) (q : Nat × Nat) (here : List Flight) (own : Option Request) : Option (Nat × List Nat) × State :=
  let idx := match here with
    | f :: _ => ((f.path.head?).getD q).2
    | [] => q.2
  match arbitrate s (lget [] (s.dieSt (queueDie q)).share q.1) q.1 idx (here.map (fun g => ⟨g.oid, g.age, g.id⟩) ++ own.toList) with
  | (none, s) => (none, s)
  | (some (id, aged), s) =>
    let s := s.onNet fun t =>
      { t with flight := lupd (fun (g : Flight) => aged.contains g.id) (fun g => { g with age := g.age + 1 }) t.flight }
    (some (id, aged),
      s.onNet fun t => { t with flight := lupd (fun (g : Flight) => g.id == id) (fun g => g.granted s q) t.flight })

/-- A request that comes to a queue is granted there, after the flights waiting there that are granted before it, of which there are
fewer than `fuel` (R334). -/
def grantRequest (q : Nat × Nat) : (fuel : Nat) → Request → State → State
  | 0, _, s => s
  | n + 1, r, s =>
    match opportunity s q (waiting s q (mayGo s)) (some r) with
    | (none, s) => s
    | (some (id, aged), s) =>
      if id = r.id then s else grantRequest q n (if aged.contains r.id then { r with age := r.age + 1 } else r) s

/-- A request of an owner passes a queue. -/
def State.grant (s : State) (oid : Nat) (q : Nat × Nat) : State :=
  grantRequest q (s.net.flight.length + 1) ⟨oid, 0, s.net.nextId⟩ s

/-- What is on its way once `t` has come of a state through grants: where nothing was, nothing is. -/
def movedOn (s t : State) : List Flight := if s.net.flight.isEmpty then s.net.flight else t.net.flight

/-- A request of an owner passes queues: the draws that this takes, and the flights that wait there and are granted or grow
older. -/
def State.pass (s : State) (oid : Nat) (path : List (Nat × Nat)) : State :=
  let t := path.foldl (fun s q => s.grant oid q) s
  let owners := (oid :: s.owners.map (·.1) ++ s.net.flight.map (·.oid)).foldl
    (fun os o => tset os o { tget {} os o with ctr := (t.ownerSt o).ctr }) s.owners
  { s with owners := owners, net := { s.net with flight := movedOn s t } }

/-- An access of context `c` for an owner goes to the home slice `key` and its response comes back (R334). -/
def State.travel (s : State) (c : CtxId) (oid key : Nat) : State :=
  s.pass oid (homePath s c key ++ (portsTo s (key / 128) (startDie c)).map fun p => (0, p))

end Sys2Proof.Machine
end

