-- ==== Sys2Proof/Machine/Slice.lean ====
section
/-! DEFINITION. The slices of the caches: quotas and utility monitors, copies and their validity, the stamps
of writes, and the home slices (spec/01_machine.md R19, R20; spec/07_memory_model.md R195, R196, R199, R207;
spec/12_isolation.md R339 to R341). -/

namespace Sys2Proof.Machine

/-! ### Witnesses (R191 to R194) -/

/-- A malformed witness (R192). -/
def witMalformed (w : Word) : Bool := w.extractLsb' 48 12 != 0 || decide (5 ≤ (w.extractLsb' 60 3).toNat)
/-- The check of R192. -/
def checkWitness (w : Word) : Act Unit := if witMalformed w then trapNow .witmal else .ok ()

/-- witness_judge (R193): the stamp that an access honours, if any. -/
def judge (now : Stamp) (w : Word) : Option Stamp :=
  if !w.getLsbD 63 then none
  else
    let stamp : Stamp := w.setWidth 48
    let age := (now - stamp).toNat
    if age < 2 ^ 30 then some stamp
    else if age < 2 ^ 48 - 2 ^ 30 then none
    else if 2 < 2 ^ 48 - age then some (now + 2)
    else some stamp

/-- witness_max (R194). -/
def witnessMax (a b : Word) : Word :=
  if !a.getLsbD 63 && !b.getLsbD 63 then 0
  else if !a.getLsbD 63 then b
  else if !b.getLsbD 63 then a
  else
    let sa : Stamp := a.setWidth 48
    let sb : Stamp := b.setWidth 48
    let sc : BitVec 3 := if (a.extractLsb' 60 3).toNat ≤ (b.extractLsb' 60 3).toNat then a.extractLsb' 60 3
      else b.extractLsb' 60 3
    (1 : BitVec 1) ++ sc ++ (0 : BitVec 12) ++ laterOf sa sb

/-- A witness of a scope and a stamp; the null witness where there is no stamp (R191, R196). -/
def mkWit (sc : Scope) (st : Option Stamp) : Word :=
  match st with
  | none => 0
  | some t => (1 : BitVec 1) ++ (BitVec.ofNat 3 (scopeN sc)) ++ (0 : BitVec 12) ++ t

/-- The stamp that a witness carries. -/
def witStamp (w : Word) : Option Stamp := if w.getLsbD 63 then some (w.setWidth 48) else none


/-- The scope of an instruction: its modifier, or WSCOPE (R190). -/
def State.scope (s : State) (sc : Option Scope) : Scope := sc.getD (scopeAt (fieldN s.cx.crs.wscope 2 0))

/-- The stamp that counts as at or past another under the half-range comparison. -/
def atOrPast (a b : Stamp) : Bool := !after a b

/-- The first number of a list with the greatest value. -/
def argmax (f : Nat → Nat) : List Nat → Option Nat
  | [] => none
  | a :: l =>
    match argmax f l with
    | none => some a
    | some b => if f b ≤ f a then some a else some b

/-! ### Quotas (R339 to R341) -/

/-- A quota table at reset: the overflow has every way (R339). -/
def quotasReset (ways : Nat) : Quotas :=
  ⟨List.replicate 16 ⟨0, List.replicate ways 0⟩ ++ [⟨ways, List.replicate ways 0⟩], 0, [], 0⟩

/-- The partition of an owner: its entry of the floor table, or the overflow 16. -/
def partOf (floors : List Floor) (oid : Nat) : Nat :=
  ((List.range 16).find? fun i => (lget ⟨none, 0⟩ floors i).owner == some oid).getD 16

/-- The floor table of a class on a die: class 5 near tier, class 6 far tier. -/
def floorsOf (s : State) (die cls : Nat) : List Floor := lget [] (s.dieSt die).floors (cls - 5)

/-- The partition that serves as a part's record. -/
def Quotas.part (q : Quotas) (p : Nat) : Part := lget ⟨0, []⟩ q.parts p

/-- A lookup in a sampled set: the shadow stack moves the line to its top, and a hit at depth k counts (R341). -/
def Quotas.monitor (q : Quotas) (set p line ways : Nat) : Quotas :=
  let stack := ((q.shadow.find? fun e => e.1 == set && e.2.1 == p).map (·.2.2)).getD []
  let depth := stack.findIdx (· == line)
  let parts := if depth < stack.length then
      q.parts.modify p fun a => { a with hits := a.hits.modify depth fun h => min (h + 1) (2 ^ 32 - 1) }
    else q.parts
  let stack := (line :: stack.filter (· != line)).take ways
  { q with parts := parts, shadow := (set, p, stack) :: q.shadow.filter fun e => !(e.1 == set && e.2.1 == p) }

/-- The partition most over its quota in a set, ties to the lowest entry; where none is over, the one with the most
lines (R340). -/
def Quotas.mostOver (q : Quotas) (lines : List Copy) : Nat :=
  let count := fun p => lines.countP fun (c : Copy) => c.part == p
  let excess := fun p => count p - (q.part p).quota
  let ps := List.range 17
  match argmax excess ps with
  | some p => if 0 < excess p then p else (argmax count ps).getD 16
  | none => 16

/-- The victim of a fill into a full set (R340). -/
def Quotas.victim (q : Quotas) (lines : List Copy) (p : Nat) (val : BitVec 128) : Option Copy :=
  let held := lines.countP fun (c : Copy) => c.part == p
  let v := if (q.part p).quota ≤ held && 0 < held then p else q.mostOver lines
  let pool := lines.filter fun (c : Copy) => c.part == v
  pool[pickIndex val pool.length]?

/-! ### Copies and their validity -/

/-- Whether fabric time has passed an expiry (R20, R207). -/
def passed (now expiry : Stamp) : Bool := after expiry now

/-- The floor of the near tier for an owner's partition (R235). -/
def nearFloorOf (s : State) (cluster oid : Nat) : Stamp :=
  tget 0 (s.clusterSt cluster).nearFloor (partOf (floorsOf s (cluster / 32) 5) oid)

/-- A clean copy is present until its expiry unless its fill stamp precedes the floor of its level or the witness; a
dirty copy is never absent (R20, R199, R235). -/
def Copy.present (c : Copy) (s : State) (wit : Option Stamp) : Bool :=
  c.dirty ||
    (!passed s.now c.expiry &&
      (match c.at_ with
        | .l1 core => atOrPast c.fill (s.coreSt core).l1Floor
        | .near cl => atOrPast c.fill (nearFloorOf s cl c.owner)
        | _ => true) &&
      (match wit with
        | none => true
        | some w => atOrPast c.fill w))

/-- The present copy of a line in a cache. -/
def presentCopy (s : State) (a : CacheId) (line : Nat) (wit : Option Stamp) : Option Copy :=
  (findCopy s a line).filter fun c => c.present s wit
/-- Remove the copy of a line from a cache. -/
def State.dropCopy (s : State) (a : CacheId) (line : Nat) : State :=
  s.onHome fun h => { h with copies := h.copies.filter fun c => !(c.at_ == a && c.line == line) }
/-- Put a copy into a cache in place of an older copy of its line. -/
def State.putCopy (s : State) (c : Copy) : State :=
  s.onHome fun h => { h with copies := h.copies.filter (fun d => !(d.at_ == c.at_ && d.line == c.line)) ++ [c] }

/-! ### Stamps of writes (R195, R196) -/

/-- A write of a context took a stamp: it enters the running maximum, that of every pending witness that counts it, and the
witness of every counter message issued after it (R309); without a number, of all of them. -/
def State.stampWrite (s : State) (c : CtxId) (id : Option Nat) (t : Stamp) : State :=
  let s := s.onNet fun n =>
    { n with
      flight := lupd (fun (f : Flight) => f.ctx == c && f.earlier && id.all (· < f.id))
        (fun f => { f with wit := witnessMax f.wit (mkWit f.scope (some t)) }) n.flight }
  s.updCtx c fun k =>
    { k with
      runMax := mergeStamp k.runMax t
      pend := lupd (fun (p : Pend) => id.all (· < p.mark)) (fun p => { p with stamp := mergeStamp p.stamp t }) k.pend }

/-- The writes of a context below a number that count as delivered at a scope because they have left the package bear the fabric
time at which they are counted (R269; log entry 43). -/
def State.stampLeft (s : State) (c : CtxId) (mark : Nat) (sc : Scope) : State :=
  (s.net.flight.filter fun f => f.ctx == c && decide (f.id < mark) && !f.isLoad && f.left sc).foldl
    (fun s f => s.stampWrite c (some f.id) s.now) s

/-! ### The home (R19, R205) -/

/-- Whether a copy lies in the far tier under one of several home slices. -/
def Copy.inFar (c : Copy) (keys : List Nat) : Bool :=
  match c.at_ with
  | .far k => keys.contains k
  | _ => false

/-- A line is put into its set of the far tier, in place of a victim where the set is full (R340). -/
def farFill (s : State) (key : Nat) (q : Quotas) (fresh : Copy) : State :=
  let shared := slicesWith s key
  let lines := s.home.copies.filter fun f => f.inFar shared && f.set == fresh.set
  if lines.length < 16 then s.putCopy fresh
  else
    let d := s.draw fresh.owner 8 key
    match q.victim lines fresh.part d.1 with
    | some v => ((if v.dirty then d.2.pass v.owner [(3, sliceKey s v.owner v.line)] else d.2).dropCopy v.at_ v.line).putCopy fresh
    | none => d.2.putCopy fresh

/-- A line is at its home slice: the far-tier tags, their quotas and their monitor (R340, R341). A miss is counted for
context `c` and passes the queue of the slice's channel for the owner `oid` that asks, where it is not `paid` already; a dirty
victim passes it for its own page owner. -/
def homeTouched (s : State) (c : CtxId) (oid owner line : Nat) (write paid : Bool) : State :=
  if hbmEnd ≤ line * 128 then s
  else
    let die := homeDie line
    let slice := homeSlice s owner line
    let key := die * 128 + slice
    let set := homeSet s owner line
    let floors := floorsOf s die 6
    let p := partOf floors owner
    let q := { tget (quotasReset 16) (s.dieSt die).farQuotas slice with done := s.dev.intervals }
    let q := if set % 16 = 0 then q.monitor set p line 16 else q
    let s := s.updDie die fun d => { d with farQuotas := tset d.farQuotas slice q }
    match findCopy s (.far key) line with
    | some f => if write then s.putCopy { f with dirty := true } else s
    | none =>
      let s := if paid then s.countEv c 5 1 oid else (s.countEv c 5 1 oid).pass oid [(3, key)]
      farFill s key q ⟨.far key, line, 0, s.now, s.now, write, owner, none, 0, set, p, false⟩

/-- The same, with all that a home access leaves as it was in plain sight. -/
def touchHome (s : State) (c : CtxId) (oid owner line : Nat) (write : Bool) (paid : Bool := false) : State :=
  let t := homeTouched s c oid owner line write paid
  let die := homeDie line
  let s := s.updCore c.core fun k => { k with perf := (t.coreSt c.core).perf }
  let s := s.updDie die fun d => { d with farQuotas := (t.dieSt die).farQuotas }
  let owners := (owner :: oid :: s.owners.map (·.1) ++ s.net.flight.map (·.oid)).foldl
    (fun os o => tset os o { tget {} os o with ctr := (t.ownerSt o).ctr }) s.owners
  let s := { s with owners := owners, net := { s.net with flight := movedOn s t } }
  s.onHome fun h => { h with copies := t.home.copies }

/-- A read at a home for an owner: on the way there and back, and at the slice (R205, R334). A request that has `arrived` has passed
the queues on its way, and that of its channel where its line has been fetched. -/
def reachFor (s : State) (c : CtxId) (oid owner line : Nat) (arrived : Option Bool := none) : State :=
  let s := if hbmEnd ≤ line * 128 then s
    else if arrived.isSome then s.pass oid ((portsTo s (homeDie line) (startDie c)).map fun p => (0, p))
    else s.travel c oid (sliceKey s owner line)
  touchHome s c oid owner line false (arrived == some true)
/-- The same for the owner of the context's firing. -/
def reachHome (s : State) (c : CtxId) (owner line : Nat) (arrived : Option Bool := none) : State :=
  reachFor s c (s.ctxOf c).fir.oid.toNat owner line arrived

end Sys2Proof.Machine
end

