-- ==== Sys2Proof/Machine/Translate.lean ====
section
/-! DEFINITION. Translation, sealing and the checks of an access (spec/08_memory_instructions.md R221;
spec/12_isolation.md R346 to R350; spec/15_edges.md R417; spec/14_recovery.md R396). -/

namespace Sys2Proof.Machine

/-- What a table holds under `k`, if anything. -/
def tfind {α : Type} (t : Tab α) (k : Nat) : Option α := tget none (t.map fun p => (p.1, some p.2)) k

/-! ### Leaves (R347) -/

/-- A page as an access finds it: its leaf entry, its level, where the entry lies, and the accessed physical address. -/
structure Leaf where
  entry : Word
  level : Nat
  entryPa : Nat
  pa : Nat
  deriving DecidableEq, Repr

def entryCls (e : Word) : BitVec 3 := e.extractLsb' 60 3
def entryFmt (e : Word) : BitVec 2 := e.extractLsb' 58 2
def entrySealed (e : Word) : Bool := e.getLsbD 57
def entryLeafBit (e : Word) : Bool := e.getLsbD 56
def entryR (e : Word) : Bool := e.getLsbD 55
def entryW (e : Word) : Bool := e.getLsbD 54
def entryX (e : Word) : Bool := e.getLsbD 53
def entryU (e : Word) : Bool := e.getLsbD 52
/-- The physical base that an entry names. -/
def entryBase (e : Word) : Nat := (e.extractLsb' 16 36).toNat * 65536
def entryAnchor (e : Word) : BitVec 8 := e.extractLsb' 8 8
def entryOwner (e : Word) : Nat := (e.extractLsb' 0 8).toNat
def Leaf.cls (l : Leaf) : BitVec 3 := entryCls l.entry
def Leaf.owner (l : Leaf) : Nat := entryOwner l.entry
/-- The line that the access falls in. -/
def Leaf.line (l : Leaf) : Nat := l.pa / 128

/-- The low bits of an address that a level does not translate (R346). -/
def levelShift (level : Nat) : Nat :=
  match level with
  | 0 => 16 | 1 => 21 | 2 => 30 | _ => 43
/-- The entries of a table of a level (R346). -/
def levelEntries (level : Nat) : Nat :=
  match level with
  | 0 => 32 | 1 => 512 | _ => 8192
/-- The virtual page number of an address at a level. -/
def vpageOf (va : Word) (level : Nat) : Nat := va.toNat / 2 ^ levelShift level

/-- A failed check: its cause, and the values that the rule names for TADDR and TVAL. -/
structure Fail where
  cause : Cause
  addr : Option Word
  val : Option Word
  deriving DecidableEq, Repr

/-- The result of checks. -/
abbrev Chk (α : Type) := Except Fail α

/-- A failed check at an instruction. -/
def Fail.stop (f : Fail) : Stop := .trap f.cause f.addr f.val
/-- Checks as steps of an instruction. -/
def Chk.act {α : Type} (c : Chk α) : Act α :=
  match c with
  | .ok a => .ok a
  | .error f => .error f.stop

/-! ### Marks and seals -/

/-- A line marked poisoned or lost, or of a lost channel or die (R396, R397). -/
def marked (s : State) (owner line : Nat) : Bool :=
  s.home.marks.any (fun m => m.1 == line) || (decide (line * 128 < hbmEnd) &&
    (s.home.dieLost.contains (homeDie line) ||
      (!s.home.chanLost.isEmpty && s.home.chanLost.contains (sliceKey s owner line) &&
        !s.home.cleared.contains (line, sliceKey s owner line))))

/-- Every line of a home slice's channel is marked lost (R397). -/
def State.loseChannel (s : State) (key : Nat) : State :=
  s.onHome fun h =>
    { h with
      chanLost := if h.chanLost.contains key then h.chanLost else key :: h.chanLost
      cleared := h.cleared.filter fun c => c.2 != key }

/-- PCLR clears the marks of lines (R239, R396). -/
def State.unmark (s : State) (owner : Nat) (lines : List Nat) : State :=
  let chans := if s.home.chanLost.isEmpty then []
    else (lines.map fun l => (l, sliceKey s owner l)).filter fun c => s.home.chanLost.contains c.2
  s.onHome fun h => { h with marks := h.marks.filter (fun m => !lines.contains m.1), cleared := chans ++ h.cleared }

/-- Add a mark to a line. -/
def State.mark (s : State) (line : Nat) (m : Mark) : State :=
  s.onHome fun h => { h with marks := (line, m) :: h.marks.filter (·.1 != line) }

/-- Who makes an access: the owner whose tables translate it, its mode, the core whose TLBs serve it, and whether the
party may reach sealed frames (the host may not, R350). -/
structure Who where
  oid : Nat
  sMode : Bool
  core : Nat
  host : Bool := false
  deriving DecidableEq, Repr

/-- The running firing as an accessor. -/
def State.who (s : State) : Who := ⟨s.oid, s.cx.crs.cmode, s.cur.core, false⟩

/-- The frame address of a replica on a die (R211). -/
def replicaPa (pa die : Nat) : Nat := pa % 2 ^ 38 + die * 2 ^ 38

/-- The frames behind an address of a page: its own, or the nine of a REPL page (R211). -/
def pageFrames (e : Word) (pa : Nat) : List Nat :=
  if entryCls e == 4 then (List.range 9).map fun d => replicaPa pa d / 65536 else [pa / 65536]

/-- The seal check of R350: whether the access may go on. -/
def sealOk (s : State) (w : Who) (e : Word) (pa : Nat) : Bool :=
  let tags := (pageFrames e pa).map (tfind s.home.sealTags)
  if entrySealed e then
    decide (entryOwner e = w.oid) && (s.ownerSt w.oid).isSealed && w.oid != 0 && !w.host && inHbm pa &&
      tags.all fun t => t == none || t == some w.oid
  else tags.all (· == none)

/-- The free frames reached through a sealed leaf become sealed to its owner when the access proceeds (R350). -/
def State.sealFrame (s : State) (w : Who) (e : Word) (pa : Nat) : State :=
  if entrySealed e then
    s.onHome fun h => { h with sealTags := (pageFrames e pa).foldl (fun t f => tset t f w.oid) h.sealTags }
  else s

/-! ### TLBs and the walk (R346 to R348) -/

/-- How many entries of a structure an owner holds. -/
def heldBy (es : List TlbEntry) (oid : Nat) : Nat := es.countP (·.oid == oid)

/-- The owners that hold an entry, with the filling owner, in ascending order. -/
def tlbOwners (es : List TlbEntry) (oid : Nat) : List Nat :=
  (List.range 256).filter fun o => o == oid || es.any (·.oid == o)

/-- Remove the element at an index. -/
def dropAt {α : Type} (l : List α) (i : Nat) : List α := l.eraseIdx i

/-- Fill an entry into a shared structure of `cap` entries with the victim of R348; `idx` names the filling owner's
stream of class 10. The draw is that of `payer`. -/
def tlbFill (s : State) (payer : Nat) (es : List TlbEntry) (cap idx : Nat) (e : TlbEntry) : List TlbEntry × State :=
  let es := es.filter fun t => !(t.oid == e.oid && t.level == e.level && t.vpage == e.vpage)
  let owners := tlbOwners es e.oid
  let below := decide (heldBy es e.oid * owners.length < cap)
  if below && decide (es.length < cap) then (es ++ [e], s)
  else
    let cand := if below then (argmax (heldBy es) owners).getD e.oid else e.oid
    let pool := (List.range es.length).filter fun i => (es[i]?.map (·.oid)) == some cand
    let (val, s) := s.draw payer 10 idx
    match pool[pickIndex val pool.length]? with
    | some i => (dropAt es i ++ [e], s)
    | none => (es ++ [e], s)

/-- An entry of a list for an address. -/
def tlbFind (es : List TlbEntry) (oid level : Nat) (va : Word) : Option TlbEntry :=
  es.find? fun t => t.oid == oid && t.level == level && t.vpage == vpageOf va level

/-- A translation that a TLB holds for an address, of any page size. -/
def tlbLookup (es : List TlbEntry) (oid : Nat) (va : Word) : Option TlbEntry :=
  (tlbFind es oid 0 va).or ((tlbFind es oid 1 va).or (tlbFind es oid 2 va))

/-- The physical address of `va` under a leaf. -/
def leafPa (e : Word) (level : Nat) (va : Word) : Nat := entryBase e + va.toNat % 2 ^ levelShift level

/-- Why a walk stops at an entry (R347): not valid, a leaf at level 3, malformed, or a leaf in no region. -/
def badEntry (e : Word) (level : Nat) : Bool :=
  !e.getLsbD 63 ||
  (if level = 0 || entryLeafBit e then
    level == 3 || entryBase e % 2 ^ levelShift level != 0 || !inRegion (entryBase e)
  else (e.extractLsb' 57 6 != 0) || (e.extractLsb' 52 4 != 0) || (e.extractLsb' 0 16 != 0))

/-- XLATE with the address of the entry at which the walk stopped (R347). -/
def xlateAt {α : Type} (va : Word) (entryPa : Nat) : Chk α :=
  .error ⟨.xlate, some va, some (BitVec.ofNat 64 entryPa)⟩

/-- An entry of an owner's tables as a walk sees it: under the seal check of walks (R350), with POISON for a marked line
(R396). -/
def entryWord (s : State) (oid : Nat) (va : Word) (pa : Nat) : Chk Word :=
  let tag := tfind s.home.sealTags (pa / 65536)
  if tag.isSome then .error ⟨.sealed, some va, none⟩
  else if !inRegion pa then xlateAt va pa
  else if marked s oid (pa / 128) then .error ⟨.poison, some va, none⟩
  else .ok (BitVec.ofNat 64 (leNat (memRead s.mem pa 8)))

/-- The address of the entry of `va` in a table. -/
def entryAddr (table level : Nat) (va : Word) : Nat :=
  table + 8 * (va.toNat / 2 ^ levelShift level % levelEntries level)

/-- The walk from a level down (R346), each entry read at its home as an SM load is, for the owner `payer`: the leaf or where
the walk stops, and what it leaves. The walk cache of the accessing die serves the table entries that it holds. -/
def walkFrom (s : State) (c : CtxId) (oid payer : Nat) (va : Word) : (level : Nat) → (table : Nat) → Chk Leaf × State
  | level, table =>
    let a := entryAddr table level va
    let die := dieOf c.core
    match tlbFind (s.dieSt die).walkCache oid level va with
    | some t =>
      match level with
      | 0 => (xlateAt va t.entryPa, s)
      | n + 1 => walkFrom s c oid payer va n (entryBase t.entry)
    | none =>
      match entryWord s oid va a with
      | .error f => (.error f, s)
      | .ok e =>
        let s := reachFor s c payer oid (a / 128)
        if badEntry e level then (xlateAt va a, s)
        else match level with
        | 0 => (.ok ⟨e, 0, a, leafPa e 0 va⟩, s)
        | n + 1 =>
          if entryLeafBit e then (.ok ⟨e, n + 1, a, leafPa e (n + 1) va⟩, s)
          else
            let (wc, s) := tlbFill s payer (s.dieSt die).walkCache 512 (0x400 + die) ⟨oid, n + 1, vpageOf va (n + 1), e, a⟩
            walkFrom (s.updDie die fun d => { d with walkCache := wc }) c oid payer va n (entryBase e)

/-- Put a translation into a core's first-level TLB; which entry a full one gives up is open (log entry 8). -/
def tlb1Fill (s : State) (core : Nat) (e : TlbEntry) : State :=
  s.updCore core fun k =>
    { k with tlb1 := (if k.tlb1.length < 96 then k.tlb1 else dropAt k.tlb1 (Config.tlbVictim s.tick % 96)) ++ [e] }

/-- An entry with the class, format and anchor of another. -/
def withClass (e old : Word) : Word :=
  let mask : Word := 0x7C0000000000FF00
  (e &&& ~~~mask) ||| (old &&& mask)
/-- Whether two entries agree in class, and for a CR page in format and anchor. -/
def sameClass (e f : Word) : Bool :=
  entryCls e == entryCls f && (entryCls e != 3 || (entryFmt e == entryFmt f && entryAnchor e == entryAnchor f))

/-- What is recorded of a page's class in effect (R28). -/
def pageClass (s : State) (oid level vpage : Nat) : Option PageClass :=
  s.home.classes.find? fun k => k.oid == oid && k.level == level && k.vpage == vpage
/-- The class of a page that has none in effect yet is that of its entry; the permissions in effect are those that the latest
walk has found (R292, R360). -/
def State.noteClass (s : State) (oid level vpage : Nat) (e : Word) : State :=
  match pageClass s oid level vpage with
  | some k =>
    s.onHome fun h => { h with classes := lupd (fun (j : PageClass) => j == k) (fun j => { j with entry := withClass e j.entry }) h.classes }
  | none => s.onHome fun h => { h with classes := h.classes ++ [⟨oid, level, vpage, e⟩] }
/-- A page whose class change is not complete is accessed under its old class (R28, R209). -/
def underOld (s : State) (oid : Nat) (va : Word) (l : Leaf) : Leaf :=
  match pageClass s oid l.level (vpageOf va l.level) with
  | some k => { l with entry := withClass l.entry k.entry }
  | none => l

/-- Translation of an address for an owner, through the TLBs of a core (R346 to R348): its result, and what it leaves also where
it fails. -/
def tlbTried (s : State) (c : CtxId) (oid payer : Nat) (va : Word) : Chk Leaf × State :=
  if va.toNat ≥ 2 ^ 56 then (.error ⟨.xlate, some va, some 0⟩, s)
  else
    let core := c.core
    match tlbLookup (s.coreSt core).tlb1 oid va with
    | some t => (.ok ⟨t.entry, t.level, t.entryPa, leafPa t.entry t.level va⟩, s)
    | none =>
      let s := s.countEv c 11 1 oid
      let cl := clusterOf core
      match tlbLookup (s.clusterSt cl).tlb2 oid va with
      | some t => (.ok ⟨t.entry, t.level, t.entryPa, leafPa t.entry t.level va⟩, tlb1Fill s core t)
      | none =>
        let s := s.countEv c 12 1 oid
        match walkFrom s c oid payer va 3 ((s.ownerSt oid).root * 65536) with
        | (.error f, s) => (.error f, s)
        | (.ok l, s) =>
          let t : TlbEntry := ⟨oid, l.level, vpageOf va l.level, l.entry, l.entryPa⟩
          let (t2, s) := tlbFill s payer (s.clusterSt cl).tlb2 4096 cl t
          (.ok l, tlb1Fill ((s.updCluster cl fun k => { k with tlb2 := t2 }).noteClass oid l.level t.vpage l.entry) core t)
/-- The same where it succeeds. -/
def tlbTranslate (s : State) (c : CtxId) (oid payer : Nat) (va : Word) : Chk (Leaf × State) :=
  match tlbTried s c oid payer va with
  | (.ok l, s) => .ok (l, s)
  | (.error f, _) => .error f
/-- What the translation of an address leaves, also where it fails (R346). -/
def State.walked (s : State) (c : CtxId) (oid : Nat) (va : Word) : State := (tlbTried s c oid oid va).2

/-- The page that an access of an owner at an address finds (R28, R346 to R348); what its walk draws is the owner's `payer`. -/
def translate (s : State) (c : CtxId) (oid : Nat) (va : Word) (payer : Nat := oid) : Chk (Leaf × State) :=
  (tlbTranslate s c oid payer va).map fun r => (underOld s oid va r.1, r.2)

/-! ### The checks of an access (R221) -/

/-- What an access does; an atomic both loads and stores (R214). -/
inductive Kind where
  | r | w | x | rw
  deriving DecidableEq, Repr

/-- The permission check: the bit of the kind, and U outside S mode (R347). -/
def permOk (w : Who) (k : Kind) (e : Word) : Bool :=
  (match k with
    | .r => entryR e
    | .w => entryW e
    | .x => entryX e
    | .rw => entryR e && entryW e) && (w.sMode || entryU e)

/-- ALIGN, XLATE, SEALED, PERM and the reserved classes, in the order of R221. The page is not yet sealed: `sealFrame`
does that once the access proceeds. `payer` is the owner that its walk draws for. -/
def check (s : State) (c : CtxId) (w : Who) (va : Word) (n : Nat) (k : Kind) (payer : Nat := w.oid) :
    Chk (Leaf × State) :=
  if n != 0 && va.toNat % n != 0 then .error ⟨.align, some va, none⟩
  else match translate s c w.oid va payer with
  | .error f => .error f
  | .ok (l, s) =>
    if !sealOk s w l.entry l.pa then .error ⟨.sealed, some va, none⟩
    else if !permOk w k l.entry then .error ⟨.perm, some va, none⟩
    else if decide (5 ≤ l.cls.toNat) then .error ⟨.class_, some va, none⟩
    else if inWindow l.pa && l.cls != 2 then .error ⟨.class_, some va, none⟩
    else if l.cls == 3 && entryFmt l.entry == 3 && entryAnchor l.entry != 0 then .error ⟨.crfmt, some va, none⟩
    else .ok (l, s)

/-- The check of an access of the running context. -/
def State.check (s : State) (va : Word) (n : Nat) (k : Kind) : Act (Leaf × State) :=
  (Machine.check s s.cur s.who va n k).act

/-- The checks of an operand that must lie on an SM page: CRFMT for a CR page, CLASS for another (R214, R309). -/
def needSm (va : Word) (l : Leaf) : Chk Unit :=
  if l.cls == clsSm then .ok ()
  else if l.cls == clsCr then .error ⟨.crfmt, some va, none⟩
  else .error ⟨.class_, some va, none⟩

end Sys2Proof.Machine
end

