-- ==== Sys2Proof/Machine/Cache.lean ====
section
/-! DEFINITION. The caches: fills, evictions, write-backs, and the accesses that go through them
(spec/01_machine.md R20; spec/07_memory_model.md R197, R206, R207; spec/08_memory_instructions.md R226; spec/12_isolation.md
R340; spec/14_recovery.md R396, R397). -/

namespace Sys2Proof.Machine

/-- The first write to a 64 KiB page by a firing of a launch under measurement copies its old bytes into SNAP; a page that
SNAP cannot take sets OVER (R367). -/
def capturePage (s : State) (c : CtxId) (pa : Nat) : State :=
  let k := s.ctxOf c
  let oid := k.fir.oid.toNat
  match (s.ownerSt oid).mpass with
  | none => s
  | some m =>
    let frame := pa / 65536
    if c.which = 3 || k.fir.launch.toNat != m.launch || !inHbm pa || m.writeSet.contains frame then s
    else
      let put := fun (s : State) (m : MPass) => s.updOwner oid fun o => { o with mpass := some m }
      let n := m.writeSet.length
      match check s c ⟨oid, true, c.core, false⟩ (m.snap + BitVec.ofNat 64 (65536 * n)) 0 .w with
      | .ok (l, s) =>
        if m.snapSize < 65536 * (n + 1) || l.cls != clsPriv || l.owner != oid then put s { m with overrun := true }
        else put
          ({ s with mem := memCopy s.mem (frame * 65536) (l.pa / 65536 * 65536) 65536 }.sealFrame ⟨oid, true, c.core, false⟩
            l.entry l.pa) { m with
              writeSet := m.writeSet ++ [frame]
              crSaved := m.crSaved ++ s.home.crMeta.filter fun q => q.key / 65536 == frame }
      | .error _ => put s { m with overrun := true }

/-- Bytes written at the home by context `c`, for the owner of its firing or another. -/
def writeHome (s : State) (c : CtxId) (owner pa : Nat) (bs : List Byte) (oid : Nat := (s.ctxOf c).fir.oid.toNat) : State :=
  let s := capturePage s c pa
  touchHome { s with mem := memWrite s.mem pa bs } c oid owner (pa / 128) true

/-- A line's bytes at the home. -/
def homeLine (s : State) (line : Nat) : LineData := BitVec.ofNat 1024 (leNat (memRead s.mem (line * 128) 128))

/-! ### Write-backs and evictions (R206, R226) -/

/-- An engine fault or refusal to be reported to a context at its next boundary (R157, R226); `issue` is the number taken
when what it is about was issued. -/
def State.engineFault (s : State) (c : CtxId) (cause : Cause) (addr : Option Word) (val : Word) (issue : Nat) : State :=
  s.updCtx c fun k => { k with engFaults := k.engFaults ++ [⟨cause, addr, val, issue⟩] }

/-- Change the copies of a cluster that a test names. -/
def State.onCopies (s : State) (cluster : Nat) (p : CopyOp → Bool) (f : CopyOp → CopyOp) : State :=
  s.updCluster cluster fun k => { k with copyQ := lupd p f k.copyQ }
/-- A copy whose write meets a mark ends with FAULT (R252). -/
def CopyOp.meets (q : CopyOp) (c : Cause) (addr : Word) : CopyOp :=
  { q with fault := q.fault.or (some (c, addr)), status := 3 }
/-- The stamp of a write of a copy enters its completion witness (R220, R252). -/
def CopyOp.stamped (q : CopyOp) (t : Stamp) : CopyOp := { q with wit := witnessMax q.wit (mkWit q.scope (some t)) }
/-- A copy of context `h` that has written a PRIV line. -/
def CopyOp.wrote (h : CtxId) (line : Nat) (q : CopyOp) : Bool := q.ctx == h && q.lines.contains line

/-- A PRIV line that a context writes, at its caches or at the home, is held by that context alone: the clean copies of other cores
and clusters serve no one any more, as every other party reads the home's value (R27, R206; log entry 44). -/
def State.heldAlone (s : State) (h : CtxId) (line : Nat) : State :=
  s.onHome fun t => { t with copies := t.copies.filter fun c => c.line != line || c.dirty ||
    (match c.at_ with
      | .l1 core => core == h.core
      | .l1i core => core == h.core
      | .near cl => cl == clusterOf h.core
      | _ => true) }

/-- A dirty line's bytes reach its home: written and stamped there, or refused where the line is marked, with POISON at
the holder (R226), or at the copy that wrote the line (R252). What a copy alone has written is no write of the context (R195). -/
def homeWriteBack (s : State) (c : Copy) : State :=
  if marked s c.owner c.line then
    match c.holder with
    | some h =>
      if (s.clusterSt (clusterOf h.core)).copyQ.any (CopyOp.wrote h c.line) then
        s.onCopies (clusterOf h.core) (CopyOp.wrote h c.line) fun q => q.meets .poison c.va
      else s.engineFault h .poison (some c.va) 0 s.net.nextId
    | none => s
  else
    let who := c.holder.getD s.cur
    let s := s.travel who (s.ctxOf who).fir.oid.toNat (sliceKey s c.owner c.line)
    let s := writeHome s who c.owner (c.line * 128) (lineBytes c.data 0 128)
    match c.holder with
    | some h =>
      let s := (s.heldAlone h c.line).onCopies (clusterOf h.core) (CopyOp.wrote h c.line) fun q => q.stamped s.now
      if c.engine then s else s.stampWrite h none s.now
    | none => s

/-- The lease in force for an L1 fill of a given stamp: the latest write of LEASE.L1 at or before it (R86). -/
def leaseL1At (s : State) (fill : Stamp) : Stamp :=
  match s.dev.leasesL1.find? fun w => atOrPast fill w.1 with
  | some w => w.2.setWidth 48
  | none => if s.dev.leasesL1.isEmpty then s.dev.leaseL1.setWidth 48 else 0x1000

/-- A copy that a write-back leaves clean (R20). -/
def Copy.cleaned (c : Copy) (s : State) : Copy :=
  let lease := match c.at_ with
    | .near _ => s.dev.leaseNear.setWidth 48
    | _ => leaseL1At s s.now
  { c with dirty := false, fill := s.now, expiry := s.now + lease }

/-- The dirty L1 copies of a line in a cluster, which its near-tier slice keeps (R397). -/
def dirtyAbove (s : State) (cluster line : Nat) : List Copy :=
  s.home.copies.filter fun c => c.line == line && c.dirty &&
    (match c.at_ with
      | .l1 core => clusterOf core == cluster
      | _ => false)

/-- A dirty copy goes home and stays clean; one whose write-back is refused is dropped (R226). -/
def backHome (s : State) (c : Copy) : State :=
  let bad := marked s c.owner c.line
  let s := homeWriteBack s c
  if bad then s.dropCopy c.at_ c.line else s.putCopy (c.cleaned s)

/-- A dirty L1 copy goes through to the near-tier copy of its slice, which then holds the line dirty (R197). -/
def throughTo (s : State) (c n : Copy) : State :=
  (s.putCopy { n with data := c.data, dirty := true, holder := c.holder, va := c.va, engine := c.engine && (n.engine || !n.dirty) }).putCopy
    (c.cleaned s)

/-- A near-tier slice gives up a line: dirty copies above are written through, a dirty line is written back, and every
copy of the cluster is dropped (R340, R397). -/
def evictNear (s : State) (cluster line : Nat) : State :=
  let s := (dirtyAbove s cluster line).foldl (fun s (c : Copy) =>
    match findCopy s (.near cluster) line with
    | some n => throughTo s c n
    | none => backHome s c) s
  let s := match (findCopy s (.near cluster) line).filter (·.dirty) with
    | some n => backHome s n
    | none => s
  s.onHome fun h => { h with copies := h.copies.filter fun c => !(c.line == line &&
    (match c.at_ with
      | .l1 core => clusterOf core == cluster
      | .l1i core => clusterOf core == cluster
      | .near cl => cl == cluster
      | .far _ => false)) }

/-! ### Fills -/

/-- A die partial as what takes a way of its near-tier slice: a line number that no line has. -/
def Partial.asCopy (q : Partial) : Copy :=
  ⟨.near q.cluster, 2 ^ 60 + q.place.key, 0, 0, 0, true, q.place.owner, none, 0, q.set, q.part, false⟩

/-- Room for a line in a set of a near-tier slice under R340: copies that have expired are invalid ways, die partials take
a way each (R172), and a partial drawn as the victim is on its way to be folded (R174). -/
def makeRoom (s : State) (cluster set p owner line : Nat) : State :=
  let s := s.onHome fun h =>
    { h with copies := h.copies.filter fun f => !(f.at_ == .near cluster && f.set == set && !f.present s none) }
  let lines := (s.home.copies.filter fun f => f.at_ == .near cluster && f.set == set && f.line != line) ++
    (s.home.partials.filter fun q => q.cluster == cluster && q.set == set && q.evicted.isNone && 2 ^ 60 + q.place.key != line).map
      Partial.asCopy
  if lines.length < 24 then s
  else
    let (val, s) := s.draw owner 7 cluster
    match ((s.clusterSt cluster).quotas).victim lines p val with
    | some v =>
      if 2 ^ 60 ≤ v.line then
        let hit := fun (q : Partial) => q.cluster == cluster && 2 ^ 60 + q.place.key == v.line
        s.onHome fun h => { h with partials := lupd hit (fun q => { q with evicted := some s.now }) h.partials }
      else evictNear s cluster v.line
    | none => s

/-- A line enters a near-tier slice (R340). -/
def fillNear (s : State) (cluster owner line : Nat) (data : LineData) : State :=
  let set := nearSet s owner line
  let p := partOf (floorsOf s (cluster / 32) 5) owner
  let fresh : Copy := ⟨.near cluster, line, data, s.now, s.now + s.dev.leaseNear.setWidth 48, false, owner, none, 0, set,
    p, false⟩
  let s := s.onHome fun h =>
    { h with dir := tset h.dir line (tget 0 h.dir line ||| BitVec.twoPow 9 (cluster / 32)) }
  (makeRoom s cluster set p owner line).putCopy fresh

/-- Write a dirty copy back to the level below (R206): an L1 copy through to its near-tier slice, which then holds the
line dirty (R197); a near-tier copy to the home; a far-tier line to HBM. -/
def writeBack (s : State) (c : Copy) : State :=
  if !c.dirty then s
  else match c.at_ with
  | .l1 core =>
    let below := clusterOf core
    let s := if (findCopy s (.near below) c.line).isSome then s else fillNear s below c.owner c.line c.data
    match findCopy s (.near below) c.line with
    | some n => throughTo s c n
    | none => backHome s c
  | .near _ => backHome s c
  | .far _ => s.putCopy { c with dirty := false }
  | .l1i _ => s

/-- The utility monitor of a near-tier slice sees a lookup in a sampled set (R341). -/
def monitorNear (s : State) (cluster owner line : Nat) : State :=
  let set := nearSet s owner line
  if set % 32 != 0 then s
  else
    let p := partOf (floorsOf s (cluster / 32) 5) owner
    s.updCluster cluster fun k => { k with quotas := { k.quotas.monitor set p line 24 with done := s.dev.intervals } }

/-- A line enters an L1, which holds 512; which one a full L1 gives up is open (log entry 8). Its expiry follows from the
near-tier copy's fill stamp and the lease in force at that stamp (R86, R207). -/
def fillL1 (s : State) (a : CacheId) (c : Copy) : State :=
  let have_ := s.home.copies.filter fun d => d.at_ == a && d.line != c.line
  let s := if have_.length < 512 then s
    else match have_[Config.l1Victim s.tick % 512]? with
    | some v => (writeBack s v).dropCopy a v.line
    | none => s
  s.putCopy { c with at_ := a, expiry := c.fill + leaseL1At s c.fill, dirty := false }

/-- Where a response to a core of a die came from, as the index of a delay accumulator (R343). -/
def placeFor (s : State) (die owner pa : Nat) : Nat :=
  if inHost pa then 169
  else if inLink pa then 170
  else if homeDie (pa / 128) = die then homeSlice s owner (pa / 128) else 160 + homeDie (pa / 128)
/-- The same for the running context. -/
def placeIdx (s : State) (owner pa : Nat) : Nat := placeFor s s.dieNo owner pa

/-- A response to the running context, if it is one of its own accesses, from a serving place. -/
def State.heard (s : State) (own : Bool) (idx : Nat) : State := if own then s.response idx else s

/-- Whether a context, or the copy engine of its cluster, reads a line through the holder of its dirty near-tier copy: the
contexts of the holder's core and the engine do, and every other party reads the home's value (R206). -/
def throughHolder (c : CtxId) (engine : Bool) (n : Copy) : Bool :=
  !n.dirty || engine || (match n.holder with
    | some h => h.core == c.core
    | none => true)

/-- The near-tier copy of a line that serves a read, filled from the home where none is present: the copy, or POISON for a
marked line (R396). `own` says that the access is one of the running context's own instructions, `engine` that it is the
copy engine's; one that has `arrived` has passed the slice's queue. `oid` is the owner that it is made for. -/
def nearGet (s : State) (c : CtxId) (own engine : Bool) (owner line : Nat) (wit : Option Stamp) (arrived : Bool := false)
    (oid : Nat := (s.ctxOf c).fir.oid.toNat) : Option (Copy × State) :=
  let cl := clusterOf c.core
  if marked s owner line then none
  else
    let s := monitorNear (if arrived then s else s.pass oid [(1, cl)]) cl owner line
    match presentCopy s (.near cl) line wit with
    | some n =>
      if throughHolder c engine n then some (n, s.heard own (128 + cl % 32))
      else
        let s := reachFor s c oid owner line
        some ({ n with data := homeLine s line, fill := s.now, dirty := false, holder := none },
          s.heard own (placeIdx s owner (line * 128)))
    | none =>
      let s := s.countEv c 4 1 oid
      let s := reachFor s c oid owner line
      let s := fillNear s cl owner line (homeLine s line)
      match findCopy s (.near cl) line with
      | some n => some (n, s.heard own (placeIdx s owner (line * 128)))
      | none => none

/-- The copy that serves a PRIV or RO read of a context: the L1, else the near tier, else the home (R199, R207, R222).
`inst` reads through the instruction cache, whose fills count as no misses (R366, R452). None: the line is marked. -/
def cachedGet (s : State) (c : CtxId) (own inst : Bool) (na : Bool) (owner line : Nat) (wit : Option Stamp)
    (arrived : Bool := false) : Option (LineData × State) :=
  let a : CacheId := if inst then .l1i c.core else .l1 c.core
  if marked s owner line then none
  else match presentCopy s a line wit with
  | some k => some (k.data, s)
  | none =>
    let s := if inst then s else s.countEv c 3 1
    match nearGet s c (own && !inst) false owner line wit arrived with
    | none => none
    | some (n, t) =>
      let s := if inst then t.updCore c.core fun k => { k with perf := (s.coreSt c.core).perf } else t
      if na then some (n.data, s)
      else some (n.data, fillL1 s a n)

/-- A PRIV store of a context (R197, R206, R222): into its L1 copy, or into the near tier where it misses with NA. The
own stamp is the fill stamp of the copy written; `id` is the store's number. None: the fill met a mark. -/
def privStore (s : State) (c : CtxId) (own : Bool) (na : Bool) (owner : Nat) (va : Word) (pa : Nat) (bs : List Byte) (id : Nat) :
    Option State :=
  let line := pa / 128
  let base := va - BitVec.ofNat 64 (pa % 128)
  let into := fun (s : State) (k : Copy) =>
    ((s.putCopy { k with
      data := linePut k.data (pa % 128) bs
      dirty := true
      holder := some c
      va := base
      engine := false }).heldAlone c line).stampWrite c (some id) k.fill
  if marked s owner line then none
  else match presentCopy s (.l1 c.core) line none with
  | some k => some (into s k)
  | none =>
    let s := s.countEv c 3 1
    match nearGet s c own false owner line none with
    | none => none
    | some (n, s) =>
      if na then some (into s n)
      else
        let s := fillL1 s (.l1 c.core) n
        match findCopy s (.l1 c.core) line with
        | some k => some (into s k)
        | none => none

/-- Deliver the PRIV stores of a context at a scope (R197): cluster and die write them through to the near tier, device
and system write them back to the home. -/
def deliverPriv (s : State) (c : CtxId) (sc : Scope) : State :=
  let mine := fun (s : State) (l1 : Bool) => s.home.copies.filter fun k => k.dirty && k.holder == some c &&
    (match k.at_ with
      | .l1 _ => l1
      | .near _ => !l1
      | _ => false)
  match sc with
  | .core => s
  | .cluster => (mine s true).foldl writeBack s
  | .die => (mine s true).foldl writeBack s
  | .device => let s := (mine s true).foldl writeBack s; (mine s false).foldl writeBack s
  | .system => let s := (mine s true).foldl writeBack s; (mine s false).foldl writeBack s

/-- Drop every copy of a line in L1s and near tiers, without write-back (R239, R209). -/
def State.dropLine (s : State) (line : Nat) : State :=
  s.onHome fun h => { h with copies := h.copies.filter fun c => !(c.line == line &&
    (match c.at_ with
      | .far _ => false
      | _ => true)) }

end Sys2Proof.Machine
end

