-- ==== Sys2Proof/Machine/Cr.lean ====
section
/-! DEFINITION. Commutative-range memory: elements, contributions, die partials, folds, clears and reads
(spec/04_formats.md R113 to R119; spec/06_matrix.md R169 to R176, R188). -/

namespace Sys2Proof.Machine

/-- Bytes of a frame element (R113). -/
def crBytes (fmt : BitVec 2) : Nat :=
  match fmt.toNat with
  | 0 => 8 | 1 => 16 | _ => 4
/-- Bits of a count or value. -/
def crWidth (fmt : BitVec 2) : Nat := 8 * crBytes fmt
/-- CRX64 and CRX128. -/
def crIsX (fmt : BitVec 2) : Bool := decide (fmt.toNat < 2)

/-- Where the CR line of an accessed address lies: its frame bytes follow the page's base (R113). -/
def crPlace (l : Leaf) (va : Word) : CrPlace :=
  let off := va.toNat % 2 ^ levelShift l.level
  ⟨entryBase l.entry + off / 128 * (32 * crBytes (entryFmt l.entry)), entryFmt l.entry, entryAnchor l.entry, l.owner⟩
/-- The element of an address within its line. -/
def crElem (va : Word) : Nat := va.toNat % 128 / 4
/-- The line at whose home the CR line is kept. -/
def CrPlace.line (p : CrPlace) : Nat := p.key / 128

/-- A line whose frame holds a marked line. -/
def crMarked (s : State) (p : CrPlace) : Bool :=
  (List.range (crBytes p.fmt / 4)).any fun i => marked s p.owner (p.line + i)

/-- The join of special states (R116). -/
def CrSpec.join (a b : CrSpec) : CrSpec :=
  match a, b with
  | .none, y => y
  | x, .none => x
  | .nan, _ => .nan
  | _, .nan => .nan
  | .pinf, .pinf => .pinf
  | .ninf, .ninf => .ninf
  | .pinf, .ninf => .nan
  | .ninf, .pinf => .nan

/-- The sum of two elements in a format (R114, R116, R118, R119). An absent value is skipped. -/
def CrElem.add (fmt : BitVec 2) (a b : CrElem) : CrElem :=
  let v := match a.val, b.val with
    | none, y => y
    | x, none => x
    | some x, some y => if fmt = 2 then some (add32 x y) else some ((x + y) % 2 ^ crWidth fmt)
  ⟨v, a.st.join b.st⟩

/-- The sum of two lines. -/
def CrLine.add (fmt : BitVec 2) (a b : CrLine) : CrLine :=
  ⟨(List.range 32).map fun i => (lget {} a.elems i).add fmt (lget {} b.elems i), a.ovf || b.ovf⟩

/-- A line to which nothing has been contributed. -/
def CrLine.empty : CrLine := ⟨List.replicate 32 {}, false⟩
/-- The special states and sticky bit kept at the home. -/
def crMetaOf (s : State) (key : Nat) : CrMeta :=
  (s.home.crMeta.find? (·.key == key)).getD ⟨key, List.replicate 32 .none, false⟩

/-- The home value of a line. -/
def crHome (s : State) (p : CrPlace) : CrLine :=
  let m := crMetaOf s p.key
  let n := crBytes p.fmt
  ⟨(List.range 32).map fun i => ⟨some (leNat (memRead s.mem (p.key + n * i) n)), lget .none m.sts i⟩, m.ovf⟩

/-- Write the home value of a line. -/
def crSetHome (s : State) (p : CrPlace) (l : CrLine) : State :=
  let n := crBytes p.fmt
  let mem := (List.range 32).foldl (fun m i => memWrite m (p.key + n * i) (leBytes n ((lget {} l.elems i).val.getD 0))) s.mem
  let sts := (List.range 32).map fun i => (lget {} l.elems i).st
  let rest := s.home.crMeta.filter (·.key != p.key)
  let keep := l.ovf || sts.any (· != .none)
  { s with mem := mem, home := { s.home with crMeta := if keep then ⟨p.key, sts, l.ovf⟩ :: rest else rest } }

/-- The die partials of a line, in ascending die id. -/
def crPartials (s : State) (key : Nat) : List Partial :=
  (List.range 9).filterMap fun d => s.home.partials.find? fun q => q.die == d && q.place.key == key

/-- The home value and every die partial combined (R173). -/
def crCombined (s : State) (p : CrPlace) : CrLine :=
  (crPartials s p.key).foldl (fun l q => l.add p.fmt q.line) (crHome s p)

/-- Set or clear a die's sharer bit of a line (R172, R174). -/
def State.sharer (s : State) (line die : Nat) (on : Bool) : State :=
  let m := tget 0 s.home.dir line
  let m := if on then m ||| BitVec.twoPow 9 die else m &&& ~~~(BitVec.twoPow 9 die)
  s.onHome fun h => { h with dir := if m = 0 then tdel h.dir line else tset h.dir line m }

/-- The partial of a die for a CR line. -/
def partialOf (s : State) (die key : Nat) : Option Partial :=
  s.home.partials.find? fun q => q.die == die && q.place.key == key

/-- Fold a die partial into the home value (R174), on its way there under its page owner's streams. -/
def crFold (s : State) (die : Nat) (p : CrPlace) : State :=
  match partialOf s die p.key with
  | none => s
  | some q =>
    let key := sliceKey s p.owner p.line
    let s := s.pass p.owner (((portsTo s die (key / 128)).map fun l => (0, l)) ++ [(2, key)])
    let s := crSetHome s p ((crHome s p).add p.fmt q.line)
    (s.onHome fun h => { h with partials := h.partials.filter fun r => !(r.die == die && r.place.key == p.key) }).sharer
      p.line die false

/-- Clear a line at its home (R175): value, states and sticky bit, and every die partial. -/
def crClear (s : State) (p : CrPlace) : State :=
  let s := crSetHome s p ⟨List.replicate 32 ⟨some 0, .none⟩, false⟩
  let dies := (crPartials s p.key).map (·.die)
  dies.foldl (fun s d => s.sharer p.line d false)
    (s.onHome fun h => { h with partials := h.partials.filter fun r => r.place.key != p.key })

/-- The queues on the way of a commit of a CR line by context `c`: the near-tier slice of its die that holds the partial, and on to
the line's home directory (R172, R332). -/
def crWay (s : State) (c : CtxId) (p : CrPlace) : List (Nat × Nat) :=
  let die := dieOf c.core
  (1, partialCluster s p.owner p.line die) :: (portsTo s die (homeDie p.line)).map fun l => (0, l)

/-- Commit a line into the partial of a die (R172). A new partial takes a way of the near-tier slice that the
placement draw names (R332, R340); one that has been evicted is folded first (R174). -/
def crCommit (s : State) (die : Nat) (p : CrPlace) (clear : Bool) (l : CrLine) : State :=
  let s := if clear then crClear s p else s
  let s := if (partialOf s die p.key).any (·.evicted.isSome) then crFold s die p else s
  let cluster := partialCluster s p.owner p.line die
  let set := nearSet s p.owner p.line
  let part := partOf (floorsOf s die 5) p.owner
  let (q, s) := match partialOf s die p.key with
    | some q => ({ q with line := q.line.add p.fmt l }, s)
    | none => (⟨die, p, CrLine.empty.add p.fmt l, cluster, set, part, none⟩,
        makeRoom s cluster set part p.owner (2 ^ 60 + p.key))
  let others := s.home.partials.filter fun r => !(r.die == die && r.place.key == p.key)
  (s.onHome fun h => { h with partials := q :: others }).sharer p.line die true

/-- One group sum contributed to an element (R169), and whether round_to_grid overflowed. An integer group sum of a
CRI32 page adds modulo 2^32. An exact zero sum is +0 (log entry 10). -/
def CrElem.contribute (p : CrPlace) (a : CrElem) (x : XVal) : CrElem × Bool :=
  let special := fun (st : CrSpec) => (({ a with st := a.st.join st } : CrElem), false)
  if crIsX p.fmt then
    match x with
    | .nan => special .nan
    | .inf neg => special (if neg then .ninf else .pinf)
    | .num d =>
      let (c, o) := roundToGrid d p.anchor.toInt (crWidth p.fmt) .rne
      ({ a with val := some ((a.val.getD 0 + pat c (crWidth p.fmt)) % 2 ^ crWidth p.fmt) }, o)
  else if p.fmt = 2 then
    match a.val with
    | none => ({ a with val := some (rne32 x false) }, false)
    | some b => ({ a with val := some (rne32 ((fp32.decode b).ext.add x) false) }, false)
  else
    match x with
    | .num d => ({ a with val := some ((a.val.getD 0 + pat (d.n * 2 ^ d.e.toNat) 32) % 2 ^ 32) }, false)
    | _ => (a, false)

/-- Contribute to element `i` of a line. -/
def CrLine.contribute (p : CrPlace) (l : CrLine) (i : Nat) (x : XVal) : CrLine :=
  let (e, o) := (lget {} l.elems i).contribute p x
  ⟨l.elems.set i e, l.ovf || o⟩

/-- The value of an element as a non-raw read gives it, and whether the read clamped (R115, R117 to R119). -/
def CrElem.value (p : CrPlace) (a : CrElem) : Nat × Bool :=
  if crIsX p.fmt then
    let (c, o) := crClamp (a.val.getD 0) (crWidth p.fmt)
    let v := match a.st with
      | .nan => 0x7fc00000
      | .pinf => 0x7f800000
      | .ninf => 0xff800000
      | .none => rne32 (.num ⟨c, p.anchor.toInt⟩) false
    (v, o)
  else (a.val.getD 0 % 2 ^ 32, false)

/-- The staged entry of a CR line. -/
def stagedCr (st : List Staged) (key : Nat) : Option (Bool × CrLine) :=
  st.findSome? fun
    | .cr p clear l => if p.key = key then some (clear, l) else none
    | _ => none

/-- A CR line that all parties see as `base`, as the running context reads it (R173): with its own staged contributions and clears
while it is unexposed. -/
def crOver (s : State) (p : CrPlace) (base : CrLine) : CrLine :=
  if s.cx.staged then
    match stagedCr s.cx.staging p.key with
    | none => base
    | some (true, l) => (CrLine.mk (List.replicate 32 ⟨some 0, .none⟩) false).add p.fmt l
    | some (false, l) => base.add p.fmt l
  else base

/-- The same of the line as it is. -/
def crView (s : State) (p : CrPlace) : CrLine := crOver s p (crCombined s p)

/-- A read that clamps sets the sticky overflow bit of the line (R115): in the staging, where the line is staged by the running
context whose own read it is, as no other party sees any of that before the commit (R173; log entry 11). -/
def crSticky (s : State) (own : Bool) (p : CrPlace) : State :=
  if own && s.cx.staged && (stagedCr s.cx.staging p.key).isSome then
    s.onCx fun k => { k with staging := k.staging.map fun
      | .cr q clear l => .cr q clear (if q.key = p.key then { l with ovf := true } else l)
      | e => e }
  else
    let m := crMetaOf s p.key
    s.onHome fun h => { h with crMeta := { m with ovf := true } :: h.crMeta.filter (·.key != p.key) }

/-- A non-raw read of one element of a line by an access of context `c` (R188); `own` says that it is an access of the running
context's own instructions, which see its staging (R173). What all parties see is `base`, or the line as it is. -/
def crReadElem (s : State) (c : CtxId) (own : Bool) (p : CrPlace) (i : Nat) (base : Option CrLine := none)
    (arrived : Option Bool := none) (oid : Nat := (s.ctxOf c).fir.oid.toNat) : Nat × State :=
  let line := base.getD (crCombined s p)
  let (v, o) := (lget {} (if own then crOver s p line else line).elems i).value p
  (v, reachFor (if o then crSticky s own p else s) c oid p.owner p.line arrived)

end Sys2Proof.Machine
end

