-- ==== Sys2Proof/Machine/Mem.lean ====
section
/-! DEFINITION. Loads under the page's class, accesses on their way to a home, pending witness registers and their
delivery (spec/07_memory_model.md R189 to R212; spec/08_memory_instructions.md R221 to R225; spec/06_matrix.md R188). -/

namespace Sys2Proof.Machine

/-! ### Overlap -/

/-- Bytes from `pa` with those replaced that `data` at `spa` covers. -/
def overlayBytes (pa : Nat) (bs : List Byte) (spa : Nat) (data : List Byte) : List Byte :=
  bs.mapIdx fun i b => if spa ≤ pa + i then (data[pa + i - spa]?).getD b else b

/-- The firing's own staged stores over bytes read (R215). -/
def overlayStaged (st : List Staged) (pa : Nat) (bs : List Byte) : List Byte :=
  st.foldl (fun bs e =>
    match e with
    | .store _ spa _ _ data => overlayBytes pa bs spa data
    | .pclr _ spa _ _ none => overlayBytes pa bs spa (List.replicate 128 0)
    | _ => bs) bs

/-- The context's own access on its way that touches the bytes (R203: they take effect in program order). -/
def ownFlight (s : State) (c : CtxId) (pa n : Nat) : Option Flight :=
  s.net.flight.find? fun f => f.ctx == c && overlaps f.pa f.len pa n
/-- Whether a flight brings a line of CR memory what comes before a later access to it: PCLR, or a commit. -/
def Flight.bringsCr (f : Flight) (key : Nat) : Bool :=
  match f.kind with
  | .pclr _ (some q) => q.key == key
  | .commit es _ _ => es.any fun
    | .cr q _ _ => q.key == key
    | .pclr _ _ _ _ (some q) => q.key == key
    | _ => false
  | _ => false
/-- The context's own PCLR, commit or late load of a CR line on its way. -/
def ownClear (s : State) (c : CtxId) (p : CrPlace) : Option Flight :=
  s.net.flight.find? fun f => f.ctx == c && (f.bringsCr p.key || (f.isLoad && f.pa == p.key))
/-- The context's own REPL store, already stamped, that the replica of its die has not applied. -/
def ownRepl (s : State) (c : CtxId) (pa n : Nat) : Option ReplStore :=
  s.home.replLog.find? fun r => r.ctx == c && r.dies.contains (dieOf c.core) && overlaps r.pa r.data.length pa n

/-- What an access behind one of the context's own on its way waits for. -/
def Flight.awaited (f : Flight) : Wait := if f.isLoad then .late f.id else .writes .core (f.id + 1)

/-- What an access of the context to bytes of a page waits for, as it must take effect after the context's earlier access to
them (R203). The loads of one instruction are not ordered (R138), and a CR page serves elements of four bytes alone. -/
def busyWith (s : State) (c : CtxId) (l : Leaf) (va : Word) (n : Nat) : Option Wait :=
  let mine := fun (f : Flight) => f.isLoad && f.first == (s.ctxOf c).firstId
  if l.cls == clsCr then (if n = 4 then (ownClear s c (crPlace l va)).map Flight.awaited else none)
  else match s.net.flight.find? fun f => f.ctx == c && overlaps f.pa f.len l.pa n && !mine f with
  | some f => some f.awaited
  | none =>
    if (s.ctxOf c).aside.any fun a => a.touch.any fun t => overlaps t.1 t.2 l.pa n then some .aside
    else if l.cls == clsRepl then (ownRepl s c l.pa n).map fun r => .writes .core (r.id + 1) else none

/-! ### Loads -/

/-- A read of `n` bytes within a line under its page's class, checks passed (R200, R205 to R212, R188). `own` says that
it is an access of the running context's own instructions, which see its staging (R215), and `inst` an instruction
fetch. A request that has `arrived` has passed the queues on its way. A linked device may refuse an access to its window (R419);
over a failed link the access is lost (R394; log entry 45). `oid` is the owner that the access is made for. -/
def readBytes (s : State) (c : CtxId) (own inst na : Bool) (l : Leaf) (va : Word) (n : Nat) (wit : Option Stamp)
    (arrived : Option Bool := none) (oid : Nat := (s.ctxOf c).fir.oid.toNat) : Act (List Byte × State) :=
  let poison : Act (List Byte × State) := trapAt .poison va
  let staged := fun bs => if own && s.cx.staged then overlayStaged s.cx.staging l.pa bs else bs
  if l.cls == clsPriv || l.cls == clsRo then
    match cachedGet s c own inst na l.owner l.line wit arrived.isSome with
    | none => poison
    | some (d, s) => .ok (lineBytes d (l.pa % 128) n, s)
  else if l.cls == clsSm then
    if marked s l.owner l.line then poison
    else if inLink l.pa && s.dev.linksDown.contains (linkOf l.pa) then .error (.trap .lost (some va) (some 1))
    else if arrived.isNone && behindPort s l.pa n (s.tick + 1) 0 then .error (.wait (.turn l.line none) none)
    else if inWindow l.pa && Config.farAnswer s.tick = 1 then trapAt .perm va
    else if inLink l.pa && Config.farAnswer s.tick = 2 then poison
    else .ok (staged (memRead s.mem l.pa n),
      (reachFor s c oid l.owner l.line arrived).heard (own && !inst) (placeIdx s l.owner l.pa))
  else if l.cls == clsRepl then
    let die := dieOf c.core
    let rpa := replicaPa l.pa die
    match wit.filter fun w => after (s.dieSt die).replMark w with
    | some w => .error (.wait (.replica w false) none)
    | none =>
      if marked s l.owner (rpa / 128) then poison
      else .ok (staged (memRead s.mem rpa n),
        (reachFor s c oid l.owner (rpa / 128) arrived).heard (own && !inst) (homeSlice s l.owner (rpa / 128)))
  else if n = 4 then
    let p := crPlace l va
    if crMarked s p then poison
    else
      let (v, s) := crReadElem s c own p (crElem va) none arrived oid
      .ok (leBytes 4 v, s.heard (own && !inst) (placeIdx s p.owner p.key))
  else trapAt .crfmt va

/-- The queues on the way of an access to a physical address: to its home slice, or out of the package by its port
(R329). -/
def pathTo (s : State) (c : CtxId) (owner pa : Nat) : List (Nat × Nat) :=
  let edges := fun d => (portsTo s (startDie c) d).map fun p => (0, p)
  if inHbm pa then homePath s c (sliceKey s owner (pa / 128))
  else if inLink pa then edges (linkDie (linkOf pa)) ++ [(0, 0x400 + linkOf pa)]
  else edges 4

/-- What was read ahead is of no use to an access that comes after an own access to the bytes (R203), or to the CR line with its
key among them. -/
def Ctx.dropEarly (c : Ctx) (pa n : Nat) : Ctx :=
  { c with early := c.early.filter fun e => !overlaps e.pa (if e.cr.isSome then 1 else e.bytes.length) pa n }

/-- Put an access of the running context on its way to its home. What has its effect at the sequencer die goes there (R210, R239),
and a late load of a PRIV or RO page to its cluster's near-tier slice (R224). What the context has read ahead of the bytes of a
write is of no more use (R203). -/
def State.launch (s : State) (kind : FlightKind) (va : Word) (l : Leaf) (sc : Scope) (wit : Word)
    (earlier : Bool) : State :=
  let toSequencer := (portsTo s (startDie s.cur) s.dev.seqDie).map fun p => (0, p)
  let path := match kind with
    | .repl _ => toSequencer
    | .pclr cls none => if cls == clsRepl then toSequencer else pathTo s s.cur l.owner l.pa
    | .priv _ _ => []
    | .load _ _ _ _ near =>
      if l.cls == clsPriv || l.cls == clsRo then (if near then [(1, clusterOf s.cur.core)] else [])
      else pathTo s s.cur l.owner (if l.cls == clsRepl then replicaPa l.pa (dieOf s.cur.core) else l.pa)
    | _ => pathTo s s.cur l.owner l.pa
  let u := match kind with
    | .load _ _ _ _ _ => s
    | k => s.onCx (·.dropEarly l.pa k.len)
  u.onNet fun t =>
    { t with
      flight := t.flight ++ [⟨t.nextId, s.cx.firstId, s.cur, s.oid, kind, va, l.pa, l.owner, sc, s.cx.pc, wit, earlier, s.cx.evIdx, 0, s.tick, s.now, path, .onWay, false⟩]
      nextId := t.nextId + 1 }

/-- The part of a destination that bytes `k` to `k + n` of the load write. -/
def Dest.part (d : Dest) (k n : Nat) : Dest :=
  match d with
  | .x r m g => .x r m g
  | .v r off _ => .v r (off + k) n
  | .t r off _ => .t r (off + k) n

/-- A context with a load's bytes in their destination; the other loads into the same register go on. -/
def Ctx.putDest (c : Ctx) (d : Dest) (bs : List Byte) : Ctx :=
  let late := c.late
  let c := match d with
  | .x r n sign =>
    c.setX r (if sign then sextW (leNat bs) (8 * n) else BitVec.ofNat 64 (leNat bs))
  | .v r off _ => c.setV r (BitVec.ofNat 512 (leNat (overlayBytes 0 (leBytes 64 (c.getV r).toNat) off bs)))
  | .t r off _ => c.setT r (BitVec.ofNat 16384 (leNat (overlayBytes 0 (leBytes 2048 (c.getT r).toNat) off bs)))
  { c with late := late }

/-- The size of the aligned units in which an access of `n` bytes is single-copy atomic (R202). -/
def unitOf (n : Nat) : Nat := if n ≤ 8 then n else 8

/-- Whether a late load asks the near-tier slice for its line: the first of its instruction that does not find it in the L1. -/
def asksNear (s : State) (l : Leaf) (wit : Option Stamp) : Bool :=
  (presentCopy s (.l1 s.cur.core) l.line wit).isNone &&
    !s.net.flight.any fun f => f.ctx == s.cur && f.first == s.cx.firstId && f.pa / 128 == l.line &&
      (match f.kind with
        | .load _ _ _ _ near => near
        | _ => false)

/-- A load that is to take effect later is on its way, in aligned units of at most 8 bytes, each of which is read on its own
(R202, R203). One of CR memory goes to the frame of its line. -/
def State.linger (s : State) (va : Word) (l : Leaf) (n : Nat) (wit : Option Stamp) (na : Bool) (d : Dest) : State :=
  let unit := unitOf n
  (List.range (n / max 1 unit)).foldl (fun s i =>
    let k := unit * i
    let id := s.net.nextId
    let l := { l with pa := if l.cls == clsCr then (crPlace l va).key else l.pa + k }
    let s := s.launch (.load l.entry l.level unit na (asksNear s l wit)) (va + BitVec.ofNat 64 k) l .core (mkWit .core wit) false
    s.onCx fun c => { c with late := c.late ++ [⟨id, d.part k unit⟩] }) s

/-- What the context has read ahead of an aligned unit of a load, no earlier than every register that the instruction reads
stood (R203). -/
def Ctx.sampled (c : Ctx) (va : Word) (n : Nat) : Option Sample :=
  c.early.find? fun e => e.va == va && e.bytes.length == n && decide (c.ready ≤ e.tick)
/-- What the context has read ahead of a CR line in the same way. -/
def Ctx.sampledCr (c : Ctx) (key : Nat) : Option (CrLine × Nat) :=
  (c.early.find? fun e => e.cr.isSome && e.pa == key && decide (c.ready ≤ e.tick)).bind fun e => e.cr.map fun l => (l, e.tick)
/-- What an own load reads and when: unit by unit what was read ahead of it, else what is at hand (R202, R203). A load with a
witness reads what is at hand. -/
def aheadBytes (c : Ctx) (va : Word) (n : Nat) (wit : Option Stamp) (bs : List Byte) (tick : Nat) : List Byte × Nat :=
  if wit.isSome || c.early.isEmpty then (bs, tick)
  else
    let unit := unitOf n
    (List.range (n / max 1 unit)).foldl (fun r i =>
      match c.sampled (va + BitVec.ofNat 64 (unit * i)) unit with
      | some e => (overlayBytes 0 r.1 (unit * i) e.bytes, if n ≤ 8 then e.tick else r.2)
      | none => r) (bs, tick)

/-- The CR line that a load of the running context has read ahead of itself (R203). -/
def aheadLine (s : State) (l : Leaf) (va : Word) (n : Nat) (wit : Option Stamp) : Option (CrLine × Nat) :=
  if l.cls == clsCr && n == 4 && wit.isNone then s.cx.sampledCr (crPlace l va).key else none

/-- What a load of the running context reads as it issues, and when, its checks passed (R188, R203). -/
def readNow (s : State) (na : Bool) (l : Leaf) (va : Word) (n : Nat) (wit : Option Stamp) : Act ((List Byte × Nat) × State) :=
  let p := crPlace l va
  match aheadLine s l va n wit with
  | some (line, tick) =>
    if crMarked s p then trapAt .poison va
    else
      let (v, t) := crReadElem s s.cur true p (crElem va) (some line)
      .ok ((leBytes 4 v, tick), t.heard true (placeIdx s p.owner p.key))
  | none => do
    let (bs, t) ← readBytes s s.cur true false na l va n wit
    .ok (aheadBytes t.cx va n wit bs t.tick, t.onCx (·.dropEarly (if l.cls == clsCr then p.key else l.pa) n))

/-- mem_read (R89): a load of the running context, with every check of R221. A load with a destination may take effect
later, where the context's next load is to: what it reads at issue then leaves nothing, and stands only where it can be served no
more (log entry 37). -/
def loadBytes (s : State) (va : Word) (n : Nat) (wit : Option Stamp) (na : Bool) (d : Option Dest := none) :
    Act (List Byte × State) := do
  let (l, s) ← s.check va n .r
  match busyWith s s.cur l va n with
  | some w => .error (.wait w none)
  | none => do
    let ((bs, tick), t) ← readNow s na l va n wit
    match d.filter fun _ => s.cx.lag with
    | some d =>
      .ok (bs, ((s.sealFrame s.who l.entry l.pa).onCx fun k => { k.dropEarly l.pa n with wrote := max k.wrote s.tick }).linger
        va l n wit na d)
    | none => .ok (bs, (t.sealFrame t.who l.entry l.pa).onCx fun k => { k with wrote := max k.wrote tick })

/-- A load of the running context reads bytes, an aligned unit or a line of CR memory ahead of its place in program order, which
leaves no trace that another party can see (R204). -/
def State.readAhead (s : State) (va : Word) (n : Nat) : State :=
  match s.check va n .r with
  | .error _ => s
  | .ok (l, t) =>
    if l.cls == clsCr then
      let p := crPlace l va
      if (ownClear t t.cur p).isSome || crMarked t p then s
      else s.onCx fun c =>
        { c.dropEarly p.key (crFrame l.entry) with early := c.early ++ [⟨va, p.key, [], s.tick, some (crCombined t p)⟩] }
    else if (busyWith t t.cur l va n).isSome then s
    else match readBytes t t.cur true false true l va n none with
    | .error _ => s
    | .ok (bs, _) => s.onCx fun c => { c.dropEarly l.pa n with early := c.early ++ [⟨va, l.pa, bs, s.tick, none⟩] }

/-- A load of a little-endian number. -/
def loadNat (s : State) (va : Word) (n : Nat) (wit : Option Stamp) (na : Bool) (d : Option Dest := none) :
    Act (Nat × State) := do
  let (bs, s) ← loadBytes s va n wit na d
  .ok (leNat bs, s)

/-- A record read once, as aligned 8-byte loads (R276, R315, R356): `k` doublewords from `va`. -/
def loadWords (s : State) (va : Word) (wit : Option Stamp) : (k : Nat) → Act (List Byte × State)
  | 0 => .ok ([], s)
  | k + 1 => do
    let (bs, s) ← loadBytes s va 8 wit false
    let (rest, s) ← loadWords s (va + 8) wit k
    .ok (bs ++ rest, s)

/-- The writes of the Langor itself to a REPL page that a die's replica has not applied, over bytes read there: it sees its own
writes (R203, R210). -/
def overLangor (s : State) (die : Nat) (l : Leaf) (bs : List Byte) : List Byte :=
  if l.cls == clsRepl then
    (s.home.replLog.filter fun r => r.ctx.which == 3 && r.dies.contains die).foldl (fun bs r => overlayBytes l.pa bs r.pa r.data) bs
  else bs

/-- Checks and reads bytes for another party than the running context: an engine, an aperture or the Langor itself, in
the name of context `c`. -/
def partyRead (s : State) (c : CtxId) (w : Who) (va : Word) (n : Nat) (wit : Option Stamp) (payer : Nat := w.oid) :
    Act (List Byte × State) := do
  let (l, s) ← (check s c w va n .r payer).act
  let (bs, s) ← readBytes s c false false true l va n wit none payer
  .ok (overLangor s (dieOf c.core) l bs, s.sealFrame w l.entry l.pa)

/-! ### Pending registers (R196) -/

/-- Make a register pending with the witness of the writes issued so far (R196); x0 discards it. A null witness is
still written only once the writes are delivered (R198). -/
def State.pendWitness (s : State) (r : XReg) (sc : Scope) (null : Bool) : State :=
  if r = 0 then s
  else s.onCx fun k =>
    { k with pend := k.pend.filter (·.reg != r) ++ [{ reg := r, mark := s.net.nextId, own := k.firstId, stamp := k.runMax, scope := sc, null := null }] }

/-- Make a register pending with the answer of an access on its way (R230). -/
def State.pendResult (s : State) (r : XReg) (id : Nat) : State :=
  if r = 0 then s
  else s.onCx fun k =>
    { k with pend := k.pend.filter (·.reg != r) ++
        [{ reg := r, mark := id + 1, stamp := none, scope := .core, result := some id }] }

/-- A pending register that may now be written (R196). -/
def pendReady (s : State) (c : CtxId) (p : Pend) : Bool :=
  match p.result with
  | some _ => p.value.isSome
  | none => delivered s c p.mark p.scope

/-- Write a pending register: the answer, or the witness once its PRIV stores are pushed as far as the scope says
(R196, R197); the null witness in an unexposed recoverable firing (R198). -/
def deliverPend (s : State) (c : CtxId) (p : Pend) : State :=
  match p.result with
  | some _ => s.updCtx c fun k => { k with wrote := s.tick }.setX p.reg (p.value.getD 0)
  | none =>
    let s := (deliverPriv s c p.scope).stampLeft c p.mark p.scope
    s.updCtx c fun k =>
      let st := ((k.pend.find? (·.reg == p.reg)).map (·.stamp)).getD p.stamp
      { k with wrote := s.tick }.setX p.reg (if p.null then 0 else mkWit p.scope st)

end Sys2Proof.Machine
end

