-- ==== Sys2Proof/Machine/Tasks.lean ====
section
/-! DEFINITION. Levels, deques, triggers, counters, system events, trace and the replay log (spec/10_progress.md R275 to
R291; spec/11_sync_instructions.md R304 to R314; spec/14_recovery.md R405 to R415). -/

namespace Sys2Proof.Machine

/-! ### Writes of the Langor itself -/

/-- The dies whose replicas the sequencer reaches (R210). -/
def replicaDies (s : State) : List Nat := (List.range 9).filter fun d => !s.home.dieLost.contains d

/-- Bytes written at the home of a page whatever its class but RO and CR, which refuse (R419's classes): those of a REPL page pass
through the sequencer, which stamps and multicasts them (R10, R210). -/
def homePut (s : State) (c : CtxId) (l : Leaf) (bs : List Byte) : State :=
  let c : CtxId := ⟨c.core, 3⟩
  if l.cls == clsRepl then
    let id := s.net.nextId
    (s.onNet fun t => { t with nextId := id + 1 }).onHome fun h =>
      { h with replLog := h.replLog ++ [⟨id, id, c, s.now, l.pa, l.owner, bs, replicaDies s, false⟩] }
  else writeHome s c l.owner l.pa bs

/-- A page whose line is marked, for a REPL page at the sequencer die (R226, R396). -/
def leafMarked (s : State) (l : Leaf) : Bool :=
  marked s l.owner ((if l.cls == clsRepl then replicaPa l.pa s.dev.seqDie else l.pa) / 128)

/-- A free frame is sealed by an access that its line's mark does not stop (R221, R350). -/
def State.sealLeaf (s : State) (w : Who) (l : Leaf) : State := if leafMarked s l then s else s.sealFrame w l.entry l.pa

/-- A checked write for another party than the running context. -/
def partyWrite (s : State) (c : CtxId) (w : Who) (va : Word) (bs : List Byte) : Chk State := do
  let (l, s) ← check s c w va 1 .w
  if l.cls == clsRo then .error ⟨.class_, some va, none⟩
  else if l.cls == clsCr then .error ⟨.crfmt, some va, none⟩
  else if leafMarked s l then .error ⟨.poison, some va, none⟩
  else .ok ((homePut s c l bs).sealFrame w l.entry l.pa)

/-! ### Trace (R405 to R407) -/

/-- A trace record (R405). -/
def traceWord (kind payload : Nat) (c : CtxId) (t : Stamp) : List Byte :=
  leBytes 16 (kind * 2 ^ 120 + payload % 2 ^ 56 * 2 ^ 64 + dieOf c.core * 2 ^ 60 + clusterOf c.core % 32 * 2 ^ 55 +
    indexOf c.core * 2 ^ 52 + c.which % 4 * 2 ^ 50 + t.toNat)

/-- Whether a party may see the state of an owner: owner 0, or the host, needs a grant of a sealed one that names it (R353). -/
def OwnerSt.shownTo (o : OwnerSt) (host : Bool) : Bool := !o.isSealed || (if host then o.grantHost else o.grant0)

/-- Whether the state of an owner may be given to an opener of a session or a log: a sealed owner's to owner 0 under a grant
that names it, to itself under any (R353, R365, R368). -/
def OwnerSt.granted (o : OwnerSt) (opener : Nat) : Bool := o.shownTo false || (opener != 0 && o.grantHost)

/-- A trace record goes to memory on a channel of its own, and all that it draws, its walk's reads and fills among it, is owner 0's
(R336): its page is checked as any write's, and no cache takes the line. -/
def traceWrite (s : State) (c : CtxId) (opener : Nat) (va : Word) (bs : List Byte) : Chk State := do
  let w : Who := ⟨opener, true, c.core, false⟩
  let (l, s) ← check s c w va 1 .w 0
  if l.cls == clsRo then .error ⟨.class_, some va, none⟩
  else if l.cls == clsCr then .error ⟨.crfmt, some va, none⟩
  else if marked s l.owner l.line then .error ⟨.poison, some va, none⟩
  else
    let pas := if l.cls == clsRepl then (List.range 9).map (replicaPa l.pa) else [l.pa]
    let s := s.pass 0 (pathTo s c l.owner l.pa ++ if inHbm l.pa then [(3, sliceKey s l.owner l.line)] else [])
    .ok ({ s with mem := pas.foldl (fun m a => memWrite m a bs) s.mem }.sealFrame w l.entry l.pa)

/-- Write a record into the open session of an owner, if it has one: only timestamps and marks of a sealed owner that has
granted the opener nothing, and none into the last 32 bytes (R353, R406, R407). -/
def State.trace (s : State) (oid kind payload : Nat) (c : CtxId) : State :=
  let o := s.ownerSt oid
  match o.trace with
  | none => s
  | some t =>
    let hidden := !o.granted t.opener && !(kind == 1 || kind == 9 || kind == 10 || kind == 11)
    if hidden then s
    else
      let closing := kind == 9 || kind == 10 || kind == 11
      let drop := s.updOwner oid fun o => { o with trace := some { t with dropped := t.dropped + 1 } }
      if !closing && t.size < t.written + 16 + 32 then drop
      else
        match traceWrite s c t.opener (t.buf + BitVec.ofNat 64 t.written) (traceWord kind payload c s.now) with
        | .error _ => drop
        | .ok s => s.updOwner oid fun o => { o with trace := some { t with written := t.written + 16, total := t.total + 1 } }

/-! ### System events -/

/-- A system event about the firing of context `c` (R415). -/
def State.firingEvent (s : State) (c : CtxId) (kind cause index addr : Nat) : State :=
  let k := s.ctxOf c
  s.sysEvent ⟨kind, k.fir.oid.toNat, cause, k.fir.fid, c.core, c.which, index, addr, s.now⟩
/-- A system event about an owner. -/
def State.ownerEvent (s : State) (kind oid : Nat) (fid : BitVec 32) (core index addr : Nat) : State :=
  s.sysEvent ⟨kind, oid, 0, fid, core, 0, index, addr, s.now⟩

/-! ### The replay log (R409 to R413) -/

/-- A log entry (R410). -/
structure LogEntry where
  kind : Nat
  key : Nat
  fid : Nat
  idx : Nat
  sig : Nat
  deriving DecidableEq, Repr

/-- A read of an owner's log, by its opener's tables and on owner 0's channel and share, as the log is written (R409). -/
def logRead (s : State) (oid off n : Nat) : Act (List Byte × State) :=
  let r := (s.ownerSt oid).rpl
  partyRead s s.cur ⟨r.opener, true, s.cur.core, false⟩ (r.log + BitVec.ofNat 64 off) n none 0

/-- Entry `i` of an owner's log. What its read draws is drawn when an event uses the entry (log entry 38). -/
def logEntry (s : State) (oid i : Nat) : Option LogEntry :=
  match logRead s oid (64 + 32 * i) 32 with
  | .ok (bs, _) =>
    some ⟨leNat (bs.take 1), leNat ((bs.drop 8).take 8), leNat ((bs.drop 16).take 4), leNat ((bs.drop 20).take 4),
      leNat (bs.drop 24)⟩
  | .error _ => none

/-- The number of entries that an owner's log holds. -/
def logCount (s : State) (oid : Nat) : Nat :=
  match logRead s oid 8 8 with
  | .ok (bs, _) => min (leNat bs) (((s.ownerSt oid).rpl.size - 64) / 32)
  | .error _ => 0

/-- The first entry that satisfies `p` and is not used, with its number. -/
def logNext (s : State) (oid : Nat) (p : LogEntry → Bool) : Option (Nat × LogEntry) :=
  let r := (s.ownerSt oid).rpl
  (List.range (logCount s oid)).findSome? fun i =>
    if r.used.contains i then none
    else match logEntry s oid i with
    | some e => if p e then some (i, e) else none
    | none => none

/-- Append an entry to the log of an owner being recorded; a full log stops the recording (R410). It is written on owner 0's
channel and share (R409). -/
def logAppend (s : State) (oid : Nat) (e : LogEntry) : State :=
  let r := (s.ownerSt oid).rpl
  if r.mode != 1 then s
  else if r.size < 64 + 32 * (r.count + 1) then
    (s.updOwner oid fun o => { o with rpl := { o.rpl with full := true, mode := 0 } }).ownerEvent 14 oid 0 s.cur.core 0 0
  else
    let bs := leBytes 1 e.kind ++ List.replicate 7 0 ++ leBytes 8 e.key ++ leBytes 4 e.fid ++ leBytes 4 e.idx ++ leBytes 8 e.sig
    let put := fun (s : State) (off : Nat) (bs : List Byte) =>
      match traceWrite s s.cur r.opener (r.log + BitVec.ofNat 64 off) bs with
      | .ok s => s
      | .error _ => s
    let s := put s (64 + 32 * r.count) bs
    let s := put s 0 ([1, 0, 0, 0] ++ leBytes 4 oid ++ leBytes 8 (r.count + 1))
    s.updOwner oid fun o => { o with rpl := { o.rpl with count := r.count + 1 } }

/-- Mark a log entry used in replay, and read it. -/
def useEntry (s : State) (oid i : Nat) : State :=
  let s := match logRead s oid (64 + 32 * i) 32 with
    | .ok (_, s) => s
    | .error _ => s
  s.updOwner oid fun o => { o with rpl := { o.rpl with used := i :: o.rpl.used, count := o.rpl.count + 1 } }

/-- A firing's event differs from its logged one (R413); the first such index is kept. -/
def noteDiffer (s : State) (oid fid idx : Nat) : State :=
  s.updOwner oid fun o =>
    if (tfind o.rpl.differ fid).isSome then o else { o with rpl := { o.rpl with differ := tset o.rpl.differ fid idx } }

/-- Fold a value into the path signature of a context's firing (R411). -/
def State.foldSig (s : State) (c : CtxId) (h : Word) : State :=
  s.updCtx c fun k => { k with sig := rotl64 k.sig 13 ^^^ h }

/-- A recordable event of a context's firing: it takes the next event index and folds into the path signature (R409,
R411). -/
def recordEvent (s : State) (c : CtxId) (kind : Nat) : State :=
  let k := s.ctxOf c
  (s.foldSig c (BitVec.ofNat 64 (kind * 2 ^ 56 + k.evIdx))).updCtx c fun k => { k with evIdx := (k.evIdx + 1) % 2 ^ 32 }

/-- Whether an event of a line may take effect now: in replay, only as the next entry of the line (R412), unless it was
released (R413). -/
def lineTurn (s : State) (oid line kind fid idx id : Nat) : Bool :=
  let r := (s.ownerSt oid).rpl
  if r.mode != 2 then true
  else
    match logNext s oid fun e => (e.kind == 3 || e.kind == 4 || e.kind == 5) && e.key == line * 128 with
    | none => true
    | some (_, e) => (e.kind == kind && e.fid == fid && e.idx == idx) || r.released.contains id

/-- An event of a line takes effect: logged in record, consumed in replay, and compared (R409, R413). -/
def lineEvent (s : State) (oid line kind fid idx : Nat) : State :=
  let r := (s.ownerSt oid).rpl
  if r.mode = 1 then logAppend s oid ⟨kind, line * 128, fid, idx, s.now.toNat⟩
  else if r.mode = 2 then
    match logNext s oid fun e => (e.kind == 3 || e.kind == 4 || e.kind == 6) && e.fid == fid && e.idx == idx with
    | some (i, e) =>
      let s := useEntry s oid i
      if e.kind == kind && e.key == line * 128 then s else noteDiffer s oid fid idx
    | none =>
      match logNext s oid fun e => e.kind == 5 && kind == 5 && e.key == line * 128 && e.idx == idx with
      | some (i, _) => useEntry s oid i
      | none => if kind = 5 then s else noteDiffer s oid fid idx
  else s

/-- Whether the reserved bytes of the entries of an owner's log are all 0 (R6, R410). An entry that cannot be read is passed over
(log entry 47). -/
def logClean (s : State) (oid : Nat) : Bool :=
  (List.range (logCount s oid)).all fun i =>
    match logRead s oid (64 + 32 * i) 8 with
    | .ok (bs, _) => leNat (bs.drop 1) == 0
    | .error _ => true

/-- The firing number of a new firing (R83); in replay, the one that its PUSH or FIRE entry names (R412). A PUSH that the log
does not hold at this index of the pusher differs (R413). -/
def newFid (s : State) (oid kind key idx : Nat) : BitVec 32 × State :=
  let o := s.ownerSt oid
  let fresh : BitVec 32 × State := (o.nextFid, s.updOwner oid fun o => { o with nextFid := o.nextFid + 1 })
  if o.rpl.mode = 2 then
    match logNext s oid fun e => e.kind == kind && e.key == key with
    | some (i, e) =>
      let s := useEntry s oid i
      (BitVec.ofNat 32 e.fid, if kind = 1 && e.idx != idx then noteDiffer s oid (key % 2 ^ 32) idx else s)
    | none => (fresh.1, if kind = 1 then noteDiffer fresh.2 oid (key % 2 ^ 32) idx else fresh.2)
  else
    let (f, s) := fresh
    (f, logAppend s oid ⟨kind, key, f.toNat, idx, s.now.toNat⟩)

/-! ### The level engine (R286, R287) -/

/-- The address of a level-table entry (R277, R303). -/
def levelVa (s : State) (oid idx : Nat) : Word := (s.ownerSt oid).savearea + BitVec.ofNat 64 (0x50000000 + 16 * idx)

/-- A level-table entry: its low half, its completion witness, and where it lies. -/
structure Level where
  lo : Word
  wit : Word
  leaf : Leaf
  deriving DecidableEq, Repr

def Level.kind (l : Level) : Nat := fieldN l.lo 63 62
def Level.cancelled (l : Level) : Bool := l.lo.getLsbD 61
def Level.isOpen (l : Level) : Bool := l.lo.getLsbD 60
def Level.parent (l : Level) : Nat := fieldN l.lo 59 48
def Level.lostf (l : Level) : Bool := l.lo.getLsbD 47
def Level.count (l : Level) : Nat := fieldN l.lo 31 0
/-- An entry as an instruction reads it: its res0 bits read as zero (R5, R277). -/
def Level.shown (l : Level) : Word := l.lo &&& ~~~(BitVec.ofNat 64 (0x7fff * 2 ^ 32))

/-- Read an entry at its home as the level engine does, for the level's owner: translation, seal, the reserved classes (R27), the
class of a window's leaf (R417) and marks are checked; permissions are the engine's own. The response to an instruction of the
running context counts (R343). -/
def levelGet (s : State) (c : CtxId) (oid idx : Nat) : Chk (Level × State) := do
  let va := levelVa s oid idx
  let (l, s) ← translate s c oid va
  let w : Who := ⟨oid, true, c.core, false⟩
  if !sealOk s w l.entry l.pa then .error ⟨.sealed, some va, none⟩
  else if decide (5 ≤ l.cls.toNat) || (inWindow l.pa && l.cls != clsSm) then .error ⟨.class_, some va, none⟩
  else if marked s l.owner l.line then .error ⟨.poison, some va, none⟩
  else
    let bs := memRead s.mem l.pa 16
    let s := (reachFor s c oid l.owner l.line).sealFrame w l.entry l.pa
    .ok (⟨BitVec.ofNat 64 (leNat (bs.take 8)), BitVec.ofNat 64 (leNat (bs.drop 8)), l⟩,
      s.heard (c == s.cur) (placeIdx s l.owner l.pa))

/-- Write an entry at its home. -/
def levelPut (s : State) (c : CtxId) (l : Level) : State :=
  writeHome s ⟨c.core, 3⟩ l.leaf.owner l.leaf.pa (leBytes 8 l.lo.toNat ++ leBytes 8 l.wit.toNat)

/-- The low half with another count. -/
def withCount (lo : Word) (n : Nat) : Word := (lo.extractLsb' 32 32) ++ BitVec.ofNat 32 n

/-- Whether a level's count is at its limit (R287). -/
def Level.isFull (l : Level) : Bool := decide (l.count + 1 ≥ 2 ^ 32 - 1)
/-- An entry that has been read counts one more. -/
def levelRise (s : State) (c : CtxId) (l : Level) : State := levelPut s c { l with lo := withCount l.lo (l.count + 1) }
/-- count_add(level, −1) of what has just been counted (R304): the entry is again as it was read. -/
def levelFall (s : State) (c : CtxId) (oid : Nat) (l : Level) : State :=
  levelPut (reachFor s c oid l.leaf.owner l.leaf.line) c l
/-- count_add(level, 1) (R304): refused at the limit (R287). -/
def levelAdd (s : State) (c : CtxId) (oid idx : Nat) : Chk (Bool × State) := do
  let (l, s) ← levelGet s c oid idx
  .ok (if l.isFull then (false, s) else (true, levelRise s c l))

/-- A decrement with its completion witness (R287): at 0 the level closes and its parent's count falls, with WIT and
LOSTF. A chain has at most four levels. -/
def levelDec (c : CtxId) (oid : Nat) : (fuel : Nat) → State → Nat → Word → Bool → Chk State
  | 0, s, _, _, _ => .ok s
  | fuel + 1, s, idx, wit, lost => do
    let (l, s) ← levelGet s c oid idx
    let n := (l.count + (2 ^ 32 - 1)) % 2 ^ 32
    let w := witnessMax l.wit wit
    let lf := l.lostf || lost
    let lo := withCount l.lo n
    let lo := if lf then lo ||| BitVec.twoPow 64 47 else lo
    if n = 0 then
      let s := levelPut s c { l with lo := lo &&& ~~~(BitVec.twoPow 64 60), wit := w }
      if l.kind = 3 then .ok s else levelDec ⟨c.core, 3⟩ oid fuel s l.parent w lf
    else .ok (levelPut s c { l with lo := lo, wit := w })

/-- A decrement by the Langor itself, whose failure nothing reports. -/
def levelDrop (s : State) (c : CtxId) (oid idx : Nat) (wit : Word) (lost : Bool) : State :=
  match levelDec c oid 4 s idx wit lost with
  | .ok s => s
  | .error _ => s.walked c oid (levelVa s oid idx)

/-- Whether a launch is cancelled, as the core that drops or pushes a record reads it. -/
def launchCancelled (s : State) (c : CtxId) (oid idx : Nat) : Bool × State :=
  match levelGet s c oid idx with
  | .ok (l, s) => (l.cancelled, s)
  | .error _ => (false, s.walked c oid (levelVa s oid idx))

/-! ### Deques (R278 to R282) -/

/-- Fields of a task record (R275). -/
def recEntry (r : BitVec 512) : Word := r.extractLsb' 0 64
def recArg (r : BitVec 512) : Word := r.extractLsb' 64 64
def recTcnt (r : BitVec 512) : Word := r.extractLsb' 128 64
def recPrio (r : BitVec 512) : BitVec 2 := r.extractLsb' 192 2
def recRearm (r : BitVec 512) : Bool := r.getLsbD 194
def recRec (r : BitVec 512) : Bool := r.getLsbD 195
def recOwner (r : BitVec 512) : Nat := recN r 211 204
def recLaunch (r : BitVec 512) : Nat := recN r 223 212
def recThresh (r : BitVec 512) : Nat := recN r 255 224

/-- A class of a deque's entries: the highest present. -/
def topPrio (d : List DequeEntry) : Nat := d.foldl (fun m e => max m (recPrio e.record).toNat) 0

/-- The index of the oldest, or of the youngest, entry of the highest class. -/
def pickEntry (d : List DequeEntry) (young : Bool) : Option Nat :=
  let p := topPrio d
  let is := (List.range d.length).filter fun i => ((d[i]?).map fun e => (recPrio e.record).toNat) == some p
  if young then is.getLast? else is.head?

/-- A core's deque holds these entries. -/
def State.setDeque (s : State) (core : Nat) (d : List DequeEntry) : State :=
  s.updCore core fun k => { k with deque := d, hw := d.countP (·.spill.isNone) }

/-- Where a record of a core lies in the spill region of the core's owner (R277). -/
def spillVa (s : State) (core n : Nat) : Word :=
  (s.ownerSt (s.coreOwner core)).savearea + BitVec.ofNat 64 (0x40000000 + core * 65536 + 64 * n)

/-- The spill region's accessor: its owner at this core. -/
def spillWho (s : State) (core : Nat) : Who := ⟨s.coreOwner core, true, core, false⟩

/-- The oldest records that the hardware holds move to the spill region, as many as asked; none where a write there meets a
fault (R278). -/
def spillOldest (core : Nat) : (n : Nat) → State → Option State
  | 0, s => some s
  | n + 1, s =>
    let d := (s.coreSt core).deque
    match d.findIdx? (·.spill.isNone), (List.range 1024).find? fun p => !d.any fun e => e.spill == some p with
    | some i, some p =>
      match d[i]? with
      | none => some s
      | some e =>
        match partyWrite s ⟨core, 0⟩ (spillWho s core) (spillVa s core p) (leBytes 64 e.record.toNat) with
        | .error _ => none
        | .ok s => spillOldest core n (s.setDeque core (d.set i { e with spill := some p }))
    | _, _ => some s

/-- An entry as it is when it leaves the spill region: its record is read from there. What a fault of that read does is open
(log entry 27). -/
def readSpilled (s : State) (core : Nat) (e : DequeEntry) : DequeEntry × State :=
  match e.spill with
  | none => (e, s)
  | some p =>
    match partyRead s ⟨core, 0⟩ (spillWho s core) (spillVa s core p) 64 none with
    | .ok (bs, s) => ({ e with record := BitVec.ofNat 512 (leNat bs), spill := none }, s)
    | .error _ => ({ e with spill := none }, s)

/-- The youngest spilled records move back, as many as asked (R278). -/
def moveBack (core : Nat) : (n : Nat) → State → State
  | 0, s => s
  | n + 1, s =>
    let d := (s.coreSt core).deque
    match ((List.range d.length).filter fun i => (d[i]?).any (·.spill.isSome)).getLast? with
    | none => s
    | some i =>
      match d[i]? with
      | none => s
      | some e =>
        let (e, s) := readSpilled s core e
        moveBack core n (s.setDeque core (d.set i e))

/-- A core's deque loses the entry at an index. Sixteen entries move back from the spill region when the hardware holds
fewer than 16 (R278). -/
def dequeTake (s : State) (core i : Nat) : State :=
  let s := s.setDeque core (dropAt (s.coreSt core).deque i)
  if (s.coreSt core).hw < 16 then moveBack core 16 s else s

/-- Whether a context of a core is free to start a record; a failed core starts none (R399). -/
def hasFree (s : State) (core : Nat) : Bool :=
  !(s.coreSt core).failed && ((s.ctxOf ⟨core, 0⟩).life == .free || (s.ctxOf ⟨core, 1⟩).life == .free)

/-- The nearest core of an owner by die hop count, then the lowest number, among those that satisfy `p` (R282). -/
def nearestCore (s : State) (from_ oid : Nat) (p : Nat → Bool) : Option Nat :=
  let cs := (s.coresOf oid).filter p
  (List.range 5).findSome? fun h => cs.find? fun c => hops (dieOf from_) (dieOf c) == h

/-- A push to a deque whose core has no free context wakes one sleeping core of the owner that has not failed (R282), and ends the IDLE of
the core's contexts (R370). -/
def wakeOnPush (s : State) (core oid : Nat) : State :=
  let wake := fun (k : Ctx) => if k.wait = some (.idle false) then { k with wait := some (.idle true) } else k
  let s := (s.updCtx ⟨core, 0⟩ wake).updCtx ⟨core, 1⟩ wake
  if hasFree s core then s
  else match nearestCore s core oid fun c => (s.coreSt c).asleep && !(s.coreSt c).failed with
  | some c => s.updCore c fun k => { k with asleep := false }
  | none => s

/-- A push onto a core's deque, at its young or its old end; none where it is refused: a place that is absent or of
another owner, 1,088 records present, or a fault on the spill region (R278, R345). A push that finds the hardware entries full
moves the 16 oldest out; what goes to the old end of a deque that has spilled goes to the spill region itself. -/
def pushDeque (s : State) (core oid : Nat) (e : DequeEntry) (old : Bool) : Option State :=
  let k := s.coreSt core
  if !(s.place core).present || s.coreOwner core != oid || 1088 ≤ k.deque.length then none
  else
    let t := s.setDeque core (if old then e :: k.deque else k.deque ++ [e])
    let t := if old && k.deque.any (·.spill.isSome) then spillOldest core 1 t
      else if 64 ≤ k.hw then spillOldest core 16 t else some t
    t.map fun s => wakeOnPush s core oid

/-- A push that, where it is refused, stays pending at the core (R278, R291). -/
def pushOrPend (s : State) (core oid : Nat) (e : DequeEntry) (old : Bool) (trig : Option Nat) : State :=
  match pushDeque s core oid e old with
  | some s => s
  | none => s.updCore core fun k => { k with pendPush := k.pendPush ++ [⟨e, trig⟩] }

/-! ### Presenting records (R276, R304) -/

/-- The core onto whose deque a record of an owner goes when core `from_` presents it (R304). -/
def pushTarget (s : State) (from_ oid : Nat) : Nat :=
  if s.coreOwner from_ = oid then from_ else (nearestCore s from_ oid fun _ => true).getD from_

/-- SPAWN's queueing (R304): the launch is checked and counted, and the record is pushed; the status. -/
def spawnRecord (s : State) (c : CtxId) (record : BitVec 512) (addr startWit : Word) : Chk (Nat × State) := do
  let oid := recOwner record
  let launch := recLaunch record
  let (l, s) ← levelGet s c oid launch
  if !l.isOpen || l.kind != 0 then .ok (1, s)
  else if l.cancelled then .ok (3, s)
  else if l.isFull then .ok (2, s)
  else
    let s := levelRise s c l
    let target := pushTarget s c.core oid
    let k := s.ctxOf c
    let fid := k.fir.fid.toNat
    let me := k.fir.oid.toNat
    let num := tget 0 (s.ownerSt me).pushNo fid
    let push := fun (s : State) (f : BitVec 32) =>
      pushDeque s target oid { record := record, addr := addr, startWit := startWit, fid := f } false
    match push s 0 with
    | none => .ok (2, levelFall s c oid l)
    | some _ =>
      let (f, t) := newFid s oid 1 (num * 2 ^ 32 + fid) k.evIdx
      let t := (recordEvent t c 1).updOwner me fun o => { o with pushNo := tset o.pushNo fid (num + 1) }
      match push t f with
      | none => .ok (2, levelFall s c oid l)
      | some t => .ok (0, t)

/-! ### Triggers and counters (R283 to R285) -/

/-- The check of R284 at a watched counter: fires are sent to the arming core, each taking THRESH from the counter. -/
def triggerCheck (s : State) (c : CtxId) (owner pa : Nat) : State :=
  match s.home.watches.find? (·.pa == pa) with
  | none => s
  | some w =>
    let n := leNat (memRead s.mem pa 8)
    if n < w.thresh || w.thresh = 0 then s
    else
      match (s.coreSt w.core).trig.find? fun t => t.idx == w.idx with
      | none => s
      | some t =>
        let k := if w.rearm then n / w.thresh else 1
        let s := writeHome s c owner pa (leBytes 8 (n - k * w.thresh))
        let s := (List.range k).foldl (fun s _ =>
          let (f, s) := newFid s w.oid 2 pa 0
          s.onHome fun h => { h with fires := h.fires ++ [⟨w.core, w.idx, w.oid, t.record, t.addr, w.wit, f⟩] }) s
        if w.rearm then s
        else (s.onHome fun h => { h with watches := h.watches.filter (·.pa != pa) }).updCore w.core fun k =>
          { k with trig := lupd (fun (t : TrigEntry) => t.idx == w.idx) (fun t => { t with live := false }) k.trig }

/-- A counter message is applied at its home (R283, R309): the add, the counter witness, and the check. -/
def counterApply (s : State) (c : CtxId) (owner pa : Nat) (amount wit : Word) : State :=
  let n := (leNat (memRead s.mem pa 8) + amount.toNat) % 2 ^ 64
  let s := writeHome s c owner pa (leBytes 8 n)
  let s := s.onHome fun h =>
    { h with watches := lupd (fun (w : Watch) => w.pa == pa) (fun w => { w with wit := witnessMax w.wit wit }) h.watches }
  triggerCheck s c owner pa

/-- A trigger entry whose watch is gone is freed once no fire of it is on its way or pending (R285). -/
def freeTrig (s : State) (core idx : Nat) : State :=
  let fires := s.home.fires.any fun f => f.core == core && f.idx == idx
  let pends := s.cores.any fun p => p.2.pendPush.any fun q => q.trig == some (core * 256 + idx)
  if fires || pends then s
  else s.updCore core fun k => { k with trig := k.trig.filter fun t => !(t.idx == idx && !t.live) }

/-- A fire reaches the arming core, which pushes its record (R284): a record of a cancelled launch is dropped (R289);
the fire of a re-arming entry adds 1 to the launch's count, and where that is refused the push stays pending. -/
def firePush (s : State) (f : Fire) (rearm : Bool) : State :=
  let c : CtxId := ⟨f.core, 3⟩
  let launch := recLaunch f.record
  let target := pushTarget s f.core f.oid
  let e : DequeEntry := { record := f.record, addr := f.addr, startWit := f.wit, fid := f.fid }
  let trig := some (f.core * 256 + f.idx)
  let (gone, s) := launchCancelled s c f.oid launch
  if gone then
    if rearm then s else levelDrop s c f.oid launch 0 false
  else if rearm then
    match levelAdd s c f.oid launch with
    | .ok (true, s) => pushOrPend s target f.oid e false trig
    | _ => s.onHome fun h => { h with fires := h.fires ++ [f] }
  else pushOrPend s target f.oid e false trig

/-- ARM's installation (R307): the status, and the entry where it is 0. -/
def armRecord (s : State) (c : CtxId) (record : BitVec 512) (addr : Word) : Chk (Nat × Nat × State) := do
  let oid := recOwner record
  let launch := recLaunch record
  let (l, s) ← levelGet s c oid launch
  if !l.isOpen || l.kind != 0 then .ok (1, 0, s)
  else if l.cancelled then .ok (3, 0, s)
  else if l.isFull then .ok (2, 0, s)
  else
    let w : Who := ⟨oid, true, c.core, false⟩
    let (p, s) ← check s c w (recTcnt record) 8 .w
    let s := levelRise s c l
    match (List.range 256).find? fun i => !(s.coreSt c.core).trig.any fun t => t.idx == i with
    | none => .ok (5, 0, levelFall s c oid l)
    | some e =>
      let s := (reachFor s c oid p.owner p.line).sealFrame w p.entry p.pa
      let sameHome := s.home.watches.countP fun w => sliceKey s w.page (w.pa / 128) == sliceKey s p.owner p.line
      if 256 ≤ sameHome then .ok (6, 0, levelFall s c oid l)
      else if s.home.watches.any (·.pa == p.pa) then .ok (7, 0, levelFall s c oid l)
      else
        let s := s.updCore c.core fun k => { k with trig := k.trig ++ [⟨e, record, addr, oid, p.pa, true⟩] }
        let s := s.onHome fun h =>
          { h with watches := h.watches ++ [⟨p.pa, p.owner, oid, c.core, e, recThresh record, recRearm record, 0⟩] }
        let s := triggerCheck s c p.owner p.pa
        -- a counter that already meets THRESH fires at once, and the record is pushed before ARM completes
        let mine := s.home.fires.filter fun f => f.core == c.core && f.idx == e
        let s := s.onHome fun h => { h with fires := h.fires.filter fun f => !(f.core == c.core && f.idx == e) }
        let s := mine.foldl (fun s f => firePush s f (recRearm record)) s
        .ok (0, e, freeTrig s c.core e)

/-- DISARM's removal (R308): status 1 where the counter has no watch; the fires made before it are pushed now (R285). -/
def disarmCounter (s : State) (c : CtxId) (pa : Nat) : Nat × State :=
  match s.home.watches.find? (·.pa == pa) with
  | none => (1, s)
  | some w =>
    let s := s.onHome fun h => { h with watches := h.watches.filter (·.pa != pa) }
    let rec_ := ((s.coreSt w.core).trig.find? fun t => t.idx == w.idx).map (·.record)
    let s := s.updCore w.core fun k =>
      { k with trig := lupd (fun (t : TrigEntry) => t.idx == w.idx) (fun t => { t with live := false }) k.trig }
    let mine := s.home.fires.filter fun f => f.core == w.core && f.idx == w.idx
    let s := s.onHome fun h => { h with fires := h.fires.filter fun f => !(f.core == w.core && f.idx == w.idx) }
    let s := mine.foldl (fun s f => firePush s f true) s
    let s := match rec_ with
      | some r => levelDrop s c w.oid (recLaunch r) 0 false
      | none => s
    (0, freeTrig s w.core w.idx)

end Sys2Proof.Machine
end

