-- ==== Sys2Proof/Machine/Home.lean ====
section
/-! DEFINITION. What a home does with an access that reaches it, the sequencer and its replicas, the staging of an
unexposed recoverable firing and its commit, and stores (spec/07_memory_model.md R205, R210, R215; spec/08_memory_instructions.md
R225 to R233, R239; spec/06_matrix.md R171, R172; spec/10_progress.md R290, R292; spec/11_sync_instructions.md R305). -/

namespace Sys2Proof.Machine

/-! ### Values of atomics (R229 to R233) -/

/-- The new word of an atomic (R229, R231, R232): `w` bits of old and operand. -/
def amoNew (op : AmoOp) (w : Nat) (old : Nat) (operand expected : Word) : Nat :=
  let x := uval operand w
  let so := (BitVec.ofNat w old).toInt
  let sx := sval operand w
  match op with
  | .add => (old + x) % 2 ^ w
  | .and => old &&& x
  | .or => old ||| x
  | .xor => old ^^^ x
  | .min => if so ≤ sx then old else x
  | .max => if so ≤ sx then x else old
  | .minu => min old x
  | .maxu => max old x
  | .swp => x
  | .cas => if old = uval expected w then x else old
  | .fadd =>
    let f := if w = 32 then fp32 else bf16
    (f.add .rne (f.decode old) (f.decode x)).1

/-- Element `i` of an MX block of 64 bytes: its bits (R102, R233). -/
def mxElem (fmt : Nat) (block : List Byte) (i : Nat) : Nat :=
  if fmt = 8 then (lget 0 block (i / 2)).toNat / 16 ^ (i % 2) % 16 else (lget 0 block i).toNat

/-- The element format of an MFMT code 6 to 8. -/
def mxFmt (fmt : Nat) : FFmt :=
  match fmt with
  | 6 => e4m3 | 7 => e5m2 | _ => e2m1

/-- The E8M0 code at or above `k` under which no finite sum overflows the element format after rounding (R105), looking
at most `fuel` codes further. -/
def mxScaleFrom (f : FFmt) (xs : List Dy) : (fuel : Nat) → Nat → Nat
  | 0, k => k
  | fuel + 1, k =>
    let overflows := xs.any fun d =>
      match f.round .rne (decide (d.n < 0)) d.n.natAbs (d.e - ((k : Int) - 127)) false with
      | .infinite _ => true
      | .bits _ _ => false
    if overflows then mxScaleFrom f xs fuel (k + 1) else k

/-- A sum re-encoded under a scale code (R105): clamped to the largest finite value; NaN and infinities in the format's
own codes. -/
def mxEncode (f : FFmt) (scale : Nat) (x : XVal) : Nat :=
  match x with
  | .nan => f.nan
  | .inf neg => if f.hasInf then f.infBits neg else f.nan
  | .num d =>
    match f.round .rne (decide (d.n < 0)) d.n.natAbs (d.e - ((scale : Int) - 127)) false with
    | .bits b _ => b
    | .infinite neg => f.maxBits neg

/-- Whether a decoded value is −0. -/
def isNegZero (x : FVal) : Bool :=
  match x with
  | .fin neg m _ => neg && m == 0
  | _ => false

/-- MXACC's step at the home (R105, R233) on the 64 bytes of a block: the new bytes, the old scale, and whether the new
block is the NaN block. An exact zero sum is +0, but that of two negative zeros in element `i` has the sign `negative i`
(log entry 10). -/
def mxAccumulate (negative : Nat → Bool) (fmt : Nat) (block : List Byte) (addends : Vec) : List Byte × Nat × Bool :=
  let f := mxFmt fmt
  let at_ := if fmt = 8 then 16 else 32
  let scale := (lget 0 block at_).toNat
  let sums := (List.range 32).map fun i =>
    (scaled (e8m0 scale) (f.decode (mxElem fmt block i)).ext).add (bf16.decode (lane addends 16 i)).ext
  let isNum := fun (x : XVal) => match x with
    | .num _ => true
    | _ => false
  let allNan := sums.all (· == .nan)
  let bad := allNan || (fmt == 8 && !sums.all isNum)
  let finite := sums.filterMap fun x => match x with
    | .num d => some d
    | _ => none
  let code := mxScaleFrom f finite 254 0
  let elems := (List.range 32).map fun i =>
    if bad then 0
    else if scale != 255 && isNegZero (f.decode (mxElem fmt block i)) && isNegZero (bf16.decode (lane addends 16 i)) then
      f.sign (negative i)
    else mxEncode f code (sums.getD i .nan)
  let packed : List Byte := if fmt = 8 then
      (List.range 16).map fun j => BitVec.ofNat 8 (lget 0 elems (2 * j) + 16 * lget 0 elems (2 * j + 1))
    else elems.map fun e => BitVec.ofNat 8 e
  (packed ++ [if bad then 0xff else BitVec.ofNat 8 code] ++ block.drop (at_ + 1), scale, bad)

/-! ### Homes (R205, R226, R230, R239) -/

/-- A home refuses an access, with the other accesses of its instruction to the line (R226), or a linked device denies it
(R419). -/
def State.refuse (s : State) (f : Flight) (how : FlightEnd := .refused) : State :=
  let same := fun (g : Flight) => g.id == f.id ||
    (g.ctx == f.ctx && g.first == f.first && g.pa / 128 == f.pa / 128 && g.state == .onWay)
  s.onNet fun t => { t with flight := lupd same (fun g => { g with state := how }) t.flight }
/-- A flight that has taken effect is no longer on its way. -/
def State.landFlight (s : State) (id : Nat) : State :=
  s.onNet fun t => { t with flight := t.flight.filter (·.id != id) }

/-- The answer of an access becomes ready for the register that waits for it (R230). -/
def State.answer (s : State) (c : CtxId) (id : Nat) (v : Word) : State :=
  s.updCtx c fun k =>
    { k with pend := lupd (fun (p : Pend) => p.result == some id) (fun p => { p with value := some v }) k.pend }

/-- The stamp of an access applied at its home: fabric time, and for a system-scope write to another device 64 ns more
(R205, R427). -/
def homeStamp (s : State) (f : Flight) : Stamp := if inLink f.pa && f.scope == .system then s.now + 64 else s.now

/-- An access of a context or of a copy has taken effect and is answered: its stamp enters the maxima (R195) or the copy's
completion witness (R220), and the response reaches the context (R343). -/
def State.done (s : State) (f : Flight) : State :=
  let pa := if forSequencer f then replicaPa f.pa s.dev.seqDie else f.pa
  let s := if f.ctx.which = 3 then
      s.onCopies (clusterOf f.ctx.core) (fun q => q.tag == f.first) fun q => q.stamped (homeStamp s f)
    else s
  (((s.stampWrite f.ctx (some f.id) (homeStamp s f)).landFlight f.id).pass f.oid
    (if inHbm pa then (portsTo s (homeDie (pa / 128)) (startDie f.ctx)).map fun p => (0, p) else [])).responseTo f.ctx
      (placeFor s (dieOf f.ctx.core) f.owner pa)

/-- A load that takes effect late is served now and writes its register's part (R203); one that finds its line in no L1 goes to the
near-tier slice first, unless it has been there (R224). Where it can no longer be served, what was read at its issue stands. -/
def loadArrives (s : State) (f : Flight) (entry : Word) (level n : Nat) (na near : Bool) : State :=
  let l : Leaf := ⟨entry, level, 0, f.pa⟩
  let cached := l.cls == clsPriv || l.cls == clsRo
  if cached && !near && (presentCopy s (.l1 f.ctx.core) l.line (witStamp f.wit)).isNone then
    s.onNet fun t =>
      { t with flight := lupd (fun (g : Flight) => g.id == f.id) (fun g =>
          { g with kind := .load entry level n na true, path := [(1, clusterOf f.ctx.core)], came := s.tick }) t.flight }
  else
    let s := s.asCtx f.ctx fun s =>
      match readBytes s s.cur true false na l f.va n (witStamp f.wit) (some f.fetched) with
      | .error _ => s
      | .ok (bs, s) =>
        match s.cx.late.find? fun l => l.id == f.id with
        | none => s
        | some l => s.onCx fun k => { k with wrote := s.tick }.putDest l.dest bs
    (s.updCtx f.ctx fun k => { k with late := k.late.filter (·.id != f.id) }).landFlight f.id

/-- An SM, CR or window access takes effect at its home (R205, R226, R230 to R233, R239, R309). A marked line refuses
all but PCLR; a counter message that a staging held is not made, and a system event tells (R396). What the sequencer die or a commit
does is not done here. -/
def applyFlight (s : State) (f : Flight) : State :=
  let line := f.pa / 128
  let k := s.ctxOf f.ctx
  let isClear := match f.kind with
    | .pclr _ _ => true
    | .load _ _ _ _ _ => true
    | .priv _ _ => true
    | _ => false
  let staged := match f.kind with
    | .count _ b => b
    | _ => false
  if marked s f.owner line && staged then (s.asCtx f.ctx fun s => s.firingEvent s.cur 8 0 0 (line * 128)).landFlight f.id
  else if marked s f.owner line && !isClear then s.refuse f
  else if inWindow f.pa && !isClear && Config.farAnswer s.tick = 1 then s.refuse f .denied
  else if inLink f.pa && !isClear && Config.farAnswer s.tick = 2 then s.refuse f
  else match f.kind with
  | .store bs => (writeHome s f.ctx f.owner f.pa bs f.oid).done f
  | .priv bs na =>
    match privStore s f.ctx (f.ctx == s.cur) na f.owner f.va f.pa bs f.id with
    | some s => s.landFlight f.id
    | none => (s.landFlight f.id).engineFault f.ctx .poison (some f.va) f.pc f.first
  | .repl _ => s
  | .load entry level n na near => loadArrives s f entry level n na near
  | .commit _ _ _ => s
  | .requests _ => s
  | .atomic op sz operand expected =>
    let n := Size.bits sz / 8
    let old := leNat (memRead s.mem f.pa n)
    let new := amoNew op (Size.bits sz) old operand expected
    let s := writeHome s f.ctx f.owner f.pa (leBytes n new) f.oid
    let v := if op = .fadd then BitVec.ofNat 64 old else sextW old (Size.bits sz)
    ((lineEvent s f.oid line 3 k.fir.fid.toNat f.ev).answer f.ctx f.id v).done f
  | .mxacc addends fmt =>
    let (bs, scale, bad) := mxAccumulate (Config.mxZeroNeg s.tick) fmt (memRead s.mem f.pa 64) addends
    let s := writeHome s f.ctx f.owner f.pa bs f.oid
    ((lineEvent s f.oid line 3 k.fir.fid.toNat f.ev).answer f.ctx f.id (BitVec.ofNat 64 (scale + if bad then 256 else 0))).done f
  | .count amount _ => (counterApply s f.ctx f.owner f.pa amount f.wit).done f
  | .pclr cls crp =>
    match crp with
    | some p => ((crClear s p).unmark f.owner ((List.range (crBytes p.fmt / 4)).map (p.line + ·))).done f
    | none =>
      let s := if cls == clsPriv then s.dropLine line else s
      ((writeHome s f.ctx f.owner f.pa (List.replicate 128 0) f.oid).unmark f.owner [line]).done f

/-- A replica lags by more than 65,536 ns, so that the sequencer holds new stores (R212). -/
def replicaLags (s : State) : Bool := s.home.replLog.any fun r => after (r.stamp + 65536) s.now

/-- The sequencer die stamps REPL stores of one access, and multicasts them (R210); `clear` is PCLR's. -/
def sequence (s : State) (f : Flight) (stores : List (Nat × List Byte)) (clear : Bool) : State :=
  let s := s.onHome fun h =>
    { h with replLog := h.replLog ++ stores.map fun w => ⟨f.id, f.first, f.ctx, s.now, w.1, f.owner, w.2, replicaDies s, clear⟩ }
  s.done f

/-- One REPL store takes effect at the replica of a die. A marked replica line takes no bytes but those of PCLR, which
clears the mark (R239, R396). -/
def replicaWrite (s : State) (die : Nat) (r : ReplStore) : State :=
  let pa := replicaPa r.pa die
  if marked s r.owner (pa / 128) && !r.clear then s
  else
    let s := capturePage s r.ctx pa
    let s := { s with mem := memWrite s.mem pa r.data }
    if r.clear then s.unmark r.owner [pa / 128] else s

/-- The stores of a stamp in the order in which a replica applies them: by device-wide core number (R210), those of one core in
the order in which they were stamped (log entry 50). -/
def byCore (rs : List ReplStore) : List ReplStore :=
  rs.foldr (fun r l => (l.takeWhile fun q => decide (q.ctx.core < r.ctx.core)) ++
    r :: l.dropWhile fun q => decide (q.ctx.core < r.ctx.core)) []

/-- A die's replica applies the REPL stores of the oldest stamp that it has not applied, once the sequencer's time has passed
that stamp, and its mark advances (R210, R212). -/
def replicaApply (s : State) (die : Nat) : State :=
  match s.home.replLog.find? fun r => r.dies.contains die with
  | none => s
  | some r =>
    let mine := fun (q : ReplStore) => q.stamp == r.stamp && q.dies.contains die
    if r.stamp == s.now then s
    else
      let s := (byCore (s.home.replLog.filter mine)).foldl (fun s q => replicaWrite s die q) s
      let log := lupd mine (fun (q : ReplStore) => { q with dies := q.dies.filter (· != die) }) s.home.replLog
      (s.onHome fun h => { h with replLog := log.filter fun q => !q.dies.isEmpty }).updDie die fun d =>
        { d with replMark := laterOf d.replMark r.stamp }

/-! ### Staging and commit (R171, R215, R290, R292, R305) -/

/-- The lines that an entry of the staging holds, with their frame sizes (R171). -/
def Staged.lines : Staged → List (Nat × Nat)
  | .store _ pa _ _ bs => [(pa / 128, 128)] ++ (if (pa + bs.length - 1) / 128 = pa / 128 then [] else [(pa / 128 + 1, 128)])
  | .cr p _ _ => [(p.line, 32 * crBytes p.fmt)]
  | .pclr _ pa _ _ none => [(pa / 128, 128)]
  | .pclr _ _ _ _ (some p) => [(p.line, 32 * crBytes p.fmt)]
  | .count _ pa _ _ => [(pa / 128, 128)]
  | .spawn _ _ _ => [(2 ^ 60, 64)]
  | .arm _ _ _ => [(2 ^ 60 + 1, 64)]
  | .disarm _ pa => [(pa / 128, 128)]

/-- The bytes of lines with their frame sizes, each line counted once. -/
def distinctBytes : List (Nat × Nat) → List Nat → Nat
  | [], _ => 0
  | p :: ps, seen => if seen.contains p.1 then distinctBytes ps seen else p.2 + distinctBytes ps (p.1 :: seen)

/-- Four MiB (R290). -/
def stagingLimit : Nat := 4 * 2 ^ 20

/-- Whether the backing of the staging is mapped writable up to `n` bytes (R277, R292). -/
def backingOk (s : State) (n : Nat) : Bool :=
  let base := (s.ownerSt s.oid).savearea + BitVec.ofNat 64 (0x100000000 + (s.cur.core * 2 + s.cur.which) * stagingLimit)
  (List.range ((n + 65535) / 65536)).all fun i =>
    match check s s.cur ⟨s.oid, true, s.cur.core, false⟩ (base + BitVec.ofNat 64 (65536 * i)) 8 .w with
    | .ok _ => true
    | .error _ => false

/-- A marked line of a commit stays marked; a system event names it and the firing (R396). -/
def commitMark (s : State) (line : Nat) : State := s.firingEvent s.cur 8 0 0 (line * 128)

/-- The number under which a hold of replay on an instruction of a context is released (R413). -/
def ctxHold (c : CtxId) : Nat := 2 ^ 40 + c.core * 4 + c.which

/-- Fold a die's partial of a line; the fold of a CRF32 line is an event of its line's order (R174, R409). -/
def foldLine (s : State) (die : Nat) (p : CrPlace) : State :=
  if (crPartials s p.key).any (·.die == die) then
    let s := crFold s die p
    if p.fmt = 2 then lineEvent s p.owner p.line 5 0 die else s
  else s

/-- Commit one CR line of context `c` into the partial of its die (R172); the commit of a CRF32 line is a recordable
event (R409), numbered `ev` where its number is taken already. A partial on its way to be folded goes first (R174). A marked
line stays marked, and a system event tells (R396). -/
def commitLine (s : State) (c : CtxId) (oid : Nat) (p : CrPlace) (clear : Bool) (l : CrLine) (ev : Option Nat := none) :
    State :=
  if crMarked s p then s.firingEvent c 8 0 0 (p.line * 128)
  else
    let s := (List.range (crBytes p.fmt / 4)).foldl (fun s i => capturePage s c (p.key + 128 * i)) s
    let s := if (partialOf s (dieOf c.core) p.key).any (·.evicted.isSome) then foldLine s (dieOf c.core) p else s
    let s := crCommit s (dieOf c.core) p clear l
    if p.fmt = 2 && c.which != 3 then
      let k := s.ctxOf c
      match ev with
      | some n => lineEvent s oid p.line 4 k.fir.fid.toNat n
      | none => lineEvent (recordEvent s c 4) oid p.line 4 k.fir.fid.toNat k.evIdx
    else s

/-- The CRF32 lines whose turn has not come in replay (R412) among the recordable events that a commit of context `c`
brings, in its order, each with its event index; an event that is no commit of such a line is none. -/
def heldLines (s : State) (c : CtxId) (oid id : Nat) (evs : List (Option Nat)) : List (Nat × Nat) :=
  let k := s.ctxOf c
  (evs.mapIdx fun i l => (l, i)).filterMap fun q =>
    match q.1 with
    | none => none
    | some l => if lineTurn s oid l 4 k.fir.fid.toNat (k.evIdx + q.2) id then none else some (l, k.evIdx + q.2)

/-- The recordable events of commits of CR lines. -/
def placeEvents (ps : List CrPlace) : List (Option Nat) := (ps.filter fun p => p.fmt = 2).map fun p => some p.line

/-- A write of context `c` that takes effect now takes a number, and its stamp enters the running maximum (R195). -/
def State.stampNow (s : State) (c : CtxId) : State :=
  let id := s.net.nextId
  (s.onNet fun t => { t with nextId := id + 1 }).stampWrite c (some id) s.now

/-- Apply one staged entry of the running context at its home, within a commit (R172, R215, R305). -/
def commitOne (s : State) (e : Staged) (ev : Option Nat := none) : State :=
  let c := s.cur
  match e with
  | .store _ pa _ owner bs => if marked s owner (pa / 128) then commitMark s (pa / 128) else writeHome s c owner pa bs
  | .cr p clear l => if !clear && l = .empty then s else commitLine s c s.oid p clear l ev
  | .pclr _ pa cls owner crp =>
    match crp with
    | some p => (crClear s p).unmark owner ((List.range (crBytes p.fmt / 4)).map (p.line + ·))
    | none =>
      let s := if cls == clsPriv then s.dropLine (pa / 128) else s
      (writeHome s c owner pa (List.replicate 128 0)).unmark owner [pa / 128]
  | .count _ pa owner amount => counterApply s c owner pa amount (mkWit .device (mergeStamp s.cx.runMax s.now))
  | .spawn record addr _ =>
    match spawnRecord s c record addr (mkWit .device (mergeStamp s.cx.runMax s.now)) with
    | .ok (_, s) => s
    | .error _ => s
  | .arm record addr _ =>
    match armRecord s c record addr with
    | .ok (_, _, s) => s
    | .error _ => s
  | .disarm _ pa =>
    if s.home.watches.any fun w => w.pa == pa && w.oid == s.oid then (disarmCounter s c pa).2 else s

/-- A commit of context `c` has begun: others that write its CRF32 lines come after it (R119). -/
def State.commitBegins (s : State) (c : CtxId) : State :=
  s.onNet fun t =>
    { t with flight := lupd (fun (g : Flight) => g.ctx == c && !g.order.1.isEmpty) (fun g =>
        match g.kind with
        | .commit es ks _ => { g with kind := .commit es ks true }
        | _ => g) t.flight }

/-- One line of a commit is applied at its home whole, or passes through the sequencer (R215). A marked line stays marked,
and a system event tells (R396). -/
def commitApplies (s : State) (f : Flight) (es : List Staged) : State :=
  let s := s.commitBegins f.ctx
  match es.filterMap Staged.replWrite with
  | [] => (s.asCtx f.ctx fun s => es.foldl (fun s e => commitOne s e (some f.ev)) s).done f
  | ws =>
    let clear := es.any fun
      | .pclr _ _ _ _ _ => true
      | _ => false
    if marked s f.owner (replicaPa f.pa s.dev.seqDie / 128) && !clear then (s.asCtx f.ctx fun s => commitMark s (f.pa / 128)).done f
    else sequence s f ws clear

/-- The requests of a commit take effect in staging order (R305). -/
def requestsApply (s : State) (f : Flight) (es : List Staged) : State :=
  (s.asCtx f.ctx fun s => es.foldl (fun s e => commitOne s e) s).landFlight f.id

/-- What identifies the line that an entry of the staging writes; none for a request and for a counter message. -/
def Staged.key : Staged → Option Nat
  | .store _ pa _ _ _ => some (pa / 128)
  | .cr p _ _ => some (2 ^ 60 + p.key)
  | .pclr _ pa _ _ none => some (pa / 128)
  | .pclr _ _ _ _ (some p) => some (2 ^ 60 + p.key)
  | _ => none
/-- The address and page owner to which an entry goes. -/
def Staged.home : Staged → Word × Nat × Nat
  | .store va pa _ owner _ => (va, pa / 128 * 128, owner)
  | .cr p _ _ => (0, p.key, p.owner)
  | .pclr va pa _ owner none => (va, pa, owner)
  | .pclr va _ _ owner (some p) => (va, p.key, owner)
  | .count va pa owner _ => (va, pa, owner)
  | _ => (0, 2 ^ 52, 0)

/-- The entries of a staging by line, each line's together and in staging order. -/
def byLine (st : List Staged) : List (List Staged) :=
  let rec go : List Staged → List Nat → List (List Staged)
    | [], _ => []
    | e :: es, seen =>
      match e.key with
      | none => go es seen
      | some k => if seen.contains k then go es seen else (st.filter fun d => d.key == some k) :: go es (k :: seen)
  go st []

/-- Whether the commit of a line is a recordable event: that of a CRF32 line which changes it (R409). -/
def Staged.recorded : Staged → Bool
  | .cr p clear l => p.fmt == 2 && (clear || l != .empty)
  | _ => false
/-- The keys of the CRF32 lines that a staging changes (R119). -/
def crfKeys (st : List Staged) : List Nat := st.filterMap fun
  | .cr p clear l => if Staged.recorded (.cr p clear l) then some p.key else none
  | _ => none

/-- A part of a commit is on its way: a CR line's to the near-tier slice that holds its die partial (R172). -/
def commitLaunch (s : State) (kind : FlightKind) (e : Staged) (earlier : Bool) : State :=
  let (va, pa, owner) := e.home
  let repl := e.replWrite.isSome
  let path := if repl then (portsTo s (startDie s.cur) s.dev.seqDie).map fun p => (0, p)
    else if 2 ^ 52 ≤ pa then []
    else match e with
    | .cr p _ _ => crWay s s.cur p
    | _ => pathTo s s.cur owner pa
  s.onNet fun t =>
    { t with
      flight := t.flight ++ [⟨t.nextId, t.nextId, s.cur, s.oid, kind, va, pa, owner, .device, s.cx.pc, mkWit .device s.cx.runMax, earlier, s.cx.evIdx, 0, s.tick, s.now, path, .onWay, false⟩]
      nextId := t.nextId + 1 }

/-- The staging of the running firing commits: its lines go to their homes, each on its own and whole, its counter messages
follow them, and then its requests (R215, R290, R305). The firing's later effects are those of one that is not recoverable. -/
def commitStaging (s : State) : State :=
  let st := s.cx.staging
  let s := s.onCx fun k => { k with staging := [], early := [] }
  let s := (byLine st).foldl (fun s es =>
    match es with
    | [] => s
    | e :: _ =>
      let t := commitLaunch s (.commit es (crfKeys st) false) e false
      if e.recorded then recordEvent t t.cur 4 else t) s
  let s := st.foldl (fun s e =>
    match e with
    | .count _ _ _ amount => commitLaunch s (.count amount true) e true
    | _ => s) s
  match st.filter fun e => e.key.isNone && (match e with
      | .count _ _ _ _ => false
      | _ => true) with
  | [] => s
  | e :: es => commitLaunch s (.requests (e :: es)) e true

/-- Expose the running firing if it is unexposed and recoverable (R290). -/
def expose (s : State) : State :=
  if s.cx.staged then (commitStaging s).onCx fun k => { k with fir := { k.fir with exposed := true } } else s

/-- Expose the running firing. The instruction that exposes it goes on once the commit is applied (R290, R318). -/
def exposeAct (s : State) : Act State :=
  let t := expose s
  if s.cx.staged && !s.cx.staging.isEmpty then .error (.wait (.writes .core t.net.nextId) (some t)) else .ok t

/-- The bytes of a staging, each line once and each request 64 bytes (log entry 11), with those that the running context's
outstanding matrix operations will take (R292). -/
def stagingNeed (s : State) (st : List Staged) (more : List (Nat × Nat)) : Nat :=
  let ops := ((s.coreSt s.coreNo).slice.filter fun o => o.ctx == s.cur).map (·.lines)
  let all := (st.map Staged.lines).flatten
  distinctBytes ((all.filter fun p => decide (p.1 < 2 ^ 60)) ++ ops.flatten ++ more) [] +
    64 * all.countP fun p => decide (2 ^ 60 ≤ p.1)

/-- stage_put (R89): the entry enters the staging; STAGE where its backing is not mapped writable (R292). None: the entry
would pass 4 MiB, which exposes the firing (R290). -/
def stagePut (s : State) (st : List Staged) : Act (Option State) :=
  let n := stagingNeed s st []
  if stagingLimit < n then .ok none
  else if stagingNeed s s.cx.staging [] < n && !backingOk s n then trapNow .stage
  else .ok (some (s.onCx fun k => { k with staging := st }))

/-- A staging with one more entry; a CR entry merges into the staged line (R171, R175). -/
def addStaged (st : List Staged) (e : Staged) : List Staged :=
  match e with
  | .cr p clear l =>
    if (stagedCr st p.key).isSome then
      st.map fun q => match q with
        | .cr p2 c2 l2 => if p2.key = p.key then .cr p2 (c2 || clear) (if clear then l else l2.add p.fmt l) else q
        | _ => q
    else st ++ [e]
  | _ => st ++ [e]

/-! ### Stores (R225, R226) -/

/-- mem_write (R89) without staging, checks passed: PRIV at the cache, SM and REPL on their way to the home. A PRIV store
whose fill meets a mark is refused (R226). Where the accesses of the context's next instruction are to take effect later, so does a
PRIV store (R203). -/
def putBytes (s : State) (va : Word) (l : Leaf) (bs : List Byte) (sc : Scope) (na : Bool) : State :=
  if l.cls == clsPriv && s.cx.lag then s.launch (.priv bs na) va l sc 0 false
  else if l.cls == clsPriv then
    match privStore s s.cur true na l.owner va l.pa bs s.net.nextId with
    | some s => s
    | none => s.engineFault s.cur .poison (some va) s.cx.pc s.cx.firstId
  else if l.cls == clsRepl then s.launch (.repl bs) va l sc 0 false
  else s.launch (.store bs) va l sc 0 false

/-- Whether a PRIV store of the instruction being executed has been refused (R226). -/
def State.storeRefused (s : State) : Bool :=
  s.cx.engFaults.any fun e => e.cause == .poison && e.val == s.cx.pc && e.issue == s.cx.firstId && e.addr.isSome

/-- The checks of a store (R221, R225). A free frame is sealed unless a mark stops the store (R350). -/
def storeCheck (s : State) (va : Word) (n : Nat) : Act (Leaf × State) := do
  let (l, s) ← s.check va n .w
  if l.cls == clsRo then trapAt .class_ va
  else if l.cls == clsCr then trapAt .crfmt va
  else .ok (l, s.sealLeaf s.who l)

/-- A store whose checks have passed: its address, where it leads, and its bytes. -/
structure Put where
  va : Word
  leaf : Leaf
  bytes : List Byte
  deriving DecidableEq, Repr

/-- What a store waits for, as it must take effect after the context's own access to the bytes that is on its way or set aside
(R203): a PRIV or staged store for any. -/
def Put.awaits (s : State) (w : Put) : Option Wait :=
  if s.cx.aside.any fun a => a.touch.any fun t => overlaps t.1 t.2 w.leaf.pa w.bytes.length then some .aside
  else ((ownFlight s s.cur w.leaf.pa w.bytes.length).filter fun _ => w.leaf.cls == clsPriv || s.cx.staged).map Flight.awaited
/-- The entry of a store in the staging, which takes SM and REPL stores of an unexposed recoverable firing (R215). -/
def Put.staged (w : Put) : Option Staged :=
  if w.leaf.cls == clsPriv then none else some (.store w.va w.leaf.pa w.leaf.cls w.leaf.owner w.bytes)

/-- The stores of one instruction of the running context, their checks passed (R138, R225): each is staged or made, in their order.
Where the staging cannot take them all, the firing is exposed before any of them (R290). -/
def storeAll (s : State) (ws : List Put) (sc : Scope) (na : Bool) : Act State :=
  let put := fun (s : State) (ws : List Put) => ws.foldl (fun s w => putBytes s w.va w.leaf w.bytes sc na) s
  match ws.findSome? (Put.awaits s) with
  | some w => .error (.wait w none)
  | none =>
    let s := ws.foldl (fun s w => s.onCx (·.dropEarly w.leaf.pa w.bytes.length)) s
    let entries := ws.filterMap Put.staged
    if s.cx.staged && !entries.isEmpty then do
      match ← stagePut s (entries.foldl addStaged s.cx.staging) with
      | some s => .ok (put s (ws.filter fun w => w.staged.isNone))
      | none => do
        let s ← exposeAct s
        .ok (put s ws)
    else .ok (put s ws)
/-- One store of the running context, its checks passed. -/
def storeOne (s : State) (va : Word) (l : Leaf) (bs : List Byte) (sc : Scope) (na : Bool) : Act State :=
  storeAll s [⟨va, l, bs⟩] sc na

/-- The witness register of stores and commits (R196, R198): the null witness at once where everything is staged,
pending otherwise. -/
def State.storeWitness (s : State) (r : XReg) (sc : Scope) (allStaged : Bool) : State :=
  if s.cx.staged && allStaged then s.setX r 0 else s.pendWitness r sc s.cx.staged

/-- A store with its checks and its witness register (R225). -/
def storeBytes (s : State) (va : Word) (bs : List Byte) (r : XReg) (sc : Scope) (na : Bool) : Act State := do
  let (l, s) ← storeCheck s va bs.length
  let s ← storeOne s va l bs sc na
  .ok (if l.cls == clsPriv && s.storeRefused then s else s.storeWitness r sc (l.cls != clsPriv))

end Sys2Proof.Machine
end

