-- ==== Sys2Proof/Machine/Save.lean ====
section
/-! DEFINITION. The save slot of a context, saving, resuming, and what becomes of a firing that is lost
(spec/14_recovery.md R386 to R393; spec/10_progress.md R287, R291). -/

namespace Sys2Proof.Machine

/-! ### Registers as CRD shows them -/

/-- FIRING (R83). -/
def firingWord (k : Ctx) (which : Nat) : Word :=
  k.fir.retry ++ BitVec.ofBool k.fir.recov ++ BitVec.ofBool k.fir.exposed ++ k.fir.prio ++
    BitVec.ofBool (which == 1) ++ (0 : BitVec 13) ++ k.fir.launch ++ k.fir.fid
/-- OWNER (R83). -/
def ownerWord (k : Ctx) : Word := (0 : BitVec 55) ++ BitVec.ofBool k.fir.isSealed ++ k.fir.oid
/-- PLACE (R83). -/
def placeWord (core : Nat) : Word := BitVec.ofNat 64 (core % 4096)
/-- TSTAT (R84). -/
def tstatWord (r : Crs) : Word := (0 : BitVec 61) ++ BitVec.ofBool r.cmode ++ BitVec.ofBool r.pmode ++ BitVec.ofBool r.inh

/-- The user control registers in the order of their numbers (R78). -/
def userCrs (k : Ctx) (c : CtxId) : List Word :=
  let r := k.crs
  [r.fstat, r.rmode, r.mfmt, r.mscalea, r.mscaleb, ownerWord k, firingWord k c.which, placeWord c.core, r.tvec, r.tcause,
    r.tpc, r.taddr, r.tval, r.wscope, tstatWord r, r.nmask, r.tdline]

/-- The low bits of a field map that a write keeps. -/
def lowMask (n : Nat) : Word := BitVec.ofNat 64 (2 ^ n - 1)

/-- Bits [hi:lo] of a word in their places. -/
def keepBits (w : Word) (hi lo : Nat) : Word := w &&& (lowMask (hi + 1) &&& ~~~(lowMask lo))

/-- A write to a user register under its field map (R79 to R85); the read-only ones ignore it. -/
def crWriteUser (r : Crs) (n : Nat) (w : Word) : Crs :=
  match n with
  | 0x00 => { r with fstat := keepBits w 5 0 }
  | 0x01 => if fieldN w 2 0 ≤ 4 then { r with rmode := keepBits w 2 0 } else r
  | 0x02 => { r with mfmt := keepBits w 7 0 }
  | 0x03 => { r with mscalea := keepBits w 47 0 }
  | 0x04 => { r with mscaleb := keepBits w 47 0 }
  | 0x08 => { r with tvec := w }
  | 0x09 => { r with tcause := keepBits w 8 0 }
  | 0x0A => { r with tpc := keepBits w 63 1 }
  | 0x0B => { r with taddr := w }
  | 0x0C => { r with tval := w }
  | 0x0D => if fieldN w 2 0 ≤ 4 then { r with wscope := keepBits w 2 0 } else r
  | 0x0E => { r with pmode := w.getLsbD 1, inh := w.getLsbD 0 }
  | 0x0F => { r with nmask := w }
  | 0x10 => { r with tdline := keepBits w 63 63 ||| keepBits w 47 0 }
  | _ => r

/-! ### The image of a slot (R388, R389) -/

def wordBytes (w : Word) : List Byte := leBytes 8 w.toNat

/-- The header's flags. -/
structure SlotFlags where
  lane : Bool
  emerg : Bool
  suspd : Bool
  gang : Bool
  deriving DecidableEq, Repr

def SlotFlags.byte (f : SlotFlags) : Byte :=
  (0 : BitVec 4) ++ BitVec.ofBool f.gang ++ BitVec.ofBool f.suspd ++ BitVec.ofBool f.emerg ++ BitVec.ofBool f.lane

/-- The 256 bytes of the header. The completion witnesses of copies that have completed stand in the saved running
maximum (log entry 12). -/
def slotHeader (k : Ctx) (c : CtxId) (state cause : Nat) (f : SlotFlags) : List Byte :=
  let runMax := witnessMax (mkWit .device k.runMax) k.copyWit
  let holds := k.holds.map (·.toNat) ++ List.replicate (8 - k.holds.length) 0xffff
  let gangMask := (k.gang.map fun g => g.1.toNat).getD 0
  let gangOps := (k.gang.map (·.2)).getD 0
  [1, 0, BitVec.ofNat 8 state, f.byte, k.fir.oid, BitVec.ofNat 8 cause] ++ leBytes 2 (c.core % 4096 + c.which % 2 * 4096) ++
    wordBytes (firingWord k c.which) ++ wordBytes k.pc ++ wordBytes runMax ++ wordBytes k.fir.startWit ++
    wordBytes k.fir.recAddr ++ ((holds.map fun h => leBytes 2 h).flatten) ++ leBytes 64 k.fir.record.toNat ++
    leBytes 4 gangMask ++ leBytes 4 gangOps ++ wordBytes k.noticeSet ++ wordBytes k.sig ++
    leBytes 4 k.evIdx ++ leBytes 4 k.copies.length ++ List.replicate 96 0

/-- The binding of v(56 + i) as a slot holds it. -/
def slotStream (k : Ctx) (i : Nat) : List Byte :=
  match k.streams.find? fun b => b.reg.toNat == 56 + i with
  | none => List.replicate 32 0
  | some b => wordBytes b.addr ++ wordBytes b.shape ++ wordBytes b.pattern ++ leBytes 8 b.pos

/-- The pieces of a slot with their offsets, none crossing 64 KiB. -/
def slotPieces (s : State) (k : Ctx) (c : CtxId) (state cause : Nat) (f : SlotFlags) : List (Nat × List Byte) :=
  let is := List.range
  let crs := (userCrs k c).map wordBytes
  let lane := (s.coreSt c.core).lane
  [(0, slotHeader k c state cause f),
   (0x100, ((is 32).map fun i => wordBytes (k.getX (BitVec.ofNat 5 i))).flatten),
   (0x200, ((is 8).map fun i => wordBytes (k.getM (BitVec.ofNat 3 i))).flatten),
   (0x240, crs.flatten ++ List.replicate 56 0),
   (0x300, ((is 8).map (slotStream k)).flatten),
   (0x400, List.replicate 3072 0),
   (0x1000, ((is 64).map fun i => leBytes 64 (k.getV (BitVec.ofNat 6 i)).toNat).flatten)] ++
  ((is 8).map fun i => (0x2000 + 2048 * i, leBytes 2048 (k.getT (BitVec.ofNat 3 i)).toNat)) ++
  [(0x6000, ((is 176).map fun i =>
      let p := tget (0, 0) k.dacc i
      leBytes 8 p.1 ++ leBytes 4 p.2 ++ [0, 0, 0, 0]).flatten),
   (0x6B00, ((is 32).map fun i => match k.copies[i]? with
      | some t => leBytes 64 t
      | none => List.replicate 64 0).flatten),
   (0x7300, List.replicate 7424 0)] ++
  (if f.lane then (is 1024).map fun i => (0x9000 + 64 * i, leBytes 64 (tget 0 lane i).toNat) else [])

/-- Read bytes at the home through a translation, as the Langor reads a slot. -/
def homeRead (s : State) (c : CtxId) (w : Who) (va : Word) (n : Nat) : Chk (List Byte × State) := do
  let (l, s) ← check s c w va 1 .r
  if marked s l.owner l.line then .error ⟨.poison, some va, none⟩
  else .ok (memRead s.mem l.pa n, s.sealFrame w l.entry l.pa)

/-- Write bytes of a slot at the home; copies of the line are dropped. -/
def slotWrite (s : State) (c : CtxId) (w : Who) (va : Word) (bs : List Byte) : Option State :=
  match check s c w va 1 .w with
  | .error _ => none
  | .ok (l, s) =>
    let lines := List.range ((l.pa % 128 + bs.length + 127) / 128)
    if lines.any fun i => marked s l.owner (l.line + i) then none
    else
      some ((lines.foldl (fun s i => s.dropLine (l.line + i)) (homePut s c l bs)).sealFrame w l.entry l.pa)

/-- Write every piece of a slot at a virtual address; none on a fault. -/
def slotAt (s : State) (c : CtxId) (w : Who) (va : Word) (ps : List (Nat × List Byte)) : Option State :=
  ps.foldl (fun o p => o.bind fun s => slotWrite s c w (va + BitVec.ofNat 64 p.1) p.2) (some s)

/-- Write every piece of an emergency slot at a physical address (R392). -/
def slotAtPhys (s : State) (c : CtxId) (oid pa : Nat) (ps : List (Nat × List Byte)) : Option State :=
  if hbmEnd < pa + 131072 then none
  else
    let isSealed := (s.ownerSt oid).isSealed
    let frames := [pa / 65536, pa / 65536 + 1]
    let tagOk := frames.all fun f => match tfind s.home.sealTags f with
      | none => true
      | some o => isSealed && o == oid
    if !tagOk || (List.range 1024).any (fun i => marked s oid (pa / 128 + i)) then none
    else
      let s := if isSealed then s.onHome fun h => { h with sealTags := frames.foldl (fun t f => tset t f oid) h.sealTags } else s
      some (ps.foldl (fun s p => writeHome s ⟨c.core, 3⟩ oid (pa + p.1) p.2) s)

/-- The number under which the emergency slot of a context goes; 0 to 8,191 are the slots of region 0. -/
def emergSlot (c : CtxId) : Nat := 8192 + c.core * 2 + c.which
/-- The physical address of an emergency slot by its number (R392). -/
def emergSlotPa (s : State) (oid slot : Nat) : Nat := (s.ownerSt oid).esave.toNat + (slot - 8192) * 131072
/-- The virtual address of slot `i` of an owner (R388). -/
def slotVa (s : State) (oid i : Nat) : Word := (s.ownerSt oid).savearea + BitVec.ofNat 64 (131072 * i)

/-- Set the STATE of a slot, where it can be written; a slot that is consumed or restarted is free again, one whose firing is lost
is not (R388, R393). -/
def setSlotState (s : State) (c : CtxId) (oid slot st : Nat) : State :=
  let b := [BitVec.ofNat 8 st]
  let tried := if slot < 8192 then slotWrite s c ⟨oid, true, c.core, false⟩ (slotVa s oid slot + 2) b
    else some (writeHome s ⟨c.core, 3⟩ oid (emergSlotPa s oid slot + 2) b)
  let use := fun (us : List Nat) => if st = 4 && slot < 8192 && tried.isSome then slot :: us else us
  let s := tried.getD s
  if 2 ≤ st then s.updOwner oid fun o => { o with slotsUsed := use (o.slotsUsed.filter (· != slot)) } else s

/-- Where a save went; `failed` names the slot that it did not reach. -/
inductive SavedIn where
  | slot (i : Nat) (va : Word)
  | emergency (pa : Nat)
  | failed (addr : Nat)
  deriving DecidableEq, Repr

/-- What of a firing is kept beside its slot (log entry 12). -/
def keepBeside (s : State) (k : Ctx) (oid slot : Nat) : State :=
  let kept : SlotKept := ⟨k.gangInst, k.lostPend, k.streams.map (·.reg), k.aside⟩
  s.updOwner oid fun o => { o with slotKept := tset o.slotKept slot kept }

/-- Save a context's firing (R388, R389, R392) into a slot that a CTXSAVE names, or the lowest free one; where the slot
faults or none is free, into the emergency slot, with its system event. An uncorrectable error in the lane store fails it, and then
STATE lost is written where it can be (R393). -/
def saveImage (s : State) (c : CtxId) (named : Option Nat) (state cause : Nat) (suspd : Bool) : SavedIn × State :=
  let k := s.ctxOf c
  let oid := k.fir.oid.toNat
  let lane := (s.coreSt c.core).laneHolder == some c.which
  let flags : SlotFlags := ⟨lane, false, suspd, k.gang.isSome⟩
  let used := (s.ownerSt oid).slotsUsed
  let pick := match named with
    | some i => some i
    | none => (List.range 8192).find? fun i => !used.contains i
  let w : Who := ⟨oid, true, c.core, false⟩
  let spoilt := lane && !(s.coreSt c.core).lanePoison.isEmpty
  let tried := match pick.filter fun _ => !spoilt with
    | none => none
    | some i =>
      let va := slotVa s oid i
      (slotAt s c w va (slotPieces s k c state cause flags)).map fun s =>
        (SavedIn.slot i va, (keepBeside s k oid i).updOwner oid fun o => { o with slotsUsed := i :: o.slotsUsed.filter (· != i) })
  match tried with
  | some r => r
  | none =>
    let pa := emergSlotPa s oid (emergSlot c)
    let busy := memGet s.mem (pa + 2) == 1
    let lost := fun (a : Nat) => (SavedIn.failed a, (pick.map fun i => setSlotState s c oid i 4).getD s)
    if (s.ownerSt oid).esave = 0 then lost ((pick.map fun i => (slotVa s oid i).toNat).getD 0)
    else if spoilt || busy then lost pa
    else match slotAtPhys s c oid pa (slotPieces s k c state cause { flags with emerg := true }) with
    | none => lost pa
    | some s => (.emergency pa, (keepBeside s k oid (emergSlot c)).firingEvent c 3 0 0 pa)

/-! ### Ending and losing firings -/

/-- The helper of a core stops; its state is not kept (R293). -/
def stopHelper (s : State) (core : Nat) : State :=
  (s.setCtx ⟨core, 2⟩ {}).updCore core fun k => { k with helperOf := none }
/-- The helper stops if it belongs to a context. -/
def stopHelperOf (s : State) (c : CtxId) : State :=
  if (s.coreSt c.core).helperOf == some c.which then stopHelper s c.core else s

/-- The lane store is released and begins its clear (R17). -/
def releaseLane (s : State) (c : CtxId) : State :=
  if (s.coreSt c.core).laneHolder == some c.which then
    s.updCore c.core fun k => { k with laneHolder := none, laneClearing := true }
  else s

/-- Close the open gang of a context (R164). -/
def closeGang (s : State) (c : CtxId) : State :=
  let s := s.updCtx c fun k => { k with gang := none }
  if (s.coreSt c.core).sliceGang == some c.which then s.updCore c.core fun k => { k with sliceGang := none } else s

/-- A member closes its gang for good (MGANG of 0, END, a loss). One that has issued nothing since its MGANG has met no
position: it is as if it had never joined, so that its next MGANG meets the members whose gang is still open (R165). -/
def leaveGang (s : State) (c : CtxId) : State :=
  let k := s.ctxOf c
  let s := closeGang s c
  match k.gang with
  | some (mask, 0) =>
    let bit := BitVec.twoPow 8 (indexOf c.core)
    s.updCluster (clusterOf c.core) fun t =>
      { t with gangs := lupd (fun g => g.mask == mask && g.inst == k.gangInst) (fun g => { g with joined := g.joined &&& ~~~bit }) t.gangs }
  | _ => s

/-- What a firing that is gone still has on its way bears another number, that of no context or of a lost firing; its loads are
gone with it. -/
def orphan (s : State) (c nobody : CtxId) : State :=
  let lost := (s.ctxOf c).staged
  let kept := s.net.flight.filter fun f => !(f.ctx == c && f.isLoad)
  let s := s.onNet fun t => { t with flight := lupd (fun (f : Flight) => f.ctx == c) (fun f => { f with ctx := nobody }) kept }
  let s := s.updCore c.core fun k =>
    { k with slice := lupd (fun (o : MatOp) => o.ctx == c) (fun o => { o with ctx := nobody, discard := lost }) k.slice }
  let s := s.updCluster (clusterOf c.core) fun k =>
    { k with copyQ := lupd (fun (o : CopyOp) => o.ctx == c) (fun o => { o with ctx := nobody }) k.copyQ }
  s.onHome fun h =>
    { h with
      replLog := lupd (fun (r : ReplStore) => r.ctx == c) (fun r => { r with ctx := nobody }) h.replLog
      copies := lupd (fun (k : Copy) => k.holder == some c) (fun k =>
        { k with holder := if nobody.which = 3 then none else some nobody }) h.copies }

/-- A context gives up its firing and is free: lane store, helper, gang and monitor entries go, and what is still on its way bears
the number `heir`. -/
def freeCtx (s : State) (c : CtxId) (heir : CtxId := ⟨c.core, 3⟩) : State :=
  let s := orphan (closeGang (stopHelperOf (releaseLane s c) c) c) c heir
  let s := s.updCore c.core fun k => { k with monitor := k.monitor.filter (· != c) }
  s.setCtx c {}

/-- Release the firing's holds on levels (R287). -/
def releaseHolds (s : State) (c : CtxId) : State :=
  let k := s.ctxOf c
  let s := k.holds.foldl (fun s h => levelDrop s c k.fir.oid.toNat h.toNat 0 false) s
  s.updCtx c fun k => { k with holds := [] }

/-- Whether a number is that of a lost firing whose effects are not all known: 4 and above on its core. -/
def isGhost (c : CtxId) : Bool := decide (4 ≤ c.which)

/-- Whether a lost firing still has something on its way: accesses, matrix operations or copies (R280, R288). -/
def ghostBusy (s : State) (g : CtxId) : Bool :=
  (s.net.flight.any fun f => f.ctx == g) || (s.home.replLog.any fun r => r.ctx == g) || !(s.ctxOf g).copies.isEmpty ||
    (s.coreSt g.core).slice.any fun o => o.ctx == g

/-- Once nothing of a lost firing is on its way, its dirty lines are written back, LOSTF is set in its launch, and the launch count
falls by 1, merging the firing's completion witness (R280, R287, R288). -/
def ghostGoes (s : State) (g : CtxId) : State :=
  if !isGhost g || ghostBusy s g then s
  else
    let s := (deliverPriv s g .device).stampLeft g s.net.nextId .device
    let k := s.ctxOf g
    let wit := witnessMax (mkWit .device k.runMax) (mkWit .device (witStamp k.copyWit))
    let s := levelDrop s ⟨g.core, 3⟩ k.fir.oid.toNat k.fir.launch.toNat wit true
    { s with parked := s.parked.filter (·.1 != g) }

/-- A firing lost after its last retry (R291, R384, R393): its staging is discarded, and a system event tells. The context is free,
and the firing's launch learns of the loss once its writes, copies and operations are done (R287). -/
def loseFiring (s : State) (c : CtxId) (cause : Nat) : State :=
  let k := s.ctxOf c
  let oid := k.fir.oid.toNat
  let s := releaseHolds (s.trace oid 6 (k.fir.fid.toNat + k.fir.retry.toNat * 2 ^ 32) c) c
  let s := match (s.ownerSt oid).mpass with
    | some _ => s.updOwner oid fun o => { o with mpass := o.mpass.map fun (m : MPass) =>
        { m with fault := m.fault || m.launch == k.fir.launch.toNat } }
    | none => s
  let g : CtxId := ⟨c.core, s.contexts.foldl (fun n p => max n p.1.which) 3 + 1⟩
  let s := freeCtx ((leaveGang s c).firingEvent c 1 cause 0 0) c g
  ghostGoes (s.setCtx g { fir := { k.fir with exposed := true }, crs := k.crs, runMax := k.runMax, copies := k.copies
                          copyWit := k.copyWit, sig := k.sig, evIdx := k.evIdx }) g

/-- A loss of a context's firing (R291, R381, R399): an unexposed recoverable firing is pushed again, unless it was at its
last retry; any other is lost. -/
def lossOf (s : State) (c : CtxId) (cause : Nat) : State :=
  let k := s.ctxOf c
  let oid := k.fir.oid.toNat
  if k.life != .running then s
  else if k.staged && decide (k.fir.retry.toNat < 2) then
    let again : DequeEntry :=
      { record := k.fir.record, addr := k.fir.recAddr, startWit := k.fir.startWit, fid := k.fir.fid, retry := k.fir.retry + 1 }
    let s := s.trace oid 6 (k.fir.fid.toNat + k.fir.retry.toNat * 2 ^ 32 + 2 ^ 34) c
    let s := (releaseHolds (leaveGang s c) c).firingEvent c 2 cause 0 0
    let s := s.onNet fun t => { t with redispatch := t.redispatch ++ [⟨again, oid, c.core⟩] }
    freeCtx s c
  else loseFiring s c cause

/-! ### Resuming (R391) -/

/-- A context as a slot holds it, with what is kept beside the slot, reserved bits of its control registers reading as zero (R5). The
counts of bank waits and fillers are not in a slot (log entry 8), and neither is a held SEED.LO (log entry 12). -/
def slotCtx (s : State) (kept : SlotKept) (img : Nat → Nat → Nat) : Ctx :=
  let word := fun (o : Nat) => BitVec.ofNat 64 (img o 8)
  let cr := fun (i : Nat) => word (0x240 + 8 * i)
  let firing := word 8
  let owner := cr 5
  let tstat := cr 14
  let rm := word 24
  let mask := img 128 1
  { x := Vector.ofFn fun i => word (0x100 + 8 * i.val)
    v := Vector.ofFn fun i => BitVec.ofNat 512 (img (0x1000 + 64 * i.val) 64)
    m := Vector.ofFn fun i => word (0x200 + 8 * i.val)
    t := Vector.ofFn fun i => BitVec.ofNat 16384 (img (0x2000 + 2048 * i.val) 2048)
    pc := word 16
    life := .running
    crs := { (List.range 17).foldl (fun r n => crWriteUser r n (cr n)) {} with cmode := tstat.getLsbD 2 }
    fir :=
      { oid := BitVec.ofNat 8 (img 4 1), isSealed := owner.getLsbD 8, retry := firing.extractLsb' 62 2,
        recov := firing.getLsbD 61, exposed := firing.getLsbD 60, prio := firing.extractLsb' 58 2,
        launch := firing.extractLsb' 32 12, fid := firing.setWidth 32, record := BitVec.ofNat 512 (img 64 64),
        recAddr := word 40, startWit := word 32 }
    runMax := witStamp rm
    holds := ((List.range 8).map fun i => img (48 + 2 * i) 2).filterMap fun h =>
      if h = 0xffff then none else some (BitVec.ofNat 12 h)
    streams := (List.range 8).filterMap fun i =>
      if img (0x300 + 32 * i) 32 = 0 && !kept.bound.contains (BitVec.ofNat 6 (56 + i)) then none
      else some ⟨BitVec.ofNat 6 (56 + i), word (0x300 + 32 * i), word (0x308 + 32 * i), word (0x310 + 32 * i), false,
        img (0x318 + 32 * i) 8, []⟩
    dacc := (List.range 176).filterMap fun i =>
      let sum := img (0x6000 + 16 * i) 8
      let cnt := img (0x6008 + 16 * i) 4
      if sum = 0 && cnt = 0 then none else some (i, (sum, cnt))
    gang := if (BitVec.ofNat 8 (img 3 1)).getLsbD 3 then some (BitVec.ofNat 8 mask, img 132 4) else none
    gangInst := kept.gangInst
    lostPend := kept.lost
    aside := kept.aside
    copies := (List.range (min 32 (img 156 4))).map fun i => img (0x6B00 + 64 * i) 64
    noticeSet := word 136
    sig := word 144
    evIdx := img 152 4
    bankWait := (Config.bankWait s.tick).setWidth 64
    fill := (Config.filler s.tick).setWidth 32 }

/-- A core of a measurement run's pass takes the pass's events (R367). -/
def passEvents (s : State) (core oid launch : Nat) : State :=
  match (s.ownerSt oid).mpass with
  | none => s
  | some m =>
    if m.launch != launch || m.cores.contains core then s
    else
      let evs : Vector Perf 4 := Vector.ofFn fun j => { event := BitVec.ofNat 8 (lget 0 m.events (4 * m.pass + j.val)) }
      (s.updCore core fun k => { k with perf := evs }).updOwner oid fun o =>
        { o with mpass := some { m with cores := m.cores ++ [core] } }

/-- Restore a context from the bytes of a slot, with its lane store where the slot has one (R391). -/
def restoreCtx (s : State) (c : CtxId) (slot : Nat) (img : Nat → Nat → Nat) : State :=
  let oid := img 4 1
  let k := slotCtx s (tget {} (s.ownerSt oid).slotKept slot) img
  let s := (s.setCtx c k).updOwner oid fun o => { o with slotKept := tdel o.slotKept slot }
  let s := s.updCore c.core fun q =>
    { q with sliceGang := if k.gang.isSome then some c.which else q.sliceGang, asleep := false }
  let s := if (BitVec.ofNat 8 (img 3 1)).getLsbD 0 then
      s.updCore c.core fun q =>
        { q with
          laneHolder := some c.which
          lane := (List.range 1024).filterMap fun i =>
            let v := BitVec.ofNat 512 (img (0x9000 + 64 * i) 64)
            if v = 0 then none else some (i, v) }
    else s
  passEvents s c.core k.fir.oid.toNat k.fir.launch.toNat

/-- Whether the res0 bytes and bits of a slot are all 0: its own and its header's, those of its task record, and those of its
streams' endpoint pairs and pattern words (R388, R389; R247, R259, R275). -/
def slotClean (img : Nat → Nat → Nat) : Bool :=
  let bits := fun (o hi lo : Nat) => img o 8 / 2 ^ lo % 2 ^ (hi + 1 - lo) == 0
  img 129 3 == 0 && img 160 96 == 0 && img 0x400 0xc00 == 0 && img 0x7300 0x1d00 == 0 &&
    img 96 32 == 0 && img 88 8 / 16 % 256 == 0 &&
    (List.range 8).all fun i =>
      bits (0x308 + 32 * i) 61 32 && (img (0x308 + 32 * i) 8 / 2 ^ 62 != 1 || bits (0x300 + 32 * i) 63 32) && bits (0x310 + 32 * i) 62 56 && bits (0x310 + 32 * i) 15 0

/-- The bytes of a slot at a virtual address as a function of offset and length, under the checks of an access; its two
64 KiB halves are translated apart. Every line that holds a part of the save is read. -/
def slotBytes (s : State) (c : CtxId) (w : Who) (va : Word) : Chk ((Nat → Nat → Nat) × State) := do
  let (l0, s) ← check s c w va 8 .r
  let (l1, s) ← check s c w (va + 65536) 8 .r
  let t := s
  let img := fun (o n : Nat) =>
    let l := if o < 65536 then { l0 with pa := l0.pa + o } else { l1 with pa := l1.pa + (o - 65536) }
    leNat (overLangor t (dieOf c.core) l (memRead t.mem l.pa n))
  let lines := List.range (if img 3 1 % 2 = 1 then 800 else 288)
  let at_ := fun (i : Nat) => if i < 512 then (l0.owner, l0.line + i) else (l1.owner, l1.line + (i - 512))
  if lines.any fun i => marked s (at_ i).1 (at_ i).2 then .error ⟨.poison, some va, none⟩
  else
    let s := (s.sealFrame w l0.entry l0.pa).sealFrame w l1.entry l1.pa
    .ok (img, lines.foldl (fun s i => reachFor s c w.oid (at_ i).1 (at_ i).2) s)

/-- Whether a saved firing must wait at a core: its lane store is not to be had (R391), or another gang is open at the slice
(R164, R166). -/
def laneBusy (s : State) (core : Nat) (img : Nat → Nat → Nat) : Bool :=
  let flags := BitVec.ofNat 8 (img 3 1)
  (flags.getLsbD 0 && ((s.coreSt core).laneHolder.isSome || (s.coreSt core).laneClearing)) ||
    (flags.getLsbD 3 && (s.coreSt core).sliceGang.isSome)

end Sys2Proof.Machine
end

