-- ==== Sys2Proof/Machine/Ops.lean ====
section
/-! DEFINITION. Taking a trap, returning from one, and how an instruction ends (spec/14_recovery.md R381 to R385;
spec/13_system_instructions.md R359; spec/02_assembly.md R41, R44). -/

namespace Sys2Proof.Machine

/-! ### Taking a trap (R381, R382) -/

/-- The causes that go to the user handler where one is enabled (R381). -/
def Cause.toUser (c : Cause) : Bool :=
  match c with
  | .illegal => true | .align => true | .ownbuf => true | .witmal => true | .poison => true | .bargen => true
  | .barcnt => true | .mxfmt => true | .crfmt => true | .brk => true | .notice => true | .timer => true | .gang => true
  | .priv => false | .xlate => false | .perm => false | .class_ => false | .stage => false | .sealed => false
  | .sys => false | .preempt => false | .hwerr => false | .lost => false

/-- TVEC or SVEC with bit 0 clear. -/
def vecAddr (w : Word) : Word := w &&& ~~~(1 : Word)

/-- Where a trap goes (R382). -/
def trapDest (s : State) (c : Cause) : Word :=
  let r := s.cx.crs
  if c.toUser && r.tvec.getLsbD 0 && !r.inh then vecAddr r.tvec else vecAddr (s.ownerSt s.oid).svec

/-- The entry of a trap that has a handler (R382): the saved registers, the mode, INH, and the handler's address. TADDR
and TVAL keep their values where the rule of the cause names none. -/
def trapEnter (s : State) (c : Cause) (impr : Bool) (addr val : Option Word) (resume dest : Word) : State :=
  let svec := vecAddr (s.ownerSt s.oid).svec
  s.onCx fun k =>
    { k with
      pc := dest
      wait := none
      verdict := none
      judged := none
      early := []
      sig := rotl64 k.sig 13 ^^^ (BitVec.twoPow 64 63 ||| BitVec.ofNat 64 (c.code * 2 ^ 48) ||| resume)
      crs := { k.crs with
        tcause := BitVec.ofNat 64 (c.code + if impr then 256 else 0)
        tpc := resume
        taddr := addr.getD k.crs.taddr
        tval := val.getD k.crs.tval
        pmode := k.crs.cmode
        cmode := if dest == svec then true else k.crs.cmode
        inh := true } }

/-- A double or unhandled trap (R384): the context goes into a save slot with STATE lost and the cause, system software is
told, and the firing ends as lost after its last retry. -/
def trapLost (s : State) (kind : Nat) (c : Cause) : State :=
  let cur := s.cur
  let (where_, s) := saveImage s cur none 4 c.code false
  let addr := match where_ with
    | .slot _ va => va.toNat
    | .emergency pa => pa
    | .failed a => a
  -- a slot whose STATE is lost holds nothing to resume; it stays in use until system software takes it (log entry 12)
  let s := loseFiring (s.firingEvent cur kind c.code 0 addr) cur c.code
  -- in a co-scheduled group it is a fatal fault of the cluster, which comes next (R402)
  s.updCluster (clusterOf cur.core) fun k => { k with fatal := k.group.isSome }

/-- A fault in a firing of a launch under measurement sets FAULT (R367); a call, a notice and a timer are no faults. -/
def State.noteFault (s : State) (c : Cause) : State :=
  if c == .sys || c == .notice || c == .timer then s
  else s.updOwner s.oid fun o => { o with mpass := o.mpass.map fun (m : MPass) =>
    { m with fault := m.fault || m.launch == s.cx.fir.launch.toNat } }

/-- Taking a trap (R382, R384). `resume` is the value of TPC: `start` for a cause at an instruction, the next
instruction for one taken between instructions. -/
def takeTrap (s : State) (c : Cause) (impr : Bool) (addr val : Option Word) (resume : Word) : State :=
  let dest := trapDest s c
  if s.cx.crs.inh && s.cx.crs.cmode then trapLost s 6 c
  else if dest = 0 then trapLost s 5 c
  else
    let s := (s.noteFault c).trace s.oid 4 (c.code + fieldN resume 48 1 * 256) s.cur
    trapEnter s c impr addr val resume dest

/-- The return from a handler (R359): the mode is the one that PMODE holds, INH is clear, and execution goes on at TPC. -/
def trapReturn (s : State) : State :=
  s.onCx fun k => { k with pc := vecAddr k.crs.tpc, crs := { k.crs with cmode := k.crs.pmode, inh := false } }

/-! ### How an instruction ends -/

/-- The outcome of an instruction's steps: its result, the trap it takes at itself, or the wait in which it stays at its
address. The helper stops at any fault (R293). -/
def finish (s : State) (a : Act State) : Host.Outcome State Fault Refusal :=
  match a with
  | .ok t => .next t
  | .error (.trap c addr val) =>
    if s.cur.which = 2 then .next (stopHelper s s.cur.core)
    else .next (takeTrap (s.onCx fun k => { k with trapped := true }) c false addr val s.cx.pc)
  | .error (.wait w t) =>
    .next ((t.getD s).onCx fun k =>
      { k with
        wait := some w
        judged := match w with
          | .replica st _ => some (some st)
          | _ => k.judged })

/-- An instruction that has no effect but to pass. -/
def pass (s : State) : Act State := .ok s.advance

/-- Write a scalar register and go on (R88). -/
def putX (s : State) (r : XReg) (w : Word) : State := (s.setX r w).advance
/-- Write a vector register and go on. -/
def putV (s : State) (r : VReg) (w : Vec) : State := (s.setV r w).advance
/-- Write a mask register and go on. -/
def putM (s : State) (r : MReg) (w : Word) : State := (s.setM r w).advance
/-- The loads that an instruction has left to take effect later stay with the register that it has written (R203): `t` is the
state before the write, `u` that after it. -/
def putLate (t u : State) : State :=
  u.onCx fun k => { k with late := t.cx.late.filter fun l => decide (k.firstId ≤ l.id) || k.late.contains l }
/-- Write a register pair, the lower first (R356). -/
def putPair (s : State) (r : XReg) (lo hi : Word) : State := ((s.setX r lo).setX (nextReg r) hi).advance
/-- Raise FSTAT flags (R79). -/
def State.flags (s : State) (f : Nat) : State :=
  s.onCx fun k => { k with crs := { k.crs with fstat := k.crs.fstat ||| BitVec.ofNat 64 (f % 64) } }

/-- Checked and judged, the witness in a register (R192, R193). An instruction that has waited for a replica judges it no
second time. -/
def witnessOf (s : State) (r : XReg) : Act (Option Stamp) := do
  checkWitness (s.getX r)
  .ok (s.cx.judged.getD (judge s.now (s.getX r)))

/-- The null witness, so that a helper sees memory and never a staging (R293): its own context holds none. -/
def isHelper (s : State) : Bool := s.cur.which == 2

/-- A helper executes page 0 and page 1 loads, ALU operations, branches and PRF; anything else stops it (R293). Nothing
else of the state changes. -/
def helperStop (s : State) : State := stopHelper s s.cur.core

end Sys2Proof.Machine
end

