-- ==== Sys2Proof/Machine/Operands.lean ====
section
/-! DEFINITION. Operand forms: sizes, lanes and masks, addresses, branch targets, rounding modes
(spec/02_assembly.md R36, R38, R40; spec/03_opcode_map.md R71, R72; spec/05_core_instructions.md R122, R135, R139). -/

namespace Sys2Proof.Machine

/-- What an instruction answers. -/
abbrev Out := Host.Outcome State Fault Refusal

/-- A branch target: 2·disp from the first word of the chain (R36). -/
def State.target (s : State) (disp : Word) : Word := s.cx.pc + 2 * disp
/-- A memory operand's address (R221). -/
def State.addr (s : State) (b : XReg) (e : Word) : Word := s.getX b + e

/-- The lanes of a size that the mask leaves active (R72), in ascending order. -/
def State.active (s : State) (n : Nat) (mk : MReg) : List Nat := (List.range n).filter (s.getM mk).getLsbD
/-- The lanes of a vector element size that the mask leaves active. -/
def State.activeOf (s : State) (sz : VSize) (mk : MReg) : List Nat := s.active (VSize.lanes sz) mk

/-- The rounding mode of an instruction (R40, R98): QL, or RMODE. -/
def State.rmode (s : State) (r : RSel) : RMode :=
  match r with
  | .rne => .rne | .rtz => .rtz | .rdn => .rdn | .rup => .rup | .rna => .rna
  | .dyn =>
    match fieldN s.cx.crs.rmode 2 0 with
    | 1 => .rtz | 2 => .rdn | 3 => .rup | 4 => .rna | _ => .rne

/-- The floating-point format of an element size (R135); none at 8 bits, where the instruction is ILLEGAL. -/
def vfFmt (sz : VSize) : Option FFmt :=
  match sz with
  | .s32 => some fp32 | .s16 => some bf16 | .s8 => none

/-- Lane `i` of a list of lanes written with what `f` gives for it, the rest as they were: the vector and the flags that
the lanes raise (R72, R135). -/
def writeLanes (old : Vec) (w : Nat) (lanes : List Nat) (f : Nat → Nat × Nat) : Vec × Nat :=
  lanes.foldl (fun a i => let r := f i; (setLane a.1 w i r.1, a.2 ||| r.2)) (old, 0)

/-- Write the active lanes of a vector register and go on, raising the flags of the lanes. -/
def laneOp (s : State) (d : VReg) (sz : VSize) (mk : MReg) (f : Nat → Nat × Nat) : State :=
  let r := writeLanes (s.getV d) (VSize.bits sz) (s.activeOf sz mk) f
  (putV s d r.1).flags r.2

/-- Write the bits of a mask register for the lanes given; bits at and above the lane count are written zero (R72). -/
def maskWrite (old : Word) (n : Nat) (lanes : List Nat) (f : Nat → Bool) : Word :=
  let keep := old &&& BitVec.ofNat 64 (2 ^ n - 1)
  lanes.foldl (fun m i => if f i then m ||| BitVec.twoPow 64 i else m &&& ~~~(BitVec.twoPow 64 i)) keep

/-- An immediate within a range, or ILLEGAL (R136). -/
def immBelow (s : State) (imm : Word) (n : Nat) : Act Nat :=
  if imm.toNat < n then .ok imm.toNat else illegal s

end Sys2Proof.Machine
end

