-- ==== Sys2Proof/Machine/Flags.lean ====
section
/-! DEFINITION. Results with flags: wrapping and saturating integers, float lanes and compares
(spec/04_formats.md R93, R96, R97; spec/05_core_instructions.md R123, R135, R142, R143). -/

namespace Sys2Proof.Machine

/-- An exact integer as an element of `w` bits: wrapped, or clamped with SAT where the clamp changed it (R93, R123). -/
def satOr (sat : Bool) (w : Nat) (z : Int) : Nat × Nat :=
  if sat then
    let c := clampS z w
    (pat c.1 w, if c.2 then flagSAT else 0)
  else (pat z w, 0)

/-- The value of an integer lane operation of two lanes (R142). -/
def intLane (sat : Bool) (w : Nat) (f : Int → Int → Int) (a b : Vec) (i : Nat) : Nat × Nat :=
  satOr sat w (f (laneS a w i) (laneS b w i))
/-- The value of an unsigned or bitwise lane operation. -/
def natLane (w : Nat) (f : Nat → Nat → Nat) (a b : Vec) (i : Nat) : Nat × Nat := (f (lane a w i) (lane b w i) % 2 ^ w, 0)
/-- The value of a float lane operation of two lanes. -/
def fltLane (f : FFmt) (op : FVal → FVal → Nat × Nat) (a b : Vec) (i : Nat) : Nat × Nat :=
  op (f.decode (lane a f.width i)) (f.decode (lane b f.width i))

/-- A float compare (R143): the result and its flag. -/
def fltCmp (cond : Nat) (x y : FVal) : Bool × Nat :=
  let nan := x.isNan || y.isNan
  match cond with
  | 6 => (!nan && fEq x y, nvOf [x, y])
  | 7 => (!nan && fLess x y, if nan then flagNV else 0)
  | 8 => (!nan && (fLess x y || fEq x y), if nan then flagNV else 0)
  | _ => (nan, nvOf [x, y])

/-- An integer compare (R143). -/
def intCmp (cond w : Nat) (a b : Vec) (i : Nat) : Bool :=
  match cond with
  | 0 => lane a w i == lane b w i
  | 1 => lane a w i != lane b w i
  | 2 => decide (laneS a w i < laneS b w i)
  | 3 => decide (laneS a w i ≤ laneS b w i)
  | 4 => decide (lane a w i < lane b w i)
  | _ => decide (lane a w i ≤ lane b w i)

/-- The leading zeros among the low `w` bits (R128). -/
def clzW (v w : Nat) : Nat := w - bitLen (v % 2 ^ w)
/-- The one bits among the low `w` bits (R128). -/
def popcW (v : Word) (w : Nat) : Nat := (List.range w).countP v.getLsbD

/-- The bits of `w` rotated left by `k`. -/
def rotlW (x w k : Nat) : Nat := (x * 2 ^ k) % 2 ^ w + x / 2 ^ (w - k)

end Sys2Proof.Machine
end

