-- ==== Sys2Proof/Machine/Scalar.lean ====
section
/-! DEFINITION. Page 0 moves, constants and integer arithmetic (spec/05_core_instructions.md R124 to R129, R134). -/

namespace Sys2Proof.Machine

/-- NOP (R124). -/
def execNop (s : State) : Out := .next s.advance
/-- MOV (R124). -/
def execMov (a b : XReg) (s : State) : Out := .next (putX s a (s.getX b))
/-- LI (R124). -/
def execLi (a : XReg) (imm : Word) (s : State) : Out := .next (putX s a imm)
/-- LIH (R124). -/
def execLih (a : XReg) (imm : Word) (s : State) : Out :=
  .next (putX s a (imm.setWidth 32 ++ (s.getX a).setWidth 32))

/-- The mould of R125 on signed operands: the low bits of the exact result, sign-extended (R122). -/
def signedOp (f : Int → Int → Int) (d l r : XReg) (sz : Size) (s : State) : Out :=
  let w := Size.bits sz
  .next (putX s d (sextW (f (sval (s.getX l) w) (sval (s.getX r) w)) w))
/-- The mould of R125 on unsigned operands. -/
def unsignedOp (f : Nat → Nat → Nat) (d l r : XReg) (sz : Size) (s : State) : Out :=
  let w := Size.bits sz
  .next (putX s d (sextW (f (uval (s.getX l) w) (uval (s.getX r) w)) w))
/-- A bitwise operation over 64 bits. -/
def bitOp (f : Word → Word → Word) (d l r : XReg) (s : State) : Out := .next (putX s d (f (s.getX l) (s.getX r)))
/-- A compare result, 0 or 1. -/
def bool01 (b : Bool) : Word := if b then 1 else 0

/-- ADD (R125). -/
def execAdd (d l r : XReg) (sz : Size) (s : State) : Out := signedOp (· + ·) d l r sz s
/-- SUB (R125). -/
def execSub (d l r : XReg) (sz : Size) (s : State) : Out := signedOp (· - ·) d l r sz s
/-- MUL (R125). -/
def execMul (d l r : XReg) (sz : Size) (s : State) : Out := signedOp (· * ·) d l r sz s
/-- MULH (R125). -/
def execMulh (d l r : XReg) (sz : Size) (s : State) : Out :=
  signedOp (fun x y => (x * y).fdiv (2 ^ Size.bits sz)) d l r sz s
/-- MULHU (R125). -/
def execMulhu (d l r : XReg) (sz : Size) (s : State) : Out := unsignedOp (fun x y => x * y / 2 ^ Size.bits sz) d l r sz s

/-- Quotient and remainder of R126. -/
def divRem (w : Nat) (signed : Bool) (num den : Int) : Int × Int :=
  if den = 0 then (-1, num)
  else if signed && decide (num = -(2 ^ (w - 1))) && decide (den = -1) then (num, 0)
  else (num.tdiv den, num - num.tdiv den * den)

/-- DIV (R126). -/
def execDiv (d l r : XReg) (sz : Size) (s : State) : Out :=
  signedOp (fun x y => (divRem (Size.bits sz) true x y).1) d l r sz s
/-- DIVU (R126). -/
def execDivu (d l r : XReg) (sz : Size) (s : State) : Out :=
  let w := Size.bits sz
  .next (putX s d (sextW (divRem w false (uval (s.getX l) w) (uval (s.getX r) w)).1 w))
/-- REM (R126). -/
def execRem (d l r : XReg) (sz : Size) (s : State) : Out :=
  signedOp (fun x y => (divRem (Size.bits sz) true x y).2) d l r sz s
/-- REMU (R126). -/
def execRemu (d l r : XReg) (sz : Size) (s : State) : Out :=
  let w := Size.bits sz
  .next (putX s d (sextW (divRem w false (uval (s.getX l) w) (uval (s.getX r) w)).2 w))

/-- AND (R125). -/
def execAnd (d l r : XReg) (s : State) : Out := bitOp (· &&& ·) d l r s
/-- OR (R125). -/
def execOr (d l r : XReg) (s : State) : Out := bitOp (· ||| ·) d l r s
/-- XOR (R125). -/
def execXor (d l r : XReg) (s : State) : Out := bitOp (· ^^^ ·) d l r s

/-- SHL's value: uval · 2^k (R125). -/
def shlW (x k : Nat) : Nat := x * 2 ^ k
/-- SHR's value. -/
def shrW (x k : Nat) : Nat := x / 2 ^ k
/-- SRA's value, rounded towards −∞. -/
def sraW (x : Int) (k : Nat) : Int := x.fdiv (2 ^ k)

/-- SHL (R125). -/
def execShl (d l r : XReg) (sz : Size) (s : State) : Out := unsignedOp (fun x y => shlW x (y % Size.bits sz)) d l r sz s
/-- SHR (R125). -/
def execShr (d l r : XReg) (sz : Size) (s : State) : Out := unsignedOp (fun x y => shrW x (y % Size.bits sz)) d l r sz s
/-- SRA (R125). -/
def execSra (d l r : XReg) (sz : Size) (s : State) : Out :=
  let w := Size.bits sz
  .next (putX s d (sextW (sraW (sval (s.getX l) w) (uval (s.getX r) w % w)) w))
/-- ROTL (R125). -/
def execRotl (d l r : XReg) (sz : Size) (s : State) : Out :=
  unsignedOp (fun x y => rotlW x (Size.bits sz) (y % Size.bits sz)) d l r sz s

/-- MIN (R125). -/
def execMin (d l r : XReg) (sz : Size) (s : State) : Out := signedOp (fun x y => if x ≤ y then x else y) d l r sz s
/-- MAX (R125). -/
def execMax (d l r : XReg) (sz : Size) (s : State) : Out := signedOp (fun x y => if x ≤ y then y else x) d l r sz s
/-- MINU (R125). -/
def execMinu (d l r : XReg) (sz : Size) (s : State) : Out := unsignedOp (fun x y => if x ≤ y then x else y) d l r sz s
/-- MAXU (R125). -/
def execMaxu (d l r : XReg) (sz : Size) (s : State) : Out := unsignedOp (fun x y => if x ≤ y then y else x) d l r sz s

/-- SEQ (R125). -/
def execSeq (d l r : XReg) (sz : Size) (s : State) : Out :=
  let w := Size.bits sz
  .next (putX s d (bool01 (uval (s.getX l) w == uval (s.getX r) w)))
/-- SLT (R125). -/
def execSlt (d l r : XReg) (sz : Size) (s : State) : Out :=
  let w := Size.bits sz
  .next (putX s d (bool01 (decide (sval (s.getX l) w < sval (s.getX r) w))))
/-- SLTU (R125). -/
def execSltu (d l r : XReg) (sz : Size) (s : State) : Out :=
  let w := Size.bits sz
  .next (putX s d (bool01 (decide (uval (s.getX l) w < uval (s.getX r) w))))

/-- ADDI (R127). -/
def execAddi (a : XReg) (sz : Size) (imm : Word) (s : State) : Out :=
  let w := Size.bits sz
  .next (putX s a (sextW (sval (s.getX a) w + imm.toInt) w))
/-- ANDI (R127). -/
def execAndi (a : XReg) (imm : Word) (s : State) : Out := .next (putX s a (s.getX a &&& imm))
/-- ORI (R127). -/
def execOri (a : XReg) (imm : Word) (s : State) : Out := .next (putX s a (s.getX a ||| imm))

/-- A shift by an immediate from 0 to w − 1 (R127). -/
def shiftImm (s : State) (a : XReg) (sz : Size) (imm : Word) (f : Nat → Word) : Out :=
  finish s do
    let k ← immBelow s imm (Size.bits sz)
    .ok (putX s a (f k))

/-- SHLI (R127). -/
def execShli (a : XReg) (sz : Size) (imm : Word) (s : State) : Out :=
  let w := Size.bits sz
  shiftImm s a sz imm fun k => sextW (shlW (uval (s.getX a) w) k) w
/-- SHRI (R127). -/
def execShri (a : XReg) (sz : Size) (imm : Word) (s : State) : Out :=
  let w := Size.bits sz
  shiftImm s a sz imm fun k => sextW (shrW (uval (s.getX a) w) k) w
/-- SRAI (R127). -/
def execSrai (a : XReg) (sz : Size) (imm : Word) (s : State) : Out :=
  let w := Size.bits sz
  shiftImm s a sz imm fun k => sextW (sraW (sval (s.getX a) w) k) w
/-- SLTI (R127). -/
def execSlti (a : XReg) (sz : Size) (imm : Word) (s : State) : Out :=
  .next (putX s a (bool01 (decide (sval (s.getX a) (Size.bits sz) < imm.toInt))))

/-- CLZ (R128). -/
def execClz (a b : XReg) (sz : Size) (s : State) : Out :=
  .next (putX s a (BitVec.ofNat 64 (clzW (s.getX b).toNat (Size.bits sz))))
/-- POPC (R128). -/
def execPopc (a b : XReg) (sz : Size) (s : State) : Out :=
  .next (putX s a (BitVec.ofNat 64 (popcW (s.getX b) (Size.bits sz))))
/-- SEL (R129). -/
def execSel (a b c : XReg) (s : State) : Out := .next (putX s a (if s.getX a != 0 then s.getX b else s.getX c))

/-- MRD (R134). -/
def execMrd (a : XReg) (b : MReg) (s : State) : Out := .next (putX s a (s.getM b))
/-- MWR (R134). -/
def execMwr (a : MReg) (b : XReg) (s : State) : Out := .next (putM s a (s.getX b))
/-- TIME (R228). -/
def execTime (a : XReg) (s : State) : Out := .next (putX s a (s.now.setWidth 64))
/-- WMAX (R227). -/
def execWmax (d l r : XReg) (s : State) : Out :=
  finish s do
    checkWitness (s.getX l)
    checkWitness (s.getX r)
    .ok (putX s d (witnessMax (s.getX l) (s.getX r)))

end Sys2Proof.Machine
end

