-- ==== Sys2Proof/Machine/Branch.lean ====
section
/-! DEFINITION. Branches, calls, jumps, BRK and SYS (spec/05_core_instructions.md R130 to R133;
spec/13_system_instructions.md R357; spec/14_recovery.md R411). -/

namespace Sys2Proof.Machine

/-- A conditional branch: the path signature folds pc and the decision (R130, R411). -/
def branchIf (s : State) (taken : Bool) (disp : Word) : Out :=
  let s' := s.foldSig s.cur (s.cx.pc ||| bool01 taken)
  .next (if taken then s'.setPc (s.target disp) else s'.advance)

/-- A jump to an address: ALIGN for a target with bit 0 set, with the target in TADDR (R131); the path signature folds pc
and the target (R411). `link` writes x31. -/
def jumpTo (s : State) (dest : Word) (link : Bool) : Out :=
  finish s (
    if dest.getLsbD 0 then trapAt .align dest
    else
      let s' := s.foldSig s.cur (s.cx.pc ^^^ rotl64 dest 32)
      .ok ((if link then s'.setX 31 s.cx.npc else s').setPc dest))

/-- B (R130). -/
def execBr (imm : Word) (s : State) : Out := .next (s.setPc (s.target imm))
/-- BZ (R130). -/
def execBz (a : XReg) (imm : Word) (s : State) : Out := branchIf s (s.getX a == 0) imm
/-- BNZ (R130). -/
def execBnz (a : XReg) (imm : Word) (s : State) : Out := branchIf s (s.getX a != 0) imm
/-- BLTZ (R130). -/
def execBltz (a : XReg) (imm : Word) (s : State) : Out := branchIf s ((s.getX a).getLsbD 63) imm
/-- BGEZ (R130). -/
def execBgez (a : XReg) (imm : Word) (s : State) : Out := branchIf s (!(s.getX a).getLsbD 63) imm
/-- CALL (R131). -/
def execCall (imm : Word) (s : State) : Out := .next ((s.setX 31 s.cx.npc).setPc (s.target imm))
/-- CALLR (R131). -/
def execCallr (a : XReg) (s : State) : Out := jumpTo s (s.getX a) true
/-- JR (R131). -/
def execJr (a : XReg) (s : State) : Out := jumpTo s (s.getX a) false

/-- JTAB (R132). -/
def execJtab (a b : XReg) (imm : Word) (s : State) : Out :=
  if imm = 0 || 2 ^ 32 ≤ imm.toNat then finish s (illegal s)
  else
    let idx := s.getX a
    if imm.toNat ≤ idx.toNat then
      .next ((s.foldSig s.cur (s.cx.pc ^^^ rotl64 s.cx.npc 32)).advance)
    else
      finish s do
        let (entry, t) ← loadNat s (s.getX b + 4 * idx) 4 none false
        let dest := s.getX b + (BitVec.ofNat 32 entry).signExtend 64
        if dest.getLsbD 0 then trapAt .align dest
        else .ok ((t.foldSig t.cur (s.cx.pc ^^^ rotl64 dest 32)).setPc dest)

/-- The bits of a mask register that BANY, BNONE and BALL test (R133). -/
def maskLow (s : State) (a : MReg) (sz : VSize) : Nat := (s.getM a).toNat % 2 ^ VSize.lanes sz

/-- BANY (R133). -/
def execBany (a : MReg) (sz : VSize) (imm : Word) (s : State) : Out := branchIf s (maskLow s a sz != 0) imm
/-- BNONE (R133). -/
def execBnone (a : MReg) (sz : VSize) (imm : Word) (s : State) : Out := branchIf s (maskLow s a sz == 0) imm
/-- BALL (R133). -/
def execBall (a : MReg) (sz : VSize) (imm : Word) (s : State) : Out :=
  branchIf s (maskLow s a sz == 2 ^ VSize.lanes sz - 1) imm

/-- BRK (R357). -/
def execBrk (imm : Word) (s : State) : Out := finish s (.error (.trap .brk (some s.cx.npc) (some imm)))
/-- SYS (R357). -/
def execSys (imm : Word) (s : State) : Out := finish s (.error (.trap .sys (some s.cx.npc) (some imm)))

end Sys2Proof.Machine
end

