-- ==== Sys2Proof/Machine/Vector.lean ====
section
/-! DEFINITION. Page 1: lane access, permutes, integer arithmetic, reductions and mask logic
(spec/05_core_instructions.md R137, R140 to R146, R152, R153). -/

namespace Sys2Proof.Machine

/-! ### Lane access (R137) -/

/-- VMOV. -/
def execVmov (a b : VReg) (sz : VSize) (mk : MReg) (s : State) : Out :=
  .next (laneOp s a sz mk fun i => (lane (s.getV b) (VSize.bits sz) i, 0))
/-- VBCAST. -/
def execVbcast (a : VReg) (b : XReg) (sz : VSize) (mk : MReg) (s : State) : Out :=
  .next (laneOp s a sz mk fun _ => (uval (s.getX b) (VSize.bits sz), 0))
/-- VEXT. -/
def execVext (a : XReg) (b : VReg) (sz : VSize) (imm : Word) (mk : MReg) (s : State) : Out :=
  finish s do
    let i ← immBelow s imm (VSize.lanes sz)
    .ok (if (s.getM mk).getLsbD i then putX s a (sextW (laneS (s.getV b) (VSize.bits sz) i) 64) else s.advance)
/-- VINS. -/
def execVins (a : VReg) (b : XReg) (sz : VSize) (imm : Word) (mk : MReg) (s : State) : Out :=
  finish s do
    let i ← immBelow s imm (VSize.lanes sz)
    .ok (if (s.getM mk).getLsbD i then putV s a (setLane (s.getV a) (VSize.bits sz) i (uval (s.getX b) (VSize.bits sz)))
      else s.advance)

/-! ### The lane store (R17, R140) -/

/-- Take the lane store if no other context holds it and its clear is complete, else wait (R17, R140). -/
def takeLane (s : State) : Act State :=
  let k := s.coreSt s.coreNo
  match k.laneHolder with
  | some w => if w = s.cur.which then .ok s else .error (.wait .laneStore none)
  | none =>
    if k.laneClearing then .error (.wait .laneStore none)
    else .ok (s.updCore s.coreNo fun k => { k with laneHolder := some s.cur.which, lane := [], lanePoison := [] })

/-- The lane-store entry that lane `i` of an index vector names (R74). -/
def laneEntry (v : Vec) (w i : Nat) : Nat := lane v w i % 1024

/-- VLSR: a lane of a poisoned 16-byte chunk raises POISON (R394). -/
def execVlsr (a b : VReg) (sz : VSize) (mk : MReg) (s : State) : Out :=
  finish s do
    let t ← takeLane s
    let w := VSize.bits sz
    let k := t.coreSt t.coreNo
    let ls := s.activeOf sz mk
    if ls.any fun i => k.lanePoison.contains (laneEntry (s.getV b) w i * 4 + w * i / 128) then trapNow .poison
    else .ok (laneOp t a sz mk fun i => (lane (tget 0 k.lane (laneEntry (s.getV b) w i)) w i, 0))

/-- VLSW: a chunk of an entry that the instruction writes whole is no longer poisoned (R394). -/
def execVlsw (a b : VReg) (sz : VSize) (mk : MReg) (s : State) : Out :=
  finish s do
    let t ← takeLane s
    let w := VSize.bits sz
    let ls := s.activeOf sz mk
    let e := fun i => laneEntry (s.getV b) w i
    let per := 128 / w
    let whole := fun (p : Nat) => (List.range per).all fun j =>
      let i := p % 4 * per + j
      ls.contains i && e i == p / 4
    .ok ((t.updCore t.coreNo fun k =>
      { k with
        lane := ls.foldl (fun l i => tset l (e i) (setLane (tget 0 l (e i)) w i (lane (s.getV a) w i))) k.lane
        lanePoison := k.lanePoison.filter fun p => !whole p }).advance)

/-! ### Permutes (R141) -/

/-- VPERM: `l` is permuted by the indices of `r`. -/
def execVperm (d l r : VReg) (sz : VSize) (mk : MReg) (s : State) : Out :=
  let w := VSize.bits sz
  .next (laneOp s d sz mk fun i => (lane (s.getV l) w (lane (s.getV r) w i % VSize.lanes sz), 0))
/-- VROT. -/
def execVrot (a b : VReg) (sz : VSize) (imm : Word) (mk : MReg) (s : State) : Out :=
  finish s do
    let k ← immBelow s imm (VSize.lanes sz)
    .ok (laneOp s a sz mk fun i => (lane (s.getV b) (VSize.bits sz) ((i + k) % VSize.lanes sz), 0))

/-! ### The integer mould (R142) -/

/-- A lane operation on signed values, wrapped or saturated. -/
def vecInt (f : Nat → Int → Int → Int) (d l r : VReg) (sz : VSize) (sat : Bool) (mk : MReg) (s : State) : Out :=
  let w := VSize.bits sz
  .next (laneOp s d sz mk (intLane sat w (f w) (s.getV l) (s.getV r)))
/-- A lane operation on unsigned values. -/
def vecNat (f : Nat → Nat → Nat → Nat) (d l r : VReg) (sz : VSize) (mk : MReg) (s : State) : Out :=
  let w := VSize.bits sz
  .next (laneOp s d sz mk (natLane w (f w) (s.getV l) (s.getV r)))
/-- The shift amount of a lane: uval(rhs, s) mod s. -/
def laneShift (w : Nat) (y : Int) : Nat := pat y w % w

/-- VADD. -/
def execVadd (d l r : VReg) (sz : VSize) (sat : Bool) (mk : MReg) (s : State) : Out :=
  vecInt (fun _ x y => x + y) d l r sz sat mk s
/-- VSUB. -/
def execVsub (d l r : VReg) (sz : VSize) (sat : Bool) (mk : MReg) (s : State) : Out :=
  vecInt (fun _ x y => x - y) d l r sz sat mk s
/-- VMUL. -/
def execVmul (d l r : VReg) (sz : VSize) (sat : Bool) (mk : MReg) (s : State) : Out :=
  vecInt (fun _ x y => x * y) d l r sz sat mk s
/-- VMULH. -/
def execVmulh (d l r : VReg) (sz : VSize) (mk : MReg) (s : State) : Out :=
  vecInt (fun w x y => (x * y).fdiv (2 ^ w)) d l r sz false mk s
/-- VMIN. -/
def execVmin (d l r : VReg) (sz : VSize) (mk : MReg) (s : State) : Out :=
  vecInt (fun _ x y => if x ≤ y then x else y) d l r sz false mk s
/-- VMAX. -/
def execVmax (d l r : VReg) (sz : VSize) (mk : MReg) (s : State) : Out :=
  vecInt (fun _ x y => if x ≤ y then y else x) d l r sz false mk s
/-- VAND. -/
def execVand (d l r : VReg) (sz : VSize) (mk : MReg) (s : State) : Out := vecNat (fun _ x y => x &&& y) d l r sz mk s
/-- VOR. -/
def execVor (d l r : VReg) (sz : VSize) (mk : MReg) (s : State) : Out := vecNat (fun _ x y => x ||| y) d l r sz mk s
/-- VXOR. -/
def execVxor (d l r : VReg) (sz : VSize) (mk : MReg) (s : State) : Out := vecNat (fun _ x y => x ^^^ y) d l r sz mk s
/-- VSHL. -/
def execVshl (d l r : VReg) (sz : VSize) (sat : Bool) (mk : MReg) (s : State) : Out :=
  vecInt (fun w x y => x * 2 ^ laneShift w y) d l r sz sat mk s
/-- VSHR. -/
def execVshr (d l r : VReg) (sz : VSize) (mk : MReg) (s : State) : Out :=
  vecNat (fun w x y => x / 2 ^ (y % w)) d l r sz mk s
/-- VSRA. -/
def execVsra (d l r : VReg) (sz : VSize) (mk : MReg) (s : State) : Out :=
  vecInt (fun w x y => x.fdiv (2 ^ laneShift w y)) d l r sz false mk s

/-- VCMP (R143). -/
def execVcmp (a : MReg) (b c : VReg) (sz : VSize) (imm : Word) (mk : MReg) (s : State) : Out :=
  finish s do
    let cond ← immBelow s imm 10
    let w := VSize.bits sz
    let ls := s.activeOf sz mk
    if cond < 6 then
      .ok (putM s a (maskWrite (s.getM a) (VSize.lanes sz) ls (intCmp cond w (s.getV b) (s.getV c))))
    else
      match vfFmt sz with
      | none => illegal s
      | some f =>
        let r := fun i => fltCmp cond (f.decode (lane (s.getV b) w i)) (f.decode (lane (s.getV c) w i))
        .ok ((putM s a (maskWrite (s.getM a) (VSize.lanes sz) ls fun i => (r i).1)).flags
          (ls.foldl (fun fl i => fl ||| (r i).2) 0))

/-- VSEL (R144): every lane is written, from `l` where the mask bit is 1, else from `r`. -/
def execVsel (d l r : VReg) (sz : VSize) (mk : MReg) (s : State) : Out :=
  let w := VSize.bits sz
  .next (putV s d (writeLanes 0 w (List.range (VSize.lanes sz)) fun i =>
    (if (s.getM mk).getLsbD i then lane (s.getV l) w i else lane (s.getV r) w i, 0)).1)

/-! ### Accumulating and requantising (R145, R146) -/

/-- Byte `4i + j` of a vector, extended as the instruction says. -/
def dotByte (v : Vec) (unsigned : Bool) (k : Nat) : Int := if unsigned then lane v 8 k else laneS v 8 k

/-- VDOT4. -/
def execVdot4 (a b c : VReg) (imm : Word) (sat : Bool) (mk : MReg) (s : State) : Out :=
  finish s do
    let sg ← immBelow s imm 4
    let term := fun i j => dotByte (s.getV b) (sg.testBit 0) (4 * i + j) * dotByte (s.getV c) (sg.testBit 1) (4 * i + j)
    .ok (laneOp s a .s32 mk fun i =>
      satOr sat 32 (laneS (s.getV a) 32 i + (term i 0 + term i 1 + term i 2 + term i 3)))
/-- VMAC. -/
def execVmac (a b c : VReg) (sz : VSize) (sat : Bool) (mk : MReg) (s : State) : Out :=
  let w := VSize.bits sz
  .next (laneOp s a sz mk fun i => satOr sat w (laneS (s.getV a) w i + laneS (s.getV b) w i * laneS (s.getV c) w i))
/-- VRSHR. -/
def execVrshr (d l r : VReg) (sz : VSize) (rnd : RSel) (mk : MReg) (s : State) : Out :=
  let w := VSize.bits sz
  .next (laneOp s d sz mk fun i =>
    (pat (roundInteger (s.rmode rnd) ⟨laneS (s.getV l) w i, -((lane (s.getV r) w i % w : Nat) : Int)⟩) w, 0))
/-- VCLAMP. -/
def execVclamp (a b c : VReg) (sz : VSize) (mk : MReg) (s : State) : Out :=
  let w := VSize.bits sz
  .next (laneOp s a sz mk fun i =>
    (pat (min (max (laneS (s.getV a) w i) (laneS (s.getV b) w i)) (laneS (s.getV c) w i)) w, 0))

/-! ### Reductions and mask logic (R152, R153) -/

/-- Lane 0 of a vector register written, active or not, and flags raised. -/
def putLane0 (s : State) (a : VReg) (w : Nat) (r : Nat × Nat) : State :=
  (putV s a (setLane (s.getV a) w 0 r.1)).flags r.2

/-- VREDADD. -/
def execVredadd (a b : VReg) (sz : VSize) (sat : Bool) (mk : MReg) (s : State) : Out :=
  let w := VSize.bits sz
  .next (putLane0 s a w (satOr sat w (((s.activeOf sz mk).map (laneS (s.getV b) w)).sum)))
/-- VREDMAX. -/
def execVredmax (a b : VReg) (sz : VSize) (mk : MReg) (s : State) : Out :=
  let w := VSize.bits sz
  .next (putLane0 s a w (pat ((s.activeOf sz mk).foldl (fun m i => max m (laneS (s.getV b) w i)) (-(2 ^ (w - 1)))) w, 0))

/-- The operations of MLOG. -/
def mlogBit (op : Nat) (x y : Bool) : Bool :=
  match op with
  | 0 => x && y
  | 1 => x || y
  | 2 => x != y
  | 3 => x && !y
  | _ => !x

/-- MLOG. -/
def execMlog (d l r : MReg) (sz : VSize) (imm : Word) (mk : MReg) (s : State) : Out :=
  finish s do
    let op ← immBelow s imm 5
    .ok (putM s d (maskWrite (s.getM d) (VSize.lanes sz) (s.activeOf sz mk) fun i =>
      mlogBit op ((s.getM l).getLsbD i) ((s.getM r).getLsbD i)))

end Sys2Proof.Machine
end

