-- ==== Sys2Proof/Machine/VFloat.lean ====
section
/-! DEFINITION. Page 1: floating point and conversion (spec/05_core_instructions.md R147 to R152). -/

namespace Sys2Proof.Machine

/-- A float instruction in the format of its size; ILLEGAL at 8 bits (R135). Counts its lane operations (R366). -/
def vecFlt (s : State) (d : VReg) (sz : VSize) (mk : MReg) (f : FFmt → Nat → Nat × Nat) : Out :=
  match vfFmt sz with
  | none => finish s (illegal s)
  | some g => .next ((laneOp s d sz mk (f g)).countEv s.cur 14 (s.activeOf sz mk).length)

/-- A float operation of two operands. -/
def vecFlt2 (op : FFmt → RMode → FVal → FVal → Nat × Nat) (d l r : VReg) (sz : VSize) (rnd : RSel) (mk : MReg) (s : State) :
    Out :=
  vecFlt s d sz mk fun g => fltLane g (op g (s.rmode rnd)) (s.getV l) (s.getV r)
/-- A float operation of one operand. -/
def vecFlt1 (op : FFmt → RMode → FVal → Nat × Nat) (a b : VReg) (sz : VSize) (rnd : RSel) (mk : MReg) (s : State) : Out :=
  vecFlt s a sz mk fun g i => op g (s.rmode rnd) (g.decode (lane (s.getV b) g.width i))

/-- VFADD (R147). -/
def execVfadd (d l r : VReg) (sz : VSize) (rnd : RSel) (mk : MReg) (s : State) : Out := vecFlt2 FFmt.add d l r sz rnd mk s
/-- VFSUB (R147). -/
def execVfsub (d l r : VReg) (sz : VSize) (rnd : RSel) (mk : MReg) (s : State) : Out :=
  vecFlt2 (fun g m x y => g.add m x y.neg) d l r sz rnd mk s
/-- VFMUL (R147). -/
def execVfmul (d l r : VReg) (sz : VSize) (rnd : RSel) (mk : MReg) (s : State) : Out := vecFlt2 FFmt.mul d l r sz rnd mk s
/-- VFMA (R147): va := vb · vc + va. -/
def execVfma (a b c : VReg) (sz : VSize) (rnd : RSel) (mk : MReg) (s : State) : Out :=
  vecFlt s a sz mk fun g i =>
    let at_ := fun (v : VReg) => g.decode (lane (s.getV v) g.width i)
    g.fma (s.rmode rnd) (at_ b) (at_ c) (at_ a)
/-- VFMIN (R148). -/
def execVfmin (d l r : VReg) (sz : VSize) (mk : MReg) (s : State) : Out :=
  vecFlt s d sz mk fun g i => g.minmax false (lane (s.getV l) g.width i) (lane (s.getV r) g.width i)
/-- VFMAX (R148). -/
def execVfmax (d l r : VReg) (sz : VSize) (mk : MReg) (s : State) : Out :=
  vecFlt s d sz mk fun g i => g.minmax true (lane (s.getV l) g.width i) (lane (s.getV r) g.width i)
/-- VFRCP (R149). -/
def execVfrcp (a b : VReg) (sz : VSize) (rnd : RSel) (mk : MReg) (s : State) : Out := vecFlt1 FFmt.rcp a b sz rnd mk s
/-- VFRSQ (R149). -/
def execVfrsq (a b : VReg) (sz : VSize) (rnd : RSel) (mk : MReg) (s : State) : Out := vecFlt1 FFmt.rsq a b sz rnd mk s
/-- VFEXP2 (R149). -/
def execVfexp2 (a b : VReg) (sz : VSize) (rnd : RSel) (mk : MReg) (s : State) : Out := vecFlt1 FFmt.exp2 a b sz rnd mk s

/-- The sum of VFRED from the lowest active lane upwards (R152): bits and flags. -/
def fredSum (g : FFmt) (m : RMode) (xs : List Nat) : Nat × Nat :=
  match xs with
  | [] => (0, 0)
  | [x] => if g.decode x = .nan true then (g.nan, flagNV) else (x, 0)
  | x :: rest => rest.foldl (fun a y => let r := g.add m (g.decode a.1) (g.decode y); (r.1, a.2 ||| r.2)) (x, 0)

/-- VFRED (R152). -/
def execVfred (a b : VReg) (sz : VSize) (rnd : RSel) (mk : MReg) (s : State) : Out :=
  match vfFmt sz with
  | none => finish s (illegal s)
  | some g =>
    let ls := s.activeOf sz mk
    .next ((putLane0 s a g.width (fredSum g (s.rmode rnd) (ls.map (lane (s.getV b) g.width)))).countEv s.cur 14 ls.length)

/-! ### VCVT (R150, R151) -/

/-- The control word of VCVT, if it is legal. -/
structure CvtCtl where
  src : CvFmt
  dst : CvFmt
  sat : Bool
  part : Nat
  deriving DecidableEq, Repr

/-- Element `i` at a width that need not divide a lane's, as a field of the register. -/
def cvtElem (v : Vec) (w i : Nat) : Nat := lane v w i

/-- Whether saturation is allowed: an integer to a narrower integer, or any source to E4M3 or E2M1 (R150). -/
def satAllowed (src dst : CvFmt) : Bool :=
  match src, dst with
  | .int w _, .int w' _ => decide (w' < w)
  | _, .float f => f == e4m3 || f == e2m1
  | .float _, .int _ _ => false

/-- Read the control word (R150, R151); none where it is ILLEGAL. -/
def cvtCtl (imm : Word) : Option CvtCtl :=
  let n := imm.toNat
  match cvFmt (n % 16), cvFmt (n / 16 % 16) with
  | some src, some dst =>
    let sat := n.testBit 8
    let part := n / 512 % 8
    let parts := max src.width dst.width / min src.width dst.width
    if 4096 ≤ n || n % 16 == n / 16 % 16 || (sat && !satAllowed src dst) || parts ≤ part then none
    else some ⟨src, dst, sat, part⟩
  | _, _ => none

/-- The conversions of the active elements into the destination; none where one of them is ILLEGAL. -/
def cvtElems (c : CvtCtl) (m : RMode) (v old : Vec) (act : List Nat) : Option (Vec × Nat) :=
  let wf := c.src.width
  let wt := c.dst.width
  let n := 512 / max wf wt
  act.foldl (fun (o : Option (Vec × Nat)) i => o.bind fun (a, fl) =>
    let si := if wf < wt then c.part * n + i else i
    let di := if wt < wf then c.part * n + i else i
    (convert c.src c.dst c.sat m (cvtElem v wf si)).map fun (b, f) => (setLane a wt di b, fl ||| f)) (some (old, 0))

/-- VCVT. -/
def execVcvt (a b : VReg) (imm : Word) (rnd : RSel) (mk : MReg) (s : State) : Out :=
  finish s (
    match cvtCtl imm with
    | none => illegal s
    | some c =>
      match cvtElems c (s.rmode rnd) (s.getV b) (s.getV a) (s.active (512 / max c.src.width c.dst.width) mk) with
      | none => illegal s
      | some (v, fl) => .ok ((putV s a v).flags fl))

end Sys2Proof.Machine
end

