-- ==== Sys2Proof/Machine/VMemory.lean ====
section
/-! DEFINITION. Loads and stores: page 0 and page 1 (spec/08_memory_instructions.md R224, R225;
spec/05_core_instructions.md R138, R139). -/

namespace Sys2Proof.Machine

/-- LD and LDW: a sign-extending load; LDX: a zero-extending one (R224). -/
def scalarLoad (a b : XReg) (sz : Size) (imm : Word) (na signed : Bool) (wit : Option Stamp) (s : State) : Act State := do
  let w := Size.bits sz
  let d : Option Dest := if a = 0 then none else some (.x a (w / 8) signed)
  let (v, t) ← loadNat s (s.addr b imm) (w / 8) wit na d
  .ok (putLate t (putX t a (if signed then sextW v w else BitVec.ofNat 64 v)))

/-- LD (R224). -/
def execLd (a b : XReg) (sz : Size) (imm : Word) (na : Bool) (s : State) : Out :=
  finish s (scalarLoad a b sz imm na true none s)
/-- LDX (R224). -/
def execLdx (a b : XReg) (sz : Size) (imm : Word) (na : Bool) (s : State) : Out :=
  finish s (scalarLoad a b sz imm na false none s)
/-- LDW (R224): the witness in xc is checked and judged first. -/
def execLdw (a b c : XReg) (sz : Size) (imm : Word) (na : Bool) (s : State) : Out :=
  finish s do
    let wit ← witnessOf s c
    scalarLoad a b sz imm na true wit s
/-- ST (R225). -/
def execSt (a b c : XReg) (sz : Size) (imm : Word) (sc : Option Scope) (na : Bool) (s : State) : Out :=
  finish s do
    let t ← storeBytes s (s.addr b imm) (leBytes (Size.bits sz / 8) (s.getX a).toNat) c (s.scope sc) na
    .ok t.advance

/-! ### Vector accesses (R138, R139) -/

/-- Load the lanes of a register given at their addresses: each is one access of the element's bits, and the first that
fails decides (R138). -/
def loadLanes (a : VReg) (w : Nat) (addr : Nat → Word) : (ls : List Nat) → State → Vec → Act (Vec × State)
  | [], s, v => .ok (v, s)
  | i :: ls, s, v => do
    let (x, s) ← loadNat s (addr i) (w / 8) none false (some (.v a (i * (w / 8)) (w / 8)))
    loadLanes a w addr ls s (setLane v w i x)

/-- A vector load of the active lanes. -/
def vecLoad (a : VReg) (sz : VSize) (mk : MReg) (addr : Nat → Word) (s : State) : Out :=
  finish s do
    let (v, t) ← loadLanes a (VSize.bits sz) addr (s.activeOf sz mk) s (s.getV a)
    .ok (putLate t (putV t a v))

/-- Check every lane of a vector store (R138). -/
def checkLanes (w : Nat) (addr : Nat → Word) : (ls : List Nat) → State → Act (List (Nat × Leaf) × State)
  | [], s => .ok ([], s)
  | i :: ls, s => do
    let (l, s) ← storeCheck s (addr i) (w / 8)
    let (rest, s) ← checkLanes w addr ls s
    .ok ((i, l) :: rest, s)

/-- A vector store of the active lanes with its witness register, if it has one. -/
def vecStore (a : VReg) (sz : VSize) (mk : MReg) (addr : Nat → Word) (wit : Option XReg) (s : State) : Out :=
  finish s do
    let w := VSize.bits sz
    let sc := s.scope none
    let (ls, t) ← checkLanes w addr (s.activeOf sz mk) s
    let t ← storeAll t (ls.map fun p => ⟨addr p.1, p.2, leBytes (w / 8) (lane (s.getV a) w p.1)⟩) sc false
    let t := match wit with
      | some c => if t.storeRefused then t else t.storeWitness c sc (ls.all fun p => p.2.cls != clsPriv)
      | none => t
    .ok t.advance

/-- The address of lane `i` of VLD and VST. -/
def unitAddr (base : Word) (w i : Nat) : Word := base + BitVec.ofNat 64 (i * (w / 8))
/-- The address of lane `i` of VGATH and VSCAT. -/
def indexAddr (base : Word) (idx : Vec) (w i : Nat) : Word := base + BitVec.ofInt 64 (laneS idx w i * ((w / 8 : Nat) : Int))

/-- VLD. -/
def execVld (a : VReg) (b : XReg) (sz : VSize) (imm : Word) (mk : MReg) (s : State) : Out :=
  vecLoad a sz mk (unitAddr (s.addr b imm) (VSize.bits sz)) s
/-- VST. -/
def execVst (a : VReg) (b c : XReg) (sz : VSize) (imm : Word) (mk : MReg) (s : State) : Out :=
  vecStore a sz mk (unitAddr (s.addr b imm) (VSize.bits sz)) (some c) s
/-- VLDS. -/
def execVlds (a : VReg) (b c : XReg) (sz : VSize) (imm : Word) (mk : MReg) (s : State) : Out :=
  vecLoad a sz mk (fun i => s.addr b imm + BitVec.ofNat 64 i * s.getX c) s
/-- VGATH. -/
def execVgath (a : VReg) (b : XReg) (c : VReg) (sz : VSize) (imm : Word) (mk : MReg) (s : State) : Out :=
  vecLoad a sz mk (indexAddr (s.addr b imm) (s.getV c) (VSize.bits sz)) s
/-- VSCAT. -/
def execVscat (a : VReg) (b : XReg) (c : VReg) (sz : VSize) (imm : Word) (mk : MReg) (s : State) : Out :=
  vecStore a sz mk (indexAddr (s.addr b imm) (s.getV c) (VSize.bits sz)) none s

end Sys2Proof.Machine
end

