-- ==== Sys2Proof/Machine/Scratch.lean ====
section
/-! DEFINITION. Scratchpad buffers (spec/08_memory_instructions.md R240 to R246; spec/07_memory_model.md R218, R219;
spec/14_recovery.md R394, R402). -/

namespace Sys2Proof.Machine

/-! ### Buffers (R240) -/

/-- Holder codes of the copy engine, of a landing object, of an export and of a freed buffer (R159, R240). -/
def holdEngine : Nat := 16
def holdLanding : Nat := 17
def holdExport : Nat := 18
def holdFree : Nat := 31

/-- The handle and offset of a scratchpad address. -/
def spHandle (a : Word) : Nat := fieldN a 31 24
def spOff (a : Word) : Nat := fieldN a 23 0

/-- The buffer of a handle in a cluster, unless the handle is free. -/
def bufOf (s : State) (cluster h : Nat) : Option Buf := tfind (s.clusterSt cluster).bufs h
/-- Change a buffer. -/
def updBuf (s : State) (cluster h : Nat) (f : Buf → Buf) : State :=
  s.updCluster cluster fun k => match tfind k.bufs h with
    | some b => { k with bufs := tset k.bufs h (f b) }
    | none => k
/-- Free a handle. -/
def freeBuf (s : State) (cluster h : Nat) : State := s.updCluster cluster fun k => { k with bufs := tdel k.bufs h }
/-- A size rounded up to whole segments of 512 bytes. -/
def segments (n : Nat) : Nat := (n + 511) / 512 * 512
/-- The free bytes of a cluster's scratchpad. -/
def freeBytes (s : State) (cluster : Nat) : Nat :=
  4 * 2 ^ 20 - ((s.clusterSt cluster).bufs.map fun p => segments p.2.size).sum

/-- The holder check for a core (R240): the core holds the buffer and the firing's owner owns it. -/
def coreHolds (s : State) (c : CtxId) (oid h : Nat) : Option Buf :=
  (bufOf s (clusterOf c.core) h).filter fun b => b.holder == indexOf c.core && b.owner == oid

/-- The running core's buffer, or OWNBUF with the scratchpad address in TADDR. -/
def needBuf (s : State) (h : Nat) (a : Word) : Act Buf :=
  match coreHolds s s.cur s.oid h with
  | some b => .ok b
  | none => trapAt .ownbuf a

/-- Whether bytes of a buffer touch a poisoned chunk of 16 bytes (R394). -/
def bufPoisoned (b : Buf) (off n : Nat) : Bool := b.poison.any fun c => overlaps (16 * c) 16 off n
/-- Read bytes of a buffer. -/
def bufRead (b : Buf) (off n : Nat) : List Byte := memRead b.data off n
/-- Write bytes of a buffer; a chunk written whole is no longer poisoned (R394). -/
def bufWrite (b : Buf) (off : Nat) (bs : List Byte) : Buf :=
  { b with
    data := memWrite b.data off bs
    poison := b.poison.filter fun c => !(decide (off ≤ 16 * c) && decide (16 * c + 16 ≤ off + bs.length)) }

/-- The bank of a scratchpad byte (R14). -/
def bankOf (off : Nat) : Nat := off / 16 % 32

/-- Whether some other party touches a cluster's banks now: another context whose last scratchpad access lies at most 64 ns
back (log entry 8), an operation of a matrix slice, a copy that has begun with an end in a buffer, or a delivery. -/
def banksShared (s : State) (cluster : Nat) : Bool :=
  (s.parked.any fun p => clusterOf p.1.core == cluster && p.1 != s.cur && !p.2.banks.isEmpty && !atOrPast s.now (p.2.bankAt + 65)) ||
  (s.cores.any fun k => clusterOf k.1 == cluster && !k.2.slice.isEmpty) ||
  ((s.clusterSt cluster).copyQ.any fun o => o.started && !o.handles.isEmpty) || s.net.inbound.any fun d => d.cluster == cluster

/-- An access to banks counts the cycles it waits for them, which the spec leaves open (R246, R434; log entry 8): any number
where another party touches the banks, at most one for the context's own last access where that took one of them (R437), and
none otherwise. `k` tells the accesses of an instruction apart. -/
def bankTicks (s : State) (banks : List Nat) (k : Nat) : State :=
  let free := (Config.bankWait (s.tick * 32 + k)).toNat
  let n :=
    if banksShared s s.clusterNo then free
    else if banks.any fun b => s.cx.banks.contains b then free % 2
    else 0
  (s.onCx fun c => { c with bankWait := c.bankWait + BitVec.ofNat 64 n, banks := banks, bankAt := s.now }).countEv s.cur 8 n

/-- The banks of bytes of the scratchpad. -/
def banksOf (off n : Nat) : List Nat := (List.range ((off % 16 + n + 15) / 16)).map fun i => bankOf (off + 16 * i)
/-- A scratchpad access to bytes that lie together. -/
def bankTick (s : State) (off n k : Nat) : State := bankTicks s (banksOf off n) k

/-- A scratchpad read of the running core: OWNBUF, PERM, POISON in the order of R454. -/
def spRead (s : State) (h : Nat) (off : Int) (n : Nat) (a : Word) : Act (List Byte × State) := do
  let b ← needBuf s h a
  if off < 0 || (b.size : Int) < off + n then trapAt .perm a
  else if bufPoisoned b off.toNat n then trapAt .poison a
  else .ok (bufRead b off.toNat n, bankTick s off.toNat n 0)

/-- A scratchpad write of the running core. -/
def spWrite (s : State) (h : Nat) (off : Int) (bs : List Byte) (a : Word) : Act State := do
  let b ← needBuf s h a
  if off < 0 || (b.size : Int) < off + bs.length then trapAt .perm a
  else .ok (updBuf (bankTick s off.toNat bs.length 0) s.clusterNo h fun b => bufWrite b off.toNat bs)

/-- A handle in a register, or ILLEGAL above 255 (R240). -/
def handleOf (s : State) (r : XReg) : Act Nat := immBelow s (s.getX r) 256
/-- The scratchpad address of a handle. -/
def handleAddr (h : Nat) : Word := BitVec.ofNat 64 (h * 2 ^ 24)

/-! ### Instructions -/

/-- BALLOC (R241). -/
def execBalloc (a b c : XReg) (s : State) : Out :=
  finish s do
    let h ← handleOf s b
    let n := (s.getX c).toNat
    require s (n % 16 == 0 && decide (16 ≤ n) && decide (n ≤ 4 * 2 ^ 20))
    if (bufOf s s.clusterNo h).isSome then .ok (putX s a 1)
    else if freeBytes s s.clusterNo < segments n then .ok (putX s a 2)
    else .ok (putX (s.updCluster s.clusterNo fun k =>
      { k with bufs := tset k.bufs h { owner := s.oid, holder := indexOf s.coreNo, size := n } }) a 0)

/-- BFREE (R242). -/
def execBfree (b : XReg) (s : State) : Out :=
  finish s do
    let h ← handleOf s b
    let _ ← needBuf s h (handleAddr h)
    .ok (freeBuf s s.clusterNo h).advance

/-- BGIVE (R243). -/
def execBgive (b c : XReg) (s : State) : Out :=
  finish s do
    let h ← handleOf s b
    let n ← immBelow s (s.getX c) 8
    let _ ← needBuf s h (handleAddr h)
    .ok (updBuf s s.clusterNo h fun k => { k with holder := n }).advance

/-- Pass a buffer to holder 18 in the name of an exporting core (R244). -/
def exportBuf (s : State) (cluster h exporter : Nat) : State :=
  updBuf s cluster h fun k => { k with holder := holdExport, exporter := exporter }

/-- BEXPORT (R244): xc = 1 exports; xc = 0 ends the export once no started peer copy still reads the buffer. -/
def doBexport (b c : XReg) (s : State) : Act State := do
  let h ← handleOf s b
  if s.getX c = 1 then
    let _ ← needBuf s h (handleAddr h)
    .ok (exportBuf s s.clusterNo h (indexOf s.coreNo)).advance
  else if s.getX c = 0 then
    match (bufOf s s.clusterNo h).filter fun k =>
        k.holder == holdExport && k.exporter == indexOf s.coreNo && k.owner == s.oid && !k.quarantined with
    | none => trapAt .ownbuf (handleAddr h)
    | some k =>
      if k.readers = 0 then .ok (updBuf s s.clusterNo h fun k => { k with holder := indexOf s.coreNo }).advance
      else .error (.wait (.peers h) none)
  else illegal s

/-- BEXPORT with xc = 1. -/
def execBexportStart (b c : XReg) (s : State) : Out := finish s (doBexport b c s)
/-- BEXPORT with xc = 0. -/
def execBexportEnd (b c : XReg) (s : State) : Out := finish s (doBexport b c s)

/-- The scratchpad address, handle and offset of SPLD and SPST (R245): the sum never changes the handle. -/
def spOperand (s : State) (b : XReg) (e : Word) : Nat × Int × Word :=
  let h := spHandle (s.getX b)
  let off : Int := (spOff (s.getX b) : Int) + e.toInt
  (h, off, BitVec.ofInt 64 (h * 2 ^ 24 + off))

/-- SPLD (R245). -/
def execSpld (a : VReg) (b : XReg) (imm : Word) (s : State) : Out :=
  finish s (
    let (h, off, addr) := spOperand s b imm
    if off % 16 != 0 then trapAt .align addr
    else do
      let (bs, t) ← spRead s h off 64 addr
      .ok (putV t a (BitVec.ofNat 512 (leNat bs))))
/-- SPST (R245). -/
def execSpst (a : VReg) (b : XReg) (imm : Word) (s : State) : Out :=
  finish s (
    let (h, off, addr) := spOperand s b imm
    if off % 16 != 0 then trapAt .align addr
    else do
      let t ← spWrite s h off (leBytes 64 (s.getV a).toNat) addr
      .ok t.advance)

/-- The word of SPSTAT sel 1 (R246). -/
def bufWord (b : Buf) : Word :=
  BitVec.ofNat 64 (b.owner % 256 * 2 ^ 37 + b.holder % 32 * 2 ^ 32 + b.size % 2 ^ 23)

/-- SPSTAT (R246). -/
def execSpstat (a b : XReg) (imm : Word) (s : State) : Out :=
  finish s do
    let sel ← immBelow s imm 4
    match sel with
    | 0 => .ok (putX s a s.cx.bankWait)
    | 1 =>
      let h ← handleOf s b
      .ok (putX s a (((bufOf s s.clusterNo h).map bufWord).getD 0))
    | 2 => .ok (putX s a (BitVec.ofNat 64 (freeBytes s s.clusterNo)))
    | _ => .ok (putX s a (BitVec.ofNat 64 (min 32 ((s.clusterSt s.clusterNo).copyQ.countP fun q => !q.started))))

end Sys2Proof.Machine
end

