-- ==== Sys2Proof/Machine/Matrix.lean ====
section
/-! DEFINITION. Matrix operations: gangs, operands, group sums, contributions, tile registers and the slice
(spec/06_matrix.md R155 to R170, R177 to R184; spec/04_formats.md R102, R103, R106, R107, R110 to R112). -/

namespace Sys2Proof.Machine

/-! ### Formats and group sums -/

/-- A reserved format code of MFMT (R81). -/
def fmtReserved (f : Nat) : Bool := decide (10 ≤ f)
/-- An MX format (R82). -/
def fmtMx (f : Nat) : Bool := decide (6 ≤ f) && decide (f ≤ 9)
/-- The bits of an element; a reserved code counts as 8 (R160). -/
def fmtBits (f : Nat) : Nat :=
  match f with
  | 4 => 16 | 5 => 16 | 8 => 4 | _ => 8
/-- Whether two formats may be paired (R158). -/
def paired (a b : Nat) : Bool :=
  match a with
  | 0 | 1 => decide (b ≤ 1)
  | 2 | 3 | 6 | 7 | 8 => [2, 3, 6, 7, 8, 9].contains b
  | 4 => b == 4
  | 5 => b == 5
  | _ => false
/-- The K positions of a group (R110). -/
def groupSize (a : Nat) : Nat := if a = 4 || a = 5 then 4 else 16

/-- An element's code as an extended real (R81, R100); for DSH8 the sum of its terms (R106). -/
def elemVal (f code : Nat) : XVal :=
  match f with
  | 0 => .num ⟨(BitVec.ofNat 8 code).toInt, 0⟩
  | 1 => .num ⟨code, 0⟩
  | 2 | 6 => (e4m3.decode code).ext
  | 3 | 7 => (e5m2.decode code).ext
  | 4 => (bf16.decode code).ext
  | 5 => (fp16.decode code).ext
  | 8 => (e2m1.decode code).ext
  | _ => .num (dsh8 code)

/-- The terms that an element gives a product: two for DSH8, which a product meets one by one (R107). -/
def elemTerms (f code : Nat) : List XVal :=
  if f = 9 then [.num (dsh8Term (code / 16 % 16)), .num (dsh8Term (code % 16))] else [elemVal f code]

/-- Element `i` of a row of bytes (R102, R160). -/
def rowElem (f : Nat) (row : List Byte) (i : Nat) : Nat :=
  match fmtBits f with
  | 16 => leNat ((row.drop (2 * i)).take 2)
  | 4 => (lget 0 row (i / 2)).toNat / 16 ^ (i % 2) % 16
  | _ => (lget 0 row i).toNat

/-- The scale of row or column `r` at K position `k` (R101, R158, R163); 1 for a format without scales. -/
def scaleAt (o : MatOperand) (r k : Nat) : Option Int :=
  match o.scales with
  | none => some 0
  | some ss => e8m0 (lget 0 (lget [] ss r) (k / 32)).toNat

/-- The index nibble `p` of an index block (R162). -/
def indexNibble (block : List Byte) (p : Nat) : Nat := (lget 0 block (p / 2)).toNat / 16 ^ (p % 2) % 16

/-- The K positions that MMAS keeps of 16-position group `q` of tile `t` in column `n`, with the value row of each (R162). -/
def keptOf (b : MatOperand) (keep n t q : Nat) : List (Nat × Nat) :=
  (List.range keep).map fun j =>
    (64 * t + 16 * q + indexNibble (lget [] b.index t) (n * 4 * keep + q * keep + j), t * 4 * keep + q * keep + j)

/-- The K positions from `k0` of a group of `gs`, with the row of B that holds each in column `n` (R110, R160, R162). -/
def groupPositions (op : MatOp) (n k0 gs : Nat) : List (Nat × Nat) :=
  match op.kind with
  | .mmas => (keptOf op.b op.keep n (k0 / 64) (k0 % 64 / 16)).filter fun p => decide (k0 ≤ p.1) && decide (p.1 < k0 + gs)
  | _ => (List.range gs).map fun i => (k0 + i, k0 + i)

/-- The group sum of output element (m, n) from K position `k0` (R107, R110 to R112). -/
def groupSum (op : MatOp) (m n k0 : Nat) : XVal :=
  let fa := fieldN op.mfmt 3 0
  let fb := fieldN op.mfmt 7 4
  let gs := groupSize fa
  let products := ((groupPositions op n k0 gs).map fun p =>
    let x := scaled (scaleAt op.a m p.1) (elemVal fa (rowElem fa (lget [] op.a.rows m) p.1))
    (elemTerms fb (rowElem fb (lget [] op.b.rows p.2) n)).map fun t => x.mul (scaled (scaleAt op.b n p.1) t)).flatten
  let sum := products.foldl XVal.add (.num Dy.zero)
  if gs = 4 then groupRound sum else sum

/-- Whether the indices of every group of MMAS ascend strictly (R162). -/
def indexOk (op : MatOp) : Bool :=
  match op.kind with
  | .mmas => (List.range 32).all fun n => (List.range (op.depth / 64)).all fun t => (List.range 4).all fun q =>
      let ks := (keptOf op.b op.keep n t q).map (·.1)
      (ks.zip (ks.drop 1)).all fun p => decide (p.1 < p.2)
  | _ => true

/-! ### Operand layout (R159 to R163) -/

/-- A descriptor pair (R160): the scratchpad address, row pitch, tile pitch and rotation. -/
structure Desc where
  addr : Word
  rowPitch : Nat
  tilePitch : Nat
  rot : Nat
  deriving DecidableEq, Repr

def Desc.handle (d : Desc) : Nat := spHandle d.addr
def Desc.off (d : Desc) : Nat := spOff d.addr

/-- Read a descriptor pair (R159, R160). -/
def descOf (s : State) (r : XReg) : Act Desc := do
  require s (pairOk r)
  let a := s.getX r
  let w := s.getX (nextReg r)
  require s (a.toNat < 2 ^ 32 && w.toNat < 2 ^ 36)
  .ok ⟨a, fieldN w 15 0, fieldN w 31 16, fieldN w 35 32⟩

/-- Where chunk `q` of row `r` of tile `t` lies in its buffer (R160, R161). -/
def Desc.chunk (d : Desc) (t r q : Nat) : Nat :=
  d.off + t * d.tilePitch + r * d.rowPitch + 16 * ((q + r * d.rot) % (d.rowPitch / 16))

/-- The end of the highest byte that rows of `n` bytes of `tiles` tiles take. -/
def Desc.extent (d : Desc) (tiles rows n : Nat) : Nat :=
  (List.range rows).foldl (fun m r =>
    (List.range (n / 16)).foldl (fun m q => max m (d.chunk (tiles - 1) r q + 16)) m) 0

/-- Row `r` of tile `t`, `n` bytes. -/
def Desc.row (d : Desc) (b : Buf) (t r n : Nat) : List Byte :=
  ((List.range (n / 16)).map fun q => bufRead b (d.chunk t r q) 16).flatten

/-- The offset of the first poisoned chunk of a row, if any (R394). -/
def Desc.rowPoison (d : Desc) (b : Buf) (t r n : Nat) : Option Nat :=
  ((List.range (n / 16)).map (d.chunk t r)).find? fun o => bufPoisoned b o 16

/-- The limits of a scratchpad operand (R160); `extra` is the index block of MMAS. -/
def Desc.limits (d : Desc) (rows n extra : Nat) : Bool :=
  d.rowPitch % 16 == 0 && decide (n ≤ d.rowPitch) && d.tilePitch % 16 == 0 && decide (rows * d.rowPitch + extra ≤ d.tilePitch)

/-- A scratchpad address with another offset. -/
def Desc.at_ (d : Desc) (off : Nat) : Word := BitVec.ofNat 64 (d.handle * 2 ^ 24 + off)

/-- The rows of a scratchpad operand and the first poison among them. -/
def Desc.readRows (d : Desc) (b : Buf) (tiles rows n : Nat) : List (List (List Byte)) × Option (Cause × Word) :=
  let ts := (List.range tiles).map fun t => (List.range rows).map fun r => d.row b t r n
  let bad := (List.range tiles).findSome? fun t => (List.range rows).findSome? fun r => d.rowPoison b t r n
  (ts, bad.map fun o => (Cause.poison, d.at_ o))

/-- The scales of 32 rows of `nblk` blocks (R163); none where a byte lies outside the buffer, which gives MXFMT. A poisoned
one is reported at the start of its row (log entry 25). -/
def readScales (b : Buf) (reg : Word) (nblk : Nat) : Option (List (List Byte) × Option (Cause × Word)) :=
  let off := spOff reg
  let pitch := fieldN reg 47 32
  if b.size < off + 31 * pitch + nblk then none
  else some <|
    let bad := (List.range 32).find? fun r => bufPoisoned b (off + r * pitch) nblk
    ((List.range 32).map fun r => bufRead b (off + r * pitch) nblk,
      bad.map fun r => (Cause.poison, BitVec.ofNat 64 (spHandle reg * 2 ^ 24 + off + r * pitch)))

/-- A buffer that the running core or its slice holds for the firing's owner (R167). -/
def sliceBuf (s : State) (h : Nat) (a : Word) : Act Buf :=
  let i := indexOf s.coreNo
  match (bufOf s s.clusterNo h).filter fun b => (b.holder == i || b.holder == 8 + i) && b.owner == s.oid with
  | some b => .ok b
  | none => trapAt .ownbuf a

/-- A next holder that a destination pair may name (R159). -/
def nextHolderOk (n : Nat) : Bool := decide (n < 16) || n == holdExport || n == holdFree

/-! ### Gangs (R164, R165) -/

/-- The member mask of the running context's operations: the open gang's, or the core alone. -/
def gangMask (s : State) : BitVec 8 := (s.cx.gang.map (·.1)).getD (BitVec.twoPow 8 (indexOf s.coreNo))
/-- The lowest member of a mask (R164). -/
def leaderOf (mask : BitVec 8) : Nat := ((List.range 8).find? mask.getLsbD).getD 0

/-- The operation of a gang position in a core's slice; one of a gang with another mask that shares a member stands for it,
and the two then differ (R165). -/
def positionOp (s : State) (core : Nat) (p : GangPos) : Option MatOp :=
  (s.coreSt core).slice.find? fun o => !o.started && (o.position.any fun q =>
    q.k == p.k && (q.mask &&& p.mask) != 0 && (q.mask != p.mask || q.inst == p.inst))

/-- Change an operation of a slice. -/
def updOp (s : State) (core id : Nat) (f : MatOp → MatOp) : State :=
  s.updCore core fun k => { k with slice := lupd (fun (o : MatOp) => o.id == id) f k.slice }

/-- The members' cores of a position. -/
def memberCores (cluster : Nat) (mask : BitVec 8) : List Nat :=
  ((List.range 8).filter mask.getLsbD).map (coreAt cluster)

/-- Whether members agree (R165). -/
def agree (a b : MatOp) : Bool :=
  a.position.map (·.mask) == b.position.map (·.mask) && a.kind == b.kind && a.depth == b.depth && a.keep == b.keep &&
    fieldN a.mfmt 7 0 == fieldN b.mfmt 7 0

/-- A position ends with GANG in every member that has issued it (R165): its operations are over, and the members that
have met it are recorded until all have. -/
def gangFail (s : State) (cluster : Nat) (p : GangPos) : State :=
  let met := (memberCores cluster p.mask).filter fun c => (positionOp s c p).isSome
  let s := met.foldl (fun s c => match positionOp s c p with
    | some o => updOp s c o.id fun o => { o with started := true, gangFault := true }
    | none => s) s
  let mask := met.foldl (fun m c => m ||| BitVec.twoPow 8 (indexOf c)) (0 : BitVec 8)
  s.updCluster cluster fun k => { k with deadGangs := if mask = p.mask then k.deadGangs else ⟨p, mask⟩ :: k.deadGangs }

/-- A member issues at a position: whether the position has ended without it (R165), in which case the member has met it
now. -/
def gangDead (s : State) (cluster member : Nat) (p : GangPos) : Bool × State :=
  match (s.clusterSt cluster).deadGangs.find? fun e => e.pos == p with
  | none => (false, s)
  | some e =>
    let met := e.met ||| BitVec.twoPow 8 member
    let put := fun (k : ClusterSt) =>
      let rest := k.deadGangs.filter fun d => d.pos != p
      { k with deadGangs := if met = p.mask then rest else ⟨p, met⟩ :: rest }
    (true, s.updCluster cluster put)

/-- The gang that a member's MGANG opens: the latest one with the mask in the cluster that the member has not opened, or else
a new one (R164; log entry 25). -/
def joinGang (s : State) (cluster member : Nat) (mask : BitVec 8) : Nat × State :=
  let bit := BitVec.twoPow 8 member
  let put := fun (g : GangOpen) => s.updCluster cluster fun k =>
    { k with gangs := g :: k.gangs.filter fun h => h.mask != mask }
  match (s.clusterSt cluster).gangs.find? fun g => g.mask == mask with
  | none => (0, put ⟨mask, 0, bit⟩)
  | some g =>
    if g.joined &&& bit = 0 then (g.inst, put { g with joined := g.joined ||| bit }) else (g.inst + 1, put ⟨mask, g.inst + 1, bit⟩)

/-- MGANG (R178). -/
def execMgang (imm : Word) (s : State) : Out :=
  finish s do
    let n ← immBelow s imm 256
    if n = 0 then .ok (leaveGang s s.cur).advance
    else
      require s ((BitVec.ofNat 8 n).getLsbD (indexOf s.coreNo) && s.cx.gang.isNone)
      match (s.coreSt s.coreNo).sliceGang with
      | some _ => .error (.wait .gangSlice none)
      | none =>
        let (inst, s) := joinGang s s.clusterNo (indexOf s.coreNo) (BitVec.ofNat 8 n)
        .ok ((s.onCx fun k => { k with gang := some (BitVec.ofNat 8 n, 0), gangInst := inst }).updCore s.coreNo fun k =>
          { k with sliceGang := some s.cur.which }).advance

/-! ### Contributions (R169 to R172) -/

/-- The elements of a line list, kept by the line's place. -/
def lineOf (ls : List (CrPlace × CrLine)) (key : Nat) : Option CrLine :=
  (ls.find? fun q => q.1.key == key).map (·.2)
/-- Put a line into a line list. -/
def setLine (ls : List (CrPlace × CrLine)) (p : CrPlace) (l : CrLine) : List (CrPlace × CrLine) :=
  if (lineOf ls p.key).isSome then ls.map fun q => if q.1.key = p.key then (p, l) else q else ls ++ [(p, l)]

/-- Contributions to one element, in ascending K, on a list of lines that start as `start` gives them. -/
def contributeTo (start : CrPlace → CrLine) (ls : List (CrPlace × CrLine)) (p : CrPlace) (i : Nat) (xs : List XVal) :
    List (CrPlace × CrLine) :=
  let l := (lineOf ls p.key).getD (start p)
  setLine ls p (xs.foldl (fun l x => l.contribute p i x) l)

/-- The line from which a firing's contributions go on (R169, R171): its staged line, or an empty one. -/
def startLine (k : Ctx) (p : CrPlace) : CrLine :=
  if k.staged then ((stagedCr k.staging p.key).map (·.2)).getD .empty else .empty

/-- The staging with lines replaced. -/
def stageLines (st : List Staged) (ls : List (CrPlace × CrLine)) : List Staged :=
  ls.foldl (fun st q =>
    if (stagedCr st q.1.key).isSome then
      st.map fun e => match e with
        | .cr p c l => if p.key = q.1.key then .cr p c q.2 else .cr p c l
        | e => e
    else st ++ [.cr q.1 false q.2]) st

/-- Commit contributed lines as one commit with its stamp (R171, R172), each on its way under the owner's streams. What the context has
read ahead of them is of no more use to it where it makes the commit itself (R203). -/
def commitLines (s : State) (c : CtxId) (oid : Nat) (id : Option Nat) (ls : List (CrPlace × CrLine)) : State :=
  let s := ls.foldl (fun s q =>
    let s := if id.isNone then s.updCtx c (·.dropEarly q.1.key 1) else s
    commitLine (s.pass oid (crWay s c q.1)) c oid q.1 false q.2) s
  match id with
  | some n => s.stampWrite c (some n) s.now
  | none => s

/-- The check of an element's page (R170): writable CR memory of the owner. -/
def checkElem (s : State) (c : CtxId) (w : Who) (va : Word) (n : Nat) : Chk (CrPlace × State) := do
  let (l, s) ← check s c w va n .w
  if l.cls != clsCr then .error ⟨.class_, some va, none⟩
  else .ok (crPlace l va, if crMarked s (crPlace l va) then s else s.sealFrame w l.entry l.pa)

/-- The virtual address of output element (m, n) (R159). -/
def MatOp.elem (o : MatOp) (m n : Nat) : Word :=
  o.daddr + BitVec.ofNat 64 (m * fieldN o.dfld 31 0 + 4 * n)
/-- The accessor of a matrix operation. -/
def MatOp.who (o : MatOp) : Who := ⟨o.oid, o.sMode, o.ctx.core, false⟩

/-- The lines that the output of an operation touches, with their frame sizes; addresses that fail are left to the
completion. -/
def opLines (s : State) (o : MatOp) : List (Nat × Nat) :=
  ((List.range 32).map fun m => [o.elem m 0, o.elem m 31].filterMap fun va =>
    match checkElem s o.ctx o.who va 4 with
    | .ok (p, _) => some (p.line, 32 * crBytes p.fmt)
    | .error _ => none).flatten

/-- Every contribution of an operation, in row-major order and ascending K, or the first failing element (R169, R170). -/
def contributions (s : State) (o : MatOp) : Except (Cause × Word) (List (CrPlace × CrLine) × State) :=
  let fa := fieldN o.mfmt 3 0
  let gs := groupSize fa
  let start := startLine (s.ctxOf o.ctx)
  ((List.range 1024).map fun i => (i / 32, i % 32)).foldl (fun acc e =>
    acc.bind fun a =>
      let va := o.elem e.1 e.2
      match checkElem a.2 o.ctx o.who va 4 with
      | .error f => .error (f.cause, va)
      | .ok (p, s) =>
        if p.fmt = 3 && 2 ≤ fa then .error (.crfmt, va)
        else
          let xs := (List.range (o.depth / gs)).map fun g => groupSum o e.1 e.2 (g * gs)
          .ok (contributeTo start a.1 p (crElem va) xs, s))
    (.ok ([], s))

/-! ### Issue (R156, R167, R179) -/

/-- The byte rows of A that MMAT reads from its tiles (R179). -/
def tileRows (s : State) (tb : Nat) (tiles nbytes : Nat) : List (List Byte) :=
  (List.range 32).map fun m =>
    (((List.range tiles).map fun j =>
      let t := s.getT (BitVec.ofNat 3 (tb + j))
      leBytes 64 (t.extractLsb' (512 * m) 512).toNat).flatten).take nbytes

/-- MMA, MMAS and MMAT at issue. A buffer whose handle is free has no allocated size: the model takes it as large enough, so
that the holder check raises OWNBUF (R160, R167; log entry 25). -/
def matIssue (kind : MatKind) (a : XReg) (b : Nat) (c : XReg) (depth keep : Nat) (s : State) : Act State := do
  let core := s.coreNo
  let me := indexOf core
  let mask := gangMask s
  let lead := leaderOf mask == me
  let mfmt := s.cx.crs.mfmt
  let fa := fieldN mfmt 3 0
  let fb := fieldN mfmt 7 4
  let (ea, eb) := (fmtBits fa, fmtBits fb)
  -- ILLEGAL (R159, R160, R179)
  require s (pairOk a)
  let daddr := s.getX a
  let dfld := s.getX (nextReg a)
  let pitch := fieldN dfld 31 0
  let nha := fieldN dfld 36 32
  let nhb := fieldN dfld 41 37
  require s (dfld.toNat < 2 ^ 43 && pitch % 4 == 0 && 128 ≤ pitch && nextHolderOk nhb && (!lead || nextHolderOk nha))
  let tiles := depth / 64
  let aTiles := (depth * ea / 8 + 63) / 64
  let da ← if kind == .mmat then do
        require s (!lead || b + aTiles ≤ 8)
        .ok none
      else do
        require s (pairOk (BitVec.ofNat 5 b))
        if lead then
          let d ← descOf s (BitVec.ofNat 5 b)
          let size := ((bufOf s s.clusterNo d.handle).map (·.size)).getD (2 ^ 24)
          require s (d.limits 32 (8 * ea) 0 && d.extent tiles 32 (8 * ea) ≤ size)
          .ok (some d)
        else .ok none
  let db ← descOf s c
  let bRows := if kind == .mmas then 4 * keep else 64
  let extra := if kind == .mmas then 64 * keep else 0
  let bSize := ((bufOf s s.clusterNo db.handle).map (·.size)).getD (2 ^ 25)
  let bEnd := if kind == .mmas then db.off + (tiles - 1) * db.tilePitch + 4 * keep * db.rowPitch + extra
    else db.extent tiles bRows (4 * eb)
  require s (db.limits bRows (4 * eb) extra && bEnd ≤ bSize)
  require s (!(da.map Desc.handle == some db.handle) || nha == nhb)
  -- ALIGN
  if daddr.toNat % 4 != 0 then trapAt .align daddr
  -- OWNBUF (R163, R167)
  let aBuf ← match da with
    | some d => do .ok (some (← sliceBuf s d.handle d.addr))
    | none => .ok none
  let bBuf ← sliceBuf s db.handle db.addr
  let sca := s.cx.crs.mscalea
  let scb := s.cx.crs.mscaleb
  let aScale ← if lead && fmtMx fa then do .ok (some (← sliceBuf s (spHandle sca) (sca &&& 0xffffffff))) else .ok none
  let bScale ← if fmtMx fb then do .ok (some (← sliceBuf s (spHandle scb) (scb &&& 0xffffffff))) else .ok none
  -- the bytes as they stand now (R168)
  let nblk := depth / 32
  let aScales := aScale.bind fun k => readScales k sca nblk
  let bScales := bScale.bind fun k => readScales k scb nblk
  let aOut := aScale.isSome && aScales.isNone
  let bOut := bScale.isSome && bScales.isNone
  let aRead : MatOperand := match da, aBuf with
    | some d, some k =>
      let (ts, bad) := d.readRows k tiles 32 (8 * ea)
      { rows := (List.range 32).map fun m => (ts.map fun t => lget [] t m).flatten
        scales := aScales.map (·.1), badScales := aOut, fault := bad.or (aScales.bind (·.2)) }
    | _, _ =>
      { rows := if lead then tileRows s b aTiles (depth * ea / 8) else []
        scales := aScales.map (·.1), badScales := aOut, fault := aScales.bind (·.2) }
  let (bts, bBad) := db.readRows bBuf tiles bRows (4 * eb)
  let blockAt := fun (t : Nat) => db.off + t * db.tilePitch + 4 * keep * db.rowPitch
  let blocks := if kind == .mmas then List.range tiles else []
  let iBad := (blocks.find? fun t => bufPoisoned bBuf (blockAt t) extra).map fun t => (Cause.poison, db.at_ (blockAt t))
  let bRead : MatOperand :=
    { rows := bts.flatten
      index := blocks.map fun t => bufRead bBuf (blockAt t) extra
      scales := bScales.map (·.1)
      badScales := bOut
      fault := (bBad.or iBad).or (bScales.bind (·.2)) }
  let handles := (da.map fun d => (d.handle, true)).toList ++ [(db.handle, false)] ++
    (aScale.map fun _ => (spHandle sca, true)).toList ++ (bScale.map fun _ => (spHandle scb, false)).toList
  let handles := handles.foldl (fun (hs : List (Nat × Bool)) h => if hs.any fun g => g.1 == h.1 then hs else hs ++ [h]) []
  -- the slice's queue (R155)
  if 8 ≤ (s.coreSt core).slice.length then .error (.wait .sliceQueue none)
  let position := s.cx.gang.bind fun g => if g.1 = BitVec.twoPow 8 me then none else some ⟨g.1, s.cx.gangInst, g.2⟩
  let op : MatOp :=
    { id := s.net.nextId, kind := kind, depth := depth, keep := keep, mfmt := mfmt, daddr := daddr, dfld := dfld
      a := aRead, b := bRead, pc := s.cx.pc, ctx := s.cur, oid := s.oid, sMode := s.cx.crs.cmode, position := position
      handles := handles, issuedAt := s.now, started := false, gangFault := false, discard := false }
  -- STAGE (R292)
  let lines := if s.cx.staged then opLines s op else []
  let need := stagingNeed s s.cx.staging lines
  if need ≤ stagingLimit && stagingNeed s s.cx.staging [] < need && !backingOk s need then trapNow .stage
  let (dead, s) := match position with
    | some p => gangDead s s.clusterNo me p
    | none => (false, s)
  let s := handles.foldl (fun (s : State) (h : Nat × Bool) => updBuf s s.clusterNo h.1 fun k => { k with holder := 8 + me }) s
  let s := (s.onNet fun t => { t with nextId := t.nextId + 1 }).onCx fun k =>
    { k with gang := k.gang.map fun g => (g.1, g.2 + 1) }
  let s := s.updCore core fun k => { k with slice := k.slice ++ [{ op with lines := lines, started := dead, gangFault := dead }] }
  .ok s.advance

/-- MMA (R179). -/
def execMma (a b c : XReg) (imm : Word) (s : State) : Out :=
  finish s do
    let k ← immBelow s imm 1024
    matIssue .mma a b.toNat c (64 * (k + 1)) 0 s
/-- MMAS (R179). -/
def execMmas (a b c : XReg) (imm : Word) (s : State) : Out :=
  finish s do
    let k ← immBelow s imm 2048
    matIssue .mmas a b.toNat c (64 * (k / 2 + 1)) (if k % 2 = 1 then 4 else 8) s
/-- MMAT (R179). -/
def execMmat (a : XReg) (b : TReg) (c : XReg) (imm : Word) (s : State) : Out :=
  finish s do
    let k ← immBelow s imm 1024
    matIssue .mmat a b.toNat c (64 * (k + 1)) 0 s

/-! ### Tile registers (R180, R181) -/

/-- The address of row `r` of a tile in memory. -/
def tileVa (s : State) (b c : XReg) (r : Nat) : Word := s.getX b + BitVec.ofNat 64 r * s.getX c
/-- The alignment of a tile in memory. -/
def tileAligned (s : State) (b c : XReg) : Act Unit :=
  if (s.getX b).toNat % 64 != 0 then trapAt .align (s.getX b)
  else if (s.getX c).toNat % 64 != 0 then trapAt .align (tileVa s b c 1)
  else .ok ()

/-- A tile with row `r` replaced. -/
def setRow (t : Tile) (r : Nat) (row : List Byte) : Tile :=
  let mask : Tile := (BitVec.ofNat 16384 (2 ^ 512 - 1)) <<< (512 * r)
  (t &&& ~~~mask) ||| ((BitVec.ofNat 16384 (leNat row)) <<< (512 * r))
/-- Row `r` of a tile. -/
def tileRow (t : Tile) (r : Nat) : List Byte := leBytes 64 (t.extractLsb' (512 * r) 512).toNat

/-- The descriptor of a tile in scratchpad and its buffer: 32 rows of 64 bytes, tile pitch 0 (R180). -/
def tileDesc (s : State) (b c : XReg) : Act (Desc × Buf) := do
  require s (c == 0)
  let d ← descOf s b
  require s (d.rowPitch % 16 == 0 && decide (64 ≤ d.rowPitch) && d.tilePitch == 0)
  let k ← needBuf s d.handle d.addr
  match (List.range 32).find? fun r => k.size < (List.range 4).foldl (fun m q => max m (d.chunk 0 r q + 16)) 0 with
  | some r => trapAt .perm (d.at_ (d.off + r * d.rowPitch))
  | none => .ok (d, k)

/-- Load the rows of a tile register from memory, the first that fails deciding. -/
def loadRows (a : TReg) (addr : Nat → Word) : (rs : List Nat) → State → Tile → Act (Tile × State)
  | [], s, t => .ok (t, s)
  | r :: rs, s, t => do
    let (bs, s) ← loadBytes s (addr r) 64 none false (some (.t a (64 * r) 64))
    loadRows a addr rs s (setRow t r bs)
/-- Check every row of a tile store. -/
def checkRows (addr : Nat → Word) : (rs : List Nat) → State → Act (List (Nat × Leaf) × State)
  | [], s => .ok ([], s)
  | r :: rs, s => do
    let (l, s) ← storeCheck s (addr r) 64
    let (rest, s) ← checkRows addr rs s
    .ok ((r, l) :: rest, s)
/-- The stores of a row in aligned units of 8 bytes, each of which is an access of its own (R202). -/
def unitPuts (va : Word) (l : Leaf) (bs : List Byte) : List Put :=
  (List.range (bs.length / 8)).map fun u =>
    ⟨va + BitVec.ofNat 64 (8 * u), { l with pa := l.pa + 8 * u }, (bs.drop (8 * u)).take 8⟩
/-- The stores of a tile's rows. A row that is staged is one piece, which is committed with its line (R215). -/
def rowPuts (s : State) (addr : Nat → Word) (t : Tile) (ls : List (Nat × Leaf)) : List Put :=
  ls.flatMap fun p =>
    if s.cx.staged && p.2.cls != clsPriv then [⟨addr p.1, p.2, tileRow t p.1⟩] else unitPuts (addr p.1) p.2 (tileRow t p.1)

/-- The scratchpad accesses of a tile: one for each row, to the banks of its chunks, which rotation permutes (R434). -/
def tileTicks (d : Desc) : (rs : List Nat) → State → State
  | [], s => s
  | r :: rs, s => tileTicks d rs (bankTicks s ((List.range 4).flatMap fun q => banksOf (d.chunk 0 r q) 16) r)

/-- TLD (R180). -/
def execTld (a : TReg) (b c : XReg) (imm : Word) (s : State) : Out :=
  finish s do
    let sp ← immBelow s imm 2
    if sp = 0 then
      tileAligned s b c
      let (t, s) ← loadRows a (tileVa s b c) (List.range 32) s 0
      .ok (putLate s (s.setT a t).advance)
    else
      let (d, k) ← tileDesc s b c
      match (List.range 32).findSome? fun r => d.rowPoison k 0 r 64 with
      | some o => trapAt .poison (d.at_ o)
      | none => .ok ((tileTicks d (List.range 32) s).setT a ((List.range 32).foldl (fun t r => setRow t r (d.row k 0 r 64)) 0)).advance
/-- TST (R180). -/
def execTst (a : TReg) (b c : XReg) (imm : Word) (s : State) : Out :=
  finish s do
    let sp ← immBelow s imm 2
    if sp = 0 then
      tileAligned s b c
      let (ls, t) ← checkRows (tileVa s b c) (List.range 32) s
      let t ← storeAll t (rowPuts t (tileVa s b c) (s.getT a) ls) (s.scope none) false
      .ok t.advance
    else
      let (d, _) ← tileDesc s b c
      let put := fun (k : Buf) => (List.range 32).foldl (fun k r => (List.range 4).foldl (fun k q =>
        bufWrite k (d.chunk 0 r q) ((tileRow (s.getT a) r).drop (16 * q) |>.take 16)) k) k
      .ok (updBuf (tileTicks d (List.range 32) s) s.clusterNo d.handle put).advance
/-- TZERO (R181). -/
def execTzero (a : TReg) (s : State) : Out := .next (s.setT a 0).advance

/-! ### The slice (R177, R182 to R184) -/

/-- Nanoseconds of core cycles of a cluster at its current clock, rounded up (R22, R429). -/
def cyclesNs (s : State) (cluster n : Nat) : Stamp :=
  let c := s.clusterSt cluster
  let k := if c.sagged then c.clockKHz / 2 else c.clockKHz
  BitVec.ofNat 48 ((n * 1000000 + k - 1) / k)

/-- MHINT (R177, R182). The fillers of the ramp-up that it begins are not counted in FILL (log entry 8). -/
def execMhint (imm : Word) (s : State) : Out :=
  .next (s.updCore s.coreNo fun k =>
    if imm = 0 then { k with hold := none }
    else { k with hold := some (s.now, s.now + cyclesNs s s.clusterNo (64 * imm.toNat)), rampIdle := false }).advance

/-- MWAIT (R183). -/
def execMwait (a : XReg) (s : State) : Out :=
  finish s (
    if (s.coreSt s.coreNo).slice.any fun o => o.ctx == s.cur then .error (.wait .matrixDone none)
    else .ok (s.pendWitness a (s.scope none) s.cx.staged).advance)

/-- The code of a special state (R184). -/
def CrSpec.code : CrSpec → Nat
  | .none => 0 | .pinf => 1 | .ninf => 2 | .nan => 3

/-- Wait for the context's own PCLR, commit or load of a CR line that is on its way (R203). -/
def awaitClear (s : State) (p : CrPlace) : Act Unit :=
  match ownClear s s.cur p with
  | some f => .error (.wait f.awaited none)
  | none => .ok ()

/-- Wait for the context's matrix operations whose contributions come before a staged one of its own to the same line: the staging
takes them in program order (R119, R171). -/
def awaitOps (s : State) (p : CrPlace) : Act Unit :=
  if s.cx.staged && (s.coreSt s.coreNo).slice.any fun o => o.ctx == s.cur && o.lines.any fun l => l.1 == p.line then
    .error (.wait .matrixDone none)
  else .ok ()

/-- A read of a CR line at its home under a witness, its page and mark checked (R173, R184, R186): its place, and the line as the
context reads it, which with the null witness it may have read ahead (R203). -/
def crRead (s : State) (va : Word) (n : Nat) (wit : Option Stamp) : Act ((CrPlace × CrLine) × State) := do
  let (l, s) ← s.check va n .r
  if l.cls != clsCr then trapAt .class_ va
  else
    let p := crPlace l va
    awaitClear s p
    if crMarked s p then trapAt .poison va
    else
      let t := (reachHome (s.sealFrame s.who l.entry l.pa) s.cur p.owner p.line).heard true (placeIdx s p.owner p.key)
      match (s.cx.sampledCr p.key).filter fun _ => wit.isNone with
      | some (line, tick) => .ok ((p, crOver s p line), t.onCx fun k => { k with wrote := max k.wrote tick })
      | none => .ok ((p, crView s p), t.onCx fun k => { k.dropEarly p.key 1 with wrote := max k.wrote s.tick })

/-- MSTAT (R184). -/
def execMstat (a b c : XReg) (imm : Word) (s : State) : Out :=
  finish s do
    let sel ← immBelow s imm 3
    if sel = 0 then
      require s (b == 0 && c == 0)
      let gmask := match s.cx.gang with
        | some g => g.1.toNat
        | none => 0
      .ok (putX s a (BitVec.ofNat 64 (s.cx.fill.toNat * 2 ^ 32 + gmask * 32 + (if s.cx.gang.isSome then 16 else 0) +
        min 8 (s.coreSt s.coreNo).slice.length)))
    else
      let wit ← witnessOf s c
      let ((p, l), s) ← crRead s (s.getX b) 1 wit
      if sel = 1 then .ok (putX s a (if l.ovf then 1 else 0))
      else
        let st := fun (i : Nat) => if crIsX p.fmt then (lget {} l.elems i).st.code else 0
        .ok (putX s a (BitVec.ofNat 64 ((List.range 32).foldl (fun v i => v + st i * 4 ^ i) 0)))

/-- The fillers that a slice inserts are a free number of at most 64 (R177; log entry 8), counted in FILL of the issuing
context (R184) and in event 7 (R366). -/
def addFill (s : State) (c : CtxId) : State :=
  let n := min 64 (Config.filler s.tick).toNat
  (s.updCtx c fun k => { k with fill := BitVec.ofNat 32 (min (2 ^ 32 - 1) (k.fill.toNat + n)) }).countEv c 7 n

end Sys2Proof.Machine
end

