-- ==== Sys2Proof/Machine/CrInst.lean ====
section
/-! DEFINITION. Clears, flushes, reads and contributions of CR memory (spec/06_matrix.md R169, R171 to R176, R185 to R188). -/

namespace Sys2Proof.Machine

/-- The checks of CRCLR and CRFLUSH on their range (R185): the limits, then every page in ascending order. -/
def rangeLimits (s : State) (va len : Word) : Act Unit :=
  if len.toNat < 128 || 2 ^ 30 < len.toNat then illegal s
  else if va.toNat % 128 != 0 || len.toNat % 128 != 0 then trapAt .align va
  else .ok ()

/-- Check the pages of a range, from the address `va` in its first page. -/
def checkPages (end_ : Nat) : (fuel : Nat) → Nat → State → Act State
  | 0, _, s => .ok s
  | fuel + 1, va, s =>
    if end_ ≤ va then .ok s
    else do
      let (_, s) ← (checkElem s s.cur s.who (BitVec.ofNat 64 va) 1).act
      checkPages end_ fuel ((va / 65536 + 1) * 65536) s

/-- The places of the lines of a checked range. -/
def rangePlaces (s : State) (va : Word) (len : Nat) : List CrPlace :=
  (List.range (len / 128)).filterMap fun i =>
    match checkElem s s.cur s.who (va + BitVec.ofNat 64 (128 * i)) 1 with
    | .ok (p, _) => some p
    | .error _ => none

/-- Wait while a line's turn has not come in replay (R412). -/
def awaitTurn (s : State) (evs : List (Option Nat)) : Act Unit :=
  match heldLines s s.cur s.oid (ctxHold s.cur) evs with
  | [] => .ok ()
  | (l, ev) :: _ => .error (.wait (.turn l (some (some ev))) none)

/-- The witness of a CR instruction (R185, R187, R198). -/
def crWitness (s : State) (r : XReg) : State :=
  if s.cx.staged then s.setX r 0 else s.pendWitness r (s.scope none) false

/-- A line is cleared at its home, on the way there under the owner's streams, and joins the write set of a measurement (R175, R185,
R367); a marked one stays, and a system event tells (R396). -/
def clearLine (s : State) (p : CrPlace) : State :=
  let s := s.onCx (·.dropEarly p.key 1)
  if crMarked s p then s.firingEvent s.cur 8 0 0 (p.line * 128)
  else
    let s := reachHome s s.cur p.owner p.line
    crClear ((List.range (crBytes p.fmt / 4)).foldl (fun s i => capturePage s s.cur (p.key + 128 * i)) s) p

/-- CRCLR (R175, R185). -/
def execCrclr (a b c : XReg) (s : State) : Out :=
  finish s do
    let va := s.getX a
    let len := s.getX b
    rangeLimits s va len
    let s ← checkPages (va.toNat + len.toNat) 16385 va.toNat s
    let ps := rangePlaces s va len.toNat
    ps.forM (awaitClear s)
    ps.forM (awaitOps s)
    let direct := fun (s : State) => (ps.foldl clearLine s).stampNow s.cur
    if s.cx.staged then
      match ← stagePut s (ps.foldl (fun st p => addStaged st (.cr p true .empty)) s.cx.staging) with
      | some s => .ok (crWitness s c).advance
      | none => do
        let s ← exposeAct s
        .ok (crWitness (direct s) c).advance
    else .ok (crWitness (direct s) c).advance

/-- CRFLUSH (R174, R185). -/
def execCrflush (a b c : XReg) (s : State) : Out :=
  finish s do
    let va := s.getX a
    let len := s.getX b
    rangeLimits s va len
    let s ← checkPages (va.toNat + len.toNat) 16385 va.toNat s
    let ps := rangePlaces s va len.toNat
    ps.forM (awaitClear s)
    -- a fold of a CRF32 line waits for its turn in replay
    match ps.find? fun p => p.fmt = 2 && (List.range 9).any fun d =>
        (crPartials s p.key).any (·.die == d) && !lineTurn s p.owner p.line 5 0 d (ctxHold s.cur) with
    | some p => .error (.wait (.turn p.line (some none)) none)
    | none =>
      let s := ps.foldl (fun s p => if crMarked s p then s else (List.range 9).foldl (fun s d => foldLine s d p) s) s
      .ok (crWitness (s.stampNow s.cur) c).advance

/-- The alignment of CRRD.raw, whose size the page's format gives: it is judged as soon as the page is found, before the
checks that R454 puts after it (R186; log entry 39). -/
def rawAlign (s : State) (va : Word) : Act Unit :=
  match translate s s.cur s.who.oid va with
  | .error f => .error f.stop
  | .ok (l, _) =>
    if l.cls == clsCr && crIsX (entryFmt l.entry) && va.toNat % (2048 / crWidth (entryFmt l.entry)) != 0 then trapAt .align va
    else .ok ()

/-- CRRD and CRRD.raw (R186). -/
def execCrrd (a : VReg) (b c : XReg) (raw : Bool) (s : State) : Out :=
  finish s do
    let wit ← witnessOf s c
    let va := s.getX b
    if raw then
      rawAlign s va
      let (l, _) ← s.check va 1 .r
      if l.cls != clsCr then trapAt .class_ va
      else if !crIsX (entryFmt l.entry) then trapAt .crfmt va
      else
        let w := crWidth (entryFmt l.entry)
        let n := 512 / w
        let ((_, line), s) ← crRead s va (4 * n) wit
        .ok (putV s a ((List.range n).foldl (fun v i => setLane v w i ((lget {} line.elems (crElem va + i)).val.getD 0)) 0))
    else
      let ((p, line), s) ← crRead s va 64 wit
      let vals := (List.range 16).map fun i => (lget {} line.elems (crElem va + i)).value p
      let s := if vals.any (·.2) then crSticky s true p else s
      .ok (putV s a ((List.range 16).foldl (fun v i => setLane v 32 i (lget (0, false) vals i).1) 0))

/-- Lane `i` of CRADD as a group sum (R187). -/
def laneSum (p : CrPlace) (v : Vec) (i : Nat) : XVal :=
  if p.fmt = 3 then .num ⟨laneS v 32 i, 0⟩ else (fp32.decode (lane v 32 i)).ext

/-- CRADD (R187). -/
def execCradd (a : VReg) (b c : XReg) (s : State) : Out :=
  finish s do
    let va := s.getX b
    let (p, s) ← (checkElem s s.cur s.who va 64).act
    awaitClear s p
    awaitOps s p
    let v := s.getV a
    let lines := fun (k : Ctx) => (List.range 16).foldl (fun ls i =>
      contributeTo (startLine k) ls p (crElem va + i) [laneSum p v i]) []
    let direct := fun (s : State) => do
      awaitTurn s (placeEvents [p])
      if commitUnderWay s s.cur [p.key] then .error (.wait (.turn p.line none) none)
      .ok (crWitness ((commitLines s s.cur s.oid none (lines s.cx)).stampNow s.cur) c).advance
    if s.cx.staged then
      match ← stagePut s (stageLines s.cx.staging (lines s.cx)) with
      | some s => .ok (crWitness s c).advance
      | none => do
        let s ← exposeAct s
        direct s
    else direct s

end Sys2Proof.Machine
end

