-- ==== Sys2Proof/Machine/Atomic.lean ====
section
/-! DEFINITION. Atomics, prefetch, witness instructions, floors and PCLR (spec/08_memory_instructions.md R229 to R239;
spec/15_edges.md R422). -/

namespace Sys2Proof.Machine

/-! ### Atomics -/

/-- The checks of an atomic (R214, R221, R230): an SM page, and in the host window only the operations of R422. -/
def atomicCheck (s : State) (va : Word) (n : Nat) (hostOk : Bool) : Act (Leaf × State) := do
  let (l, s) ← s.check va n .rw
  (needSm va l).act
  if inHost l.pa && !hostOk then trapAt .class_ va
  else .ok (l, s.sealLeaf s.who l)

/-- An atomic on its way (R230): the firing is exposed, the access joins the flights and goes only once every earlier write
of its context is delivered at its scope, and its result register is pending. -/
def atomicLaunch (s : State) (va : Word) (l : Leaf) (kind : FlightKind) (dest : XReg) (sc : Scope) : Act State := do
  let s ← exposeAct s
  let id := s.net.nextId
  let s := s.launch kind va l sc 0 true
  let s := (s.pendResult dest id).countEv s.cur 15 1
  .ok (recordEvent s s.cur 3).advance

/-- The mould of R229 to R232: the sizes that the entry allows, then R230. -/
def amo (op : AmoOp) (sizes : List Size) (a b c : XReg) (sz : Size) (sc : Option Scope) (s : State) : Out :=
  finish s do
    require s (sizes.contains sz)
    let va := s.getX b
    let (l, t) ← atomicCheck s va (Size.bits sz / 8) (op == .add || op == .swp || op == .cas)
    atomicLaunch t va l (.atomic op sz (s.getX c) (s.getX a)) a (s.scope sc)

/-- AMOADD (R229). -/
def execAmoadd (a b c : XReg) (sz : Size) (sc : Option Scope) (s : State) : Out := amo .add [.d, .w] a b c sz sc s
/-- AMOAND (R229). -/
def execAmoand (a b c : XReg) (sz : Size) (sc : Option Scope) (s : State) : Out := amo .and [.d, .w] a b c sz sc s
/-- AMOOR (R229). -/
def execAmoor (a b c : XReg) (sz : Size) (sc : Option Scope) (s : State) : Out := amo .or [.d, .w] a b c sz sc s
/-- AMOXOR (R229). -/
def execAmoxor (a b c : XReg) (sz : Size) (sc : Option Scope) (s : State) : Out := amo .xor [.d, .w] a b c sz sc s
/-- AMOMIN (R229). -/
def execAmomin (a b c : XReg) (sz : Size) (sc : Option Scope) (s : State) : Out := amo .min [.d, .w] a b c sz sc s
/-- AMOMAX (R229). -/
def execAmomax (a b c : XReg) (sz : Size) (sc : Option Scope) (s : State) : Out := amo .max [.d, .w] a b c sz sc s
/-- AMOMINU (R229). -/
def execAmominu (a b c : XReg) (sz : Size) (sc : Option Scope) (s : State) : Out := amo .minu [.d, .w] a b c sz sc s
/-- AMOMAXU (R229). -/
def execAmomaxu (a b c : XReg) (sz : Size) (sc : Option Scope) (s : State) : Out := amo .maxu [.d, .w] a b c sz sc s
/-- AMOSWP (R229). -/
def execAmoswp (a b c : XReg) (sz : Size) (sc : Option Scope) (s : State) : Out := amo .swp [.d, .w] a b c sz sc s
/-- AMOCAS (R231). -/
def execAmocas (a b c : XReg) (sz : Size) (sc : Option Scope) (s : State) : Out := amo .cas [.d, .w] a b c sz sc s
/-- AMOFADD (R232). -/
def execAmofadd (a b c : XReg) (sz : Size) (sc : Option Scope) (s : State) : Out := amo .fadd [.w, .h] a b c sz sc s

/-- MXACC (R233). -/
def execMxacc (a : VReg) (b c : XReg) (sz : Size) (imm : Word) (sc : Option Scope) (s : State) : Out :=
  finish s do
    require s (sz == .w && decide (6 ≤ imm.toNat) && decide (imm.toNat ≤ 8))
    let va := s.getX b
    let (l, t) ← atomicCheck s va 64 false
    atomicLaunch t va l (.mxacc (s.getV a) imm.toNat) c (s.scope sc)

/-! ### Prefetch (R234) -/

/-- Whether a prefetch of a PRIV line finds it held by another context (R234): where a cache holds it dirty for one (log entry
40). -/
def heldByOther (s : State) (line : Nat) : Bool :=
  s.home.copies.any fun (k : Copy) => k.line == line && k.dirty && k.holder != some s.cur

/-- A prefetched line at its home slice (R234); a marked line is not fetched. -/
def prefetchHome (s : State) (owner line : Nat) : Option State :=
  if marked s owner line then none else some (reachHome s s.cur owner line)

/-- Bring a line as far as the scope names; a prefetch that would fault does nothing. One that proceeds through a sealed leaf
seals a free frame (R350). -/
def prefetch (s : State) (va : Word) (sc : Scope) (na : Bool) : State :=
  match check s s.cur s.who va 1 .r with
  | .error _ => s
  | .ok (l, t) =>
    let cached := match sc with
      | .core => (cachedGet t t.cur false false na l.owner l.line none).map (·.2)
      | .device => prefetchHome t l.owner l.line
      | _ => (nearGet t t.cur false false l.owner l.line none).map (·.2)
    let done := match l.cls.toNat with
      | 0 => if heldByOther t l.line then none else cached
      | 1 => cached
      | 4 => prefetchHome t l.owner (replicaPa l.pa t.dieNo / 128)
      | 3 =>
        let p := crPlace l va
        if crMarked t p then none else prefetchHome t p.owner p.line
      | _ => prefetchHome t l.owner l.line
    match done with
    | some u => u.sealFrame s.who l.entry l.pa
    | none => s

/-- PRF (R234): core scope unless a scope is named; system scope is ILLEGAL. -/
def execPrf (b : XReg) (imm : Word) (sc : Option Scope) (na : Bool) (s : State) : Out :=
  finish s do
    require s (sc != some .system)
    .ok (prefetch s (s.addr b imm) (sc.getD .core) na).advance

/-! ### Witnesses and floors (R235 to R238) -/

/-- Raise a floor, which only rises (R235). -/
def raiseFloors (s : State) (w : Stamp) : State :=
  let cl := s.clusterNo
  let part := partOf (floorsOf s (cl / 32) 5) s.oid
  (s.updCore s.coreNo fun k => { k with l1Floor := laterOf k.l1Floor w }).updCluster cl fun k =>
    { k with nearFloor := tset k.nearFloor part (laterOf (tget 0 k.nearFloor part) w) }

/-- WTEST (R236). -/
def execWtest (a b : XReg) (s : State) : Out :=
  finish s do
    match ← witnessOf s b with
    | none => .ok (putX s a 1)
    | some w =>
      let ok := atOrPast (s.dieSt s.dieNo).replMark w && atOrPast (s.coreSt s.coreNo).l1Floor w &&
        atOrPast (nearFloorOf s s.clusterNo s.oid) w
      .ok (putX s a (bool01 ok))

/-- WWAIT (R237). Every later access comes after it: what was read ahead is of no more use (R267). -/
def execWwait (b : XReg) (s : State) : Out :=
  finish s do
    match ← witnessOf s b with
    | none => pass (s.onCx fun k => { k with early := [] })
    | some w =>
      if atOrPast (s.dieSt s.dieNo).replMark w then .ok ((raiseFloors s w).onCx fun k => { k with early := [] }).advance
      else .error (.wait (.replica w false) none)

/-- WFRONT (R238). -/
def execWfront (a : XReg) (s : State) : Out :=
  .next (s.pendWitness a (s.scope none) s.cx.staged).advance

/-! ### Clearing poison (R239) -/

/-- The staging with a PCLR: what was staged before for a CR line goes, and what is staged after it follows the clear. -/
def stageClear (st : List Staged) (va : Word) (l : Leaf) (crp : Option CrPlace) : List Staged :=
  match crp with
  | none => addStaged st (.pclr va l.pa l.cls l.owner none)
  | some p =>
    let rest := st.filter fun e => match e with
      | .cr q _ _ => q.key != p.key
      | _ => true
    rest ++ [.pclr va l.pa l.cls l.owner crp, .cr p true .empty]

/-- PCLR. -/
def execPclr (a b : XReg) (sc : Option Scope) (s : State) : Out :=
  finish s do
    let va := s.getX b
    let (l, s) ← s.check va 128 .w
    if l.cls == clsRo then trapAt .class_ va
    else
      let s := s.sealFrame s.who l.entry l.pa
      let crp := if l.cls == clsCr then some (crPlace l va) else none
      let sc := s.scope sc
      let direct := fun (s : State) =>
        (((s.onCx fun k => k.dropEarly ((crp.map (·.key)).getD l.pa) 1).launch (.pclr l.cls crp) va l sc 0 false).pendWitness a sc s.cx.staged).advance
      if s.cx.staged && l.cls != clsPriv then
        match crp with
        | some p => awaitOps s p
        | none => .ok ()
        match ← stagePut (s.onCx fun k => (k.dropEarly l.pa 128).dropEarly ((crp.map (·.key)).getD l.pa) 1) (stageClear s.cx.staging va l crp) with
        | some s => .ok (s.setX a 0).advance
        | none => do
          let s ← exposeAct s
          .ok (direct s)
      else .ok (direct s)

end Sys2Proof.Machine
end

