-- ==== Sys2Proof/Machine/Copy.lean ====
section
/-! DEFINITION. The copy engine and landing objects (spec/08_memory_instructions.md R247 to R258;
spec/07_memory_model.md R218 to R220; spec/10_progress.md R294). -/

namespace Sys2Proof.Machine

/-! ### Endpoints (R247, R248) -/

/-- An endpoint. -/
structure Endpoint where
  addr : Word
  shape : Word
  deriving DecidableEq, Repr

def Endpoint.kind (e : Endpoint) : Nat := fieldN e.shape 63 62
def Endpoint.pitch (e : Endpoint) : Nat := fieldN e.shape 31 0
def Endpoint.die (e : Endpoint) : Nat := fieldN e.shape 35 32
def Endpoint.cmask (e : Endpoint) : Nat := fieldN e.addr 63 32
/-- The clusters that a kind 2 endpoint names. -/
def Endpoint.clusters (e : Endpoint) : List Nat :=
  ((List.range 32).filter e.cmask.testBit).map (e.die * 32 + ·)

/-- Read an endpoint pair (R247). -/
def endpointOf (s : State) (r : XReg) : Act Endpoint := do
  require s (pairOk r)
  let e : Endpoint := ⟨s.getX r, s.getX (nextReg r)⟩
  require s (e.kind != 3 && fieldN e.shape 61 36 == 0 &&
    (if e.kind = 2 then decide (e.die ≤ 8) else e.die == 0) && (e.kind != 1 || decide (e.addr.toNat < 2 ^ 32)))
  .ok e

/-- Fields of the control word (R248). -/
def ctlLnd (c : Word) : Nat := fieldN c 63 59
def ctlOp (c : Word) : Nat := fieldN c 58 56
def ctlRows (c : Word) : Nat := fieldN c 55 40 + 1
def ctlLen (c : Word) : Nat := fieldN c 23 0

/-- The element size of a CPYR operation (R251). -/
def copyElem (op : Nat) : Nat := if op = 3 then 2 else 4

/-- One element of a reduction (R251). -/
def copyOp (op x y : Nat) : Nat :=
  let sx := (BitVec.ofNat 32 x).toInt
  let sy := (BitVec.ofNat 32 y).toInt
  match op with
  | 0 => (x + y) % 2 ^ 32
  | 1 => pat (clampS (sx + sy) 32).1 32
  | 2 => add32 x y
  | 3 => (bf16.add .rne (bf16.decode x) (bf16.decode y)).1
  | 4 => if sy ≤ sx then x else y
  | _ => (fp32.minmax true x y).1

/-- A row combined into the destination's row, element by element (R251). -/
def copyReduce (op : Nat) (dst src : List Byte) : List Byte :=
  let n := copyElem op
  ((List.range (dst.length / n)).map fun i =>
    leBytes n (copyOp op (leNat ((dst.drop (n * i)).take n)) (leNat ((src.drop (n * i)).take n)))).flatten

/-- Whether rows of an endpoint lie in a buffer (R248). -/
def rowsFit (b : Buf) (e : Endpoint) (rows len : Nat) : Bool :=
  decide (spOff e.addr + (rows - 1) * e.pitch + len ≤ b.size)
/-- The address of the first row that does not. -/
def rowOut (b : Buf) (e : Endpoint) (rows len : Nat) : Word :=
  let r := ((List.range rows).find? fun r => b.size < spOff e.addr + r * e.pitch + len).getD 0
  BitVec.ofNat 64 (spHandle e.addr * 2 ^ 24 + spOff e.addr + r * e.pitch)

/-! ### Landing objects (R253 to R258) -/

/-- The landing object of a core. -/
def landingOf (s : State) (core n : Nat) : Option Landing := (s.coreSt core).landing.find? (·.n == n)
/-- Change a landing object. -/
def updLanding (s : State) (core n : Nat) (f : Landing → Landing) : State :=
  s.updCore core fun k => { k with landing := lupd (fun (o : Landing) => o.n == n) f k.landing }

/-- The check of a trigger counter (R254, R309). -/
def checkCounter (s : State) (c : CtxId) (w : Who) (va : Word) : Chk (Leaf × State) := do
  let (l, s) ← check s c w va 8 .w
  needSm va l
  if inWindow l.pa then .error ⟨.class_, some va, none⟩ else .ok (l, s)

/-- The trigger counter of a landing object takes 1 with a witness; an add that fails sets the status to FAULT and makes a
system event (R255). -/
def landCount (s : State) (core n : Nat) (wit : Word) : State :=
  match landingOf s core n with
  | none => s
  | some o =>
    if o.tcnt = 0 then s
    else
      let c : CtxId := ⟨core, 3⟩
      let bad := fun (s : State) (pa : Nat) =>
        (updLanding s core n fun o => { o with status := 3 }).ownerEvent 16 o.oid 0 core 0 pa
      match checkCounter s c ⟨o.oid, o.sMode, core, false⟩ o.tcnt with
      | .error _ => bad s (match translate s c o.oid o.tcnt with
        | .ok (l, _) => l.pa
        | .error _ => 0)
      | .ok (l, s) => if marked s l.owner l.line then bad s l.pa else counterApply s c l.owner l.pa 1 wit

/-- A completion is recorded in a landing object: status, witness and, in mode 0, the count (R252, R253). -/
def landRecord (s : State) (core n : Nat) (status : Nat) (wit : Word) : State :=
  let s := updLanding s core n fun o =>
    { o with count := o.count + 1, status := max o.status status, wit := witnessMax o.wit wit }
  landCount s core n wit

/-- LNDSET (R254). An object that is already set raises ILLEGAL, whoever has set it (R438, R454; log entry 42), and so does a
slot count in a mode that has no ring (log entry 49). -/
def execLndset (a b c : XReg) (s : State) : Out :=
  finish s do
    let n ← immBelow s (s.getX a) 16
    let w := s.getX b
    let mode := fieldN w 63 62
    let slots := fieldN w 53 48
    let handle := fieldN w 61 54
    let expect := fieldN w 31 0
    require s (mode != 3 && fieldN w 47 32 == 0 && expect != 0 && (mode == 2 || slots == 0) &&
      (mode == 0 || decide (handle + slots ≤ 255)))
    match landingOf s s.coreNo n with
    | some _ => illegal s
    | none =>
      let cnt := s.getX c
      let s ← if cnt = 0 then .ok s
        else do
          let (l, s) ← (checkCounter s s.cur s.who cnt).act
          .ok (s.sealLeaf s.who l)
      let hs := if mode = 0 then [] else (List.range (slots + 1)).map (handle + ·)
      hs.forM fun h => do
        let _ ← needBuf s h (handleAddr h)
        .ok ()
      let s := hs.foldl (fun s h => updBuf s s.clusterNo h fun k => { k with holder := holdLanding }) s
      let o : Landing :=
        { n := n, oid := s.oid, mode := mode, count := 0, wit := 0, status := 0, tcnt := cnt, expect := expect
          sMode := s.cx.crs.cmode, bufs := hs.map fun h => (h, 0, false), next := 0, oldest := 0 }
      .ok (s.updCore s.coreNo fun k => { k with landing := k.landing ++ [o] }).advance

/-- The landing object that a register names: ILLEGAL out of range or unset, PERM for another owner's (R253, R258). -/
def needLanding (s : State) (r : XReg) : Act Landing := do
  let n ← immBelow s (s.getX r) 16
  match landingOf s s.coreNo n with
  | none => illegal s
  | some o => if o.oid = s.oid then .ok o else trapNow .perm

/-- The answer of LNDWAIT (R256). -/
def landAnswer (s : State) (a c : XReg) (o : Landing) (handle : Nat) (f : Landing → Landing) : State :=
  let s := updLanding s s.coreNo o.n fun o => { f o with wit := 0, status := 0 }
  ((s.setX a o.wit).setX c (BitVec.ofNat 64 (o.status % 4 * 2 ^ 62 + handle))).advance

/-- LNDWAIT (R256). Where a and c name one register, it holds the second result (log entry 41). -/
def execLndwait (a b c : XReg) (s : State) : Out :=
  finish s do
    let o ← needLanding s b
    if o.mode = 0 then
      if o.count < o.expect then .error (.wait (.landing o.n) none)
      else .ok (landAnswer s a c o 0 fun o => { o with count := o.count - o.expect })
    else
      match o.bufs[o.oldest]? with
      | none => illegal s
      | some (h, n, handed) =>
        if handed || n < o.expect then .error (.wait (.landing o.n) none)
        else
          let s := updBuf s s.clusterNo h fun k => { k with holder := indexOf s.coreNo }
          .ok (landAnswer s a c o h fun o =>
            { o with bufs := o.bufs.modify o.oldest (fun q => (q.1, q.2.1, true)), oldest := (o.oldest + 1) % o.bufs.length })

/-- A delivery or copy that is still due to a landing object (R257, R258). -/
def landingBusy (s : State) (core : Nat) (o : Landing) : Bool :=
  let cl := clusterOf core
  s.net.inbound.any (fun d => d.cluster == cl && o.bufs.any fun b => b.1 == spHandle d.addr) ||
    (s.clusterSt cl).copyQ.any fun q => ctlLnd q.ctl == o.n && q.ctx.core == core

/-- LNDREL of one buffer or of the whole object (R257). -/
def doLndrel (a b : XReg) (s : State) : Act State := do
  let o ← needLanding s b
  let v := s.getX a
  if v = BitVec.allOnes 64 then
    if landingBusy s s.coreNo o then .error (.wait (.dismantle o.n) none)
    else
      let s := o.bufs.foldl (fun s q => updBuf s s.clusterNo q.1 fun k => { k with holder := indexOf s.coreNo }) s
      .ok (s.updCore s.coreNo fun k => { k with landing := k.landing.filter (·.n != o.n) }).advance
  else
    require s (o.bufs.any fun q => BitVec.ofNat 64 q.1 == v)
    let h := v.toNat
    let _ ← needBuf s h (handleAddr h)
    let s := updBuf s s.clusterNo h fun k => { k with holder := holdLanding }
    .ok (updLanding s s.coreNo o.n fun o =>
      { o with bufs := lupd (fun (q : Nat × Nat × Bool) => q.1 == h) (fun q => (q.1, 0, false)) o.bufs }).advance

/-- LNDREL of a buffer. -/
def execLndrelBuffer (a b : XReg) (s : State) : Out := finish s (doLndrel a b s)
/-- LNDREL with xa all ones. -/
def execLndrelDismantle (a b : XReg) (s : State) : Out := finish s (doLndrel a b s)

/-! ### Issue (R249, R250) -/

/-- The endpoint kinds that an instruction allows (R250). -/
def kindsOk (k : CopyKind) (src dst : Endpoint) : Bool :=
  let one := fun (e : Endpoint) => e.kind != 2 || e.clusters.length == 1
  match k with
  | .cpy => one src && one dst
  | .cpym => decide (src.kind < 2) && dst.kind == 2 && e1 dst
  | .cpyr _ => one src && dst.kind == 1
where
  e1 (e : Endpoint) : Bool := !e.clusters.isEmpty

/-- The row starts of a reduction (R251). -/
def reduceAligned (op : Nat) (e : Endpoint) (rows : Nat) : Bool :=
  let n := copyElem op
  e.addr.toNat % n == 0 && (rows == 1 || e.pitch % n == 0)

/-- CPY, CPYM and CPYR at issue. PERM for a landing object of another owner comes before OWNBUF, and TADDR of CPYR's ALIGN is the
address of row 0 (log entry 49). -/
def copyIssue (reduce multi : Bool) (a b c : XReg) (sc : Option Scope) (na : Bool) (s : State) : Act State := do
  let dst ← endpointOf s a
  let src ← endpointOf s b
  require s (pairOk c)
  let ctl := s.getX c
  let wit := s.getX (nextReg c)
  let lnd := ctlLnd ctl
  let rows := ctlRows ctl
  let len := ctlLen ctl
  let op := ctlOp ctl
  let kind : CopyKind := if multi then .cpym else if reduce then .cpyr op else .cpy
  require s (decide (lnd < 16 || lnd = 31) && decide (fieldN ctl 38 34 < 8) && fieldN ctl 33 24 == 0 && len != 0 &&
    (if reduce then decide (op < 6) else op == 0) && kindsOk kind src dst)
  let obj := landingOf s s.coreNo lnd
  let foreign := match obj with
    | some o => o.oid != s.oid
    | none => false
  require s (lnd == 31 || (match obj with
    | some o => o.oid != s.oid || o.mode == 0
    | none => false))
  checkWitness wit
  if reduce && (len % copyElem op != 0 || !reduceAligned op src rows) then trapAt .align src.addr
  if reduce && !reduceAligned op dst rows then trapAt .align dst.addr
  if lnd != 31 && foreign then trapNow .perm
  -- OWNBUF, then PERM, for local scratchpad (R454)
  let locals := [dst, src].filter fun e => e.kind == 1
  let bufs ← locals.mapM fun e => (needBuf s (spHandle e.addr) e.addr).map fun k => (e, k)
  bufs.forM fun q => if rowsFit q.2 q.1 rows len then .ok () else trapAt .perm (rowOut q.2 q.1 rows len)
  -- a peer's buffer, where there is one, must hold the rows (R248)
  ([dst, src].filter fun e => e.kind == 2).forM fun e => e.clusters.forM fun cl =>
    match bufOf s cl (spHandle e.addr) with
    | some k => if rowsFit k e rows len then .ok () else trapAt .perm (rowOut k e rows len)
    | none => .ok ()
  if 32 ≤ ((s.clusterSt s.clusterNo).copyQ.countP fun q => !q.started) then .error (.wait .copyQueue none)
  let s ← if dst.kind = 0 then exposeAct s else .ok s
  let tag := s.net.nextId
  let handles := (locals.map fun e => spHandle e.addr).eraseDups
  let s := handles.foldl (fun s h => updBuf s s.clusterNo h fun k => { k with holder := holdEngine }) s
  let q : CopyOp :=
    { tag := tag, kind := kind, dAddr := dst.addr, dShape := dst.shape, sAddr := src.addr, sShape := src.shape, ctl := ctl
      wit := wit, scope := s.scope sc, na := na, ctx := s.cur, oid := s.oid, sMode := s.cx.crs.cmode, pc := s.cx.pc
      handles := handles }
  let s := (s.onNet fun t => { t with nextId := tag + 1 }).updCluster s.clusterNo fun k => { k with copyQ := k.copyQ ++ [q] }
  .ok ((s.onCx fun k => { k with copies := k.copies ++ [tag] }).countEv s.cur 16 1).advance

/-- CPY (R249, R250). -/
def execCpy (a b c : XReg) (sc : Option Scope) (na : Bool) (s : State) : Out := finish s (copyIssue false false a b c sc na s)
/-- CPYM (R249, R250). -/
def execCpym (a b c : XReg) (sc : Option Scope) (na : Bool) (s : State) : Out := finish s (copyIssue false true a b c sc na s)
/-- CPYR (R249 to R251). -/
def execCpyr (a b c : XReg) (sc : Option Scope) (na : Bool) (s : State) : Out := finish s (copyIssue true false a b c sc na s)

/-! ### The engine (R249 to R252) -/

def CopyOp.src (q : CopyOp) : Endpoint := ⟨q.sAddr, q.sShape⟩
def CopyOp.dst (q : CopyOp) : Endpoint := ⟨q.dAddr, q.dShape⟩
def CopyOp.who (q : CopyOp) : Who := ⟨q.oid, q.sMode, q.ctx.core, false⟩
/-- The address of row `r` of a memory endpoint. -/
def Endpoint.rowVa (e : Endpoint) (r : Nat) : Word := e.addr + BitVec.ofNat 64 (r * e.pitch)
/-- The offset of row `r` of a scratchpad endpoint. -/
def Endpoint.rowOff (e : Endpoint) (r : Nat) : Nat := spOff e.addr + r * e.pitch

/-- The check of a page for a write of the engine (R188, R225). -/
def engineWriteCheck (s : State) (c : CtxId) (w : Who) (va : Word) : Chk (Leaf × State) := do
  let (l, s) ← check s c w va 1 .w
  if l.cls == clsRo then .error ⟨.class_, some va, none⟩
  else if l.cls == clsCr then .error ⟨.crfmt, some va, none⟩
  else .ok (l, s)

/-- Translate and check every page of a memory endpoint's row (R249); pages are 64 KiB or more. -/
def engineCheckRow (s : State) (q : CopyOp) (write : Bool) (end_ : Nat) :
    (fuel : Nat) → Nat → List CopyPage → Chk (List CopyPage × State)
  | 0, _, ps => .ok (ps, s)
  | fuel + 1, va, ps =>
    if end_ ≤ va then .ok (ps, s)
    else do
      let a := BitVec.ofNat 64 va
      let (l, s) ← if write then engineWriteCheck s q.ctx q.who a else check s q.ctx q.who a 1 .r
      let p : CopyPage := ⟨a.toNat / 65536, l.entry, l.level, l.entryPa⟩
      engineCheckRow s q write end_ fuel ((va / 65536 + 1) * 65536) (if ps.contains p then ps else ps ++ [p])

/-- The same of every row of an endpoint that is memory. -/
def engineCheck (s : State) (q : CopyOp) (e : Endpoint) (write : Bool) (ps : List CopyPage) : Chk (List CopyPage × State) :=
  if e.kind != 0 then .ok (ps, s)
  else (List.range (if e.pitch = 0 then 1 else ctlRows q.ctl)).foldlM (fun a r =>
    let va := (e.rowVa r).toNat
    engineCheckRow a.2 q write (va + ctlLen q.ctl) 300 va a.1) (ps, s)

/-- The leaf under which a copy reaches an address, of those that it has checked. -/
def CopyOp.leaf (q : CopyOp) (va : Word) : Leaf :=
  match q.pages.find? fun p => p.page == va.toNat / 65536 with
  | some p => ⟨p.entry, p.level, p.entryPa, leafPa p.entry p.level va⟩
  | none => ⟨0, 0, 0, 0⟩

/-- What a copy's read of SM or REPL bytes waits for: the stores that its context made to them before it issued the copy (R203, R438;
log entry 18). -/
def engineBehind (s : State) (q : CopyOp) (l : Leaf) (n : Nat) : Option Wait :=
  if l.cls == clsSm || l.cls == clsRepl then
    ((s.net.flight.find? fun f => f.ctx == q.ctx && decide (f.id < q.tag) && !f.isLoad && overlaps f.pa f.len l.pa n).map
      Flight.awaited).or
    ((s.home.replLog.find? fun r => r.ctx == q.ctx && decide (r.id < q.tag) && r.dies.contains (dieOf q.ctx.core) &&
      overlaps r.pa r.data.length l.pa n).map fun r => .writes .core (r.id + 1))
  else none

/-- A read of at most a line by the engine (R206, R220, R250): PRIV and RO through the near tier only, CR in whole
elements. The witness that it honours is the one given, judged once (R193, R220). -/
def engineLine (s : State) (q : CopyOp) (va : Word) (n : Nat) : Act (List Byte × State) := do
  let l := q.leaf va
  let wit := q.judged.getD (judge s.now q.wit)
  match engineBehind s q l n with
  | some w => .error (.wait w none)
  | none => .ok ()
  let (bs, s) ←
    if l.cls == clsPriv || l.cls == clsRo then
      match nearGet s q.ctx false true l.owner l.line wit false q.oid with
      | none => trapAt .poison va
      | some (k, s) => .ok (lineBytes k.data (l.pa % 128) n, s)
    else if l.cls == clsCr then do
      let first := va.toNat / 4
      let last := (va.toNat + n - 1) / 4
      let (es, s) ← (List.range (last + 1 - first)).foldlM (fun (a : List Byte × State) i => do
        let ea := BitVec.ofNat 64 (4 * (first + i))
        let (bs, s) ← readBytes a.2 q.ctx false false true (q.leaf ea) ea 4 wit none q.oid
        .ok (a.1 ++ bs, s)) ([], s)
      .ok ((es.drop (va.toNat % 4)).take n, s)
    else readBytes s q.ctx false false true l va n wit none q.oid
  .ok (bs, s.sealFrame q.who l.entry l.pa)

/-- Read bytes of a row of the source or, for a reduction, of the destination: `n` from offset `off` of row `r`. -/
def copyRead (s : State) (q : CopyOp) (e : Endpoint) (r off n : Nat) : Act (List Byte × State) :=
  let cl := clusterOf q.ctx.core
  match e.kind with
  | 0 => engineLine s q (e.rowVa r + BitVec.ofNat 64 off) n
  | k =>
    let cl := if k = 1 then cl else (e.clusters.head?).getD cl
    match bufOf s cl (spHandle e.addr) with
    | none => .ok (List.replicate n 0, s)
    | some b =>
      let at_ := e.rowOff r + off
      match b.poison.find? fun c => overlaps (16 * c) 16 at_ n with
      | some c => trapAt .poison (BitVec.ofNat 64 (spHandle e.addr * 2 ^ 24 + 16 * c))
      | none => .ok (bufRead b at_ n, s)

/-- Change a copy. -/
def updCopy (s : State) (cluster tag : Nat) (f : CopyOp → CopyOp) : State :=
  s.onCopies cluster (fun q => q.tag == tag) f

/-- A write of at most eight bytes by the engine (R202, R220, R250, R252). A PRIV page is written in the near-tier slice of
the issuing context, and that write's fill stamp enters the copy's witness; any other write is on its way to its home, whose
stamp enters it there. -/
def engineWrite (s : State) (q : CopyOp) (va : Word) (bs : List Byte) : Act State :=
  let l := q.leaf va
  let c := q.ctx
  let cl := clusterOf c.core
  let s := s.sealLeaf q.who l
  if l.cls == clsPriv then
    if marked s l.owner l.line then trapAt .poison va
    else
      let s := match findCopy s (.l1 c.core) l.line with
        | some k => (writeBack s k).dropCopy (.l1 c.core) l.line
        | none => s
      match nearGet s c false true l.owner l.line none false q.oid with
      | none => trapAt .poison va
      | some (k, s) =>
        let s := (s.putCopy { k with
          data := linePut k.data (l.pa % 128) bs, dirty := true, holder := some c, va := va - BitVec.ofNat 64 (l.pa % 128)
          engine := k.engine || !k.dirty }).heldAlone c l.line
        .ok (updCopy s cl q.tag fun q =>
          { q.stamped k.fill with lines := if q.lines.contains l.line then q.lines else l.line :: q.lines })
  else
    let repl := l.cls == clsRepl
    let s := (if repl then List.range 9 else []).foldl (fun s d => capturePage s c (replicaPa l.pa d)) (capturePage s c l.pa)
    let gone : CtxId := ⟨c.core, 3⟩
    let path := if repl then (portsTo s (startDie c) s.dev.seqDie).map fun p => (0, p) else pathTo s c l.owner l.pa
    let kind := if repl then FlightKind.repl bs else .store bs
    .ok (s.onNet fun t =>
      { t with
        flight := t.flight ++ [⟨t.nextId, q.tag, gone, q.oid, kind, va, l.pa, l.owner, q.scope, q.pc, 0, false, 0, 0, s.tick, s.now, path, .onWay, false⟩]
        nextId := t.nextId + 1 })

/-- Whether an endpoint's byte at `a` (an address, or an offset) is among the bytes of its rows. -/
def Endpoint.covers (e : Endpoint) (rows len a : Nat) : Bool :=
  let base := if e.kind = 0 then e.addr.toNat else spOff e.addr
  (List.range (if e.pitch = 0 then 1 else rows)).any fun r =>
    decide (base + r * e.pitch ≤ a) && decide (a < base + r * e.pitch + len)

/-- Destination bytes that overlap the source are undefined: free values (R250; log entry 8). -/
def overlapFree (s : State) (q : CopyOp) (r off : Nat) (bs : List Byte) : List Byte :=
  let src := q.src
  let dst := q.dst
  let rows := ctlRows q.ctl
  let len := ctlLen q.ctl
  let base := if dst.kind = 0 then dst.addr.toNat else spOff dst.addr
  let sb := if src.kind = 0 then src.addr.toNat else spOff src.addr
  let same := src.kind == dst.kind && (src.kind == 0 || (src.kind == 1 && spHandle src.addr == spHandle dst.addr))
  if same && overlaps base ((rows - 1) * dst.pitch + len) sb ((rows - 1) * src.pitch + len) then
    bs.mapIdx fun i b =>
      if src.covers rows len (base + r * dst.pitch + off + i) then Config.overlapByte s.tick (r * len + off + i) else b
  else bs

/-- A peer source that may be read (R244, R250, R294): exported by a cluster of the reader's group to the same owner, the
rows within it. -/
def peerReadable (s : State) (q : CopyOp) : Bool :=
  let me := clusterOf q.ctx.core
  match q.src.clusters.head? with
  | none => false
  | some cl =>
    let grouped := cl == me || ((s.clusterSt cl).group.isSome && (s.clusterSt cl).group == (s.clusterSt me).group)
    match bufOf s cl (spHandle q.sAddr) with
    | some b => grouped && b.holder == holdExport && b.owner == q.oid && !b.quarantined &&
        !(s.clusterSt cl).failed &&
        rowsFit b q.src (ctlRows q.ctl) (ctlLen q.ctl)
    | none => false

/-- Count a peer copy among the readers of an exported buffer, or no longer; a quarantined buffer is freed with its last
reader (R402). -/
def peerReader (s : State) (q : CopyOp) (on : Bool) : State :=
  match q.src.clusters.head? with
  | none => s
  | some cl =>
    let h := spHandle q.sAddr
    let s := updBuf s cl h fun b => { b with readers := if on then b.readers + 1 else b.readers - 1 }
    match bufOf s cl h with
    | some b => if b.quarantined && b.readers = 0 then freeBuf s cl h else s
    | none => s

/-- A copy whose engine work ends: it is `sent`, and reads its source no more. -/
def copySent (s : State) (cluster : Nat) (q : CopyOp) : State :=
  updCopy (if q.src.kind = 2 then peerReader s q false else s) cluster q.tag fun q => { q with sent := true }

/-- How many bytes a copy moves next: what is left of its row, but at most an aligned unit of eight bytes of a memory
endpoint (R202). -/
def CopyOp.unit (q : CopyOp) : Nat :=
  let rest := ctlLen q.ctl - q.off
  let cap := fun (e : Endpoint) => if e.kind = 0 then 8 - ((e.rowVa q.row).toNat + q.off) % 8 else rest
  min rest (min (cap q.src) (cap q.dst))

/-- A copy has moved `n` bytes more. -/
def CopyOp.moved (q : CopyOp) (n : Nat) : CopyOp :=
  if q.off + n < ctlLen q.ctl then { q with off := q.off + n } else { q with off := 0, row := q.row + 1 }

/-- A copy moves its next bytes, in ascending order (R250, R251; log entry 12); none where it must wait for a replica. -/
def copyMove (s : State) (cluster : Nat) (q : CopyOp) : Act State := do
  let n := q.unit
  let (bs, s) ← copyRead s q q.src q.row q.off n
  let (bs, s) ← match q.kind with
    | .cpyr op => do
      let (old, s) ← copyRead s q q.dst q.row q.off n
      .ok (copyReduce op old bs, s)
    | _ => .ok (bs, s)
  let bs := overlapFree s q q.row q.off bs
  let s ← match q.dst.kind with
    | 0 => engineWrite s q (q.dst.rowVa q.row + BitVec.ofNat 64 q.off) bs
    | 1 => .ok (updBuf s cluster (spHandle q.dAddr) fun k => bufWrite k (q.dst.rowOff q.row + q.off) bs)
    | _ => .ok (updCopy s cluster q.tag fun q => { q with rows := q.rows ++ [(q.dst.rowOff q.row + q.off, bs)] })
  .ok (updCopy s cluster q.tag fun q => q.moved n)

/-- The rows that a copy has gathered go to other clusters (R250, R255). -/
def copySend (s : State) (cluster : Nat) (q : CopyOp) : State :=
  if q.dst.kind != 2 then s
  else
    let ds := q.dst.clusters.map fun cl => (⟨cl, q.dAddr &&& 0xffffffff, q.rows, q.tag, cluster, q.oid, q.wit⟩ : Delivery)
    s.onNet fun t => { t with inbound := t.inbound ++ ds }

/-- A step of a started copy (R249 to R252): the check of its pages, its next bytes, or the end of its work. None where it
must still wait for a replica. -/
def copyWork (s : State) (cluster : Nat) (q : CopyOp) : Option State :=
  if q.status = 3 then some (copySent s cluster q)
  else if !q.checked then
    match (engineCheck s q q.src false []).bind fun a => engineCheck a.2 q q.dst true a.1 with
    | .error f => some (updCopy s cluster q.tag fun q => q.meets f.cause (f.addr.getD 0))
    | .ok (ps, s) => some (updCopy s cluster q.tag fun q => { q with checked := true, pages := ps, judged := some (judge s.now q.wit) })
  else if ctlRows q.ctl ≤ q.row then some (copySent (copySend s cluster q) cluster q)
  else match copyMove s cluster q with
  | .ok s => some s
  | .error (.trap c a _) => some (updCopy s cluster q.tag fun q => q.meets c (a.getD 0))
  | .error (.wait _ _) => none

/-- The copies that wait at a cluster's scheduler: the oldest of each context first (R249). -/
def copyRequests (s : State) (cluster : Nat) : List Request :=
  ((s.clusterSt cluster).copyQ.filter fun q => !q.started).map fun q => ⟨q.oid, q.age, q.tag⟩

/-- The scheduler starts a copy (R249, R334). A peer source that may not be read completes SRC_GONE (R250). -/
def copyStart (s : State) (cluster : Nat) : State :=
  match arbitrate s (lget [] (s.dieSt (cluster / 32)).share 4) 4 cluster (copyRequests s cluster) with
  | (none, s) => s
  | (some (tag, aged), s) =>
    let s := s.updCluster cluster fun k =>
      { k with copyQ := lupd (fun (q : CopyOp) => aged.contains q.tag) (fun q => { q with age := q.age + 1 }) k.copyQ }
    let s := updCopy s cluster tag fun q => { q with started := true }
    match (s.clusterSt cluster).copyQ.find? fun q => q.tag == tag with
    | none => s
    | some q =>
      if q.src.kind = 2 then
        if peerReadable s q then peerReader s q true
        else updCopy s cluster tag fun q => { q with sent := true, status := 1 }
      else s

/-- Whether a copy that is sent may complete: no delivery of it is due, and its writes are delivered at its scope, those of a
saved firing at device scope at least. -/
def copyDone (s : State) (cluster : Nat) (q : CopyOp) : Bool :=
  let gone : CtxId := ⟨q.ctx.core, 3⟩
  let wide := q.kept || q.scope == .device || q.scope == .system
  !(s.net.inbound.any fun d => d.sender == cluster && d.tag == q.tag) &&
    s.net.flight.all (fun f => !(f.ctx == gone && f.first == q.tag) || f.left q.scope) &&
    s.home.replLog.all fun r => !(r.ctx == gone && r.first == q.tag) ||
      (if wide then r.dies.isEmpty else !r.dies.contains (dieOf q.ctx.core))

/-- The next holder of a copy's buffers (R248, R252). -/
def copyHolder (q : CopyOp) : Nat := if q.ctl.getLsbD 39 then fieldN q.ctl 38 34 else indexOf q.ctx.core

/-- A copy completes (R252): its buffers pass on, its landing object records it, a fault is reported, and its witness
enters what END merges (R280). -/
def copyComplete (s : State) (cluster : Nat) (q : CopyOp) : State :=
  let s := if q.dst.kind = 0 then deliverPriv s q.ctx (if q.kept && q.scope != .system then .device else q.scope) else s
  -- what the delivery of its PRIV lines has stamped or refused, and what counts as delivered because it has left (log entry 43)
  let q := ((s.clusterSt cluster).copyQ.find? fun p => p.tag == q.tag).getD q
  let q := if s.net.flight.any fun f => f.ctx == ⟨q.ctx.core, 3⟩ && f.first == q.tag then q.stamped s.now else q
  let s := q.handles.foldl (fun s h => updBuf s cluster h fun k => { k with holder := copyHolder q }) s
  let s := if ctlLnd q.ctl = 31 then s else landRecord s q.ctx.core (ctlLnd q.ctl) q.status q.wit
  let s := match q.fault with
    | some (c, a) => s.engineFault q.ctx c (some a) q.pc q.tag
    | none => s
  let s := s.updCtx q.ctx fun k =>
    { k with copies := k.copies.filter (· != q.tag), copyWit := witnessMax k.copyWit q.wit }
  let s := if q.kept then s.onNet fun t => { t with copyEnds := t.copyEnds ++ [⟨q.tag, q.wit, q.fault, q.pc, none⟩] } else s
  s.updCluster cluster fun k => { k with copyQ := k.copyQ.filter (·.tag != q.tag) }

/-- What copies of a saved firing left reaches the context in which it runs again (R280, R390). -/
def collectCopies (s : State) : State :=
  let mine := s.net.copyEnds.filter fun e => s.cx.copies.contains e.tag
  if mine.isEmpty then s
  else
    (s.onNet fun t => { t with copyEnds := t.copyEnds.filter fun e => !s.cx.copies.contains e.tag }).onCx fun k =>
      mine.foldl (fun (k : Ctx) e =>
        { k with
          copies := k.copies.filter (· != e.tag)
          copyWit := witnessMax k.copyWit e.wit
          engFaults := k.engFaults ++ (e.fault.map fun f => (⟨f.1, some f.2, e.pc, e.tag⟩ : EngFault)).toList
          lostPend := k.lostPend ++ (e.lost.map fun a => (2, a)).toList }) k

/-! ### Inbound deliveries (R255) -/

/-- The core and landing object of a cluster to which a buffer belongs. -/
def landingHolder (s : State) (cluster h : Nat) : Option (Nat × Landing) :=
  (List.range 8).findSome? fun i =>
    let core := coreAt cluster i
    ((s.coreSt core).landing.find? fun o => o.mode != 0 && o.bufs.any fun q => q.1 == h).map fun o => (core, o)

/-- What an inbound delivery meets: `held` a buffer that a matrix slice holds. -/
inductive Arrival where
  | lands (core : Nat) (o : Landing) (slot handle : Nat)
  | waits
  | held
  | refused
  deriving DecidableEq, Repr

/-- Where a delivery lands: in a ring, in the slot that fills; one that is handed to a core makes it wait, and one that a slice
holds stops it with OWNBUF (R168, R255; log entry 42). A copy of another owner, and rows too long for their buffer, are refused (log
entry 49). -/
def arrival (s : State) (d : Delivery) : Arrival :=
  match landingHolder s d.cluster (spHandle d.addr) with
  | none => .refused
  | some (core, o) =>
    let slot := if o.mode = 2 then o.next else 0
    match o.bufs[slot]? with
    | none => .refused
    | some (h, _, handed) =>
      match bufOf s d.cluster h with
      | none => .refused
      | some b =>
        if (s.clusterSt d.cluster).failed || o.oid != d.oid || d.rows.any (fun r => b.size < r.1 + r.2.length) then .refused
        else if 8 ≤ b.holder && b.holder < 16 then .held
        else if handed then .waits
        else if b.holder != holdLanding then .refused
        else .lands core o slot h

/-- Whether a delivery may go on now. -/
def canArrive (s : State) (i : Nat) : Bool :=
  match s.net.inbound[i]? with
  | some d => match arrival s d with
    | .waits => false
    | _ => true
  | none => false

/-- A delivery lands, is refused, or ends its copy with FAULT; a refusal by one of several destinations leaves what the others take
(log entry 49). -/
def deliver (s : State) (i : Nat) : State :=
  match s.net.inbound[i]? with
  | none => s
  | some d =>
    let gone := s.onNet fun t => { t with inbound := dropAt t.inbound i }
    match arrival s d with
    | .waits => s
    | .held => updCopy gone d.sender d.tag fun q => q.meets .ownbuf d.addr
    | .refused => updCopy gone d.sender d.tag fun q => { q with status := max q.status 2 }
    | .lands core o slot h =>
      let s := updBuf gone d.cluster h fun b => d.rows.foldl (fun b r => bufWrite b r.1 r.2) b
      let n := (d.rows.map fun r => r.2.length).sum
      let before := match o.bufs[slot]? with
        | some q => q.2.1
        | none => 0
      let full := decide (before < o.expect) && decide (o.expect ≤ before + n)
      let s := updLanding s core o.n fun o =>
        { o with
          bufs := o.bufs.modify slot fun q => (q.1, q.2.1 + n, q.2.2)
          wit := witnessMax o.wit d.wit
          next := if full && o.mode = 2 then (o.next + 1) % o.bufs.length else o.next }
      if full then landCount s core o.n d.wit else s

end Sys2Proof.Machine
end

