-- ==== Sys2Proof/Machine/Streams.lean ====
section
/-! DEFINITION. Streams bound to v56 to v63 (spec/08_memory_instructions.md R259 to R261). -/

namespace Sys2Proof.Machine

def Stream.kind (b : Stream) : Nat := fieldN b.shape 63 62
def Stream.pitch (b : Stream) : Nat := fieldN b.shape 31 0
def Stream.circ (b : Stream) : Bool := b.pattern.getLsbD 63
def Stream.padL (b : Stream) : Nat := fieldN b.pattern 55 50
def Stream.padR (b : Stream) : Nat := fieldN b.pattern 49 44
def Stream.rows (b : Stream) : Nat := fieldN b.pattern 43 28 + 1
def Stream.perRow (b : Stream) : Nat := fieldN b.pattern 27 16 + 1

/-- Where vector `pos` of a stream lies, as an offset from its address; none for a zero vector (R259). -/
def Stream.place (b : Stream) (pos : Nat) : Option Nat :=
  let per := b.padL + b.perRow + b.padR
  let row := if b.circ then pos / per % b.rows else pos / per
  let j := pos % per
  if row < b.rows && decide (b.padL ≤ j) && decide (j < b.padL + b.perRow) then some (row * b.pitch + 64 * (j - b.padL))
  else none

/-- Vector `pos` of a stream (R259, R260): memory under the page's class with the null witness, scratchpad at issue, where
the core must hold the buffer for a zero vector too. -/
def streamVec (s : State) (b : Stream) (pos : Nat) : Act (Vec × State) :=
  let h := spHandle b.addr
  match b.place pos with
  | none => if b.kind = 0 then .ok (0, s) else (needBuf s h b.addr).map fun _ => (0, s)
  | some off =>
    if b.kind = 0 then do
      let (bs, s) ← loadBytes s (b.addr + BitVec.ofNat 64 off) 64 none b.na
      .ok (BitVec.ofNat 512 (leNat bs), s)
    else do
      let o := spOff b.addr + off
      let (bs, s) ← spRead s h o 64 (BitVec.ofNat 64 (h * 2 ^ 24 + o))
      .ok (BitVec.ofNat 512 (leNat bs), s)

/-- The binding of a register. -/
def boundTo (s : State) (r : VReg) : Option Stream := s.cx.streams.find? fun b => b.reg == r
/-- Change the binding of a register. -/
def updStream (s : State) (r : VReg) (f : Stream → Stream) : State :=
  s.onCx fun k => { k with streams := lupd (fun (b : Stream) => b.reg == r) f k.streams }

/-- A memory stream may read a vector ahead, up to 16 (R260); whether it does is open (log entry 8). -/
def streamAhead (s : State) (r : VReg) : State :=
  match boundTo s r with
  | none => s
  | some b =>
    if b.kind = 0 && decide (b.ahead.length < 16) && Config.readAhead s.tick then
      match streamVec s b (b.pos + b.ahead.length) with
      | .ok (v, s) => updStream s r fun b => { b with ahead := b.ahead ++ [v] }
      | .error _ => s
    else s

/-- An instruction takes the next vector of a bound register, which then holds it (R260, R261). -/
def takeStream (s : State) (r : VReg) : Act State :=
  match boundTo s r with
  | none => .ok s
  | some b => do
    let (v, s) ← match b.ahead with
      | v :: _ => .ok (v, s)
      | [] => streamVec s b b.pos
    .ok (streamAhead ((updStream s r fun b => { b with pos := b.pos + 1, ahead := b.ahead.drop 1 }).setV r v) r)

/-- SBIND (R259). -/
def execSbind (a : VReg) (b c : XReg) (na : Bool) (s : State) : Out :=
  finish s do
    require s (decide (56 ≤ a.toNat))
    let e ← endpointOf s b
    let p := s.getX c
    require s (e.kind != 2 && fieldN p 62 56 == 0 && fieldN p 15 0 == 0)
    let n := if e.kind = 0 then 64 else 16
    if e.addr.toNat % n != 0 || (fieldN p 43 28 != 0 && e.pitch % n != 0) then trapAt .align e.addr
    else
      let rest := s.cx.streams.filter fun k => k.reg != a
      .ok (streamAhead (s.onCx fun k =>
        { k with streams := rest ++ [{ reg := a, addr := e.addr, shape := e.shape, pattern := p, na := na, pos := 0 }] }) a).advance

/-- SUNBIND (R261). -/
def execSunbind (a : VReg) (s : State) : Out :=
  .next (s.onCx fun k => { k with streams := k.streams.filter fun b => b.reg != a }).advance

end Sys2Proof.Machine
end

