-- ==== Sys2Proof/Machine/Sync.lean ====
section
/-! DEFINITION. Task, counter, level, barrier, helper, notification and waiting instructions
(spec/11_sync_instructions.md R303 to R324; spec/10_progress.md R275, R276, R286, R287, R295 to R301). -/

namespace Sys2Proof.Machine

/-! ### Records (R275, R276) -/

/-- The running maximum as a witness once every write issued so far is delivered at a scope (R196, R283). -/
def deliveredMax (s : State) (sc : Scope) : Act (Word × State) :=
  if delivered s s.cur s.net.nextId sc then
    let s := (deliverPriv s s.cur sc).stampLeft s.cur s.net.nextId sc
    .ok (mkWit sc s.cx.runMax, s)
  else .error (.wait (.writes sc s.net.nextId) (some s))

/-- The res0 bits and the entry address of a record. -/
def recordOk (r : BitVec 512) : Bool :=
  recN r 511 256 == 0 && recN r 203 196 == 0 && !(recEntry r).getLsbD 0 && recN r 63 56 == 0

/-- The check of a record's trigger counter (R276): as CNTADD's, but a page that is not SM raises CLASS whatever it is. -/
def checkTrigger (s : State) (w : Who) (va : Word) : Chk State :=
  match checkCounter s s.cur w va with
  | .ok (_, s) => .ok s
  | .error f => .error (if f.cause == .crfmt then { f with cause := .class_ } else f)

/-- A wait for a replica by an instruction that presents a record is not interrupted (R303). -/
def Stop.held (e : Stop) : Stop :=
  match e with
  | .wait (.replica st _) t => .wait (.replica st true) t
  | e => e

/-- Read a record once and check it (R276), under a witness judged once (R193); `arm` adds the checks of the trigger counter. -/
def readRecord (s : State) (va : Word) (c : Option Word) (arm : Bool) : Act (BitVec 512 × State) := do
  checkWitness (c.getD 0)
  let wit := s.cx.judged.getD (judge s.now (c.getD 0))
  if va.toNat % 64 != 0 then trapAt .align va
  let (bs, s) ← (loadWords s va wit 8).mapError Stop.held
  let r := BitVec.ofNat 512 (leNat bs)
  require s (recordOk r)
  if arm then require s (recTcnt r != 0 && recThresh r != 0)
  if arm && (recTcnt r).toNat % 8 != 0 then trapAt .align (recTcnt r)
  let owner := recOwner r
  if owner != s.oid && !(s.oid == 0 && s.cx.crs.cmode && !(s.ownerSt owner).isSealed) then trapNow .perm
  if arm then
    let s ← (checkTrigger s ⟨owner, s.cx.crs.cmode, s.coreNo, false⟩ (recTcnt r)).act
    .ok (r, s)
  else .ok (r, s)

/-- Stage a request of an unexposed recoverable firing with the status 0 (R305); one that would pass 4 MiB exposes the
firing and is made unstaged (R290). -/
def stageRequest (s : State) (a : XReg) (e : Staged) (direct : State → Act State) : Act State :=
  if s.cx.staged then do
    match ← stagePut s (addStaged s.cx.staging e) with
    | some s => .ok (putX s a 0)
    | none => do
      let s ← exposeAct s
      direct s
  else direct s

/-- SPAWN (R304): xc = x0 is the null witness. It reads its record once its writes are delivered, and so once. -/
def execSpawn (a b c : XReg) (s : State) : Out :=
  finish s do
    let va := s.getX b
    let s ← if s.cx.staged then .ok s else (deliveredMax s (s.scope none)).map (·.2)
    let (r, s) ← readRecord s va (some (s.getX c)) false
    stageRequest s a (.spawn r va s.cx.pc) fun s => do
      let (wit, s) ← deliveredMax s (s.scope none)
      let (st, s) ← (spawnRecord s s.cur r va wit).act
      .ok (putX s a (BitVec.ofNat 64 st))

/-- ARM (R307). -/
def execArm (a b c : XReg) (s : State) : Out :=
  finish s do
    let va := s.getX b
    let (r, s) ← readRecord s va (some (s.getX c)) true
    stageRequest s a (.arm r va s.cx.pc) fun s => do
      let (st, e, s) ← (armRecord s s.cur r va).act
      .ok (putX s a (BitVec.ofNat 64 (e % 256 * 256 + st)))

/-- DISARM (R308). -/
def execDisarm (a b : XReg) (s : State) : Out :=
  finish s do
    let va := s.getX b
    let (l, s) ← (checkCounter s s.cur s.who va).act
    let s := s.sealLeaf s.who l
    let foreign := s.home.watches.any fun w => w.pa == l.pa && w.oid != s.oid
    if foreign then trapAt .perm va
    else stageRequest s a (.disarm va l.pa) fun s =>
      let (st, s) := disarmCounter s s.cur l.pa
      .ok (putX s a (BitVec.ofNat 64 st))

/-- CNTADD (R309): the message leaves once the running maximum is delivered at its scope. -/
def execCntadd (a b : XReg) (sc : Option Scope) (s : State) : Out :=
  finish s do
    let va := s.getX b
    let (l, s) ← (checkCounter s s.cur s.who va).act
    let s := s.sealLeaf s.who l
    let sc := s.scope sc
    let amount := s.getX a
    let direct := fun (s : State) =>
      (s.launch (.count amount false) va l sc (mkWit sc s.cx.runMax) true).advance
    if s.cx.staged then
      match ← stagePut s (addStaged s.cx.staging (.count va l.pa l.owner amount)) with
      | some s => .ok s.advance
      | none => do
        let s ← exposeAct s
        .ok (direct s)
    else .ok (direct s)

/-- CNTRD (R310). Where a and c name one register, it holds the second result (log entry 41). -/
def execCntrd (a b c : XReg) (s : State) : Out :=
  finish s do
    let va := s.getX b
    let (l, s) ← s.check va 8 .r
    (needSm va l).act
    if inWindow l.pa then trapAt .class_ va
    match busyWith s s.cur l va 8 with
    | some w => .error (.wait w none)
    | none =>
      if marked s l.owner l.line then trapAt .poison va
      else
        let s := s.sealFrame s.who l.entry l.pa
        let n := leNat (memRead s.mem l.pa 8)
        let w := ((s.home.watches.find? (·.pa == l.pa)).map (·.wit)).getD 0
        let s := (reachHome s s.cur l.owner l.line).heard true (placeIdx s l.owner l.pa)
        .ok ((s.setX a (BitVec.ofNat 64 n)).setX c w).advance

/-! ### Levels (R311 to R314) -/

/-- A level index in a register (R303). -/
def levelIdx (s : State) (r : XReg) : Act Nat := immBelow s (s.getX r) 4096

/-- The low half of a level that has just been opened (R286). -/
def levelOpened (kind parent : Nat) : Word := BitVec.ofNat 64 (kind * 2 ^ 62 + 2 ^ 60 + parent * 2 ^ 48 + 1)

/-- LVOPEN (R311), its statuses in the order of log entry 51. -/
def execLvopen (a b c : XReg) (imm : Word) (s : State) : Out :=
  finish s do
    let kind ← immBelow s imm 4
    let i ← levelIdx s b
    let p ← levelIdx s c
    require s (kind != 3 || i == p)
    let (l, s) ← (levelGet s s.cur s.oid i).act
    let answer := fun (s : State) (n : Nat) => putX s a (BitVec.ofNat 64 n)
    if l.isOpen then .ok (answer s 1)
    else
      let opened := fun (s : State) =>
        answer ((levelPut s s.cur { l with lo := levelOpened kind p, wit := 0 }).onCx fun k =>
          { k with holds := k.holds ++ [BitVec.ofNat 12 i] }) 0
      if kind = 3 then .ok (if 8 ≤ s.cx.holds.length then answer s 3 else opened s)
      else
        let (q, s) ← (levelGet s s.cur s.oid p).act
        if !q.isOpen || q.cancelled || q.kind != kind + 1 then .ok (answer s 2)
        else if 8 ≤ s.cx.holds.length then .ok (answer s 3)
        else
          let (added, s) ← (levelAdd s s.cur s.oid p).act
          .ok (if added then opened s else answer s 4)

/-- LVWAIT (R312): a hold of the firing is released first, and stays released while it waits. Where a and c name one register,
it holds the second result (log entry 41). -/
def execLvwait (a b c : XReg) (s : State) : Out :=
  finish s do
    let i ← levelIdx s b
    let h := BitVec.ofNat 12 i
    let s ← if s.cx.holds.contains h then (do
        let s ← (levelDec s.cur s.oid 4 s i 0 false).act
        .ok (s.onCx fun k => { k with holds := k.holds.filter (· != h) }))
      else .ok s
    let (l, s) ← (levelGet s s.cur s.oid i).act
    if l.isOpen then .error (.wait (.level i) (some s))
    else
      let st := (if l.lostf then 2 else 0) + (if l.cancelled then 1 else 0)
      .ok ((s.setX a l.wit).setX c (BitVec.ofNat 64 st)).advance

/-- LVSTAT (R314). Where a and c name one register, it holds the second result (log entry 41). -/
def execLvstat (a b c : XReg) (s : State) : Out :=
  finish s do
    let i ← if s.getX b = BitVec.allOnes 64 then .ok s.cx.fir.launch.toNat else levelIdx s b
    let (l, s) ← (levelGet s s.cur s.oid i).act
    .ok ((s.setX a l.shown).setX c l.wit).advance

/-- An announcement with its witness, the running maximum at device scope (R216), joins its core's queue, and the instruction
waits; it completes when its window is assigned, with the time of application in `a` (R313, R321). -/
def announce (s : State) (a : XReg) (kind : AnnKind) : Act State :=
  match s.cx.verdict with
  | some v => .ok (putX s a v.1)
  | none => do
    let s ← exposeAct s
    let (wit, s) ← deliveredMax s .device
    let id := s.net.nextId
    let e : Announce :=
      { id := id, window := 0, core := s.coreNo, oid := s.oid, kind := kind, wit := wit, ctx := s.cur, fid := s.cx.fir.fid
        ev := s.cx.evIdx, issued := s.now }
    let s := (s.onNet fun t => { t with nextId := id + 1 }).updCore s.coreNo fun k => { k with annQueue := k.annQueue ++ [e] }
    .error (.wait (.window id) (some (recordEvent s s.cur 6)))

/-- LVCANCEL (R313). -/
def execLvcancel (b : XReg) (s : State) : Out :=
  finish s do
    let i ← levelIdx s b
    announce s 0 (.cancel i)

/-- SCA (R321). -/
def execSca (a b : XReg) (imm : Word) (s : State) : Out :=
  finish s do
    let n ← immBelow s imm 256
    announce s a (.word (n % 64) (n / 64) (s.getX b))

/-! ### Barriers (R295 to R299, R315, R316) -/

/-- A barrier of the running core's die. -/
def barrierOf (s : State) (n : Nat) : Option Barrier := tfind (s.dieSt s.dieNo).barriers n
/-- Put a barrier. -/
def setBarrier (s : State) (die n : Nat) (b : Barrier) : State :=
  s.updDie die fun d => { d with barriers := tset d.barriers n b }
/-- A generation ends (R296). -/
def Barrier.ended (b : Barrier) (timedOut : Bool) : Barrier :=
  { b with g := !b.g, arrived := [], started := none, timedOut := timedOut }
/-- The barrier that the owner holds, or PERM. -/
def needBarrier (s : State) (n : Nat) : Act Barrier :=
  match (barrierOf s n).filter fun b => b.owner == s.oid with
  | some b => .ok b
  | none => trapNow .perm

/-- Decide what an instruction of a context that waits will answer (R297, R322): it executes again and gives that answer. -/
def State.decide (s : State) (c : CtxId) (v : Word × Word) : State :=
  s.updCtx c fun k => { k with woke := k.wait, wait := none, verdict := some v }

/-- Whether a generation of a barrier is open: it has an arrival or a waiter (R296, R299). -/
def Barrier.open_ (k : Barrier) : Bool := k.started.isSome || !k.arrived.isEmpty

/-- An open generation ends as timed out: every BARW that waits for it reports TIMEOUT (R297, R299). -/
def timeOutWaiters (s : State) (die n : Nat) : State :=
  s.contexts.foldl (fun s p =>
    match p.2.wait with
    | some (.barrier m _) => if m = n && dieOf p.1.core = die then s.decide p.1 (1, 0) else s
    | _ => s) s

/-- BARCFG (R299, R315). -/
def execBarcfg (a b c : XReg) (s : State) : Out :=
  finish s do
    let n ← immBelow s (s.getX b) 16
    let va := s.getX c
    if va.toNat % 64 != 0 then trapAt .align va
    let (bs, s) ← loadWords s va none 8
    let r := BitVec.ofNat 512 (leNat bs)
    let timeout := recN r 319 288
    let count := recN r 264 256
    require s (recN r 511 321 == 0 && recN r 287 265 == 0 && count ≤ 256 &&
      (timeout == 0 || (decide (1024 ≤ timeout) && decide (timeout ≤ 2 ^ 30))))
    let old := barrierOf s n
    match old with
    | some k => if k.owner != s.oid then trapNow .perm
    | none => .ok ()
    let isOpen := old.any Barrier.open_
    let s := if isOpen then timeOutWaiters s s.dieNo n else s
    if count = 0 then
      .ok (putX (s.updDie s.dieNo fun d => { d with barriers := tdel d.barriers n }) a 0)
    else
      let g := r.getLsbD 320
      let k : Barrier :=
        { owner := s.oid, members := r.setWidth 256, count := count, timeout := if timeout = 0 then 2 ^ 30 else timeout
          g := g, arrived := [], started := none, timedOut := isOpen || old.any (·.timedOut) }
      .ok (putX (setBarrier s s.dieNo n k) a (bool01 g))

/-- BARA (R296, R316): imm5 is gen·16 + bar. -/
def execBara (imm : Word) (s : State) : Out :=
  finish s do
    let i ← immBelow s imm 32
    let n := i % 16
    let k ← needBarrier s n
    let p := placeOf s.coreNo
    if !k.members.getLsbD p then trapNow .perm
    else if k.g != decide (16 ≤ i) then trapNow .bargen
    else if k.arrived.contains p then trapNow .barcnt
    else
      let k := { k with arrived := k.arrived ++ [p], started := some (k.started.getD s.now) }
      .ok (setBarrier s s.dieNo n (if k.count ≤ k.arrived.length then k.ended false else k)).advance

/-- BARW (R297, R316). -/
def execBarw (a : XReg) (imm : Word) (s : State) : Out :=
  finish s do
    let i ← immBelow s imm 32
    let n := i % 16
    let gen := decide (16 ≤ i)
    match s.cx.verdict with
    | some v => .ok (putX s a v.1)
    | none =>
    let k ← needBarrier s n
    if k.g != gen then .ok (putX s a (bool01 k.timedOut))
    else .error (.wait (.barrier n gen) (some (setBarrier s s.dieNo n { k with started := some (k.started.getD s.now) })))

/-! ### Helper and firing control (R317 to R320) -/

/-- HSPAWN (R293, R317). -/
def execHspawn (a b : XReg) (s : State) : Out :=
  finish s (
    let va := s.getX b
    if va.getLsbD 0 then trapAt .align va
    else
      match (s.coreSt s.coreNo).helperOf.filter (· != s.cur.which) with
      | some _ => .ok (putX s a 1)
      | none =>
        let h : Ctx :=
          { x := (Vector.replicate 32 (0 : Word)).set 1 (s.getX 1), pc := va, life := .running
            crs := { cmode := s.cx.crs.cmode }, fir := { oid := s.cx.fir.oid, isSealed := s.cx.fir.isSealed } }
        .ok (putX ((s.setCtx ⟨s.coreNo, 2⟩ h).updCore s.coreNo fun k => { k with helperOf := some s.cur.which }) a 0))

/-- HSTOP (R317). -/
def execHstop (s : State) : Out := .next (stopHelperOf s s.cur).advance

/-- EXPOSE (R318). -/
def execExpose (s : State) : Out :=
  finish s do
    let s ← exposeAct s
    .ok s.advance

/-- SELF (R320). -/
def execSelf (a : XReg) (imm : Word) (s : State) : Out :=
  finish s do
    let sel ← immBelow s imm 3
    .ok (putX s a (match sel with
      | 0 => s.cx.fir.startWit
      | 1 => s.cx.fir.recAddr
      | _ => BitVec.ofNat 64 s.cx.holds.length))

/-! ### Notification words (R322) -/

/-- A notification word of the running owner, and its witness. -/
def notifWord (s : State) (k : Nat) : Word × Word :=
  let o := s.ownerSt s.oid
  ((o.notif.toList)[k]?.getD 0, (o.notifWit.toList)[k]?.getD 0)

/-- NRD (R322). Where a and c name one register, it holds the second result (log entry 41). -/
def execNrd (a c : XReg) (imm : Word) (s : State) : Out :=
  finish s do
    let k ← immBelow s imm 64
    let w := notifWord s k
    .ok ((s.setX a w.1).setX c w.2).advance

/-- NWAIT (R322): it completes with the word that a window's application leaves. Where a and c name one register, it holds the
second result (log entry 41). -/
def execNwait (a b c : XReg) (imm : Word) (s : State) : Out :=
  finish s do
    let k ← immBelow s imm 64
    let w := s.cx.verdict.getD (notifWord s k)
    if w.1 = s.getX b then .error (.wait (.notify k (s.getX b)) none)
    else .ok ((s.setX a w.1).setX c w.2).advance

/-! ### WAITA (R300, R301, R324) -/

/-- Give up the running context's monitor entry. -/
def freeMonitor (s : State) : State :=
  s.updCore s.coreNo fun k => { k with monitor := k.monitor.filter (· != s.cur) }

/-- WAITA. -/
def execWaita (a b c : XReg) (s : State) : Out :=
  finish s do
    let va := s.getX b
    let (l, s) ← s.check va 8 .r
    if l.cls == clsCr then trapAt .crfmt va
    if l.cls != clsSm && l.cls != clsRepl then trapAt .class_ va
    let (v, t) ← loadNat s va 8 none false
    let was := match s.cx.woke with
      | some (.address _ _ p) => some p
      | _ => none
    if BitVec.ofNat 64 v != s.getX c then .ok (putX (freeMonitor t) a (bool01 (was.getD false)))
    else
      let held := (s.coreSt s.coreNo).monitor
      let has := held.contains s.cur
      let polled := was.getD (inWindow l.pa || (!has && decide (16 ≤ held.length)))
      let t := if polled || has then t else t.updCore t.coreNo fun k => { k with monitor := k.monitor ++ [t.cur] }
      .error (.wait (.address va (s.getX c) polled) (some t))

end Sys2Proof.Machine
end

