-- ==== Sys2Proof/Machine/Firing.lean ====
section
/-! DEFINITION. How firings start, give way, resume and end (spec/10_progress.md R278 to R282, R291;
spec/11_sync_instructions.md R319; spec/14_recovery.md R386 to R393, R413). -/

namespace Sys2Proof.Machine

/-! ### Slots (R388 to R392) -/

/-- The image of a slot as the Langor reads it. -/
def slotImage (s : State) (c : CtxId) (oid slot : Nat) : Chk ((Nat → Nat → Nat) × State) :=
  if slot < 8192 then slotBytes s c ⟨oid, true, c.core, false⟩ (slotVa s oid slot)
  else
    let pa := emergSlotPa s oid slot
    let mem := s.mem
    if (List.range 1024).any fun i => marked s oid (pa / 128 + i) then .error ⟨.poison, none, none⟩
    else .ok (fun o n => leNat (memRead mem (pa + o) n), s)

/-- The valid emergency saves of an owner. -/
def emergSaves (s : State) (oid : Nat) : List Nat :=
  let base := (s.ownerSt oid).esave.toNat
  if base = 0 then []
  else ((List.range 4608).map (8192 + ·)).filter fun n =>
    memGet s.mem (emergSlotPa s oid n + 2) == 1 && (memGet s.mem (emergSlotPa s oid n + 4)).toNat == oid

/-- The saves made by suspension that an owner's contexts resume (R391), with their places. -/
def suspdSlots (s : State) (oid : Nat) : List (Nat × CtxId) :=
  (((s.ownerSt oid).slotsUsed ++ emergSaves s oid).mergeSort (· ≤ ·)).filterMap fun n =>
    match slotImage s ⟨0, 0⟩ oid n with
    | .ok (img, _) =>
      if img 2 1 = 1 && (img 3 1 / 4) % 2 = 1 then some (n, ⟨img 6 2 % 4096, img 6 2 / 4096 % 2⟩) else none
    | .error _ => none

/-! ### Suspension and pre-emption (R386, R387, R393) -/

/-- An owner is suspended: every context that runs a firing of it is to be pre-empted. -/
def suspendOwner (s : State) (oid : Nat) : State :=
  let s := s.updOwner oid fun o => { o with susp := true }
  s.contexts.foldl (fun s p =>
    if p.2.life == .running && p.2.fir.oid.toNat == oid && p.1.which != 2 then s.updCtx p.1 fun k => { k with preempt := true }
    else s) s

/-- The Langor itself suspends an owner: it sets SUSP, in the owner's table entry too (R325, R393, R397, R413). -/
def stopOwner (s : State) (oid : Nat) : State :=
  let a := Config.ownerTablePa.toNat + 64 * oid + 7
  let s := writeHome s ⟨0, 3⟩ 0 a ((memRead s.mem a 1).map (· ||| 0x20))
  suspendOwner (s.updOwner oid fun o => { o with applied := o.applied ||| BitVec.twoPow 512 61 }) oid

/-- Nothing is outstanding that pre-emption waits for (R386): matrix operations, accesses on their way, announcements,
pending registers, instructions set aside but for those that wait for the lane store, which are saved. -/
def quiet (s : State) (c : CtxId) : Bool :=
  !((s.coreSt c.core).slice.any fun o => o.ctx == c) && (s.ctxOf c).pend.isEmpty &&
  ((s.ctxOf c).aside.all fun a => a.wait == .laneStore || a.wait == .aside) && !(s.net.flight.any fun f => f.ctx == c) && !(s.home.replLog.any fun r => r.ctx == c) &&
  !((s.coreSt c.core).annQueue.any fun a => a.ctx == c) && !(s.net.announced.any fun a => a.ctx == c)

/-- Causes that R383 puts before PREEMPT are pending. -/
def faultsFirst (k : Ctx) : Bool := !k.engFaults.isEmpty || k.hwerr || (!k.crs.inh && !k.lostPend.isEmpty)

/-- What a pre-emption came to. -/
inductive Saved where
  | waits
  | restarted
  | slot (i : Nat)
  | emergency
  | lost
  deriving DecidableEq, Repr

/-- The copies of a firing that is saved run on (R386). -/
def keepCopies (s : State) (c : CtxId) : State :=
  s.updCluster (clusterOf c.core) fun k =>
    { k with copyQ := lupd (fun (q : CopyOp) => q.ctx == c) (fun q => { q with kept := true }) k.copyQ }

/-- The entry of a deque that presents a context's firing again. -/
def entryOf (k : Ctx) (resume : Option Nat) : DequeEntry :=
  { record := k.fir.record, addr := k.fir.recAddr, startWit := k.fir.startWit, fid := k.fir.fid, retry := k.fir.retry
    resume := resume }

/-- Pre-emption of a context once its waits are over (R386, R387, R392, R393). Its dirty lines are written back first; a
fault that this brings is taken before. A context that only holds a popped resume entry gives the entry back. -/
def preemptCtx (s : State) (c : CtxId) (named : Option Nat) (suspd : Bool) : Saved × State :=
  let k := s.ctxOf c
  let oid := k.fir.oid.toNat
  match k.wait with
  | some (.entry n) => (.restarted, pushOrPend (s.setCtx c {}) c.core oid (entryOf k (some n)) true none)
  | _ =>
    if !quiet s c || faultsFirst k then (.waits, s)
    else
      let s := deliverPriv s c .device
      let k := s.ctxOf c
      if faultsFirst k then (.waits, s)
      else if k.staged then
        let s := (releaseHolds s c).trace oid 5 (k.fir.fid.toNat + named.getD 0 * 2 ^ 32) c
        let s := match named with
          | some n => setSlotState s c oid n 3
          | none => s
        (.restarted, pushOrPend (freeCtx s c) c.core oid (entryOf k none) true none)
      else
        match saveImage s c named 1 0x13 suspd with
        | (.slot i _, s) =>
          (.slot i, freeCtx ((keepCopies s c).trace oid 5 (k.fir.fid.toNat + i * 2 ^ 32) c) c)
        | (.emergency _, s) => (.emergency, freeCtx ((keepCopies s c).trace oid 5 k.fir.fid.toNat c) c)
        | (.failed a, s) =>
          (.lost, stopOwner (loseFiring (s.firingEvent c 4 0x13 0 a) c 0x13) oid)

/-! ### Starting and resuming (R75, R279, R391) -/

/-- A record starts in a context (R75, R279). -/
def startFiring (s : State) (c : CtxId) (e : DequeEntry) : State :=
  let r := e.record
  let oid := recOwner r
  let k : Ctx :=
    { x := ((Vector.replicate 32 (0 : Word)).set 1 (recArg r)).set 2 e.addr
      pc := recEntry r, life := .running, crs := { cmode := oid == 0 }
      fir :=
        { oid := BitVec.ofNat 8 oid, isSealed := (s.ownerSt oid).isSealed, retry := e.retry, recov := recRec r
          prio := recPrio r, launch := BitVec.ofNat 12 (recLaunch r), fid := e.fid, record := r, recAddr := e.addr
          startWit := e.startWit } }
  let s := s.updCore c.core fun q => { q with asleep := false }
  passEvents ((s.setCtx c k).trace oid 2 (e.fid.toNat + recLaunch r * 2 ^ 32) c) c.core oid (recLaunch r)

/-- Resume a saved firing in a context, whose slot is then consumed; none while it must wait for the lane store or its slot
cannot be read (R391). -/
def resumeSlot (s : State) (c : CtxId) (oid n : Nat) : Option State :=
  match slotImage s c oid n with
  | .error _ => none
  | .ok (img, s) =>
    if laneBusy s c.core img then none
    else
      let s := setSlotState s c oid n 2
      some (restoreCtx s c n img)

/-- Whether a core takes work: its place is present, it has not failed, its cluster is not halted, and its owner exists and
is not suspended. -/
def coreOpen (s : State) (core : Nat) : Bool :=
  let o := s.ownerSt (s.coreOwner core)
  (s.place core).present && !(s.coreSt core).failed && !(s.clusterSt (clusterOf core)).failed &&
    !(s.clusterSt (clusterOf core)).halted && o.valid && !o.susp

/-- Whether saves made by suspension are still to resume in a place, before any record starts there (R391). -/
def resumesFirst (s : State) (core : Nat) : Bool := (suspdSlots s (s.coreOwner core)).any fun p => p.2.core == core

/-- Whether a free context of a core may pop a record (R279). -/
def canDispatch (s : State) (c : CtxId) : Bool :=
  decide (c.which < 2) && (s.ctxOf c).life == .free && coreOpen s c.core && !(s.coreSt c.core).deque.isEmpty &&
    !resumesFirst s c.core

/-- A record or resume entry that a context has popped or stolen: it resumes, is dropped, or starts (R279, R319). -/
def beginEntry (s : State) (c : CtxId) (oid : Nat) (e : DequeEntry) : State :=
  match e.resume with
  | some n =>
    match resumeSlot s c oid n with
    | some s => s
    | none =>
      s.setCtx c
        { life := .running, wait := some (.entry n)
          fir := { oid := BitVec.ofNat 8 oid, record := e.record, recAddr := e.addr, startWit := e.startWit, fid := e.fid
                   retry := e.retry } }
  | none =>
    let (gone, s) := launchCancelled s ⟨c.core, 3⟩ oid (recLaunch e.record)
    if gone then levelDrop s ⟨c.core, 3⟩ oid (recLaunch e.record) 0 false else startFiring s c e

/-- A free context pops the youngest record of the highest class (R278, R279). -/
def dispatch (s : State) (c : CtxId) : State :=
  if !canDispatch s c then s
  else
    let d := (s.coreSt c.core).deque
    match pickEntry d true with
    | none => s
    | some i =>
      match d[i]? with
      | none => s
      | some e =>
        let (e, s) := readSpilled s c.core e
        beginEntry (dequeTake s c.core i) c (s.coreOwner c.core) e

/-! ### Stealing (R281, R282) -/

/-- An idle core. -/
def coreIdle (s : State) (core : Nat) : Bool := coreOpen s core && hasFree s core && (s.coreSt core).deque.isEmpty

/-- Whether a core may send a steal request: it has none on its way, and no save waits to resume there. -/
def canSteal (s : State) (core : Nat) : Bool :=
  coreIdle s core && !resumesFirst s core && !(s.coreSt core).asleep && !s.net.steals.any fun t => t.thief == core

/-- A steal request, or the sleep of a core whose sweep found nothing. -/
def stealAsk (s : State) (core : Nat) : State :=
  if !canSteal s core then s
  else
    let oid := s.coreOwner core
    let others := (s.coresOf oid).filter (· != core)
    let n := (s.coreSt core).stealFails
    let ask := fun (s : State) (v : Option Nat) =>
      match v with
      | none => s
      | some v => (s.onNet fun t => { t with steals := t.steals ++ [⟨core, v⟩] }).countEv ⟨core, 3⟩ 13 1 oid
    if others.isEmpty || 64 + others.length ≤ n then s.updCore core fun k => { k with asleep := true, stealFails := 0 }
    else if n < 64 then
      let (val, s) := s.draw oid 9 core
      ask s others[pickIndex val others.length]?
    else
      let sweep := others.filter (core < ·) ++ others.filter (· < core)
      ask s sweep[n - 64]?

/-- A victim answers a request with its oldest record of the highest class; one with a free context keeps its last. -/
def stealAnswer (s : State) (i : Nat) : State :=
  match s.net.steals[i]? with
  | none => s
  | some t =>
    let s := s.onNet fun n => { n with steals := dropAt n.steals i }
    let d := (s.coreSt t.victim).deque
    let oid := s.coreOwner t.thief
    let fail := s.updCore t.thief fun k => { k with stealFails := k.stealFails + 1 }
    if s.coreOwner t.victim != oid || (d.length ≤ 1 && hasFree s t.victim) then fail
    else
      match (pickEntry d false).bind fun j => d[j]?.map fun e => (j, e) with
      | none => fail
      | some (j, e) =>
        let (e, s) := readSpilled s t.victim e
        let s := (dequeTake s t.victim j).updCore t.thief fun k => { k with stealFails := 0 }
        let free := [0, 1].find? fun w => (s.ctxOf ⟨t.thief, w⟩).life == .free
        match free with
        | some w => if coreOpen s t.thief && !resumesFirst s t.thief then beginEntry s ⟨t.thief, w⟩ oid e else pushOrPend s t.thief oid e false none
        | none => pushOrPend s t.thief oid e false none

/-! ### Pending pushes and re-dispatch (R278, R285, R291) -/

/-- The first pending push of a core that its deque takes; the fire of a launch cancelled meanwhile is dropped (R289). -/
def retryPush (s : State) (core : Nat) : Option State :=
  let ps := (s.coreSt core).pendPush
  (List.range ps.length).findSome? fun i =>
    match ps[i]? with
    | none => none
    | some p =>
      let oid := recOwner p.entry.record
      let launch := recLaunch p.entry.record
      let (gone, s) := if p.trig.isSome then launchCancelled s ⟨core, 3⟩ oid launch else (false, s)
      let pushed := if gone then some (levelDrop s ⟨core, 3⟩ oid launch 0 false)
        else pushDeque s core oid p.entry (p.trig.isNone)
      pushed.map fun s =>
        let s := s.updCore core fun k => { k with pendPush := dropAt k.pendPush i }
        match p.trig with
        | some t => freeTrig s (t / 256) (t % 256)
        | none => s

/-- A lost unexposed recoverable firing's record goes to another live core of its owner, or to the lost core's place. -/
def redispatch (s : State) (i : Nat) : State :=
  match s.net.redispatch[i]? with
  | none => s
  | some r =>
    let s := s.onNet fun t => { t with redispatch := dropAt t.redispatch i }
    let live := (s.coresOf r.oid).filter fun c => c != r.core && !(s.coreSt c).failed && !(s.clusterSt (clusterOf c)).failed
    if live.isEmpty then pushOrPend s r.core r.oid r.entry true none
    else
      let (val, s) := s.draw r.oid 9 r.core
      pushOrPend s ((live[pickIndex val live.length]?).getD r.core) r.oid r.entry true none

/-! ### END (R280) and YIELD (R319) -/

/-- Replay judges a firing at its END, by its END entry, where the log has one, and by what differed before (R413). -/
def judgeReplay (s : State) : State :=
  let k := s.cx
  let oid := k.fir.oid.toNat
  let fid := k.fir.fid.toNat
  let r := (s.ownerSt oid).rpl
  if r.mode != 2 then s
  else
    let entry := logNext s oid fun e => e.kind == 7 && e.fid == fid
    let s := match entry with
      | some (i, _) => useEntry s oid i
      | none => s
    let noted := tfind r.differ fid
    let ends := match entry with
      | some (_, e) => if e.sig == k.sig.toNat && e.idx == k.evIdx then none else some (min e.idx k.evIdx)
      | none => none
    match noted.or ends with
    | none => s
    | some idx =>
        let s := s.ownerEvent 13 oid k.fir.fid s.coreNo idx 0
        if r.cont then s.updOwner oid fun o => { o with rpl := { o.rpl with mode := 0, diverged := true } }
        else stopOwner (s.updOwner oid fun o => { o with rpl := { o.rpl with diverged := true } }) oid

/-- END's last acts: the trace and log records, the launch signature of a measurement pass (R414), replay's judgement, and
the free context. -/
def endFiring (s : State) : State :=
  let k := s.cx
  let oid := k.fir.oid.toNat
  let s := s.trace oid 3 k.fir.fid.toNat s.cur
  let s := logAppend s oid ⟨7, 0, k.fir.fid.toNat, k.evIdx, k.sig.toNat⟩
  let s := s.updOwner oid fun o => { o with mpass := o.mpass.map fun (m : MPass) =>
    if m.launch == k.fir.launch.toNat then { m with sig := m.sig + k.sig } else m }
  freeCtx (judgeReplay s) s.cur

/-- What END releases (R280, step 4). -/
def endRelease (s : State) : State :=
  let c := s.cur
  let s := stopHelperOf (leaveGang (releaseLane s c) c) c
  releaseHolds (s.onCx fun k => { k with streams := [] }) c

/-- END (R280). A cancelled launch's staging is discarded (R289). -/
def execEndf (s : State) : Out :=
  finish s do
    let c := s.cur
    if !s.cx.copies.isEmpty || !s.cx.late.isEmpty || (s.coreSt c.core).slice.any fun o => o.ctx == c then .error (.wait .drain none)
    let s := deliverPriv s c .device
    if !s.cx.engFaults.isEmpty then .error (.wait .drain (some s))
    let launch := s.cx.fir.launch.toNat
    let (gone, s) := if s.cx.staged then launchCancelled s c s.oid launch else (false, s)
    let s ← if gone then .ok (s.onCx fun k => { k with staging := [] }) else exposeAct s
    let s := endRelease s
    if !(delivered s c s.net.nextId .device) || s.home.replLog.any fun r => r.ctx == ⟨c.core, 3⟩ then
      .error (.wait .drain (some s))
    let s := (deliverPriv s c .device).stampLeft c s.net.nextId .device
    let wit := witnessMax (mkWit .device s.cx.runMax) (mkWit .device (witStamp s.cx.copyWit))
    let s ← (levelDec c s.oid 4 s launch wit false).act
    .ok (endFiring s)

/-- YIELD (R319). A deque that would not take the resume entry makes it have no effect (R391). -/
def execYieldf (s : State) : Out :=
  finish s (
    let k := s.cx
    let core := s.coreNo
    let waiting := (s.coreSt core).deque.any fun e => decide (k.fir.prio.toNat ≤ (recPrio e.record).toNat)
    let e := entryOf k (some 0)
    if k.staged || !waiting || k.gang.isSome || (pushDeque s core s.oid e true).isNone then pass s
    else
      let back := fun (t : State) (n : Nat) =>
        .ok (dispatch (pushOrPend t core s.oid { e with resume := some n } true none) s.cur)
      match preemptCtx s.advance s.cur none false with
      | (.waits, t) => .error (.wait .drain (some (t.setPc s.cx.pc)))
      | (.slot i, t) => back t i
      | (.emergency, t) => back t (emergSlot s.cur)
      | (_, t) => .ok t)

end Sys2Proof.Machine
end

