-- ==== Sys2Proof/Machine/Sha3.lean ====
section
/-! DEFINITION. SHA3-256, the digest of MEASURE (spec/12_isolation.md R354). The function is that of FIPS 202, which R354 names. -/

namespace Sys2Proof.Machine

/-- Lane (x, y) of the Keccak state is element 5·y + x. -/
abbrev Lanes := List Word

def laneAt (a : Lanes) (x y : Nat) : Word := lget 0 a (5 * (y % 5) + x % 5)
/-- A state from its lanes. -/
def lanesOf (f : Nat → Nat → Word) : Lanes := (List.range 25).map fun i => f (i % 5) (i / 5)

/-- The rotation offsets of ρ, by 5·y + x. -/
def keccakRho : List Nat :=
  [0, 1, 62, 28, 27, 36, 44, 6, 55, 20, 3, 10, 43, 25, 39, 41, 45, 15, 21, 8, 18, 2, 61, 56, 14]
/-- The constants of ι. -/
def keccakRc : List Word :=
  [0x0000000000000001, 0x0000000000008082, 0x800000000000808a, 0x8000000080008000, 0x000000000000808b, 0x0000000080000001,
   0x8000000080008081, 0x8000000000008009, 0x000000000000008a, 0x0000000000000088, 0x0000000080008009, 0x000000008000000a] ++
  [0x000000008000808b, 0x800000000000008b, 0x8000000000008089, 0x8000000000008003, 0x8000000000008002, 0x8000000000000080,
   0x000000000000800a, 0x800000008000000a, 0x8000000080008081, 0x8000000000008080, 0x0000000080000001, 0x8000000080008008]

/-- One round of Keccak-f[1600]: θ, ρ, π, χ, ι. -/
def keccakRound (a : Lanes) (rc : Word) : Lanes :=
  let c := (List.range 5).map fun x => (List.range 5).foldl (fun v y => v ^^^ laneAt a x y) 0
  let d := fun (x : Nat) => lget 0 c ((x + 4) % 5) ^^^ rotl64 (lget 0 c ((x + 1) % 5)) 1
  let t := lanesOf fun x y => laneAt a x y ^^^ d x
  let b := lanesOf fun x y =>
    let sx := (x + 3 * y) % 5
    rotl64 (laneAt t sx x) (lget 0 keccakRho (5 * x + sx))
  let e := lanesOf fun x y => laneAt b x y ^^^ (~~~(laneAt b (x + 1) y) &&& laneAt b (x + 2) y)
  e.set 0 (lget 0 e 0 ^^^ rc)

/-- Keccak-f[1600]. -/
def keccakF (a : Lanes) : Lanes := keccakRc.foldl keccakRound a

/-- Absorb blocks of 136 bytes. -/
def absorb : (fuel : Nat) → Lanes → List Byte → Lanes
  | 0, a, _ => a
  | fuel + 1, a, m =>
    if m.length < 136 then a
    else
      let block := (List.range 17).map fun i => BitVec.ofNat 64 (leNat ((m.drop (8 * i)).take 8))
      absorb fuel (keccakF ((List.range 25).map fun i => lget 0 a i ^^^ lget 0 block i)) (m.drop 136)

/-- The padding of SHA-3: 01 and then 10*1. -/
def sha3Pad (n : Nat) : List Byte :=
  let r := 136 - n % 136
  if r = 1 then [0x86] else [0x06] ++ List.replicate (r - 2) 0 ++ [0x80]

/-- SHA3-256 of a message. -/
def sha3 (m : List Byte) : List Byte :=
  let p := m ++ sha3Pad m.length
  let a := absorb (p.length / 136) (List.replicate 25 0) p
  ((a.take 4).map wordBytes).flatten

end Sys2Proof.Machine
end

