-- ==== Sys2Proof/Machine/System.lean ====
section
/-! DEFINITION. The instructions of page 6: control registers, the return from a handler, translation, the place map, trace,
counters, measurement, replay, contexts (spec/13_system_instructions.md R356 to R370; spec/03_opcode_map.md R76 to R86;
spec/12_isolation.md R325 to R327, R344 to R349; spec/07_memory_model.md R209; spec/14_recovery.md R392, R414). -/

namespace Sys2Proof.Machine

/-! ### Control registers (R76 to R86, R358) -/

/-- The control registers that need S mode of owner 0 (R78). -/
def crNeedsS0 (n : Nat) : Bool := n == 0x40 || n == 0x41 || n == 0x44 || n == 0x47 || n == 0x48

/-- The numbers that R78 lists. -/
def crListed (n : Nat) : Bool := decide (n < 17) || (decide (0x40 ≤ n) && decide (n ≤ 0x48))

/-- A number that R78 does not list raises ILLEGAL; then comes the privilege that the register needs (R59, R76, R78, R356). -/
def crPriv (s : State) (n : Nat) : Act Unit := do
  require s (crListed n)
  if n < 0x40 then .ok ()
  else if crNeedsS0 n then needS0 s
  else needS s

/-- The value that CRD reads; none where R78 lists no such register. The write-only seed registers read 0. -/
def crReadReg (s : State) (n : Nat) : Option Word :=
  if n < 17 then (userCrs s.cx s.cur)[n]?
  else
    let o := s.ownerSt s.oid
    match n with
    | 0x40 => some s.dev.leaseL1
    | 0x41 => some s.dev.leaseNear
    | 0x42 => some 0
    | 0x43 => some 0
    | 0x44 => some s.dev.umint
    | 0x45 => some o.svec
    | 0x46 => some o.savearea
    | 0x47 => some o.esave
    | 0x48 => some (s.dieSt s.dieNo).pmapbase
    | _ => none

/-- CRD (R358). -/
def execCrd (a : XReg) (imm : Word) (s : State) : Out :=
  finish s do
    crPriv s imm.toNat
    match crReadReg s imm.toNat with
    | some w => .ok (putX s a w)
    | none => illegal s

/-- A value clamped between two bounds (R86). -/
def clampW (v lo hi : Nat) : Word := BitVec.ofNat 64 (max lo (min hi v))

/-- The owner or die to which a register belongs, 0 for a device-wide one (R78). -/
def crPlaceNo (s : State) (n : Nat) : Nat := if n = 0x48 then s.dieNo else if 0x45 ≤ n then s.oid else 0
/-- Whether a write to a register at the same stamp from a higher core number holds against one of the running core (R77). -/
def crBeaten (s : State) (n : Nat) : Bool :=
  s.dev.crWrites.any fun w => w.reg == n && w.at_ == crPlaceNo s n && w.stamp == s.now && decide (s.coreNo < w.core)
/-- The write takes its stamp at the sequencer die (R77). -/
def crStamped (s : State) (n : Nat) : State :=
  let rest := s.dev.crWrites.filter fun w => !(w.reg == n && w.at_ == crPlaceNo s n)
  s.onDev fun d => { d with crWrites := ⟨n, crPlaceNo s n, s.now, s.coreNo⟩ :: rest }

/-- The value of a write in a privileged register (R86); none where R78 lists no such register. LEASE.L1 keeps its earlier
values, which still govern the fills stamped before the write. -/
def crStore (s : State) (n : Nat) (w : Word) : Option State :=
  match n with
  | 0x40 =>
    let v := clampW (fieldN w 20 0) 64 1048576
    some (s.onDev fun d => { d with leaseL1 := v, leasesL1 := (s.now, v) :: d.leasesL1 })
  | 0x41 => some (s.onDev fun d => { d with leaseNear := clampW (fieldN w 20 0) 64 1048576 })
  | 0x42 => some (s.onCx fun k => { k with crs := { k.crs with seedLo := some w } })
  | 0x44 => some (s.onDev fun d => { d with umint := clampW (fieldN w 4 0) 16 30 })
  | 0x45 => some (s.updOwner s.oid fun o => { o with svec := keepBits w 63 1 })
  | 0x46 => some (s.updOwner s.oid fun o => { o with savearea := keepBits w 55 16 })
  | 0x47 => some (s.updOwner s.oid fun o => { o with esave := keepBits w 51 16 })
  | 0x48 => some (s.updDie s.dieNo fun d => { d with pmapbase := keepBits w 51 12 })
  | _ => none

/-- A write to a privileged register (R77, R86). -/
def crWritePriv (s : State) (n : Nat) (w : Word) : Option State :=
  if n = 0x42 then crStore s n w
  else (crStore s n w).map fun t => if crBeaten s n then s else crStamped t n

/-- CWR (R358). -/
def execCwr (a : XReg) (imm : Word) (s : State) : Out :=
  finish s do
    let n := imm.toNat
    crPriv s n
    let w := s.getX a
    if n < 17 then
      .ok (s.onCx fun k => { k with crs := crWriteUser k.crs n w, timerPend := k.timerPend && n != 0x10 }).advance
    else
      match crWritePriv s n w with
      | some s => .ok s.advance
      | none => illegal s

/-! ### Installing a seed (R86, R327) -/

/-- The listed valid entries of a table, with their numbers. -/
def validEntries (s : State) (table level : Nat) : List (Nat × Word) :=
  (s.mem.filter fun c => decide (table ≤ c.1) && decide (c.1 < table + 8 * levelEntries level) && c.1 % 8 == 7 &&
    decide (128 ≤ c.2.toNat)).map fun c => ((c.1 - table) / 8, BitVec.ofNat 64 (leNat (memRead s.mem (c.1 - 7) 8)))

/-- The pages under a table of a level that the entry number `up` of the level above names. -/
def leavesUnder (s : State) (oid : Nat) : (level : Nat) → (table up : Nat) → List PageClass
  | 0, t, up => ((validEntries s t 0).filter fun e => !badEntry e.2 0).map fun e => ⟨oid, 0, up * levelEntries 0 + e.1, e.2⟩
  | n + 1, t, up => ((validEntries s t (n + 1)).map fun e =>
      let page := up * levelEntries (n + 1) + e.1
      if badEntry e.2 (n + 1) then []
      else if entryLeafBit e.2 then [⟨oid, n + 1, page, e.2⟩]
      else leavesUnder s oid n (entryBase e.2) page).flatten
/-- The pages that an owner's tables map. -/
def mappedPages (s : State) (oid : Nat) : List PageClass := leavesUnder s oid 3 ((s.ownerSt oid).root * 65536) 0

/-- The frames of an owner's pages as (base, size): the leaves, in any valid owner's tables, whose page owner it is. -/
def ownerFrames (s : State) (oid : Nat) : List (Nat × Nat) :=
  let leaves := (((List.range 256).filter fun o => (s.ownerSt o).valid).map (mappedPages s)).flatten
  ((leaves.filter fun l => entryOwner l.entry == oid && inHbm (entryBase l.entry)).map fun l =>
    let size := 2 ^ levelShift l.level
    let size := if entryCls l.entry == clsCr then size * (crBytes (entryFmt l.entry) / 4) else size
    if entryCls l.entry == clsRepl then (List.range 9).map fun d => (replicaPa (entryBase l.entry) d, size)
    else [(entryBase l.entry, size)]).flatten

/-- Every dirty line of an owner's pages is written back, and every die partial folded. -/
def writeBackOwner (s : State) (oid : Nat) : State :=
  let dirty := fun (s : State) (l1 : Bool) => s.home.copies.filter fun k => k.dirty && k.owner == oid &&
    (match k.at_ with
      | .l1 _ => l1
      | .near _ => !l1
      | _ => false)
  let s := (dirty s true).foldl writeBack s
  let s := (dirty s false).foldl writeBack s
  (s.home.partials.filter fun q => q.place.owner == oid).foldl (fun s q => foldLine s q.die q.place) s

/-- Every cached line of an owner's pages is dropped. -/
def dropOwner (s : State) (oid : Nat) : State :=
  s.onHome fun h => { h with copies := h.copies.filter (·.owner != oid) }

/-- Where the data of a line lies once a seed is installed: at the line of its group that the new seed gives its slice. -/
def movedLine (old new : State) (oid line : Nat) : Nat :=
  let base := line / 128 * 128
  match (List.range 128).find? fun j => homeSlice new oid (base + j) == homeSlice old oid line with
  | some j => base + j
  | none => line

/-- What a walk that fills nothing finds (R361): the entry it ends at, its level, the cause that an access of the owner would
meet, and where it has read. -/
structure Probe where
  entry : Word
  level : Nat
  cause : Option Cause
  reads : List Nat
  deriving DecidableEq, Repr

/-- The leaf at which a walk ends, if it is one. -/
def Probe.leaf (p : Probe) : Option Word :=
  if !badEntry p.entry p.level && (p.level == 0 || entryLeafBit p.entry) then some p.entry else none

/-- A walk that reads every level at the home and fills nothing (R361). An entry that may not or cannot be read is shown
as 0. -/
def probeFrom (s : State) (oid : Nat) (va : Word) : (level : Nat) → (table : Nat) → Probe
  | level, table =>
    let a := entryAddr table level va
    match entryWord s oid va a with
    | .error f => ⟨0, level, some f.cause, []⟩
    | .ok e =>
      if badEntry e level then ⟨e, level, some .xlate, [a]⟩
      else
        let leaf := fun (_ : Unit) =>
          let pa := leafPa e level va
          let w : Who := ⟨oid, true, 0, false⟩
          if !sealOk s w e pa then (⟨e, level, some .sealed, [a]⟩ : Probe)
          else if marked s (entryOwner e) (pa / 128) then ⟨e, level, some .poison, [a]⟩
          else ⟨e, level, none, [a]⟩
        match level with
        | 0 => leaf ()
        | n + 1 =>
          if entryLeafBit e then leaf ()
          else
            let p := probeFrom s oid va n (entryBase e)
            { p with reads := a :: p.reads }

/-- The walk of an owner's tables for an address. -/
def probe (s : State) (oid : Nat) (va : Word) : Probe :=
  if va.toNat ≥ 2 ^ 56 then ⟨0, 3, some .xlate, []⟩ else probeFrom s oid va 3 ((s.ownerSt oid).root * 65536)

/-- The install of a seed (R86, R327): dirty lines are written back under the old seed, every draw counter is 0, and the
data of each group of the owner's pages is permuted within its group, with the marks and special states beside it. No copy
made under the old seed is found again. -/
def installSeed (s : State) (oid : Nat) (seed : BitVec 128) : State :=
  let old := dropOwner (writeBackOwner s oid) oid
  let new := old.updOwner oid fun o => { o with seed := seed, ctr := [] }
  let frames := ownerFrames old oid
  let owned := fun (a : Nat) => frames.any fun f => decide (f.1 ≤ a) && decide (a < f.1 + f.2)
  let line := fun (l : Nat) => if owned (l * 128) then movedLine old new oid l else l
  let mem := old.mem.foldl (fun (m : List Host.Cell) c => memPut m (line (c.1 / 128) * 128 + c.1 % 128) c.2) []
  let h := old.home
  { new with
    mem := mem
    home :=
      { h with
        marks := h.marks.map fun m => (line m.1, m.2)
        crMeta := h.crMeta.map fun m => { m with key := line (m.key / 128) * 128 + m.key % 128 } } }

/-- What is still on its way to the pages of an owner: it takes effect before the owner's lines move. -/
def ownerBusy (s : State) (oid : Nat) : Bool :=
  s.net.flight.any (fun f => f.owner == oid) || s.home.replLog.any fun r => r.owner == oid

/-- SEED_INSTALL (R86, R327, R358): CWR to SEED.HI. The owner's other contexts make no step meanwhile. A SEED.LO that the context
holds is its own, and only its own installation uses it up (log entry 48). -/
def execSeedInstall (a : XReg) (s : State) : Out :=
  finish s do
    needS s
    if ownerBusy s s.oid then .error (.wait .walks none)
    let lo := s.cx.crs.seedLo.getD 0
    let t := installSeed s s.oid (s.getX a ++ lo)
    .ok (t.onCx fun k => { k with crs := { k.crs with seedLo := none } }).advance

/-- TRET (R359). -/
def execTret (s : State) : Out :=
  finish s do
    require s s.cx.crs.inh
    if !s.cx.crs.cmode && s.cx.crs.pmode then trapNow .priv
    .ok (trapReturn s)

/-! ### Naming owners (R356) and the owner table (R325, R326, R352) -/

/-- An owner's entry of the owner table, as its home holds it. -/
def ownerEntry (s : State) (oid : Nat) : BitVec 512 :=
  BitVec.ofNat 512 (leNat (memRead s.mem (Config.ownerTablePa.toNat + 64 * oid) 64))
/-- Whether an entry says that its owner exists. -/
def entryValid (e : BitVec 512) : Bool := e.getLsbD 63 && recN e 511 256 == 0

/-- Whether the res0 fields of an entry for which R325 states no fate are 0 (R6). -/
def entryClean (e : BitVec 512) : Bool := recN e 60 52 == 0 && recN e 15 0 == 0

/-- The owner that an operand names (R356). A TLBINV may name one that only the table knows, since it is TLBINV that
creates owners (R326). -/
def nameOwner (s : State) (oid : Nat) (tableOk : Bool) : Act Unit :=
  if s.oid != 0 then (if oid = s.oid then .ok () else trapNow .perm)
  else require s ((s.ownerSt oid).valid || (tableOk && entryValid (ownerEntry s oid)))

/-- The seed that the entropy source gives an owner now (log entry 6). -/
def freshSeed (s : State) (oid : Nat) : BitVec 128 := Config.entropy (s.tick * 256 + oid + 1)

/-- An owner is destroyed (R326, R352). -/
def destroyOwner (s : State) (oid : Nat) (e : BitVec 512) : State :=
  let o := s.ownerSt oid
  let frames := (s.home.sealTags.filter (·.2 == oid)).map (·.1)
  let s := if o.isSealed then
      { s with
        mem := frames.foldl (fun m f => memClear m (f * 65536) 65536) s.mem
        home :=
          { s.home with
            sealTags := s.home.sealTags.filter (·.2 != oid)
            crMeta := s.home.crMeta.filter fun m => !frames.contains (m.key / 65536) } }
    else s
  let s := s.onHome fun h =>
    { h with
      copies := h.copies.filter (·.owner != oid)
      partials := h.partials.filter fun q => q.place.owner != oid
      classes := h.classes.filter (·.oid != oid)
      classChanges := h.classChanges.filter (·.oid != oid) }
  s.updOwner oid fun o => { keyGen := o.keyGen, applied := e }

/-- The changes of an owner's entry take effect (R326): only fields that differ from the entry as last applied are loaded. -/
def applyEntry (s : State) (oid : Nat) : State :=
  let e := ownerEntry s oid
  let o := s.ownerSt oid
  let svec := keepBits (e.extractLsb' 64 64) 63 1
  let save := keepBits (e.extractLsb' 128 64) 55 16
  let esave := keepBits (e.extractLsb' 192 64) 51 16
  let root := recN e 51 16
  let susp := e.getLsbD 61
  if entryValid e then
    if !o.valid then
      s.updOwner oid fun _ =>
        { valid := true, isSealed := e.getLsbD 62, susp := susp, root := root, svec := svec, savearea := save, esave := esave
          seed := freshSeed s oid, keyGen := s.tick + 1, applied := e }
    else
      let load := fun (lo : Nat) (new old : Word) => if e.extractLsb' lo 64 = o.applied.extractLsb' lo 64 then old else new
      let s := s.updOwner oid fun o =>
        { o with
          root := root, susp := susp, applied := e, svec := load 64 svec o.svec
          savearea := load 128 save o.savearea, esave := load 192 esave o.esave }
      if susp && !o.susp then suspendOwner s oid
      else if susp then s
      else s.contexts.foldl (fun s p =>
        if p.2.fir.oid.toNat == oid && p.2.preempt then s.updCtx p.1 fun k => { k with preempt := false } else s) s
  else if o.valid then destroyOwner s oid e
  else s

/-- Every valid emergency save of an owner moves into a free slot of region 0, with its way of resuming (R392). -/
def moveEmergency (s : State) (oid : Nat) : State :=
  (emergSaves s oid).foldl (fun s n =>
    let used := (s.ownerSt oid).slotsUsed
    match (List.range 8192).find? fun i => !used.contains i with
    | none => s
    | some i =>
      let pa := emergSlotPa s oid n
      let pieces := (List.range 800).map fun j => (128 * j, memRead s.mem (pa + 128 * j) 128)
      let c : CtxId := ⟨(n - 8192) / 2, (n - 8192) % 2⟩
      match slotAt s c ⟨oid, true, c.core, false⟩ (slotVa s oid i) pieces with
      | none => s
      | some s =>
        let s := setSlotState (s.updOwner oid fun o =>
          { o with slotsUsed := i :: o.slotsUsed, slotKept := tset o.slotKept i (tget {} o.slotKept n) }) c oid n 2
        let move := fun (e : DequeEntry) =>
          if e.resume = some n && recOwner e.record == oid then { e with resume := some i } else e
        let cores := s.cores.map fun p =>
          (p.1, { p.2 with
            deque := p.2.deque.map move
            pendPush := p.2.pendPush.map fun q => { q with entry := move q.entry } })
        let s := { s with cores := cores }
        s.contexts.foldl (fun s p =>
          if p.2.wait == some (.entry n) && p.2.fir.oid.toNat == oid then s.updCtx p.1 fun k => { k with wait := some (.entry i) }
          else s) s) s

/-! ### TLBINV and TLBPROBE (R209, R349, R360, R361) -/

/-- TLBPROBE (R361). -/
def execTlbprobe (a b c : XReg) (s : State) : Out :=
  finish s do
    needS s
    require s (pairOk a)
    let oid := (s.getX c).toNat
    require s (decide (oid < 256))
    nameOwner s oid false
    let p := probe s oid (s.getX b)
    let s := p.reads.foldl (fun s pa => reachFor s s.cur oid oid (pa / 128)) s
    .ok (putPair s a p.entry (BitVec.ofNat 64 (((p.cause.map Cause.code).getD 0) * 256 + p.level)))

/-- What a TLBINV names: the page at an address at one size or all (KIND 0), every entry of an owner (1), or all (2). -/
structure Named where
  kind : Nat
  psize : Nat
  oid : Nat
  va : Word
  deriving DecidableEq, Repr

/-- Whether a TLB entry is named. -/
def Named.has (n : Named) (t : TlbEntry) : Bool :=
  match n.kind with
  | 0 => t.oid == n.oid && t.vpage == vpageOf n.va t.level && (n.psize == 0 || t.level + 1 == n.psize)
  | 1 => t.oid == n.oid
  | _ => true
/-- Whether a walk-cache entry is named: for one page, every table entry on the way to it. -/
def Named.walk (n : Named) (t : TlbEntry) : Bool :=
  match n.kind with
  | 0 => t.oid == n.oid && t.vpage == vpageOf n.va t.level
  | 1 => t.oid == n.oid
  | _ => true

/-- The cores whose first-level TLB, and the clusters whose second-level TLB, and the dies whose walk cache a scope covers. -/
def inScope (sc : Scope) (me : Nat) (core : Nat) : Bool :=
  match sc with
  | .core => core == me
  | .cluster => core == me
  | .die => dieOf core == dieOf me
  | _ => true
def clusterInScope (sc : Scope) (me : Nat) (cl : Nat) : Bool :=
  match sc with
  | .core => false
  | .cluster => cl == clusterOf me
  | .die => cl / 32 == dieOf me
  | _ => true
def dieInScope (sc : Scope) (me : Nat) (die : Nat) : Bool :=
  match sc with
  | .core => false
  | .cluster => false
  | .die => die == dieOf me
  | _ => true

/-- The entries that a TLBINV removes. -/
def namedEntries (s : State) (n : Named) (sc : Scope) : List TlbEntry :=
  let l1 := (s.cores.filter fun p => inScope sc s.coreNo p.1).map fun p => p.2.tlb1.filter n.has
  let l2 := (s.clusters.filter fun p => clusterInScope sc s.coreNo p.1).map fun p => p.2.tlb2.filter n.has
  (l1.flatten ++ l2.flatten).eraseDups

/-- The invalidation (R349). -/
def invalidate (s : State) (n : Named) (sc : Scope) : State :=
  let me := s.coreNo
  { s with
    cores := s.cores.map fun p =>
      (p.1, if inScope sc me p.1 then { p.2 with tlb1 := p.2.tlb1.filter fun t => !n.has t } else p.2)
    clusters := s.clusters.map fun p =>
      (p.1, if clusterInScope sc me p.1 then { p.2 with tlb2 := p.2.tlb2.filter fun t => !n.has t } else p.2)
    dies := s.dies.map fun p =>
      (p.1, if dieInScope sc me p.1 then { p.2 with walkCache := p.2.walkCache.filter fun t => !n.walk t } else p.2) }

/-- The frame bytes of a page under an entry. -/
def pageBytes (e : Word) (level : Nat) : Nat :=
  2 ^ levelShift level * (if entryCls e == clsCr then crBytes (entryFmt e) / 4 else 1)
/-- Whether a line lies in the frame of a page. -/
def lineInPage (e : Word) (level line : Nat) : Bool :=
  decide (entryBase e / 128 ≤ line) && decide (line * 128 < entryBase e + pageBytes e level)

/-- Whether a page is named. -/
def Named.page (n : Named) (k : PageClass) : Bool := n.has ⟨k.oid, k.level, k.vpage, 0, 0⟩
/-- The same page of the same owner. -/
def PageClass.same (k j : PageClass) : Bool := k.oid == j.oid && k.level == j.level && k.vpage == j.vpage

/-- The entry that the tables now hold for a page, if it is a leaf of the same size. -/
def newLeaf (s : State) (k : PageClass) : Option Word :=
  let p := probe s k.oid (BitVec.ofNat 64 (k.vpage * 2 ^ levelShift k.level))
  p.leaf.filter fun _ => p.level == k.level

/-- The named pages that the tables now map. -/
def namedPages (s : State) (n : Named) : List PageClass :=
  let all := match n.kind with
    | 0 =>
      let p := probe s n.oid n.va
      (p.leaf.map fun e => (⟨n.oid, p.level, vpageOf n.va p.level, e⟩ : PageClass)).toList
    | 1 => mappedPages s n.oid
    | _ => (((List.range 256).filter fun o => (s.ownerSt o).valid).map (mappedPages s)).flatten
  all.filter n.page

/-- A change of class, format or anchor, or a removal of permission, against the entry that a page was last accessed under
(R292). -/
def needsStagings (s : State) (k : PageClass) : Bool :=
  match newLeaf s k with
  | none => true
  | some e => entryBase k.entry != entryBase e || !sameClass k.entry e || (k.entry &&& ~~~e).extractLsb' 52 4 != 0

/-- Whether a staging that is not committed or discarded, or a commit on its way, holds lines of a page (R292). -/
def stagingHolds (s : State) (k : PageClass) : Bool :=
  let mine := fun (st : List Staged) => (st.map Staged.lines).flatten.any fun l => lineInPage k.entry k.level l.1
  s.contexts.any (fun p => p.2.staged && mine p.2.staging) || s.net.flight.any fun f =>
    match f.kind with
    | .commit es _ _ => mine es
    | .requests es => mine es
    | _ => false

/-- Whether an access that was translated under a page's entry has still to take effect: on its way, in a copy, set aside, or, a REPL
store, at a replica (R189, R209, R349). -/
def pageBusy (s : State) (k : PageClass) : Bool :=
  s.net.flight.any (fun f => f.oid == k.oid && vpageOf f.va k.level == k.vpage) ||
    (s.clusters.any fun p => p.2.copyQ.any fun q => q.oid == k.oid && !q.sent &&
      q.pages.any fun g => g.page / 2 ^ (levelShift k.level - 16) == k.vpage) ||
    s.home.replLog.any (fun r => lineInPage k.entry k.level (r.pa / 128)) ||
    s.contexts.any fun p => p.2.aside.any fun a => a.touch.any fun t => lineInPage k.entry k.level (t.1 / 128)

/-- A copy in an L1 or a near tier of a line of a page. -/
def Copy.ofPage (c : Copy) (e : Word) (level : Nat) : Bool :=
  match c.at_ with
  | .far _ => false
  | _ => lineInPage e level c.line
/-- The largest expiry of a copy of a page's lines, or now. -/
def latestExpiry (s : State) (e : Word) (level : Nat) : Stamp :=
  s.home.copies.foldl (fun m k => if k.ofPage e level then laterOf m k.expiry else m) s.now

/-- Whether some TLB still holds a page. -/
def stillHeld (s : State) (k : PageClass) : Bool :=
  let same := fun (u : TlbEntry) => u.oid == k.oid && u.level == k.level && u.vpage == k.vpage
  s.cores.any (fun p => p.2.tlb1.any same) || s.clusters.any fun p => p.2.tlb2.any same

/-- A class change may complete: the home's time has passed, by more than 2 ns, the largest expiry of any copy (R209). -/
def changeReady (s : State) (k : ClassChange) : Bool :=
  let last := s.home.copies.foldl (fun m c =>
    if c.ofPage k.oldEntry k.level && !c.dirty then laterOf m c.expiry else m) k.expiry
  let d := (s.now - last).toNat
  decide (2 < d) && decide (d < 2 ^ 47)

/-- The record of the class in effect of a page. -/
def State.setClass (s : State) (k : PageClass) (e : Option Word) : State :=
  s.onHome fun h => { h with classes := h.classes.filter (fun j => !j.same k) ++ (e.map fun w => { k with entry := w }).toList }

/-- A class change completes (R209, R211): copies are written back and dropped; a page that becomes CR, or whose format or
anchor changes, is zeroed with its states, and the partials of its lines are discarded; a page that becomes REPL is copied
into its replica frames. What a page that leaves CR has in its partials stays there (log entry 42). -/
def completeChange (s : State) (k : ClassChange) : State :=
  let old := k.oldEntry
  let new := k.newEntry
  let s := s.onHome fun h => { h with classChanges := h.classChanges.filter (· != k) }
  let s := s.setClass ⟨k.oid, k.level, k.vpage, new⟩ (some new)
  let mine := fun (s : State) (l1 : Bool) => s.home.copies.filter fun c => c.dirty && c.ofPage old k.level &&
    (match c.at_ with
      | .l1 _ => l1
      | _ => !l1)
  let s := (mine s true).foldl writeBack s
  let s := (mine s false).foldl writeBack s
  let s := s.onHome fun h => { h with copies := h.copies.filter fun c => !c.ofPage old k.level }
  let base := entryBase new
  if entryCls new == clsCr then
    let inPage := fun (key : Nat) => lineInPage old k.level (key / 128) || lineInPage new k.level (key / 128)
    { s with
      mem := memClear s.mem base (pageBytes new k.level)
      home :=
        { s.home with
          crMeta := s.home.crMeta.filter fun m => !inPage m.key
          partials := s.home.partials.filter fun q => !inPage q.place.key } }
  else if entryCls new == clsRepl then
    let size := 2 ^ levelShift k.level
    let dies := (List.range 9).filter (· != base / 2 ^ 38)
    let s := { s with mem := dies.foldl (fun m d => memCopy m base (replicaPa base d) size) s.mem }
    if entrySealed new then
      s.onHome fun h => { h with sealTags := dies.foldl (fun t d =>
        (List.range (size / 65536)).foldl (fun t i => tset t (replicaPa base d / 65536 + i) k.oid) t) h.sealTags }
    else s
  else s

/-- A page's class change begins (R209): it has passed step 2. One without any copy to run out is complete at once. -/
def beginChange (s : State) (k : PageClass) (old new : Word) : State :=
  let change : ClassChange := ⟨k.oid, k.level, k.vpage, old, new, latestExpiry s old k.level⟩
  if s.home.copies.any fun c => c.ofPage old k.level then
    (s.setClass k (some old)).onHome fun h => { h with classChanges := h.classChanges ++ [change] }
  else completeChange s change

/-- What an invalidation in every TLB does to the class of a page (R28, R209): a new class, format or anchor begins its
change; a page whose tables name another frame or none is forgotten, and a fresh CR or REPL page changes from PRIV. -/
def settleClass (s : State) (k : PageClass) : State :=
  if stillHeld s k then s
  else
    let s := s.onHome fun h => { h with classChanges := h.classChanges.filter fun c =>
      !(c.oid == k.oid && c.level == k.level && c.vpage == k.vpage) }
    let fresh := fun (e : Word) =>
      if entryCls e == clsCr || entryCls e == clsRepl then beginChange s k (keepBits e 63 63 ||| keepBits e 59 0) e
      else s.setClass k none
    match pageClass s k.oid k.level k.vpage, newLeaf s k with
    | _, none => s.setClass k none
    | none, some e => fresh e
    | some r, some e =>
      if entryBase r.entry != entryBase e then fresh e
      else if sameClass r.entry e then s.setClass k (some e)
      else beginChange s k r.entry e

/-- A context of one of the owners given that still runs though its owner is suspended. -/
def stillRuns (s : State) (oids : List Nat) : Option CtxId :=
  (s.contexts.find? fun p => p.1 != s.cur && decide (p.1.which < 2) && p.2.life == .running &&
    oids.contains p.2.fir.oid.toNat && (s.ownerSt p.2.fir.oid.toNat).susp).map (·.1)

/-- TLBINV (R360). It waits for the accesses translated under what it removes and for the stagings of R292 before it
removes anything; an owner-table change that suspends an owner completes once the owner's contexts are saved. -/
def execTlbinv (b c : XReg) (sc : Option Scope) (s : State) : Out :=
  finish s do
    needS s
    let w := s.getX c
    let kind := fieldN w 1 0
    let oid := fieldN w 15 8
    require s (fieldN w 63 16 == 0 && fieldN w 7 6 == 0 && fieldN w 3 2 == 0 && kind != 3 && sc != some .system)
    if kind = 2 then (if s.oid = 0 then .ok () else trapNow .perm) else nameOwner s oid true
    let sc := sc.getD .device
    let oids := if kind = 1 then [oid] else List.range 256
    require s (sc != .device || kind == 0 || oids.all fun o => entryClean (ownerEntry s o))
    let s ← exposeAct s
    let (_, s) ← deliveredMax s .device
    let n : Named := ⟨kind, fieldN w 5 4, oid, s.getX b⟩
    let gone := (namedEntries s n sc).map fun t => (⟨t.oid, t.level, t.vpage, t.entry⟩ : PageClass)
    let known := s.home.classes.filter n.page
    if (gone ++ known).any (pageBusy s) || known.any (fun k => needsStagings s k && stagingHolds s k) then
      .error (.wait .walks (some s))
    else
      let s := (invalidate s n sc).onCx fun k => { k with early := [] }
      let s := (known ++ (namedPages s n).filter fun k => !known.any k.same).foldl settleClass s
      if sc != .device || kind = 0 then .ok s.advance
      else
        let s := oids.foldl applyEntry s
        let s := if kind = 1 then moveEmergency s oid else s
        match stillRuns s oids with
        | some k => .error (.wait (.saving k) (some s))
        | none => .ok s.advance

/-! ### The place map (R344, R345, R362, R363) -/

/-- The image of a die's place map: its 256 core entries and its 128 home-slice entries. -/
def mapImage (s : State) (die : Nat) : List Nat × List Nat :=
  let base := (s.dieSt die).pmapbase.toNat
  ((List.range 256).map fun p => leNat (memRead s.mem (base + 4 * p) 4),
   (List.range 128).map fun h => leNat (memRead s.mem (base + 0x400 + 2 * h) 2))

/-- The core entry of a word of the image. -/
def placeOfWord (w : Nat) : Place := ⟨w / 2 ^ 31 % 2 == 1, w / 2 ^ 16 % 256, w % 512⟩
/-- The word of a core entry. -/
def wordOfPlace (p : Place) : Nat := (if p.present then 2 ^ 31 else 0) + p.owner * 2 ^ 16 + p.phys
/-- The home-slice entry in effect. -/
def sliceEntry (s : State) (die h : Nat) : Bool × Nat := tget (true, h) (s.dieSt die).slices h

/-- The rules of R345 and the res0 fields. -/
def mapOk (cores slices : List Nat) : Bool :=
  let ps := cores.map placeOfWord
  let spare := fun (y : Nat) => y * 17 + 16
  let okCore := fun (i : Nat) =>
    let p := lget ⟨false, 0, 0⟩ ps i
    !p.present || p.phys == i / 16 * 17 + i % 16 || p.phys == spare (i / 16)
  cores.all (fun w => w / 2 ^ 24 % 128 == 0 && w / 2 ^ 9 % 128 == 0) && slices.all (fun w => w / 128 % 256 == 0) &&
    (List.range 256).all okCore &&
    (List.range 16).all fun y => ((ps.drop (16 * y)).take 16).countP (fun p => p.present && p.phys == spare y) ≤ 1

/-- Whether a changed place is held by an owner that runs (R25, R362). -/
def placeHeld (s : State) (core : Nat) : Bool :=
  let o := s.ownerSt (s.coreOwner core)
  (s.place core).present && !(s.coreSt core).failed && !(s.clusterSt (clusterOf core)).failed && o.valid && !o.susp
/-- Whether a home slice holds live lines: tags of its own. -/
def sliceLive (s : State) (die h : Nat) : Bool := s.home.copies.any fun k => k.at_ == .far (die * 128 + h)

/-- Load a place map that has passed its checks (R362): a core assigned to a new owner counts from zero (R366), a remapped
core is sound again, and the dirty lines of a remapped failed slice are lost. -/
def loadMap (s : State) (die : Nat) (cores slices : List Nat) : State :=
  let s := (List.range 256).foldl (fun s i =>
    let core := die * 256 + i
    let old := s.place core
    let new := placeOfWord (lget 0 cores i)
    if new = old then s
    else
      let s := s.updDie die fun d => { d with places := tset d.places i new }
      s.updCore core fun k =>
        { k with
          perf := if new.owner = old.owner then k.perf else Vector.replicate 4 {}
          failed := k.failed && new.phys == old.phys
          asleep := k.asleep && new.owner == old.owner
          stealFails := if new.owner = old.owner then k.stealFails else 0 }) s
  (List.range 128).foldl (fun s h =>
    let w := lget 0 slices h
    let new := (w / 2 ^ 15 % 2 == 1, w % 128)
    if new = sliceEntry s die h then s
    else
      let held := if (s.dieSt die).failedSlices.contains h then s.home.copies.filter fun k => k.at_ == .far (die * 128 + h) else []
      let s := s.updDie die fun d =>
        { d with slices := tset d.slices h new, failedSlices := d.failedSlices.filter (· != h) }
      let s := s.onHome fun t => { t with copies := t.copies.filter fun k => !held.contains k }
      (held.filter (·.dirty)).foldl (fun s k => s.mark k.line .lost) s) s

/-- PMAPW (R362). -/
def execPmapw (a b : XReg) (s : State) : Out :=
  finish s do
    needS0 s
    let die ← immBelow s (s.getX b) 9
    let (cores, slices) := mapImage s die
    let st := fun (n : Nat) => Except.ok (putX s a (BitVec.ofNat 64 n))
    let changed := fun (i : Nat) => placeOfWord (lget 0 cores i) != s.place (die * 256 + i)
    let moved := fun (h : Nat) => ((lget 0 slices h) / 2 ^ 15 % 2 == 1, (lget 0 slices h) % 128) != sliceEntry s die h
    if !mapOk cores slices then st 1
    else if (List.range 256).any fun i => changed i && placeHeld s (die * 256 + i) then st 2
    else if (List.range 128).any fun h => moved h && sliceLive s die h && !(s.dieSt die).failedSlices.contains h then st 3
    else .ok (putX (loadMap s die cores slices) a 0)

/-- PMAPRD (R363). -/
def execPmaprd (a b c : XReg) (s : State) : Out :=
  finish s do
    needS s
    let die ← immBelow s (s.getX b) 9
    let i ← immBelow s (s.getX c) 384
    if i < 256 then
      let p := s.place (die * 256 + i)
      let p := if s.oid = 0 || p.owner = s.oid then p else { p with phys := 0 }
      .ok (putX s a (BitVec.ofNat 64 (wordOfPlace p)))
    else
      let e := sliceEntry s die (i - 256)
      .ok (putX s a (BitVec.ofNat 64 ((if e.1 then 2 ^ 15 else 0) + if s.oid = 0 then e.2 else 0)))

/-! ### Trace (R364, R365) -/

/-- TRCMARK (R364). -/
def execTrcmark (imm : Word) (s : State) : Out := .next (s.trace s.oid 1 imm.toNat s.cur).advance

/-- Close an open session (R407, R408): the count of dropped records, then the closing record. -/
def closeTrace (s : State) (oid : Nat) (cut : Bool) (c : CtxId) : State :=
  match (s.ownerSt oid).trace with
  | none => s
  | some t =>
    let s := if t.dropped = 0 then s else s.trace oid 9 t.dropped c
    let total := match (s.ownerSt oid).trace with
      | some t => t.total
      | none => 0
    let s := s.trace oid (if cut then 10 else 11) (if cut then 0 else total) c
    s.updOwner oid fun o => { o with trace := none }

/-- The owner that TRCCTL names, its privilege and fields checked. -/
def trcOwner (s : State) (b : XReg) : Act Nat := do
  needS s
  let w := s.getX b
  require s (fieldN w 63 16 == 0 && fieldN w 7 3 == 0 && decide (fieldN w 2 0 < 5))
  let oid := fieldN w 15 8
  nameOwner s oid false
  .ok oid

/-- Read the two doublewords of a 16-byte descriptor. -/
def readPairAt (s : State) (va : Word) : Act (Word × Word × State) := do
  let (bs, s) ← loadWords s va none 2
  .ok (BitVec.ofNat 64 (leNat (bs.take 8)), BitVec.ofNat 64 (leNat (bs.drop 8)), s)

/-- TRCCTL with OP 0 (R365). -/
def execTrcctlOpen (a b c : XReg) (s : State) : Out :=
  finish s do
    let oid ← trcOwner s b
    let (buf, size, s) ← readPairAt s (s.getX c)
    require s (size.toNat % 65536 == 0 && size != 0)
    if buf.toNat % 65536 != 0 then trapAt .align buf
    if (s.ownerSt oid).trace.isSome then .ok (putX s a 1)
    else
      let t : Trace :=
        { opener := s.oid, buf := buf, size := size.toNat, written := 0, dropped := 0, total := 0
          marksOnly := !(s.ownerSt oid).granted s.oid }
      .ok (putX (s.updOwner oid fun o => { o with trace := some t }) a 0)

/-- TRCCTL with OP 1 (R365). -/
def execTrcctlClose (a b c : XReg) (s : State) : Out :=
  finish s do
    let oid ← trcOwner s b
    require s (s.getX c == 0)
    match (s.ownerSt oid).trace with
    | none => .ok (putX s a 1)
    | some _ => .ok (putX (closeTrace s oid false s.cur) a 0)

/-- The party of a grant: owner 0 (false) or the host (true). -/
def grantParty (s : State) (c : XReg) : Act Bool := do
  let n ← immBelow s (s.getX c) 2
  .ok (n == 1)

/-- TRCCTL with OP 2 (R353, R365): only the owner itself grants. -/
def execTrcctlGrant (a b c : XReg) (s : State) : Out :=
  finish s do
    let oid ← trcOwner s b
    let host ← grantParty s c
    if oid != s.oid then trapNow .perm
    if !(s.ownerSt oid).isSealed then .ok (putX s a 1)
    else .ok (putX (s.updOwner oid fun o => if host then { o with grantHost := true } else { o with grant0 := true }) a 0)

/-- TRCCTL with OP 3 (R353, R365). -/
def execTrcctlWithdraw (a b c : XReg) (s : State) : Out :=
  finish s do
    let oid ← trcOwner s b
    let host ← grantParty s c
    if oid != s.oid then trapNow .perm
    let o := s.ownerSt oid
    if !(if host then o.grantHost else o.grant0) then .ok (putX s a 1)
    else .ok (putX (s.updOwner oid fun o => if host then { o with grantHost := false } else { o with grant0 := false }) a 0)

/-- TRCCTL with OP 4 (R365). -/
def execTrcctlStatus (a b c : XReg) (s : State) : Out :=
  finish s do
    let oid ← trcOwner s b
    require s (s.getX c == 0)
    let o := s.ownerSt oid
    let n := match o.trace with
      | some t => t.written * 2 ^ 32 + 1
      | none => 0
    .ok (putX s a (BitVec.ofNat 64 (n + if o.grant0 || o.grantHost then 2 else 0)))

/-! ### Counters (R366) -/

/-- Whether a core runs a firing of a measurement pass. -/
def inPass (s : State) (core : Nat) : Bool :=
  [0, 1].any fun w =>
    let k := s.ctxOf ⟨core, w⟩
    k.life == .running && (match (s.ownerSt k.fir.oid.toNat).mpass with
      | some m => m.launch == k.fir.launch.toNat
      | none => false)

/-- EVSEL (R366). -/
def execEvsel (a b c : XReg) (s : State) : Out :=
  finish s do
    let j ← immBelow s (s.getX b) 4
    let w := s.getX c
    require s (fieldN w 63 10 == 0 && decide (fieldN w 7 0 ≤ 17))
    if inPass s s.coreNo then .ok (putX s a 1)
    else
      let p : Perf := { event := w.setWidth 8, cf := w.getLsbD 8, ctx := w.getLsbD 9 }
      .ok (putX (s.updCore s.coreNo fun k => { k with perf := k.perf.setIfInBounds j p }) a 0)

/-- EVRD (R366). -/
def execEvrd (a b : XReg) (s : State) : Out :=
  finish s do
    let j ← immBelow s (s.getX b) 4
    .ok (putX s a ((((s.coreSt s.coreNo).perf.toList)[j]?.map (·.count)).getD 0))

/-! ### Measurement runs (R367, R414) -/

/-- The core that the Langor uses for a run of an owner. -/
def passCore (s : State) (oid : Nat) : CtxId := ⟨((s.coresOf oid).head?).getD 0, 3⟩

/-- Open a launch under a parent level and push ROOT onto a deque (R286, R304, R367); none where that is refused. -/
def openPass (s : State) (oid : Nat) (m : MPass) : Option State :=
  let c := passCore s oid
  match levelGet s c oid m.launch with
  | .error _ => none
  | .ok (l, s) =>
    if l.isOpen then none
    else match levelGet s c oid m.parent with
    | .error _ => none
    | .ok (p, s) =>
      if !p.isOpen || p.cancelled || p.kind != 1 then none
      else match levelAdd s c oid m.parent with
      | .ok (true, s) =>
        let s := levelPut s c { l with lo := levelOpened 0 m.parent, wit := 0 }
        let (f, s) := ((s.ownerSt oid).nextFid, s.updOwner oid fun o => { o with nextFid := o.nextFid + 1 })
        pushDeque s (pushTarget s c.core oid) oid { record := m.root, addr := m.rootAddr, startWit := 0, fid := f } false
      | _ => none

/-- A pass begins (R367, step 1): the CR pages are flushed, LAUNCH opens, ROOT is pushed. -/
def startPass (s : State) (oid : Nat) (m : MPass) : State :=
  let m := { m with cores := [], writeSet := [], crSaved := [], sig := 0 }
  let s := (s.home.partials.filter fun q => q.place.owner == oid).foldl (fun s q => foldLine s q.die q.place) s
  let put := fun (s : State) (m : MPass) => s.updOwner oid fun o => { o with mpass := some m }
  match openPass (put s m) oid m with
  | some s => s
  | none => put s { m with fault := true }

/-- A doubleword of the descriptor, written as the caller would write it. -/
def descWrite (s : State) (oid : Nat) (m : MPass) (off : Nat) (f : Word → Word) : State :=
  let c := passCore s oid
  let w : Who := ⟨m.caller, true, c.core, false⟩
  let va := m.desc + BitVec.ofNat 64 off
  match homeRead s c w va 8 with
  | .error _ => s
  | .ok (bs, s) =>
    match partyWrite s c w va (leBytes 8 (f (BitVec.ofNat 64 (leNat bs))).toNat) with
    | .ok s => s
    | .error _ => s

/-- Whether the pass of an owner has run out: its launch is not open. -/
def passOver (s : State) (oid : Nat) : Bool :=
  match (s.ownerSt oid).mpass with
  | none => false
  | some m => match levelGet s (passCore s oid) oid m.launch with
    | .ok (l, _) => !l.isOpen
    | .error _ => true

/-- The end of a run: the flags, the signature of pass 0, and the add to DONE with its witness (R367). -/
def endRun (s : State) (oid : Nat) (m : MPass) : State :=
  let flags := m.mismatch + (if m.overrun then 256 else 0) + (if m.fault then 512 else 0)
  let s := descWrite s oid m 72 fun _ => BitVec.ofNat 64 flags
  let s := descWrite s oid m 80 fun _ => m.sig0
  let s := s.updOwner oid fun o => { o with mpass := none }
  let c := passCore s oid
  match checkCounter s c ⟨m.caller, true, c.core, false⟩ m.done with
  | .ok (l, s) => if marked s l.owner l.line then s else counterApply s c l.owner l.pa 1 (mkWit .device (some s.now))
  | .error _ => s

/-- A page of the write set is restored from SNAP by ordinary writes, which bring its lines into the far tier and clear no
mark (R367, R414). -/
def restorePage (s : State) (c : CtxId) (oid from_ frame : Nat) : State :=
  (List.range 512).foldl (fun s i => touchHome s c oid oid (frame * 512 + i) true)
    { s with mem := memCopy s.mem from_ (frame * 65536) 65536 }
/-- The CR lines of the write set are as they were before the pass: their special states and sticky bits, and no partials of the
owner (R367). -/
def restoreCr (s : State) (oid : Nat) (m : MPass) : State :=
  s.onHome fun h => { h with
    crMeta := m.crSaved ++ h.crMeta.filter fun q => !m.writeSet.contains (q.key / 65536)
    partials := h.partials.filter fun q => q.place.owner != oid }

/-- A pass ends (R367, steps 3 and 4; R414), and the next begins or the run ends. -/
def endPass (s : State) (oid : Nat) : State :=
  match (s.ownerSt oid).mpass with
  | none => s
  | some m =>
    let count := fun (j : Nat) =>
      m.cores.foldl (fun (n : Word) core => n + ((((s.coreSt core).perf.toList)[j]?.map (·.count)).getD 0)) 0
    let s := (List.range 4).foldl (fun s j => descWrite s oid m (88 + 32 * m.pass + 8 * j) (· + count j)) s
    let m := if m.pass = 0 then { m with sig0 := m.sig }
      else if m.sig = m.sig0 then m else { m with mismatch := m.mismatch ||| 2 ^ m.pass }
    let s := dropOwner (writeBackOwner s oid) oid
    let bad := m.writeSet.any fun f => (List.range 512).any fun i => marked s oid (f * 512 + i)
    let s := (m.writeSet.mapIdx fun i f => (i, f)).foldl (fun s q =>
      let c := passCore s oid
      match check s c ⟨oid, true, c.core, false⟩ (m.snap + BitVec.ofNat 64 (65536 * q.1)) 0 .r with
      | .ok (l, s) => restorePage s c oid (l.pa / 65536 * 65536) q.2
      | .error _ => s) s
    let s := restoreCr s oid m
    let m := { m with fault := m.fault || bad }
    if m.pass + 1 < m.passes && !m.overrun && !bad then startPass s oid { m with pass := m.pass + 1 }
    else endRun s oid m

/-- MPASS (R367). -/
def execMpass (a b : XReg) (s : State) : Out :=
  finish s do
    needS s
    let va := s.getX b
    if va.toNat % 64 != 0 then trapAt .align va
    let (bs, s) ← loadWords s va none 9
    let word := fun (o : Nat) => leNat ((bs.drop o).take 8)
    let byte := fun (o : Nat) => (lget 0 bs o).toNat
    require s (byte 9 == 0 && leNat ((bs.drop 12).take 4) == 0)
    let root := BitVec.ofNat 64 (word 0)
    let passes := byte 8
    let events := (List.range 32).map fun i => byte (40 + i)
    let snap := word 16
    let size := word 24
    let done := BitVec.ofNat 64 (word 32)
    let parent := leNat ((bs.drop 10).take 2)
    let bad := root.toNat % 64 != 0 || passes == 0 || decide (8 < passes) || (events.take (4 * passes)).any (decide <| 17 < ·) ||
      snap % 65536 != 0 || size == 0 || size % 65536 != 0 || done.toNat % 8 != 0 || decide (4096 ≤ parent)
    if bad then .ok (putX s a 2)
    else do
      let (rb, s) ← loadWords s root none 8
      let r := BitVec.ofNat 512 (leNat rb)
      require s (recordOk r)
      let oid := recOwner r
      nameOwner s oid false
      if (s.ownerSt oid).mpass.isSome then .ok (putX s a 1)
      else
        let m : MPass :=
          { desc := va, caller := s.oid, root := r, rootAddr := root, passes := passes, pass := 0, launch := recLaunch r
            parent := parent, snap := BitVec.ofNat 64 snap, snapSize := size, done := done, events := events, cores := []
            writeSet := [], sig0 := 0, sig := 0, mismatch := 0, overrun := false, fault := false }
        .ok (putX (startPass (writeBackOwner s oid) oid m) a 0)

/-! ### Recording and replay (R368) -/

/-- The owner that RPLCTL names, its privilege and fields checked. -/
def rplOwner (s : State) (b : XReg) : Act Nat := do
  needS s
  let w := s.getX b
  require s (fieldN w 63 24 == 0 && fieldN w 15 9 == 0 && fieldN w 7 2 == 0)
  let oid := fieldN w 23 16
  nameOwner s oid false
  .ok oid

/-- RPLCTL with OP 1 or 2. The log's reserved bytes are judged at the instruction, after its statuses (log entry 47). -/
def rplStart (mode : Nat) (a b c : XReg) (s : State) : Out :=
  finish s do
    let oid ← rplOwner s b
    let (log, size, s) ← readPairAt s (s.getX c)
    if log.toNat % 65536 != 0 then trapAt .align log
    let o := s.ownerSt oid
    if !o.susp then .ok (putX s a 1)
    else if !o.granted s.oid then .ok (putX s a 2)
    else
      let r : Replay := { mode := mode, opener := s.oid, log := log, size := size.toNat, cont := (s.getX b).getLsbD 8 }
      let s := s.updOwner oid fun o => { o with rpl := r }
      require s (mode != 2 || logClean s oid)
      let head := [(1 : Byte), 0, 0, 0] ++ leBytes 4 oid ++ List.replicate 56 0
      let s := if mode != 1 then s
        else match traceWrite s s.cur s.oid log head with
        | .ok s => s
        | .error _ => s
      .ok (putX s a 0)

/-- RPLCTL with OP 0 (R368). -/
def execRplctlStop (a b c : XReg) (s : State) : Out :=
  finish s do
    let oid ← rplOwner s b
    let _ := c
    let o := s.ownerSt oid
    if !o.granted s.oid then .ok (putX s a 2)
    else .ok (putX (s.updOwner oid fun o => { o with rpl := { o.rpl with mode := 0 } }) a 0)
/-- RPLCTL with OP 1 (R368). -/
def execRplctlRecord (a b c : XReg) (s : State) : Out := rplStart 1 a b c s
/-- RPLCTL with OP 2 (R368). -/
def execRplctlReplay (a b c : XReg) (s : State) : Out := rplStart 2 a b c s
/-- RPLCTL with OP 3 (R368). -/
def execRplctlStatus (a b c : XReg) (s : State) : Out :=
  finish s do
    let oid ← rplOwner s b
    let _ := c
    let r := (s.ownerSt oid).rpl
    .ok (putX s a (BitVec.ofNat 64 (r.count * 2 ^ 32 + (if r.full then 8 else 0) + (if r.diverged then 4 else 0) + r.mode)))

/-! ### Contexts (R369, R370) -/

/-- The slot that an address names in region 0 of an owner's save area. -/
def namedSlot (s : State) (oid : Nat) (va : Word) : Act Nat :=
  let base := (s.ownerSt oid).savearea
  if va.toNat % 131072 != 0 then trapAt .align va
  else if (va - base).toNat % 131072 != 0 || 8192 * 131072 ≤ (va - base).toNat then trapAt .perm va
  else .ok ((va - base).toNat / 131072)

/-- CTXSAVE (R369): it waits for what the pre-emption of the context waits for. -/
def execCtxsave (a b c : XReg) (s : State) : Out :=
  finish s do
    needS s
    let w := (s.getX b).toNat
    require s (decide (w < 8192) && decide (w % 4096 < 2304))
    let t : CtxId := ⟨w % 4096, w / 4096⟩
    require s (t != s.cur)
    let k := s.ctxOf t
    let oid := if k.life == .running then k.fir.oid.toNat else s.coreOwner t.core
    nameOwner s oid false
    let n ← namedSlot s oid (s.getX c)
    let st := fun (s : State) (v : Nat) => Except.ok (putX s a (BitVec.ofNat 64 v))
    if k.life != .running then st s 1
    else
      let isValid := match slotImage s t oid n with
        | .ok (img, _) => img 2 1 == 1
        | .error _ => false
      if isValid then st s 5
      else match preemptCtx s t (some n) false with
      | (.waits, s) => .error (.wait (.saving t) (some s))
      | (.restarted, s) => st s 4
      | (.slot _, s) => st s 0
      | (.emergency, s) => st s 2
      | (.lost, s) => st s 3

/-- The accessor of CTXLOAD's read: the slot's address is one of its owner's, and a firing of another owner is never the
accessing owner of a sealed frame (R350, R369). -/
def slotReader (s : State) (oid : Nat) : Who := ⟨oid, s.cx.crs.cmode, s.cur.core, s.oid != oid⟩

/-- CTXLOAD (R369, R391): it waits for the lane store of the core where the slot has one. The reserved bytes of a slot are judged only
where its STATE is valid (log entry 21). -/
def execCtxload (a b c : XReg) (s : State) : Out :=
  finish s do
    needS s
    let w := (s.getX b).toNat
    require s (decide (w < 2304))
    let oid := s.coreOwner w
    nameOwner s oid false
    let va := s.getX c
    let n ← namedSlot s oid va
    let (img, s) ← (slotBytes s s.cur (slotReader s oid) va).act
    let st := fun (v : Nat) => Except.ok (putX s a (BitVec.ofNat 64 v))
    require s (img 2 1 != 1 || slotClean img)
    if img 2 1 != 1 then st 2
    else if img 4 1 != oid then st 3
    else
      let free := [0, 1].find? fun i => (s.ctxOf ⟨w, i⟩).life == .free && (s.place w).present && !(s.coreSt w).failed
      match free with
      | none => st 1
      | some i =>
        if laneBusy s w img then .error (.wait (.resume n) none)
        else .ok (putX (restoreCtx (setSlotState s s.cur oid n 2) ⟨w, i⟩ n img) a 0)

/-- IDLE (R370). -/
def execIdle (s : State) : Out :=
  finish s do
    needS s
    match s.cx.woke with
    | some (.idle _) => pass s
    | _ => .error (.wait (.idle false) none)

end Sys2Proof.Machine
end

