-- ==== Sys2Proof/Machine/Owner.lean ====
section
/-! DEFINITION. The instructions of page 7: seeds, bounds, draws, delay accumulators, utility counts, shares and quotas,
measurement and attestation (spec/13_system_instructions.md R371 to R380; spec/12_isolation.md R333, R337 to R343,
R353 to R355). -/

namespace Sys2Proof.Machine

/-! ### Seeds and draws (R372 to R374) -/

/-- Whether a context still runs a firing of an owner: one that is being suspended is not suspended before they are saved (R327). -/
def ownerRuns (s : State) (oid : Nat) : Bool :=
  s.contexts.any fun p => p.2.life == .running && p.2.fir.oid.toNat == oid && p.1.which != 2

/-- RESEED (R372). What is on its way to the owner's pages takes effect first (log entry 15); status 1 comes before ALIGN (log entry
51). -/
def execReseed (a b c : XReg) (s : State) : Out :=
  finish s do
    needS s
    let w := s.getX b
    let expl := w.getLsbD 8
    require s (fieldN w 63 9 == 0 && (expl || c == 0))
    let oid := fieldN w 7 0
    nameOwner s oid false
    if oid = 0 || !(s.ownerSt oid).susp || ownerRuns s oid then .ok (putX s a 1)
    else if expl then do
      let va := s.getX c
      if va.toNat % 16 != 0 then trapAt .align va
      if ownerBusy s oid then .error (.wait .walks none)
      let (lo, hi, s) ← readPairAt s va
      .ok (putX (installSeed s oid (hi ++ lo)) a 0)
    else if ownerBusy s oid then .error (.wait .walks none)
    else .ok (putX (installSeed s oid (freshSeed s oid)) a 0)

/-- The fields of a selector word (R371). -/
structure Selector where
  depth : Nat
  entry : Nat
  slice : Nat
  die : Nat
  cls : Nat
  deriving DecidableEq, Repr

/-- The ways of a slice of a cache class (R339). -/
def waysOf (cls : Nat) : Nat := if cls = 5 then 24 else 16
/-- The slices of a cache class on a die (R371). -/
def slicesOf (cls : Nat) : Nat := if cls = 5 then 32 else 128

/-- Read a selector (R371): `sliced` says that SLICE is used, with the cache classes, and `deep` that DEPTH is. -/
def selectorOf (s : State) (b : XReg) (okCls okEntry : Nat → Bool) (sliced deep : Bool) : Act Selector := do
  let w := s.getX b
  let q : Selector := ⟨fieldN w 39 32, fieldN w 28 24, fieldN w 22 16, fieldN w 11 8, fieldN w 4 0⟩
  require s (fieldN w 63 40 == 0 && fieldN w 31 29 == 0 && !w.getLsbD 23 && fieldN w 15 12 == 0 && fieldN w 7 5 == 0 &&
    okCls q.cls && okEntry q.entry && decide (q.die ≤ 8) &&
    (if sliced && decide (5 ≤ q.cls) then decide (q.slice < slicesOf q.cls) else q.slice == 0) &&
    (if deep then decide (1 ≤ q.depth) && decide (q.depth ≤ waysOf q.cls) else q.depth == 0))
  .ok q

/-- The share table of a class on a die. -/
def shareTab (s : State) (die cls : Nat) : List Share := lget [] (s.dieSt die).share cls

/-- XQ (R337, R373). -/
def execXq (a b c : XReg) (s : State) : Out :=
  finish s do
    let q ← selectorOf s b (fun n => decide (n ≤ 4)) (fun n => n == 0) false false
    .ok (putX s a (BitVec.ofNat 64 (exceedance s (shareTab s q.die q.cls) s.oid (s.getX c).toNat)))

/-- XDRAW (R374): no counter advances. -/
def execXdraw (a b c : XReg) (s : State) : Out :=
  finish s do
    let w := s.getX b
    let cls := fieldN w 12 8
    require s (pairOk a && fieldN w 63 32 == 0 && fieldN w 15 13 == 0 &&
      (decide (cls ≤ 10) || (decide (16 ≤ cls) && decide (cls ≤ 20))))
    let oid := fieldN w 7 0
    nameOwner s oid false
    let v := drawAt (s.ownerSt oid).seed cls (fieldN w 31 16) (s.getX c)
    .ok (putPair s a (v.setWidth 64) (v.extractLsb' 64 64))

/-! ### Delay accumulators and utility counts (R375, R376) -/

/-- DACCRD (R375): SUM, then COUNT. -/
def execDaccrd (a b : XReg) (s : State) : Out :=
  finish s do
    require s (pairOk a)
    let i ← immBelow s (s.getX b) 176
    let p := tget (0, 0) s.cx.dacc i
    .ok (putPair s a (BitVec.ofNat 64 p.1) (BitVec.ofNat 64 p.2))

/-- DACCCLR (R375). -/
def execDaccclr (b : XReg) (s : State) : Out :=
  finish s (
    if s.getX b = BitVec.allOnes 64 then .ok (s.onCx fun k => { k with dacc := [] }).advance
    else do
      let i ← immBelow s (s.getX b) 176
      .ok (s.onCx fun k => { k with dacc := tdel k.dacc i }).advance)

/-- The quota record of a slice of a cache class. -/
def quotaOf (s : State) (die cls slice : Nat) : Quotas :=
  if cls = 5 then (s.clusterSt (die * 32 + slice)).quotas else tget (quotasReset 16) (s.dieSt die).farQuotas slice

/-- An entry that an owner may read (R371), 31 being its own partition. -/
def entryAsked (s : State) (entry own : Nat) : Act Nat :=
  if entry = 31 then .ok own
  else if s.oid = 0 then .ok entry
  else trapNow .perm

/-- UMRD (R376). -/
def execUmrd (a b : XReg) (s : State) : Out :=
  finish s do
    let q ← selectorOf s b (fun n => n == 5 || n == 6) (fun n => decide (n ≤ 16) || n == 31) true true
    let p ← entryAsked s q.entry (partOf (floorsOf s q.die q.cls) s.oid)
    .ok (putX s a (BitVec.ofNat 64 (lget 0 ((quotaOf s q.die q.cls q.slice).part p).hits (q.depth - 1))))

/-! ### Shares and quotas (R333, R339, R377, R378) -/

/-- A quota table after QSET: every QUOTA at its FLOOR, the rest in the free pool. -/
def Quotas.atFloors (q : Quotas) (floors : List Floor) (ways : Nat) : Quotas :=
  let parts := (List.range 17).map fun i => { q.part i with quota := (lget ⟨none, 0⟩ floors i).floor }
  { q with parts := parts, free := ways - (parts.map (·.quota)).sum }

/-- The lines of an entry whose owner changes become overflow lines, and the floor stamps of the near tier never fall
(R235, R377). -/
def orphanEntry (s : State) (die cls entry : Nat) : State :=
  let mine := fun (k : Copy) => k.part == entry && (match k.at_ with
    | .near c => cls == 5 && c / 32 == die
    | .far h => cls == 6 && h / 128 == die
    | _ => false)
  let s := s.onHome fun h => { h with copies := lupd mine (fun (k : Copy) => { k with part := 16 }) h.copies }
  if cls != 5 then s
  else (List.range 32).foldl (fun s i =>
    let f := (s.clusterSt (die * 32 + i)).nearFloor
    let m := laterOf (tget 0 f entry) (tget 0 f 16)
    if m = 0 then s else s.updCluster (die * 32 + i) fun k => { k with nearFloor := tset (tset k.nearFloor entry m) 16 m }) s

/-- Install a floor table on a die: every slice of the class takes it (R339). -/
def installFloors (s : State) (die cls : Nat) (floors : List Floor) : State :=
  let s := s.updDie die fun d => { d with floors := d.floors.set (cls - 5) floors }
  if cls = 5 then (List.range 32).foldl (fun s i =>
    s.updCluster (die * 32 + i) fun k =>
      { k with quotas := { k.quotas.atFloors floors 24 with done := s.dev.intervals } }) s
  else s.updDie die fun d =>
    { d with farQuotas := (List.range 128).map fun h =>
        (h, { (tget (quotasReset 16) d.farQuotas h).atFloors floors 16 with done := s.dev.intervals }) }

/-- QSET (R377), its statuses in the order of log entry 51. -/
def execQset (a b c : XReg) (s : State) : Out :=
  finish s do
    needS0 s
    let q ← selectorOf s b (fun n => decide (n ≤ 6)) (fun n => decide (n ≤ 16)) false false
    let w := s.getX c
    let empty := w.getLsbD 16
    let oid := fieldN w 15 8
    let value := fieldN w 7 0
    require s (fieldN w 63 17 == 0 && (q.entry != 16 || (oid == 0 && !empty)) &&
      (decide (q.cls < 5) || decide (value ≤ waysOf q.cls)))
    let owner := if q.entry = 16 || empty then none else some oid
    if owner.isSome then nameOwner s oid false
    let value := if empty then 0 else value
    if q.cls < 5 then
      let tab := shareTab s q.die q.cls
      if owner.isSome && (List.range 16).any fun i => i != q.entry && (lget ⟨none, 0⟩ tab i).owner == owner then .ok (putX s a 2)
      else .ok (putX (s.updDie q.die fun d => { d with share := d.share.set q.cls (tab.set q.entry ⟨owner, value⟩) }) a 0)
    else
      let tab := floorsOf s q.die q.cls
      let new := tab.set q.entry ⟨owner, value⟩
      if owner.isSome && (List.range 16).any fun i => i != q.entry && (lget ⟨none, 0⟩ tab i).owner == owner then .ok (putX s a 2)
      else if waysOf q.cls < (new.map (·.floor)).sum then .ok (putX s a 1)
      else
        let s := if (lget ⟨none, 0⟩ tab q.entry).owner == owner then s else orphanEntry s q.die q.cls q.entry
        .ok (putX (installFloors s q.die q.cls new) a 0)

/-- QRD (R378). -/
def execQrd (a b : XReg) (s : State) : Out :=
  finish s do
    let q ← selectorOf s b (fun n => decide (n ≤ 6)) (fun n => decide (n ≤ 16) || n == 31) true false
    let word := fun (total quota value : Nat) (owner : Option Nat) (i : Nat) =>
      BitVec.ofNat 64 (total % 65536 * 2 ^ 32 + quota * 2 ^ 24 + (if i < 16 && owner.isNone then 2 ^ 23 else 0) +
        (owner.getD 0) * 2 ^ 8 + value)
    if q.cls < 5 then do
      let tab := shareTab s q.die q.cls
      let i ← entryAsked s q.entry (shareEntry tab s.oid)
      let e := lget ⟨none, 0⟩ tab i
      .ok (putX s a (word (shareWeights tab).sum 0 e.weight e.owner i))
    else do
      let tab := floorsOf s q.die q.cls
      let i ← entryAsked s q.entry (partOf tab s.oid)
      let e := lget ⟨none, 0⟩ tab i
      let k := quotaOf s q.die q.cls q.slice
      .ok (putX s a (word k.free (k.part i).quota e.floor e.owner i))

/-! ### Measurement and attestation (R353 to R355, R379, R380) -/

/-- The list of a MEASURE: each unit is 64 KiB aligned, readable, and of the caller's owner. -/
def checkUnits : (vas : List Word) → State → Act State
  | [], s => .ok s
  | va :: vas, s => do
    if va.toNat % 65536 != 0 then trapAt .align va
    let (l, s) ← s.check va 8 .r
    if l.owner != s.oid then trapAt .perm va
    checkUnits vas s

/-- The bytes of the units, in order. -/
def readUnits : (vas : List Word) → State → Act (List Byte × State)
  | [], s => .ok ([], s)
  | va :: vas, s => do
    let (bs, s) ← loadWords s va none 8192
    let (rest, s) ← readUnits vas s
    .ok (bs ++ rest, s)

/-- The bytes of a 256-bit value. -/
def bytes32 (v : BitVec 256) : List Byte := leBytes 32 v.toNat

/-- MEASURE (R354, R379). -/
def execMeasure (a : VReg) (b c : XReg) (s : State) : Out :=
  finish s do
    needS s
    let n := (s.getX c).toNat
    require s (decide (1 ≤ n) && decide (n ≤ 4096))
    let (ls, s) ← loadWords s (s.getX b) none n
    let vas := (List.range n).map fun i => BitVec.ofNat 64 (leNat ((ls.drop (8 * i)).take 8))
    let s ← checkUnits vas s
    let (bs, s) ← readUnits vas s
    let digest := sha3 bs
    let new := sha3 (bytes32 (s.ownerSt s.oid).measurement ++ digest)
    let s := s.updOwner s.oid fun o => { o with measurement := BitVec.ofNat 256 (leNat new) }
    .ok (putV s a (BitVec.ofNat 512 (leNat (digest ++ new))))

/-- The report of R354 without its signature, and the signature, which is a free value (log entry 6). -/
def attestation (s : State) (nonce : List Byte) : List Byte :=
  let o := s.ownerSt s.oid
  let flags := (if o.isSealed then 1 else 0) + if o.grant0 || o.grantHost then 2 else 0
  let key := (List.range 1184).map fun i => if o.isSealed then Config.encapsKey s.oid o.keyGen i else 0
  [1, 0, 0, 0, BitVec.ofNat 8 s.oid, BitVec.ofNat 8 flags] ++ List.replicate 10 0 ++ bytes32 o.measurement ++ nonce ++
    bytes32 Config.firmwareDigest ++ bytes32 Config.configDigest ++ key ++
    (List.range 2420).map fun i => Config.signature s.tick i

/-- Bytes as stores of at most 64 bytes, each aligned to its size: pieces of 64, then of 32, then of 4. -/
def storePieces : (fuel : Nat) → Word → List Byte → List (Word × List Byte)
  | 0, _, _ => []
  | fuel + 1, va, bs =>
    let n := if 64 ≤ bs.length then 64 else if 32 ≤ bs.length then 32 else 4
    if bs.isEmpty then [] else (va, bs.take n) :: storePieces fuel (va + BitVec.ofNat 64 n) (bs.drop n)

/-- Check every piece before any is stored. -/
def checkPieces : (ps : List (Word × List Byte)) → State → Act (List Put × State)
  | [], s => .ok ([], s)
  | p :: ps, s => do
    let (l, s) ← storeCheck s p.1 p.2.length
    let (rest, s) ← checkPieces ps s
    .ok (⟨p.1, l, p.2⟩ :: rest, s)
/-- ATTEST #0 (R354, R380). -/
def execAttestReport (a b c : XReg) (imm : Word) (s : State) : Out :=
  finish s do
    require s (imm == 0)
    let va := s.getX b
    if va.toNat % 64 != 0 then trapAt .align va
    if (s.getX c).toNat % 8 != 0 then trapAt .align (s.getX c)
    let (nonce, s) ← loadWords s (s.getX c) none 4
    let (ps, s) ← checkPieces (storePieces 64 va (attestation s nonce)) s
    let s ← storeAll s ps (s.scope none) false
    .ok (putX s a 0)

/-- ATTEST #1 (R355, R380). -/
def execAttestDecapsulate (a b c : XReg) (s : State) : Out :=
  finish s do
    let dst := s.getX c
    if (s.getX b).toNat % 8 != 0 then trapAt .align (s.getX b)
    if dst.toNat % 32 != 0 then trapAt .align dst
    let o := s.ownerSt s.oid
    if !o.isSealed then .ok (putX s a 1)
    else do
      let (l, t) ← storeCheck s dst 32
      if !entrySealed l.entry || l.owner != s.oid then .ok (putX s a 2)
      else
        let (ct, s) ← loadWords t (s.getX b) none 136
        let secret := bytes32 (Config.decapsulate s.oid o.keyGen (leNat ct))
        let s ← storeOne s dst l secret (s.scope none) false
        .ok (putX s a 0)

end Sys2Proof.Machine
end

