-- ==== Sys2Proof/Machine/Failure.lean ====
section
/-! DEFINITION. What fails, and what the Langor does about it: errors that a check finds, failing cores, clusters, dies
and home slices, co-scheduled groups, halts and the crash dump (spec/14_recovery.md R394 to R404, R416). -/

namespace Sys2Proof.Machine

/-! ### Marks (R396) -/

/-- The copies of a line above its home. -/
def upperCopies (s : State) (line : Nat) : List Copy :=
  s.home.copies.filter fun c => c.line == line &&
    (match c.at_ with
      | .far _ => false
      | _ => true)

/-- A line is marked, so that every read of it raises POISON: its clean copies go, and a dirty copy meets the refusal of a
write-back (R226, R396). -/
def spoil (s : State) (line : Nat) (m : Mark) : State :=
  let s := s.mark line m
  (((upperCopies s line).filter (·.dirty)).foldl homeWriteBack s).dropLine line

/-- Several lines are marked. -/
def spoilAll (s : State) (lines : List Nat) (m : Mark) : State := lines.foldl (fun s l => spoil s l m) s

/-- Every line of a home slice's channel is lost (R397): copies above it serve no more, and a dirty one meets the refusal of a
write-back. -/
def spoilChannel (s : State) (key : Nat) : State :=
  let s := s.loseChannel key
  let mine := s.home.copies.filter fun c => inHbm (c.line * 128) && sliceKey s c.owner c.line == key &&
    (match c.at_ with
      | .far _ => false
      | _ => true)
  let s := (mine.filter (·.dirty)).foldl homeWriteBack s
  s.onHome fun h => { h with copies := h.copies.filter fun c => !mine.any fun k => k.at_ == c.at_ && k.line == c.line }

/-- The die partials that a near-tier slice holds are lost: their lines are marked (R176, R397). One on its way to be folded
is held there no more. -/
def losePartials (s : State) (cluster : Nat) : State :=
  let gone := s.home.partials.filter fun p => p.cluster == cluster && p.evicted.isNone
  let s := s.onHome fun h => { h with partials := h.partials.filter fun p => !gone.contains p }
  spoilAll s (gone.map fun p => p.place.line) .lost

/-! ### Cores (R399) -/

/-- A context's firing is lost with its core or its registers; one that only holds a popped resume entry gives it back. -/
def endContext (s : State) (c : CtxId) (cause : Nat) : State :=
  match (s.ctxOf c).wait with
  | some (.entry _) => (preemptCtx s c none false).2
  | _ => lossOf s c cause

/-- The operations of a failed core's slice are discarded, and the peers of those in gangs meet GANG (R165, R399): at once
where they have started together, else by the end of the position. -/
def dropSlice (s : State) (core : Nat) : State :=
  let cl := clusterOf core
  let s := (s.coreSt core).slice.foldl (fun s o => match o.position with
    | none => s
    | some p =>
      if o.started then
        (memberCores cl p.mask).foldl (fun s c => s.updCore c fun k =>
          { k with slice := lupd (fun (q : MatOp) => q.position == some p) (fun q => { q with gangFault := true }) k.slice }) s
      else gangFail s cl p) s
  s.updCore core fun k => { k with slice := [] }

/-- The Langor handles a failed core. The buffers that its slice held stay with the slice. -/
def failCore (s : State) (core cause : Nat) : State :=
  if (s.coreSt core).failed then s
  else
    let s := s.updCore core fun k => { k with failed := true, asleep := false }
    let s := stopHelper (endContext (endContext s ⟨core, 0⟩ cause) ⟨core, 1⟩ cause) core
    let mine := s.home.copies.filter fun c => c.at_ == .l1 core || c.at_ == .l1i core
    let s := s.onHome fun h => { h with copies := h.copies.filter fun c => !(c.at_ == .l1 core || c.at_ == .l1i core) }
    let s := spoilAll s ((mine.filter (·.dirty)).map (·.line)) .lost
    let s := (dropSlice s core).updCore core fun k => { k with annQueue := [] }
    s.ownerEvent 9 (s.coreOwner core) 0 core 0 0

/-- CORE_FAIL: a core that system software or its debug module reports (R399). -/
def execCoreFail (core : Nat) (s : State) : Out := .next (failCore s core 0)

/-! ### Clusters (R401) -/

/-- A copy of a failed engine completes with FAULT, and LOST reaches an issuer that survives, now or when it resumes
(R385). -/
def loseCopy (s : State) (q : CopyOp) : State :=
  let s := if ctlLnd q.ctl = 31 then s else landRecord s q.ctx.core (ctlLnd q.ctl) 3 q.wit
  let s := if q.src.kind = 2 && q.started && !q.sent then peerReader s q false else s
  if q.kept then s.onNet fun t => { t with copyEnds := t.copyEnds ++ [⟨q.tag, q.wit, none, q.pc, some q.pc⟩] }
  else s.updCtx q.ctx fun k =>
    { k with copies := k.copies.filter (· != q.tag), lostPend := k.lostPend ++ [(2, q.pc)] }

/-- Started peer copies that read the buffers of a failed cluster complete with FAULT and POISON. -/
def losePeers (s : State) (cluster : Nat) : State :=
  (List.range 288).foldl (fun s cl =>
    (s.clusterSt cl).copyQ.foldl (fun s q =>
      if q.src.kind = 2 && q.src.clusters.head? == some cluster && q.started && !q.sent then
        updCopy s cl q.tag fun q => q.meets .poison q.sAddr
      else s) s) s

/-- The Langor handles a failed cluster. Where its near-tier tags are what failed, nothing it holds is served, and its
owners stop (R397). The buffers of a cluster in a co-scheduled group stay until its fatal fault is handled (R402). -/
def failClusterWith (s : State) (cluster : Nat) (tags : Bool) : State :=
  if (s.clusterSt cluster).failed then s
  else
    let cores := (List.range 8).map (coreAt cluster)
    let owners := ((cores.map fun c => [⟨c, 0⟩, ⟨c, 1⟩]).flatten.filter fun c => (s.ctxOf c).life == .running).map fun c =>
      (s.ctxOf c).fir.oid.toNat
    let alive := (s.clusterSt cluster).group.isSome
    let s := s.updCluster cluster fun k => { k with failed := true }
    let s := (s.clusterSt cluster).copyQ.foldl loseCopy s
    let s := s.updCluster cluster fun k => { k with copyQ := [] }
    let s := if alive then s
      else (losePeers s cluster).updCluster cluster fun k => { k with bufs := [] }
    let s := cores.foldl (fun s c => failCore s c 0) s
    let s := if tags then
        let held := s.home.copies.filter fun c => c.at_ == .near cluster
        let s := s.onHome fun h => { h with copies := h.copies.filter fun c => c.at_ != .near cluster }
        let s := losePartials (spoilAll s ((held.filter (·.dirty)).map (·.line)) .lost) cluster
        owners.foldl stopOwner s
      else s
    let s := s.updDie (cluster / 32) fun d =>
      { d with places := cores.foldl (fun t c => tset t (placeOf c) { s.place c with present := false }) d.places }
    let s := s.ownerEvent 10 (s.coreOwner (coreAt cluster 0)) 0 (coreAt cluster 0) cluster 0
    s.updCluster cluster fun k => { k with fatal := k.group.isSome }

/-- What of a cluster has failed is open where the event does not say (log entry 13). -/
def failCluster (s : State) (cluster : Nat) : State := failClusterWith s cluster (Config.tagsLost s.tick)

/-- CLUSTER_FAIL (R401). -/
def execClusterFail (cluster : Nat) (s : State) : Out := .next (failCluster s cluster)

/-- DIE_FAIL (R397, R401). What was on its way to the die is lost with it (R385); later accesses meet POISON. -/
def execDieFail (die : Nat) (s : State) : Out :=
  .next (
    if (s.dieSt die).failed then s
    else
      let s := s.updDie die fun d => { d with failed := true }
      let s := (List.range 32).foldl (fun s i => failCluster s (die * 32 + i)) s
      let s := s.onNet fun t => { t with flight := lupd (fun (f : Flight) => f.state == .onWay &&
        ((inHbm f.pa && homeDie (f.pa / 128) == die) || (forSequencer f && s.dev.seqDie == die))) (fun f => { f with state := .lost }) t.flight }
      let named := (s.home.dir.filter fun e => e.2.getLsbD die && homeDie e.1 != die).map (·.1)
      let s := spoilAll s named .lost
      let s := s.onHome fun h =>
        { h with
          dieLost := h.dieLost ++ [die]
          replLog := h.replLog.map fun r => { r with dies := r.dies.filter (· != die) }
          copies := h.copies.filter fun c => homeDie c.line != die
          partials := h.partials.filter fun p => p.die != die && homeDie p.place.line != die }
      let s := s.onHome fun h => { h with replLog := h.replLog.filter fun r => !r.dies.isEmpty }
      s.ownerEvent 11 0 0 (die * 256) 0 0)

/-! ### Co-scheduled groups (R402) -/

/-- The fatal fault of a group's cluster: the exported buffers of the group's owner in the cluster are quarantined while started copies read
them; its other buffers are zeroed and freed. -/
def groupFault (s : State) (cluster : Nat) : State :=
  if !(s.clusterSt cluster).fatal then s
  else
    let oid := s.coreOwner (coreAt cluster 0)
    let s := s.updCluster cluster fun k =>
      { k with
          fatal := false
          bufs := k.bufs.filterMap fun e =>
            if e.2.owner != oid then some e
            else if e.2.holder == holdExport && e.2.readers != 0 then some (e.1, { e.2 with quarantined := true })
            else none }
    s.ownerEvent 15 oid 0 (coreAt cluster 0) cluster 0
/-- GROUP_FATAL_FAULT (R402). -/
def execGroupFatalFault (cluster : Nat) (s : State) : Out := .next (groupFault s cluster)

/-! ### Home slices and near-tier data (R397) -/

/-- HOME_SLICE_FAIL: the lines that the slice held dirty are lost, or every line of its channel where its tags cannot be
read. -/
def execHomeSliceFail (die slice : Nat) (tagsReadable : Bool) (s : State) : Out :=
  .next (
    let key := die * 128 + slice
    let held := s.home.copies.filter fun c => c.at_ == .far key
    let s := s.onHome fun h => { h with copies := h.copies.filter fun c => c.at_ != .far key }
    let s := s.updDie die fun d =>
      { d with failedSlices := if d.failedSlices.contains slice then d.failedSlices else slice :: d.failedSlices }
    if tagsReadable then spoilAll s ((held.filter (·.dirty)).map (·.line)) .lost
    else spoilChannel s key)

/-- NEAR_TIER_DATA_ARRAYS_FAIL: what the slice's tags show dirty and the die partials it holds are lost. -/
def execNearTierDataArraysFail (cluster : Nat) (s : State) : Out :=
  .next (
    let held := s.home.copies.filter fun c => c.at_ == .near cluster
    let s := s.onHome fun h => { h with copies := h.copies.filter fun c => c.at_ != .near cluster }
    losePartials (spoilAll s ((held.filter (·.dirty)).map (·.line)) .lost) cluster)

/-! ### Errors that a check finds (R394) -/

/-- A trap of the whole context becomes pending. -/
def hwError (s : State) (c : CtxId) : State :=
  if (s.ctxOf c).life == .running then s.updCtx c fun k => { k with hwerr := true } else s

/-- A record in a deque or a trigger table is lost with its only copy: its firing is (R291, R394; log entry 13). -/
def loseRecord (s : State) (core oid : Nat) (e : DequeEntry) : State :=
  let s := match e.resume with
    | some n => setSlotState s ⟨core, 3⟩ oid n 4
    | none => s
  (levelDrop s ⟨core, 3⟩ oid (recLaunch e.record) 0 true).ownerEvent 1 oid e.fid core 0 0

/-- A trigger entry and its watch are gone, and the record that it held (R394). -/
def loseTrigger (s : State) (core i : Nat) : State :=
  match (s.coreSt core).trig.find? fun t => t.idx == i && t.live with
  | none => s
  | some t =>
    let s := s.onHome fun h => { h with watches := h.watches.filter fun w => !(w.core == core && w.idx == i) }
    let s := s.updCore core fun k => { k with trig := lupd (fun (t : TrigEntry) => t.idx == i) (fun t => { t with live := false }) k.trig }
    loseRecord (freeTrig s core i) core t.oid { record := t.record, addr := t.addr, startWit := 0, fid := 0 }

/-- The tags of a cache are lost: of an L1, the near-tier tags tell its dirty lines (R397). -/
def loseTags (s : State) (at_ : CacheId) : State :=
  let held := s.home.copies.filter fun c => c.at_ == at_
  let dropped := s.onHome fun h => { h with copies := h.copies.filter fun c => c.at_ != at_ }
  match at_ with
  | .near cluster => failClusterWith s cluster true
  | .far key => spoilChannel dropped key
  | _ => spoilAll dropped ((held.filter (·.dirty)).map (·.line)) .lost

/-- UNCORRECTABLE_ERROR: a clean copy is dropped, an only copy makes its line poisoned, a scratchpad or lane-store chunk is
poisoned, registers and address generation raise HWERR, an HBM line is poisoned, and so is a line whose addition failed
twice, with a system event; a firing whose staging is lost is pushed again (R291). -/
def execUncorrectableError (site : ErrSite) (s : State) : Out :=
  .next (match site with
    | .copy at_ line =>
      let hosts := match at_ with
        | .near cl => s.home.partials.filter fun (p : Partial) => p.place.line == line && p.cluster == cl && p.evicted.isNone
        | _ => []
      let s := s.onHome fun h => { h with partials := h.partials.filter fun p => !hosts.contains p }
      let s := if hosts.isEmpty then s else spoil s line .lost
      match findCopy s at_ line with
      | none => s
      | some k => if k.dirty then spoil (s.dropCopy at_ line) line .poisoned else s.dropCopy at_ line
    | .scratch cluster handle chunk =>
      match bufOf s cluster handle with
      | none => s
      | some b =>
        if 16 * chunk < b.size && !b.poison.contains chunk then
          updBuf s cluster handle fun b => { b with poison := chunk :: b.poison }
        else s
    | .lane core entry chunk =>
      let p := entry * 4 + chunk
      if entry < 1024 && chunk < 4 && (s.coreSt core).laneHolder.isSome && !(s.coreSt core).lanePoison.contains p then
        s.updCore core fun k => { k with lanePoison := p :: k.lanePoison }
      else s
    | .registers c => hwError s c
    | .scalarUnit c => hwError s c
    | .hbm line => if line * 128 < hbmEnd then spoil s line .poisoned else s
    | .adder line => if line * 128 < hbmEnd then (spoil s line .poisoned).ownerEvent 8 0 0 0 0 (line * 128) else s
    | .deque core i =>
      match (s.coreSt core).deque[i]? with
      | some e => if e.spill.isSome then s else loseRecord (dequeTake s core i) core (s.coreOwner core) e
      | none => s
    | .trigger core i => loseTrigger s core i
    | .staging c => if (s.ctxOf c).staged && !(s.ctxOf c).staging.isEmpty then lossOf s c 0 else s
    | .tags at_ => loseTags s at_)

/-- The queues that an access has still to pass, from the die that it has reached, by the edges that stand (R394). -/
def reroute (s : State) (f : Flight) : Flight :=
  match f.path with
  | (0, p) :: _ =>
    if 0x400 ≤ p then f
    else
      let on := fun d => (portsTo s (p / 64) d).map fun q => (0, q)
      let key := sliceKey s f.owner (f.pa / 128)
      let link := (f.pa - (2 ^ 51 + 2 ^ 50)) / 2 ^ 46
      { f with
        path := if forSequencer f then on s.dev.seqDie
          else if inHbm f.pa then on (key / 128) ++ [(2, key)]
          else if inLink f.pa then on (linkDie link) ++ [(0, 0x400 + link)]
          else on 4 }
  | _ => f

/-- An edge or link is failed: traffic of a link on its way is lost (R385, R394), and that of an edge is routed through
another die. Wires 0 to 15 are the Langor links, 16 to 27 the 12 edges (R9; log entry 13). -/
def failWire (s : State) (wire : Nat) : State :=
  if s.dev.linksDown.contains wire || 28 ≤ wire then s
  else
    let s := s.onDev fun d => { d with linksDown := wire :: d.linksDown, crcRetry := tdel d.crcRetry wire }
    let mine := fun (f : Flight) => f.state == .onWay && inLink f.pa && (f.pa - (2 ^ 51 + 2 ^ 50)) / 2 ^ 46 == wire
    let s := s.onNet fun t => { t with flight := lupd mine (fun f => { f with state := .lost }) t.flight }
    let s := if wire < 16 then s else s.onNet fun t => { t with flight := t.flight.map (reroute s) }
    s.ownerEvent 12 0 0 0 0 0

/-- A structure counts an error that it has corrected (R394). -/
def countCorrected (s : State) (u : CheckedUnit) : State :=
  let old := s.dev.corrections
  let new := if old.any (·.1 == u) then lupd (fun (e : CheckedUnit × Nat) => e.1 == u) (fun e => (e.1, e.2 + 1)) old
    else (u, 1) :: old
  s.onDev fun d => { d with corrections := new }

/-- EDGE_LINK_FAIL (R394). -/
def execEdgeLinkFail (wire : Nat) (s : State) : Out := .next (failWire s wire)

/-- LINK_CRC_RETRY: after 16 failed retries of one flit the wire is failed (R394). -/
def execLinkCrcRetry (wire : Nat) (s : State) : Out :=
  .next (
    if s.dev.linksDown.contains wire || 28 ≤ wire then s
    else
      let s := countCorrected s (.wire wire)
      let n := if Config.sameFlit s.tick then tget 0 s.dev.crcRetry wire + 1 else 1
      if 16 ≤ n then failWire s wire else s.onDev fun d => { d with crcRetry := tset d.crcRetry wire n })

/-! ### Halting (R403, R404) and the crash dump (R416) -/

/-- Whether system software, or the host, may see the state of an owner (R353, R404). -/
def shown (s : State) (host : Bool) (oid : Nat) : Bool := (s.ownerSt oid).shownTo host

/-- A context as the pieces of a slot, with the lane store that it holds (R388, R404). -/
def slotView (s : State) (c : CtxId) (k : Ctx) : List (Nat × List Byte) :=
  slotPieces s k c 1 0 ⟨(s.coreSt c.core).laneHolder == some c.which, false, false, k.gang.isSome⟩

/-- The debug snapshot of a halted cluster that a party may see. -/
def snapshotOf (s : State) (cluster : Nat) (host : Bool) : Snapshot :=
  let cores := (List.range 8).map (coreAt cluster)
  { contexts := (s.contexts.filter fun p => cores.contains p.1.core && p.2.life == .running && shown s host p.2.fir.oid.toNat).map
      fun p => (p.1, slotView s p.1 p.2)
    bufs := (s.clusterSt cluster).bufs.filter fun e => shown s host e.2.owner
    copyQ := (s.clusterSt cluster).copyQ.filter fun q => shown s host q.oid
    landing := cores.map fun c => (c, (s.coreSt c).landing.filter fun o => shown s host o.oid) }

/-- A debug read (R353, R394): zeros of a sealed owner that has granted the reader nothing. -/
def debugRead (s : State) (host : Bool) (d : DebugRead) : List Byte :=
  let of := fun (c : CtxId) (n : Nat) (read : Ctx → Nat) =>
    leBytes n (if shown s host (s.ctxOf c).fir.oid.toNat then read (s.ctxOf c) else 0)
  match d with
  | .reg c r => of c 8 fun k => (k.getX r).toNat
  | .vector c r => of c 64 fun k => (k.getV r).toNat
  | .mask c r => of c 8 fun k => (k.getM r).toNat
  | .tile c r => of c 2048 fun k => (k.getT r).toNat
  | .control c n => of c 8 fun _ => ((crReadReg { s with cur := c } n).getD 0).toNat
  | .scratch cluster handle off n =>
    match bufOf s cluster handle with
    | some b => if shown s host b.owner then bufRead b off n else List.replicate n 0
    | none => List.replicate n 0
  | .frame pa n =>
    (List.range n).map fun i => match tfind s.home.sealTags ((pa + i) / 65536) with
      | some o => if shown s host o then memGet s.mem (pa + i) else 0
      | none => memGet s.mem (pa + i)
  | .corrections u => leBytes 8 (((s.dev.corrections.find? fun e => e.1 == u).map (·.2)).getD 0)

/-- A trace record for every owner with a core in the cluster (R404, R406). -/
def traceCluster (s : State) (cluster kind : Nat) : State :=
  let cores := (List.range 8).map (coreAt cluster)
  (cores.foldl (fun (a : State × List Nat) c =>
    let o := a.1.coreOwner c
    if a.2.contains o then a else (a.1.trace o kind 0 ⟨c, 0⟩, o :: a.2)) (s, [])).1

/-- A cluster halts at an instruction boundary of each of its cores. -/
def haltCluster (s : State) (cluster : Nat) : State :=
  if (s.clusterSt cluster).halted then s
  else
    let s := traceCluster s cluster 7
    s.updCluster cluster fun k =>
      { k with halted := true, snapshot := some (snapshotOf s cluster false), hostSnapshot := some (snapshotOf s cluster true) }

/-- A cross-trigger halts a cluster, and the whole package where the cluster's module passes its halt on (R403). -/
def crossTrigger (s : State) (cluster : Nat) : State :=
  if (s.clusterSt cluster).halted then s
  else if (s.clusterSt cluster).passHalt then (List.range 288).foldl haltCluster s
  else haltCluster s cluster

/-- CROSS_TRIGGER_HALT (R403). -/
def execCrossTriggerHalt (cluster : Nat) (s : State) : Out := .next (crossTrigger s cluster)

/-- HALT_RESUME (R404); after a crash dump nothing resumes (R416). -/
def execHaltResume (cluster : Nat) (s : State) : Out :=
  .next (
    if !(s.clusterSt cluster).halted || s.dev.crash then s
    else traceCluster (s.updCluster cluster fun k => { k with halted := false }) cluster 8)

/-- CRASH_DUMP: every cluster halts. The sections that the crash kernel writes go to the dump partition, outside the
machine; nothing resumes until a reset (R416). -/
def execCrashDump (s : State) : Out :=
  .next ((List.range 288).foldl haltCluster (s.onDev fun d => { d with crash := true }))

end Sys2Proof.Machine
end

