-- ==== Sys2Proof/Machine/Boundary.lean ====
section
/-! DEFINITION. What comes to a context between instructions: traps, time, the end of a wait, pre-emption, a record
(spec/14_recovery.md R381 to R386, R391; spec/10_progress.md R278 to R285, R291, R296, R301). -/

namespace Sys2Proof.Machine

/-! ### Traps between instructions (R382 to R386) -/

/-- What may be taken at an instruction boundary. -/
inductive Pending where
  | hwerr | lost | engine | preempt | timer | notice
  deriving DecidableEq, Repr

/-- TIMER is pending: its deadline has been reached, or fabric time is at or past an armed one (R85). -/
def timerDue (s : State) (k : Ctx) : Bool :=
  k.timerPend || (k.crs.tdline.getLsbD 63 && atOrPast s.now (k.crs.tdline.setWidth 48))

/-- Whether the instruction at which a context stands has issued and is interrupted no more (R303): it waits for its writes, an
earlier load, its turn or its window or, presenting a record, for a replica, it drains, or its answer is decided. -/
def Ctx.issued (k : Ctx) : Bool :=
  k.verdict.isSome || (match k.wait.or k.woke with
    | some .drain => true
    | some (.writes _ _) => true
    | some (.late _) => true
    | some (.turn _ _) => true
    | some (.window _) => true
    | some (.replica _ true) => true
    | _ => false)

/-- Whether an instruction that is set aside is to write memory: no trap is taken before it has (log entry 37). -/
def asideWrites (i : Instr) : Bool :=
  match i with
  | .st _ _ _ _ _ _ _ => true
  | .amoadd _ _ _ _ _ => true
  | .amoand _ _ _ _ _ => true
  | .amoor _ _ _ _ _ => true
  | .amoxor _ _ _ _ _ => true
  | .amomin _ _ _ _ _ => true
  | .amomax _ _ _ _ _ => true
  | .amominu _ _ _ _ _ => true
  | .amomaxu _ _ _ _ _ => true
  | .amoswp _ _ _ _ _ => true
  | .amocas _ _ _ _ _ => true
  | .amofadd _ _ _ _ _ => true
  | .mma _ _ _ _ => true
  | .mmas _ _ _ _ => true
  | .mmat _ _ _ _ => true
  | .crclr _ _ _ => true
  | .cradd _ _ _ => true
  | _ => false
/-- Whether a context has such an instruction set aside. -/
def Ctx.holdsWrites (k : Ctx) : Bool := k.aside.any fun a => asideWrites a.instr

/-- The first pending cause that a context takes at its boundary, in the order of R383. END and YIELD that drain are not
interrupted but by what concerns their own effects, and other instructions that have issued by none of these (R303); a context
that has popped a resume entry only gives it back. -/
def pendingCause (s : State) (k : Ctx) : Option Pending :=
  let free := !k.crs.inh
  let drains := k.wait == some .drain
  let entry := match k.wait with
    | some (.entry _) => true
    | _ => false
  if k.life != .running then none
  else if k.hwerr then some .hwerr
  else if entry then (if k.preempt then some .preempt else none)
  else if (k.issued && !drains) || k.holdsWrites then none
  else if free && !k.lostPend.isEmpty then some .lost
  else if !k.engFaults.isEmpty then some .engine
  else if drains then none
  else if k.preempt then some .preempt
  else if free && timerDue s k then some .timer
  else if free && k.noticeSet != 0 then some .notice
  else none

/-- A trap is pending, held or not: it ends IDLE (R370). -/
def trapWaits (s : State) (k : Ctx) : Bool :=
  k.hwerr || !k.lostPend.isEmpty || !k.engFaults.isEmpty || timerDue s k || k.noticeSet != 0

/-- The wait of the running context is given up for a trap: IDLE completes first (R370), another instruction executes again
from its start, and a monitor entry is freed, also where the wait is over and its word not read again yet (R324). -/
def leaveWait (s : State) : State :=
  let s := match s.cx.wait.or s.cx.woke with
    | some (.idle _) => s.advance
    | some (.address _ _ _) => freeMonitor s
    | _ => s
  s.onCx fun k => { k with wait := none, woke := none }

/-- HWERR (R381, R399): the firing is lost, and a second one within 2^30 ns fails the core. -/
def takeHwerr (s : State) : State :=
  let c := s.cur
  if c.which = 2 then stopHelper s c.core
  else
    let twice := match (s.coreSt c.core).hwerrAt with
      | some t => decide ((s.now - t).toNat < 2 ^ 30)
      | none => false
    let s := (s.onCx fun k => { k with hwerr := false }).firingEvent c 7 0x15 0 0
    let s := (endContext s c 0x15).updCore c.core fun k => { k with hwerrAt := some s.now }
    if twice then failCore s c.core 0x15 else s

/-- The engine fault of a context that was issued first, and the others (R383). -/
def firstFault (fs : List EngFault) : Option (EngFault × List EngFault) :=
  match fs with
  | [] => none
  | f :: fs =>
    let least := fs.foldl (fun m g => if g.issue < m.issue then g else m) f
    some (least, (f :: fs).erase least)

/-- The running context takes the trap that is pending at its boundary; PREEMPT has no handler. -/
def boundaryTrap (s : State) : State :=
  match pendingCause s s.cx with
  | none => s
  | some .preempt => s
  | some .hwerr => takeHwerr s
  | some .lost =>
    match s.cx.lostPend with
    | [] => s
    | (kind, addr) :: rest =>
      let s := leaveWait s
      takeTrap (s.onCx fun k => { k with lostPend := rest }) .lost false (some addr) (some (BitVec.ofNat 64 kind)) s.cx.pc
  | some .engine =>
    match firstFault s.cx.engFaults with
    | none => s
    | some (f, rest) =>
      let s := leaveWait s
      takeTrap (s.onCx fun k => { k with engFaults := rest }) f.cause true (some (f.addr.getD 0)) (some f.val) s.cx.pc
  | some .timer =>
    let s := leaveWait s
    let s := s.onCx fun k =>
      { k with timerPend := false, crs := { k.crs with tdline := k.crs.tdline &&& ~~~(BitVec.twoPow 64 63) } }
    takeTrap s .timer false none none s.cx.pc
  | some .notice =>
    let s := leaveWait s
    let set := s.cx.noticeSet
    takeTrap (s.onCx fun k => { k with noticeSet := 0 }) .notice false none (some set) s.cx.pc

/-- Whether the cluster of a core is halted: its contexts stand still (R403). -/
def haltedAt (s : State) (core : Nat) : Bool := (s.clusterSt (clusterOf core)).halted

/-- TRAP_ENTRY (R382, R383). -/
def execTrapEntry (c : CtxId) (s : State) : Out := .next (if haltedAt s c.core then s else s.asCtx c boundaryTrap)

/-- TIMER becomes pending (R85). -/
def deadlineReached (s : State) (c : CtxId) : State :=
  let k := s.ctxOf c
  if k.life == .running && timerDue s k then s.updCtx c fun k => { k with timerPend := true } else s
/-- TDLINE_DEADLINE (R85). -/
def execTdlineDeadline (c : CtxId) (s : State) : Out := .next (deadlineReached s c)

/-! ### The end of a wait (R249, R300 to R303) -/

/-- Whether what an instruction of a context waits for has come. Where only the instruction itself can tell, it executes
again and looks. -/
def waitOver (s : State) (c : CtxId) (w : Wait) : Bool :=
  let k := s.ctxOf c
  match w with
  | .register r => !k.pend.any fun p => p.reg == r
  | .late id => !k.late.any fun l => l.id == id
  | .window _ => false
  | .aside => true
  | .laneStore =>
    let q := s.coreSt c.core
    !q.laneClearing && (match q.laneHolder with
      | none => true
      | some h => h == c.which)
  | .sliceQueue => decide ((s.coreSt c.core).slice.length < 8)
  | .gangSlice => (s.coreSt c.core).sliceGang.isNone
  | .copyQueue => decide (((s.clusterSt (clusterOf c.core)).copyQ.countP fun q => !q.started) < 32)
  | .matrixDone => !((s.coreSt c.core).slice.any fun o => o.ctx == c)
  | .writes sc mark => delivered s c mark sc
  | .replica st _ => !after (s.dieSt (dieOf c.core)).replMark st
  | .barrier bar g =>
    match tfind (s.dieSt (dieOf c.core)).barriers bar with
    | some b => b.owner != k.fir.oid.toNat || b.g != g
    | none => true
  | .notify n val => ((s.ownerSt k.fir.oid.toNat).notif.toList)[n]?.getD 0 != val
  | .idle woken => woken || trapWaits s k
  | .level i =>
    match levelGet s c k.fir.oid.toNat i with
    | .ok (l, _) => !l.isOpen
    | .error _ => true
  | .landing _ => true
  | .dismantle _ => true
  | .address _ _ _ => true
  | .peers _ => true
  | .drain => true
  | .walks => true
  | .saving _ => true
  | .resume _ => true
  | .entry _ => true
  | .turn _ _ => true

/-- A waiting instruction executes again from its start and knows what it waited for. -/
def release (s : State) (c : CtxId) : State :=
  s.updCtx c fun k => { k with woke := k.wait, wait := none }

/-- Release a context from a wait that `p` admits. -/
def releaseIf (s : State) (c : CtxId) (p : Wait → Bool) : State :=
  match (s.ctxOf c).wait with
  | some w => if !haltedAt s c.core && p w && waitOver s c w then release s c else s
  | none => s

/-- The wait of an instruction ends; a context that holds a resume entry resumes its slot. -/
def endWait (s : State) (c : CtxId) : State :=
  match (s.ctxOf c).wait with
  | some (.entry n) => if haltedAt s c.core then s else (resumeSlot s c (s.ctxOf c).fir.oid.toNat n).getD s
  | some (.address _ _ _) => s
  | some .copyQueue => s
  | _ => releaseIf s c fun _ => true

/-- INSTR_WAIT_END (R303). -/
def execInstrWaitEnd (c : CtxId) (s : State) : Out := .next (endWait s c)

/-- A polled WAITA re-reads its word (R300). -/
def pollWait (s : State) (c : CtxId) : State := releaseIf s c fun
  | .address _ _ polled => polled
  | _ => false
/-- WAITA_POLL (R300). -/
def execWaitaPoll (c : CtxId) (s : State) : Out := .next (pollWait s c)

/-- A monitored WAITA re-reads its word (R300, R301). -/
def wakeWait (s : State) (c : CtxId) : State := releaseIf s c fun
  | .address _ _ polled => !polled
  | _ => false
/-- WAITA_WAKE (R301). -/
def execWaitaWake (c : CtxId) (s : State) : Out := .next (wakeWait s c)

/-- A copy that waited for room in the queue goes on (R249). -/
def enqueueWait (s : State) (c : CtxId) : State := releaseIf s c fun w => w == .copyQueue
/-- COPY_ENQUEUE (R249). -/
def execCopyEnqueue (c : CtxId) (s : State) : Out := .next (enqueueWait s c)

/-- A barrier's time-out ends its generation (R296). -/
def barrierExpires (s : State) (die bar : Nat) : State :=
  match tfind (s.dieSt die).barriers bar with
  | none => s
  | some b =>
    match b.started with
    | none => s
    | some t => if atOrPast s.now (t + BitVec.ofNat 48 b.timeout) then setBarrier s die bar (b.ended true) else s
/-- BARRIER_TIMEOUT (R296). -/
def execBarrierTimeout (die bar : Nat) (s : State) : Out := .next (barrierExpires s die bar)

/-! ### Pre-emption and resuming (R386, R391) -/

/-- A suspended owner's context is pre-empted once its waits are over. -/
def preempted (s : State) (c : CtxId) : State :=
  let k := s.ctxOf c
  if c.which < 2 && !haltedAt s c.core && pendingCause s k == some .preempt then (preemptCtx s c none true).2 else s
/-- PREEMPTION (R386). -/
def execPreemption (c : CtxId) (s : State) : Out := .next (preempted s c)

/-- A save that suspension made resumes in its place once the owner runs again (R391). -/
def resumeSuspended (s : State) (oid slot : Nat) : State :=
  let o := s.ownerSt oid
  match (suspdSlots s oid).find? fun p => p.1 == slot with
  | none => s
  | some (_, c) =>
    if o.valid && !o.susp && coreOpen s c.core && s.coreOwner c.core == oid && (s.ctxOf c).life == .free then
      (resumeSlot s c oid slot).getD s
    else s
/-- SUSPENDED_RESUME (R391). -/
def execSuspendedResume (oid slot : Nat) (s : State) : Out := .next (resumeSuspended s oid slot)

/-! ### Records (R278, R279, R281, R285, R291) -/

/-- FIRING_DISPATCH (R279). -/
def execFiringDispatch (c : CtxId) (s : State) : Out := .next (dispatch s c)
/-- STEAL_REQUEST (R281). -/
def execStealRequest (core : Nat) (s : State) : Out := .next (stealAsk s core)
/-- STEAL_REPLY (R281). -/
def execStealReply (i : Nat) (s : State) : Out := .next (stealAnswer s i)
/-- FIRING_REDISPATCH (R291). -/
def execFiringRedispatch (i : Nat) (s : State) : Out := .next (redispatch s i)
/-- DEQUE_PUSH_RETRY (R278). -/
def execDequePushRetry (core : Nat) (s : State) : Out := .next ((retryPush s core).getD s)

/-- A fire reaches the arming core, which pushes its record; an entry whose watch is gone is then freed (R284, R285). -/
def fireArrives (s : State) (i : Nat) : State :=
  match s.home.fires[i]? with
  | none => s
  | some f =>
    let s := s.onHome fun h => { h with fires := dropAt h.fires i }
    freeTrig (firePush s f (recRearm f.record)) f.core f.idx
/-- TRIGGER_FIRE_PUSH (R284). -/
def execTriggerFirePush (i : Nat) (s : State) : Out := .next (fireArrives s i)

end Sys2Proof.Machine
end

