-- ==== Sys2Proof/Machine/Engines.lean ====
section
/-! DEFINITION. What the matrix slices, the lane store, the copy engines and Gauze do on their own (spec/06_matrix.md
R155 to R157, R165 to R177; spec/01_machine.md R17; spec/09_ordering_goals.md R249 to R255; spec/07_memory_model.md R216;
spec/10_progress.md R289; spec/11_sync_instructions.md R321 to R323). -/

namespace Sys2Proof.Machine

/-- Whether a core's engines run: neither the core nor its cluster has failed, and the cluster is not halted. -/
def engineRuns (s : State) (core : Nat) : Bool :=
  let k := s.clusterSt (clusterOf core)
  !(s.coreSt core).failed && !k.failed && !k.halted

/-! ### Matrix operations (R155, R156, R165) -/

/-- The next operation of a slice to start. -/
def unstarted (s : State) (core : Nat) : Option MatOp := (s.coreSt core).slice.find? fun o => !o.started

/-- A slice at rest inserts fillers on its next operation, and so does one less than 64 core cycles into a hold (R177). -/
def rampFill (s : State) (core : Nat) (c : CtxId) : State :=
  let k := s.coreSt core
  let early := match k.hold with
    | some (t, _) => !atOrPast s.now (t + cyclesNs s (clusterOf core) 64)
    | none => k.rampIdle
  let s := if early then addFill s c else s
  s.updCore core fun k => { k with rampIdle := false }

/-- An operation starts; a gang member other than the leader takes the leader's A operand. -/
def beginOp (s : State) (core : Nat) (o : MatOp) (a : MatOperand) : State :=
  rampFill (updOp s core o.id fun o => { o with started := true, a := a }) core o.ctx

/-- A solo operation starts; a gang operation starts with every member's, once each is the next of its slice. Members that
disagree meet GANG (R165). -/
def startOp (s : State) (core : Nat) : State :=
  if !engineRuns s core then s
  else match unstarted s core with
  | none => s
  | some o =>
    match o.position with
    | none => beginOp s core o o.a
    | some p =>
      let cl := clusterOf core
      let members := memberCores cl p.mask
      let ops := members.filterMap fun c => (positionOp s c p).map fun o => (c, o)
      if ops.length != members.length || ops.any fun q => (unstarted s q.1).map (·.id) != some q.2.id then s
      else if ops.any fun q => !agree o q.2 then gangFail s cl p
      else
        let lead := ((ops.find? fun q => indexOf q.1 == leaderOf p.mask).map fun q => q.2.a).getD {}
        ops.foldl (fun s q => beginOp s q.1 q.2 lead) s
/-- MATRIX_OP_START (R165). -/
def execMatrixOpStart (core : Nat) (s : State) : Out := .next (startOp s core)

/-- A position that some member has not met in time ends with GANG (R165). -/
def gangExpires (s : State) (core : Nat) : State :=
  match (s.coreSt core).slice.find? fun o => !o.started && o.position.isSome with
  | none => s
  | some o =>
    match o.position with
    | none => s
    | some p =>
      let members := memberCores (clusterOf core) p.mask
      let ops := members.filterMap fun c => positionOp s c p
      if ops.length != members.length && ops.any fun q => atOrPast s.now (q.issuedAt + 65536)
      then gangFail s (clusterOf core) p
      else s
/-- GANG_TIMEOUT (R165). -/
def execGangTimeout (core : Nat) (s : State) : Out := .next (gangExpires s core)

/-- What a started operation raises at completion before its destination is looked at: a gang's fault, a pairing, scale or index
that is not permitted, then a poisoned operand (R158, R160, R163, R165, R170, R179). -/
def opFault (o : MatOp) : Option (Cause × Option Word) :=
  let fa := fieldN o.mfmt 3 0
  let fb := fieldN o.mfmt 7 4
  if o.gangFault then some (.gang, none)
  else if fmtReserved fa || fmtReserved fb || !paired fa fb || o.a.badScales || o.b.badScales || !indexOk o then
    some (.mxfmt, none)
  else (o.a.fault.or o.b.fault).map fun f => (f.1, some f.2)

/-- The buffers of an operation pass on as its destination pair names, or return to their issuer after GANG; one that a
later operation of the slice names stays (R159, R165, R167). A buffer that the operation uses for two purposes goes where the
first of A, B, A's scales and B's scales names (log entry 25). -/
def handOn (s : State) (core : Nat) (o : MatOp) (gang : Bool) : State :=
  let cl := clusterOf core
  let later := (s.coreSt core).slice.filter fun q => q.id != o.id
  o.handles.foldl (fun s h =>
    if later.any fun q => q.handles.any fun g => g.1 == h.1 then s
    else
      let nhen := o.dfld.getLsbD 42
      let n := if gang || !nhen then indexOf core
        else if h.2 then fieldN o.dfld 36 32 else fieldN o.dfld 41 37
      if n = holdFree then freeBuf s cl h.1
      else if n = holdExport then exportBuf s cl h.1 (indexOf core)
      else updBuf s cl h.1 fun b => { b with holder := n }) s

/-- What becomes of the contributions of an operation that completes: it waits, it faults, its firing is exposed first, or they
are in. -/
inductive Contributed where
  | waits
  | fault (f : Cause × Option Word)
  | exposed (s : State)
  | done (s : State)

/-- The contributions of an operation enter the staging of its firing, whose backing was checked at issue (R87, R292), or the
die partials. They wait while a line must wait for its turn in replay, for what its own firing has on its way to it or for a
commit that is adding to it, and a staging that they would overflow is committed first (R119, R171, R172, R203, R290, R412). -/
def contribute (s : State) (o : MatOp) : Contributed :=
  match contributions s o with
  | .error (c, a) => .fault (c, some a)
  | .ok (ls, t) =>
    let here := t.cur
    let u := t.switchTo o.ctx
    if u.cx.staged then
      let st := stageLines u.cx.staging ls
      if stagingNeed u st [] ≤ stagingLimit then .done ((u.onCx fun k => { k with staging := st }).switchTo here)
      else .exposed ((expose (s.switchTo o.ctx)).switchTo s.cur)
    else if (s.net.flight.any fun f => f.ctx == o.ctx && ls.any fun l => f.bringsCr l.1.key) ||
        commitUnderWay s o.ctx ((ls.filter (·.1.fmt == 2)).map (·.1.key)) ||
        !(heldLines s o.ctx o.oid o.id (placeEvents (ls.map (·.1)))).isEmpty then .waits
    else .done (commitLines t o.ctx o.oid (some o.id) ls)

/-- An operation leaves its slice: its buffers pass on, and a fault waits for its context's next boundary (R156, R157). -/
def leaveSlice (s : State) (core : Nat) (o : MatOp) (fault : Option (Cause × Option Word)) : State :=
  let s := handOn s core o (fault.map (·.1) == some .gang)
  let s := s.updCore core fun k => { k with slice := k.slice.filter (·.id != o.id), lastDone := s.now }
  let s := match fault with
    | some (c, a) => s.engineFault o.ctx c (some (a.getD 0)) o.pc o.id
    | none => s
  let k := s.coreSt core
  let s := if k.slice.isEmpty && k.hold.isNone then addFill s o.ctx else s
  s.countEv o.ctx 6 (Config.cycles (4 * s.tick + 1)).toNat

/-- The oldest operation of a slice completes, once it has started (R156). -/
def completeOp (s : State) (core : Nat) : State :=
  if !engineRuns s core then s
  else match (s.coreSt core).slice.head? with
  | none => s
  | some o =>
    if !o.started then s
    else if o.discard then leaveSlice s core o none
    else match opFault o with
    | some f => leaveSlice s core o (some f)
    | none =>
      match contribute s o with
      | .waits => s
      | .fault f => leaveSlice s core o (some f)
      | .exposed s => s
      | .done s => leaveSlice s core o none
/-- MATRIX_OP_COMPLETE (R156). -/
def execMatrixOpComplete (core : Nat) (s : State) : Out := .next (completeOp s core)

/-- A slice without an operation in progress for 256 core cycles, and not held, is at rest (R177). -/
def rampDown (s : State) (core : Nat) : State :=
  let k := s.coreSt core
  if k.slice.all (fun o => !o.started) && k.hold.isNone && atOrPast s.now (k.lastDone + cyclesNs s (clusterOf core) 256)
  then s.updCore core fun k => { k with rampIdle := true }
  else s
/-- SLICE_RAMP_DOWN (R177). -/
def execSliceRampDown (core : Nat) (s : State) : Out := .next (rampDown s core)

/-- A hold at full rate runs out (R177). -/
def holdEnds (s : State) (core : Nat) : State :=
  match (s.coreSt core).hold with
  | some (_, t) => if atOrPast s.now t then s.updCore core fun k => { k with hold := none } else s
  | none => s
/-- MHINT_HOLD_END (R177). -/
def execMhintHoldEnd (core : Nat) (s : State) : Out := .next (holdEnds s core)

/-- The clear of a released lane store completes (R17). -/
def laneCleared (s : State) (core : Nat) : State :=
  if (s.coreSt core).laneClearing then
    s.updCore core fun k => { k with laneClearing := false, lane := [], lanePoison := [] }
  else s
/-- LANE_STORE_CLEAR (R17). -/
def execLaneStoreClear (core : Nat) (s : State) : Out := .next (laneCleared s core)

/-! ### Copies (R249 to R255) -/

/-- The scheduler of a cluster that is neither halted nor failed starts a copy (R249, R403). -/
def copyBegins (s : State) (cluster : Nat) : State :=
  if (s.clusterSt cluster).halted || (s.clusterSt cluster).failed then s else copyStart s cluster
/-- COPY_START (R249). -/
def execCopyStart (cluster : Nat) (s : State) : Out := .next (copyBegins s cluster)

/-- A started copy does its work, and completes once everything it sent has arrived (R250 to R252). -/
def copyGoes (s : State) (cluster tag : Nat) : State :=
  match (s.clusterSt cluster).copyQ.find? fun q => q.tag == tag with
  | none => s
  | some q =>
    if !q.started then s
    else if q.sent then (if copyDone s cluster q then copyComplete s cluster q else s)
    else if (s.clusterSt cluster).halted then s
    else (copyWork s cluster q).getD s
/-- COPY_COMPLETE (R252): the engine's work and then the completion. -/
def execCopyComplete (cluster tag : Nat) (s : State) : Out := .next (copyGoes s cluster tag)

/-- INBOUND_DELIVERY (R255). -/
def execInboundDelivery (i : Nat) (s : State) : Out := .next (deliver s i)

/-! ### Gauze (R216, R289, R321 to R323) -/

/-- The entry of the log that an announcement stands for in replay, while it is not used. -/
def annEntry (s : State) (a : Announce) : Option LogEntry :=
  (logNext s a.oid fun e => e.kind == 6 && e.fid == a.fid.toNat && e.idx == a.ev).map (·.2)

/-- The next announcement of an owner's log that is not presented. -/
def annDue (s : State) (oid : Nat) : Option LogEntry :=
  let shown := s.net.announced.filter fun b => b.oid == oid
  (logNext s oid fun e => e.kind == 6 && !shown.any fun b => e.fid == b.fid.toNat && e.idx == b.ev).map (·.2)

/-- The announcements that wait at the cores. -/
def annQueued (s : State) : List Announce := (s.cores.map fun k => k.2.annQueue).flatten

/-- The entries that shared a window in the log with an entry of it, and are not presented. -/
def annShared (s : State) (oid : Nat) (e : LogEntry) : List LogEntry :=
  (List.range (logCount s oid)).filterMap fun i =>
    if (s.ownerSt oid).rpl.used.contains i then none
    else (logEntry s oid i).filter fun d => d.kind == 6 && d.sig == e.sig &&
      !s.net.announced.any fun b => b.oid == oid && d.fid == b.fid.toNat && d.idx == b.ev

/-- The announcements that are presented with one: alone, or in replay all that shared its window in the log, of which none may
be missing and none may stand behind another in its core's queue (R412). None: it is not its turn. -/
def annGroup (s : State) (a : Announce) : Option (List Announce) :=
  let r := (s.ownerSt a.oid).rpl
  if r.mode != 2 || r.released.contains a.id then some [a]
  else match annDue s a.oid with
  | none => some [a]
  | some d =>
    match annEntry s a with
    | none => none
    | some e =>
      if e.sig != d.sig then none
      else
        let es := annShared s a.oid e
        let has := fun (b : Announce) => b.oid == a.oid && es.any fun d => d.fid == b.fid.toNat && d.idx == b.ev
        let group := (annQueued s).filter has
        let heads := s.cores.all fun k => k.2.annQueue.all fun b => !has b ||
          (k.2.annQueue.takeWhile fun c => c.id != b.id).all has
        if group.length == es.length && heads then some group else none

/-- Whether an announcement may be presented (R412). -/
def annTurn (s : State) (a : Announce) : Bool := (annGroup s a).isSome

/-- The window that the next announcement of a core enters: the one open now, or a later one where the core has presented 4
already (R216). -/
def annWindow (s : State) (core : Nat) : Nat :=
  let w := s.now.toNat / 64
  let mine := (s.net.announced.filter fun b => b.core == core).map (·.window)
  let ahead := fun (v : Nat) => (v + 2 ^ 42 - w) % 2 ^ 42
  let last := mine.foldl (fun m v => if ahead v < 2 ^ 41 && ahead m < ahead v then v else m) w
  if mine.countP (· == last) < 4 then last else (last + 1) % 2 ^ 42

/-- An announcement enters a window, and the instruction that made it completes with the time of its application (R216,
R321). -/
def present (s : State) (w : Nat) (a : Announce) : State :=
  let s := s.updCore a.core fun k => { k with annQueue := k.annQueue.filter fun b => b.id != a.id }
  let s := (s.countEv a.ctx 17 1).onNet fun t => { t with announced := t.announced ++ [{ a with window := w }] }
  if (s.ctxOf a.ctx).wait == some (.window a.id) then s.decide a.ctx (BitVec.ofNat 64 ((64 * w + 384) % 2 ^ 48), 0) else s

/-- The core presents its oldest announcement, in replay with those that share its window (R216, R412). -/
def announcing (s : State) (core : Nat) : State :=
  if (s.coreSt core).failed then s
  else match (s.coreSt core).annQueue with
  | [] => s
  | a :: _ =>
    match annGroup s a with
    | none => s
    | some g =>
      let ahead := fun (v : Nat) => (v + 2 ^ 42 - s.now.toNat / 64) % 2 ^ 42
      let w := g.foldl (fun m b => let v := annWindow s b.core; if ahead m < ahead v then v else m) (annWindow s core)
      g.foldl (fun s b => present s w b) s
/-- ANNOUNCE_PRESENT (R216). -/
def execAnnouncePresent (core : Nat) (s : State) : Out := .next (announcing s core)

/-- A level of an owner as it stands. -/
def levelPeek (s : State) (oid idx : Nat) : Option Level :=
  match levelGet s ⟨0, 3⟩ oid idx with
  | .ok (l, _) => some l
  | .error _ => none

/-- Whether a level lies beneath another, itself included. -/
def beneath (s : State) (oid top : Nat) : (fuel : Nat) → Nat → Bool
  | 0, _ => false
  | fuel + 1, i =>
    if i = top then true
    else match levelPeek s oid i with
    | some l => if l.kind = 3 then false else beneath s oid top fuel l.parent
    | none => false

/-- A cancel is applied: CANCEL is set on the level, if it is open, and on every open level beneath it, and armed entries of a
cancelled launch are disarmed (R289, R313). -/
def applyCancel (s : State) (c : CtxId) (oid top : Nat) : State :=
  let set := fun (s : State) (i : Nat) =>
    match levelGet s c oid i with
    | .ok (l, s) => levelPut s c { l with lo := l.lo ||| BitVec.twoPow 64 61 }
    | .error _ => s
  let under := (List.range 4096).filter fun i => i != top && (match levelPeek s oid i with
    | some l => l.isOpen && beneath s oid top 4 l.parent && l.kind != 3
    | none => false)
  let tops := (levelPeek s oid top).toList.filterMap fun l => if l.isOpen then some top else none
  let s := (tops ++ under).foldl set s
  let gone := s.home.watches.filter fun w => w.oid == oid &&
    (match (s.coreSt w.core).trig.find? fun t => t.idx == w.idx with
      | some t => (tops ++ under).contains (recLaunch t.record)
      | none => false)
  gone.foldl (fun s w => (disarmCounter s c w.pa).2) s

/-- One announcement is applied (R289, R321). -/
def applyAnnounce (s : State) (a : Announce) : State :=
  let s := lineEvent s a.oid 0 6 a.fid.toNat a.ev
  match a.kind with
  | .word k op val =>
    s.updOwner a.oid fun o =>
      let old := (o.notif.toList)[k]?.getD 0
      let new := match op with
        | 0 => val
        | 1 => old + val
        | 2 => old ||| val
        | _ => old &&& val
      { o with
        notif := o.notif.setIfInBounds k new
        notifWit := o.notifWit.setIfInBounds k (witnessMax ((o.notifWit.toList)[k]?.getD 0) a.wit) }
  | .cancel level => applyCancel s ⟨a.core, 3⟩ a.oid level

/-- The words of an owner that differ between two states. -/
def changedWords (s t : State) (oid : Nat) : Word :=
  let a := (s.ownerSt oid).notif.toList
  let b := (t.ownerSt oid).notif.toList
  (List.range 64).foldl (fun (m : Word) i => if a[i]? == b[i]? then m else m ||| BitVec.twoPow 64 i) 0

/-- NOTICE is raised where enabled words end up changed (R323). -/
def noticeChanges (s t : State) : State :=
  t.contexts.foldl (fun t p =>
    let set := changedWords s t p.2.fir.oid.toNat &&& p.2.crs.nmask
    if p.2.life == .running && p.1.which < 2 && set != 0 then
      t.updCtx p.1 fun k => { k with noticeSet := k.noticeSet ||| set }
    else t) t

/-- The oldest window whose time of application has come. -/
def dueWindow (s : State) : Option Nat :=
  let due := (s.net.announced.map (·.window)).filter fun w => atOrPast s.now (BitVec.ofNat 48 (64 * w + 384))
  match due with
  | [] => none
  | w :: ws =>
    let age := fun (w : Nat) => (s.now.toNat / 64 + 2 ^ 42 - w) % 2 ^ 42
    some (ws.foldl (fun m w => if age m < age w then w else m) w)

/-- NWAIT completes where the application of a window leaves its word different (R322). -/
def wakeNotified (s : State) : State :=
  s.contexts.foldl (fun s p => match p.2.wait with
    | some (.notify k val) =>
      let o := s.ownerSt p.2.fir.oid.toNat
      let v := (o.notif.toList)[k]?.getD 0
      if v != val then s.decide p.1 (v, (o.notifWit.toList)[k]?.getD 0) else s
    | _ => s) s

/-- Every core applies the announcements of a window as one step, in their total order (R216). -/
def applyWindow (s : State) : State :=
  match dueWindow s with
  | none => s
  | some w =>
    let all := s.net.announced.filter fun a => a.window == w
    let sorted := all.mergeSort fun a b => a.core < b.core || (a.core == b.core && a.id ≤ b.id)
    let t := s.onNet fun t => { t with announced := t.announced.filter fun a => a.window != w }
    wakeNotified (noticeChanges s (sorted.foldl applyAnnounce t))
/-- GAUZE_WINDOW_APPLY (R216). -/
def execGauzeWindowApply (s : State) : Out := .next (applyWindow s)

end Sys2Proof.Machine
end

