-- ==== Sys2Proof/Machine/Homes.lean ====
section
/-! DEFINITION. What the homes, directories and caches do on their own, and how what they did reaches a context
(spec/07_memory_model.md R196, R205 to R212; spec/08_memory_instructions.md R226, R230; spec/06_matrix.md R174;
spec/12_isolation.md R334, R341; spec/14_recovery.md R385, R412, R413). -/

namespace Sys2Proof.Machine

/-! ### Homes (R203, R205, R230, R309) -/

/-- Whether the turn of a flight's event has come in replay (R412). -/
def flightTurn (s : State) (f : Flight) : Bool :=
  let fid := (s.ctxOf f.ctx).fir.fid.toNat
  match f.kind with
  | .atomic _ _ _ _ => lineTurn s f.oid (f.pa / 128) 3 fid f.ev f.id
  | .mxacc _ _ => lineTurn s f.oid (f.pa / 128) 3 fid f.ev f.id
  | .commit (e :: _) _ _ => !e.recorded || lineTurn s f.oid (f.pa / 128) 4 fid f.ev f.id
  | _ => true

/-- Whether a flight that has reached its home may be applied now, in replay its turn having come (R203, R412). -/
def mayApply (s : State) (f : Flight) : Bool := applicable s f && flightTurn s f

/-- Apply a flight, with the PRIV stores that it waits for pushed first and the stamps of writes that left the package counted
(R197, R230; log entry 43). A line that its channel has fetched for it is in the far tier (R340). -/
def applyNow (s : State) (f : Flight) : State :=
  let s := if f.earlier then (deliverPriv s f.ctx f.scope).stampLeft f.ctx f.id f.scope else s
  let s := if f.fetched && !f.isLoad then touchHome s f.ctx f.oid f.owner (f.pa / 128) false true else s
  match s.net.flight.find? fun g => g.id == f.id with
  | some f =>
    match f.kind with
    | .commit es _ _ => commitApplies s f es
    | .requests es => requestsApply s f es
    | _ => applyFlight s f
  | none => s

/-- A grant at a queue: of the flights that wait there the one that the arbiter draws passes (R334). At its home slice, or its
line's channel, it takes effect; a link port it leaves by (R269). -/
def grantAt (s : State) (q : Nat × Nat) : State :=
  match opportunity s q (waiting s q (mayApply s)) none with
  | (none, s) => s
  | (some (id, _), s) =>
    match s.net.flight.find? fun g => g.id == id with
    | some g => if g.path.isEmpty && 2 ≤ q.1 then applyNow s g else s
    | none => s

/-- A flight goes on: through the queue that it has reached, or, past all of them, it takes effect. -/
def homeStep (s : State) (id : Nat) : State :=
  match s.net.flight.find? fun f => f.id == id with
  | none => s
  | some f =>
    match f.path with
    | q :: _ => if waitsAt s q (mayApply s) f then grantAt s q else s
    | [] => if mayApply s f then applyNow s f else s

/-- Whether a flight is a counter message. -/
def isCount (f : Flight) : Bool :=
  match f.kind with
  | .count _ _ => true
  | _ => false

/-- HOME_APPLY (R205). -/
def execHomeApply (id : Nat) (s : State) : Out :=
  .next (if s.net.flight.any fun f => f.id == id && !isCount f then homeStep s id else s)
/-- COUNTER_MESSAGE_APPLY (R284). -/
def execCounterMessageApply (id : Nat) (s : State) : Out :=
  .next (if s.net.flight.any fun f => f.id == id && isCount f then homeStep s id else s)

/-! ### Answers (R196, R226, R230, R385) -/

/-- A pending register is written (R196). -/
def witnessArrives (s : State) (c : CtxId) (r : XReg) : State :=
  match (s.ctxOf c).pend.find? fun p => p.reg == r with
  | none => s
  | some p =>
    if pendReady s c p then
      (deliverPend s c p).updCtx c fun k => { k with pend := k.pend.filter (·.reg != r) }
    else s
/-- WITNESS_DELIVERED (R196). -/
def execWitnessDelivered (c : CtxId) (r : XReg) (s : State) : Out := .next (witnessArrives s c r)

/-- The register that waits for an access is pending no more and keeps its value (R226, R230, R385). -/
def dropPend (s : State) (f : Flight) : State :=
  s.updCtx f.ctx fun k =>
    { k with pend := k.pend.filter fun p =>
        !(p.result == some f.id || (p.result.isNone && decide (p.own ≤ f.id) && decide (f.id < p.mark))) }

/-- Accesses of one instruction are on their way no more (R226, R385). -/
def dropFlights (s : State) (fs : List Flight) : State :=
  (fs.foldl dropPend s).onNet fun t => { t with flight := t.flight.filter fun g => !fs.contains g }

/-- Whether a home has refused an access, or a linked device denied it. -/
def Flight.turnedAway (f : Flight) : Bool := f.state == .refused || f.state == .denied

/-- The refused accesses of a flight's instruction, in the order of its lanes (R138, R226). -/
def refusedWith (s : State) (f : Flight) : List Flight :=
  s.net.flight.filter fun g => g.ctx == f.ctx && g.first == f.first && g.turnedAway
/-- The accesses of a flight's instruction whose homes are lost (R138, R385). -/
def lostWith (s : State) (f : Flight) : List Flight :=
  s.net.flight.filter fun g => g.ctx == f.ctx && g.first == f.first && !g.turnedAway && homeGone s g

/-- What befalls a copy's access befalls the copy: its status is FAULT (R252). -/
def copyMeets (s : State) (f : Flight) (how : CopyOp → CopyOp) : State :=
  updCopy s (clusterOf f.ctx.core) f.first fun q => { how q with status := 3 }

/-- A home's refusal reaches the core: one POISON, or PERM from a linked device, is pending for the instruction, with the
address that its first refused access names (R226, R419). A copy stops with it (R252). -/
def refusalArrives (s : State) (id : Nat) : State :=
  match s.net.flight.find? fun f => f.id == id with
  | none => s
  | some f =>
    if !f.turnedAway then s
    else
      let fs := refusedWith s f
      let f := fs.head?.getD f
      let cause := if f.state == .denied then Cause.perm else .poison
      let s := dropFlights s fs
      if f.ctx.which = 3 then copyMeets s f fun q => q.meets cause f.va
      else s.engineFault f.ctx cause (some f.va) f.pc f.first
/-- REFUSAL_REPORT (R226). -/
def execRefusalReport (id : Nat) (s : State) : Out := .next (refusalArrives s id)

/-- An access whose home is lost is reported: one LOST is pending for its instruction, or for a copy (R385; log entry 12). A
load that was to take effect later keeps what it read at its issue. -/
def lossArrives (s : State) (id : Nat) : State :=
  match s.net.flight.find? fun f => f.id == id with
  | none => s
  | some f =>
    if f.turnedAway || !homeGone s f then s
    else
      let fs := lostWith s f
      let f := fs.head?.getD f
      let s := dropFlights s fs
      if f.ctx.which = 3 then
        let q := (s.clusterSt (clusterOf f.ctx.core)).copyQ.find? fun q => q.tag == f.first
        let s := copyMeets s f fun q => q
        match q with
        | some q =>
          if q.status = 3 then s
          else if q.kept then s.onNet fun t => { t with copyEnds := t.copyEnds ++ [⟨q.tag, 0, none, q.pc, some q.pc⟩] }
          else s.updCtx q.ctx fun k => { k with lostPend := k.lostPend ++ [(2, q.pc)] }
        | none => s
      else s.updCtx f.ctx fun k =>
        { k with
          late := k.late.filter fun l => !fs.any fun g => g.id == l.id
          lostPend := if f.isLoad then k.lostPend else k.lostPend ++ [(1, f.va)] }
/-- LOST_REPORT (R385). -/
def execLostReport (id : Nat) (s : State) : Out := .next (lossArrives s id)

/-! ### Copies in caches (R206, R207) and die partials (R174) -/

/-- The expiry of a copy that goes counts on for the class changes of its page (R209). -/
def keepExpiry (s : State) (c : Copy) : State :=
  let mine := fun (k : ClassChange) => c.ofPage k.oldEntry k.level
  s.onHome fun h => { h with classChanges := lupd mine (fun k => { k with expiry := laterOf k.expiry c.expiry }) h.classChanges }

/-- A lease runs out, and the clean copy is gone (R207). -/
def leaseEnds (s : State) (a : CacheId) (line : Nat) : State :=
  match findCopy s a line with
  | none => s
  | some k =>
    let far := match a with
      | .far _ => true
      | _ => false
    if !far && !k.dirty && passed s.now k.expiry then (keepExpiry s k).dropCopy a line else s
/-- LEASE_EXPIRY (R207). -/
def execLeaseExpiry (at_ : CacheId) (line : Nat) (s : State) : Out := .next (leaseEnds s at_ line)

/-- A dirty line is written back to the level below (R206). -/
def writesBack (s : State) (a : CacheId) (line : Nat) : State :=
  match findCopy s a line with
  | some k => writeBack s k
  | none => s
/-- DIRTY_WRITEBACK (R206). -/
def execDirtyWriteback (at_ : CacheId) (line : Nat) (s : State) : Out := .next (writesBack s at_ line)

/-- The number under which the fold of a die partial is released (R413). -/
def foldHold (p : Partial) : Nat := 2 ^ 50 + p.place.line * 16 + p.die

/-- Whether a fold's turn has come in replay (R412). -/
def foldTurn (s : State) (p : Partial) : Bool :=
  p.place.fmt != 2 || lineTurn s p.place.owner p.place.line 5 0 p.die (foldHold p)

/-- A die partial that has lost its way is folded, in replay in its turn (R174, R412). -/
def partialFolds (s : State) (die line : Nat) : State :=
  match s.home.partials.find? fun p => p.die == die && p.place.line == line && p.evicted.isSome with
  | none => s
  | some p => if foldTurn s p then foldLine s die p.place else s
/-- CR_FOLD (R174). -/
def execCrFold (die line : Nat) (s : State) : Out := .next (partialFolds s die line)

/-! ### REPL (R210, R212) -/

/-- Whether the sequencer takes a flight now: it has reached its die, nothing of its own comes first, and no replica lags
(R210, R212). -/
def mayStamp (s : State) (f : Flight) : Bool :=
  forSequencer f && f.state == .onWay && f.path.isEmpty && !homeGone s f && !behindOwn s f && !replicaLags s

/-- The sequencer takes a REPL store, the zeros of PCLR or a commit's line whole, or refuses a store to a marked line (R210,
R215, R226, R239). -/
def sequencerTakes (s : State) (id : Nat) : State :=
  match s.net.flight.find? fun f => f.id == id with
  | none => s
  | some f =>
    if !mayStamp s f then s
    else match f.kind with
    | .repl bs =>
      if marked s f.owner (replicaPa f.pa s.dev.seqDie / 128) then s.refuse f else sequence s f [(f.pa, bs)] false
    | .pclr _ _ => sequence s f [(f.pa, List.replicate 128 0)] true
    | .commit es _ _ => commitApplies s f es
    | _ => s
/-- REPL_SEQUENCE (R210). -/
def execReplSequence (id : Nat) (s : State) : Out := .next (sequencerTakes s id)
/-- REPL_REPLICA_APPLY (R210). -/
def execReplReplicaApply (die : Nat) (s : State) : Out := .next (replicaApply s die)

/-- While no store flows, every replica's mark follows fabric time: it passes every stamp that no store can bear any more (R212). -/
def markReplicas (s : State) : State :=
  if s.home.replLog.isEmpty then
    (List.range 9).foldl (fun s d => s.updDie d fun q => { q with replMark := laterOf q.replMark (s.now - 1) }) s
  else s
/-- REPL_MARK (R212). -/
def execReplMark (s : State) : Out := .next (markReplicas s)

/-! ### Class changes (R209) -/

/-- A class change whose steps are over completes (R209). -/
def classChanged (s : State) (i : Nat) : State :=
  match s.home.classChanges[i]? with
  | some k => if changeReady s k then completeChange s k else s
  | none => s
/-- CLASS_CHANGE_COMPLETE (R209). -/
def execClassChangeComplete (i : Nat) (s : State) : Out := .next (classChanged s i)

/-! ### Quota movement (R341) -/

/-- The movement of ways in one slice, with the ways gained and lost this interval by partition. -/
def moveWays (floors : List Floor) (ways : Nat) : (fuel : Nat) → Quotas → List Nat → List Nat → Quotas
  | 0, q, _, _ => q
  | fuel + 1, q, gained, lost =>
    let is := List.range q.parts.length
    let quota := fun (i : Nat) => (q.part i).quota
    let gain := fun (i : Nat) => if ways ≤ quota i then 0 else (q.part i).hits.getD (quota i) 0
    let lose := fun (i : Nat) => (q.part i).hits.getD (quota i - 1) 0
    let floor := fun (i : Nat) => (lget ⟨none, 0⟩ floors i).floor
    let gainer := argmax gain (is.filter fun i => lget 0 lost i == 0 && decide (lget 0 gained i < 2))
    let losers := is.filter fun i => decide (floor i < quota i) && lget 0 gained i == 0 && decide (lget 0 lost i < 2)
    let most := losers.foldl (fun m i => max m (lose i)) 0
    let loser := argmax (fun i => most - lose i) losers
    let grown := fun (g : Nat) (q : Quotas) => { q with parts := q.parts.modify g fun p => { p with quota := p.quota + 1 } }
    let up := fun (l : List Nat) (i : Nat) => l.modify i (· + 1)
    match gainer with
    | none => q
    | some g =>
      if q.free != 0 then
        if gain g = 0 then q
        else moveWays floors ways fuel (grown g { q with free := q.free - 1 }) (up gained g) lost
      else match loser with
      | none => q
      | some l =>
        if gain g ≤ lose l then q
        else
          let q := grown g { q with parts := q.parts.modify l fun p => { p with quota := p.quota - 1 } }
          moveWays floors ways fuel q (up gained g) (up lost l)

/-- The end of an interval at a slice: ways move, and every count is halved (R341). -/
def Quotas.interval (q : Quotas) (floors : List Floor) (ways : Nat) : Quotas :=
  let zeros := List.replicate q.parts.length 0
  let q := moveWays floors ways 64 q zeros zeros
  { q with parts := q.parts.map fun p => { p with hits := p.hits.map (· / 2) } }

/-- The ends of intervals that a slice has not met yet, at most `most` of them. After 40 no count is left. -/
def Quotas.catchUp (q : Quotas) (floors : List Floor) (ways intervals most : Nat) : Quotas :=
  let n := min (intervals - q.done) most
  { (List.range n).foldl (fun q _ => q.interval floors ways) q with
    done := if most < intervals - q.done then q.done + most else intervals }

/-- QUOTA_INTERVAL at a home slice (`far`) or at a near-tier slice of a die, where an interval has ended that the slice has
not met (R341). A slice that the state does not list has no counts. -/
def quotaEnds (s : State) (far : Bool) (die slice : Nat) : State :=
  if far then
    match tfind (s.dieSt die).farQuotas slice with
    | some q => s.updDie die fun d =>
      { d with farQuotas := tset d.farQuotas slice (q.catchUp (floorsOf s die 6) 16 s.dev.intervals 1) }
    | none => s
  else
    match tfind s.clusters (die * 32 + slice) with
    | some k => s.updCluster (die * 32 + slice) fun c =>
      { c with quotas := k.quotas.catchUp (floorsOf s die 5) 24 s.dev.intervals 1 }
    | none => s
/-- QUOTA_INTERVAL (R341). -/
def execQuotaInterval (far : Bool) (die slice : Nat) (s : State) : Out := .next (quotaEnds s far die slice)

/-- Whether some slice has an interval's end to meet. -/
def quotaDue (s : State) : Bool :=
  s.dies.any (fun d => d.2.farQuotas.any fun q => q.2.done != s.dev.intervals) ||
    s.clusters.any fun c => c.2.quotas.done != s.dev.intervals

/-- Every slice meets the ends of intervals that are due (R341). -/
def endIntervals (s : State) : State :=
  let n := s.dev.intervals
  { s with
    dies := s.dies.map fun d =>
      (d.1, { d.2 with farQuotas := d.2.farQuotas.map fun q => (q.1, { q.2.catchUp (floorsOf s d.1 6) 16 n 40 with done := n }) })
    clusters := s.clusters.map fun c =>
      (c.1, { c.2 with quotas := { c.2.quotas.catchUp (floorsOf s (c.1 / 32) 5) 24 n 40 with done := n } }) }

/-! ### Measurement and replay (R367, R413) -/

/-- MPASS_PASS_END (R367). -/
def execMpassPassEnd (oid : Nat) (s : State) : Out := .next (if passOver s oid then endPass s oid else s)

/-- An event that replay holds: the number under which it is released, its owner and, for an event of a firing, the firing's number
and the event's index (R412, R413). -/
structure Held where
  id : Nat
  oid : Nat
  event : Option (Nat × Nat)
  deriving DecidableEq, Repr

/-- An access or a commit that replay holds at its home. -/
def heldFlight (s : State) (f : Flight) : Option Held :=
  if f.path.length ≤ 1 && f.state == .onWay && !flightTurn s f then
    some ⟨f.id, f.oid, some ((s.ctxOf f.ctx).fir.fid.toNat, f.ev)⟩
  else none
/-- A matrix operation whose commit replay holds, for the first of its lines that is held. -/
def heldOp (s : State) (o : MatOp) : Option Held :=
  let k := s.ctxOf o.ctx
  if !o.started || k.staged then none
  else match contributions s o with
  | .ok (ls, _) => ((heldLines s o.ctx o.oid o.id (placeEvents (ls.map (·.1)))).head?).map fun h =>
      ⟨o.id, o.oid, some (k.fir.fid.toNat, h.2)⟩
  | .error _ => none
/-- An announcement that replay holds. -/
def heldAnn (s : State) (a : Announce) : Option Held :=
  if annTurn s a then none else some ⟨a.id, a.oid, some (a.fid.toNat, a.ev)⟩
/-- A fold that replay holds. It is no event of a firing, so that none differs by it. -/
def heldFold (s : State) (p : Partial) : Option Held :=
  if p.evicted.isNone || foldTurn s p then none else some ⟨foldHold p, p.place.owner, none⟩
/-- An instruction that waits for its turn in replay. -/
def heldCtx (c : CtxId) (k : Ctx) : Option Held :=
  match k.wait with
  | some (.turn _ (some ev)) => some ⟨ctxHold c, k.fir.oid.toNat, ev.map fun n => (k.fir.fid.toNat, n)⟩
  | _ => none

/-- All that replay holds now for owners that replay. -/
def heldNow (s : State) : List Held :=
  if s.owners.all fun o => o.2.rpl.mode != 2 then []
  else
    (s.net.flight.filterMap (heldFlight s) ++ ((s.cores.map fun k => k.2.slice).flatten).filterMap (heldOp s) ++
      (annQueued s).filterMap (heldAnn s) ++ s.home.partials.filterMap (heldFold s) ++
      s.contexts.filterMap fun p => heldCtx p.1 p.2).filter fun h =>
        let r := (s.ownerSt h.oid).rpl
        r.mode == 2 && !r.released.contains h.id

/-- What replay holds is held from when it is first found so, until it is no more (R413). -/
def noteHolds (s : State) : State :=
  let hs := heldNow s
  if hs.isEmpty && (s.owners.all fun o => o.2.rpl.holds.isEmpty) then s
  else
    { s with owners := s.owners.map fun o =>
        let mine := (hs.filter (·.oid == o.1)).map fun h => (h.id, (tfind o.2.rpl.holds h.id).getD s.now)
        (o.1, { o.2 with rpl := { o.2.rpl with holds := mine } }) }

/-- An event that has been held for 2^20 ns is released, and counts as differing where it is one of a firing (R413). -/
def holdExpires (s : State) (id : Nat) : State :=
  match (heldNow s).find? (·.id == id) with
  | none => s
  | some h =>
    match tfind (s.ownerSt h.oid).rpl.holds id with
    | none => s
    | some t =>
      if !atOrPast s.now (t + BitVec.ofNat 48 (2 ^ 20)) then s
      else
        let s := s.updOwner h.oid fun o => { o with rpl := { o.rpl with released := id :: o.rpl.released } }
        match h.event with
        | some (fid, ev) => noteDiffer s h.oid fid ev
        | none => s
/-- REPLAY_HOLD_TIMEOUT (R413). -/
def execReplayHoldTimeout (id : Nat) (s : State) : Out := .next (holdExpires s id)

end Sys2Proof.Machine
end

