-- ==== Sys2Proof/Machine/World.lean ====
section
/-! DEFINITION. Where the package meets the world: the apertures, the endpoint's registers, NVMe, boot, power and cooling
(spec/15_edges.md R417 to R431). -/

namespace Sys2Proof.Machine

/-! ### Inbound requests (R418, R419) -/

/-- An inbound access bears no context of the package: it acts in the name of an engine of the die by which it enters, die 4
for the host and the system cores (R26, R421), else that of the link (log entry 38). -/
def outside : CtxId := ⟨1024, 3⟩
/-- The same for an access by the endpoint (0) or link `src` − 1. -/
def enters (src : Nat) : CtxId := if src = 0 then outside else ⟨linkDie (src - 1) * 256, 3⟩
/-- The number under which the sequencer takes the writes of a source. -/
def inFirst (src : Nat) : Nat := 2 ^ 60 + src

def Aperture.valid (a : Aperture) : Bool :=
  a.ctl.getLsbD 0 && a.ctl.toNat / 8 % 32 = 0 && a.ctl.toNat / 65536 = 0 && a.last == 0 && a.size != 0 &&
    a.size.toNat % 65536 = 0 && a.vbase.toNat % 65536 = 0 && a.vbase.toNat < 2 ^ 56
def Aperture.w (a : Aperture) : Bool := a.ctl.getLsbD 1
def Aperture.cnt (a : Aperture) : Bool := a.ctl.getLsbD 2
def Aperture.oid (a : Aperture) : Nat := fieldN a.ctl 15 8

/-- The aperture that a request names, if its entry is valid (R418). -/
def apertureOf (s : State) (q : Inbound) : Option Aperture :=
  let a := tget {} s.dev.apertures (q.src * 64 + q.ap)
  if a.valid then some a else none

/-- The bytes that a request covers. -/
def inLen : InOp → Nat
  | .read n => n
  | .write d => d.length
  | .atomic _ sz _ _ => Size.bits sz / 8
  | .mxacc _ _ => 64

/-- Whether a request reads. -/
def inReads : InOp → Bool
  | .write _ => false
  | _ => true
/-- Whether a request writes. -/
def inWrites : InOp → Bool
  | .read _ => false
  | _ => true

/-- What the endpoint answers. -/
def State.answers (s : State) (a : Answer) : State := s.onDev fun d => { d with answers := d.answers ++ [a] }

/-- Who reaches a page through an aperture (R350). -/
def inWho (q : Inbound) (oid : Nat) : Who := ⟨oid, true, 0, q.src == 0⟩

/-- The translation of an address of an aperture and the checks of R350 and R419, none where one refuses, with what the walk has done
(R346); no U bit is checked, and no window is reached. -/
def inCheck (s : State) (q : Inbound) (oid : Nat) (va : Word) : Option Leaf × State :=
  if va.toNat ≥ 2 ^ 56 then (none, s)
  else match walkFrom s (enters q.src) oid oid va 3 ((s.ownerSt oid).root * 65536) with
  | (.error _, s) => (none, s)
  | (.ok l, s) =>
    let l := underOld s oid va l
    if !sealOk s (inWho q oid) l.entry l.pa || (inReads q.op && !entryR l.entry) || (inWrites q.op && !entryW l.entry) ||
        inWindow l.pa || 5 ≤ l.cls.toNat then (none, s)
    else (some l, s.noteClass oid l.level (vpageOf va l.level) l.entry)

/-- The pieces of a request, none of which crosses a line: offset from its start and length. -/
def linePieces : (fuel : Nat) → Word → Nat → Nat → List (Nat × Nat)
  | 0, _, _, _ => []
  | fuel + 1, va, off, n =>
    if n = 0 then []
    else
      let m := min n (128 - (va.toNat + off) % 128)
      (off, m) :: linePieces fuel va (off + m) (n - m)

/-- A piece of a request: its offset, its length and the page that it finds. -/
abbrev InPiece := Nat × Nat × Leaf

/-- Every piece of a request with its leaf; none where one is refused. -/
def inLeaves (q : Inbound) (oid : Nat) (va : Word) : List (Nat × Nat) → State → Option (List InPiece) × State
  | [], s => (some [], s)
  | p :: ps, s =>
    match inCheck s q oid (va + BitVec.ofNat 64 p.1) with
    | (none, s) => (none, s)
    | (some l, s) =>
      let r := inLeaves q oid va ps s
      (r.1.map fun ls => (p.1, p.2, l) :: ls, r.2)

/-- The units of a piece, of at most 8 aligned bytes (R202). -/
def unitsOf : (fuel : Nat) → InPiece → List InUnit
  | 0, _ => []
  | fuel + 1, (off, n, l) =>
    if n = 0 then []
    else
      let m := min n (8 - l.pa % 8)
      ⟨off, m, l.entry, l.level, l.entryPa, l.pa⟩ :: unitsOf fuel (off + m, n - m, { l with pa := l.pa + m })
/-- A unit as a piece. -/
def InUnit.piece (u : InUnit) : InPiece := (u.off, u.len, ⟨u.entry, u.level, u.entryPa, u.pa⟩)

/-- Whether a piece lies in a marked line, under its page's class. -/
def inMarked (s : State) (va : Word) (p : InPiece) : Bool :=
  let l := p.2.2
  if l.cls == clsCr then crMarked s (crPlace l (va + BitVec.ofNat 64 p.1))
  else if l.cls == clsRepl then marked s l.owner (replicaPa l.pa s.dev.seqDie / 128)
  else marked s l.owner l.line

/-- The queues that a request passes to the home of a line and that its response passes on the way back (R329, R334). -/
def inPath (s : State) (src key : Nat) : List (Nat × Nat) :=
  let die := startDie (enters src)
  ((portsTo s die (key / 128)).map fun p => (0, p)) ++ [(2, key)] ++
    ((portsTo s (key / 128) die).map fun p => (0, p)) ++ if src = 0 then [] else [(0, 0x400 + (src - 1))]

/-- The pieces of a request go their ways, under the owner of the aperture (R334). -/
def inProceeds (s : State) (q : Inbound) (oid : Nat) (ps : List InPiece) : State :=
  ps.foldl (fun s p =>
    let l := p.2.2
    let pa := if l.cls == clsRepl then replicaPa l.pa s.dev.seqDie else l.pa
    s.pass oid (inPath s q.src (sliceKey s l.owner (pa / 128)))) s
/-- Free frames that a request reaches through sealed leaves become sealed, where no mark stops it (R350). -/
def inSeals (s : State) (q : Inbound) (oid : Nat) (ps : List InPiece) : State :=
  ps.foldl (fun s p => s.sealFrame (inWho q oid) p.2.2.entry p.2.2.pa) s

/-- The bytes of a piece as R419 reads them: an SM line at its home, the home's value of a PRIV or RO line, the sequencer
die's replica, the value of CR elements. -/
def inRead (s : State) (src oid : Nat) (va : Word) (p : InPiece) : List Byte × State :=
  let l := p.2.2
  if l.cls == clsCr then
    (List.range (p.2.1 / 4)).foldl (fun (a : List Byte × State) i =>
      let va := va + BitVec.ofNat 64 (p.1 + 4 * i)
      let r := crReadElem a.2 (enters src) false (crPlace { l with pa := l.pa + 4 * i } va) (crElem va)
      (a.1 ++ leBytes 4 r.1, r.2)) ([], s)
  else
    let pa := if l.cls == clsRepl then replicaPa l.pa s.dev.seqDie else l.pa
    (memRead s.mem pa p.2.1, touchHome s (enters src) oid l.owner (pa / 128) false)

/-- Bytes written by a piece: at the home, or through the sequencer. -/
def inWrite (s : State) (src oid : Nat) (l : Leaf) (bs : List Byte) : State :=
  if l.cls == clsRepl then
    let id := s.net.nextId
    let f : Flight :=
      { id := id, first := inFirst src, ctx := enters src, oid := oid, kind := .repl bs, va := 0, pa := l.pa, owner := l.owner,
        scope := .device, pc := 0, wit := 0, earlier := false, ev := 0, age := 0, came := s.tick, issued := s.now, path := [],
        state := .onWay }
    sequence (s.onNet fun t => { t with nextId := id + 1 }) f [(l.pa, bs)] false
  else writeHome s (enters src) l.owner l.pa bs

/-- A write of a source took effect: counter messages that come after it carry its stamp (R420). -/
def State.inStamp (s : State) (src : Nat) : State :=
  s.onDev fun d => { d with lastIn := tset d.lastIn src (match tfind d.lastIn src with
    | some t => laterOf t s.now
    | none => s.now) }

/-- A write meets a marked line: it is discarded, with a system event for the host (R419). -/
def inRefused (s : State) (q : Inbound) (pa : Nat) : State :=
  if q.src = 0 then (s.ownerEvent 8 0 0 0 0 pa).answers .poisoned else s.answers .poisoned

/-- An inbound atomic at the home of its word or block, as one step (R229 to R233, R419). -/
def inAtomic (s : State) (q : Inbound) (l : Leaf) (va : Word) : State :=
  let c := enters q.src
  let done := fun (s : State) (bs : List Byte) => (s.inStamp q.src).answers (.data bs)
  if l.cls != clsSm || va.toNat % max 1 (inLen q.op) != 0 then s.answers .abort
  else match q.op with
  | .atomic op sz operand expected =>
    let okSize := match op with
      | .fadd => sz == .w || sz == .h
      | _ => sz == .d || sz == .w
    if !okSize then s.answers .abort
    else
      let n := Size.bits sz / 8
      let old := leNat (memRead s.mem l.pa n)
      done (writeHome s c l.owner l.pa (leBytes n (amoNew op (Size.bits sz) old operand expected))) (leBytes n old)
  | .mxacc addends fmt =>
    if fmt < 6 || 8 < fmt then s.answers .abort
    else
      let (bs, scale, bad) := mxAccumulate (Config.mxZeroNeg s.tick) fmt (memRead s.mem l.pa 64) addends
      done (writeHome s c l.owner l.pa bs) (leBytes 2 (scale + if bad then 256 else 0))
  | _ => s

/-- Whether earlier writes of a source wait for replicas (R210). -/
def inPending (s : State) (src : Nat) : Bool :=
  s.home.replLog.any fun r => r.ctx == enters src && r.first == inFirst src

/-- What becomes of a request whose pieces are checked: it must wait (none) for earlier writes of its source that replicas
have still to apply, unless it goes through the sequencer behind them itself, or for a sequencer that takes no store now
(R212, R419, R420); else it takes effect. -/
def inOrder (s : State) (q : Inbound) (ps : List InPiece) (t : State) : Option State :=
  let repl := fun (p : InPiece) => inWrites q.op && p.2.2.cls == clsRepl
  if (inPending s q.src && !ps.all repl) || (replicaLags s && ps.any repl) then none else some t

/-- A write through an aperture with CNT becomes a counter message, after every earlier write of its source, with the merge
of their stamps; it is a write of the source too (R283, R420). -/
def countWrite (s : State) (q : Inbound) : Option State :=
  match apertureOf s q, q.op with
  | some a, .write d =>
    let va := a.vbase + BitVec.ofNat 64 q.off
    if !a.w || d.length != 8 || va.toNat % 8 != 0 || a.size.toNat < q.off + 8 then some (s.answers .abort)
    else match inCheck s q a.oid va with
    | (none, t) => some (t.answers .abort)
    | (some l, t) =>
      if l.cls != clsSm then some (t.answers .abort)
      else
        let t := inProceeds t q a.oid [(0, 8, l)]
        inOrder s q [(0, 8, l)] (
          if marked t l.owner l.line then inRefused t q l.pa
          else
            let t := inSeals t q a.oid [(0, 8, l)]
            let wit := mkWit .device (tfind t.dev.lastIn q.src)
            ((counterApply t (enters q.src) l.owner l.pa (BitVec.ofNat 64 (leNat d)) wit).inStamp q.src).answers .done)
  | _, _ => some (s.answers .abort)

/-- One unit of a request that is taking effect; which of those left comes first is open (R202; log entry 38). With its last unit
the request is answered, and each write bears a stamp that counter messages after it carry (R420). -/
def inUnit (s : State) (w : InWork) : State :=
  let go := fun (s : State) (w : InWork) => s.onDev fun d =>
    { d with inBusy := d.inBusy.map fun v => if v.q.src == w.q.src then w else v }
  let ends := fun (s : State) (a : State → State) => a (s.onDev fun d => { d with inBusy := d.inBusy.filter fun v => v.q.src != w.q.src })
  let i := if w.left.length ≤ 1 then 0 else Config.choice s.tick % w.left.length
  let data := match w.q.op with
    | .write d => some d
    | _ => none
  match w.left[i]?, data with
  | none, some _ => ends s (·.answers .done)
  | none, none => ends s (·.answers (.data w.got))
  | some u, data =>
    let w := { w with left := w.left.eraseIdx i }
    match data with
    | some d =>
      if inMarked s w.va u.piece then ends s fun s => inRefused s w.q u.pa
      else
        let s := (inWrite s w.q.src w.oid u.piece.2.2 ((d.drop u.off).take u.len)).inStamp w.q.src
        if w.left.isEmpty then ends s (·.answers .done) else go s w
    | none =>
      if inMarked s w.va u.piece then ends s (·.answers .poisoned)
      else
        let (bs, s) := inRead s w.q.src w.oid w.va u.piece
        let w := { w with got := w.got.take u.off ++ bs ++ w.got.drop (u.off + u.len) }
        if w.left.isEmpty then ends s (·.answers (.data w.got)) else go s w

/-- A request begins to take effect, with its first unit (R202). -/
def inBegins (s : State) (q : Inbound) (oid : Nat) (va : Word) (ps : List InPiece) : State :=
  let w : InWork := ⟨q, oid, va, (ps.map (unitsOf 17)).flatten, List.replicate (inLen q.op) 0⟩
  inUnit ((inSeals s q oid ps).onDev fun d => { d with inBusy := d.inBusy ++ [w] }) w

/-- An inbound request is checked and begins to take effect by its page's class (R419), or must wait. -/
def inTry (s : State) (q : Inbound) : Option State :=
  match apertureOf s q with
  | none => some (s.answers .abort)
  | some a =>
    let n := inLen q.op
    let oid := a.oid
    let va := a.vbase + BitVec.ofNat 64 q.off
    if a.cnt && inWrites q.op then countWrite s q
    else if a.size.toNat < q.off + n || (inWrites q.op && !a.w) then some (s.answers .abort)
    else match inLeaves q oid va (linePieces (n / 128 + 2) va 0 n) s with
    | (none, t) => some (t.answers .abort)
    | (some ps, t) =>
      let odd := ps.any fun p => p.2.2.cls == clsCr && ((va.toNat + p.1) % 4 != 0 || p.2.1 % 4 != 0)
      let closed := ps.any fun p => p.2.2.cls == clsRo || p.2.2.cls == clsCr
      let u := inProceeds t q oid ps
      match q.op with
      | .read _ =>
        if odd then some (t.answers .abort)
        else inOrder s q ps (if ps.any (inMarked u va) then u.answers .poisoned else inBegins u q oid va ps)
      | .write _ =>
        if closed then some (t.answers .abort)
        else inOrder s q ps (
          match ps.find? (inMarked u va) with
          | some p => inRefused u q p.2.2.pa
          | none => inBegins u q oid va ps)
      | _ =>
        match ps with
        | [p] =>
          if q.src = 0 then some (t.answers .abort)
          else inOrder s q ps (
            if inMarked u va p then inRefused u q p.2.2.pa else inAtomic (inSeals u q oid ps) q p.2.2 va)
        | _ => some (t.answers .abort)

/-- A request arrives behind the others of its source (R419). -/
def inbound (s : State) (q : Inbound) : State :=
  let wait := s.onDev fun d => { d with inQueue := d.inQueue ++ [q] }
  if (s.dev.inQueue.any fun r => r.src == q.src) || s.dev.inBusy.any fun w => w.q.src == q.src then wait
  else (inTry s q).getD wait

/-- The requests that wait and are the first of their source, by their place in the queue. -/
def inFirsts (s : State) : List (Nat × Inbound) :=
  (s.dev.inQueue.mapIdx fun i q => (i, q)).filter fun p =>
    !((s.dev.inQueue.take p.1).any fun r => r.src == p.2.src) && !s.dev.inBusy.any fun w => w.q.src == p.2.src

/-- A request that waits takes effect, if it may (R419). -/
def inGoes (s : State) : Option State :=
  (inFirsts s).findSome? fun p =>
    (inTry s p.2).map fun t => t.onDev fun d => { d with inQueue := d.inQueue.eraseIdx p.1 }

/-- INBOUND_REQUEST (R419). -/
def execInboundRequest (q : Inbound) (s : State) : Out := .next (inbound s q)
/-- APERTURE_COUNTER_WRITE (R420): a write through an aperture whose CNT is set. -/
def execApertureCounterWrite (q : Inbound) (s : State) : Out :=
  .next (match apertureOf s q with
    | some a => if a.cnt && inWrites q.op then inbound s q else s
    | none => s)

/-! ### The endpoint's registers (R421 to R424) -/

/-- QRESET (R424): the owner's trace session is closed, and the request goes to the device kernel. -/
def execQreset (w : Word) (s : State) : Out :=
  .next ((closeTrace s (fieldN w 7 0) true outside).onDev fun d => { d with mbox := d.mbox ++ [w] })
/-- MBOX (R423). Where boot has failed with code 2, 3 or 4, ROM takes the recovery image that it announces, and the steps from the
second are run again; how they end is open (R428; log entry 5). -/
def execMbox (w : Word) (s : State) : Out :=
  .next (
    let s := s.onDev fun d => { d with mbox := d.mbox ++ [w] }
    let code := fieldN s.bootst 15 8
    if 2 ≤ code && code ≤ 4 then { s with bootst := 1 }.onDev fun d => { d with bootFail := Config.recovery s.tick } else s)
/-- HOST_CTRL_WRITE (R423): another offset ignores it. -/
def execHostCtrlWrite (_off : Nat) (_w : Word) (s : State) : Out := .next s

/-- Doubleword `j` of an entry of an inbound aperture table as it is read: res0 as zero, and an entry with a nonzero res0 field as
invalid (R5, R418). -/
def apertureWord (a : Aperture) (j : Nat) : Word :=
  match j with
  | 0 =>
    let w := keepBits a.ctl 15 8 ||| keepBits a.ctl 2 1
    if keepBits a.ctl 63 16 == 0 && keepBits a.ctl 7 3 == 0 && a.last == 0 then w ||| keepBits a.ctl 0 0 else w
  | 1 => a.vbase
  | 2 => a.size
  | _ => 0

/-- The entry of the aperture tables that holds an offset of the control region: the host's at 0x1_0000, link k's at
0x1_1000 + 0x800·k (R423). -/
def apertureAt (off : Nat) : Option Nat :=
  if 0x10000 ≤ off && off < 0x10800 then some ((off - 0x10000) / 32)
  else if 0x11000 ≤ off && off < 0x19000 then some (64 + (off - 0x11000) / 32)
  else none

/-- What a host read of a register of the control region returns (R423). The silicon revision is not given: 0. -/
def hostRead (s : State) (off : Nat) : Word :=
  if off = 0x0000 then BitVec.ofNat 64 (936 * 2 ^ 32)
  else if off = 0x0008 then s.bootst
  else if off = 0x0010 then BitVec.ofNat 64 s.dev.sysDropped
  else match apertureAt off with
  | some i => apertureWord (tget {} s.dev.apertures i) (off / 8 % 4)
  | none => 0

/-- The package as a reset leaves it (R421, R431): what the configuration record holds stays, as do the memory of the host and
of linked devices, and a new seed of owner 0 is drawn. The plan and the count of steps are the model's own. -/
def resetPackage (s : State) (powered : Bool) : State :=
  let r := State.reset.updOwner 0 fun o => { o with seed := freshSeed s 0 }
  { r with
    plan := s.plan
    tick := s.tick
    mem := s.mem.filter fun c => inWindow c.1
    powered := powered
    dev := { r.dev with seqDie := s.dev.seqDie, powerLimitW := s.dev.recordLimitW, recordLimitW := s.dev.recordLimitW } }

/-- FUNCTION_LEVEL_RESET (R421). -/
def execFunctionLevelReset (s : State) : Out := .next (resetPackage s true)

/-! ### NVMe (R425) -/

/-- NVME_DMA_WRITE: into the SRAM of the system cores, or into frames that the DMA table names, as SM writes; a sealed
frame or a marked line refuses. -/
def execNvmeDmaWrite (sram : Bool) (addr : Nat) (data : List Byte) (s : State) : Out :=
  .next (
    if sram then
      if addr + data.length ≤ 32 * 2 ^ 20 then { s with sysSram := memWrite s.sysSram addr data } else s
    else
      let ps := linePieces (data.length / 128 + 2) (BitVec.ofNat 64 addr) 0 data.length
      let ok := ps.all fun p =>
        let pa := addr + p.1
        s.dev.nvmeDma.contains (pa / 65536) && inHbm pa && (tfind s.home.sealTags (pa / 65536)).isNone &&
          !marked s 0 (pa / 128)
      if ok then ps.foldl (fun s p => writeHome (s.pass 0 (inPath s 0 (sliceKey s 0 ((addr + p.1) / 128)))) outside 0 (addr + p.1) ((data.drop p.1).take p.2)) s else s)

/-! ### Boot (R428) -/

/-- The image of a place map as the configuration record gives it (log entry 5): every place maps to its own core, assigned
to owner 0, and every slice to itself. -/
def recordImage : List Byte :=
  ((List.range 256).map fun i => leBytes 4 (wordOfPlace ⟨true, 0, i / 16 * 17 + i % 16⟩)).flatten ++
    ((List.range 128).map fun h => leBytes 2 (2 ^ 15 + h)).flatten

/-- Every die's place map is loaded from its image (R344). -/
def loadMaps (s : State) : State :=
  (List.range 9).foldl (fun s d => let m := mapImage s d; loadMap s d m.1 m.2) s

/-- The device kernel starts as owner 0: the images of the place maps, which are loaded, and the owner table, in which owner 0 is
valid, are placed (R344, R428). -/
def kernelStarts (s : State) : State :=
  let images := (List.range 9).foldl (fun m d => memWrite m (s.dieSt d).pmapbase.toNat recordImage) s.mem
  let table := Config.ownerTablePa.toNat
  let s := { s with mem := memWrite (memClear images table (64 * 256)) (table + 7) [0x80] }
  let loaded := loadMaps s
  { s with cores := loaded.cores, dies := loaded.dies }

/-- What a step of boot does where it does not fail: 3 reads the record, which names the sequencer die (R10), 5 zeroes HBM, and 7
starts the device kernel. -/
def bootDoes (s : State) (step : Nat) : State :=
  match step with
  | 3 => s.onDev fun d => { d with seqDie := Config.sequencerDie % 9 }
  | 5 => { s with mem := s.mem.filter fun c => inWindow c.1 }
  | 7 => kernelStarts s
  | _ => s

/-- Whether boot goes on: it has not come to its last step, and no step has failed. -/
def booting (s : State) : Bool := s.powered && decide (s.bootst.toNat < 7)

/-- The next step of boot (R428). The step that the failure code names fails: one of steps 1 to 5 leaves the part in ROM, and in step
6 a link, which one is open, stays down, with its system event (log entry 5). -/
def bootStep (s : State) : State :=
  if !booting s then s
  else
    let step := s.bootst.toNat + 1
    if step != s.dev.bootFail.toNat || step == 7 then { bootDoes s step with bootst := BitVec.ofNat 64 step }
    else if step ≤ 5 then { s with bootst := BitVec.ofNat 64 (step * 257) }
    else
      let link := Config.deadLink s.tick % 16
      { (s.onDev fun d => { d with linksDown := if d.linksDown.contains link then d.linksDown else link :: d.linksDown }).ownerEvent
          12 0 0 0 0 0 with bootst := BitVec.ofNat 64 step }
/-- BOOT (R428): the first step, with the code of the failure that boot will meet, 0 for none. -/
def execBoot (fail : BitVec 8) (s : State) : Out :=
  .next (if s.bootst = 0 then bootStep (s.onDev fun d => { d with bootFail := fail }) else bootStep s)

/-! ### Power and cooling (R429 to R431) -/

/-- SUPPLY_SAG (R429): the clock is half of what it was. -/
def execSupplySag (cluster : Nat) (s : State) : Out := .next (s.updCluster cluster fun k => { k with sagged := true })
/-- SUPPLY_RESTORE (R429). -/
def execSupplyRestore (cluster : Nat) (s : State) : Out := .next (s.updCluster cluster fun k => { k with sagged := false })

/-- The fastest clock of a cluster, 3.2 GHz (R21). -/
def boostKHz : Nat := 3200000

/-- POWER_LIMIT_ADJUST (R430): never above the record's limit, nor a clock above the boost clock (R21). -/
def execPowerLimitAdjust (watts : Nat) (clocks : List (Nat × Nat)) (s : State) : Out :=
  .next (clocks.foldl (fun s c => s.updCluster c.1 fun k => { k with clockKHz := max 1 (min c.2 boostKHz) })
    (s.onDev fun d => { d with powerLimitW := min watts d.recordLimitW }))

/-- THERMAL_THROTTLE (R431). -/
def execThermalThrottle (die : Nat) (s : State) : Out :=
  .next ((List.range 32).foldl (fun s i => s.updCluster (die * 32 + i) fun k => { k with clockKHz := k.clockKHz - 100000 })
    (s.updDie die fun d => { d with tempC := max 100 d.tempC }))

/-- THERMAL_SHUTDOWN (R431): the package has no power, and its state is lost. -/
def execThermalShutdown (_die : Nat) (s : State) : Out := .next (resetPackage s false)

end Sys2Proof.Machine
end

