-- ==== Sys2Proof/Machine/Issue.lean ====
section
/-! DEFINITION. How an instruction comes to run: its words are fetched and decoded, its operands are ready, its streams give
their vectors; and what is left to do after it (spec/02_assembly.md R34, R41 to R45; spec/07_memory_model.md R196;
spec/08_memory_instructions.md R260; spec/10_progress.md R293). -/

namespace Sys2Proof.Machine

/-! ### Fetch and decode (R34, R41 to R45) -/

/-- One word fetched under the translation of its own address (R45), from the instruction cache or the home. -/
def fetchWord (s : State) (va : Word) : Act (Half × State) := do
  let (l, s) ← s.check va 2 .x
  let (bs, s) ← readBytes s s.cur true true false l va 2 none
  .ok (BitVec.ofNat 16 (leNat bs), s.sealFrame s.who l.entry l.pa)

/-- TVAL of an ILLEGAL: the first four words of the chain, the first in the highest bits (R43). -/
def chainWord (ws : List Half) : Word :=
  (List.range 4).foldl (fun (v : Word) i => (v <<< 16) ||| (ws.getD i 0).setWidth 64) 0

/-- Fetch and scan words up to the base word (R41); the words fetched so far, and the address after them. -/
def fetchChain : (fuel : Nat) → State → Word → Chain → List Half → Act (Instr × State)
  | 0, s, _, _, _ => illegal s
  | fuel + 1, s, va, c, ws => do
    let (w, s) ← fetchWord s va
    let ws := ws ++ [w]
    let next := va + 2
    let s := s.onCx fun k => { k with npc := next, chain := chainWord ws }
    match scanWord c w with
    | .error _ => illegal s
    | .ok (.more c) => fetchChain fuel s next c ws
    | .ok (.last c) =>
      match c.decode with
      | .error _ => illegal s
      | .ok i => .ok (i, s)

/-- The instruction at the program counter: at most four prefixes and a base word (R41). -/
def fetch (s : State) : Act (Instr × State) := fetchChain 8 s s.cx.pc {} []

/-! ### Which row of the opcode table an instruction is -/

/-- Several rows of the opcode table have the same words and differ in a register's value: BEXPORT by xc (R244), LNDREL by
xa (R257), TRCCTL and RPLCTL by the OP of xb (R365, R368). -/
def selectForm (i : Instr) (s : State) : Instr :=
  match i with
  | .bexportStart b c => if s.getX c = 0 then .bexportEnd b c else .bexportStart b c
  | .lndrelBuffer a b => if s.getX a = BitVec.allOnes 64 then .lndrelDismantle a b else .lndrelBuffer a b
  | .trcctlOpen a b c =>
    match fieldN (s.getX b) 2 0 with
    | 1 => .trcctlClose a b c
    | 2 => .trcctlGrant a b c
    | 3 => .trcctlWithdraw a b c
    | 4 => .trcctlStatus a b c
    | _ => .trcctlOpen a b c
  | .rplctlStop a b c =>
    match fieldN (s.getX b) 1 0 with
    | 1 => .rplctlRecord a b c
    | 2 => .rplctlReplay a b c
    | 3 => .rplctlStatus a b c
    | _ => .rplctlStop a b c
  | i => i

/-! ### Operands -/

/-- The registers that an instruction reads and, for vectors, writes. -/
structure Uses where
  xs : List XReg
  vs : List VReg
  vw : List VReg
  deriving DecidableEq, Repr

/-- The operands of an instruction, as its entry names them. -/
def usesOf (i : Instr) : Uses :=
  match i with
  | .mov _ b => ⟨[b], [], []⟩
  | .lih a _ => ⟨[a], [], []⟩
  | .add _ l r _ => ⟨[l, r], [], []⟩
  | .sub _ l r _ => ⟨[l, r], [], []⟩
  | .mul _ l r _ => ⟨[l, r], [], []⟩
  | .mulh _ l r _ => ⟨[l, r], [], []⟩
  | .mulhu _ l r _ => ⟨[l, r], [], []⟩
  | .div _ l r _ => ⟨[l, r], [], []⟩
  | .divu _ l r _ => ⟨[l, r], [], []⟩
  | .rem _ l r _ => ⟨[l, r], [], []⟩
  | .remu _ l r _ => ⟨[l, r], [], []⟩
  | .and _ l r => ⟨[l, r], [], []⟩
  | .or _ l r => ⟨[l, r], [], []⟩
  | .xor _ l r => ⟨[l, r], [], []⟩
  | .shl _ l r _ => ⟨[l, r], [], []⟩
  | .shr _ l r _ => ⟨[l, r], [], []⟩
  | .sra _ l r _ => ⟨[l, r], [], []⟩
  | .rotl _ l r _ => ⟨[l, r], [], []⟩
  | .min _ l r _ => ⟨[l, r], [], []⟩
  | .max _ l r _ => ⟨[l, r], [], []⟩
  | .minu _ l r _ => ⟨[l, r], [], []⟩
  | .maxu _ l r _ => ⟨[l, r], [], []⟩
  | .seq _ l r _ => ⟨[l, r], [], []⟩
  | .slt _ l r _ => ⟨[l, r], [], []⟩
  | .sltu _ l r _ => ⟨[l, r], [], []⟩
  | .addi a _ _ => ⟨[a], [], []⟩
  | .andi a _ => ⟨[a], [], []⟩
  | .ori a _ => ⟨[a], [], []⟩
  | .shli a _ _ => ⟨[a], [], []⟩
  | .shri a _ _ => ⟨[a], [], []⟩
  | .srai a _ _ => ⟨[a], [], []⟩
  | .slti a _ _ => ⟨[a], [], []⟩
  | .clz _ b _ => ⟨[b], [], []⟩
  | .popc _ b _ => ⟨[b], [], []⟩
  | .sel a b c => ⟨[a, b, c], [], []⟩
  | .ld _ b _ _ _ => ⟨[b], [], []⟩
  | .ldx _ b _ _ _ => ⟨[b], [], []⟩
  | .st a b _ _ _ _ _ => ⟨[a, b], [], []⟩
  | .ldw _ b c _ _ _ => ⟨[b, c], [], []⟩
  | .wmax _ l r => ⟨[l, r], [], []⟩
  | .bz a _ => ⟨[a], [], []⟩
  | .bnz a _ => ⟨[a], [], []⟩
  | .bltz a _ => ⟨[a], [], []⟩
  | .bgez a _ => ⟨[a], [], []⟩
  | .callr a => ⟨[a], [], []⟩
  | .jr a => ⟨[a], [], []⟩
  | .jtab a b _ => ⟨[a, b], [], []⟩
  | .mwr _ b => ⟨[b], [], []⟩
  | .vmov a b _ _ => ⟨[], [b], [a]⟩
  | .vbcast a b _ _ => ⟨[b], [], [a]⟩
  | .vext _ b _ _ _ => ⟨[], [b], []⟩
  | .vins a b _ _ _ => ⟨[b], [], [a]⟩
  | .vld a b _ _ _ => ⟨[b], [], [a]⟩
  | .vst a b _ _ _ _ => ⟨[b], [a], []⟩
  | .vlds a b c _ _ _ => ⟨[b, c], [], [a]⟩
  | .vgath a b c _ _ _ => ⟨[b], [c], [a]⟩
  | .vscat a b c _ _ _ => ⟨[b], [a, c], []⟩
  | .vlsr a b _ _ => ⟨[], [b], [a]⟩
  | .vlsw a b _ _ => ⟨[], [a, b], []⟩
  | .vperm d l r _ _ => ⟨[], [l, r], [d]⟩
  | .vrot a b _ _ _ => ⟨[], [b], [a]⟩
  | .vadd d l r _ _ _ => ⟨[], [l, r], [d]⟩
  | .vsub d l r _ _ _ => ⟨[], [l, r], [d]⟩
  | .vmul d l r _ _ _ => ⟨[], [l, r], [d]⟩
  | .vmulh d l r _ _ => ⟨[], [l, r], [d]⟩
  | .vmin d l r _ _ => ⟨[], [l, r], [d]⟩
  | .vmax d l r _ _ => ⟨[], [l, r], [d]⟩
  | .vand d l r _ _ => ⟨[], [l, r], [d]⟩
  | .vor d l r _ _ => ⟨[], [l, r], [d]⟩
  | .vxor d l r _ _ => ⟨[], [l, r], [d]⟩
  | .vshl d l r _ _ _ => ⟨[], [l, r], [d]⟩
  | .vshr d l r _ _ => ⟨[], [l, r], [d]⟩
  | .vsra d l r _ _ => ⟨[], [l, r], [d]⟩
  | .vcmp _ b c _ _ _ => ⟨[], [b, c], []⟩
  | .vsel d l r _ _ => ⟨[], [l, r], [d]⟩
  | .vdot4 a b c _ _ _ => ⟨[], [a, b, c], [a]⟩
  | .vmac a b c _ _ _ => ⟨[], [a, b, c], [a]⟩
  | .vrshr d l r _ _ _ => ⟨[], [l, r], [d]⟩
  | .vclamp a b c _ _ => ⟨[], [a, b, c], [a]⟩
  | .vfadd d l r _ _ _ => ⟨[], [l, r], [d]⟩
  | .vfsub d l r _ _ _ => ⟨[], [l, r], [d]⟩
  | .vfmul d l r _ _ _ => ⟨[], [l, r], [d]⟩
  | .vfma a b c _ _ _ => ⟨[], [a, b, c], [a]⟩
  | .vfmin d l r _ _ => ⟨[], [l, r], [d]⟩
  | .vfmax d l r _ _ => ⟨[], [l, r], [d]⟩
  | .vfrcp a b _ _ _ => ⟨[], [b], [a]⟩
  | .vfrsq a b _ _ _ => ⟨[], [b], [a]⟩
  | .vfexp2 a b _ _ _ => ⟨[], [b], [a]⟩
  | .vcvt a b _ _ _ => ⟨[], [b], [a]⟩
  | .vredadd a b _ _ _ => ⟨[], [b], [a]⟩
  | .vredmax a b _ _ => ⟨[], [b], [a]⟩
  | .vfred a b _ _ _ => ⟨[], [b], [a]⟩
  | .mma a b c _ => ⟨[a, nextReg a, b, nextReg b, c, nextReg c], [], []⟩
  | .mmas a b c _ => ⟨[a, nextReg a, b, nextReg b, c, nextReg c], [], []⟩
  | .mmat a _ c _ => ⟨[a, nextReg a, c, nextReg c], [], []⟩
  | .tld _ b c _ => ⟨[b, c], [], []⟩
  | .tst _ b c _ => ⟨[b, c], [], []⟩
  | .mstat _ b c _ => ⟨[b, c], [], []⟩
  | .crclr a b _ => ⟨[a, b], [], []⟩
  | .crflush a b _ => ⟨[a, b], [], []⟩
  | .crrd a b c _ => ⟨[b, c], [], [a]⟩
  | .cradd a b _ => ⟨[b], [a], []⟩
  | .amoadd _ b c _ _ => ⟨[b, c], [], []⟩
  | .amoand _ b c _ _ => ⟨[b, c], [], []⟩
  | .amoor _ b c _ _ => ⟨[b, c], [], []⟩
  | .amoxor _ b c _ _ => ⟨[b, c], [], []⟩
  | .amomin _ b c _ _ => ⟨[b, c], [], []⟩
  | .amomax _ b c _ _ => ⟨[b, c], [], []⟩
  | .amominu _ b c _ _ => ⟨[b, c], [], []⟩
  | .amomaxu _ b c _ _ => ⟨[b, c], [], []⟩
  | .amoswp _ b c _ _ => ⟨[b, c], [], []⟩
  | .amocas a b c _ _ => ⟨[a, b, c], [], []⟩
  | .amofadd _ b c _ _ => ⟨[b, c], [], []⟩
  | .mxacc a b _ _ _ _ => ⟨[b], [a], []⟩
  | .prf b _ _ _ => ⟨[b], [], []⟩
  | .wtest _ b => ⟨[b], [], []⟩
  | .wwait b => ⟨[b], [], []⟩
  | .sca _ b _ => ⟨[b], [], []⟩
  | .nwait _ b _ _ => ⟨[b], [], []⟩
  | .pclr _ b _ => ⟨[b], [], []⟩
  | .balloc _ b c => ⟨[b, c], [], []⟩
  | .bfree b => ⟨[b], [], []⟩
  | .bgive b c => ⟨[b, c], [], []⟩
  | .bexportStart b c => ⟨[b, c], [], []⟩
  | .bexportEnd b c => ⟨[b, c], [], []⟩
  | .spld a b _ => ⟨[b], [], [a]⟩
  | .spst a b _ => ⟨[b], [a], []⟩
  | .cpy a b c _ _ => ⟨[a, nextReg a, b, nextReg b, c, nextReg c], [], []⟩
  | .cpym a b c _ _ => ⟨[a, nextReg a, b, nextReg b, c, nextReg c], [], []⟩
  | .cpyr a b c _ _ => ⟨[a, nextReg a, b, nextReg b, c, nextReg c], [], []⟩
  | .sbind _ b c _ => ⟨[c, b, nextReg b], [], []⟩
  | .lndset a b c => ⟨[a, b, c], [], []⟩
  | .lndwait _ b _ => ⟨[b], [], []⟩
  | .lndrelBuffer a b => ⟨[a, b], [], []⟩
  | .lndrelDismantle a b => ⟨[a, b], [], []⟩
  | .waita _ b c => ⟨[b, c], [], []⟩
  | .spstat _ b _ => ⟨[b], [], []⟩
  | .spawn _ b c => ⟨[b, c], [], []⟩
  | .arm _ b c => ⟨[b, c], [], []⟩
  | .disarm _ b => ⟨[b], [], []⟩
  | .cntadd a b _ => ⟨[a, b], [], []⟩
  | .cntrd _ b _ => ⟨[b], [], []⟩
  | .lvopen _ b c _ => ⟨[b, c], [], []⟩
  | .lvwait _ b _ => ⟨[b], [], []⟩
  | .lvcancel b => ⟨[b], [], []⟩
  | .lvstat _ b _ => ⟨[b], [], []⟩
  | .barcfg _ b c => ⟨[b, c], [], []⟩
  | .hspawn _ b => ⟨[1, b], [], []⟩
  | .cwr a _ => ⟨[a], [], []⟩
  | .seedInstall a => ⟨[a], [], []⟩
  | .tlbinv b c _ => ⟨[b, c], [], []⟩
  | .tlbprobe _ b c => ⟨[b, c], [], []⟩
  | .pmapw _ b => ⟨[b], [], []⟩
  | .pmaprd _ b c => ⟨[b, c], [], []⟩
  | .trcctlOpen _ b c => ⟨[b, c], [], []⟩
  | .trcctlClose _ b c => ⟨[b, c], [], []⟩
  | .trcctlGrant _ b c => ⟨[b, c], [], []⟩
  | .trcctlWithdraw _ b c => ⟨[b, c], [], []⟩
  | .trcctlStatus _ b c => ⟨[b, c], [], []⟩
  | .mpass _ b => ⟨[b], [], []⟩
  | .evsel _ b c => ⟨[b, c], [], []⟩
  | .evrd _ b => ⟨[b], [], []⟩
  | .rplctlStop _ b c => ⟨[b, c], [], []⟩
  | .rplctlRecord _ b c => ⟨[b, c], [], []⟩
  | .rplctlReplay _ b c => ⟨[b, c], [], []⟩
  | .rplctlStatus _ b c => ⟨[b, c], [], []⟩
  | .ctxsave _ b c => ⟨[b, c], [], []⟩
  | .ctxload _ b c => ⟨[b, c], [], []⟩
  | .reseed _ b c => ⟨[b, c], [], []⟩
  | .xq _ b c => ⟨[b, c], [], []⟩
  | .xdraw _ b c => ⟨[b, c], [], []⟩
  | .daccrd _ b => ⟨[b], [], []⟩
  | .daccclr b => ⟨[b], [], []⟩
  | .umrd _ b => ⟨[b], [], []⟩
  | .qset _ b c => ⟨[b, c], [], []⟩
  | .qrd _ b => ⟨[b], [], []⟩
  | .measure a b c => ⟨[b, c], [], [a]⟩
  | .attestReport _ b c _ => ⟨[b, c], [], []⟩
  | .attestDecapsulate _ b c => ⟨[b, c], [], []⟩
  | _ => ⟨[], [], []⟩

/-- What a helper context executes: the loads, ALU operations and branches of pages 0 and 1, and PRF (R293). -/
def helperRuns (i : Instr) : Bool :=
  match i with
  | .prf _ _ _ _ => true
  | .st _ _ _ _ _ _ _ => false
  | .brk _ => false
  | .sys _ => false
  | .time _ => false
  | .vst _ _ _ _ _ _ => false
  | .vscat _ _ _ _ _ _ => false
  | .vlsr _ _ _ _ => false
  | .vlsw _ _ _ _ => false
  | i =>
    match i.fields with
    | some (page, _, _) => decide (page < 2)
    | none => false

/-- Take the next vector of each bound register that an instruction reads, once (R260). -/
def takeStreams : List VReg → State → Act State
  | [], s => .ok s
  | r :: rs, s => do
    let s ← takeStream s r
    takeStreams rs s

/-! ### Issue -/

/-- The tile register that an instruction reads. -/
def tileOf (i : Instr) : Option TReg :=
  match i with
  | .tst a _ _ _ => some a
  | .mmat _ b _ _ => some b
  | _ => none

/-! ### Instructions that are set aside (R15, R17, R203) -/

/-- What an instruction reads and writes within its context, as numbers: 0 to 31 scalar, 32 to 95 vector and 96 to 103 mask
registers, 104 to 111 tiles, 112 the modes and control registers, 113 the lane store, 114 the flags of FSTAT. -/
abbrev RegNo := Nat
def xNo (r : XReg) : RegNo := r.toNat
def vNo (r : VReg) : RegNo := 32 + r.toNat
def mNo (r : MReg) : RegNo := 96 + r.toNat
def tNo (r : TReg) : RegNo := 104 + r.toNat
def modeNo : RegNo := 112
def laneNo : RegNo := 113
def flagNo : RegNo := 114

/-- What an instruction writes; none where it is one that no other of its context passes, and that passes none. -/
def writesOf (i : Instr) : Option (List RegNo) :=
  match i with
  | .nop => some []
  | .mov a _ => some [xNo a]
  | .li a _ => some [xNo a]
  | .lih a _ => some [xNo a]
  | .add d _ _ _ => some [xNo d]
  | .sub d _ _ _ => some [xNo d]
  | .mul d _ _ _ => some [xNo d]
  | .mulh d _ _ _ => some [xNo d]
  | .mulhu d _ _ _ => some [xNo d]
  | .div d _ _ _ => some [xNo d]
  | .divu d _ _ _ => some [xNo d]
  | .rem d _ _ _ => some [xNo d]
  | .remu d _ _ _ => some [xNo d]
  | .and d _ _ => some [xNo d]
  | .or d _ _ => some [xNo d]
  | .xor d _ _ => some [xNo d]
  | .shl d _ _ _ => some [xNo d]
  | .shr d _ _ _ => some [xNo d]
  | .sra d _ _ _ => some [xNo d]
  | .rotl d _ _ _ => some [xNo d]
  | .min d _ _ _ => some [xNo d]
  | .max d _ _ _ => some [xNo d]
  | .minu d _ _ _ => some [xNo d]
  | .maxu d _ _ _ => some [xNo d]
  | .seq d _ _ _ => some [xNo d]
  | .slt d _ _ _ => some [xNo d]
  | .sltu d _ _ _ => some [xNo d]
  | .addi a _ _ => some [xNo a]
  | .andi a _ => some [xNo a]
  | .ori a _ => some [xNo a]
  | .shli a _ _ => some [xNo a]
  | .shri a _ _ => some [xNo a]
  | .srai a _ _ => some [xNo a]
  | .slti a _ _ => some [xNo a]
  | .clz a _ _ => some [xNo a]
  | .popc a _ _ => some [xNo a]
  | .sel a _ _ => some [xNo a]
  | .ld a _ _ _ _ => some [xNo a]
  | .ldx a _ _ _ _ => some [xNo a]
  | .ldw a _ _ _ _ _ => some [xNo a]
  | .st _ _ c _ _ _ _ => some [xNo c]
  | .wmax d _ _ => some [xNo d]
  | .br _ => some []
  | .bz _ _ => some []
  | .bnz _ _ => some []
  | .bltz _ _ => some []
  | .bgez _ _ => some []
  | .call _ => some [31]
  | .callr _ => some [31]
  | .jr _ => some []
  | .jtab _ _ _ => some []
  | .bany _ _ _ => some []
  | .bnone _ _ _ => some []
  | .ball _ _ _ => some []
  | .mrd a _ => some [xNo a]
  | .mwr a _ => some [mNo a]
  | .time a => some [xNo a]
  | .brk _ => some [modeNo]
  | .sys _ => some [modeNo]
  | .vmov a _ _ _ => some [vNo a]
  | .vbcast a _ _ _ => some [vNo a]
  | .vext a _ _ _ _ => some [xNo a]
  | .vins a _ _ _ _ => some [vNo a]
  | .vld a _ _ _ _ => some [vNo a]
  | .vst _ _ c _ _ _ => some [xNo c]
  | .vlds a _ _ _ _ _ => some [vNo a]
  | .vgath a _ _ _ _ _ => some [vNo a]
  | .vscat _ _ _ _ _ _ => some []
  | .vlsr a _ _ _ => some [vNo a]
  | .vlsw _ _ _ _ => some [laneNo]
  | .vperm d _ _ _ _ => some [vNo d]
  | .vrot a _ _ _ _ => some [vNo a]
  | .vadd d _ _ _ _ _ => some [vNo d]
  | .vsub d _ _ _ _ _ => some [vNo d]
  | .vmul d _ _ _ _ _ => some [vNo d]
  | .vmulh d _ _ _ _ => some [vNo d]
  | .vmin d _ _ _ _ => some [vNo d]
  | .vmax d _ _ _ _ => some [vNo d]
  | .vand d _ _ _ _ => some [vNo d]
  | .vor d _ _ _ _ => some [vNo d]
  | .vxor d _ _ _ _ => some [vNo d]
  | .vshl d _ _ _ _ _ => some [vNo d]
  | .vshr d _ _ _ _ => some [vNo d]
  | .vsra d _ _ _ _ => some [vNo d]
  | .vcmp a _ _ _ _ _ => some [mNo a]
  | .vsel d _ _ _ _ => some [vNo d]
  | .vdot4 a _ _ _ _ _ => some [vNo a]
  | .vmac a _ _ _ _ _ => some [vNo a]
  | .vrshr d _ _ _ _ _ => some [vNo d]
  | .vclamp a _ _ _ _ => some [vNo a]
  | .vfadd d _ _ _ _ _ => some [vNo d]
  | .vfsub d _ _ _ _ _ => some [vNo d]
  | .vfmul d _ _ _ _ _ => some [vNo d]
  | .vfma a _ _ _ _ _ => some [vNo a]
  | .vfmin d _ _ _ _ => some [vNo d]
  | .vfmax d _ _ _ _ => some [vNo d]
  | .vfrcp a _ _ _ _ => some [vNo a]
  | .vfrsq a _ _ _ _ => some [vNo a]
  | .vfexp2 a _ _ _ _ => some [vNo a]
  | .vcvt a _ _ _ _ => some [vNo a]
  | .vredadd a _ _ _ _ => some [vNo a]
  | .vredmax a _ _ _ => some [vNo a]
  | .vfred a _ _ _ _ => some [vNo a]
  | .mlog d _ _ _ _ _ => some [mNo d]
  | .mma _ _ _ _ => some []
  | .mmas _ _ _ _ => some []
  | .mmat _ _ _ _ => some []
  | .tld a _ _ _ => some [tNo a]
  | .tst _ _ c _ => some [xNo c]
  | .tzero a => some [tNo a]
  | .crclr _ _ c => some [xNo c]
  | .cradd _ _ c => some [xNo c]
  | .amoadd a _ _ _ _ => some [xNo a]
  | .amoand a _ _ _ _ => some [xNo a]
  | .amoor a _ _ _ _ => some [xNo a]
  | .amoxor a _ _ _ _ => some [xNo a]
  | .amomin a _ _ _ _ => some [xNo a]
  | .amomax a _ _ _ _ => some [xNo a]
  | .amominu a _ _ _ _ => some [xNo a]
  | .amomaxu a _ _ _ _ => some [xNo a]
  | .amoswp a _ _ _ _ => some [xNo a]
  | .amocas a _ _ _ _ => some [xNo a]
  | .amofadd a _ _ _ _ => some [xNo a]
  | .prf _ _ _ _ => some []
  | .spld a _ _ => some [vNo a]
  | .spst _ _ _ => some []
  | .cpy _ _ _ _ _ => some []
  | .cpym _ _ _ _ _ => some []
  | .cpyr _ _ _ _ _ => some []
  | .crd a _ => some [xNo a, flagNo]
  | .cwr _ _ => some [modeNo, flagNo]
  | .tret => some [modeNo]
  | _ => none

/-- An instruction of the scalar page that computes a register from others, and meets no cause. -/
def computes (i : Instr) : Bool :=
  match i.fields with
  | some (page, op, _) => page == 0 && decide (1 ≤ op) && (writesOf i).any (fun w => w.length == 1) &&
      (match i with
        | .ld _ _ _ _ _ => false
        | .ldx _ _ _ _ _ => false
        | .ldw _ _ _ _ _ _ => false
        | .st _ _ _ _ _ _ _ => false
        | .wmax _ _ _ => false
        | .call _ => false
        | .callr _ => false
        | .brk _ => false
        | .sys _ => false
        | .time _ => false
        | .mrd _ _ => false
        | _ => true)
  | none => false

/-- Whether an instruction is one of the lane store. -/
def usesLane (i : Instr) : Bool :=
  match i with
  | .vlsr _ _ _ _ => true
  | .vlsw _ _ _ _ => true
  | _ => false

/-- What an instruction reads: beside its registers, whatever but a computation of scalar registers reads masks, and what is not
of the lane store either the modes and, as it may raise its flags, FSTAT. -/
def readsOf (i : Instr) (u : Uses) (t : Option TReg) : List RegNo :=
  u.xs.map xNo ++ (u.vs ++ u.vw).map vNo ++ t.toList.map tNo ++
    (if computes i then [] else (List.range 8).map (96 + ·) ++ if usesLane i then [laneNo] else [modeNo, flagNo])

/-- Whether an instruction looks at what the writes before it have come to: it is an atomic, a copy, an operation or a store whose
witness is asked for, or it uses a scratchpad or CR memory. -/
def ordered (i : Instr) : Bool :=
  match i with
  | .st _ _ c _ _ _ _ => c != 0
  | .vst _ _ c _ _ _ => c != 0
  | .tld _ _ _ _ => true
  | .tst _ _ _ _ => true
  | .spld _ _ _ => true
  | .spst _ _ _ => true
  | .cpy _ _ _ _ _ => true
  | .cpym _ _ _ _ _ => true
  | .cpyr _ _ _ _ _ => true
  | i => asideWrites i

/-- Whether an instruction stores to memory. -/
def stores (i : Instr) : Bool :=
  match i with
  | .st _ _ _ _ _ _ _ => true
  | .vst _ _ _ _ _ _ => true
  | .vscat _ _ _ _ _ _ => true
  | _ => false
/-- Whether an instruction that is set aside looks at the writes made before it: it returns an atomic's answer or a witness. -/
def looksBack (i : Instr) : Bool :=
  match i with
  | .mma _ _ _ _ => false
  | .mmas _ _ _ _ => false
  | .mmat _ _ _ _ => false
  | .crclr _ _ c => c != 0
  | .cradd _ _ c => c != 0
  | i => ordered i

/-- Whether an instruction may be executed before an earlier one that is set aside (R203): neither writes what the other reads or
writes, x0 apart, and neither looks at writes with which the other would change places. -/
def passesOne (old i : Instr) : Bool :=
  match writesOf old, writesOf i with
  | some w, some v =>
    let w := w.filter (· != 0)
    let v := v.filter (· != 0)
    let r := readsOf old (usesOf old) (tileOf old)
    !(w.any fun p => v.contains p || (readsOf i (usesOf i) (tileOf i)).contains p) && !v.any r.contains &&
      !(asideWrites old && (ordered i || (looksBack old && stores i)))
  | _, _ => false
/-- Whether an instruction may be executed before several. -/
def passesAll (olds : List Aside) (i : Instr) : Bool := olds.all fun a => passesOne a.instr i

/-- The load of an earlier instruction, still to take effect, whose destination an instruction uses (R203). -/
def lateUse (s : State) (u : Uses) (t : Option TReg) : Option Nat :=
  (s.cx.late.find? fun l => u.xs.any l.dest.isX || u.vs.any l.dest.isV || u.vw.any l.dest.isV || t.any l.dest.isT).map (·.id)

/-- The tick from which everything that an instruction reads stands: its scalar and vector registers, and the masks (R203). -/
def readyTick (k : Ctx) (u : Uses) : Nat :=
  let regs := u.xs.map (·.toNat) ++ u.vs.map (32 + ·.toNat) ++ (List.range 8).map (96 + ·)
  regs.foldl (fun n r => max n (tget 0 k.known r)) 0

/-- An instruction before it executes: its results stand as soon as what they are computed from, or from now on where they come
from elsewhere (R203). -/
def State.begins (s : State) (i : Instr) (u : Uses) : State :=
  let r := readyTick s.cx u
  s.onCx fun k => { k with ready := r, wrote := if helperRuns i then r else s.tick }

/-- How an instruction stands at issue: it runs, or it ends here; or a bound register stands against it, which is reported
unless the instruction meets an earlier cause of its own (R260, R454). -/
inductive Issued where
  | run (i : Instr) (s : State)
  | stop (s : Out)
  | blocked (i : Instr) (s : State) (e : Stop)

/-- Fetch, decode and issue the instruction at the program counter: it waits for an instruction that is set aside and that it may not
pass (R203), for a pending register (R196) and for an earlier load that has not taken effect (R203), a write of a bound register is ILLEGAL (R260), and a helper stops at what it does not
execute (R293). -/
def issue (s : State) : Issued :=
  let s := s.onCx fun k => { k with trapped := false, since := s.now, firstId := s.net.nextId }
  match fetch s with
  | .error e => .stop (finish s (.error e))
  | .ok (i, s) =>
    let i := selectForm i s
    let u := usesOf i
    if s.cur.which = 2 && !helperRuns i then .stop (.next (helperStop s))
    else if !passesAll s.cx.aside i then .stop (finish s (.error (.wait .aside none)))
    else match u.xs.find? fun r => s.cx.pend.any fun p => p.reg == r with
    | some r => .stop (finish s (.error (.wait (.register r) none)))
    | none =>
      match lateUse s u (tileOf i) with
      | some id => .stop (finish s (.error (.wait (.late id) none)))
      | none =>
        let s := s.begins i u
        if u.vw.any fun r => (boundTo s r).isSome then .blocked i s (.trap .illegal none (some s.cx.chain))
        else match takeStreams u.vs.eraseDups s with
        | .error e => .blocked i s e
        | .ok t => .run i t

/-- Every cause of a trap. -/
def causes : List Cause :=
  [.illegal, .priv, .align, .xlate, .perm, .class_, .ownbuf, .witmal, .poison, .bargen, .barcnt, .mxfmt, .crfmt, .stage,
    .sealed, .brk, .sys, .notice, .preempt, .timer, .hwerr, .lost, .gang]
/-- The cause of a code. -/
def causeOf (code : Nat) : Option Cause := causes.find? fun c => c.code == code

/-- The place of a cause in the order of R454; PERM and POISON of a scratchpad access come after OWNBUF. -/
def causeRank (c : Cause) (scratch : Bool) : Nat :=
  match c with
  | .priv => 0
  | .illegal => 1
  | .witmal => 2
  | .align => 3
  | .xlate => 4
  | .sealed => 5
  | .perm => if scratch then 10 else 6
  | .class_ => 7
  | .crfmt => 7
  | .poison => if scratch then 11 else 8
  | .ownbuf => 9
  | .stage => 12
  | _ => 13
/-- The same for what stops an instruction at a bound register; one that has to wait for its vector meets no more than what comes
before an access. -/
def stopRank (e : Stop) (scratch : Bool) : Nat :=
  match e with
  | .trap c _ _ => causeRank c scratch
  | .wait _ _ => 4

/-- The state in which an instruction shows the causes that no vector of a stream decides: its bound registers hold zeros. -/
def unstreamed (s : State) : State :=
  s.onCx fun k => { k with v := k.streams.foldl (fun v b => v.set b.reg.toNat 0 b.reg.isLt) k.v }

/-- An instruction that a bound register stands against: `o` is what would come of it without the stream. An earlier cause of its
own is raised; causes of lanes that a vector of the stream would place are none of them (R260, R454). Of one place in the order, the
stream's comes first (log entry 46). -/
def blockedEnds (i : Instr) (s : State) (e : Stop) (o : Out) : Out :=
  let bound := fun (r : VReg) => (boundTo s r).isSome
  let placed := match i with
    | .vgath _ _ c _ _ _ => bound c
    | .vscat _ _ c _ _ _ => bound c
    | _ => false
  let own := match o with
    | .next t =>
      if t.cur == s.cur && t.cx.trapped then
        match causeOf (t.cx.crs.tcause.toNat % 256) with
        | some c =>
          let r := causeRank c (match i with
            | .spst _ _ _ => true
            | _ => false)
          if placed && 3 ≤ r then 14 else r
        | none => 14
      else 14
    | _ => 14
  let scratch := s.cx.streams.any fun b => b.kind == 1 && (usesOf i).vs.contains b.reg
  if own < stopRank e scratch then o else finish s (.error e)

/-- A conditional or computed branch, which the core may mispredict (R366). -/
def predicted (i : Instr) : Bool :=
  match i with
  | .bz _ _ => true
  | .bnz _ _ => true
  | .bltz _ _ => true
  | .bgez _ _ => true
  | .bany _ _ _ => true
  | .bnone _ _ _ => true
  | .ball _ _ _ => true
  | .callr _ => true
  | .jr _ => true
  | .jtab _ _ _ => true
  | _ => false

/-- What the cycle and branch events of R366 count for an instruction: the core cycles, those of a wait for a witness or a
pending register that has ended, and a misprediction, for the firing that issued it, which may have ended by now. All are free
values (log entry 8). -/
def countStep (s t : State) (branch : Bool) : State :=
  let c := s.cur
  let waited := match s.cx.woke with
    | some (.register _) => true
    | some (.replica _ _) => true
    | _ => false
  let n := fun (k : Nat) => (Config.cycles (4 * s.tick + k)).toNat
  let count := fun (t : State) (code n : Nat) => t.countEv c code n s.cx.fir.oid.toNat s.cx.fir.launch.toNat
  let t := count t 1 (n 0)
  let t := if waited then count t 9 (n 2) else t
  if branch then count t 10 (n 3 % 2) else t

/-- After an instruction: where it trapped at itself or waits, it has taken no vector (R260), and where it is done, what was kept
for it is not needed any more; a monitor entry that it held is free unless it goes on waiting for its word (R324); a hold of
replay that it has passed is forgotten; and the events of R366 count. `s` is the state in which it was issued. -/
def settle (branch : Bool) (s t : State) : State :=
  let c := s.cur
  let stays := t.cur == c && (t.cx.trapped || t.cx.wait.isSome)
  let t := if stays then
      t.onCx fun k =>
        { k with
          woke := if k.trapped then none else k.woke
          streams := s.cx.streams
          v := s.cx.streams.foldl (fun v b => v.set b.reg.toNat (s.cx.getV b.reg) b.reg.isLt) k.v }
    else (t.countEv c 2 1 s.cx.fir.oid.toNat s.cx.fir.launch.toNat).updCtx c fun k => { k with woke := none, lag := false, verdict := none, judged := none }
  let watched := match s.cx.woke with
    | some (.address _ _ _) => true
    | _ => false
  let watches := match (t.ctxOf c).wait with
    | some (.address _ _ _) => true
    | _ => false
  let t := if watched && !watches then t.updCore c.core fun k => { k with monitor := k.monitor.filter (· != c) } else t
  let held := match t.cx.wait with
    | some (.turn _ (some _)) => true
    | _ => false
  let o := t.ownerSt s.oid
  let t := if held || !o.rpl.released.contains (ctxHold c) then t
    else t.updOwner s.oid fun o => { o with rpl := { o.rpl with released := o.rpl.released.filter (· != ctxHold c) } }
  countStep s t branch

end Sys2Proof.Machine
end

