-- ==== Sys2Proof/Machine/Dispatch.lean ====
section
/-! DEFINITION. What each instruction and event does: one call of its meaning. -/

namespace Sys2Proof.Machine

def exec (i : Instr) (s : State) : Host.Outcome State Fault Refusal :=
  match i with
  | .nop => Sys2Proof.Machine.execNop s
  | .mov a b => Sys2Proof.Machine.execMov a b s
  | .li a imm => Sys2Proof.Machine.execLi a imm s
  | .lih a imm => Sys2Proof.Machine.execLih a imm s
  | .add d l r sz => Sys2Proof.Machine.execAdd d l r sz s
  | .sub d l r sz => Sys2Proof.Machine.execSub d l r sz s
  | .mul d l r sz => Sys2Proof.Machine.execMul d l r sz s
  | .mulh d l r sz => Sys2Proof.Machine.execMulh d l r sz s
  | .mulhu d l r sz => Sys2Proof.Machine.execMulhu d l r sz s
  | .div d l r sz => Sys2Proof.Machine.execDiv d l r sz s
  | .divu d l r sz => Sys2Proof.Machine.execDivu d l r sz s
  | .rem d l r sz => Sys2Proof.Machine.execRem d l r sz s
  | .remu d l r sz => Sys2Proof.Machine.execRemu d l r sz s
  | .and d l r => Sys2Proof.Machine.execAnd d l r s
  | .or d l r => Sys2Proof.Machine.execOr d l r s
  | .xor d l r => Sys2Proof.Machine.execXor d l r s
  | .shl d l r sz => Sys2Proof.Machine.execShl d l r sz s
  | .shr d l r sz => Sys2Proof.Machine.execShr d l r sz s
  | .sra d l r sz => Sys2Proof.Machine.execSra d l r sz s
  | .rotl d l r sz => Sys2Proof.Machine.execRotl d l r sz s
  | .min d l r sz => Sys2Proof.Machine.execMin d l r sz s
  | .max d l r sz => Sys2Proof.Machine.execMax d l r sz s
  | .minu d l r sz => Sys2Proof.Machine.execMinu d l r sz s
  | .maxu d l r sz => Sys2Proof.Machine.execMaxu d l r sz s
  | .seq d l r sz => Sys2Proof.Machine.execSeq d l r sz s
  | .slt d l r sz => Sys2Proof.Machine.execSlt d l r sz s
  | .sltu d l r sz => Sys2Proof.Machine.execSltu d l r sz s
  | .addi a sz imm => Sys2Proof.Machine.execAddi a sz imm s
  | .andi a imm => Sys2Proof.Machine.execAndi a imm s
  | .ori a imm => Sys2Proof.Machine.execOri a imm s
  | .shli a sz imm => Sys2Proof.Machine.execShli a sz imm s
  | .shri a sz imm => Sys2Proof.Machine.execShri a sz imm s
  | .srai a sz imm => Sys2Proof.Machine.execSrai a sz imm s
  | .slti a sz imm => Sys2Proof.Machine.execSlti a sz imm s
  | .clz a b sz => Sys2Proof.Machine.execClz a b sz s
  | .popc a b sz => Sys2Proof.Machine.execPopc a b sz s
  | .sel a b c => Sys2Proof.Machine.execSel a b c s
  | .ld a b sz imm na => Sys2Proof.Machine.execLd a b sz imm na s
  | .ldx a b sz imm na => Sys2Proof.Machine.execLdx a b sz imm na s
  | .st a b c sz imm sc na => Sys2Proof.Machine.execSt a b c sz imm sc na s
  | .ldw a b c sz imm na => Sys2Proof.Machine.execLdw a b c sz imm na s
  | .wmax d l r => Sys2Proof.Machine.execWmax d l r s
  | .br imm => Sys2Proof.Machine.execBr imm s
  | .bz a imm => Sys2Proof.Machine.execBz a imm s
  | .bnz a imm => Sys2Proof.Machine.execBnz a imm s
  | .bltz a imm => Sys2Proof.Machine.execBltz a imm s
  | .bgez a imm => Sys2Proof.Machine.execBgez a imm s
  | .call imm => Sys2Proof.Machine.execCall imm s
  | .callr a => Sys2Proof.Machine.execCallr a s
  | .jr a => Sys2Proof.Machine.execJr a s
  | .jtab a b imm => Sys2Proof.Machine.execJtab a b imm s
  | .bany a sz imm => Sys2Proof.Machine.execBany a sz imm s
  | .bnone a sz imm => Sys2Proof.Machine.execBnone a sz imm s
  | .ball a sz imm => Sys2Proof.Machine.execBall a sz imm s
  | .mrd a b => Sys2Proof.Machine.execMrd a b s
  | .mwr a b => Sys2Proof.Machine.execMwr a b s
  | .time a => Sys2Proof.Machine.execTime a s
  | .brk imm => Sys2Proof.Machine.execBrk imm s
  | .sys imm => Sys2Proof.Machine.execSys imm s
  | .vmov a b sz mk => Sys2Proof.Machine.execVmov a b sz mk s
  | .vbcast a b sz mk => Sys2Proof.Machine.execVbcast a b sz mk s
  | .vext a b sz imm mk => Sys2Proof.Machine.execVext a b sz imm mk s
  | .vins a b sz imm mk => Sys2Proof.Machine.execVins a b sz imm mk s
  | .vld a b sz imm mk => Sys2Proof.Machine.execVld a b sz imm mk s
  | .vst a b c sz imm mk => Sys2Proof.Machine.execVst a b c sz imm mk s
  | .vlds a b c sz imm mk => Sys2Proof.Machine.execVlds a b c sz imm mk s
  | .vgath a b c sz imm mk => Sys2Proof.Machine.execVgath a b c sz imm mk s
  | .vscat a b c sz imm mk => Sys2Proof.Machine.execVscat a b c sz imm mk s
  | .vlsr a b sz mk => Sys2Proof.Machine.execVlsr a b sz mk s
  | .vlsw a b sz mk => Sys2Proof.Machine.execVlsw a b sz mk s
  | .vperm d l r sz mk => Sys2Proof.Machine.execVperm d l r sz mk s
  | .vrot a b sz imm mk => Sys2Proof.Machine.execVrot a b sz imm mk s
  | .vadd d l r sz sat mk => Sys2Proof.Machine.execVadd d l r sz sat mk s
  | .vsub d l r sz sat mk => Sys2Proof.Machine.execVsub d l r sz sat mk s
  | .vmul d l r sz sat mk => Sys2Proof.Machine.execVmul d l r sz sat mk s
  | .vmulh d l r sz mk => Sys2Proof.Machine.execVmulh d l r sz mk s
  | .vmin d l r sz mk => Sys2Proof.Machine.execVmin d l r sz mk s
  | .vmax d l r sz mk => Sys2Proof.Machine.execVmax d l r sz mk s
  | .vand d l r sz mk => Sys2Proof.Machine.execVand d l r sz mk s
  | .vor d l r sz mk => Sys2Proof.Machine.execVor d l r sz mk s
  | .vxor d l r sz mk => Sys2Proof.Machine.execVxor d l r sz mk s
  | .vshl d l r sz sat mk => Sys2Proof.Machine.execVshl d l r sz sat mk s
  | .vshr d l r sz mk => Sys2Proof.Machine.execVshr d l r sz mk s
  | .vsra d l r sz mk => Sys2Proof.Machine.execVsra d l r sz mk s
  | .vcmp a b c sz imm mk => Sys2Proof.Machine.execVcmp a b c sz imm mk s
  | .vsel d l r sz mk => Sys2Proof.Machine.execVsel d l r sz mk s
  | .vdot4 a b c imm sat mk => Sys2Proof.Machine.execVdot4 a b c imm sat mk s
  | .vmac a b c sz sat mk => Sys2Proof.Machine.execVmac a b c sz sat mk s
  | .vrshr d l r sz rnd mk => Sys2Proof.Machine.execVrshr d l r sz rnd mk s
  | .vclamp a b c sz mk => Sys2Proof.Machine.execVclamp a b c sz mk s
  | .vfadd d l r sz rnd mk => Sys2Proof.Machine.execVfadd d l r sz rnd mk s
  | .vfsub d l r sz rnd mk => Sys2Proof.Machine.execVfsub d l r sz rnd mk s
  | .vfmul d l r sz rnd mk => Sys2Proof.Machine.execVfmul d l r sz rnd mk s
  | .vfma a b c sz rnd mk => Sys2Proof.Machine.execVfma a b c sz rnd mk s
  | .vfmin d l r sz mk => Sys2Proof.Machine.execVfmin d l r sz mk s
  | .vfmax d l r sz mk => Sys2Proof.Machine.execVfmax d l r sz mk s
  | .vfrcp a b sz rnd mk => Sys2Proof.Machine.execVfrcp a b sz rnd mk s
  | .vfrsq a b sz rnd mk => Sys2Proof.Machine.execVfrsq a b sz rnd mk s
  | .vfexp2 a b sz rnd mk => Sys2Proof.Machine.execVfexp2 a b sz rnd mk s
  | .vcvt a b imm rnd mk => Sys2Proof.Machine.execVcvt a b imm rnd mk s
  | .vredadd a b sz sat mk => Sys2Proof.Machine.execVredadd a b sz sat mk s
  | .vredmax a b sz mk => Sys2Proof.Machine.execVredmax a b sz mk s
  | .vfred a b sz rnd mk => Sys2Proof.Machine.execVfred a b sz rnd mk s
  | .mlog d l r sz imm mk => Sys2Proof.Machine.execMlog d l r sz imm mk s
  | .mgang imm => Sys2Proof.Machine.execMgang imm s
  | .mma a b c imm => Sys2Proof.Machine.execMma a b c imm s
  | .mmas a b c imm => Sys2Proof.Machine.execMmas a b c imm s
  | .mmat a b c imm => Sys2Proof.Machine.execMmat a b c imm s
  | .tld a b c imm => Sys2Proof.Machine.execTld a b c imm s
  | .tst a b c imm => Sys2Proof.Machine.execTst a b c imm s
  | .tzero a => Sys2Proof.Machine.execTzero a s
  | .mhint imm => Sys2Proof.Machine.execMhint imm s
  | .mwait a => Sys2Proof.Machine.execMwait a s
  | .mstat a b c imm => Sys2Proof.Machine.execMstat a b c imm s
  | .crclr a b c => Sys2Proof.Machine.execCrclr a b c s
  | .crflush a b c => Sys2Proof.Machine.execCrflush a b c s
  | .crrd a b c raw => Sys2Proof.Machine.execCrrd a b c raw s
  | .cradd a b c => Sys2Proof.Machine.execCradd a b c s
  | .amoadd a b c sz sc => Sys2Proof.Machine.execAmoadd a b c sz sc s
  | .amoand a b c sz sc => Sys2Proof.Machine.execAmoand a b c sz sc s
  | .amoor a b c sz sc => Sys2Proof.Machine.execAmoor a b c sz sc s
  | .amoxor a b c sz sc => Sys2Proof.Machine.execAmoxor a b c sz sc s
  | .amomin a b c sz sc => Sys2Proof.Machine.execAmomin a b c sz sc s
  | .amomax a b c sz sc => Sys2Proof.Machine.execAmomax a b c sz sc s
  | .amominu a b c sz sc => Sys2Proof.Machine.execAmominu a b c sz sc s
  | .amomaxu a b c sz sc => Sys2Proof.Machine.execAmomaxu a b c sz sc s
  | .amoswp a b c sz sc => Sys2Proof.Machine.execAmoswp a b c sz sc s
  | .amocas a b c sz sc => Sys2Proof.Machine.execAmocas a b c sz sc s
  | .amofadd a b c sz sc => Sys2Proof.Machine.execAmofadd a b c sz sc s
  | .mxacc a b c sz imm sc => Sys2Proof.Machine.execMxacc a b c sz imm sc s
  | .prf b imm sc na => Sys2Proof.Machine.execPrf b imm sc na s
  | .wtest a b => Sys2Proof.Machine.execWtest a b s
  | .wwait b => Sys2Proof.Machine.execWwait b s
  | .wfront a => Sys2Proof.Machine.execWfront a s
  | .sca a b imm => Sys2Proof.Machine.execSca a b imm s
  | .nrd a c imm => Sys2Proof.Machine.execNrd a c imm s
  | .nwait a b c imm => Sys2Proof.Machine.execNwait a b c imm s
  | .pclr a b sc => Sys2Proof.Machine.execPclr a b sc s
  | .balloc a b c => Sys2Proof.Machine.execBalloc a b c s
  | .bfree b => Sys2Proof.Machine.execBfree b s
  | .bgive b c => Sys2Proof.Machine.execBgive b c s
  | .bexportStart b c => Sys2Proof.Machine.execBexportStart b c s
  | .bexportEnd b c => Sys2Proof.Machine.execBexportEnd b c s
  | .spld a b imm => Sys2Proof.Machine.execSpld a b imm s
  | .spst a b imm => Sys2Proof.Machine.execSpst a b imm s
  | .cpy a b c sc na => Sys2Proof.Machine.execCpy a b c sc na s
  | .cpym a b c sc na => Sys2Proof.Machine.execCpym a b c sc na s
  | .cpyr a b c sc na => Sys2Proof.Machine.execCpyr a b c sc na s
  | .sbind a b c na => Sys2Proof.Machine.execSbind a b c na s
  | .sunbind a => Sys2Proof.Machine.execSunbind a s
  | .lndset a b c => Sys2Proof.Machine.execLndset a b c s
  | .lndwait a b c => Sys2Proof.Machine.execLndwait a b c s
  | .lndrelBuffer a b => Sys2Proof.Machine.execLndrelBuffer a b s
  | .lndrelDismantle a b => Sys2Proof.Machine.execLndrelDismantle a b s
  | .waita a b c => Sys2Proof.Machine.execWaita a b c s
  | .spstat a b imm => Sys2Proof.Machine.execSpstat a b imm s
  | .spawn a b c => Sys2Proof.Machine.execSpawn a b c s
  | .endf => Sys2Proof.Machine.execEndf s
  | .arm a b c => Sys2Proof.Machine.execArm a b c s
  | .disarm a b => Sys2Proof.Machine.execDisarm a b s
  | .cntadd a b sc => Sys2Proof.Machine.execCntadd a b sc s
  | .cntrd a b c => Sys2Proof.Machine.execCntrd a b c s
  | .lvopen a b c imm => Sys2Proof.Machine.execLvopen a b c imm s
  | .lvwait a b c => Sys2Proof.Machine.execLvwait a b c s
  | .lvcancel b => Sys2Proof.Machine.execLvcancel b s
  | .lvstat a b c => Sys2Proof.Machine.execLvstat a b c s
  | .bara imm => Sys2Proof.Machine.execBara imm s
  | .barw a imm => Sys2Proof.Machine.execBarw a imm s
  | .barcfg a b c => Sys2Proof.Machine.execBarcfg a b c s
  | .hspawn a b => Sys2Proof.Machine.execHspawn a b s
  | .hstop => Sys2Proof.Machine.execHstop s
  | .expose => Sys2Proof.Machine.execExpose s
  | .yieldf => Sys2Proof.Machine.execYieldf s
  | .self a imm => Sys2Proof.Machine.execSelf a imm s
  | .crd a imm => Sys2Proof.Machine.execCrd a imm s
  | .cwr a imm => Sys2Proof.Machine.execCwr a imm s
  | .seedInstall a => Sys2Proof.Machine.execSeedInstall a s
  | .tret => Sys2Proof.Machine.execTret s
  | .tlbinv b c sc => Sys2Proof.Machine.execTlbinv b c sc s
  | .tlbprobe a b c => Sys2Proof.Machine.execTlbprobe a b c s
  | .pmapw a b => Sys2Proof.Machine.execPmapw a b s
  | .pmaprd a b c => Sys2Proof.Machine.execPmaprd a b c s
  | .trcmark imm => Sys2Proof.Machine.execTrcmark imm s
  | .trcctlOpen a b c => Sys2Proof.Machine.execTrcctlOpen a b c s
  | .trcctlClose a b c => Sys2Proof.Machine.execTrcctlClose a b c s
  | .trcctlGrant a b c => Sys2Proof.Machine.execTrcctlGrant a b c s
  | .trcctlWithdraw a b c => Sys2Proof.Machine.execTrcctlWithdraw a b c s
  | .trcctlStatus a b c => Sys2Proof.Machine.execTrcctlStatus a b c s
  | .mpass a b => Sys2Proof.Machine.execMpass a b s
  | .evsel a b c => Sys2Proof.Machine.execEvsel a b c s
  | .evrd a b => Sys2Proof.Machine.execEvrd a b s
  | .rplctlStop a b c => Sys2Proof.Machine.execRplctlStop a b c s
  | .rplctlRecord a b c => Sys2Proof.Machine.execRplctlRecord a b c s
  | .rplctlReplay a b c => Sys2Proof.Machine.execRplctlReplay a b c s
  | .rplctlStatus a b c => Sys2Proof.Machine.execRplctlStatus a b c s
  | .ctxsave a b c => Sys2Proof.Machine.execCtxsave a b c s
  | .ctxload a b c => Sys2Proof.Machine.execCtxload a b c s
  | .idle => Sys2Proof.Machine.execIdle s
  | .reseed a b c => Sys2Proof.Machine.execReseed a b c s
  | .xq a b c => Sys2Proof.Machine.execXq a b c s
  | .xdraw a b c => Sys2Proof.Machine.execXdraw a b c s
  | .daccrd a b => Sys2Proof.Machine.execDaccrd a b s
  | .daccclr b => Sys2Proof.Machine.execDaccclr b s
  | .umrd a b => Sys2Proof.Machine.execUmrd a b s
  | .qset a b c => Sys2Proof.Machine.execQset a b c s
  | .qrd a b => Sys2Proof.Machine.execQrd a b s
  | .measure a b c => Sys2Proof.Machine.execMeasure a b c s
  | .attestReport a b c imm => Sys2Proof.Machine.execAttestReport a b c imm s
  | .attestDecapsulate a b c => Sys2Proof.Machine.execAttestDecapsulate a b c s
  | .trapEntry c => Sys2Proof.Machine.execTrapEntry c s
  | .tdlineDeadline c => Sys2Proof.Machine.execTdlineDeadline c s
  | .leaseExpiry at_ line => Sys2Proof.Machine.execLeaseExpiry at_ line s
  | .homeApply id => Sys2Proof.Machine.execHomeApply id s
  | .witnessDelivered c r => Sys2Proof.Machine.execWitnessDelivered c r s
  | .refusalReport id => Sys2Proof.Machine.execRefusalReport id s
  | .lostReport id => Sys2Proof.Machine.execLostReport id s
  | .dirtyWriteback at_ line => Sys2Proof.Machine.execDirtyWriteback at_ line s
  | .crFold die line => Sys2Proof.Machine.execCrFold die line s
  | .replSequence id => Sys2Proof.Machine.execReplSequence id s
  | .replReplicaApply die => Sys2Proof.Machine.execReplReplicaApply die s
  | .replMark => Sys2Proof.Machine.execReplMark s
  | .classChangeComplete n => Sys2Proof.Machine.execClassChangeComplete n s
  | .announcePresent core => Sys2Proof.Machine.execAnnouncePresent core s
  | .gauzeWindowApply => Sys2Proof.Machine.execGauzeWindowApply s
  | .matrixOpStart core => Sys2Proof.Machine.execMatrixOpStart core s
  | .matrixOpComplete core => Sys2Proof.Machine.execMatrixOpComplete core s
  | .gangTimeout core => Sys2Proof.Machine.execGangTimeout core s
  | .sliceRampDown core => Sys2Proof.Machine.execSliceRampDown core s
  | .laneStoreClear core => Sys2Proof.Machine.execLaneStoreClear core s
  | .copyEnqueue c => Sys2Proof.Machine.execCopyEnqueue c s
  | .copyStart cluster => Sys2Proof.Machine.execCopyStart cluster s
  | .copyComplete cluster tag => Sys2Proof.Machine.execCopyComplete cluster tag s
  | .inboundDelivery n => Sys2Proof.Machine.execInboundDelivery n s
  | .counterMessageApply id => Sys2Proof.Machine.execCounterMessageApply id s
  | .triggerFirePush n => Sys2Proof.Machine.execTriggerFirePush n s
  | .dequePushRetry core => Sys2Proof.Machine.execDequePushRetry core s
  | .firingDispatch c => Sys2Proof.Machine.execFiringDispatch c s
  | .stealRequest core => Sys2Proof.Machine.execStealRequest core s
  | .stealReply n => Sys2Proof.Machine.execStealReply n s
  | .firingRedispatch n => Sys2Proof.Machine.execFiringRedispatch n s
  | .preemption c => Sys2Proof.Machine.execPreemption c s
  | .suspendedResume oid slot => Sys2Proof.Machine.execSuspendedResume oid slot s
  | .waitaPoll c => Sys2Proof.Machine.execWaitaPoll c s
  | .waitaWake c => Sys2Proof.Machine.execWaitaWake c s
  | .instrWaitEnd c => Sys2Proof.Machine.execInstrWaitEnd c s
  | .barrierTimeout die bar => Sys2Proof.Machine.execBarrierTimeout die bar s
  | .quotaInterval far die slice => Sys2Proof.Machine.execQuotaInterval far die slice s
  | .mpassPassEnd oid => Sys2Proof.Machine.execMpassPassEnd oid s
  | .replayHoldTimeout id => Sys2Proof.Machine.execReplayHoldTimeout id s
  | .uncorrectableError site => Sys2Proof.Machine.execUncorrectableError site s
  | .linkCrcRetry wire => Sys2Proof.Machine.execLinkCrcRetry wire s
  | .edgeLinkFail wire => Sys2Proof.Machine.execEdgeLinkFail wire s
  | .coreFail core => Sys2Proof.Machine.execCoreFail core s
  | .clusterFail cluster => Sys2Proof.Machine.execClusterFail cluster s
  | .dieFail die => Sys2Proof.Machine.execDieFail die s
  | .groupFatalFault cluster => Sys2Proof.Machine.execGroupFatalFault cluster s
  | .crossTriggerHalt cluster => Sys2Proof.Machine.execCrossTriggerHalt cluster s
  | .haltResume cluster => Sys2Proof.Machine.execHaltResume cluster s
  | .crashDump => Sys2Proof.Machine.execCrashDump s
  | .inboundRequest q => Sys2Proof.Machine.execInboundRequest q s
  | .apertureCounterWrite q => Sys2Proof.Machine.execApertureCounterWrite q s
  | .qreset w => Sys2Proof.Machine.execQreset w s
  | .mbox w => Sys2Proof.Machine.execMbox w s
  | .hostCtrlWrite off w => Sys2Proof.Machine.execHostCtrlWrite off w s
  | .functionLevelReset => Sys2Proof.Machine.execFunctionLevelReset s
  | .nvmeDmaWrite sram addr data => Sys2Proof.Machine.execNvmeDmaWrite sram addr data s
  | .boot fail => Sys2Proof.Machine.execBoot fail s
  | .supplySag cluster => Sys2Proof.Machine.execSupplySag cluster s
  | .supplyRestore cluster => Sys2Proof.Machine.execSupplyRestore cluster s
  | .powerLimitAdjust watts clocks => Sys2Proof.Machine.execPowerLimitAdjust watts clocks s
  | .thermalThrottle die => Sys2Proof.Machine.execThermalThrottle die s
  | .thermalShutdown die => Sys2Proof.Machine.execThermalShutdown die s
  | .homeSliceFail die slice tagsReadable => Sys2Proof.Machine.execHomeSliceFail die slice tagsReadable s
  | .nearTierDataArraysFail cluster => Sys2Proof.Machine.execNearTierDataArraysFail cluster s
  | .mhintHoldEnd core => Sys2Proof.Machine.execMhintHoldEnd core s

end Sys2Proof.Machine
end

