-- ==== Sys2Proof/Machine/Aside.lean ====
section
/-! DEFINITION. Instructions that wait while later ones of their context go on (spec/01_machine.md R15, R17;
spec/07_memory_model.md R203, R204; log entry 37). -/

namespace Sys2Proof.Machine

/-! ### Setting aside -/

/-- The address register, the address and the size of a scalar store or atomic. -/
def storeAt (s : State) (i : Instr) : Option (XReg × Word × Nat) :=
  let amo := fun (b : XReg) (sz : Size) => some (b, s.getX b, Size.bits sz / 8)
  match i with
  | .st _ b _ sz imm _ _ => some (b, s.addr b imm, Size.bits sz / 8)
  | .amoadd _ b _ sz _ => amo b sz
  | .amoand _ b _ sz _ => amo b sz
  | .amoor _ b _ sz _ => amo b sz
  | .amoxor _ b _ sz _ => amo b sz
  | .amomin _ b _ sz _ => amo b sz
  | .amomax _ b _ sz _ => amo b sz
  | .amominu _ b _ sz _ => amo b sz
  | .amomaxu _ b _ sz _ => amo b sz
  | .amoswp _ b _ sz _ => amo b sz
  | .amocas _ b _ sz _ => amo b sz
  | .amofadd _ b _ sz _ => amo b sz
  | _ => none

/-- Whether a register of the running context has its value: it is not pending, no late load and nothing set aside is to write it. -/
def hasValue (s : State) (r : XReg) : Bool :=
  !(s.cx.pend.any fun p => p.reg == r) && !(s.cx.late.any fun l => l.dest.isX r) &&
    !s.cx.aside.any fun a => (writesOf a.instr).any fun w => w.contains (xNo r) && r != 0

/-- The bytes at home that a store or atomic will write, where its address is known and its checks pass: an SM page, or any that a
store may write. An unexposed recoverable firing sets none aside. -/
def asideTouch (s : State) (i : Instr) : Option (Nat × Nat) :=
  match storeAt s i with
  | none => none
  | some (b, va, n) =>
    if s.cx.staged || !hasValue s b then none
    else match storeCheck s va n with
    | .error _ => none
    | .ok (l, _) =>
      let plain := match i with
        | .st _ _ _ _ _ _ _ => true
        | _ => l.cls == clsSm
      if plain && !leafMarked s l then some (l.pa, n) else none

/-- The instruction at which the running context waits, as it would be set aside; none where it must stay. A computation, a store
or an atomic waits for registers; an instruction of the lane store for that, where no stream is bound to its registers; a matrix
operation or a contribution for its slice. -/
def asideOf (s : State) : Option Aside :=
  match s.cx.wait.bind fun w => (fetch s).toOption.map fun f => (w, f.1) with
  | none => none
  | some (w, i) =>
    let u := usesOf i
    let one : Option (Nat × Nat) → Aside := fun t => ⟨i, w, s.cx.pc, s.cx.npc, s.cx.chain, t⟩
    let regs := match w with
      | .register _ => true
      | .late _ => true
      | .aside => true
      | _ => false
    let unbound := (u.vs ++ u.vw).all fun r => (boundTo s r).isNone
    if 2 ≤ s.cur.which || 255 ≤ s.cx.aside.length then none
    else if usesLane i && unbound && (w == .laneStore || w == .aside) then some (one none)
    else if computes i && regs then some (one none)
    else if (storeAt s i).isSome then (if regs then (asideTouch s i).map fun t => one (some t) else none)
    else if asideWrites i && (w == .sliceQueue || w == .matrixDone) && unbound then some (one none)
    else none

/-- The running context sets the instruction aside at which it waits, and goes on behind it. -/
def setAside (s : State) : State :=
  match asideOf s with
  | some a => s.onCx fun k =>
    { k with aside := k.aside ++ [a], pc := a.npc, wait := none, woke := none, lag := false, verdict := none, judged := none }
  | none => s

/-- A context that waits for its lane store goes on without being asked to (R17). -/
def setsAside (s : State) : Bool :=
  s.cx.wait == some .laneStore && !waitOver s s.cur .laneStore && (asideOf s).isSome

/-! ### Running -/

/-- Whether what an instruction set aside waits for has come: its registers stand, and none set aside before it is in its way. -/
def asideReady (s : State) (before : List Aside) (a : Aside) : Bool :=
  let u := usesOf a.instr
  waitOver s s.cur a.wait && passesAll before a.instr && (lateUse s u (tileOf a.instr)).isNone &&
    u.xs.all fun r => !s.cx.pend.any fun p => p.reg == r

/-- The first instruction of the running context that is set aside and may be executed, with its place among them. -/
def asideNext (s : State) : Option (Nat × Aside) :=
  (List.range s.cx.aside.length).findSome? fun n =>
    match s.cx.aside[n]? with
    | some a => if asideReady s (s.cx.aside.take n) a then some (n, a) else none
    | none => none

/-- An instruction that was set aside is executed; the context stays where it is. A cause that it meets now, which only another party
can have brought, is taken as one that an engine reports. -/
def asideRun (s : State) : State :=
  match asideNext s with
  | none => s
  | some (n, a) =>
    let k := s.cx
    let rest := k.aside.eraseIdx n
    let s := (s.onCx fun q =>
      { q with
        pc := a.pc, npc := a.npc, chain := a.chain, firstId := s.net.nextId, wait := none, woke := some a.wait
        trapped := false, lag := false, verdict := none, judged := none, aside := rest }).begins a.instr (usesOf a.instr)
    let back := fun (q : Ctx) =>
      { q with
        pc := k.pc, npc := k.npc, chain := k.chain, firstId := k.firstId, wait := k.wait, woke := k.woke
        trapped := k.trapped, lag := k.lag, verdict := k.verdict, judged := k.judged }
    match exec a.instr s with
    | .next t =>
      if t.cx.trapped then
        (s.onCx back).engineFault s.cur ((causeOf (t.cx.crs.tcause.toNat % 256)).getD .hwerr) (some t.cx.crs.taddr) a.pc
          s.cx.firstId
      else match t.cx.wait with
      | some w => t.onCx fun q => { back q with aside := rest.take n ++ { a with wait := w } :: rest.drop n }
      | none => (t.onCx back).countEv s.cur 2 1
    | _ => s.onCx back

/-- A context executes an instruction that it has set aside. -/
def asideGoes (s : State) (c : CtxId) : State :=
  if (s.ctxOf c).life == .running && engineRuns s c.core then s.asCtx c asideRun else s
/-- A context sets aside the instruction at which it waits. -/
def setsAsideAt (s : State) (c : CtxId) : State :=
  if (s.ctxOf c).life == .running && engineRuns s c.core then s.asCtx c setAside else s

end Sys2Proof.Machine
end

