-- ==== Sys2Proof/Machine/Ready.lean ====
section
/-! DEFINITION. What may happen next when no instruction can: the events that are enabled, other contexts' turns, the acts
of system software, and the passing of time (log entry 3). -/

namespace Sys2Proof.Machine

/-! ### Turns of the plan -/

/-- A context reads ahead of its program order, in an aligned unit of at most 8 bytes (R202, R203). -/
def samples (s : State) (c : CtxId) (va : Word) (n : Nat) : State :=
  if (s.ctxOf c).life == .running && engineRuns s c.core && [1, 2, 4, 8].contains n then s.asCtx c fun s => s.readAhead va n
  else s
/-- A stream of a context reads one vector ahead (R260). -/
def vectorAhead (s : State) (c : CtxId) (r : VReg) : State :=
  if (s.ctxOf c).life == .running && engineRuns s c.core then s.asCtx c fun s => streamAhead s r else s
/-- The loads of a context's next instruction are to take effect later (R203). -/
def lags (s : State) (c : CtxId) : State :=
  if (s.ctxOf c).life == .running && (s.ctxOf c).wait.isNone then s.updCtx c fun k => { k with lag := true } else s

/-- A row of the opcode table that is an event and no instruction. -/
def isEvent (i : Instr) : Bool := i.fields.isNone

/-- A store of a system core (R24, R26), which reaches memory at its home; it does not reach a marked line or a sealed
frame (R350, R396). At a window's address it is a store of the host or of a linked device into its own memory (R417). -/
def sysStore (s : State) (pa : Nat) (data : List Byte) : State :=
  let ps := linePieces (data.length / 128 + 2) (BitVec.ofNat 64 pa) 0 data.length
  ps.foldl (fun s p =>
    let a := pa + p.1
    if inWindow a then { s with mem := memWrite s.mem a ((data.drop p.1).take p.2) }
    else if !inHbm a || marked s 0 (a / 128) || (tfind s.home.sealTags (a / 65536)).isSome then s
    else writeHome (s.pass 0 (inPath s 0 (sliceKey s 0 (a / 128)))) outside 0 a ((data.drop p.1).take p.2)) s

/-- A record that a system core pushes for an owner (R24, R304): counted in its launch, as a spawn is. -/
def sysPush (s : State) (core oid : Nat) (record : BitVec 512) (addr : Word) : State :=
  match levelAdd s outside oid (recLaunch record) with
  | .ok (true, s) =>
    let fid := (s.ownerSt oid).nextFid
    match pushDeque s core oid { record := record, addr := addr, startWit := 0, fid := fid } false with
    | some s => s.updOwner oid fun o => { o with nextFid := o.nextFid + 1 }
    | none => levelDrop s outside oid (recLaunch record) 0 false
  | _ => s

/-! ### Contexts that can go on -/

/-- Whether a context runs a firing that nothing stops: it may issue its next instruction. -/
def runnable (s : State) (c : CtxId) : Bool :=
  let k := s.ctxOf c
  k.life == .running && engineRuns s c.core && k.wait.isNone && (pendingCause s k).isNone

/-! ### The enabled events -/

/-- Something that may happen. -/
abbrev Happening := State → State

/-- What may happen to a context. -/
def readyCtx (s : State) (c : CtxId) : List Happening :=
  let k := s.ctxOf c
  if k.life != .running || !engineRuns s c.core then []
  else
    let regs : List Happening := (k.pend.filter fun p => pendReady s c p).map fun p => fun s => witnessArrives s c p.reg
    let next : List Happening := match pendingCause s k with
      | some .preempt => if (preemptCtx s c none true).1 == .waits then [] else [fun s => preempted s c]
      | some _ => [fun s => s.asCtx c boundaryTrap]
      | none =>
        match k.wait with
        | none => if c == s.cur then [] else [fun s => s.switchTo c]
        | some w =>
          (if waitOver s c w then [fun s => enqueueWait (wakeWait (pollWait (endWait s c) c) c) c] else []) ++
          (if (asideOf (s.switchTo c)).isSome then [fun s => setsAsideAt s c] else [])
    let late : List Happening := if (asideNext (s.switchTo c)).isSome then [fun s => asideGoes s c] else []
    regs ++ late ++ next

/-- What may happen to an access on its way. -/
def readyFlight (s : State) (f : Flight) : List Happening :=
  if f.turnedAway then [fun s => refusalArrives s f.id]
  else if homeGone s f then [fun s => lossArrives s f.id]
  else match f.path with
    | q :: _ => if waitsAt s q (mayApply s) f then [fun s => homeStep s f.id] else []
    | [] =>
      if mayStamp s f then [fun s => sequencerTakes s f.id]
      else if mayApply s f then [fun s => homeStep s f.id]
      else []

/-- What the engines of a core may do. -/
def readyCore (s : State) (core : Nat) (k : CoreSt) : List Happening :=
  let runs := engineRuns s core
  (if runs && k.slice.any (fun o => !o.started) then [fun s => gangExpires (startOp s core) core] else []) ++
  (if runs && ((k.slice.head?).map (·.started)) == some true then [fun s => completeOp s core] else []) ++
  (if !k.rampIdle && k.slice.isEmpty then [fun s => rampDown (holdEnds s core) core] else []) ++
  (if k.laneClearing then [fun s => laneCleared s core] else []) ++
  (if !k.annQueue.isEmpty then [fun s => announcing s core] else []) ++
  (if (retryPush s core).isSome then [fun s => (retryPush s core).getD s] else []) ++
  (([⟨core, 0⟩, ⟨core, 1⟩].filter (canDispatch s)).map fun c => fun s => dispatch s c) ++
  (if canSteal s core then [fun s => stealAsk s core] else [])

/-- What the copy engine of a cluster may do. -/
def readyCluster (s : State) (cluster : Nat) (k : ClusterSt) : List Happening :=
  (if !k.halted && k.copyQ.any (fun q => !q.started) then [fun s => copyBegins s cluster] else []) ++
  (k.copyQ.filter fun q => q.started && (if q.sent then copyDone s cluster q else !k.halted)).map fun q =>
    fun s => copyGoes s cluster q.tag

/-- What the units of a die may do. -/
def readyDie (s : State) (die : Nat) (d : DieSt) : List Happening :=
  (d.barriers.filter fun b => match b.2.started with
    | some t => atOrPast s.now (t + BitVec.ofNat 48 b.2.timeout)
    | none => false).map fun b => fun s => barrierExpires s die b.1

/-- What an owner's own events may be. -/
def readyOwner (s : State) (oid : Nat) (o : OwnerSt) : List Happening :=
  (if o.mpass.isSome && passOver s oid then [fun s => endPass s oid] else []) ++
  (if o.valid && !o.susp then (suspdSlots s oid).map fun p => fun s => resumeSuspended s oid p.1 else [])

/-- Events that replay has held (R413). -/
def readyHolds (s : State) : List Happening :=
  (heldNow s).map fun h => fun s => holdExpires s h.id

/-- Everything that may happen next. -/
def ready (s : State) : List Happening :=
  (if booting s then [bootStep] else []) ++
  (s.contexts.map fun p => readyCtx s p.1).flatten ++
  ((s.contexts.filter fun p => isGhost p.1 && !ghostBusy s p.1).map fun p => fun s => ghostGoes s p.1) ++
  (s.net.flight.map (readyFlight s)).flatten ++
  (if s.home.replLog.isEmpty then
      (if s.contexts.any fun p => (match p.2.wait with
        | some (.replica _ _) => true
        | _ => false) then [markReplicas] else [])
    else ((List.range 9).filter fun d => s.home.replLog.any fun r => r.dies.contains d).map fun d => fun s => replicaApply s d) ++
  (s.cores.map fun k => readyCore s k.1 k.2).flatten ++
  (s.clusters.map fun k => readyCluster s k.1 k.2).flatten ++
  (s.dies.map fun d => readyDie s d.1 d.2).flatten ++
  (s.owners.map fun o => readyOwner s o.1 o.2).flatten ++
  ((List.range s.net.inbound.length).filter (canArrive s)).map (fun i => fun s => deliver s i) ++
  (List.range s.home.fires.length).map (fun i => fun s => fireArrives s i) ++
  (List.range s.net.steals.length).map (fun i => fun s => stealAnswer s i) ++
  (List.range s.net.redispatch.length).map (fun i => fun s => redispatch s i) ++
  (List.range s.home.classChanges.length).map (fun i => fun s => classChanged s i) ++
  ((s.home.partials.filter fun p => p.evicted.isSome).map fun p => fun s => partialFolds s p.die p.place.line) ++
  (s.dev.inBusy.map fun w => fun s => inUnit s w) ++
  (if (inGoes s).isSome then [fun s => (inGoes s).getD s] else []) ++
  ((s.home.copies.filter fun k => !k.dirty && passed s.now k.expiry).map fun k => fun s => leaseEnds s k.at_ k.line) ++
  readyHolds s

/-- One of the things that may happen, chosen freely; nothing where none may (log entry 3). -/
def internalStep (s : State) : State :=
  match ready s with
  | [] => s
  | [h] => h s
  | h :: t => ((h :: t).getD (Config.choice s.tick % (t.length + 1)) h) s

/-! ### Time (R22, R341) -/

/-- Fabric time passes, the intervals of 2^UMINT ns that end in it are counted (R341), and what replay holds is noted (R413). -/
def passTime (s : State) : State :=
  let s := noteHolds s
  let dt := Config.elapsed s.tick
  let n := 2 ^ s.dev.umint.toNat
  { s with
    now := s.now + dt
    tick := s.tick + 1
    dev := { s.dev with intervals := s.dev.intervals + (s.now.toNat % n + dt.toNat) / n } }

end Sys2Proof.Machine
end

