-- ==== Sys2Proof/Machine/Step.lean ====
section
/-! DEFINITION. One step of the package (log entry 3), and the placing of an instruction for the next fetch. -/

namespace Sys2Proof.Machine

/-- Do something to the state that an outcome gives. -/
def onNext (o : Host.Outcome State Fault Refusal) (f : State → State) : Host.Outcome State Fault Refusal :=
  match o with
  | .next s => .next (f s)
  | .fault r => .fault r
  | .refused r => .refused r

/-- A turn of the plan: an event of the opcode table, another context's turn, or an act of the system cores. -/
def takeTurn (t : Turn) (s : State) : Host.Outcome State Fault Refusal :=
  match t with
  | .event i => if isEvent i then exec i s else .next s
  | .switch c => .next (s.switchTo c)
  | .sysStore pa data => .next (sysStore s pa data)
  | .sysPush core oid record addr => .next (sysPush s core oid record addr)
  | .sysGroup cluster group => .next (s.updCluster cluster fun k => { k with group := group })
  | .sysAperture i a => .next (s.onDev fun d => { d with apertures := tset d.apertures i a })
  | .sysTake n => .next (s.onDev fun d => { d with sysEvents := d.sysEvents.drop n })
  | .passHalt cluster on => .next (s.updCluster cluster fun k => { k with passHalt := on })
  | .debug host what => .next (s.answers (.data (debugRead s host what)))
  | .corrected u => .next (countCorrected s u)
  | .sample c va n => .next (samples s c va n)
  | .lag c => .next (lags s c)
  | .vector c r => .next (vectorAhead s c r)
  | .setAside c => .next (setsAsideAt s c)
  | .asideRuns c => .next (asideGoes s c)
  | .dmaFrames frames => .next (s.onDev fun d => { d with nvmeDma := frames })

/-- No trap is taken while an instruction that is to write memory is set aside: the instruction that would take it waits (log entry
37). -/
def heldBack (s : State) (o : Host.Outcome State Fault Refusal) : Host.Outcome State Fault Refusal :=
  match o with
  | .next t => if s.cx.holdsWrites && t.cx.trapped then finish s (.error (.wait .aside none)) else o
  | o => o

/-- The running context issues and executes its next instruction. -/
def runInstr (s : State) : Host.Outcome State Fault Refusal :=
  if s.cx.holdsWrites && (s.cx.preempt || trapWaits s s.cx) then finish s (.error (.wait .aside none))
  else match issue s with
  | .stop o => onNext (heldBack s o) (settle false s)
  | .run i t => onNext (heldBack t (exec i t)) (settle (predicted i) s)
  | .blocked i t e => onNext (heldBack t (blockedEnds i t e (exec i (unstreamed t)))) (settle false s)

/-- The running context takes what is pending at its boundary, goes on with its program, or lets something else happen. -/
def proceed (s : State) : Host.Outcome State Fault Refusal :=
  if s.cx.life == .running && engineRuns s s.cur.core then
    match pendingCause s s.cx with
    | some .preempt => .next (if (preemptCtx s s.cur none true).1 == .waits then internalStep s else preempted s s.cur)
    | some _ => .next (boundaryTrap s)
    | none =>
      match s.cx.wait with
      | some _ => .next (if setsAside s then setAside s else internalStep s)
      | none => runInstr (collectCopies s)
  else .next (internalStep s)

/-- Whether the next turn of the plan is the end of an interval at a slice. -/
def intervalNext (s : State) : Bool :=
  match s.plan with
  | .event (.quotaInterval _ _ _) :: _ => true
  | _ => false

/-- What happens in one step: a fatal fault of a group that is due (R402), the announcements of a window whose time has come
(R216: every core applies them at that time), the ends of intervals that slices have to meet (R341), the first turn of the plan,
or the running context's next instruction. A package without power, or one that boot has left in ROM, executes nothing. -/
def act (s : State) : Host.Outcome State Fault Refusal :=
  if !s.powered then .fault .noPower
  else match s.clusters.find? fun c => c.2.fatal with
  | some c => .next (groupFault s c.1)
  | none =>
    if (dueWindow s).isSome then .next (applyWindow s)
    else if quotaDue s && !intervalNext s then .next (endIntervals s)
    else match s.plan with
    | t :: rest => takeTurn t { s with plan := rest }
    | [] => if 256 ≤ s.bootst.toNat then .fault .staysInRom else proceed s

/-- One step of the package; fabric time passes with it. -/
def step (s : State) : Host.Outcome State Fault Refusal := onNext (act s) passTime

/-- The state in which the very next step fetches and runs the instruction whose table bits are `w`: owner 0's firing runs
in context F0 of core 0 of a booted package, in S mode, at address 0, and the first-level TLB maps its page to frame 0 as an
SM page that may be read, written and executed (log entry 14). -/
def State.withFetchWord (s : State) (nbits w : Nat) : State :=
  let e : Word := BitVec.ofNat 64 (2 ^ 63 + 2 * 2 ^ 60 + 2 ^ 55 + 2 ^ 54 + 2 ^ 53 + 2 ^ 52)
  let c : CtxId := ⟨0, 0⟩
  let s := { s with
    powered := true
    bootst := 7
    plan := []
    cur := c
    parked := s.parked.filter fun p => p.1 != c
    cx := { life := .running, crs := { cmode := true } }
    mem := memWrite s.mem 0 (bytesOfWords (tableWords nbits w)) }
  s.updCore 0 fun k => { k with tlb1 := ⟨0, 0, 0, e, 0⟩ :: k.tlb1.filter fun t => !(t.oid == 0 && t.level == 0 && t.vpage == 0) }

end Sys2Proof.Machine
end

