-- ==== Sys2Proof/Safety.lean ====
section
/-! DEFINITION. What counts as a safe run, and the terms in which claims speak of what an instruction changes. -/

namespace Sys2Proof

/-- A run from `s` is safe for `k` steps: no step ends in a fault or a refusal. -/
def SafeFor (k : Nat) (s : Machine.State) : Prop := ∃ t, core.run k s = .next t

/-- A run from `s` is safe: it never ends in a fault or a refusal. -/
def Safe (s : Machine.State) : Prop := ∀ k, SafeFor k s

/-- A context's firing has not been lost or trapped without a handler: it still runs. -/
def Alive (s : Machine.State) (c : CtxId) : Prop := (s.ctxOf c).life = .running

namespace Claim

open Machine

/-- An outcome is a next state, and that state has the property. -/
def Completes (o : Out) (p : State → Prop) : Prop := ∃ t, o = .next t ∧ p t

/-- An outcome is exactly this next state. -/
def Goes (o : Out) (t : State) : Prop := o = .next t

/-- The running context goes on at the next instruction with scalar register `d` holding `w`, where x0 stays zero (R16).
Every other scalar register, every vector, mask and tile register, every control register, the firing's own state, every
other context, all of memory and the rest of the package are as before; only a pending entry of `d` is gone (R196), as may be
an earlier load into it that has not taken effect (R203). `known` and `wrote` are the model's own notes of when registers
stand. -/
structure WritesX (s t : State) (d : XReg) (w : Word) : Prop where
  value : t.getX d = if d = 0 then 0 else w
  others : ∀ q, q ≠ d → t.getX q = s.getX q
  pending : t.cx.pend = if d = 0 then s.cx.pend else s.cx.pend.filter fun p => p.reg != d
  late : ∀ l ∈ t.cx.late, l ∈ s.cx.late
  stays : ∀ l ∈ s.cx.late, l.dest.isX d = false → l ∈ t.cx.late
  next : t.cx.pc = s.cx.npc
  rest : t = { s with cx := { s.cx with
    x := t.cx.x, pend := t.cx.pend, pc := t.cx.pc, known := t.cx.known, late := t.cx.late, wrote := t.cx.wrote } }

/-- The running context goes on at the next instruction with mask register `d` holding `w`, where m0 stays all ones
(R16), and sticky flags `fl` raised in FSTAT; nothing else differs. -/
structure WritesM (s t : State) (d : MReg) (w : Word) (fl : Word) : Prop where
  value : t.getM d = if d = 0 then BitVec.allOnes 64 else w
  others : ∀ q, q ≠ d → t.getM q = s.getM q
  flags : t.cx.crs = { s.cx.crs with fstat := s.cx.crs.fstat ||| fl }
  next : t.cx.pc = s.cx.npc
  rest : t = { s with cx := { s.cx with m := t.cx.m, crs := t.cx.crs, pc := t.cx.pc, known := t.cx.known } }

/-- The running context goes on at the next instruction with vector register `d` holding `w` and sticky flags `fl`
raised in FSTAT; nothing else differs. -/
structure WritesV (s t : State) (d : VReg) (w : Vec) (fl : Word) : Prop where
  value : t.getV d = w
  others : ∀ q, q ≠ d → t.getV q = s.getV q
  flags : t.cx.crs = { s.cx.crs with fstat := s.cx.crs.fstat ||| fl }
  late : ∀ l ∈ t.cx.late, l ∈ s.cx.late
  stays : ∀ l ∈ s.cx.late, l.dest.isV d = false → l ∈ t.cx.late
  next : t.cx.pc = s.cx.npc
  rest : t = { s with cx := { s.cx with
    v := t.cx.v, crs := t.cx.crs, pc := t.cx.pc, known := t.cx.known, late := t.cx.late, wrote := t.cx.wrote } }

/-- An instruction takes trap `c` at itself, with the values that the rule of the cause names for TADDR and TVAL (R382);
a helper context stops instead (R293). -/
def Traps (o : Out) (s : State) (c : Cause) (addr val : Option Word) : Prop :=
  o = .next (if s.cur.which = 2 then stopHelper s s.cur.core
    else takeTrap (s.onCx fun k => { k with trapped := true }) c false addr val s.cx.pc)

/-- An instruction waits: it stays at its address, and nothing else differs (R303); for a replica it keeps the stamp to which its
witness was judged (R193). -/
def Waits (o : Out) (s : State) (w : Wait) : Prop :=
  o = .next (s.onCx fun k =>
    { k with
      wait := some w
      judged := match w with
        | .replica st _ => some (some st)
        | _ => k.judged })

/-- Nothing differs but the place at which the running context goes on. -/
def OnlyPc (s t : State) (pc : Word) : Prop := t = { s with cx := { s.cx with pc := pc } }

/-- The low bits of a word at a scalar size (R122). -/
def low (sz : Size) (w : Word) : BitVec (Size.bits sz) := w.setWidth (Size.bits sz)
/-- A result at a scalar size, sign-extended to 64 bits (R122). -/
def widen (sz : Size) (v : BitVec (Size.bits sz)) : Word := v.signExtend 64
/-- A compare result (R125). -/
def flag (p : Prop) [Decidable p] : Word := if p then 1 else 0

/-- Element `i` of a vector register at an element size (R71). -/
def el (sz : VSize) (v : Vec) (i : Nat) : BitVec (VSize.bits sz) := v.extractLsb' (VSize.bits sz * i) (VSize.bits sz)

/-- Whether the mask leaves lane `i` active (R72). -/
def on (s : State) (mk : MReg) (i : Nat) : Bool := (s.getM mk).getLsbD i

/-- The OR of the flags of the active lanes among the first `n` (R135). -/
def raised (s : State) (n : Nat) (mk : MReg) (fl : Nat → Nat) : Word :=
  ((List.range n).filter (on s mk)).foldl (fun a i => a ||| BitVec.ofNat 64 (fl i)) 0

/-- The active lanes of vector register `d` hold `val`, its other lanes are as they were, and FSTAT gains the flags of the
active lanes (R72, R135); nothing else differs but the place at which the context goes on. -/
def WritesLanes (s t : State) (d : VReg) (sz : VSize) (mk : MReg) (val : Nat → BitVec (VSize.bits sz)) (fl : Nat → Nat) :
    Prop :=
  ∃ w, WritesV s t d w (raised s (512 / VSize.bits sz) mk fl) ∧
    ∀ i < 512 / VSize.bits sz, el sz w i = if on s mk i then val i else el sz (s.getV d) i

/-- The active bits of mask register `d` hold `val`, its other bits below `n` are as they were, its bits from `n` are zero,
and FSTAT gains the flags of the active lanes (R72, R143, R153); m0 stays all ones. -/
def WritesBits (s t : State) (d : MReg) (n : Nat) (mk : MReg) (val : Nat → Bool) (fl : Nat → Nat) : Prop :=
  ∃ w, WritesM s t d w (raised s n mk fl) ∧
    ∀ i < 64, w.getLsbD i = (decide (i < n) && if on s mk i then val i else (s.getM d).getLsbD i)

/-- Lane 0 of vector register `d` holds `val`, active or not, its other lanes are as they were, and FSTAT gains `fl`
(R152). -/
def WritesLane0 (s t : State) (d : VReg) (sz : VSize) (val : BitVec (VSize.bits sz)) (fl : Nat) : Prop :=
  ∃ w, WritesV s t d w (BitVec.ofNat 64 fl) ∧
    ∀ i < 512 / VSize.bits sz, el sz w i = if i = 0 then val else el sz (s.getV d) i

/-- An exact integer at `w` bits: wrapped, or clamped to the signed range (R93). -/
def narrow (sat : Bool) (w : Nat) (z : Int) : BitVec w :=
  BitVec.ofInt w (if sat then max (-(2 ^ (w - 1))) (min (2 ^ (w - 1) - 1) z) else z)
/-- SAT of FSTAT where a clamp changes the value (R93). -/
def satFlag (sat : Bool) (w : Nat) (z : Int) : Nat :=
  if sat = true ∧ ¬(-(2 ^ (w - 1)) ≤ z ∧ z ≤ 2 ^ (w - 1) - 1) then 32 else 0

/-- `r` is z / 2^k rounded to an integer in a mode (R98, R99). -/
def Rounds (m : RMode) (z : Int) (k : Nat) (r : Int) : Prop :=
  let d := r * 2 ^ k - z
  match m with
  | .rne => 2 * d.natAbs ≤ 2 ^ k ∧ (2 * d.natAbs = 2 ^ k → k ≠ 0 → r % 2 = 0)
  | .rtz => d.natAbs < 2 ^ k ∧ (0 ≤ z → d ≤ 0) ∧ (z ≤ 0 → 0 ≤ d)
  | .rdn => d.natAbs < 2 ^ k ∧ d ≤ 0
  | .rup => d.natAbs < 2 ^ k ∧ 0 ≤ d
  | .rna => 2 * d.natAbs ≤ 2 ^ k ∧ (2 * d.natAbs = 2 ^ k → (0 ≤ z → 0 ≤ d) ∧ (z ≤ 0 → d ≤ 0))

/-! ### Memory -/

/-- The page that the first-level TLB of the running core holds for an address below 2^56, under the class that is in effect for it
(R28). -/
abbrev Holds (s : State) (va : Word) (l : Leaf) : Prop :=
  va.toNat < 2 ^ 56 ∧ (tlbLookup (s.coreSt s.coreNo).tlb1 s.oid va).map
    (fun (t : TlbEntry) => underOld s s.oid va ⟨t.entry, t.level, t.entryPa, leafPa t.entry t.level va⟩) = some l

/-- The page that an access of `n` bytes reaches through the first-level TLB of its core, under the class that is in effect
for it (R28), every check of R221 before POISON passed. -/
structure Reaches (s : State) (va : Word) (n : Nat) (k : Kind) (l : Leaf) : Prop where
  page : Holds s va l
  aligned : va.toNat % n = 0
  unsealed : sealOk s s.who l.entry l.pa = true
  allowed : permOk s.who k l.entry = true
  known : l.cls.toNat < 5
  window : inWindow l.pa = true → l.cls = clsSm
  anchor : l.cls = clsCr → entryFmt l.entry = 3 → entryAnchor l.entry = 0

/-- The first check of R221 before POISON that an access of `n` bytes fails is that of `cause`, which gives TVAL `val`: ALIGN,
XLATE of an address beyond 56 bits, SEALED, PERM, CLASS of a reserved class or of a window that is not SM, CRFMT of an integer page
with an anchor. -/
def Fails (s : State) (va : Word) (n : Nat) (k : Kind) (cause : Cause) (val : Option Word) : Prop :=
  (va.toNat % n ≠ 0 ∧ cause = .align ∧ val = none) ∨
  (va.toNat % n = 0 ∧ 2 ^ 56 ≤ va.toNat ∧ cause = .xlate ∧ val = some 0) ∨
  (va.toNat % n = 0 ∧ val = none ∧ ∃ l, Holds s va l ∧
    ((sealOk s s.who l.entry l.pa = false ∧ cause = .sealed) ∨
     (sealOk s s.who l.entry l.pa = true ∧ permOk s.who k l.entry = false ∧ cause = .perm) ∨
     (sealOk s s.who l.entry l.pa = true ∧ permOk s.who k l.entry = true ∧
       (((5 ≤ l.cls.toNat ∨ (inWindow l.pa = true ∧ l.cls ≠ clsSm)) ∧ cause = .class_) ∨
        (l.cls = clsCr ∧ inWindow l.pa = false ∧ entryFmt l.entry = 3 ∧ entryAnchor l.entry ≠ 0 ∧ cause = .crfmt)))))

/-- No instruction that the running context has set aside touches bytes (R203). -/
abbrev AsideClear (s : State) (pa n : Nat) : Prop := (s.cx.aside.any fun a => a.touch.any fun t => overlaps t.1 t.2 pa n) = false

/-- No access of the running context itself to bytes comes before one that it makes now: none is on its way, and no instruction that
it has set aside touches them (R203). -/
abbrev InTurn (s : State) (pa n : Nat) : Prop := ownFlight s s.cur pa n = none ∧ AsideClear s pa n

/-- A line of an SM page in the package that a read of the running context finds at its home: not marked (R396), and no access
of the context itself to the bytes comes first (R203). -/
def AtHome (s : State) (l : Leaf) (n : Nat) : Prop :=
  l.cls = clsSm ∧ inWindow l.pa = false ∧ marked s l.owner l.line = false ∧ InTurn s l.pa n

/-- The bytes at an address as the running firing sees them: those of memory under its own staged stores (R215). -/
def seen (s : State) (pa n : Nat) : List Byte :=
  if s.cx.staged then overlayStaged s.cx.staging pa (memRead s.mem pa n) else memRead s.mem pa n

/-- The bytes at hand for a read of a page that is no CR page, where it is answered at once: SM at its home, PRIV and RO from a
copy of the L1 that the witness does not rule out, REPL from the replica of the die once it has reached the witness (R200,
R207, R210 to R212). -/
def Shows (s : State) (l : Leaf) (n : Nat) (wit : Option Stamp) (bs : List Byte) : Prop :=
  (AtHome s l n ∧ bs = seen s l.pa n) ∨
  ((l.cls = clsPriv ∨ l.cls = clsRo) ∧ InTurn s l.pa n ∧ marked s l.owner l.line = false ∧
    ∃ k, presentCopy s (.l1 s.coreNo) l.line wit = some k ∧ bs = lineBytes k.data (l.pa % 128) n) ∨
  (l.cls = clsRepl ∧ marked s l.owner (replicaPa l.pa s.dieNo / 128) = false ∧ InTurn s l.pa n ∧
    ownRepl s s.cur l.pa n = none ∧ (∀ w, wit = some w → after (s.dieSt s.dieNo).replMark w = false) ∧
    bs = (if s.cx.staged then overlayStaged s.cx.staging l.pa (memRead s.mem (replicaPa l.pa s.dieNo) n)
      else memRead s.mem (replicaPa l.pa s.dieNo) n))

/-- What a load gives where `bs` are the bytes at hand: what the context has read ahead of it, no earlier than everything that
the instruction reads stood, and else those (R203). -/
def ahead (s : State) (va : Word) (n : Nat) (wit : Option Stamp) (bs : List Byte) : List Byte :=
  (aheadBytes s.cx va n wit bs s.tick).1

/-- A load gives in each aligned unit (R202) the bytes at hand, or others that the context has read ahead (R203). -/
def Gives (s : State) (va : Word) (n : Nat) (hand bs : List Byte) : Prop :=
  bs.length = hand.length ∧ ∀ i < n / unitOf n,
    let unit := fun (b : List Byte) => (b.drop (unitOf n * i)).take (unitOf n)
    unit bs = unit hand ∨ ∃ e ∈ s.cx.early, e.va = va + BitVec.ofNat 64 (unitOf n * i) ∧ e.bytes.length = unitOf n ∧
      s.cx.ready ≤ e.tick ∧ unit bs = e.bytes

/-- The bytes of an element of CR memory as a four-byte load of the running context reads them: its rounded value in the line that the
context has read ahead, or in the line as it is (R173, R188, R203). -/
def crBytesOf (s : State) (l : Leaf) (va : Word) : List Byte :=
  let p := crPlace l va
  let value := fun (ln : CrLine) => leBytes 4 ((lget {} ln.elems (crElem va)).value p).1
  match s.cx.sampledCr p.key with
  | some (line, _) => value (crOver s p line)
  | none => ahead s va 4 none (value (crView s p))

/-- A line of CR memory as an instruction of the running context with a judged witness reads it: as the context has read it ahead
where the witness asks for nothing, or as it is (R173, R203). -/
def crSeen (s : State) (p : CrPlace) (wit : Option Stamp) : CrLine :=
  match (s.cx.sampledCr p.key).filter fun _ => wit.isNone with
  | some (line, _) => crOver s p line
  | none => crView s p

/-- A flight but for how far it has come through the queues, where those who pass them make it older or let it go on (R334). -/
def sameButPlace (f : Flight) : Flight := { f with path := [], age := 0, came := 0, fetched := false }

/-- What is on its way is what was, but for its places in the queues. -/
def QueuesPass (s t : State) : Prop :=
  t.net = { s.net with flight := t.net.flight } ∧ t.net.flight.map sameButPlace = s.net.flight.map sameButPlace

/-- What a read leaves: all of memory, what is on its way but for its places in the queues, every register, flag, control register
and other context, the buffers and everything else, but for the caches' tags, the counters of events, of draws and of response
times, the seal of a frame, and what was read ahead of the bytes. -/
structure Reads (s t : State) : Prop where
  context : t.cx = { s.cx with dacc := t.cx.dacc, early := t.cx.early, wrote := t.cx.wrote }
  package : t = { s with cx := t.cx, cores := t.cores, dies := t.dies, owners := t.owners, home := t.home
                         net := { s.net with flight := t.net.flight } }
  flights : t.net.flight.map sameButPlace = s.net.flight.map sameButPlace
  home : t.home = { s.home with copies := t.home.copies, sealTags := t.home.sealTags }
  owners : ∀ o, t.ownerSt o = { s.ownerSt o with ctr := (t.ownerSt o).ctr }
  dies : ∀ d, t.dieSt d = { s.dieSt d with farQuotas := (t.dieSt d).farQuotas }
  cores : ∀ c, t.coreSt c = { s.coreSt c with perf := (t.coreSt c).perf }

/-- What loads leave: as reads do; and where the context's next loads are to take effect later, they are on their way besides
(R203). -/
def Loads (s t : State) : Prop :=
  ∃ u fs ls, Reads s u ∧ t = { u with
      cx := { u.cx with late := u.cx.late ++ ls }
      net := { u.net with flight := u.net.flight ++ fs, nextId := u.net.nextId + fs.length } } ∧
    (∀ f ∈ fs, f.isLoad = true ∧ f.ctx = s.cur) ∧ (s.cx.lag = false → fs = [] ∧ ls = [])

/-- A store, an atomic or another access of the running context as it leaves for its home, or for the sequencer die (R189,
R203, R210). -/
def flightOf (s : State) (id : Nat) (kind : FlightKind) (va : Word) (l : Leaf) (sc : Scope) (earlier : Bool) : Flight :=
  { id := id, first := s.cx.firstId, ctx := s.cur, oid := s.oid, kind := kind, va := va, pa := l.pa, owner := l.owner,
    scope := sc, pc := s.cx.pc, wit := 0, earlier := earlier, ev := s.cx.evIdx, age := 0, came := s.tick, issued := s.now,
    path := match kind with
      | .repl _ => (portsTo s (startDie s.cur) s.dev.seqDie).map fun p => (0, p)
      | .pclr cls none =>
        if cls == clsRepl then (portsTo s (startDie s.cur) s.dev.seqDie).map fun p => (0, p) else pathTo s s.cur l.owner l.pa
      | .priv _ _ => []
      | _ => pathTo s s.cur l.owner l.pa
    state := .onWay }

/-- Register `r` waits for the witness of every write numbered below `mark` (R196); x0 discards it. -/
def waitsFor (s : State) (r : XReg) (mark : Nat) (sc : Scope) (null : Bool) : List Pend :=
  if r = 0 then s.cx.pend
  else s.cx.pend.filter (fun p => p.reg != r) ++
    [{ reg := r, mark := mark, own := s.cx.firstId, stamp := s.cx.runMax, scope := sc, null := null }]

/-- The accesses `fs` of the running context are on their way after those that already were, and it goes on; memory is as
it was, and so is every register but that the pending ones are `pend`. What was read ahead of the bytes is forgotten. -/
def Sends (s t : State) (fs : List Flight) (pend : List Pend) : Prop :=
  t = { s with
    cx := { s.cx with pc := s.cx.npc, pend := pend, early := t.cx.early }
    net := { s.net with flight := s.net.flight ++ fs, nextId := s.net.nextId + fs.length }
    home := { s.home with sealTags := t.home.sealTags } }

/-- No dirty copy is held by the running context, so that its PRIV stores are delivered at every scope (R197). -/
def Clean (s : State) : Prop := ∀ k ∈ s.home.copies, k.dirty = true → k.holder ≠ some s.cur

/-- Every write that the running context has issued is delivered at a scope (R196, R197). -/
def Delivered (s : State) (sc : Scope) : Prop := delivered s s.cur s.net.nextId sc = true ∧ Clean s

/-- The state in which every write of the running context that has left the package at a scope bears the fabric time at which it
counts (R269; log entry 43). -/
def Counted (s : State) (sc : Scope) : State := s.stampLeft s.cur s.net.nextId sc

/-- The level engine of the running core reaches a level's entry in the table of an owner, through the first-level TLB of the
core (R286, R303). -/
structure LevelAt (s : State) (oid idx : Nat) (l : Leaf) : Prop where
  low : (levelVa s oid idx).toNat < 2 ^ 56
  held : (tlbLookup (s.coreSt s.coreNo).tlb1 oid (levelVa s oid idx)).map
    (fun (t : TlbEntry) => underOld s oid (levelVa s oid idx)
      ⟨t.entry, t.level, t.entryPa, leafPa t.entry t.level (levelVa s oid idx)⟩) = some l
  unsealed : sealOk s ⟨oid, true, s.coreNo, false⟩ l.entry l.pa = true
  known : l.cls.toNat < 5
  window : inWindow l.pa = true → l.cls = clsSm
  whole : marked s l.owner l.line = false

/-- The same of every level of an owner, in pages that are not sealed. -/
def TableReady (s : State) (oid : Nat) : Prop := ∀ i < 4096, ∃ l, LevelAt s oid i l ∧ entrySealed l.entry = false

/-- The two halves of a level's entry as they stand in memory. -/
def levelLo (s : State) (l : Leaf) : Word := BitVec.ofNat 64 (leNat ((memRead s.mem l.pa 16).take 8))
def levelWit (s : State) (l : Leaf) : Word := BitVec.ofNat 64 (leNat ((memRead s.mem l.pa 16).drop 8))
/-- Memory with a level's entry written. -/
def levelMem (m : List Host.Cell) (l : Leaf) (lo wit : Word) : List Host.Cell := memWrite m l.pa (leBytes 8 lo.toNat ++ leBytes 8 wit.toNat)

/-- A record of eight doublewords lies in SM memory at an aligned address that the running context reaches (R276), none of which
it has read ahead. -/
def RecordAt (s : State) (va : Word) (r : BitVec 512) : Prop :=
  va.toNat % 64 = 0 ∧ s.cx.early = [] ∧ ∃ leaf : Nat → Leaf,
    (∀ i < 8, Reaches s (va + BitVec.ofNat 64 (8 * i)) 8 .r (leaf i) ∧ AtHome s (leaf i) 8 ∧
      entrySealed (leaf i).entry = false) ∧
    r = BitVec.ofNat 512 (leNat ((List.range 8).map fun i => seen s (leaf i).pa 8).flatten)

/-- Two scalar registers are written in turn, and the context goes on. -/
def WritesPair (s t : State) (a c : XReg) (v w : Word) : Prop := ∃ u, WritesX s u a v ∧ WritesX u t c w

/-- The shared frame of reads by an engine of the Langor: no register and no byte of memory changes, and nothing on its way but for
its places in the queues. -/
def Untouched (s t : State) : Prop :=
  t.cx = { s.cx with dacc := t.cx.dacc } ∧ t.cur = s.cur ∧ t.mem = s.mem ∧
  QueuesPass s t ∧ t.parked = s.parked ∧ t.now = s.now ∧ t.dev = s.dev

/-- The running context goes on with its scalar, vector, mask and tile registers and its control registers as they were. -/
def KeepsRegs (s t : State) : Prop :=
  t.cx.x = s.cx.x ∧ t.cx.v = s.cx.v ∧ t.cx.m = s.cx.m ∧ t.cx.t = s.cx.t ∧ t.cx.crs = s.cx.crs ∧ t.cx.pc = s.cx.npc

/-- The words `ws` are fetched in turn from address `va`, after the words `ns` of the chain, and `t` is the state after the
last (R41, R45). -/
def Fetched : State → Word → List Half → List Half → State → Prop
  | s, _, _, [], t => t = s
  | s, va, ns, w :: ws, t => ∃ u, fetchWord s va = .ok (w, u) ∧
      Fetched (u.onCx fun k => { k with npc := va + 2, chain := chainWord (ns ++ [w]) }) (va + 2) (ns ++ [w]) ws t

/-- The running firing is in S mode and may name an owner: owner 0 any valid one, another only itself (R356). -/
def MayName (s : State) (oid : Nat) : Prop :=
  s.cx.crs.cmode = true ∧ if s.oid = 0 then (s.ownerSt oid).valid = true else oid = s.oid

end Claim
end Sys2Proof
end

