-- ==== Sys2Proof/Certificates/Slice0/Obligations.lean ====
section
/-! DEFINITION. The statements for the provers. Each docstring names the rules of spec/ that the statement formalises. -/

open Sys2Proof Sys2Proof.Machine Sys2Proof.Claim

/-! ### Page 0: moves, integers, bits (R124 to R129, R134, R227, R228) -/

/-- R124, R125: NOP only passes; MOV, LI, LIH and the bitwise operations write their destination and nothing else; and
so do SEL (R129) and the immediate forms ANDI and ORI (R127).
R134, R228: MRD and MWR move 64 bits between a mask and a scalar register, and TIME reads fabric
time, zero-extended. -/
def Obligations.MovesAndLogic : Prop :=
  (∀ (s : State) (d l r : XReg) (imm : Word),
     Completes (exec .nop s) (fun t => OnlyPc s t s.cx.npc) ∧
     Completes (exec (.mov d l) s) (fun t => WritesX s t d (s.getX l)) ∧
     Completes (exec (.li d imm) s) (fun t => WritesX s t d imm) ∧
     Completes (exec (.lih d imm) s) (fun t =>
       WritesX s t d ((imm.setWidth 32).setWidth 64 <<< 32 ||| ((s.getX d).setWidth 32).setWidth 64)) ∧
     Completes (exec (.and d l r) s) (fun t => WritesX s t d (s.getX l &&& s.getX r)) ∧
     Completes (exec (.or d l r) s) (fun t => WritesX s t d (s.getX l ||| s.getX r)) ∧
     Completes (exec (.xor d l r) s) (fun t => WritesX s t d (s.getX l ^^^ s.getX r)) ∧
     Completes (exec (.andi d imm) s) (fun t => WritesX s t d (s.getX d &&& imm)) ∧
     Completes (exec (.ori d imm) s) (fun t => WritesX s t d (s.getX d ||| imm)) ∧
     Completes (exec (.sel d l r) s) (fun t => WritesX s t d (if s.getX d = 0 then s.getX r else s.getX l))) ∧
  (∀ (s : State) (d : XReg) (m : MReg),
     Completes (exec (.mrd d m) s) (fun t => WritesX s t d (s.getM m)) ∧
     Completes (exec (.mwr m d) s) (fun t => WritesM s t m (s.getX d) 0) ∧
     Completes (exec (.time d) s) (fun t => WritesX s t d (BitVec.ofNat 64 s.now.toNat)))

/-- R122, R125, R127: ADD, SUB, MUL and ADDI work modulo 2^w on the low w bits of their operands, and the result is
sign-extended.
R125: MULH and MULHU write the upper half of the product of twice the width, of the sign-extended or zero-extended
operands. -/
def Obligations.SumsAndProducts : Prop :=
  (∀ (s : State) (d l r : XReg) (sz : Size) (imm : Word),
     Completes (exec (.add d l r sz) s) (fun t => WritesX s t d (widen sz (low sz (s.getX l) + low sz (s.getX r)))) ∧
     Completes (exec (.sub d l r sz) s) (fun t => WritesX s t d (widen sz (low sz (s.getX l) - low sz (s.getX r)))) ∧
     Completes (exec (.mul d l r sz) s) (fun t => WritesX s t d (widen sz (low sz (s.getX l) * low sz (s.getX r)))) ∧
     Completes (exec (.addi d sz imm) s) (fun t => WritesX s t d (widen sz (low sz (s.getX d) + low sz imm)))) ∧
  (∀ (s : State) (d l r : XReg) (sz : Size),
     let w := Size.bits sz
     Completes (exec (.mulh d l r sz) s) (fun t => WritesX s t d
       (widen sz (((low sz (s.getX l)).signExtend (2 * w) * (low sz (s.getX r)).signExtend (2 * w)).extractLsb' w w))) ∧
     Completes (exec (.mulhu d l r sz) s) (fun t => WritesX s t d
       (widen sz (((low sz (s.getX l)).setWidth (2 * w) * (low sz (s.getX r)).setWidth (2 * w)).extractLsb' w w))))

/-- R126: division by zero gives the all-ones quotient and the dividend as remainder; the most negative number divided by
−1 gives itself and 0; else the quotient is truncated towards zero and the remainder takes the sign of the dividend. None
of the four traps. -/
def Obligations.Division : Prop :=
  ∀ (s : State) (d l r : XReg) (sz : Size),
    let w := Size.bits sz
    let a := low sz (s.getX l)
    let b := low sz (s.getX r)
    (b = 0 →
      Completes (exec (.div d l r sz) s) (fun t => WritesX s t d (BitVec.allOnes 64)) ∧
      Completes (exec (.divu d l r sz) s) (fun t => WritesX s t d (BitVec.allOnes 64)) ∧
      Completes (exec (.rem d l r sz) s) (fun t => WritesX s t d (widen sz a)) ∧
      Completes (exec (.remu d l r sz) s) (fun t => WritesX s t d (widen sz a))) ∧
    (a.toInt = -(2 ^ (w - 1)) → b.toInt = -1 →
      Completes (exec (.div d l r sz) s) (fun t => WritesX s t d (widen sz a)) ∧
      Completes (exec (.rem d l r sz) s) (fun t => WritesX s t d 0)) ∧
    (b ≠ 0 → ¬(a.toInt = -(2 ^ (w - 1)) ∧ b.toInt = -1) → ∃ q m : Int,
      a.toInt = q * b.toInt + m ∧ m.natAbs < b.toInt.natAbs ∧ (0 ≤ a.toInt → 0 ≤ m) ∧ (a.toInt ≤ 0 → m ≤ 0) ∧
      Completes (exec (.div d l r sz) s) (fun t => WritesX s t d (widen sz (BitVec.ofInt w q))) ∧
      Completes (exec (.rem d l r sz) s) (fun t => WritesX s t d (widen sz (BitVec.ofInt w m)))) ∧
    (b ≠ 0 → ∃ q m : Nat, a.toNat = q * b.toNat + m ∧ m < b.toNat ∧
      Completes (exec (.divu d l r sz) s) (fun t => WritesX s t d (widen sz (BitVec.ofNat w q))) ∧
      Completes (exec (.remu d l r sz) s) (fun t => WritesX s t d (widen sz (BitVec.ofNat w m))))

/-- R125, R127: shifts and ROTL take their amount modulo the width; the immediate shifts take an amount below the width,
and any other raises ILLEGAL, with the first four words of the chain in TVAL (R456). -/
def Obligations.Shifts : Prop :=
  ∀ (s : State) (d l r : XReg) (sz : Size) (imm : Word),
    let w := Size.bits sz
    let n := (low sz (s.getX r)).toNat % w
    let k := imm.toNat
    Completes (exec (.shl d l r sz) s) (fun t => WritesX s t d (widen sz (low sz (s.getX l) <<< n))) ∧
    Completes (exec (.shr d l r sz) s) (fun t => WritesX s t d (widen sz (low sz (s.getX l) >>> n))) ∧
    Completes (exec (.sra d l r sz) s) (fun t => WritesX s t d (widen sz ((low sz (s.getX l)).sshiftRight n))) ∧
    Completes (exec (.rotl d l r sz) s) (fun t => WritesX s t d (widen sz ((low sz (s.getX l)).rotateLeft n))) ∧
    (k < w →
      Completes (exec (.shli d sz imm) s) (fun t => WritesX s t d (widen sz (low sz (s.getX d) <<< k))) ∧
      Completes (exec (.shri d sz imm) s) (fun t => WritesX s t d (widen sz (low sz (s.getX d) >>> k))) ∧
      Completes (exec (.srai d sz imm) s) (fun t => WritesX s t d (widen sz ((low sz (s.getX d)).sshiftRight k)))) ∧
    (w ≤ k →
      Traps (exec (.shli d sz imm) s) s .illegal none (some s.cx.chain) ∧
      Traps (exec (.shri d sz imm) s) s .illegal none (some s.cx.chain) ∧
      Traps (exec (.srai d sz imm) s) s .illegal none (some s.cx.chain))

/-- R125, R127: the lesser and greater and the compares, signed and unsigned, on the low w bits; a compare writes 0 or 1,
and SLTI compares integers.
R128: CLZ writes the number of leading zeros of the low w bits, w when all are zero, and POPC the number of ones. -/
def Obligations.ComparesAndCounts : Prop :=
  (∀ (s : State) (d l r : XReg) (sz : Size) (imm : Word),
     let a := low sz (s.getX l)
     let b := low sz (s.getX r)
     Completes (exec (.min d l r sz) s) (fun t => WritesX s t d (widen sz (if a.slt b then a else b))) ∧
     Completes (exec (.max d l r sz) s) (fun t => WritesX s t d (widen sz (if a.slt b then b else a))) ∧
     Completes (exec (.minu d l r sz) s) (fun t => WritesX s t d (widen sz (if a.ult b then a else b))) ∧
     Completes (exec (.maxu d l r sz) s) (fun t => WritesX s t d (widen sz (if a.ult b then b else a))) ∧
     Completes (exec (.seq d l r sz) s) (fun t => WritesX s t d (flag (a = b))) ∧
     Completes (exec (.slt d l r sz) s) (fun t => WritesX s t d (flag (a.slt b))) ∧
     Completes (exec (.sltu d l r sz) s) (fun t => WritesX s t d (flag (a.ult b))) ∧
     Completes (exec (.slti d sz imm) s) (fun t => WritesX s t d (flag ((low sz (s.getX d)).toInt < imm.toInt)))) ∧
  (∀ (s : State) (d l : XReg) (sz : Size),
     let w := Size.bits sz
     let a := low sz (s.getX l)
     (∃ n : Nat, n ≤ w ∧ (∀ i, w - n ≤ i → a.getLsbD i = false) ∧ (n < w → a.getLsbD (w - 1 - n) = true) ∧
       Completes (exec (.clz d l sz) s) (fun t => WritesX s t d (BitVec.ofNat 64 n))) ∧
     Completes (exec (.popc d l sz) s) (fun t => WritesX s t d
       (BitVec.ofNat 64 (Finset.univ.filter fun i : Fin w => a.getLsbD i.val = true).card)))

/-- R192, R194, R227: WMAX writes the merge of two well-formed witnesses, where the null witness is the identity, two live
ones give the lesser scope and the later stamp; a malformed operand raises WITMAL and nothing of the instruction takes
effect. -/
def Obligations.WitnessMerge : Prop :=
  ∀ (s : State) (d l r : XReg),
    let a := s.getX l
    let b := s.getX r
    let ok := fun (w : Word) => w.extractLsb' 48 12 = 0 ∧ (w.extractLsb' 60 3).toNat ≤ 4
    let live := fun (w : Word) => w.getLsbD 63 = true
    let gap := ((b.setWidth 48 : Stamp) - (a.setWidth 48 : Stamp)).toNat
    (ok a → ok b →
      (¬live a → ¬live b → Completes (exec (.wmax d l r) s) (fun t => WritesX s t d 0)) ∧
      (¬live a → live b → Completes (exec (.wmax d l r) s) (fun t => WritesX s t d b)) ∧
      (live a → ¬live b → Completes (exec (.wmax d l r) s) (fun t => WritesX s t d a)) ∧
      (live a → live b → Completes (exec (.wmax d l r) s) (fun t => WritesX s t d
        (BitVec.ofNat 64 (2 ^ 63 + min (a.extractLsb' 60 3).toNat (b.extractLsb' 60 3).toNat * 2 ^ 60 +
          (if 1 ≤ gap ∧ gap < 2 ^ 47 then b.setWidth 48 else a.setWidth 48 : Stamp).toNat))))) ∧
    (¬(ok a ∧ ok b) → Traps (exec (.wmax d l r) s) s .witmal none none)

/-! ### Page 0: branches, calls, traps (R130 to R133, R357) -/

/-- R130, R133, R411: a branch taken goes to start + 2·disp, another to the next instruction; B always. The deciding
branches fold the address with the decision into the path signature; nothing else differs. -/
def Obligations.Branches : Prop :=
  ∀ (s : State) (a : XReg) (m : MReg) (sz : VSize) (disp : Word),
    let target := s.cx.pc + 2 * disp
    let goes := fun (o : Out) (taken : Bool) => Completes o fun t => t =
      { s with cx := { s.cx with
          pc := if taken then target else s.cx.npc
          sig := rotl64 s.cx.sig 13 ^^^ (s.cx.pc ||| (if taken then 1 else 0)) } }
    let bits := (List.range (512 / VSize.bits sz)).map fun i => (s.getM m).getLsbD i
    Completes (exec (.br disp) s) (fun t => OnlyPc s t target) ∧
    goes (exec (.bz a disp) s) (decide (s.getX a = 0)) ∧
    goes (exec (.bnz a disp) s) (decide (s.getX a ≠ 0)) ∧
    goes (exec (.bltz a disp) s) ((s.getX a).getLsbD 63) ∧
    goes (exec (.bgez a disp) s) (!(s.getX a).getLsbD 63) ∧
    goes (exec (.bany m sz disp) s) (bits.any fun b => b) ∧
    goes (exec (.bnone m sz disp) s) (bits.all fun b => !b) ∧
    goes (exec (.ball m sz disp) s) (bits.all fun b => b)

/-- R131: CALL and CALLR write x31 with the address of the next instruction and go to their target, read before x31 is
written; JR goes to its register. An odd target raises ALIGN with the target in TADDR, and nothing else changes. -/
def Obligations.CallsAndJumps : Prop :=
  ∀ (s : State) (a : XReg) (disp : Word),
    Completes (exec (.call disp) s) (fun t => t.getX 31 = s.cx.npc ∧ t.cx.pc = s.cx.pc + 2 * disp ∧
      (∀ q, q ≠ 31 → t.getX q = s.getX q) ∧
      t = { s with cx := { s.cx with x := t.cx.x, pend := t.cx.pend, pc := t.cx.pc, known := t.cx.known, late := t.cx.late } }) ∧
    ((s.getX a).getLsbD 0 = false →
      Completes (exec (.callr a) s) (fun t => t.getX 31 = s.cx.npc ∧ t.cx.pc = s.getX a ∧
        (∀ q, q ≠ 31 → t.getX q = s.getX q) ∧
        t = { s with cx := { s.cx with
          x := t.cx.x, pend := t.cx.pend, pc := t.cx.pc, sig := t.cx.sig, known := t.cx.known, late := t.cx.late } }) ∧
      Completes (exec (.jr a) s) (fun t => t.cx.pc = s.getX a ∧
        t = { s with cx := { s.cx with pc := t.cx.pc, sig := t.cx.sig } })) ∧
    ((s.getX a).getLsbD 0 = true →
      Traps (exec (.callr a) s) s .align (some (s.getX a)) none ∧
      Traps (exec (.jr a) s) s .align (some (s.getX a)) none)

/-- R357: BRK and SYS take their trap at themselves, with the operand in TVAL and the address after the chain in TADDR.
R359: TRET raises ILLEGAL outside a handler and PRIV where a U-mode handler would climb to S mode; else the mode is
PMODE, INH is clear, and execution goes on at TPC with bit 0 clear. Nothing else changes. -/
def Obligations.BreakSysAndReturn : Prop :=
  (∀ (s : State) (n : Word), s.cur.which ≠ 2 →
     exec (.brk n) s = .next (takeTrap (s.onCx fun k => { k with trapped := true }) .brk false (some s.cx.npc) (some n) s.cx.pc) ∧
     exec (.sys n) s = .next (takeTrap (s.onCx fun k => { k with trapped := true }) .sys false (some s.cx.npc) (some n) s.cx.pc)) ∧
  (∀ s : State,
     let r := s.cx.crs
     (r.inh = false → Traps (exec .tret s) s .illegal none (some s.cx.chain)) ∧
     (r.inh = true → r.cmode = false → r.pmode = true → Traps (exec .tret s) s .priv none none) ∧
     (r.inh = true → (r.cmode = true ∨ r.pmode = false) →
       exec .tret s = .next { s with cx := { s.cx with
         pc := r.tpc &&& ~~~(1 : Word), crs := { r with cmode := r.pmode, inh := false } } }))

/-- R382: the entry of a trap that has a handler. The user handler takes the causes of R381's first row while TVEC.EN = 1
and INH = 0; TADDR and TVAL keep their values where the rule of the cause names none; the registers of every file and the
pending registers are unchanged.
R384: a trap in S mode with INH set, and a trap whose destination is 0, end the firing: its context is free, and no
register of it is left. -/
def Obligations.TrapEntry : Prop :=
  (∀ (s : State) (c : Cause) (impr : Bool) (addr val : Option Word) (resume : Word),
     let r := s.cx.crs
     let user := [Cause.illegal, .align, .ownbuf, .witmal, .poison, .bargen, .barcnt, .mxfmt, .crfmt, .brk, .notice, .timer,
       .gang].contains c
     let svec := (s.ownerSt s.oid).svec &&& ~~~(1 : Word)
     let dest := if user && r.tvec.getLsbD 0 && !r.inh then r.tvec &&& ~~~(1 : Word) else svec
     c ∉ [Cause.preempt, .hwerr] → ¬(r.inh ∧ r.cmode) → dest ≠ 0 →
     let t := takeTrap s c impr addr val resume
     t.cx.crs = { r with
       tcause := BitVec.ofNat 64 ((if impr then 256 else 0) + c.code)
       tpc := resume
       taddr := addr.getD r.taddr
       tval := val.getD r.tval
       pmode := r.cmode
       cmode := if dest = svec then true else r.cmode
       inh := true } ∧
     t.cx.pc = dest ∧ t.cx.x = s.cx.x ∧ t.cx.v = s.cx.v ∧ t.cx.m = s.cx.m ∧ t.cx.t = s.cx.t ∧ t.cx.pend = s.cx.pend ∧
     t.cx.fir = s.cx.fir ∧ t.cx.staging = s.cx.staging) ∧
  (∀ (s : State) (c : Cause) (impr : Bool) (addr val : Option Word) (resume : Word),
     s.cur.which < 3 → (s.cx.crs.inh ∧ s.cx.crs.cmode) ∨ trapDest s c = 0 →
     (takeTrap s c impr addr val resume).ctxOf s.cur = {})


/-! ### Page 1: vectors and masks (R135 to R153) -/

/-- R137, R141, R144: VMOV, VBCAST, VPERM and VROT write the active lanes of their vector register; VEXT and VINS move one
active lane; VSEL writes every lane, by the mask. A lane number of VEXT, VINS or VROT that is no lane raises ILLEGAL. -/
def Obligations.LaneMoves : Prop :=
  ∀ (s : State) (d l r : VReg) (x : XReg) (sz : VSize) (mk : MReg) (imm : Word),
    let n := 512 / VSize.bits sz
    let k := imm.toNat
    let none_ := fun (_ : Nat) => 0
    Completes (exec (.vmov d l sz mk) s) (fun t => WritesLanes s t d sz mk (el sz (s.getV l)) none_) ∧
    Completes (exec (.vbcast d x sz mk) s)
      (fun t => WritesLanes s t d sz mk (fun _ => (s.getX x).setWidth (VSize.bits sz)) none_) ∧
    Completes (exec (.vperm d l r sz mk) s)
      (fun t => WritesLanes s t d sz mk (fun i => el sz (s.getV l) ((el sz (s.getV r) i).toNat % n)) none_) ∧
    Completes (exec (.vsel d l r sz mk) s) (fun t => ∃ w, WritesV s t d w 0 ∧
      ∀ i < n, el sz w i = if on s mk i then el sz (s.getV l) i else el sz (s.getV r) i) ∧
    (k < n →
      Completes (exec (.vrot d l sz imm mk) s)
        (fun t => WritesLanes s t d sz mk (fun i => el sz (s.getV l) ((i + k) % n)) none_) ∧
      Completes (exec (.vext x l sz imm mk) s) (fun t =>
        if on s mk k then WritesX s t x ((el sz (s.getV l) k).signExtend 64) else OnlyPc s t s.cx.npc) ∧
      Completes (exec (.vins d x sz imm mk) s) (fun t =>
        if on s mk k then ∃ w, WritesV s t d w 0 ∧ ∀ i < n, el sz w i =
          if i = k then (s.getX x).setWidth (VSize.bits sz) else el sz (s.getV d) i
        else OnlyPc s t s.cx.npc)) ∧
    (n ≤ k →
      Traps (exec (.vrot d l sz imm mk) s) s .illegal none (some s.cx.chain) ∧
      Traps (exec (.vext x l sz imm mk) s) s .illegal none (some s.cx.chain) ∧
      Traps (exec (.vins d x sz imm mk) s) s .illegal none (some s.cx.chain))

/-- R17, R140, R394: VLSR and VLSW of a firing that holds the lane store, or takes it, cleared, when no context of its core
does. VLSR reads lane i of the entry that bits [9:0] of lane i of the index name, unless that chunk is poisoned; VLSW writes
it; other lanes and entries keep what they held. -/
def Obligations.LaneStore : Prop :=
  ∀ (s : State) (a b : VReg) (sz : VSize) (mk : MReg),
    let k := s.coreSt s.coreNo
    let held := if k.laneHolder = none then [] else k.lane
    let poison := if k.laneHolder = none then [] else k.lanePoison
    let n := 512 / VSize.bits sz
    let idx := fun (i : Nat) => (el sz (s.getV b) i).toNat % 1024
    let taken := s.updCore s.coreNo fun k => { k with laneHolder := some s.cur.which, lane := held, lanePoison := poison }
    (k.laneHolder = some s.cur.which ∨ (k.laneHolder = none ∧ k.laneClearing = false)) →
      ((∀ i < n, on s mk i → idx i * 4 + VSize.bits sz * i / 128 ∉ poison) →
        Completes (exec (.vlsr a b sz mk) s)
          (fun t => WritesLanes taken t a sz mk (fun i => el sz (tget 0 held (idx i)) i) fun _ => 0)) ∧
      ((∃ i < n, on s mk i ∧ idx i * 4 + VSize.bits sz * i / 128 ∈ poison) →
        Traps (exec (.vlsr a b sz mk) s) s .poison none none) ∧
      Completes (exec (.vlsw a b sz mk) s) (fun t => ∃ lane' poison',
        t = { s.updCore s.coreNo fun k => { k with laneHolder := some s.cur.which, lane := lane', lanePoison := poison' } with
          cx := { s.cx with pc := s.cx.npc } } ∧
        (∀ e i, i < n → el sz (tget 0 lane' e) i =
          if on s mk i ∧ idx i = e then el sz (s.getV a) i else el sz (tget 0 held e) i) ∧
        (∀ p, p ∈ poison' ↔ p ∈ poison ∧ ¬∀ i < n, VSize.bits sz * i / 128 = p % 4 → on s mk i ∧ idx i = p / 4))

/-- R142: the integer mould, lane by lane: sums, products and left shifts exact and then wrapped or clamped, the upper half
of a product, the lesser and greater, the bitwise operations, and the right shifts, with amounts modulo the element size. -/
def Obligations.LaneIntegers : Prop :=
  ∀ (s : State) (d l r : VReg) (sz : VSize) (sat : Bool) (mk : MReg),
    let w := VSize.bits sz
    let x := fun (i : Nat) => el sz (s.getV l) i
    let y := fun (i : Nat) => el sz (s.getV r) i
    let k := fun (i : Nat) => (y i).toNat % w
    let exact := fun (o : Out) (z : Nat → Int) => Completes o fun t =>
      WritesLanes s t d sz mk (fun i => narrow sat w (z i)) (fun i => satFlag sat w (z i))
    let plain := fun (o : Out) (z : Nat → BitVec w) => Completes o fun t => WritesLanes s t d sz mk z fun _ => 0
    exact (exec (.vadd d l r sz sat mk) s) (fun i => (x i).toInt + (y i).toInt) ∧
    exact (exec (.vsub d l r sz sat mk) s) (fun i => (x i).toInt - (y i).toInt) ∧
    exact (exec (.vmul d l r sz sat mk) s) (fun i => (x i).toInt * (y i).toInt) ∧
    exact (exec (.vshl d l r sz sat mk) s) (fun i => (x i).toInt * 2 ^ k i) ∧
    plain (exec (.vmulh d l r sz mk) s) (fun i => ((x i).signExtend (2 * w) * (y i).signExtend (2 * w)).extractLsb' w w) ∧
    plain (exec (.vmin d l r sz mk) s) (fun i => if (x i).slt (y i) then x i else y i) ∧
    plain (exec (.vmax d l r sz mk) s) (fun i => if (x i).slt (y i) then y i else x i) ∧
    plain (exec (.vand d l r sz mk) s) (fun i => x i &&& y i) ∧
    plain (exec (.vor d l r sz mk) s) (fun i => x i ||| y i) ∧
    plain (exec (.vxor d l r sz mk) s) (fun i => x i ^^^ y i) ∧
    plain (exec (.vshr d l r sz mk) s) (fun i => x i >>> k i) ∧
    plain (exec (.vsra d l r sz mk) s) (fun i => (x i).sshiftRight (k i))

/-- R143: VCMP writes the condition of each active lane, and NV where a float compare meets a NaN that its condition names;
codes from 10, and the float conditions at 8 bits, raise ILLEGAL. -/
def Obligations.LaneCompares : Prop :=
  ∀ (s : State) (d : MReg) (l r : VReg) (sz : VSize) (mk : MReg),
    let n := 512 / VSize.bits sz
    let x := fun (i : Nat) => el sz (s.getV l) i
    let y := fun (i : Nat) => el sz (s.getV r) i
    let is := fun (c : Nat) (p : Nat → Bool) (nv : Nat → Bool) =>
      Completes (exec (.vcmp d l r sz (BitVec.ofNat 64 c) mk) s)
        (fun t => WritesBits s t d n mk p fun i => if nv i then 16 else 0)
    let never := fun (_ : Nat) => false
    is 0 (fun i => x i == y i) never ∧ is 1 (fun i => x i != y i) never ∧
    is 2 (fun i => (x i).slt (y i)) never ∧ is 3 (fun i => (x i).sle (y i)) never ∧
    is 4 (fun i => (x i).ult (y i)) never ∧ is 5 (fun i => (x i).ule (y i)) never ∧
    (∀ g, (sz = .s32 ∧ g = fp32) ∨ (sz = .s16 ∧ g = bf16) →
      let a := fun (i : Nat) => g.decode (x i).toNat
      let b := fun (i : Nat) => g.decode (y i).toNat
      let anyNan := fun (i : Nat) => (a i).isNan || (b i).isNan
      let signalling := fun (i : Nat) => a i == FVal.nan true || b i == FVal.nan true
      is 6 (fun i => !anyNan i && !fLess (a i) (b i) && !fLess (b i) (a i)) signalling ∧
      is 7 (fun i => !anyNan i && fLess (a i) (b i)) anyNan ∧
      is 8 (fun i => !anyNan i && !fLess (b i) (a i)) anyNan ∧
      is 9 anyNan signalling) ∧
    (∀ c : Word, 10 ≤ c.toNat ∨ (sz = .s8 ∧ 6 ≤ c.toNat) →
      Traps (exec (.vcmp d l r sz c mk) s) s .illegal none (some s.cx.chain))

/-- R145, R146: VDOT4 and VMAC form their sum exactly and then wrap or clamp it once; VRSHR rounds the shifted lane in the
selected mode and sets no flag; VCLAMP clamps the accumulator, to the upper bound where the bounds cross. -/
def Obligations.Accumulate : Prop :=
  ∀ (s : State) (d l r : VReg) (sz : VSize) (sat : Bool) (rnd : RSel) (mk : MReg) (imm : Word),
    let w := VSize.bits sz
    let byte := fun (v : VReg) (unsigned : Bool) (i : Nat) =>
      if unsigned then ((el .s8 (s.getV v) i).toNat : Int) else (el .s8 (s.getV v) i).toInt
    let term := fun (i j : Nat) => byte l (imm.getLsbD 0) (4 * i + j) * byte r (imm.getLsbD 1) (4 * i + j)
    let dot := fun (i : Nat) => (el .s32 (s.getV d) i).toInt + (term i 0 + term i 1 + term i 2 + term i 3)
    let mac := fun (i : Nat) => (el sz (s.getV d) i).toInt + (el sz (s.getV l) i).toInt * (el sz (s.getV r) i).toInt
    (imm.toNat < 4 → Completes (exec (.vdot4 d l r imm sat mk) s) (fun t =>
      WritesLanes s t d .s32 mk (fun i => narrow sat 32 (dot i)) (fun i => satFlag sat 32 (dot i)))) ∧
    (4 ≤ imm.toNat → Traps (exec (.vdot4 d l r imm sat mk) s) s .illegal none (some s.cx.chain)) ∧
    Completes (exec (.vmac d l r sz sat mk) s) (fun t =>
      WritesLanes s t d sz mk (fun i => narrow sat w (mac i)) (fun i => satFlag sat w (mac i))) ∧
    (∃ q : Nat → Int,
      (∀ i, Rounds (s.rmode rnd) (el sz (s.getV l) i).toInt ((el sz (s.getV r) i).toNat % w) (q i)) ∧
      Completes (exec (.vrshr d l r sz rnd mk) s)
        (fun t => WritesLanes s t d sz mk (fun i => BitVec.ofInt w (q i)) fun _ => 0)) ∧
    Completes (exec (.vclamp d l r sz mk) s) (fun t => WritesLanes s t d sz mk (fun i =>
      let a := el sz (s.getV d) i
      let lo := el sz (s.getV l) i
      let hi := el sz (s.getV r) i
      let raised := if a.slt lo then lo else a
      if hi.slt raised then hi else raised) fun _ => 0)

/-- R152, R153: VREDADD writes the exact sum of the active lanes to lane 0, wrapped or clamped; VREDMAX their greatest, or
the least number of the size where none is active; MLOG combines two masks bit by bit, and codes from 5 raise ILLEGAL. -/
def Obligations.ReductionsAndMaskLogic : Prop :=
  ∀ (s : State) (d l : VReg) (m a b : MReg) (sz : VSize) (sat : Bool) (mk : MReg),
    let w := VSize.bits sz
    let n := 512 / w
    let sum := (((List.range n).filter (on s mk)).map fun i => (el sz (s.getV l) i).toInt).sum
    let is := fun (c : Nat) (p : Bool → Bool → Bool) =>
      Completes (exec (.mlog m a b sz (BitVec.ofNat 64 c) mk) s)
        (fun t => WritesBits s t m n mk (fun i => p ((s.getM a).getLsbD i) ((s.getM b).getLsbD i)) fun _ => 0)
    Completes (exec (.vredadd d l sz sat mk) s)
      (fun t => WritesLane0 s t d sz (narrow sat w sum) (satFlag sat w sum)) ∧
    (∃ g : Int,
      (∀ i < n, on s mk i → (el sz (s.getV l) i).toInt ≤ g) ∧
      ((∃ i < n, on s mk i ∧ (el sz (s.getV l) i).toInt = g) ∨
        ((∀ i < n, on s mk i = false) ∧ g = -(2 ^ (w - 1)))) ∧
      Completes (exec (.vredmax d l sz mk) s) (fun t => WritesLane0 s t d sz (BitVec.ofInt w g) 0)) ∧
    is 0 (fun x y => x && y) ∧ is 1 (fun x y => x || y) ∧ is 2 (fun x y => x ^^ y) ∧ is 3 (fun x y => x && !y) ∧
    is 4 (fun x _ => !x) ∧
    (∀ c : Word, 5 ≤ c.toNat → Traps (exec (.mlog m a b sz c mk) s) s .illegal none (some s.cx.chain))

/-- R135, R147 to R149, R152, R366: the float instructions write each active lane with the result of one operation of the
format of the element size, FP32 or BF16, rounded once in the selected mode, and count their lanes; at 8 bits each raises
ILLEGAL. VFRED adds from the lowest active lane upwards. -/
def Obligations.LaneFloats : Prop :=
  ∀ (s : State) (d l r : VReg) (sz : VSize) (rnd : RSel) (mk : MReg),
    let n := 512 / VSize.bits sz
    let m := s.rmode rnd
    let act := (List.range n).filter (on s mk)
    (∀ g, (sz = .s32 ∧ g = fp32) ∨ (sz = .s16 ∧ g = bf16) →
      let bits := fun (v : VReg) (i : Nat) => (el sz (s.getV v) i).toNat
      let num := fun (v : VReg) (i : Nat) => g.decode (bits v i)
      let lanes := fun (o : Out) (f : Nat → Nat × Nat) => Completes o fun t => ∃ u,
        WritesLanes s u d sz mk (fun i => BitVec.ofNat _ (f i).1) (fun i => (f i).2) ∧ t = u.countEv s.cur 14 act.length
      lanes (exec (.vfadd d l r sz rnd mk) s) (fun i => g.add m (num l i) (num r i)) ∧
      lanes (exec (.vfsub d l r sz rnd mk) s) (fun i => g.add m (num l i) (num r i).neg) ∧
      lanes (exec (.vfmul d l r sz rnd mk) s) (fun i => g.mul m (num l i) (num r i)) ∧
      lanes (exec (.vfma d l r sz rnd mk) s) (fun i => g.fma m (num l i) (num r i) (num d i)) ∧
      lanes (exec (.vfmin d l r sz mk) s) (fun i => g.minmax false (bits l i) (bits r i)) ∧
      lanes (exec (.vfmax d l r sz mk) s) (fun i => g.minmax true (bits l i) (bits r i)) ∧
      lanes (exec (.vfrcp d l sz rnd mk) s) (fun i => g.rcp m (num l i)) ∧
      lanes (exec (.vfrsq d l sz rnd mk) s) (fun i => g.rsq m (num l i)) ∧
      lanes (exec (.vfexp2 d l sz rnd mk) s) (fun i => g.exp2 m (num l i)) ∧
      Completes (exec (.vfred d l sz rnd mk) s) (fun t => ∃ u,
        let sum := fredSum g m (act.map (bits l))
        WritesLane0 s u d sz (BitVec.ofNat _ sum.1) sum.2 ∧ t = u.countEv s.cur 14 act.length)) ∧
    (sz = .s8 →
      ∀ i ∈ [Instr.vfadd d l r sz rnd mk, .vfsub d l r sz rnd mk, .vfmul d l r sz rnd mk, .vfma d l r sz rnd mk,
        .vfmin d l r sz mk, .vfmax d l r sz mk, .vfrcp d l sz rnd mk, .vfrsq d l sz rnd mk, .vfexp2 d l sz rnd mk,
        .vfred d l sz rnd mk],
        Traps (exec i s) s .illegal none (some s.cx.chain))

/-- R94, R96 to R98, R147 to R149, over every bit pattern of FP32 and BF16: a NaN operand gives the canonical NaN, and NV
where one is signalling; ∞ − ∞, 0 · ∞ and the root of a negative number give it with NV; reciprocals of zeros give ∞ with
DZ; and a sum or product whose exact value the format holds is that value, with no flag. -/
def Obligations.FloatValues : Prop :=
  ∀ g, g = fp32 ∨ g = bf16 → ∀ (m : RMode) (a b : Nat), a < 2 ^ g.width → b < 2 ^ g.width →
    let x := g.decode a
    let y := g.decode b
    let nv := if x = .nan true ∨ y = .nan true then 16 else 0
    (x.isNan ∨ y.isNan → g.add m x y = (g.nan, nv) ∧ g.mul m x y = (g.nan, nv)) ∧
    (x.isNan → g.rcp m x = (g.nan, if x = .nan true then 16 else 0) ∧
      g.rsq m x = (g.nan, if x = .nan true then 16 else 0) ∧ g.exp2 m x = (g.nan, if x = .nan true then 16 else 0)) ∧
    (∀ p q, x = .inf p → y = .inf q → p ≠ q → g.add m x y = (g.nan, 16)) ∧
    (∀ p q e, x = .inf p → y = .fin q 0 e → g.mul m x y = (g.nan, 16) ∧ g.mul m y x = (g.nan, 16)) ∧
    (∀ p k e, x = .fin p k e → k = 0 → g.decode (g.rcp m x).1 = .inf p ∧ (g.rcp m x).2 = 8) ∧
    (∀ k e, x = .fin true k e → k ≠ 0 → g.rsq m x = (g.nan, 16)) ∧
    (∀ p k e q l f c u n h, x = .fin p k e → y = .fin q l f → c < 2 ^ g.width → g.decode c = .fin u n h → n ≠ 0 →
      ((if u then -1 else 1) * (n : ℚ) * 2 ^ h = (if p then -1 else 1) * (k : ℚ) * 2 ^ e + (if q then -1 else 1) * (l : ℚ) * 2 ^ f →
        g.add m x y = (c, 0)) ∧
      ((if u then -1 else 1) * (n : ℚ) * 2 ^ h =
          ((if p then -1 else 1) * (k : ℚ) * 2 ^ e) * ((if q then -1 else 1) * (l : ℚ) * 2 ^ f) →
        g.mul m x y = (c, 0)))

/-- R150, R151: VCVT converts N = 512 / max(wf, wt) elements from and to the part that PART names; destination elements
outside it, and inactive ones, keep their value. A control word that R150 excludes, and an active element that no E2M1 value
stands for, raise ILLEGAL and nothing is written. -/
def Obligations.Conversions : Prop :=
  ∀ (s : State) (d l : VReg) (imm : Word) (rnd : RSel) (mk : MReg),
    let c := imm.toNat
    let sat := imm.getLsbD 8
    let part := c / 512 % 8
    (∀ src dst, cvFmt (c % 16) = some src → cvFmt (c / 16 % 16) = some dst →
      let wf := src.width
      let wt := dst.width
      let n := 512 / max wf wt
      let legal := c < 4096 ∧ c % 16 ≠ c / 16 % 16 ∧ part < max wf wt / min wf wt ∧
        (sat → (c % 16 < 6 ∧ c / 16 % 16 < 6 ∧ wt < wf) ∨ c / 16 % 16 = 9 ∨ c / 16 % 16 = 11)
      let si := fun (i : Nat) => if wf < wt then part * n + i else i
      let first := if wt < wf then part * n else 0
      let conv := fun (i : Nat) => convert src dst sat (s.rmode rnd) (lane (s.getV l) wf (si i))
      (legal → (∀ i < n, on s mk i → conv i ≠ none) → Completes (exec (.vcvt d l imm rnd mk) s) (fun t => ∃ w,
        WritesV s t d w (raised s n mk fun i => ((conv i).getD (0, 0)).2) ∧
        ∀ j < 512 / wt, lane w wt j =
          if first ≤ j ∧ j < first + n ∧ on s mk (j - first) then ((conv (j - first)).getD (0, 0)).1
          else lane (s.getV d) wt j)) ∧
      (¬legal ∨ (∃ i < n, on s mk i ∧ conv i = none) →
        Traps (exec (.vcvt d l imm rnd mk) s) s .illegal none (some s.cx.chain))) ∧
    (cvFmt (c % 16) = none ∨ cvFmt (c / 16 % 16) = none →
      Traps (exec (.vcvt d l imm rnd mk) s) s .illegal none (some s.cx.chain))

/-! ### Loads and stores (R138, R139, R188, R200, R215, R221 to R226) -/

/-- R221: the checks of every instruction that loads or stores bytes, in their order, through a translation that the first-level
TLB holds: ALIGN, XLATE of an address beyond 56 bits, SEALED, PERM, then CLASS and CRFMT of the page, and POISON of a marked line
for the loads. TADDR holds the address, and nothing of the instruction takes effect. R138: of a vector access the first failing
active lane decides, and of a tile in memory the first failing row; a CR page serves loads of four bytes and no store, an RO page no
store, and an atomic needs an SM page (R214), in the host window but for AMOADD, AMOSWP and AMOCAS none (R422).
Where it rests on a choice of the model, that is the one of log entry 16. -/
def Obligations.AccessTraps : Prop :=
  (∀ (s : State) (a b c : XReg) (sz : Size) (imm : Word) (sc : Option Scope) (na : Bool) (cause : Cause) (val : Option Word),
     let va := s.getX b + imm
     let n := Size.bits sz / 8
     let loads := fun (cause : Cause) (val : Option Word) =>
       Traps (exec (.ld a b sz imm na) s) s cause (some va) val ∧ Traps (exec (.ldx a b sz imm na) s) s cause (some va) val ∧
       (witMalformed (s.getX c) = false → Traps (exec (.ldw a b c sz imm na) s) s cause (some va) val)
     let stores := fun (cause : Cause) (val : Option Word) => Traps (exec (.st a b c sz imm sc na) s) s cause (some va) val
     (Fails s va n .r cause val → loads cause val) ∧ (Fails s va n .w cause val → stores cause val) ∧
     (∀ l, Reaches s va n .r l →
       (l.cls = clsCr → n ≠ 4 → loads .crfmt none) ∧
       (l.cls = clsCr → n = 4 → ownClear s s.cur (crPlace l va) = none → crMarked s (crPlace l va) = true → loads .poison none) ∧
       (l.cls = clsPriv ∨ l.cls = clsRo ∨ l.cls = clsSm → InTurn s l.pa n → marked s l.owner l.line = true →
         loads .poison none) ∧
       (l.cls = clsRepl → InTurn s l.pa n → ownRepl s s.cur l.pa n = none →
         (∀ w, s.cx.judged.getD (judge s.now (s.getX c)) = some w → after (s.dieSt s.dieNo).replMark w = false) →
         marked s l.owner (replicaPa l.pa s.dieNo / 128) = true → loads .poison none)) ∧
     (∀ l, Reaches s va n .w l → (l.cls = clsRo → stores .class_ none) ∧ (l.cls = clsCr → stores .crfmt none))) ∧
  (∀ (s : State) (a ix : VReg) (b c : XReg) (sz : VSize) (imm : Word) (mk : MReg) (leaf : Nat → Leaf) (j : Nat) (cause : Cause)
      (val : Option Word),
     let n := VSize.bits sz / 8
     let base := s.getX b + imm
     let unit := fun (i : Nat) => base + BitVec.ofNat 64 (i * n)
     let spaced := fun (i : Nat) => base + BitVec.ofNat 64 i * s.getX c
     let indexed := fun (i : Nat) => base + (el sz (s.getV ix) i).signExtend 64 * BitVec.ofNat 64 n
     let loads := fun (i : Instr) (addr : Nat → Word) =>
       (∀ q < j, on s mk q → Reaches s (addr q) n .r (leaf q) ∧ AtHome s (leaf q) n ∧ entrySealed (leaf q).entry = false) →
       (Fails s (addr j) n .r cause val → Traps (exec i s) s cause (some (addr j)) val) ∧
       ∀ l, Reaches s (addr j) n .r l →
         (l.cls = clsCr → n ≠ 4 → Traps (exec i s) s .crfmt (some (addr j)) none) ∧
         (l.cls = clsPriv ∨ l.cls = clsRo ∨ l.cls = clsSm → InTurn s l.pa n → marked s l.owner l.line = true →
           Traps (exec i s) s .poison (some (addr j)) none)
     let stores := fun (i : Instr) (addr : Nat → Word) =>
       (∀ q < j, on s mk q → Reaches s (addr q) n .w (leaf q) ∧ (leaf q).cls = clsSm ∧ entrySealed (leaf q).entry = false) →
       (Fails s (addr j) n .w cause val → Traps (exec i s) s cause (some (addr j)) val) ∧
       ∀ l, Reaches s (addr j) n .w l →
         (l.cls = clsRo → Traps (exec i s) s .class_ (some (addr j)) none) ∧
         (l.cls = clsCr → Traps (exec i s) s .crfmt (some (addr j)) none)
     j < 512 / VSize.bits sz → on s mk j →
       loads (.vld a b sz imm mk) unit ∧ loads (.vlds a b c sz imm mk) spaced ∧ loads (.vgath a b ix sz imm mk) indexed ∧
       stores (.vst a b c sz imm mk) unit ∧ stores (.vscat a b ix sz imm mk) indexed) ∧
  (∀ (s : State) (a b c : XReg) (v : VReg) (sz : Size) (imm : Word) (sc : Option Scope) (i : Instr) (host : Bool) (n : Nat)
      (cause : Cause) (val : Option Word),
     let va := s.getX b
     (i, host) ∈ [(Instr.amoadd a b c sz sc, true), (.amoand a b c sz sc, false), (.amoor a b c sz sc, false),
         (.amoxor a b c sz sc, false), (.amomin a b c sz sc, false), (.amomax a b c sz sc, false), (.amominu a b c sz sc, false),
         (.amomaxu a b c sz sc, false), (.amoswp a b c sz sc, true), (.amocas a b c sz sc, true)] ∧ sz ∈ [Size.d, .w] ∧
         n = Size.bits sz / 8 ∨
       (i, host) = (.amofadd a b c sz sc, false) ∧ sz ∈ [Size.w, .h] ∧ n = Size.bits sz / 8 ∨
       (i, host) = (.mxacc v b c .w imm sc, false) ∧ 6 ≤ imm.toNat ∧ imm.toNat ≤ 8 ∧ n = 64 →
     (Fails s va n .rw cause val → Traps (exec i s) s cause (some va) val) ∧
     ∀ l, Reaches s va n .rw l →
       (l.cls = clsCr → Traps (exec i s) s .crfmt (some va) none) ∧
       (l.cls ≠ clsCr → l.cls ≠ clsSm ∨ (inHost l.pa = true ∧ host = false) → Traps (exec i s) s .class_ (some va) none)) ∧
  (∀ (s : State) (d : TReg) (b c : XReg) (leaf : Nat → Leaf) (r : Nat) (cause : Cause) (val : Option Word),
     let va := fun (r : Nat) => s.getX b + BitVec.ofNat 64 r * s.getX c
     let both := fun (cause : Cause) (addr : Word) =>
       Traps (exec (.tld d b c 0) s) s cause (some addr) none ∧ Traps (exec (.tst d b c 0) s) s cause (some addr) none
     ((s.getX b).toNat % 64 ≠ 0 → both .align (s.getX b)) ∧
     ((s.getX b).toNat % 64 = 0 → (s.getX c).toNat % 64 ≠ 0 → both .align (va 1)) ∧
     ((s.getX b).toNat % 64 = 0 → (s.getX c).toNat % 64 = 0 → r < 32 →
       ((∀ q < r, Reaches s (va q) 64 .r (leaf q) ∧ AtHome s (leaf q) 64 ∧ entrySealed (leaf q).entry = false) →
         (Fails s (va r) 64 .r cause val → Traps (exec (.tld d b c 0) s) s cause (some (va r)) val) ∧
         ∀ l, Reaches s (va r) 64 .r l → l.cls = clsCr → Traps (exec (.tld d b c 0) s) s .crfmt (some (va r)) none) ∧
       ((∀ q < r, Reaches s (va q) 64 .w (leaf q) ∧ (leaf q).cls = clsSm ∧ entrySealed (leaf q).entry = false) →
         (Fails s (va r) 64 .w cause val → Traps (exec (.tst d b c 0) s) s cause (some (va r)) val) ∧
         ∀ l, Reaches s (va r) 64 .w l →
           (l.cls = clsRo → Traps (exec (.tst d b c 0) s) s .class_ (some (va r)) none) ∧
           (l.cls = clsCr → Traps (exec (.tst d b c 0) s) s .crfmt (some (va r)) none))))

/-- LD, LDX and LDW complete (`exec` answers a next state) under the conditions that R221 and R224 set.
R224, with the value of R200, R203, R207, R210 and R215: a load writes its register with the bytes that its page shows, or
that the context has read ahead of it, sign-extended by LD and LDW and zero-extended by LDX; LDW honours its witness, and a
malformed one raises WITMAL. Memory, and everything else but what a read may touch, is as it was; a load that is to take effect
later is on its way besides.
R188: a four-byte load of a CR page reads the element's rounded value as CRRD does, of the line as it is or as the context has
read it ahead; of memory, only the sticky overflow bit of the line may change, in the staging where the firing has staged the line.
Where it rests on a choice of the model, that is those of log entries 8, 11, 17, 24 and 37. -/
def Obligations.ScalarLoads : Prop :=
  (∀ (s : State) (a b c : XReg) (sz : Size) (imm : Word) (na : Bool) (l : Leaf) (bs : List Byte),
     let va := s.getX b + imm
     let n := Size.bits sz / 8
     let wit := s.cx.judged.getD (judge s.now (s.getX c))
     let wide := fun (signed : Bool) (bs : List Byte) => (if signed then
       (BitVec.ofNat (Size.bits sz) (leNat bs)).signExtend 64 else BitVec.ofNat 64 (leNat bs) : Word)
     let loads := fun (i : Instr) (v : Word) => ∃ t, exec i s = .next t ∧ ∃ u, Loads s u ∧ WritesX u t a v
     Reaches s va n .r l →
       (Shows s l n none bs →
         loads (.ld a b sz imm na) (wide true (ahead s va n none bs)) ∧
         loads (.ldx a b sz imm na) (wide false (ahead s va n none bs))) ∧
       (witMalformed (s.getX c) = false → Shows s l n wit bs →
         loads (.ldw a b c sz imm na) (wide true (ahead s va n wit bs))) ∧
       (witMalformed (s.getX c) = true → Traps (exec (.ldw a b c sz imm na) s) s .witmal none none)) ∧
  (∀ (s : State) (a b : XReg) (imm : Word) (na : Bool) (l : Leaf),
     let va := s.getX b + imm
     let p := crPlace l va
     let v := BitVec.ofNat 64 (leNat (crBytesOf s l va))
     Reaches s va 4 .r l → l.cls = clsCr → crMarked s p = false → ownClear s s.cur p = none →
       (s.cx.lag = true → a ≠ 0 → ∃ t, exec (.ldx a b .w imm na) s = .next t ∧ ∃ u, Loads s u ∧ WritesX u t a v) ∧
       (s.cx.lag = false ∨ a = 0 → Completes (exec (.ldx a b .w imm na) s) fun t =>
         t.getX a = (if a = 0 then 0 else v) ∧
         (∀ q, q ≠ a → t.getX q = s.getX q) ∧ t.cx.pc = s.cx.npc ∧ t.mem = s.mem ∧ QueuesPass s t ∧
         t.cx = { s.cx with
           x := t.cx.x, pend := t.cx.pend, pc := t.cx.pc, dacc := t.cx.dacc, early := t.cx.early, late := t.cx.late
           known := t.cx.known, wrote := t.cx.wrote, staging := t.cx.staging } ∧
         (s.cx.staged = false → t.cx.staging = s.cx.staging) ∧
         t.home = { s.home with copies := t.home.copies, sealTags := t.home.sealTags, crMeta := t.home.crMeta } ∧
         t.home.partials = s.home.partials ∧ t.parked = s.parked ∧ t.clusters = s.clusters))

/-- R189, R196, R215, R225: a store to an SM page outside an unexposed recoverable firing sends its bytes to their home, at
the address that its page gives, and its witness register waits for them; to a page of the L1's own PRIV copies it writes
the copy, now or later (R203); inside an unexposed recoverable firing an SM or REPL store is staged, and the register takes the null
witness. Memory itself is as it was in each case: the home writes it (see HomesApply).
Where it rests on a choice of the model, that is those of log entries 11, 17, 18 and 37. -/
def Obligations.Stores : Prop :=
  ∀ (s : State) (a b c : XReg) (sz : Size) (imm : Word) (sc : Option Scope) (na : Bool) (l : Leaf),
    let va := s.getX b + imm
    let n := Size.bits sz / 8
    let bs := (List.range n).map fun i => (s.getX a).extractLsb' (8 * i) 8
    let st := s.cx.staging ++ [Staged.store va l.pa l.cls l.owner bs]
    let r := (s.sealLeaf s.who l).onCx (·.dropEarly l.pa n)
    let go := exec (.st a b c sz imm sc na) s
    Reaches s va n .w l → AsideClear s l.pa n →
      (l.cls = clsSm ∨ l.cls = clsRepl → s.cx.staged = false → Completes go fun t =>
        Sends s t [flightOf s s.net.nextId (if l.cls = clsSm then .store bs else .repl bs) va l (s.scope sc) false]
          (waitsFor s c (s.net.nextId + 1) (s.scope sc) false)) ∧
      (l.cls = clsSm ∨ l.cls = clsRepl → s.cx.staged = true → InTurn s l.pa n →
        stagingNeed r st [] ≤ stagingLimit →
        stagingNeed r st [] ≤ stagingNeed r s.cx.staging [] ∨ backingOk r (stagingNeed r st []) = true → Completes go fun t => ∃ u,
          WritesX u t c 0 ∧ u = { s with
            cx := { s.cx with staging := st, early := u.cx.early }
            home := { s.home with sealTags := u.home.sealTags } }) ∧
      (l.cls = clsPriv → InTurn s l.pa n → s.cx.lag = true → Completes go fun t =>
        Sends s t [flightOf s s.net.nextId (.priv bs na) va l (s.scope sc) false]
          (if s.storeRefused = true then s.cx.pend else waitsFor s c (s.net.nextId + 1) (s.scope sc) s.cx.staged)) ∧
      (∀ k, l.cls = clsPriv → InTurn s l.pa n → s.cx.lag = false → marked s l.owner l.line = false →
        presentCopy s (.l1 s.coreNo) l.line none = some k → Completes go fun t =>
        (∃ k', findCopy t (.l1 s.coreNo) l.line = some k' ∧ k'.data = linePut k.data (l.pa % 128) bs ∧ k'.dirty = true ∧
          k'.holder = some s.cur) ∧
        t.cx.x = s.cx.x ∧ t.cx.v = s.cx.v ∧ t.cx.m = s.cx.m ∧ t.cx.t = s.cx.t ∧ t.cx.crs = s.cx.crs ∧
        t.cx.pc = s.cx.npc ∧ t.mem = s.mem ∧ t.net.nextId = s.net.nextId ∧ t.clusters = s.clusters)

/-- R138, R139: VLD, VLDS and VGATH read each active lane at its own address, and inactive lanes make no access: for lanes
on SM pages that are not sealed. What the context has read ahead stands for what is at hand (R203). Memory is as it was.
Where it rests on a choice of the model, that is those of log entries 16, 17 and 37. -/
def Obligations.VectorLoads : Prop :=
  ∀ (s : State) (a ix : VReg) (b c : XReg) (sz : VSize) (imm : Word) (mk : MReg) (l : Nat → Leaf),
    let n := VSize.bits sz / 8
    let base := s.getX b + imm
    let loads := fun (i : Instr) (addr : Nat → Word) =>
      (∀ j < 512 / VSize.bits sz, on s mk j →
        Reaches s (addr j) n .r (l j) ∧ AtHome s (l j) n ∧ entrySealed (l j).entry = false) →
      ∃ val : Nat → List Byte,
        (∀ j < 512 / VSize.bits sz, on s mk j → Gives s (addr j) n (seen s (l j).pa n) (val j)) ∧
        Completes (exec i s) fun t => ∃ u, Loads s u ∧ WritesLanes u t a sz mk (fun j => BitVec.ofNat _ (leNat (val j))) fun _ => 0
    loads (.vld a b sz imm mk) (fun j => base + BitVec.ofNat 64 (j * n)) ∧
    loads (.vlds a b c sz imm mk) (fun j => base + BitVec.ofNat 64 j * s.getX c) ∧
    loads (.vgath a b ix sz imm mk) (fun j => base + (el sz (s.getV ix) j).signExtend 64 * BitVec.ofNat 64 n)

/-- R138, R139: VST and VSCAT outside an unexposed recoverable firing send the elements of the active lanes, in ascending
order, to their homes, for lanes on SM pages that are not sealed; the witness register of VST waits for all of them, and
VSCAT writes none. Memory is as it was; the homes write it (see HomesApply).
Where it rests on a choice of the model, that is those of log entries 16, 17 and 37. -/
def Obligations.VectorStores : Prop :=
  ∀ (s : State) (a ix : VReg) (b c : XReg) (sz : VSize) (imm : Word) (mk : MReg) (l : Nat → Leaf),
    let n := VSize.bits sz / 8
    let base := s.getX b + imm
    let act := (List.range (512 / VSize.bits sz)).filter (on s mk)
    let stores := fun (i : Instr) (addr : Nat → Word) (pend : List Pend) =>
      s.cx.staged = false →
      (∀ j ∈ act, Reaches s (addr j) n .w (l j) ∧ (l j).cls = clsSm ∧ entrySealed (l j).entry = false ∧ AsideClear s (l j).pa n) →
      Completes (exec i s) fun t =>
        let bytes := fun (j : Nat) => (List.range n).map fun q => (el sz (s.getV a) j).extractLsb' (8 * q) 8
        Sends s t (act.mapIdx fun q j =>
          flightOf s (s.net.nextId + q) (.store (bytes j)) (addr j) (l j) (s.scope none) false) pend
    stores (.vst a b c sz imm mk) (fun j => base + BitVec.ofNat 64 (j * n))
      (waitsFor s c (s.net.nextId + act.length) (s.scope none) false) ∧
    stores (.vscat a b ix sz imm mk) (fun j => base + (el sz (s.getV ix) j).signExtend 64 * BitVec.ofNat 64 n) s.cx.pend

/-- R132, R411: JTAB falls through where the index is not below the length; else it goes to the base plus the signed entry
that it reads, and an odd destination raises ALIGN; a length of 0 or above 2^32 − 1 raises ILLEGAL, and an entry whose read fails
a check of R221 traps as a load of it does, ALIGN of a misaligned one first. The path signature folds the address with where it goes;
no register changes.
Where it rests on a choice of the model, that is those of log entries 11, 17, 23 and 37. -/
def Obligations.JumpTable : Prop :=
  ∀ (s : State) (a b : XReg) (len : Word) (l : Leaf) (bs : List Byte),
    let va := s.getX b + 4 * s.getX a
    let go := exec (.jtab a b len) s
    let destOf := fun (bs : List Byte) => s.getX b + (BitVec.ofNat 32 (leNat bs)).signExtend 64
    let sig := fun (to_ : Word) => rotl64 s.cx.sig 13 ^^^ (s.cx.pc ^^^ rotl64 to_ 32)
    (len.toNat = 0 ∨ 2 ^ 32 ≤ len.toNat → Traps go s .illegal none (some s.cx.chain)) ∧
    (0 < len.toNat → len.toNat < 2 ^ 32 →
      (len.toNat ≤ (s.getX a).toNat → Completes go fun t =>
        t = { s with cx := { s.cx with pc := s.cx.npc, sig := sig s.cx.npc } }) ∧
      ((s.getX a).toNat < len.toNat →
        (∀ cause val, Fails s va 4 .r cause val → Traps go s cause (some va) val) ∧
        (Reaches s va 4 .r l →
          (l.cls = clsPriv ∨ l.cls = clsRo ∨ l.cls = clsSm → InTurn s l.pa 4 → marked s l.owner l.line = true →
            Traps go s .poison (some va) none) ∧
          (l.cls = clsCr → ownClear s s.cur (crPlace l va) = none →
            (crMarked s (crPlace l va) = true → Traps go s .poison (some va) none) ∧
            (crMarked s (crPlace l va) = false →
              ((destOf (crBytesOf s l va)).getLsbD 0 = true → Traps go s .align (some (destOf (crBytesOf s l va))) none) ∧
              ((destOf (crBytesOf s l va)).getLsbD 0 = false → Completes go fun t =>
                t.cx.pc = destOf (crBytesOf s l va) ∧ t.cx.sig = sig t.cx.pc ∧ t.cx.x = s.cx.x ∧ t.mem = s.mem ∧ QueuesPass s t))) ∧
          (Shows s l 4 none bs →
            let dest := destOf (ahead s va 4 none bs)
            (dest.getLsbD 0 = false → Completes go fun t => ∃ u, Reads s u ∧
              t = { u with cx := { u.cx with pc := dest, sig := sig dest } }) ∧
            (dest.getLsbD 0 = true → Traps go s .align (some dest) none)))))

/-! ### Atomics, prefetch, witnesses, PCLR (R229 to R239) -/

/-- R214, R229 to R233: an atomic to an SM page leaves for its home with its operands, to go once every earlier write of its
context is delivered, its result register waits for it, its firing is exposed, and it is recorded (R409) and folded into the path
signature (R411); memory changes at the home only (see HomesApply). A size that the entry does not list raises ILLEGAL, a misaligned address ALIGN.
Where it rests on a choice of the model, that is those of log entries 16 and 17. -/
def Obligations.Atomics : Prop :=
  ∀ (s : State) (a b c : XReg) (v : VReg) (sz : Size) (imm : Word) (sc : Option Scope) (l : Leaf) (i : Instr)
      (op : AmoOp),
    let va := s.getX b
    let sends := fun (o : Out) (kind : FlightKind) (d : XReg) => Completes o fun t =>
      t = { s with
        cx := { s.cx with
          pc := s.cx.npc
          early := t.cx.early
          fir := { s.cx.fir with exposed := s.cx.fir.exposed || s.cx.staged }
          sig := rotl64 s.cx.sig 13 ^^^ BitVec.ofNat 64 (3 * 2 ^ 56 + s.cx.evIdx)
          evIdx := (s.cx.evIdx + 1) % 2 ^ 32
          pend := if d = 0 then s.cx.pend else s.cx.pend.filter (fun p => p.reg != d) ++
            [{ reg := d, mark := s.net.nextId + 1, stamp := none, scope := .core, result := some s.net.nextId }] }
        net := { s.net with
          flight := s.net.flight ++ [flightOf s s.net.nextId kind va l (s.scope sc) true], nextId := s.net.nextId + 1 }
        cores := t.cores
        home := { s.home with sealTags := t.home.sealTags } } ∧
      ∀ k, t.coreSt k = { s.coreSt k with perf := (t.coreSt k).perf }
    let ready := l.cls = clsSm ∧ (s.cx.staged = true → s.cx.staging = [])
    ((i, op) ∈ [(Instr.amoadd a b c sz sc, AmoOp.add), (.amoand a b c sz sc, .and), (.amoor a b c sz sc, .or),
        (.amoxor a b c sz sc, .xor), (.amomin a b c sz sc, .min), (.amomax a b c sz sc, .max),
        (.amominu a b c sz sc, .minu), (.amomaxu a b c sz sc, .maxu), (.amoswp a b c sz sc, .swp),
        (.amocas a b c sz sc, .cas), (.amofadd a b c sz sc, .fadd)] →
      let sizes := if op = .fadd then [Size.w, .h] else [.d, .w]
      (sz ∉ sizes → Traps (exec i s) s .illegal none (some s.cx.chain)) ∧
      (sz ∈ sizes → va.toNat % (Size.bits sz / 8) ≠ 0 → Traps (exec i s) s .align (some va) none) ∧
      (sz ∈ sizes → Reaches s va (Size.bits sz / 8) .rw l → ready →
        (inHost l.pa = true → op = .add ∨ op = .swp ∨ op = .cas) →
        sends (exec i s) (.atomic op sz (s.getX c) (s.getX a)) a)) ∧
    (6 ≤ imm.toNat → imm.toNat ≤ 8 → Reaches s va 64 .rw l → ready → inHost l.pa = false →
      sends (exec (.mxacc v b c .w imm sc) s) (.mxacc (s.getV v) imm.toNat) c) ∧
    (imm.toNat < 6 ∨ 8 < imm.toNat ∨ sz ≠ .w →
      Traps (exec (.mxacc v b c sz imm sc) s) s .illegal none (some s.cx.chain))

/-- PRF and PCLR complete (`exec` answers a next state) under the conditions that R234 and R239 set.
R234: PRF changes no register, mask, vector, tile or control register, whatever its address; system scope raises ILLEGAL. Where
the access would fault, it does nothing. Where it would not, a line of a PRIV or RO page that no other context holds dirty comes
into the L1 at core scope (not with NA) and into the near tier at cluster and die scope, and a line of an SM page is read at its
home; a marked line is not fetched.
R239: PCLR of a page that is not RO leaves for the home of its line, and its witness register waits for it; inside an
unexposed recoverable firing it is staged, PRIV pages apart, and the register takes the null witness; of a CR line, once no matrix
operation of the context is outstanding (R119). An RO page raises CLASS, an address off a line boundary ALIGN.
Where it rests on a choice of the model, that is those of log entries 11, 17, 24, 37 and 40. -/
def Obligations.PrefetchAndClear : Prop :=
  (∀ (s : State) (b : XReg) (imm : Word) (sc : Option Scope) (na : Bool) (l : Leaf),
     let va := s.getX b + imm
     let go := exec (.prf b imm sc na) s
     let cached := l.cls = clsRo ∨ (l.cls = clsPriv ∧
       ∀ k ∈ s.home.copies, k.line = l.line → k.dirty = true → k.holder = some s.cur)
     (sc ≠ some .system → ∃ t, exec (.prf b imm sc na) s = .next t ∧
       t.cx.x = s.cx.x ∧ t.cx.v = s.cx.v ∧ t.cx.m = s.cx.m ∧ t.cx.t = s.cx.t ∧ t.cx.crs = s.cx.crs ∧
       t.cx.fir = s.cx.fir ∧ t.cx.staging = s.cx.staging ∧ t.cx.pc = s.cx.npc) ∧
     (sc ≠ some .system → 2 ^ 56 ≤ va.toNat → Completes go fun t => OnlyPc s t s.cx.npc) ∧
     (sc ≠ some .system → Reaches s va 1 .r l →
       (marked s l.owner l.line = true → l.cls = clsSm ∨ l.cls = clsRo ∨ l.cls = clsPriv →
         Completes go fun t => OnlyPc s t s.cx.npc) ∧
       (marked s l.owner l.line = false → l.cls = clsSm → Completes go fun t =>
         t = ((reachHome s s.cur l.owner l.line).sealFrame s.who l.entry l.pa).advance) ∧
       (marked s l.owner l.line = false → cached → na = false → sc = none ∨ sc = some .core → Completes go fun t =>
         (findCopy t (.l1 s.coreNo) l.line).isSome = true) ∧
       (marked s l.owner l.line = false → cached → sc = some .cluster ∨ sc = some .die → Completes go fun t =>
         (findCopy t (.near s.clusterNo) l.line).isSome = true)) ∧
     Traps (exec (.prf b imm (some .system) na) s) s .illegal none (some s.cx.chain)) ∧
  (∀ (s : State) (a b : XReg) (sc : Option Scope) (l : Leaf),
     let va := s.getX b
     let crp := if l.cls = clsCr then some (crPlace l va) else none
     let st := stageClear s.cx.staging va l crp
     let r := (s.sealFrame s.who l.entry l.pa).onCx fun k => (k.dropEarly l.pa 128).dropEarly ((crp.map (·.key)).getD l.pa) 1
     (va.toNat % 128 ≠ 0 → Traps (exec (.pclr a b sc) s) s .align (some va) none) ∧
     (Reaches s va 128 .w l →
       (l.cls = clsRo → Traps (exec (.pclr a b sc) s) s .class_ (some va) none) ∧
       (l.cls ≠ clsRo → s.cx.staged = false ∨ l.cls = clsPriv → ∃ t, exec (.pclr a b sc) s = .next t ∧
         Sends s t [flightOf s s.net.nextId (.pclr l.cls crp) va l (s.scope sc) false]
           (waitsFor s a (s.net.nextId + 1) (s.scope sc) s.cx.staged)) ∧
       (l.cls ≠ clsRo → l.cls ≠ clsPriv → s.cx.staged = true →
         (l.cls = clsCr → ∀ o ∈ (s.coreSt s.coreNo).slice, o.ctx ≠ s.cur) → stagingNeed r st [] ≤ stagingLimit →
         stagingNeed r st [] ≤ stagingNeed r s.cx.staging [] ∨ backingOk r (stagingNeed r st []) = true →
         ∃ t, exec (.pclr a b sc) s = .next t ∧ ∃ u,
           WritesX u t a 0 ∧ u = { s with
             cx := { s.cx with staging := st, early := u.cx.early }
             home := { s.home with sealTags := u.home.sealTags } })))

/-- R235 to R238: WTEST writes 1 where the witness asks for nothing or its stamp is reached by the replica mark of the die
and by both floors; WWAIT raises those floors once the replica mark has reached the stamp, and waits before; what the context has
read ahead is no use after it. WFRONT waits for every write of the context so far. A malformed witness raises WITMAL, and one
that has been waited for is not judged again (R193).
Where it rests on a choice of the model, that is the one of log entry 37. -/
def Obligations.Witnesses : Prop :=
  ∀ (s : State) (a b : XReg),
    let part := partOf (floorsOf s (s.clusterNo / 32) 5) s.oid
    let reached := fun (w : Stamp) => atOrPast (s.dieSt s.dieNo).replMark w = true
    let asks := s.cx.judged.getD (judge s.now (s.getX b))
    (witMalformed (s.getX b) = true →
      Traps (exec (.wtest a b) s) s .witmal none none ∧ Traps (exec (.wwait b) s) s .witmal none none) ∧
    (witMalformed (s.getX b) = false →
      (asks = none →
        Completes (exec (.wtest a b) s) (fun t => WritesX s t a 1) ∧
        Completes (exec (.wwait b) s) (fun t => t = { s with cx := { s.cx with pc := s.cx.npc, early := [] } })) ∧
      (∀ w, asks = some w →
        Completes (exec (.wtest a b) s) (fun t => WritesX s t a (flag (reached w ∧
          atOrPast (s.coreSt s.coreNo).l1Floor w = true ∧
          atOrPast (tget 0 (s.clusterSt s.clusterNo).nearFloor part) w = true))) ∧
        (reached w → Completes (exec (.wwait b) s) fun t =>
          t = { (s.updCore s.coreNo fun k => { k with l1Floor := laterOf k.l1Floor w }).updCluster s.clusterNo fun k =>
              { k with nearFloor := tset k.nearFloor part (laterOf (tget 0 k.nearFloor part) w) } with
            cx := { s.cx with pc := s.cx.npc, early := [] } }) ∧
        (¬reached w → Waits (exec (.wwait b) s) s (.replica w false)))) ∧
    Completes (exec (.wfront a) s) (fun t => t = { s with
      cx := { s.cx with pc := s.cx.npc, pend := waitsFor s a s.net.nextId (s.scope none) s.cx.staged } })

/-! ### Matrix operations and tiles (R155 to R184) -/

/-- R164, R177, R178, R181 to R184: MGANG opens a gang that names the core, where the context has none and the slice serves
none, and closes it with 0; a member opens the latest gang of the mask in its cluster that it has not opened, or else a new
one, where one that it has closed without an operation does not count as opened (R165); TZERO clears a tile; MHINT holds the slice or lets it go; MWAIT waits for the context's matrix
operations, and then for its writes; MSTAT reads the slice and gang, the sticky overflow bit or the special states of a line.
Where it rests on a choice of the model, that is those of log entries 8, 25 and 37. -/
def Obligations.MatrixControl : Prop :=
  ∀ (s : State) (a b c : XReg) (d : TReg) (imm : Word) (l : Leaf),
    let core := s.coreNo
    let n := imm.toNat
    let gangOf := (s.clusterSt s.clusterNo).gangs.find? fun g => g.mask == BitVec.ofNat 8 n
    let p := crPlace l (s.getX b)
    let line := crSeen s p (s.cx.judged.getD (judge s.now (s.getX c)))
    let st := fun (i : Nat) => if (entryFmt l.entry).toNat < 2 then (lget {} line.elems i).st.code else 0
    let unjoined := fun (g : GangOpen) =>
      if s.cx.gang = some (g.mask, 0) ∧ g.inst = s.cx.gangInst then
        { g with joined := g.joined &&& ~~~(BitVec.twoPow 8 (indexOf core)) }
      else g
    let reads := fun (sel : Nat) (v : Word) =>
      Completes (exec (.mstat a b c (BitVec.ofNat 64 sel) ) s) fun t => ∃ u, Reads s u ∧ WritesX u t a v
    Completes (exec (.mgang 0) s) (fun t => t.cx = { s.cx with gang := none, pc := s.cx.npc } ∧
      t = { s with cx := t.cx, cores := t.cores, clusters := t.clusters } ∧
      (∀ k, k ≠ s.clusterNo → t.clusterSt k = s.clusterSt k) ∧
      t.clusterSt s.clusterNo =
        { s.clusterSt s.clusterNo with gangs := (s.clusterSt s.clusterNo).gangs.map unjoined } ∧ (∀ k, t.coreSt k =
        if k = core ∧ (s.coreSt core).sliceGang = some s.cur.which then { s.coreSt k with sliceGang := none }
        else s.coreSt k)) ∧
    (0 < n → n < 256 → imm.getLsbD (indexOf core) = true → s.cx.gang = none → (s.coreSt core).sliceGang = none →
      Completes (exec (.mgang imm) s) fun t => t.cx.gangInst = (match gangOf with
          | none => 0
          | some g => if g.joined.getLsbD (indexOf core) then g.inst + 1 else g.inst) ∧
        t = { s.updCore core fun k => { k with sliceGang := some s.cur.which } with
          cx := { s.cx with gang := some (BitVec.ofNat 8 n, 0), gangInst := t.cx.gangInst, pc := s.cx.npc }
          clusters := t.clusters } ∧
        ∀ k, t.clusterSt k = { s.clusterSt k with gangs := (t.clusterSt k).gangs }) ∧
    (0 < n → n < 256 → imm.getLsbD (indexOf core) = true → s.cx.gang = none → (s.coreSt core).sliceGang ≠ none →
      Waits (exec (.mgang imm) s) s .gangSlice) ∧
    (256 ≤ n ∨ (0 < n ∧ (imm.getLsbD (indexOf core) = false ∨ s.cx.gang ≠ none)) →
      Traps (exec (.mgang imm) s) s .illegal none (some s.cx.chain)) ∧
    Completes (exec (.tzero d) s) (fun t => t.getT d = 0 ∧ (∀ q, q ≠ d → t.getT q = s.getT q) ∧
      t = { s with cx := { s.cx with t := t.cx.t, pc := s.cx.npc, known := t.cx.known, late := t.cx.late } }) ∧
    Completes (exec (.mhint imm) s) (fun t => t = { s.updCore core fun k =>
        { k with
          hold := if imm = 0 then none else some (s.now, s.now + cyclesNs s s.clusterNo (64 * n))
          rampIdle := if imm = 0 then k.rampIdle else false } with
      cx := { s.cx with pc := s.cx.npc } }) ∧
    ((∀ o ∈ (s.coreSt core).slice, o.ctx ≠ s.cur) → Completes (exec (.mwait a) s) fun t => t = { s with
      cx := { s.cx with pc := s.cx.npc, pend := waitsFor s a s.net.nextId (s.scope none) s.cx.staged } }) ∧
    ((∃ o ∈ (s.coreSt core).slice, o.ctx = s.cur) → Waits (exec (.mwait a) s) s .matrixDone) ∧
    (3 ≤ n → Traps (exec (.mstat a b c imm) s) s .illegal none (some s.cx.chain)) ∧
    Completes (exec (.mstat a 0 0 0) s) (fun t => WritesX s t a (BitVec.ofNat 64
      (s.cx.fill.toNat * 2 ^ 32 + ((s.cx.gang.map fun g => g.1.toNat).getD 0) * 32 +
        (if s.cx.gang = none then 0 else 16) + min 8 (s.coreSt core).slice.length))) ∧
    (Reaches s (s.getX b) 1 .r l → l.cls = clsCr → crMarked s p = false → (∀ f ∈ s.net.flight, f.ctx ≠ s.cur) →
      witMalformed (s.getX c) = false →
      reads 1 (flag (line.ovf = true)) ∧
      reads 2 (BitVec.ofNat 64 (((List.range 32).map fun i => st i * 4 ^ i).sum)))

/-- R156, R159, R160, R167, R168, R179: MMA, MMAS and MMAT of a core alone, with formats that have no scales, outside an
unexposed recoverable firing: the operation joins the slice with its depth, format, destination and the bytes of its operands as
they stand, its buffers pass to the slice, and the context goes on; no register, and no byte of memory, changes.
Where it rests on a choice of the model, that is those of log entries 11 and 25. -/
def Obligations.MatrixIssue : Prop :=
  ∀ (s : State) (a b c : XReg) (tb : TReg) (imm : Word) (da db : Desc) (ka kb : Buf),
    let me := indexOf s.coreNo
    let fld := s.getX (nextReg a)
    let fa := fieldN s.cx.crs.mfmt 3 0
    let fb := fieldN s.cx.crs.mfmt 7 4
    let pitch := fieldN fld 31 0
    let (nha, nhb) := (fieldN fld 36 32, fieldN fld 41 37)
    let common := s.cx.gang = none ∧ s.cx.staged = false ∧ 1 ≤ a.toNat ∧ a.toNat ≤ 30 ∧ fld.toNat < 2 ^ 43 ∧
      pitch % 4 = 0 ∧ 128 ≤ pitch ∧ nextHolderOk nha = true ∧ nextHolderOk nhb = true ∧ (s.getX a).toNat % 4 = 0 ∧
      fmtMx fa = false ∧ fmtMx fb = false ∧ (s.coreSt s.coreNo).slice.length < 8 ∧
      descOf s c = .ok db ∧ sliceBuf s db.handle db.addr = .ok kb
    let issues := fun (o : Out) (kind : MatKind) (depth keep : Nat) (rowsA : List (List Byte)) (hs : List Nat) =>
      Completes o fun t => ∃ op : MatOp,
        (t.coreSt s.coreNo) = { s.coreSt s.coreNo with slice := (s.coreSt s.coreNo).slice ++ [op] } ∧
        op.id = s.net.nextId ∧ op.kind = kind ∧ op.depth = depth ∧ op.keep = keep ∧ op.mfmt = s.cx.crs.mfmt ∧
        op.daddr = s.getX a ∧ op.dfld = fld ∧ op.pc = s.cx.pc ∧ op.ctx = s.cur ∧ op.oid = s.oid ∧ op.started = false ∧
        op.a.rows = rowsA ∧
        op.b.rows = (db.readRows kb (depth / 64) (if kind = .mmas then 4 * keep else 64) (4 * fmtBits fb)).1.flatten ∧
        (∀ h, bufOf t s.clusterNo h = (bufOf s s.clusterNo h).map fun k =>
          if h ∈ hs then { k with holder := 8 + me } else k) ∧
        t.cx = { s.cx with pc := s.cx.npc } ∧ t.net = { s.net with nextId := s.net.nextId + 1 } ∧
        t = { s with cx := t.cx, net := t.net, cores := t.cores, clusters := t.clusters }
    let rowsOf := fun (tiles : Nat) => (List.range 32).map fun m =>
      ((da.readRows ka tiles 32 (8 * fmtBits fa)).1.map fun t => lget [] t m).flatten
    let readsA := fun (tiles : Nat) => 1 ≤ b.toNat ∧ b.toNat ≤ 30 ∧ descOf s b = .ok da ∧
      sliceBuf s da.handle da.addr = .ok ka ∧ da.limits 32 (8 * fmtBits fa) 0 = true ∧
      da.extent tiles 32 (8 * fmtBits fa) ≤ ka.size ∧ (da.handle = db.handle → nha = nhb)
    common →
      (imm.toNat < 1024 → db.limits 64 (4 * fmtBits fb) 0 = true →
        db.extent (imm.toNat + 1) 64 (4 * fmtBits fb) ≤ kb.size →
        (readsA (imm.toNat + 1) → issues (exec (.mma a b c imm) s) .mma (64 * (imm.toNat + 1)) 0 (rowsOf (imm.toNat + 1))
          [da.handle, db.handle]) ∧
        (let k := 64 * (imm.toNat + 1)
         let n := (k * fmtBits fa / 8 + 63) / 64
         tb.toNat + n ≤ 8 → issues (exec (.mmat a tb c imm) s) .mmat k 0 (tileRows s tb.toNat n (k * fmtBits fa / 8))
          [db.handle])) ∧
      (let tiles := imm.toNat / 2 + 1
       let keep := if imm.getLsbD 0 then 4 else 8
       imm.toNat < 2048 → db.limits (4 * keep) (4 * fmtBits fb) (64 * keep) = true →
        db.off + (tiles - 1) * db.tilePitch + 4 * keep * db.rowPitch + 64 * keep ≤ kb.size → readsA tiles →
        issues (exec (.mmas a b c imm) s) .mmas (64 * tiles) keep (rowsOf tiles) [da.handle, db.handle])

/-- SPLD, SPST, TLD and TST complete (`exec` answers a next state) under the conditions that R180 and R245 set.
R180, R245: TLD and SPLD read, and TST and SPST write, the bytes of a buffer that the core holds, chunk by chunk
where a tile's descriptor puts them; TLD reads the rows of a tile in SM memory, or what the context has read ahead (R203), and
TST sends them off in aligned units of 8 bytes (R202). A buffer that the core does not hold raises OWNBUF, an offset off a chunk
ALIGN, and bytes outside the buffer PERM; no other buffer, register or byte of memory changes.
Where it rests on a choice of the model, that is those of log entries 8, 16 and 37. -/
def Obligations.TilesAndScratchpad : Prop :=
  ∀ (s : State) (d : TReg) (v : VReg) (b c : XReg) (imm : Word) (dsc : Desc) (k : Buf) (l : Nat → Leaf),
    let row := fun (t : Tile) (r : Nat) => t.extractLsb' (512 * r) 512
    let h := spHandle (s.getX b)
    let off : Int := (spOff (s.getX b) : Int) + imm.toInt
    let addr : Word := BitVec.ofInt 64 (h * 2 ^ 24 + off)
    let va := fun (r : Nat) => s.getX b + BitVec.ofNat 64 r * s.getX c
    let aligned := (s.getX b).toNat % 64 = 0 ∧ (s.getX c).toNat % 64 = 0
    let after := fun (t : State) (core : Prop) => t.mem = s.mem ∧ t.net = s.net ∧ t.home = s.home ∧ t.owners = s.owners ∧
      t.cx.x = s.cx.x ∧ t.cx.m = s.cx.m ∧ t.cx.crs = s.cx.crs ∧ t.cx.pc = s.cx.npc ∧ t.parked = s.parked ∧ core
    let held := coreHolds s s.cur s.oid
    (off % 16 = 0 → 0 ≤ off → held h = some k → off + 64 ≤ k.size →
      (bufPoisoned k off.toNat 64 = false → ∃ t, exec (.spld v b imm) s = .next t ∧ after t
        (t.getV v = BitVec.ofNat 512 (leNat (bufRead k off.toNat 64)) ∧ (∀ q, q ≠ v → t.getV q = s.getV q) ∧
          t.cx.t = s.cx.t ∧ t.clusters = s.clusters)) ∧
      (bufPoisoned k off.toNat 64 = true → Traps (exec (.spld v b imm) s) s .poison (some addr) none) ∧
      ∃ t, exec (.spst v b imm) s = .next t ∧ after t (t.cx.v = s.cx.v ∧ t.cx.t = s.cx.t ∧
        ∀ g, bufOf t s.clusterNo g = if g = h then some (bufWrite k off.toNat (leBytes 64 (s.getV v).toNat))
          else bufOf s s.clusterNo g)) ∧
    (off % 16 ≠ 0 → Traps (exec (.spld v b imm) s) s .align (some addr) none ∧
      Traps (exec (.spst v b imm) s) s .align (some addr) none) ∧
    (off % 16 = 0 → held h = none → Traps (exec (.spld v b imm) s) s .ownbuf (some addr) none ∧
      Traps (exec (.spst v b imm) s) s .ownbuf (some addr) none) ∧
    (off % 16 = 0 → held h = some k → off < 0 ∨ k.size < off + 64 →
      Traps (exec (.spld v b imm) s) s .perm (some addr) none ∧
      Traps (exec (.spst v b imm) s) s .perm (some addr) none) ∧
    (descOf s b = .ok dsc → dsc.rowPitch % 16 = 0 → 64 ≤ dsc.rowPitch → dsc.tilePitch = 0 → held dsc.handle = some k →
      (∀ r < 32, ∀ q < 4, dsc.chunk 0 r q + 16 ≤ k.size) →
      ((∀ r < 32, ∀ q < 4, bufPoisoned k (dsc.chunk 0 r q) 16 = false) → ∃ t, exec (.tld d b 0 1) s = .next t ∧ after t
        ((∀ r < 32, row (t.getT d) r = BitVec.ofNat 512 (leNat (dsc.row k 0 r 64))) ∧
          (∀ q, q ≠ d → t.getT q = s.getT q) ∧ t.cx.v = s.cx.v ∧ t.clusters = s.clusters)) ∧
      ∃ t, exec (.tst d b 0 1) s = .next t ∧ after t (t.cx.v = s.cx.v ∧ t.cx.t = s.cx.t ∧
        (∀ g, g ≠ dsc.handle → bufOf t s.clusterNo g = bufOf s s.clusterNo g) ∧ ∃ k', bufOf t s.clusterNo dsc.handle = some k' ∧
          k'.size = k.size ∧ k'.holder = k.holder ∧ k'.owner = k.owner ∧
          (∀ r < 32, ∀ q < 4, ∀ j < 16, memGet k'.data (dsc.chunk 0 r q + j) =
            (s.getT d).extractLsb' (512 * r + 8 * (16 * q + j)) 8) ∧
          ∀ o, (∀ r < 32, ∀ q < 4, o < dsc.chunk 0 r q ∨ dsc.chunk 0 r q + 16 ≤ o) → memGet k'.data o = memGet k.data o)) ∧
    (aligned → (∀ r < 32, Reaches s (va r) 64 .r (l r) ∧ AtHome s (l r) 64 ∧ entrySealed (l r).entry = false) →
      ∃ (val : Nat → List Byte) (t : State), (∀ r < 32, Gives s (va r) 64 (seen s (l r).pa 64) (val r)) ∧
        exec (.tld d b c 0) s = .next t ∧ ∃ u, Loads s u ∧
        (∀ r < 32, row (t.getT d) r = BitVec.ofNat 512 (leNat (val r))) ∧
        (∀ q, q ≠ d → t.getT q = s.getT q) ∧ t = { u with cx := { u.cx with
          t := t.cx.t, pc := s.cx.npc, known := t.cx.known, late := t.cx.late } }) ∧
    (aligned → s.cx.staged = false →
      (∀ r < 32, Reaches s (va r) 64 .w (l r) ∧ (l r).cls = clsSm ∧ entrySealed (l r).entry = false ∧ AsideClear s (l r).pa 64) →
      ∃ t, exec (.tst d b c 0) s = .next t ∧ Sends s t ((List.range 256).map fun i =>
        let (r, u) := (i / 8, 8 * (i % 8))
        flightOf s (s.net.nextId + i) (.store (((leBytes 64 (row (s.getT d) r).toNat).drop u).take 8))
          (va r + BitVec.ofNat 64 u) { l r with pa := (l r).pa + u } (s.scope none) false)
        s.cx.pend)

/-! ### Commutative-range memory (R169 to R176, R185 to R188) -/

/-- CRCLR, CRFLUSH, CRRD, CRRD.raw and CRADD complete (`exec` answers a next state) under the conditions that R185 to R187 set.
R175, R185: CRCLR outside an unexposed recoverable firing leaves every element of each line of its range 0 with no special state,
the sticky bit clear and no die partial; R174: CRFLUSH folds every partial of each line, and of one line it keeps what a read
gives. With one line, no byte outside its frame changes. A length that is no multiple of 128 from 128 to 2^30, or a misaligned
range, traps.
R186: CRRD reads the rounded values of sixteen elements, and CRRD.raw their counts; R187: CRADD adds one group sum to
each of sixteen elements of the die's partial, or of a new one where there is none or where it is on its way to be folded, and where
no commit of another context is adding to the line (R119). A read takes the line as it is, or as the context has read it ahead
(R203). Of the rest of memory, only the sticky bit of the line may change, in the staging where the firing has staged the line,
unless a new partial takes the way of another line (R340).
Where it rests on a choice of the model, that is those of log entries 10, 11 and 37. -/
def Obligations.CrMemory : Prop :=
  (∀ (s : State) (a b c : XReg) (l : Leaf),
     let va := s.getX a
     let len := (s.getX b).toNat
     let p := crPlace l va
     let frame := 32 * crBytes p.fmt
     let keeps := fun (t : State) => (∀ q, t.getX q = s.getX q) ∧ t.cx.v = s.cx.v ∧ t.cx.crs = s.cx.crs ∧
       t.cx.pc = s.cx.npc ∧ crPartials t p.key = [] ∧ ∀ o, o < p.key ∨ p.key + frame ≤ o → memGet t.mem o = memGet s.mem o
     (len < 128 ∨ 2 ^ 30 < len → Traps (exec (.crclr a b c) s) s .illegal none (some s.cx.chain) ∧
       Traps (exec (.crflush a b c) s) s .illegal none (some s.cx.chain)) ∧
     (128 ≤ len → len ≤ 2 ^ 30 → va.toNat % 128 ≠ 0 ∨ len % 128 ≠ 0 →
       Traps (exec (.crclr a b c) s) s .align (some va) none ∧ Traps (exec (.crflush a b c) s) s .align (some va) none) ∧
     (len = 128 → va.toNat % 128 = 0 → Reaches s va 1 .w l → l.cls = clsCr → crMarked s p = false → s.cx.staged = false →
       (∀ f ∈ s.net.flight, f.ctx ≠ s.cur) → (s.ownerSt l.owner).rpl.mode = 0 → (s.ownerSt s.oid).mpass = none →
       (∃ t, exec (.crclr a b c) s = .next t ∧ keeps t ∧ crHome t p = ⟨List.replicate 32 ⟨some 0, .none⟩, false⟩) ∧
       (∃ t, exec (.crflush a b c) s = .next t ∧ keeps t ∧ crHome t p = crCombined s p))) ∧
  (∀ (s : State) (a b c : XReg) (ls : Nat → Leaf),
     let va := fun (i : Nat) => s.getX a + BitVec.ofNat 64 (128 * i)
     let len := (s.getX b).toNat
     let p := fun (i : Nat) => crPlace (ls i) (va i)
     let keeps := fun (t : State) => (∀ q, t.getX q = s.getX q) ∧ t.cx.v = s.cx.v ∧ t.cx.crs = s.cx.crs ∧
       t.cx.pc = s.cx.npc ∧ ∀ i < len / 128, crPartials t (p i).key = []
     128 ≤ len → len ≤ 2 ^ 30 → (s.getX a).toNat % 128 = 0 → len % 128 = 0 → (s.getX a).toNat + len ≤ 2 ^ 56 →
     s.cx.staged = false → (∀ f ∈ s.net.flight, f.ctx ≠ s.cur) → (s.ownerSt s.oid).mpass = none →
     (∀ i < len / 128, Reaches s (va i) 1 .w (ls i) ∧ (ls i).cls = clsCr ∧ entrySealed (ls i).entry = false ∧
       crMarked s (p i) = false ∧ (s.ownerSt (ls i).owner).rpl.mode = 0) →
       (∃ t, exec (.crclr a b c) s = .next t ∧ keeps t ∧
         ∀ i < len / 128, crHome t (p i) = ⟨List.replicate 32 ⟨some 0, .none⟩, false⟩) ∧
       (∃ t, exec (.crflush a b c) s = .next t ∧ keeps t)) ∧
  (∀ (s : State) (v : VReg) (b c : XReg) (l : Leaf),
     let va := s.getX b
     let p := crPlace l va
     let line := crSeen s p (s.cx.judged.getD (judge s.now (s.getX c)))
     let w := crWidth (entryFmt l.entry)
     let n := 512 / w
     let quiet := l.cls = clsCr ∧ crMarked s p = false ∧ (∀ f ∈ s.net.flight, f.ctx ≠ s.cur)
     let reads := fun (o : Out) (val : Vec) => ∃ t, o = .next t ∧ t.getV v = val ∧ (∀ q, q ≠ v → t.getV q = s.getV q) ∧
       t.cx = { s.cx with
         v := t.cx.v, pc := s.cx.npc, dacc := t.cx.dacc, known := t.cx.known, late := t.cx.late, early := t.cx.early
         wrote := t.cx.wrote, staging := t.cx.staging } ∧
       (s.cx.staged = false → t.cx.staging = s.cx.staging) ∧ t.mem = s.mem ∧ QueuesPass s t ∧
       t.home = { s.home with copies := t.home.copies, sealTags := t.home.sealTags, crMeta := t.home.crMeta } ∧
       t.parked = s.parked ∧ t.clusters = s.clusters
     let sums := (List.range 16).foldl (fun (ln : CrLine) i =>
       ln.contribute p (crElem va + i) (laneSum p (s.getV v) i)) CrLine.empty
     let cl := partialCluster s p.owner p.line s.dieNo
     let set := nearSet s p.owner p.line
     let there := (partialOf s s.dieNo p.key).filter fun q => q.evicted.isNone
     let room := (s.home.copies.countP fun k => k.at_ == .near cl && k.set == set) +
       (s.home.partials.countP fun q => q.cluster == cl && q.set == set) < 24
     quiet → witMalformed (s.getX c) = false →
       (Reaches s va 64 .r l → reads (exec (.crrd v b c false) s)
         (BitVec.ofNat 512 (((List.range 16).map fun i =>
           ((lget {} line.elems (crElem va + i)).value p).1 % 2 ^ 32 * 2 ^ (32 * i)).sum))) ∧
       (Reaches s va (4 * n) .r l → (entryFmt l.entry).toNat < 2 → reads (exec (.crrd v b c true) s)
         (BitVec.ofNat 512 (((List.range n).map fun i =>
           ((lget {} line.elems (crElem va + i)).val.getD 0) % 2 ^ w * 2 ^ (w * i)).sum))) ∧
       (Reaches s va 64 .w l → s.cx.staged = false → (s.ownerSt s.oid).rpl.mode = 0 → (s.ownerSt s.oid).mpass = none →
         commitUnderWay s s.cur [p.key] = false → ∃ t, exec (.cradd v b c) s = .next t ∧
           (∀ q, t.getX q = s.getX q) ∧ t.cx.v = s.cx.v ∧ t.cx.crs = s.cx.crs ∧ t.cx.pc = s.cx.npc ∧
           (there.isSome = true ∨ ((partialOf s s.dieNo p.key).isNone = true ∧ room) → t.mem = s.mem) ∧
           ∃ q ∈ t.home.partials, q.die = s.dieNo ∧ q.place.key = p.key ∧
             q.line = ((there.map Partial.line).getD CrLine.empty).add p.fmt sums))

/-! ### Scratchpad buffers, copies, streams, landing objects (R240 to R261) -/

/-- R240 to R244, R246: BALLOC answers 1 for a handle in use, 2 without room, and else takes the handle with status 0; BFREE,
BGIVE and BEXPORT free, pass and export a buffer that the core holds, and end an export that no peer still reads; SPSTAT reads the
bank waits, a buffer's word, the free bytes and the waiting copies. OWNBUF where the core does not hold the buffer, ILLEGAL for a
handle above 255, a size that is none, or a holder above 7. -/
def Obligations.Buffers : Prop :=
  ∀ (s : State) (a b c : XReg) (k : Buf),
    let cl := s.clusterNo
    let me := indexOf s.coreNo
    let h := (s.getX b).toNat
    let n := (s.getX c).toNat
    let room := (n + 511) / 512 * 512
    let sized := n % 16 = 0 ∧ 16 ≤ n ∧ n ≤ 4194304
    let held := coreHolds s s.cur s.oid h = some k
    let moves := fun (o : Out) (f : Buf → Buf) => Completes o fun t =>
      t = { s.updCluster cl fun q => { q with bufs := tset q.bufs h (f k) } with cx := { s.cx with pc := s.cx.npc } }
    let spaddr : Word := BitVec.ofNat 64 (h * 2 ^ 24)
    (h < 256 → sized →
      (bufOf s cl h ≠ none → Completes (exec (.balloc a b c) s) fun t => WritesX s t a 1) ∧
      (bufOf s cl h = none → freeBytes s cl < room → Completes (exec (.balloc a b c) s) fun t => WritesX s t a 2) ∧
      (bufOf s cl h = none → room ≤ freeBytes s cl → Completes (exec (.balloc a b c) s) fun t => WritesX
        (s.updCluster cl fun q => { q with bufs := tset q.bufs h { owner := s.oid, holder := me, size := n } }) t a 0)) ∧
    (h < 256 → held →
      Completes (exec (.bfree b) s) (fun t => t = { s.updCluster cl fun q => { q with bufs := tdel q.bufs h } with
        cx := { s.cx with pc := s.cx.npc } }) ∧
      (n < 8 → moves (exec (.bgive b c) s) fun k => { k with holder := n }) ∧
      (s.getX c = 1 → moves (exec (.bexportStart b c) s) fun k => { k with holder := 18, exporter := me })) ∧
    (h < 256 → s.getX c = 0 → bufOf s cl h = some k → k.holder = 18 ∧ k.exporter = me ∧ k.owner = s.oid ∧
        k.quarantined = false →
      (k.readers = 0 → moves (exec (.bexportEnd b c) s) fun k => { k with holder := me }) ∧
      (k.readers ≠ 0 → Waits (exec (.bexportEnd b c) s) s (.peers h))) ∧
    (h < 256 → coreHolds s s.cur s.oid h = none →
      Traps (exec (.bfree b) s) s .ownbuf (some spaddr) none ∧
      (n < 8 → Traps (exec (.bgive b c) s) s .ownbuf (some spaddr) none) ∧
      (s.getX c = 1 → Traps (exec (.bexportStart b c) s) s .ownbuf (some spaddr) none)) ∧
    (256 ≤ h ∨ ¬sized → Traps (exec (.balloc a b c) s) s .illegal none (some s.cx.chain)) ∧
    (256 ≤ h → Traps (exec (.bfree b) s) s .illegal none (some s.cx.chain)) ∧
    (256 ≤ h ∨ 8 ≤ n → Traps (exec (.bgive b c) s) s .illegal none (some s.cx.chain)) ∧
    Completes (exec (.spstat a b 0) s) (fun t => WritesX s t a s.cx.bankWait) ∧
    (h < 256 → Completes (exec (.spstat a b 1) s) fun t => WritesX s t a (((bufOf s cl h).map fun k =>
      BitVec.ofNat 64 (k.owner % 256 * 2 ^ 37 + k.holder % 32 * 2 ^ 32 + k.size % 2 ^ 23)).getD 0)) ∧
    Completes (exec (.spstat a b 2) s) (fun t => WritesX s t a (BitVec.ofNat 64 (freeBytes s cl))) ∧
    Completes (exec (.spstat a b 3) s) (fun t => WritesX s t a
      (BitVec.ofNat 64 (min 32 ((s.clusterSt cl).copyQ.filter fun q => !q.started).length))) ∧
    (∀ i : Word, 4 ≤ i.toNat → Traps (exec (.spstat a b i) s) s .illegal none (some s.cx.chain))

/-- R247 to R251: CPY, CPYM and CPYR with legal endpoints and control word, local buffers that the core holds and that hold the
rows, no landing object, and a firing that is not staging: the copy joins the engine's queue with its endpoints, control word,
witness and scope, the buffers pass to the engine, and no byte is moved yet.
Where it rests on a choice of the model, that is those of log entries 8 and 32. -/
def Obligations.Copies : Prop :=
  ∀ (s : State) (a b c : XReg) (sc : Option Scope) (na : Bool) (dst src : Endpoint),
    let ctl := s.getX c
    let wit := s.getX (nextReg c)
    let rows := ctlRows ctl
    let len := ctlLen ctl
    let op := ctlOp ctl
    let cl := s.clusterNo
    let fits := fun (e : Endpoint) => e.kind = 1 →
      ∃ k, coreHolds s s.cur s.oid (spHandle e.addr) = some k ∧ spOff e.addr + (rows - 1) * e.pitch + len ≤ k.size
    let legal := 1 ≤ c.toNat ∧ c.toNat ≤ 30 ∧ ctlLnd ctl = 31 ∧ fieldN ctl 38 34 < 8 ∧ fieldN ctl 33 24 = 0 ∧ len ≠ 0 ∧
      witMalformed wit = false ∧ endpointOf s a = .ok dst ∧ endpointOf s b = .ok src ∧ src.kind < 2 ∧ fits src ∧ fits dst ∧
      s.cx.staged = false ∧ ((s.clusterSt cl).copyQ.countP fun q => !q.started) < 32
    let queued := fun (o : Out) (kind : CopyKind) => Completes o fun t => ∃ q : CopyOp,
      (t.clusterSt cl).copyQ = (s.clusterSt cl).copyQ ++ [q] ∧ q.tag = s.net.nextId ∧ q.kind = kind ∧
      q.dAddr = dst.addr ∧ q.dShape = dst.shape ∧ q.sAddr = src.addr ∧ q.sShape = src.shape ∧ q.ctl = ctl ∧ q.wit = wit ∧
      q.scope = s.scope sc ∧ q.na = na ∧ q.ctx = s.cur ∧ q.oid = s.oid ∧ q.started = false ∧ q.sent = false ∧
      (∀ h, bufOf t cl h = (bufOf s cl h).map fun k =>
        if (dst.kind = 1 ∧ h = spHandle dst.addr) ∨ (src.kind = 1 ∧ h = spHandle src.addr) then { k with holder := 16 }
        else k) ∧
      t.cx = { s.cx with pc := s.cx.npc, copies := s.cx.copies ++ [q.tag] } ∧
      t = { s with
        cx := t.cx
        net := { s.net with nextId := s.net.nextId + 1 }
        cores := t.cores
        clusters := t.clusters }
    legal →
      (op = 0 → dst.kind < 2 → queued (exec (.cpy a b c sc na) s) .cpy) ∧
      (op = 0 → dst.kind = 2 → dst.clusters ≠ [] →
        (∀ x ∈ dst.clusters, ∀ k, bufOf s x (spHandle dst.addr) = some k →
          spOff dst.addr + (rows - 1) * dst.pitch + len ≤ k.size) →
        queued (exec (.cpym a b c sc na) s) .cpym) ∧
      (op < 6 → dst.kind = 1 →
        (let n := if op = 3 then 2 else 4
         len % n = 0 ∧ ∀ e ∈ [src, dst], e.addr.toNat % n = 0 ∧ (rows = 1 ∨ e.pitch % n = 0)) →
        queued (exec (.cpyr a b c sc na) s) (.cpyr op))

/-- R259, R261: SBIND binds one of v56 to v63 to its endpoint and pattern from the first vector, in place of an earlier
binding; SUNBIND ends a binding. Neither changes a register. A register below v56, a peer endpoint or a reserved pattern bit
raises ILLEGAL. R300, R301, R324: WAITA answers at once where the word differs, and else waits with a monitor entry.
Where it rests on a choice of the model, that is those of log entries 8, 27 and 37. -/
def Obligations.StreamsAndWaita : Prop :=
  ∀ (s : State) (v : VReg) (a b c : XReg) (na : Bool) (e : Endpoint) (l : Leaf),
    let p := s.getX c
    let n := if e.kind = 0 then 64 else 16
    let word : Word := BitVec.ofNat 64 (leNat (ahead s (s.getX b) 8 none (seen s l.pa 8)))
    let held := (s.coreSt s.coreNo).monitor
    (endpointOf s b = .ok e →
      (56 ≤ v.toNat → e.kind < 2 → fieldN p 62 56 = 0 → fieldN p 15 0 = 0 → e.addr.toNat % n = 0 →
        (fieldN p 43 28 = 0 ∨ e.pitch % n = 0) → Completes (exec (.sbind v b c na) s) fun t => KeepsRegs s t ∧
          (∃ k ∈ t.cx.streams, k.reg = v ∧ k.addr = e.addr ∧ k.shape = e.shape ∧ k.pattern = p ∧ k.na = na ∧ k.pos = 0) ∧
          ∀ r, r ≠ v → boundTo t r = boundTo s r) ∧
      (v.toNat < 56 ∨ e.kind = 2 ∨ fieldN p 62 56 ≠ 0 ∨ fieldN p 15 0 ≠ 0 →
        Traps (exec (.sbind v b c na) s) s .illegal none (some s.cx.chain))) ∧
    Completes (exec (.sunbind v) s) (fun t => boundTo t v = none ∧ (∀ r, r ≠ v → boundTo t r = boundTo s r) ∧
      t = { s with cx := { s.cx with streams := t.cx.streams, pc := s.cx.npc } }) ∧
    (Reaches s (s.getX b) 8 .r l → AtHome s l 8 →
      (word ≠ s.getX c → s.cx.woke = none → Completes (exec (.waita a b c) s) fun t => ∃ u, Reads s u ∧
        WritesX (u.updCore s.coreNo fun k => { k with monitor := k.monitor.filter (· != s.cur) }) t a 0) ∧
      (word = s.getX c → inWindow l.pa = false → s.cx.woke = none → s.cur ∉ held → held.length < 16 →
        ∃ u, Reads s u ∧ exec (.waita a b c) s = .next ((u.updCore s.coreNo fun k =>
          { k with monitor := k.monitor ++ [s.cur] }).onCx fun k =>
            { k with wait := some (.address (s.getX b) (s.getX c) false) })))

/-- R253 to R258: LNDSET makes a landing object that counts, or one of slots whose buffers the core gives up; LNDWAIT answers
with the witness, status and handle once enough has come, and waits before; LNDREL gives a slot back, or dismantles the object
once nothing is still due. An object that is not set raises ILLEGAL. LNDSET of an object that is set raises ILLEGAL,
whoever has set it.
Where it rests on a choice of the model, that is those of log entries 32, 41 and 42. -/
def Obligations.LandingObjects : Prop :=
  ∀ (s : State) (a b c : XReg) (o : Landing),
    let core := s.coreNo
    let cl := s.clusterNo
    let w := s.getX b
    let mode := fieldN w 63 62
    let hs := if mode = 0 then [] else (List.range (fieldN w 53 48 + 1)).map (fieldN w 61 54 + ·)
    let num := (s.getX b).toNat
    let adds := fun (r : State) (q : Landing → Landing) =>
      r.updCore core fun k => { k with landing := lupd (fun (x : Landing) => x.n == o.n) q k.landing }
    ((s.getX a).toNat < 16 → landingOf s core (s.getX a).toNat = none → mode < 3 → fieldN w 47 32 = 0 →
      fieldN w 31 0 ≠ 0 → (mode = 2 ∨ fieldN w 53 48 = 0) → (mode = 0 ∨ fieldN w 61 54 + fieldN w 53 48 ≤ 255) →
      s.getX c = 0 → (∀ h ∈ hs, coreHolds s s.cur s.oid h ≠ none) → Completes (exec (.lndset a b c) s) fun t =>
        (t.coreSt core).landing = (s.coreSt core).landing ++ [
          { n := (s.getX a).toNat, oid := s.oid, mode := mode, count := 0, wit := 0, status := 0, tcnt := 0
            expect := fieldN w 31 0, sMode := s.cx.crs.cmode, bufs := hs.map fun h => (h, 0, false), next := 0
            oldest := 0 }] ∧
        (∀ h, bufOf t cl h = (bufOf s cl h).map fun k => if h ∈ hs then { k with holder := 17 } else k) ∧
        t = { s with cx := { s.cx with pc := s.cx.npc }, cores := t.cores, clusters := t.clusters }) ∧
    ((s.getX a).toNat < 16 → landingOf s core (s.getX a).toNat = some o → mode < 3 → fieldN w 47 32 = 0 →
      fieldN w 31 0 ≠ 0 → (mode = 2 ∨ fieldN w 53 48 = 0) → (mode = 0 ∨ fieldN w 61 54 + fieldN w 53 48 ≤ 255) →
      Traps (exec (.lndset a b c) s) s .illegal none (some s.cx.chain)) ∧
    (num < 16 → landingOf s core num = some o → o.oid = s.oid →
      (o.mode = 0 → o.expect ≤ o.count → Completes (exec (.lndwait a b c) s) fun t => WritesPair
        (adds s fun x => { x with count := x.count - x.expect, wit := 0, status := 0 }) t a c o.wit
        (BitVec.ofNat 64 (o.status % 4 * 2 ^ 62))) ∧
      (o.mode = 0 → o.count < o.expect → Waits (exec (.lndwait a b c) s) s (.landing o.n)) ∧
      (o.mode ≠ 0 → ∀ h n handed, o.bufs[o.oldest]? = some (h, n, handed) →
        (handed = false → o.expect ≤ n → Completes (exec (.lndwait a b c) s) fun t => WritesPair
          (adds (updBuf s cl h fun k => { k with holder := indexOf core }) fun x => { x with
            bufs := x.bufs.modify x.oldest (fun q => (q.1, q.2.1, true))
            oldest := (x.oldest + 1) % x.bufs.length, wit := 0, status := 0 }) t a c o.wit
          (BitVec.ofNat 64 (o.status % 4 * 2 ^ 62 + h))) ∧
        (handed = true ∨ n < o.expect → Waits (exec (.lndwait a b c) s) s (.landing o.n))) ∧
      (∀ q ∈ o.bufs, q.1 < 256 → s.getX a = BitVec.ofNat 64 q.1 → coreHolds s s.cur s.oid q.1 ≠ none →
        Completes (exec (.lndrelBuffer a b) s) fun t => t = { adds (updBuf s cl q.1 fun k => { k with holder := 17 })
          (fun x => { x with bufs := x.bufs.map fun y => if y.1 = q.1 then (y.1, 0, false) else y }) with
            cx := { s.cx with pc := s.cx.npc } }) ∧
      (s.getX a = BitVec.allOnes 64 → landingBusy s core o = false →
        Completes (exec (.lndrelDismantle a b) s) fun t => (∀ x ∈ (t.coreSt core).landing, x.n ≠ o.n) ∧
          (∀ h, bufOf t cl h = (bufOf s cl h).map fun k =>
            if ∃ q ∈ o.bufs, q.1 = h then { k with holder := indexOf core } else k) ∧
          t = { s with cx := { s.cx with pc := s.cx.npc }, cores := t.cores, clusters := t.clusters }) ∧
      (s.getX a = BitVec.allOnes 64 → landingBusy s core o = true →
        Waits (exec (.lndrelDismantle a b) s) s (.dismantle o.n))) ∧
    (16 ≤ num ∨ landingOf s core num = none →
      Traps (exec (.lndwait a b c) s) s .illegal none (some s.cx.chain) ∧
      Traps (exec (.lndrelBuffer a b) s) s .illegal none (some s.cx.chain))

/-! ### Tasks, counters, levels, barriers, announcements (R275 to R324) -/

/-- END, EXPOSE, YIELD, SELF, HSPAWN and HSTOP complete (`exec` answers a next state) under the conditions that R280, R306 and
R317 to R320 set.
R280: END waits while a copy, a load or a matrix operation of the firing is outstanding; with nothing outstanding and every
write delivered it drops its launch's count with its completion witness and frees the context. R318: EXPOSE of an unexposed
recoverable firing sends every staged store, counter message and request off, waits for the last of them, and exposes the firing;
it does nothing to any other firing. R319: YIELD saves the context as pre-emption does, puts its resume entry at the old end of
the deque and takes a record, where a record of its class or above waits, the firing is not unexposed and recoverable and has no
open gang; else it has no effect. R317, R320: HSPAWN starts the helper with fresh registers and x1, HSTOP stops it, and SELF
reads the firing's own description.
Where it rests on a choice of the model, that is those of log entries 11, 27, 37 and 43. -/
def Obligations.FiringControl : Prop :=
  (∀ (s u v : State),
    let core := s.coreNo
    let w := Counted u .device
    let wit := witnessMax (mkWit .device w.cx.runMax) (mkWit .device (witStamp w.cx.copyWit))
    let quiet := s.cx.copies = [] ∧ s.cx.late = [] ∧ (∀ o ∈ (s.coreSt core).slice, o.ctx ≠ s.cur) ∧ Clean s ∧
      s.cx.engFaults = [] ∧ s.cx.staged = false
    (s.cx.copies ≠ [] ∨ s.cx.late ≠ [] ∨ (∃ o ∈ (s.coreSt core).slice, o.ctx = s.cur) → Waits (exec .endf s) s .drain) ∧
    (quiet → u = endRelease s → delivered u s.cur u.net.nextId .device = true → (∀ r ∈ u.home.replLog, r.ctx ≠ ⟨core, 3⟩) →
      Clean u → levelDec s.cur s.oid 4 w s.cx.fir.launch.toNat wit false = .ok v →
      Completes (exec .endf s) fun t => t = endFiring v ∧ t.ctxOf s.cur = {}) ∧
    (quiet → delivered s s.cur s.net.nextId .device = true → (∀ r ∈ s.home.replLog, r.ctx ≠ ⟨core, 3⟩) →
      TableReady s s.oid → ∃ t, exec .endf s = .next t ∧ t.ctxOf s.cur = {})) ∧
  (∀ (s : State),
    (s.cx.staged = false → Completes (exec .expose s) fun t => OnlyPc s t s.cx.npc) ∧
    (s.cx.staged = true → s.cx.staging = [] → Completes (exec .expose s) fun t => t = { s with
      cx := { s.cx with pc := s.cx.npc, early := [], fir := { s.cx.fir with exposed := true } } }) ∧
    (s.cx.staged = true → s.cx.staging ≠ [] → ∃ u, Waits (exec .expose s) u (.writes .core u.net.nextId) ∧
      u.cx.x = s.cx.x ∧ u.cx.v = s.cx.v ∧ u.cx.m = s.cx.m ∧ u.cx.t = s.cx.t ∧ u.cx.pc = s.cx.pc ∧ u.mem = s.mem ∧
      u.cx.staging = [] ∧ u.cx.fir = { s.cx.fir with exposed := true } ∧
      (∀ f ∈ u.net.flight, f ∉ s.net.flight → f.ctx = s.cur ∧ s.net.nextId ≤ f.id ∧ f.id < u.net.nextId) ∧
      (∀ e ∈ s.cx.staging, e.key ≠ none → ∃ f ∈ u.net.flight, ∃ es ks b, f.kind = .commit es ks b ∧ e ∈ es) ∧
      (∀ va pa owner n, .count va pa owner n ∈ s.cx.staging → ∃ f ∈ u.net.flight,
        f.kind = .count n true ∧ f.pa = pa ∧ f.owner = owner ∧ f.earlier = true) ∧
      (∀ e ∈ s.cx.staging, e.key = none → (∀ va pa owner n, e ≠ .count va pa owner n) →
        ∃ f ∈ u.net.flight, ∃ es, f.kind = .requests es ∧ e ∈ es))) ∧
  (∀ (s u : State) (i : Nat),
    let core := s.coreNo
    let e : DequeEntry :=
      { record := s.cx.fir.record, addr := s.cx.fir.recAddr, startWit := s.cx.fir.startWit, fid := s.cx.fir.fid
        retry := s.cx.fir.retry, resume := some i }
    (s.cx.staged = true ∨ s.cx.gang ≠ none ∨
        (∀ e ∈ (s.coreSt core).deque, (recPrio e.record).toNat < s.cx.fir.prio.toNat) →
      Completes (exec .yieldf s) fun t => OnlyPc s t s.cx.npc) ∧
    (s.cx.staged = false → s.cx.gang = none →
      (∃ e ∈ (s.coreSt core).deque, s.cx.fir.prio.toNat ≤ (recPrio e.record).toNat) →
      (pushDeque s core s.oid { e with resume := some 0 } true).isSome = true →
      preemptCtx s.advance s.cur none false = (.slot i, u) →
      Completes (exec .yieldf s) fun t => t = dispatch (pushOrPend u core s.oid e true none) s.cur)) ∧
  (∀ (s : State) (a b : XReg),
    let core := s.coreNo
    let h : CtxId := ⟨core, 2⟩
    let target := s.getX b
    let started : Ctx :=
      { x := (Vector.replicate 32 (0 : Word)).set 1 (s.getX 1), pc := target, life := .running
        crs := { cmode := s.cx.crs.cmode }, fir := { oid := s.cx.fir.oid, isSealed := s.cx.fir.isSealed } }
    Completes (exec (.self a 0) s) (fun t => WritesX s t a s.cx.fir.startWit) ∧
    Completes (exec (.self a 1) s) (fun t => WritesX s t a s.cx.fir.recAddr) ∧
    Completes (exec (.self a 2) s) (fun t => WritesX s t a (BitVec.ofNat 64 s.cx.holds.length)) ∧
    (∀ i : Word, 3 ≤ i.toNat → Traps (exec (.self a i) s) s .illegal none (some s.cx.chain)) ∧
    (target.getLsbD 0 = true → Traps (exec (.hspawn a b) s) s .align (some target) none) ∧
    (s.cur.which ≠ 2 → target.getLsbD 0 = false →
      ((s.coreSt core).helperOf = none ∨ (s.coreSt core).helperOf = some s.cur.which →
        Completes (exec (.hspawn a b) s) fun t => t.ctxOf h = started ∧ (t.coreSt core).helperOf = some s.cur.which ∧
          ∃ r, WritesX r t a 0 ∧ r = { s with parked := r.parked, cores := r.cores }) ∧
      (∀ w, (s.coreSt core).helperOf = some w → w ≠ s.cur.which →
        Completes (exec (.hspawn a b) s) fun t => WritesX s t a 1)) ∧
    (s.cur.which ≠ 2 → (s.coreSt core).helperOf = some s.cur.which → Completes (exec .hstop s) fun t =>
      t.ctxOf h = {} ∧ (t.coreSt core).helperOf = none ∧
      t = { s with cx := { s.cx with pc := s.cx.npc }, parked := t.parked, cores := t.cores }) ∧
    ((s.coreSt core).helperOf ≠ some s.cur.which → Completes (exec .hstop s) fun t => OnlyPc s t s.cx.npc))

/-- R276, R304, R305, R307: SPAWN and ARM of a record that is read and checked write the status with which the record is queued
or armed; a queued record is in a deque, with its address and the presenter's running maximum; in an unexposed recoverable
firing the request is staged with status 0, and nothing else happens. Both complete (`exec` answers a next state) for a record of
the firing's own owner that lies in SM memory, with a status. R308: DISARM answers 1 for a counter without a watch, and
0 where it removes the owner's watch; another owner's raises PERM.
Where it rests on a choice of the model, that is those of log entries 11, 27 and 43. -/
def Obligations.Requests : Prop :=
  ∀ (s u v : State) (a b c : XReg) (r : BitVec 512) (st e : Nat) (l : Leaf),
    let va := s.getX b
    let sent := Counted s (s.scope none)
    let ready := Counted u (u.scope none)
    let wit := mkWit (u.scope none) ready.cx.runMax
    let staged := fun (q : Staged) => stagingNeed u (u.cx.staging ++ [q]) [] ≤ stagingLimit ∧
      backingOk u (stagingNeed u (u.cx.staging ++ [q]) []) = true
    let goesOn := fun (t : State) => (∀ q, q ≠ a → t.getX q = s.getX q) ∧ t.cx.pc = s.cx.npc
    (RecordAt s va r → witMalformed (s.getX c) = false → recordOk r = true → recOwner r = s.oid → TableReady s s.oid →
      s.cx.staged = false →
      (Delivered s (s.scope none) → ∃ t, exec (.spawn a b c) s = .next t ∧ goesOn t ∧
        (a ≠ 0 → (t.getX a).toNat < 4)) ∧
      (Reaches s (recTcnt r) 8 .w l → l.cls = clsSm → inWindow l.pa = false →
        permOk ⟨s.oid, true, s.coreNo, false⟩ .w l.entry = true → recTcnt r ≠ 0 → recThresh r ≠ 0 →
        ∃ t, exec (.arm a b c) s = .next t ∧ goesOn t ∧ (a ≠ 0 → (t.getX a).toNat % 256 < 8))) ∧
    (s.cx.staged = false → Delivered s (s.scope none) → readRecord sent va (some (s.getX c)) false = .ok (r, u) →
      u.cx.staged = false → Delivered u (u.scope none) → spawnRecord ready u.cur r va wit = .ok (st, v) →
      Completes (exec (.spawn a b c) s) fun t => WritesX v t a (BitVec.ofNat 64 st) ∧
        (st = 0 → ∃ core, ∃ q ∈ (t.coreSt core).deque, q.record = r ∧ q.addr = va ∧ q.startWit = wit)) ∧
    (s.cx.staged = true → readRecord s va (some (s.getX c)) false = .ok (r, u) →
      u.cx.staged = true → staged (.spawn r va u.cx.pc) → Completes (exec (.spawn a b c) s) fun t =>
        WritesX { u with cx := { u.cx with staging := u.cx.staging ++ [.spawn r va u.cx.pc] } } t a 0) ∧
    (readRecord s va (some (s.getX c)) true = .ok (r, u) →
      (u.cx.staged = false → armRecord u u.cur r va = .ok (st, e, v) → Completes (exec (.arm a b c) s) fun t =>
        WritesX v t a (BitVec.ofNat 64 (e % 256 * 256 + st))) ∧
      (u.cx.staged = true → staged (.arm r va u.cx.pc) → Completes (exec (.arm a b c) s) fun t =>
        WritesX { u with cx := { u.cx with staging := u.cx.staging ++ [.arm r va u.cx.pc] } } t a 0)) ∧
    (Reaches s va 8 .w l → l.cls = clsSm → inWindow l.pa = false →
      (s.cx.staged = false → (∀ w ∈ s.home.watches, w.pa ≠ l.pa) → Completes (exec (.disarm a b) s) fun t =>
        ∃ q, WritesX q t a 1 ∧ q = { s with home := { s.home with sealTags := q.home.sealTags } }) ∧
      (s.cx.staged = false → (∃ w ∈ s.home.watches, w.pa = l.pa) → (∀ w ∈ s.home.watches, w.pa = l.pa → w.oid = s.oid) →
        Completes (exec (.disarm a b) s) fun t => (a ≠ 0 → t.getX a = 0) ∧ (∀ q, q ≠ a → t.getX q = s.getX q) ∧
          ∀ w ∈ t.home.watches, w.pa ≠ l.pa) ∧
      ((∃ w ∈ s.home.watches, w.pa = l.pa ∧ w.oid ≠ s.oid) → Traps (exec (.disarm a b) s) s .perm (some va) none))

/-- R309: CNTADD outside an unexposed recoverable firing sends its amount to the counter's home with the running maximum, to go
once that is delivered, and inside one it is staged; R310: CNTRD reads a counter and its witness. The counter lies on an SM
page: CRFMT for a CR page, CLASS for another.
Where it rests on a choice of the model, that is those of log entries 11, 27, 37 and 41. -/
def Obligations.Counters : Prop :=
  ∀ (s : State) (a b c : XReg) (sc : Option Scope) (l : Leaf),
    let va := s.getX b
    let st := s.cx.staging ++ [Staged.count va l.pa l.owner (s.getX a)]
    let r := s.sealLeaf s.who l
    (Reaches s va 8 .w l → l.cls = clsSm → inWindow l.pa = false →
      (s.cx.staged = false → Completes (exec (.cntadd a b sc) s) fun t => Sends s t
        [{ flightOf s s.net.nextId (.count (s.getX a) false) va l (s.scope sc) true with
          wit := mkWit (s.scope sc) s.cx.runMax }] s.cx.pend) ∧
      (s.cx.staged = true → stagingNeed r st [] ≤ stagingLimit →
        stagingNeed r st [] ≤ stagingNeed r s.cx.staging [] ∨ backingOk r (stagingNeed r st []) = true →
        Completes (exec (.cntadd a b sc) s) fun t => t = { s with
          cx := { s.cx with pc := s.cx.npc, staging := st }
          home := { s.home with sealTags := t.home.sealTags } })) ∧
    (Reaches s va 8 .w l → l.cls ≠ clsSm →
      Traps (exec (.cntadd a b sc) s) s (if l.cls = clsCr then .crfmt else .class_) (some va) none) ∧
    (Reaches s va 8 .r l → AtHome s l 8 → inWindow l.pa = false → Completes (exec (.cntrd a b c) s) fun t =>
      ∃ u, Reads s u ∧ WritesPair u t a c (BitVec.ofNat 64 (leNat (memRead s.mem l.pa 8)))
        (((s.home.watches.find? fun w => w.pa == l.pa).map fun w => w.wit).getD 0)) ∧
    (Reaches s va 8 .r l → l.cls ≠ clsSm →
      Traps (exec (.cntrd a b c) s) s (if l.cls = clsCr then .crfmt else .class_) (some va) none)

/-- R286, R287, R311, R312, R314: LVOPEN opens a level that is closed, with count 1 and a hold of the firing, as a job or
under an open parent of the next kind, and answers 1 to 4 where it may not (the order of these statuses is the model's: log entry
51), with memory as it was; a job that names another level as its parent, and a kind above 3, raise ILLEGAL. LVWAIT reads the
completion witness and status of a closed level and waits for an open one, and of a level that the firing holds it first releases
the hold; LVSTAT reads an entry, its reserved bits as zero (R5). Each completes (`exec` answers a next state) where its core reaches
the entries.
Where it rests on a choice of the model, that is those of log entries 27, 41 and 51. -/
def Obligations.Levels : Prop :=
  ∀ (s u v : State) (a b c : XReg) (l q : Level) (li lp : Leaf),
    let i := (s.getX b).toNat
    let p := (s.getX c).toNat
    let hold := fun (r : State) => r.onCx fun k => { k with holds := k.holds ++ [BitVec.ofNat 12 i] }
    let opens := fun (kind : Nat) (r : State) => levelPut r s.cur
      { l with lo := BitVec.ofNat 64 (kind * 2 ^ 62 + 2 ^ 60 + p * 2 ^ 48 + 1), wit := 0 }
    let lvopen := fun (kind : Nat) => exec (.lvopen a b c (BitVec.ofNat 64 kind)) s
    let bitOf := fun (f : Leaf) (n : Nat) => (levelLo s f).getLsbD n
    let goesOn := fun (t : State) (n : Word) => t.getX a = (if a = 0 then 0 else n) ∧ (∀ q, q ≠ a → t.getX q = s.getX q) ∧
      t.cx.pc = s.cx.npc
    let opened := fun (m : List Host.Cell) (kind : Nat) => levelMem m li (levelOpened kind p) 0
    let shown := fun (lo : Word) => lo &&& ~~~(BitVec.ofNat 64 (0x7fff * 2 ^ 32))
    let status := fun (lo : Word) => BitVec.ofNat 64 ((if lo.getLsbD 47 then 2 else 0) + (if lo.getLsbD 61 then 1 else 0))
    (i < 4096 → p < 4096 → LevelAt s s.oid i li →
      (bitOf li 60 = true → ∀ kind < 3, ∃ t, lvopen kind = .next t ∧ goesOn t 1 ∧ t.mem = s.mem) ∧
      (bitOf li 60 = false → i = p → s.cx.holds.length < 8 → ∃ t, lvopen 3 = .next t ∧ goesOn t 0 ∧
        t.cx.holds = s.cx.holds ++ [BitVec.ofNat 12 i] ∧ t.mem = opened s.mem 3) ∧
      (∀ kind < 3, bitOf li 60 = false → LevelAt s s.oid p lp → entrySealed li.entry = false → entrySealed lp.entry = false →
        bitOf lp 60 = true → bitOf lp 61 = false → fieldN (levelLo s lp) 63 62 = kind + 1 → s.cx.holds.length < 8 →
        fieldN (levelLo s lp) 31 0 + 1 < 2 ^ 32 - 1 → ∃ t, lvopen kind = .next t ∧ goesOn t 0 ∧
          t.cx.holds = s.cx.holds ++ [BitVec.ofNat 12 i] ∧
          t.mem = opened (levelMem s.mem lp (withCount (levelLo s lp) (fieldN (levelLo s lp) 31 0 + 1)) (levelWit s lp)) kind) ∧
      (bitOf li 60 = false → BitVec.ofNat 12 i ∉ s.cx.holds → ∃ t, exec (.lvwait a b c) s = .next t ∧
        ∃ r, Untouched s r ∧ WritesPair r t a c (levelWit s li)
          (status (levelLo s li))) ∧
      (∃ t, exec (.lvstat a b c) s = .next t ∧ ∃ r, Untouched s r ∧ WritesPair r t a c (shown (levelLo s li)) (levelWit s li))) ∧
    (i < 4096 → levelGet s s.cur s.oid i = .ok (l, u) → Untouched s u ∧
      (p < 4096 →
        (l.isOpen = true → (∀ kind < 3, Completes (lvopen kind) fun t => WritesX u t a 1) ∧
          (i = p → Completes (lvopen 3) fun t => WritesX u t a 1)) ∧
        (l.isOpen = false → i = p →
          (8 ≤ s.cx.holds.length → Completes (lvopen 3) fun t => WritesX u t a 3) ∧
          (s.cx.holds.length < 8 → Completes (lvopen 3) fun t => WritesX (hold (opens 3 u)) t a 0)) ∧
        (∀ kind < 3, l.isOpen = false → levelGet u s.cur s.oid p = .ok (q, v) →
          (q.isOpen = false ∨ q.cancelled = true ∨ q.kind ≠ kind + 1 →
            Completes (lvopen kind) fun t => WritesX v t a 2) ∧
          (q.isOpen = true → q.cancelled = false → q.kind = kind + 1 →
            (8 ≤ s.cx.holds.length → Completes (lvopen kind) fun t => WritesX v t a 3) ∧
            (∀ r added, s.cx.holds.length < 8 → levelAdd v s.cur s.oid p = .ok (added, r) →
              Completes (lvopen kind) fun t => if added then WritesX (hold (opens kind r)) t a 0 else WritesX r t a 4)))) ∧
      (BitVec.ofNat 12 i ∉ s.cx.holds →
        (l.isOpen = false → Completes (exec (.lvwait a b c) s) fun t => WritesPair u t a c l.wit (status l.lo)) ∧
        (l.isOpen = true → Waits (exec (.lvwait a b c) s) u (.level i))) ∧
      Completes (exec (.lvstat a b c) s) fun t => WritesPair u t a c (shown l.lo) l.wit) ∧
    (∀ r, i < 4096 → BitVec.ofNat 12 i ∈ s.cx.holds → levelDec s.cur s.oid 4 s i 0 false = .ok r →
      let free := r.onCx fun k => { k with holds := k.holds.filter (· != BitVec.ofNat 12 i) }
      levelGet free s.cur s.oid i = .ok (l, u) →
        (l.isOpen = false → Completes (exec (.lvwait a b c) s) fun t => WritesPair u t a c l.wit (status l.lo)) ∧
        (l.isOpen = true → Waits (exec (.lvwait a b c) s) u (.level i))) ∧
    (s.getX b = BitVec.allOnes 64 → levelGet s s.cur s.oid s.cx.fir.launch.toNat = .ok (l, u) →
      Completes (exec (.lvstat a b c) s) fun t => WritesPair u t a c (shown l.lo) l.wit) ∧
    (i < 4096 → p < 4096 → i ≠ p → Traps (lvopen 3) s .illegal none (some s.cx.chain)) ∧
    (∀ kind : Word, 4 ≤ kind.toNat → Traps (exec (.lvopen a b c kind) s) s .illegal none (some s.cx.chain)) ∧
    (4096 ≤ i → (∀ kind < 4, Traps (lvopen kind) s .illegal none (some s.cx.chain)) ∧
      Traps (exec (.lvwait a b c) s) s .illegal none (some s.cx.chain) ∧
      Traps (exec (.lvcancel b) s) s .illegal none (some s.cx.chain))

/-- R295 to R299, R315, R316: BARA counts the arrival of a member in the barrier's generation, the last one ends it, and a core
outside the members, a wrong generation or a second arrival trap; BARW answers once the generation has ended, or what has been
decided for it while it waited; BARCFG installs or frees a barrier from its record, and an open generation ends for those that
wait for it, which report TIMEOUT. A barrier that the owner does not hold raises PERM.
Where it rests on a choice of the model, that is the one of log entry 27. -/
def Obligations.Barriers : Prop :=
  ∀ (s u : State) (a b c : XReg) (n : Nat) (g : Bool) (k : Barrier) (bs : List Byte),
    let imm := BitVec.ofNat 64 (n + if g then 16 else 0)
    let p := placeOf s.coreNo
    let die := s.dieNo
    let arrived := { k with arrived := k.arrived ++ [p], started := some (k.started.getD s.now) }
    let mine := (barrierOf s n).filter fun b => b.owner == s.oid
    let rec_ : BitVec 512 := BitVec.ofNat 512 (leNat bs)
    let timeout := recN rec_ 319 288
    let count := recN rec_ 264 256
    (n < 16 →
      (mine = some k →
        (k.members.getLsbD p = true → k.g = g → p ∉ k.arrived → Completes (exec (.bara imm) s) fun t =>
          t = { setBarrier s die n (if k.count ≤ k.arrived.length + 1 then
                { k with g := !g, arrived := [], started := none, timedOut := false } else arrived) with
            cx := { s.cx with pc := s.cx.npc } }) ∧
        (k.members.getLsbD p = false → Traps (exec (.bara imm) s) s .perm none none) ∧
        (k.members.getLsbD p = true → k.g ≠ g → Traps (exec (.bara imm) s) s .bargen none none) ∧
        (k.members.getLsbD p = true → k.g = g → p ∈ k.arrived → Traps (exec (.bara imm) s) s .barcnt none none) ∧
        (s.cx.verdict = none → k.g ≠ g → Completes (exec (.barw a imm) s) fun t => WritesX s t a (if k.timedOut then 1 else 0)) ∧
        (s.cx.verdict = none → k.g = g → Waits (exec (.barw a imm) s) (setBarrier s die n { k with started := some (k.started.getD s.now) })
          (.barrier n g))) ∧
      (∀ v, s.cx.verdict = some v → Completes (exec (.barw a imm) s) fun t => WritesX s t a v.1) ∧
      (mine = none → Traps (exec (.bara imm) s) s .perm none none ∧
        (s.cx.verdict = none → Traps (exec (.barw a imm) s) s .perm none none))) ∧
    ((s.getX b).toNat = n → n < 16 → (s.getX c).toNat % 64 = 0 → loadWords s (s.getX c) none 8 = .ok (bs, u) →
      recN rec_ 511 321 = 0 → recN rec_ 287 265 = 0 → count ≤ 256 → (timeout = 0 ∨ (1024 ≤ timeout ∧ timeout ≤ 2 ^ 30)) →
      (∀ k, barrierOf u n = some k → k.owner = u.oid) →
      let isOpen := (barrierOf u n).any Barrier.open_
      let r := if isOpen then timeOutWaiters u u.dieNo n else u
      (∀ c, isOpen = true → c ≠ u.cur → c.which ≠ 3 → dieOf c.core = u.dieNo → (u.ctxOf c).wait = some (.barrier n g) →
        (r.ctxOf c).wait = none ∧ (r.ctxOf c).verdict = some (1, 0)) ∧
      (count = 0 → Completes (exec (.barcfg a b c) s) fun t =>
        WritesX (r.updDie r.dieNo fun d => { d with barriers := tdel d.barriers n }) t a 0) ∧
      (count ≠ 0 → Completes (exec (.barcfg a b c) s) fun t => ∃ q,
        WritesX (setBarrier r r.dieNo n q) t a (if rec_.getLsbD 320 then 1 else 0) ∧ q.owner = u.oid ∧
        q.members = rec_.setWidth 256 ∧ q.count = count ∧ q.timeout = (if timeout = 0 then 2 ^ 30 else timeout) ∧
        q.g = rec_.getLsbD 320 ∧ q.arrived = [] ∧ q.started = none))

/-- R216, R313, R321: SCA and LVCANCEL of a firing that is not staging, with every write delivered to the device, join the
core's queue of announcements with the running maximum as their witness, are folded into the path signature (R411), and wait for
their window; once it has been assigned they
complete, SCA with the time of its application. R322: NRD reads a notification word and its witness, and NWAIT does so once the
word differs, or with the word that the window which woke it left.
Where it rests on a choice of the model, that is those of log entries 27, 31, 41 and 43. -/
def Obligations.Announcements : Prop :=
  ∀ (s : State) (a b c : XReg) (k : Nat) (op : Nat),
    let core := s.coreNo
    let word := (s.ownerSt s.oid).notif.toList.getD k 0
    let wit := (s.ownerSt s.oid).notifWit.toList.getD k 0
    let now_ := s.cx.verdict.getD (word, wit)
    let sent := Counted s .device
    let joins := fun (o : Out) (kind : AnnKind) => Completes o fun t => ∃ e : Announce,
      (t.coreSt core).annQueue = (s.coreSt core).annQueue ++ [e] ∧ e.id = s.net.nextId ∧ e.core = core ∧ e.oid = s.oid ∧
      e.kind = kind ∧ e.wit = mkWit .device sent.cx.runMax ∧ e.ctx = s.cur ∧
      t.cx = { sent.cx with
        wait := some (.window s.net.nextId)
        sig := rotl64 s.cx.sig 13 ^^^ BitVec.ofNat 64 (6 * 2 ^ 56 + s.cx.evIdx)
        evIdx := (s.cx.evIdx + 1) % 2 ^ 32 } ∧
      t = { sent with cx := t.cx, net := { sent.net with nextId := s.net.nextId + 1 }, cores := t.cores }
    (s.cx.verdict = none → s.cx.staged = false → Delivered s .device →
      (k < 64 → op < 4 → joins (exec (.sca a b (BitVec.ofNat 64 (op * 64 + k))) s) (.word k op (s.getX b))) ∧
      ((s.getX b).toNat < 4096 → joins (exec (.lvcancel b) s) (.cancel (s.getX b).toNat))) ∧
    (∀ v, s.cx.verdict = some v →
      (k < 64 → op < 4 → Completes (exec (.sca a b (BitVec.ofNat 64 (op * 64 + k))) s) fun t => WritesX s t a v.1) ∧
      ((s.getX b).toNat < 4096 → Completes (exec (.lvcancel b) s) fun t => OnlyPc s t s.cx.npc)) ∧
    (∀ i : Word, 256 ≤ i.toNat → Traps (exec (.sca a b i) s) s .illegal none (some s.cx.chain)) ∧
    (k < 64 →
      Completes (exec (.nrd a c (BitVec.ofNat 64 k)) s) (fun t => WritesPair s t a c word wit) ∧
      (now_.1 ≠ s.getX b → Completes (exec (.nwait a b c (BitVec.ofNat 64 k)) s) fun t => WritesPair s t a c now_.1 now_.2) ∧
      (now_.1 = s.getX b → Waits (exec (.nwait a b c (BitVec.ofNat 64 k)) s) s (.notify k (s.getX b)))) ∧
    (∀ i : Word, 64 ≤ i.toNat → Traps (exec (.nrd a c i) s) s .illegal none (some s.cx.chain) ∧
      Traps (exec (.nwait a b c i) s) s .illegal none (some s.cx.chain))

/-! ### Reset, fetching and decoding (R22, R34 to R56, R78, R325, R428) -/

/-- R22, R78, R325, R428: what the spec gives for reset. Fabric time is 0 and boot has taken no step; every context is free, with
every control register 0; the leases are 4,096 ns and UMINT is 20; owner 0 exists and no other; SVEC, SAVEAREA and ESAVE are 0.
The rest is the model's choice where the spec gives no reset value: the zeros of the scalar registers and the program counter of a
free context are log entry 4, those of every byte of memory log entry 2; that memory lists nothing and that nothing is on its way
are the model's own form of it. -/
def Obligations.ResetState : Prop :=
  let s := State.reset
  s.now = 0 ∧ s.bootst = 0 ∧ s.powered = true ∧
  (∀ c, (s.ctxOf c).life = .free ∧ (s.ctxOf c).x = Vector.replicate 32 0 ∧ (s.ctxOf c).pc = 0 ∧
    (s.ctxOf c).crs = { fstat := 0, rmode := 0, mfmt := 0, mscalea := 0, mscaleb := 0, tvec := 0, tcause := 0, tpc := 0
                        taddr := 0, tval := 0, wscope := 0, nmask := 0, tdline := 0, cmode := false, pmode := false, inh := false
                        seedLo := none }) ∧
  s.dev.leaseL1 = 0x1000 ∧ s.dev.leaseNear = 0x1000 ∧ s.dev.umint = 20 ∧
  (∀ o, (s.ownerSt o).valid = decide (o = 0) ∧ (s.ownerSt o).susp = false ∧ (s.ownerSt o).isSealed = false ∧
    (s.ownerSt o).svec = 0 ∧ (s.ownerSt o).savearea = 0 ∧ (s.ownerSt o).esave = 0) ∧
  Memory.wf s.mem = true ∧ (∀ a n, memRead s.mem a n = List.replicate n 0) ∧
  s.plan = [] ∧ s.net.flight = [] ∧ s.home.copies = [] ∧ s.home.marks = []

/-- A step runs the decoded instruction (R41 to R45, R196, R203, R260, R293). In a context that runs, with nothing pending and nothing
that it waits for: where the words from its program counter decode to an instruction, nothing set aside stands in its way, no scalar
operand is pending or to come from a load that has not taken effect, and no bound register is written, the step is that instruction in
the state after its streams have given their vectors, then what is left to do after it (`settle`), then the passing of time. Where a
bound register is written, the step raises ILLEGAL with the instruction's chain, unless the instruction meets an earlier cause of its
own. An instruction that may not pass one set aside waits; so does one that would trap while an instruction set aside is to write
memory (`heldBack`). A word comes from the page that the program counter reaches; a chain that does not decode raises ILLEGAL with its
first words.
Where it rests on a choice of the model, that is those of log entries 3, 37 and 46. -/
def Obligations.StepRuns : Prop :=
  ∀ (s u v : State) (i : Instr) (ws : List Half) (w : Half) (l : Leaf) (e : DecodeError),
    let r := collectCopies s
    let o := r.onCx fun k => { k with trapped := false, since := r.now, firstId := r.net.nextId }
    let j := selectForm i u
    let b := u.begins j (usesOf j)
    let steps := fun (branch : Bool) (out : Out) => step s = onNext (onNext out (settle branch r)) passTime
    (Fetched o o.cx.pc [] ws u → decodeWords ws = .ok (i, []) → fetch o = .ok (i, u)) ∧
    (Fetched o o.cx.pc [] (ws ++ [w]) u → decodeWords ws = .error .truncated → decodeWords (ws ++ [w]) = .error e →
      e ≠ .truncated → fetch o = .error (.trap .illegal none (some (chainWord (ws ++ [w]))))) ∧
    (s.powered = true → (∀ c ∈ s.clusters, c.2.fatal = false) → dueWindow s = none → quotaDue s = false → s.plan = [] →
      s.bootst.toNat < 256 → s.cx.life = .running → engineRuns s s.cur.core = true → pendingCause s s.cx = none →
      s.cx.wait = none → (r.cx.holdsWrites = true → r.cx.preempt = false ∧ trapWaits r r.cx = false) →
      fetch o = .ok (i, u) → (u.cur.which ≠ 2 ∨ helperRuns j = true) →
      (passesAll u.cx.aside j = false → steps false (heldBack r (finish u (.error (.wait .aside none))))) ∧
      (passesAll u.cx.aside j = true → (∀ x ∈ (usesOf j).xs, ∀ p ∈ u.cx.pend, p.reg ≠ x) →
        lateUse u (usesOf j) (tileOf j) = none →
        ((∀ x ∈ (usesOf j).vw, boundTo b x = none) → takeStreams (usesOf j).vs.eraseDups b = .ok v →
          steps (predicted j) (heldBack v (exec j v))) ∧
        ((∃ x ∈ (usesOf j).vw, boundTo b x ≠ none) → steps false (heldBack b
          (blockedEnds j b (.trap .illegal none (some b.cx.chain)) (exec j (unstreamed b))))))) ∧
    (∀ (k : State) (out : Out), (∀ t, out = .next t → k.cx.holdsWrites = false ∨ t.cx.trapped = false) → heldBack k out = out) ∧
    (Reaches s s.cx.pc 2 .x l → AtHome s l 2 →
      ∃ t, fetchWord s s.cx.pc = .ok (BitVec.ofNat 16 (leNat (seen s l.pa 2)), t) ∧ Reads s t)

/-- Words of the spec's own encoding examples, for every page, and the instructions that they stand for; a modifier that the instruction
does not take (R42) and an opcode that no row has are refused by name. -/
def Obligations.DecodeWords : Prop :=
  decodeWords [0x10A6] = .ok (.add 5 5 6 .d, []) ∧
  decodeWords [0xF01F, 0x08A8] = .ok (.li 5 1000, []) ∧
  decodeWords [0xF010, 0xF4E0, 0xF828, 0x9CA6] = .ok (.st 5 6 7 .d 16 (some .die) false, []) ∧
  decodeWords [0xF7B9, 0xF843, 0x3503] = .ok (.vadd 40 3 61 .s16 false 3, []) ∧
  decodeWords [0xF480, 0xF868, 0x7463] = .ok (.vrshr 3 3 4 .s32 .rna 0, []) ∧
  decodeWords [0xF4E0, 0xF8A0, 0x3106] = .ok (.crrd 8 6 7 true, []) ∧
  decodeWords [0xF4C1, 0xF8EC, 0x24A8] = .ok (.amocas 5 8 6 .w (some .device), []) ∧
  decodeWords [0xF5C0, 0xF928, 0x194C] = .ok (.cpy 10 12 14 (some .die) false, []) ∧
  decodeWords [0xF96C, 0x10A9] = .ok (.cntadd 5 9 (some .device), []) ∧
  decodeWords [0xF4E0, 0xF9AC, 0x0C06] = .ok (.tlbinv 6 7 (some .device), []) ∧
  decodeWords [0xF002, 0xF980, 0x04E0] = .ok (.cwr 7 0x40, []) ∧
  decodeWords [0xF4E0, 0xF9C0, 0x2106] = .ok (.measure 8 6 7, []) ∧
  decodeWords [0xF808, 0x9CA6] = .error .badModifier ∧
  decodeWords [0xF880, 0x3800] = .error .unassigned

/-- R34 to R56: the encoder and the decoder agree. The words of every well-formed instruction, with any words after them, decode to
it. Rows that share their words and differ only in a register's value (R244, R257, R365, R368) decode to the first of them, from
which the step selects (`selectForm`). -/
def Obligations.RoundTrip : Prop :=
  ∀ (i : Instr) (rest : List Half), i.wf = true → i.fields ≠ none →
    decodeWords (encode i ++ rest) = .ok (i.firstRow, rest)

/-- The memory keeps its canonical form in every step: instructions, engines, homes, failures, boot and the world outside. That memory
is such a list is the model's own choice (log entry 2). -/
def Obligations.StepKeepsMemoryForm : Prop :=
  ∀ s t : State, Memory.wf s.mem = true → step s = .next t → Memory.wf t.mem = true

/-! ### Control registers and privilege (R59, R76 to R86, R327, R356, R358) -/

/-- R76 to R86, R358: CRD reads a user register in every mode, and a privileged one in the mode that R78 asks for, the write-only ones
as 0; CWR keeps the bits of the register's field map, ignores read-only registers, leaves RM and SCOPE where the code is reserved, and
clamps the leases and UMINT; a write at the stamp of one from a higher core number leaves that one's value; a write to SEED.HI installs
the seed. A number that R78 does not list raises ILLEGAL. That the installation waits for what is on its way to the owner's pages is the
model's choice of log entry 15, that it then happens in one step that of log entry 19, and that a SEED.LO is the context's own that of
log entry 48; neither R327 nor R358 says so.
R59, R67, R68, R78: a privileged instruction in U mode, and one that needs owner 0 in another owner's S mode, raises PRIV, and has no
other effect.
Where it rests on a choice of the model, that is those of log entries 15, 16, 19 and 48. -/
def Obligations.ControlRegisters : Prop :=
  (∀ (s : State) (a : XReg) (n : Nat),
     let r := s.cx.crs
     let w := s.getX a
     let o := s.ownerSt s.oid
     let f := s.cx.fir
     let bit := fun (b : Bool) (k : Nat) => if b then 2 ^ k else 0
     let crd := fun (n : Nat) => exec (.crd a (BitVec.ofNat 64 n)) s
     let cwr := fun (n : Nat) => exec (.cwr a (BitVec.ofNat 64 n)) s
     let gives := fun (n : Nat) (v : Word) => Completes (crd n) fun t => WritesX s t a v
     let puts := fun (n : Nat) (q : Crs) => Completes (cwr n) fun t =>
       t = { s with cx := { s.cx with pc := s.cx.npc, crs := q, timerPend := s.cx.timerPend && decide (n ≠ 16) } }
     let stamped := fun (n : Nat) (q : DevSt) => ({ q with
       crWrites := ⟨n, crPlaceNo s n, s.now, s.coreNo⟩ :: s.dev.crWrites.filter fun w => !(w.reg == n && w.at_ == crPlaceNo s n) } : DevSt)
     let sets := fun (n : Nat) (u : State) => (crBeaten s n = true → Completes (cwr n) fun t => OnlyPc s t s.cx.npc) ∧
       (crBeaten s n = false → Completes (cwr n) fun t =>
         t = { u with cx := { s.cx with pc := s.cx.npc }, dev := stamped n u.dev })
     let dev := fun (n : Nat) (q : DevSt) => sets n { s with dev := q }
     let own := fun (n : Nat) (q : OwnerSt) => sets n (s.updOwner s.oid fun _ => q)
     (gives 0 r.fstat ∧ gives 1 r.rmode ∧ gives 2 r.mfmt ∧ gives 3 r.mscalea ∧ gives 4 r.mscaleb ∧
       gives 5 (BitVec.ofNat 64 (bit f.isSealed 8 + f.oid.toNat)) ∧
       gives 6 (BitVec.ofNat 64 (f.retry.toNat * 2 ^ 62 + bit f.recov 61 + bit f.exposed 60 + f.prio.toNat * 2 ^ 58 +
         bit (s.cur.which == 1) 57 + f.launch.toNat * 2 ^ 32 + f.fid.toNat)) ∧
       gives 7 (BitVec.ofNat 64 (s.cur.core % 4096)) ∧ gives 8 r.tvec ∧ gives 9 r.tcause ∧ gives 10 r.tpc ∧ gives 11 r.taddr ∧
       gives 12 r.tval ∧ gives 13 r.wscope ∧ gives 14 (BitVec.ofNat 64 (bit r.cmode 2 + bit r.pmode 1 + bit r.inh 0)) ∧
       gives 15 r.nmask ∧ gives 16 r.tdline) ∧
     (puts 0 { r with fstat := w &&& 0x3F } ∧ puts 1 (if (w.setWidth 3).toNat ≤ 4 then { r with rmode := w &&& 7 } else r) ∧
       puts 2 { r with mfmt := w &&& 0xFF } ∧ puts 3 { r with mscalea := w &&& 0xFFFFFFFFFFFF } ∧
       puts 4 { r with mscaleb := w &&& 0xFFFFFFFFFFFF } ∧ puts 5 r ∧ puts 6 r ∧ puts 7 r ∧ puts 8 { r with tvec := w } ∧
       puts 9 { r with tcause := w &&& 0x1FF } ∧ puts 10 { r with tpc := w &&& ~~~(1 : Word) } ∧ puts 11 { r with taddr := w } ∧
       puts 12 { r with tval := w } ∧ puts 13 (if (w.setWidth 3).toNat ≤ 4 then { r with wscope := w &&& 7 } else r) ∧
       puts 14 { r with pmode := w.getLsbD 1, inh := w.getLsbD 0 } ∧ puts 15 { r with nmask := w } ∧
       puts 16 { r with tdline := w &&& 0x8000FFFFFFFFFFFF }) ∧
     (r.cmode = true →
       gives 0x42 0 ∧ gives 0x43 0 ∧ gives 0x45 o.svec ∧ gives 0x46 o.savearea ∧ puts 0x42 { r with seedLo := some w } ∧
       own 0x45 { o with svec := w &&& ~~~(1 : Word) } ∧ own 0x46 { o with savearea := w &&& 0x00FFFFFFFFFF0000 } ∧
       (ownerBusy s s.oid = true → Waits (exec (.seedInstall a) s) s .walks) ∧
       (ownerBusy s s.oid = false → ∃ t, exec (.seedInstall a) s = .next t ∧ (t.ownerSt s.oid).seed = w ++ (r.seedLo.getD 0) ∧ (t.ownerSt s.oid).ctr = [] ∧
         t.cx.crs = { r with seedLo := none } ∧ t.cx.pc = s.cx.npc ∧ t.cx.x = s.cx.x)) ∧
     (r.cmode = true → f.oid = 0 →
       gives 0x40 s.dev.leaseL1 ∧ gives 0x41 s.dev.leaseNear ∧ gives 0x44 s.dev.umint ∧ gives 0x47 o.esave ∧
       gives 0x48 (s.dieSt s.dieNo).pmapbase ∧
       (∀ l : Word, l = BitVec.ofNat 64 (max 64 (min 1048576 (w.setWidth 21).toNat)) →
         dev 0x40 { s.dev with leaseL1 := l, leasesL1 := (s.now, l) :: s.dev.leasesL1 }) ∧
       dev 0x41 { s.dev with leaseNear := BitVec.ofNat 64 (max 64 (min 1048576 (w.setWidth 21).toNat)) } ∧
       dev 0x44 { s.dev with umint := BitVec.ofNat 64 (max 16 (min 30 (w.setWidth 5).toNat)) } ∧
       own 0x47 { o with esave := w &&& 0x000FFFFFFFFF0000 } ∧
       sets 0x48 (s.updDie s.dieNo fun d => { d with pmapbase := w &&& 0x000FFFFFFFFFF000 })) ∧
     (17 ≤ n → n < 64 ∨ 0x48 < n → n < 2 ^ 64 → Traps (crd n) s .illegal none (some s.cx.chain) ∧ Traps (cwr n) s .illegal none (some s.cx.chain))) ∧
  (∀ (s : State) (a b c : XReg) (v : VReg) (sc : Option Scope) (n : Word) (i : Instr),
     let zero := [Instr.pmapw a b, .qset a b c] ++ [0x40, 0x41, 0x44, 0x47, 0x48].flatMap fun n => [Instr.crd a n, .cwr a n]
     (s.cx.crs.cmode = false → 0x40 ≤ n.toNat → n.toNat ≤ 0x48 →
       i ∈ [Instr.crd a n, .cwr a n, .seedInstall a, .tlbinv b c sc, .tlbprobe a b c, .pmaprd a b c, .trcctlOpen a b c,
         .trcctlClose a b c, .trcctlGrant a b c, .trcctlWithdraw a b c, .trcctlStatus a b c, .mpass a b, .rplctlStop a b c,
         .rplctlRecord a b c, .rplctlReplay a b c, .rplctlStatus a b c, .ctxsave a b c, .ctxload a b c, .idle, .reseed a b c,
         .measure v b c] ++ zero →
       Traps (exec i s) s .priv none none) ∧
     (s.cx.fir.oid ≠ 0 → i ∈ zero → Traps (exec i s) s .priv none none))

/-! ### Translation, places, trace, measurement and replay (R344 to R349, R360 to R368) -/

/-- R349, R360: TLBINV with every write delivered, with no access under a named entry on its way and no staging that needs one: the
named entries leave the TLBs of the scope, the others stay, and no register and no byte of memory changes; with KIND 1 at device scope
the owner's entry of the owner table takes effect (R326). R361: TLBPROBE gives the entry and the cause of the walk. R362, R363: PMAPW
loads a map that passes the checks and says why it does not load another; PMAPRD reads the map in effect.
Where it rests on a choice of the model, that is those of log entries 19, 20, 33, 35 and 43. -/
def Obligations.TranslationAndPlaces : Prop :=
  ∀ (s : State) (a b c : XReg) (sc : Option Scope) (psize oid : Nat),
    let scope := sc.getD .device
    let q := Counted s .device
    let inv := fun (kind : Nat) => (⟨kind, psize, oid, s.getX b⟩ : Named)
    let ctl := fun (kind : Nat) => s.getX c = BitVec.ofNat 64 (oid * 256 + psize * 16 + kind)
    let clear := fun (n : Named) (sc : Scope) =>
      (∀ e ∈ namedEntries q n sc, pageBusy q ⟨e.oid, e.level, e.vpage, e.entry⟩ = false) ∧
      ∀ k ∈ q.home.classes, n.page k = true → pageBusy q k = false ∧ (needsStagings q k = true → stagingHolds q k = false)
    let known := fun (n : Named) => q.home.classes.filter n.page
    let rid := fun (n : Named) => (invalidate q n scope).onCx fun k => { k with early := [] }
    let pages := fun (n : Named) => known n ++ (namedPages (rid n) n).filter fun k => !(known n).any k.same
    let plain := fun (e : Word) => entryCls e ≠ clsCr ∧ entryCls e ≠ clsRepl
    let settled := fun (n : Named) => ∀ k ∈ pages n, ∀ e, newLeaf s k = some e →
      match pageClass s k.oid k.level k.vpage with
      | none => plain e
      | some r => if entryBase r.entry = entryBase e then sameClass r.entry e = true else plain e
    let gone := fun (t : State) (n : Named) (sc : Scope) =>
      (∀ core e, e ∈ (t.coreSt core).tlb1 ↔ e ∈ (s.coreSt core).tlb1 ∧ ¬(inScope sc s.coreNo core = true ∧ n.has e = true)) ∧
      (∀ cl e, e ∈ (t.clusterSt cl).tlb2 ↔
        e ∈ (s.clusterSt cl).tlb2 ∧ ¬(clusterInScope sc s.coreNo cl = true ∧ n.has e = true)) ∧
      t = { q with
        cx := { q.cx with pc := s.cx.npc, early := [] }, cores := t.cores, clusters := t.clusters, dies := t.dies
        home := { s.home with classes := t.home.classes, classChanges := t.home.classChanges } }
    let done := fun (n : Named) => (pages n).foldl settleClass (rid n)
    let entry := ownerEntry s oid
    let p := probe s oid (s.getX b)
    let die := (s.getX b).toNat
    let img := mapImage s die
    let place := fun (i : Nat) => placeOfWord (img.1.getD i 0)
    let slice := fun (h : Nat) => (((img.2.getD h 0) / 2 ^ 15 % 2 == 1, (img.2.getD h 0) % 128) : Bool × Nat)
    let held := ∃ i < 256, place i ≠ s.place (die * 256 + i) ∧ placeHeld s (die * 256 + i) = true
    let live := ∃ h < 128, slice h ≠ sliceEntry s die h ∧ sliceLive s die h = true ∧ h ∉ (s.dieSt die).failedSlices
    let k := (s.getX c).toNat
    let here := s.place (die * 256 + k)
    (s.cx.crs.cmode = true → psize < 4 → oid < 256 → sc ≠ some .system → s.cx.staged = false → Delivered s .device →
      (ctl 0 → MayName s oid → clear (inv 0) scope → Completes (exec (.tlbinv b c sc) s) fun t =>
        t = (done (inv 0)).advance ∧ (settled (inv 0) → gone t (inv 0) scope)) ∧
      (ctl 2 → s.oid = 0 → scope ≠ .device → clear (inv 2) scope → Completes (exec (.tlbinv b c sc) s) fun t =>
        t = (done (inv 2)).advance ∧ (settled (inv 2) → gone t (inv 2) scope)) ∧
      (ctl 1 → s.oid = 0 → scope = .device → entryClean entry = true → clear (inv 1) .device → settled (inv 1) →
        (entryValid entry = true → entry.getLsbD 61 = false → (s.ownerSt oid).valid = false →
          Completes (exec (.tlbinv b c sc) s) fun t => (t.ownerSt oid).valid = true ∧
            (t.ownerSt oid).isSealed = entry.getLsbD 62 ∧ (t.ownerSt oid).susp = false ∧
            (t.ownerSt oid).root = (entry.extractLsb' 16 36).toNat ∧
            (t.ownerSt oid).svec = entry.extractLsb' 64 64 &&& ~~~(1 : Word)) ∧
        (entryValid entry = false → (s.ownerSt oid).valid = true → Completes (exec (.tlbinv b c sc) s) fun t =>
          (t.ownerSt oid).valid = false)) ∧
      (ctl 1 → s.oid = 0 → scope = .device → entryClean entry = false →
        Traps (exec (.tlbinv b c sc) s) s .illegal none (some s.cx.chain))) ∧
    (MayName s oid → oid < 256 → s.getX c = BitVec.ofNat 64 oid → 1 ≤ a.toNat → a.toNat ≤ 30 →
      Completes (exec (.tlbprobe a b c) s) fun t => ∃ u, Reads s u ∧ WritesPair u t a (nextReg a) p.entry
        (BitVec.ofNat 64 (((p.cause.map Cause.code).getD 0) * 256 + p.level))) ∧
    (s.cx.crs.cmode = true → s.cx.fir.oid = 0 → die < 9 →
      (mapOk img.1 img.2 = false → Completes (exec (.pmapw a b) s) fun t => WritesX s t a 1) ∧
      (mapOk img.1 img.2 = true → held → Completes (exec (.pmapw a b) s) fun t => WritesX s t a 2) ∧
      (mapOk img.1 img.2 = true → ¬held → live → Completes (exec (.pmapw a b) s) fun t => WritesX s t a 3) ∧
      (mapOk img.1 img.2 = true → ¬held → ¬live → Completes (exec (.pmapw a b) s) fun t => ∃ u, WritesX u t a 0 ∧
        (∀ i < 256, t.place (die * 256 + i) = place i) ∧ (∀ h < 128, sliceEntry t die h = slice h) ∧
        u = { s with cores := u.cores, dies := u.dies, home := u.home })) ∧
    (s.cx.crs.cmode = true → die < 9 →
      (k < 256 → Completes (exec (.pmaprd a b c) s) fun t => WritesX s t a (BitVec.ofNat 64
        ((if here.present then 2 ^ 31 else 0) + here.owner * 2 ^ 16 +
          if s.oid = 0 ∨ here.owner = s.oid then here.phys else 0))) ∧
      (256 ≤ k → k < 384 → Completes (exec (.pmaprd a b c) s) fun t => WritesX s t a (BitVec.ofNat 64
        ((if (sliceEntry s die (k - 256)).1 then 2 ^ 15 else 0) +
          if s.oid = 0 then (sliceEntry s die (k - 256)).2 else 0))) ∧
      (384 ≤ k → Traps (exec (.pmaprd a b c) s) s .illegal none (some s.cx.chain)))

/-- R353, R364, R365: TRCMARK goes on, and changes nothing else where the owner has no session; TRCCTL opens a session with its buffer,
closes it, grants and withdraws, and reads the state, with the statuses of R365. R366: EVSEL sets a counter to 0 with its event, and
EVRD reads one.
Where it rests on a choice of the model, that is the one of log entry 23. -/
def Obligations.TraceAndCounters : Prop :=
  ∀ (s u : State) (a b c : XReg) (n : Word) (oid : Nat) (buf size : Word),
    let o := s.ownerSt oid
    let tr := fun (op : Nat) => MayName s oid ∧ oid < 256 ∧ s.getX b = BitVec.ofNat 64 (oid * 256 + op)
    let party := (s.getX c).toNat
    let w := s.getX c
    let j := (s.getX b).toNat
    (Completes (exec (.trcmark n) s) fun t => KeepsRegs s t ∧ ((s.ownerSt s.oid).trace = none → OnlyPc s t s.cx.npc)) ∧
    (tr 0 → readPairAt s (s.getX c) = .ok (buf, size, u) → size.toNat % 65536 = 0 → size ≠ 0 → buf.toNat % 65536 = 0 →
      ((u.ownerSt oid).trace ≠ none → Completes (exec (.trcctlOpen a b c) s) fun t => WritesX u t a 1) ∧
      ((u.ownerSt oid).trace = none → Completes (exec (.trcctlOpen a b c) s) fun t => ∃ q : Trace,
        WritesX (u.updOwner oid fun o => { o with trace := some q }) t a 0 ∧ q.opener = u.oid ∧ q.buf = buf ∧
        q.size = size.toNat ∧ q.written = 0 ∧ q.dropped = 0)) ∧
    (tr 1 → s.getX c = 0 →
      (o.trace = none → Completes (exec (.trcctlClose a b c) s) fun t => WritesX s t a 1) ∧
      (o.trace ≠ none → Completes (exec (.trcctlClose a b c) s) fun t => (a ≠ 0 → t.getX a = 0) ∧
        (∀ q, q ≠ a → t.getX q = s.getX q) ∧ (t.ownerSt oid).trace = none ∧ t.cx.pc = s.cx.npc)) ∧
    (party < 2 → oid = s.oid →
      (tr 2 →
        (o.isSealed = false → Completes (exec (.trcctlGrant a b c) s) fun t => WritesX s t a 1) ∧
        (o.isSealed = true → Completes (exec (.trcctlGrant a b c) s) fun t => WritesX
          (s.updOwner oid fun o => { o with grant0 := o.grant0 || decide (party = 0), grantHost := o.grantHost || decide (party = 1) })
          t a 0)) ∧
      (tr 3 →
        ((if party = 1 then o.grantHost else o.grant0) = false →
          Completes (exec (.trcctlWithdraw a b c) s) fun t => WritesX s t a 1) ∧
        ((if party = 1 then o.grantHost else o.grant0) = true →
          Completes (exec (.trcctlWithdraw a b c) s) fun t => WritesX (s.updOwner oid fun o =>
            { o with grant0 := o.grant0 && decide (party ≠ 0), grantHost := o.grantHost && decide (party ≠ 1) }) t a 0))) ∧
    (party < 2 → oid ≠ s.oid → (tr 2 → Traps (exec (.trcctlGrant a b c) s) s .perm none none) ∧
      (tr 3 → Traps (exec (.trcctlWithdraw a b c) s) s .perm none none)) ∧
    (tr 4 → s.getX c = 0 → Completes (exec (.trcctlStatus a b c) s) fun t => WritesX s t a (BitVec.ofNat 64
      (((o.trace.map fun q => q.written * 2 ^ 32 + 1).getD 0) + if o.grant0 || o.grantHost then 2 else 0))) ∧
    (j < 4 → Completes (exec (.evrd a b) s) fun t => WritesX s t a
      (((s.coreSt s.coreNo).perf.toList[j]?.map fun p => p.count).getD 0)) ∧
    (j < 4 → w.toNat < 1024 → (w.setWidth 8).toNat ≤ 17 →
      (inPass s s.coreNo = true → Completes (exec (.evsel a b c) s) fun t => WritesX s t a 1) ∧
      (inPass s s.coreNo = false → Completes (exec (.evsel a b c) s) fun t => ∃ u, WritesX u t a 0 ∧
        u = s.updCore s.coreNo (fun k => { k with perf := (u.coreSt s.coreNo).perf }) ∧
        ∀ i < 4, (u.coreSt s.coreNo).perf.toList[i]? = if i = j then
          some { event := w.setWidth 8, cf := w.getLsbD 8, ctx := w.getLsbD 9, count := 0 }
          else (s.coreSt s.coreNo).perf.toList[i]?)) ∧
    (4 ≤ j → Traps (exec (.evrd a b) s) s .illegal none (some s.cx.chain) ∧
      Traps (exec (.evsel a b c) s) s .illegal none (some s.cx.chain))

/-- R367, R368: MPASS starts the run that its descriptor describes, and answers 1 where the owner has one; RPLCTL stops, starts and
reads recording and replay, with the statuses of R368: 1 for an owner that is not suspended, 2 for a sealed one without a grant.
A replay log whose entries hold a reserved byte that is not 0 raises ILLEGAL, after the statuses (log entry 47).
Where it rests on a choice of the model, that is those of log entries 22, 23 and 47. -/
def Obligations.MeasuringAndReplay : Prop :=
  ∀ (s u v : State) (a b c : XReg) (oid : Nat) (cont : Bool) (bs rb : List Byte) (log size : Word) (m : MPass),
    let o := s.ownerSt oid
    let word := fun (k : Nat) => BitVec.ofNat 64 (leNat ((bs.drop k).take 8))
    let byte := fun (k : Nat) => (bs.getD k 0).toNat
    let r : BitVec 512 := BitVec.ofNat 512 (leNat rb)
    let rp := fun (op : Nat) => MayName s oid ∧ oid < 256 ∧
      s.getX b = BitVec.ofNat 64 (oid * 65536 + (if cont then 256 else 0) + op)
    let starts := fun (mode : Nat) (o : Out) => readPairAt s (s.getX c) = .ok (log, size, u) → log.toNat % 65536 = 0 →
      ((u.ownerSt oid).susp = false → Completes o fun t => WritesX u t a 1) ∧
      ((u.ownerSt oid).susp = true → (u.ownerSt oid).granted u.oid = false → Completes o fun t => WritesX u t a 2) ∧
      ((u.ownerSt oid).susp = true → (u.ownerSt oid).granted u.oid = true → (mode = 2 → logClean (u.updOwner oid fun o =>
          { o with rpl := { mode := mode, opener := u.oid, log := log, size := size.toNat, cont := cont } }) oid = true) →
        Completes o fun t => (a ≠ 0 → t.getX a = 0) ∧ t.cx.pc = u.cx.npc ∧ (∀ q, q ≠ a → t.getX q = u.getX q) ∧
          (t.ownerSt oid).rpl = { mode := mode, opener := u.oid, log := log, size := size.toNat, cont := cont }) ∧
      ((u.ownerSt oid).susp = true → (u.ownerSt oid).granted u.oid = true → mode = 2 → logClean (u.updOwner oid fun o =>
          { o with rpl := { mode := mode, opener := u.oid, log := log, size := size.toNat, cont := cont } }) oid = false →
        Traps o s .illegal none (some u.cx.chain))
    (s.cx.crs.cmode = true → (s.getX b).toNat % 64 = 0 → loadWords s (s.getX b) none 9 = .ok (bs, u) →
      byte 9 = 0 → leNat ((bs.drop 12).take 4) = 0 →
      (byte 8 = 0 ∨ 8 < byte 8 ∨ (word 0).toNat % 64 ≠ 0 ∨ word 24 = 0 ∨ 4096 ≤ byte 10 + 256 * byte 11 →
        Completes (exec (.mpass a b) s) fun t => WritesX u t a 2) ∧
      ((word 0).toNat % 64 = 0 → 1 ≤ byte 8 → byte 8 ≤ 8 → (∀ i < 4 * byte 8, byte (40 + i) ≤ 17) → (word 16).toNat % 65536 = 0 →
        word 24 ≠ 0 → (word 24).toNat % 65536 = 0 → (word 32).toNat % 8 = 0 → byte 10 + 256 * byte 11 < 4096 →
        loadWords u (word 0) none 8 = .ok (rb, v) → recordOk r = true → MayName v (recOwner r) →
        ((v.ownerSt (recOwner r)).mpass ≠ none → Completes (exec (.mpass a b) s) fun t => WritesX v t a 1) ∧
        ((v.ownerSt (recOwner r)).mpass = none →
          m.desc = s.getX b → m.caller = v.oid → m.root = r → m.rootAddr = word 0 → m.passes = byte 8 → m.pass = 0 →
          m.launch = recLaunch r → m.parent = byte 10 + 256 * byte 11 → m.snap = word 16 → m.snapSize = (word 24).toNat →
          m.done = word 32 → m.events = (List.range 32).map (fun i => byte (40 + i)) → m.cores = [] → m.writeSet = [] → m.crSaved = [] →
          m.sig0 = 0 → m.sig = 0 → m.mismatch = 0 → m.overrun = false → m.fault = false →
          Completes (exec (.mpass a b) s) fun t =>
            WritesX (startPass (writeBackOwner v (recOwner r)) (recOwner r) m) t a 0))) ∧
    (rp 0 →
      (o.granted s.oid = false → Completes (exec (.rplctlStop a b c) s) fun t => WritesX s t a 2) ∧
      (o.granted s.oid = true → Completes (exec (.rplctlStop a b c) s) fun t =>
        WritesX (s.updOwner oid fun o => { o with rpl := { o.rpl with mode := 0 } }) t a 0)) ∧
    (rp 1 → starts 1 (exec (.rplctlRecord a b c) s)) ∧
    (rp 2 → starts 2 (exec (.rplctlReplay a b c) s)) ∧
    (rp 3 → Completes (exec (.rplctlStatus a b c) s) fun t => WritesX s t a (BitVec.ofNat 64
      (o.rpl.count * 2 ^ 32 + (if o.rpl.full then 8 else 0) + (if o.rpl.diverged then 4 else 0) + o.rpl.mode)))

/-! ### Contexts, seeds, queries and attestation (R369 to R380) -/

/-- R369, R370, R372: CTXSAVE saves a running context in the slot that the address names, and answers with how that went; 1 for a free
context and 5 for a slot that holds a valid save. CTXLOAD restores a valid slot of the core's owner into a free context, and answers 2, 3
or 1 where it may not. IDLE waits until it is woken. RESEED installs the seed of a suspended owner other than 0 none of whose contexts
runs, and answers 1 for another, also where the seed's address is misaligned (log entry 51).
Where it rests on a choice of the model, that is those of log entries 6, 12, 15, 21 and 51. -/
def Obligations.ContextsAndSeeds : Prop :=
  ∀ (s u v : State) (a b c : XReg) (k : CtxId) (n oid : Nat) (img : Nat → Nat → Nat) (lo hi : Word),
    let at_ := fun (oid : Nat) => n < 8192 ∧ (s.getX c).toNat % 131072 = 0 ∧
      s.getX c = (s.ownerSt oid).savearea + BitVec.ofNat 64 (131072 * n)
    let mine := (s.ctxOf k).fir.oid.toNat
    let core := (s.getX b).toNat
    let answers := fun (r : State) (n : Nat) (o : Out) => Completes o fun t => WritesX r t a (BitVec.ofNat 64 n)
    let saves := fun (n : Nat) => answers u n (exec (.ctxsave a b c) s)
    let free := fun (i : Nat) => (u.ctxOf ⟨core, i⟩).life = .free ∧ (u.place core).present = true ∧ (u.coreSt core).failed = false
    (k.core < 2304 → k.which < 2 → k ≠ s.cur → s.getX b = BitVec.ofNat 64 (k.which * 4096 + k.core) →
      ((s.ctxOf k).life = .free → MayName s (s.coreOwner k.core) → at_ (s.coreOwner k.core) →
        answers s 1 (exec (.ctxsave a b c) s)) ∧
      ((s.ctxOf k).life = .running → MayName s mine → at_ mine →
        (slotImage s k mine n = .ok (img, v) → img 2 1 = 1 → answers s 5 (exec (.ctxsave a b c) s)) ∧
        ((∀ img v, slotImage s k mine n = .ok (img, v) → img 2 1 ≠ 1) →
          (preemptCtx s k (some n) false = (.slot n, u) → saves 0) ∧
          (preemptCtx s k (some n) false = (.emergency, u) → saves 2) ∧
          (preemptCtx s k (some n) false = (.lost, u) → saves 3) ∧
          (preemptCtx s k (some n) false = (.restarted, u) → saves 4) ∧
          (preemptCtx s k (some n) false = (.waits, u) → Waits (exec (.ctxsave a b c) s) u (.saving k))))) ∧
    (core < 2304 → MayName s (s.coreOwner core) → at_ (s.coreOwner core) → (slotBytes s s.cur (slotReader s (s.coreOwner core)) (s.getX c)).act = .ok (img, u) →
      (img 2 1 ≠ 1 → answers u 2 (exec (.ctxload a b c) s)) ∧
      (img 2 1 = 1 → slotClean img = false → Traps (exec (.ctxload a b c) s) s .illegal none (some s.cx.chain)) ∧
      (img 2 1 = 1 → slotClean img = true → img 4 1 ≠ s.coreOwner core → answers u 3 (exec (.ctxload a b c) s)) ∧
      (img 2 1 = 1 → slotClean img = true → img 4 1 = s.coreOwner core → ¬free 0 → ¬free 1 → answers u 1 (exec (.ctxload a b c) s)) ∧
      (∀ i, img 2 1 = 1 → slotClean img = true → img 4 1 = s.coreOwner core → (i = 0 ∧ free 0 ∨ i = 1 ∧ ¬free 0 ∧ free 1) →
        (laneBusy u core img = true → Waits (exec (.ctxload a b c) s) s (.resume n)) ∧
        (laneBusy u core img = false → answers (restoreCtx (setSlotState u u.cur (s.coreOwner core) n 2) ⟨core, i⟩ n img) 0 (exec (.ctxload a b c) s)))) ∧
    (s.cx.crs.cmode = true →
      (s.cx.woke = some (.idle true) → Completes (exec .idle s) fun t => OnlyPc s t s.cx.npc) ∧
      ((∀ f, s.cx.woke ≠ some (.idle f)) → Waits (exec .idle s) s (.idle false))) ∧
    (let idle := oid ≠ 0 ∧ (s.ownerSt oid).susp = true ∧ ownerRuns s oid = false
     MayName s oid → oid < 256 →
      (s.getX b = BitVec.ofNat 64 oid → c = 0 →
        (¬idle → answers s 1 (exec (.reseed a b c) s)) ∧
        (idle → ownerBusy s oid = true → Waits (exec (.reseed a b c) s) s .walks) ∧
        (idle → ownerBusy s oid = false → answers (installSeed s oid (freshSeed s oid)) 0 (exec (.reseed a b c) s))) ∧
      (s.getX b = BitVec.ofNat 64 (256 + oid) →
        (¬idle → answers s 1 (exec (.reseed a b c) s)) ∧
        (idle → (s.getX c).toNat % 16 ≠ 0 → Traps (exec (.reseed a b c) s) s .align (some (s.getX c)) none) ∧
        (idle → (s.getX c).toNat % 16 = 0 → ownerBusy s oid = true → Waits (exec (.reseed a b c) s) s .walks) ∧
        (idle → (s.getX c).toNat % 16 = 0 → ownerBusy s oid = false → readPairAt s (s.getX c) = .ok (lo, hi, u) →
          answers (installSeed u oid (hi ++ lo)) 0 (exec (.reseed a b c) s))))

/-- R333, R337, R339, R371 to R378: XQ, XDRAW, UMRD and QRD read what the selector names, with no draw of their own; DACCRD reads an
accumulator's SUM and COUNT, and DACCCLR clears one or all; QSET of owner 0 installs an entry, and answers 2 for an owner that another
entry holds and 1 where the floors exceed the ways; 2 where both are so (log entry 51).
Where it rests on a choice of the model, that is those of log entries 34 and 51. -/
def Obligations.SharesAndQueries : Prop :=
  ∀ (s : State) (a b c : XReg) (die cls entry slice depth idx oid value : Nat) (empty : Bool),
    let sel := die < 9 ∧ s.getX b = BitVec.ofNat 64 (depth * 2 ^ 32 + entry * 2 ^ 24 + slice * 2 ^ 16 + die * 2 ^ 8 + cls)
    let shares := (s.dieSt die).share.getD cls []
    let floors := (s.dieSt die).floors.getD (cls - 5) []
    let q := if cls = 5 then (s.clusterSt (die * 32 + slice)).quotas
      else tget (quotasReset 16) (s.dieSt die).farQuotas slice
    let d := drawAt (s.ownerSt oid).seed cls idx (s.getX c)
    let acc := tget (0, 0) s.cx.dacc idx
    let free := fun (i : Nat) (o : Option Nat) => if i < 16 ∧ o = none then 2 ^ 23 else 0
    let own := fun (n : Nat) => if entry = 31 then n else entry
    let mayRead := entry = 31 ∨ s.oid = 0
    let ways := if cls = 5 then 24 else 16
    let slices := if cls = 5 then 32 else 128
    let held := if empty ∨ entry = 16 then none else some oid
    let val := if empty then 0 else value
    let qset := fun (o : Out) (n : Nat) (p : State → Prop) => Completes o fun t => ∃ u, WritesX u t a (BitVec.ofNat 64 n) ∧ p u
    let taken := fun {α : Type} (tab : List α) (owner : α → Option Nat) => held ≠ none ∧
      ∃ i < 16, i ≠ entry ∧ (tab[i]?.bind owner) = held
    let sum := ((floors.set entry ⟨held, val⟩).map fun (f : Floor) => f.floor).sum
    (sel → cls < 5 → entry = 0 → slice = 0 → depth = 0 → Completes (exec (.xq a b c) s) fun t =>
      WritesX s t a (BitVec.ofNat 64 (exceedance s shares s.oid (s.getX c).toNat))) ∧
    (1 ≤ a.toNat → a.toNat ≤ 30 → (cls ≤ 10 ∨ 16 ≤ cls ∧ cls ≤ 20) → idx < 65536 → oid < 256 →
      s.getX b = BitVec.ofNat 64 (idx * 65536 + cls * 256 + oid) →
      (if s.oid = 0 then (s.ownerSt oid).valid = true else oid = s.oid) →
      Completes (exec (.xdraw a b c) s) fun t => WritesPair s t a (nextReg a) (d.setWidth 64) (d.extractLsb' 64 64)) ∧
    (s.getX b = BitVec.ofNat 64 idx → idx < 176 →
      (1 ≤ a.toNat → a.toNat ≤ 30 → Completes (exec (.daccrd a b) s) fun t =>
        WritesPair s t a (nextReg a) (BitVec.ofNat 64 acc.1) (BitVec.ofNat 64 acc.2)) ∧
      Completes (exec (.daccclr b) s) fun t => (∀ j, tget (0, 0) t.cx.dacc j = if j = idx then (0, 0) else tget (0, 0) s.cx.dacc j) ∧
        t = { s with cx := { s.cx with pc := s.cx.npc, dacc := t.cx.dacc } }) ∧
    (s.getX b = BitVec.allOnes 64 → Completes (exec (.daccclr b) s) fun t =>
      t = { s with cx := { s.cx with pc := s.cx.npc, dacc := [] } }) ∧
    (sel → (cls = 5 ∨ cls = 6) → (entry ≤ 16 ∨ entry = 31) → slice < slices → mayRead →
      (1 ≤ depth → depth ≤ ways → Completes (exec (.umrd a b) s) fun t =>
        WritesX s t a (BitVec.ofNat 64 ((q.part (own (partOf floors s.oid))).hits.getD (depth - 1) 0))) ∧
      (depth = 0 → Completes (exec (.qrd a b) s) fun t =>
        let i := own (partOf floors s.oid)
        let e := floors.getD i ⟨none, 0⟩
        WritesX s t a (BitVec.ofNat 64 (q.free % 65536 * 2 ^ 32 + (q.part i).quota * 2 ^ 24 + free i e.owner +
          (e.owner.getD 0) * 2 ^ 8 + e.floor)))) ∧
    (sel → cls < 5 → (entry ≤ 16 ∨ entry = 31) → slice = 0 → depth = 0 → mayRead → Completes (exec (.qrd a b) s) fun t =>
      let i := own (shareEntry shares s.oid)
      let e := shares.getD i ⟨none, 0⟩
      WritesX s t a (BitVec.ofNat 64 ((shareWeights shares).sum % 65536 * 2 ^ 32 + free i e.owner + (e.owner.getD 0) * 2 ^ 8 + e.weight))) ∧
    (sel → ¬mayRead → cls < 5 → slice = 0 → depth = 0 → entry ≤ 16 → Traps (exec (.qrd a b) s) s .perm none none) ∧
    (s.cx.crs.cmode = true → s.cx.fir.oid = 0 → sel → entry ≤ 16 → slice = 0 → depth = 0 → oid < 256 → value < 256 →
      s.getX c = BitVec.ofNat 64 ((if empty then 65536 else 0) + oid * 256 + value) → (entry = 16 → oid = 0 ∧ empty = false) →
      (entry ≠ 16 → empty = false → (s.ownerSt oid).valid = true) →
      (cls < 5 →
        (taken shares (fun (e : Share) => e.owner) → qset (exec (.qset a b c) s) 2 fun u => u = s) ∧
        (¬taken shares (fun (e : Share) => e.owner) → qset (exec (.qset a b c) s) 0 fun u =>
          u = s.updDie die fun d => { d with share := d.share.set cls (shares.set entry ⟨held, val⟩) })) ∧
      ((cls = 5 ∨ cls = 6) → value ≤ ways →
        (taken floors (fun (e : Floor) => e.owner) → qset (exec (.qset a b c) s) 2 fun u => u = s) ∧
        (¬taken floors (fun (e : Floor) => e.owner) → ways < sum → qset (exec (.qset a b c) s) 1 fun u => u = s) ∧
        (¬taken floors (fun (e : Floor) => e.owner) → sum ≤ ways → qset (exec (.qset a b c) s) 0 fun u =>
          u.cx = s.cx ∧ u.mem = s.mem ∧ u.owners = s.owners ∧
          (cls - 5 < (s.dieSt die).floors.length → floorsOf u die cls = floors.set entry ⟨held, val⟩))))

/-- R354, R355, R379, R380: MEASURE extends the owner's measurement by the digest of the bytes that its list names and writes both; ATTEST
#0 stores the report, and ATTEST #1 stores the secret of a sealed owner into a sealed page of its own, with statuses 1 and 2 where it may
not. The signature and the secret are free values.
Where it rests on a choice of the model, that is the one of log entry 6. -/
def Obligations.Attestation : Prop :=
  ∀ (s u v w x : State) (vr : VReg) (a b c : XReg) (bs ls nonce ct : List Byte) (ps : List Put) (l : Leaf),
    let n := (s.getX c).toNat
    let o := s.ownerSt s.oid
    let vas := (List.range n).map fun i => BitVec.ofNat 64 (leNat ((ls.drop (8 * i)).take 8))
    let digest := sha3 bs
    let new := sha3 (bytes32 (w.ownerSt w.oid).measurement ++ digest)
    let dst := s.getX c
    let secret := bytes32 (Config.decapsulate s.oid o.keyGen (leNat ct))
    (s.cx.crs.cmode = true → 1 ≤ n → n ≤ 4096 → loadWords s (s.getX b) none n = .ok (ls, u) → checkUnits vas u = .ok v →
      readUnits vas v = .ok (bs, w) → Completes (exec (.measure vr b c) s) fun t => WritesV
        (w.updOwner w.oid fun o => { o with measurement := BitVec.ofNat 256 (leNat new) }) t vr
        (BitVec.ofNat 512 (leNat (digest ++ new))) 0) ∧
    ((s.getX b).toNat % 64 = 0 → (s.getX c).toNat % 8 = 0 → loadWords s (s.getX c) none 4 = .ok (nonce, u) →
      checkPieces (storePieces 64 (s.getX b) (attestation u nonce)) u = .ok (ps, v) → storeAll v ps (v.scope none) false = .ok w →
      Completes (exec (.attestReport a b c 0) s) fun t => WritesX w t a 0) ∧
    ((s.getX b).toNat % 8 = 0 → dst.toNat % 32 = 0 →
      (o.isSealed = false → Completes (exec (.attestDecapsulate a b c) s) fun t => WritesX s t a 1) ∧
      (o.isSealed = true → storeCheck s dst 32 = .ok (l, u) →
        (entrySealed l.entry = false ∨ l.owner ≠ s.oid → Completes (exec (.attestDecapsulate a b c) s) fun t => WritesX s t a 2) ∧
        (entrySealed l.entry = true → l.owner = s.oid → loadWords u (s.getX b) none 136 = .ok (ct, v) →
          storeOne v dst l secret (v.scope none) false = .ok x →
          Completes (exec (.attestDecapsulate a b c) s) fun t => WritesX x t a 0)))

/-! ### What happens without an instruction: the events of the opcode table (spec/95_what_each_step_holds.md) -/

/-- R195, R203, R205, R210, R212, R226, R229 to R233, R239, R284, R309, R396: what homes and the sequencer do. An access that has reached
its home, or the one that waits for its grant there or at its line's channel, takes effect: a store's bytes are in memory, an atomic and
an MXACC write their new value and answer with the old, a counter takes the amount, PCLR writes zeros and clears the mark; the access is
then no longer on its way and its stamp is in the running maximum of its context. A line that its home does not hold is fetched first. A
marked line refuses all but PCLR, and a counter message that a staging held is not made. The sequencer logs a REPL store and the zeros of
PCLR for every live die, a replica applies those of its oldest stamp, in the order of core numbers, once the sequencer's time has passed
it, and the marks follow fabric time while no store flows.
Where it rests on a choice of the model, that is those of log entries 3, 10, 38, 43 and 50. -/
def Obligations.HomesApply : Prop :=
  ∀ (s : State) (f : Flight) (die : Nat) (r : ReplStore),
    let k := s.ctxOf f.ctx
    let line := f.pa / 128
    let apply := exec (.homeApply f.id) s
    let found := s.net.flight.find? (fun (g : Flight) => g.id == f.id) = some f
    let alone := fun (q : Nat × Nat) => f.path = [q] ∧ ∀ g ∈ s.net.flight, g ≠ f → waitsAt s q (mayApply s) g = false
    let sole := ∀ q ∈ f.path, alone q ∧ (q.1 = 3 ∨ q.1 = 2 ∧ fetches s f = false)
    let clean := f.earlier = true → (∀ q ∈ s.home.copies, q.dirty = true → q.holder ≠ some f.ctx) ∧
      ∀ g ∈ s.net.flight, g.ctx = f.ctx → g.isLoad = false → g.id < f.id → g.left f.scope = false
    let plain := (∀ o, (s.ownerSt o).mpass = none) ∧ (s.ownerSt f.oid).rpl.mode = 0
    let landed := fun (t : State) => (∀ g ∈ t.net.flight, g.id ≠ f.id) ∧ (t.ctxOf f.ctx).x = k.x ∧
      (t.ctxOf f.ctx).runMax = mergeStamp k.runMax (homeStamp s f)
    let go := fun (o : Out) (mem : List Host.Cell) => Completes o fun t => t.mem = mem ∧ landed t
    let answers := fun (o : Out) (mem : List Host.Cell) (v : Word) => Completes o fun t => t.mem = mem ∧ landed t ∧
      ∀ p ∈ (t.ctxOf f.ctx).pend, p.result = some f.id → p.value = some v
    let refused := fun (o : Out) => Completes o fun t => t.mem = s.mem ∧ ∀ g ∈ t.net.flight, g.id = f.id → g.state = .refused
    let old := fun (n : Nat) => leNat (memRead s.mem f.pa n)
    let mine := s.home.replLog.filter fun (q : ReplStore) => q.stamp == r.stamp && q.dies.contains die
    (found → sole → clean → plain → f.ctx.which < 3 → mayApply s f = true →
      (marked s f.owner line = true → f.isLoad = false → (∀ c q, f.kind ≠ .pclr c q) →
        (∀ es ks b, f.kind ≠ .commit es ks b ∧ f.kind ≠ .requests es) → (∀ d na, f.kind ≠ .priv d na) →
        (isCount f = false → refused apply) ∧
        (∀ n, (f.kind = .count n false → refused (exec (.counterMessageApply f.id) s)) ∧
          (f.kind = .count n true → Completes (exec (.counterMessageApply f.id) s) fun t => t.mem = s.mem ∧
            ∀ g ∈ t.net.flight, g.id ≠ f.id))) ∧
      (marked s f.owner line = false → (inWindow f.pa = true → Config.farAnswer s.tick ≠ 1 ∧ Config.farAnswer s.tick ≠ 2) →
        (∀ bs, f.kind = .store bs → go apply (memWrite s.mem f.pa bs)) ∧
        (∀ op sz x e, f.kind = .atomic op sz x e →
          let n := Size.bits sz / 8
          answers apply (memWrite s.mem f.pa (leBytes n (amoNew op (Size.bits sz) (old n) x e)))
            (if op = .fadd then BitVec.ofNat 64 (old n) else widen sz (BitVec.ofNat (Size.bits sz) (old n)))) ∧
        (∀ xs fmt, f.kind = .mxacc xs fmt →
          let m := mxAccumulate (Config.mxZeroNeg s.tick) fmt (memRead s.mem f.pa 64) xs
          answers apply (memWrite s.mem f.pa m.1) (BitVec.ofNat 64 (m.2.1 + if m.2.2 then 256 else 0))) ∧
        (∀ n b, f.kind = .count n b → (∀ w ∈ s.home.watches, w.pa ≠ f.pa) →
          go (exec (.counterMessageApply f.id) s) (memWrite s.mem f.pa (leBytes 8 ((old 8 + n.toNat) % 2 ^ 64))))) ∧
      (f.kind = .pclr clsSm none → Completes apply fun t => t.mem = memWrite s.mem f.pa (List.replicate 128 0) ∧ landed t ∧
        ∀ m ∈ t.home.marks, m.1 ≠ line)) ∧
    (found → isCount f = false → mayApply s f = true → fetches s f = true → ∀ q, alone q → q.1 = 2 → Completes apply fun t =>
      t.mem = s.mem ∧ ∃ g ∈ t.net.flight, g.id = f.id ∧ g.kind = f.kind ∧ g.path = [(3, sliceKey s f.owner line)]) ∧
    (found → mayStamp s f = true → f.kind = .pclr clsRepl none → Completes (exec (.replSequence f.id) s) fun t => t.mem = s.mem ∧
      (∀ g ∈ t.net.flight, g.id ≠ f.id) ∧ t.home.replLog = s.home.replLog ++
        [⟨f.id, f.first, f.ctx, s.now, f.pa, f.owner, List.replicate 128 0, replicaDies s, true⟩]) ∧
    (found → mayStamp s f = true → ∀ bs, f.kind = .repl bs →
      (marked s f.owner (replicaPa f.pa s.dev.seqDie / 128) = true → refused (exec (.replSequence f.id) s)) ∧
      (marked s f.owner (replicaPa f.pa s.dev.seqDie / 128) = false → Completes (exec (.replSequence f.id) s) fun t => t.mem = s.mem ∧
        (∀ g ∈ t.net.flight, g.id ≠ f.id) ∧ t.home.replLog = s.home.replLog ++
          [⟨f.id, f.first, f.ctx, s.now, f.pa, f.owner, bs, replicaDies s, false⟩])) ∧
    (s.home.replLog.find? (fun (q : ReplStore) => q.dies.contains die) = some r → r.stamp ≠ s.now →
      (∀ o, (s.ownerSt o).mpass = none) → (∀ q ∈ mine, marked s q.owner (replicaPa q.pa die / 128) = false) →
      Completes (exec (.replReplicaApply die) s) fun t =>
        t.mem = (byCore mine).foldl (fun m q => memWrite m (replicaPa q.pa die) q.data) s.mem ∧
        (∀ q ∈ t.home.replLog, q.stamp = r.stamp → die ∉ q.dies) ∧
        (t.dieSt die).replMark = laterOf (s.dieSt die).replMark r.stamp) ∧
    (s.home.replLog = [] → Completes (exec .replMark s) fun t => t.mem = s.mem ∧
      ∀ d < 9, (t.dieSt d).replMark = laterOf (s.dieSt d).replMark (s.now - 1))

/-- R174, R196, R198, R206, R207, R209, R226, R385: what reaches a context, and what caches do. A pending register is written with its
answer or witness; a refusal makes POISON pending, or PERM that of a linked device, and a lost home LOST, once for an instruction; a
lease that has run out takes its clean copy away; a dirty line of the near tier is written back; a die partial that has lost its way is
folded into its line; a class change completes, and a page that becomes CR is 0.
Where it rests on a choice of the model, that is those of log entries 18, 43 and 45. -/
def Obligations.AnswersAndCopies : Prop :=
  ∀ (s : State) (c : CtxId) (r : XReg) (p : Pend) (f : Flight) (a : CacheId) (line cl die n : Nat) (k : Copy) (q : Partial)
      (g : ClassChange),
    let h := s.ctxOf f.ctx
    let base := entryBase g.newEntry
    (c.which < 3 → r ≠ 0 → (s.ctxOf c).pend.find? (fun (p : Pend) => p.reg == r) = some p → pendReady s c p = true →
      (p.result = none → (∀ k ∈ s.home.copies, k.dirty = true → k.holder ≠ some c) ∧
        ∀ g ∈ s.net.flight, g.ctx = c → g.isLoad = false → g.id < p.mark → g.left p.scope = false) →
      Completes (exec (.witnessDelivered c r) s) fun t => t.mem = s.mem ∧ (∀ q ∈ (t.ctxOf c).pend, q.reg ≠ r) ∧
        (t.ctxOf c).getX r = (if p.result ≠ none then p.value.getD 0 else if p.null then 0 else mkWit p.scope p.stamp) ∧
        ∀ d, d ≠ r → (t.ctxOf c).getX d = (s.ctxOf c).getX d) ∧
    (f.ctx.which < 3 → s.net.flight.find? (fun (g : Flight) => g.id == f.id) = some f →
      (f.turnedAway = true → Completes (exec (.refusalReport f.id) s) fun t =>
        let b := (refusedWith s f).head?.getD f
        t.mem = s.mem ∧ (t.ctxOf f.ctx).engFaults = h.engFaults ++
          [⟨if b.state = .denied then .perm else .poison, some b.va, b.pc, b.first⟩] ∧
        (t.ctxOf f.ctx).x = h.x ∧ f ∉ t.net.flight) ∧
      (f.turnedAway = false → homeGone s f = true → Completes (exec (.lostReport f.id) s) fun t =>
        let b := (lostWith s f).head?.getD f
        t.mem = s.mem ∧ (t.ctxOf f.ctx).lostPend = (if b.isLoad then h.lostPend else h.lostPend ++ [(1, b.va)]) ∧
        (t.ctxOf f.ctx).x = h.x ∧ f ∉ t.net.flight)) ∧
    (findCopy s a line = some k → k.dirty = false → (∀ i, a ≠ .far i) → passed s.now k.expiry = true →
      Completes (exec (.leaseExpiry a line) s) fun t => findCopy t a line = none ∧
        t = { s with home := { s.home with copies := t.home.copies, classChanges := t.home.classChanges } }) ∧
    (findCopy s (.near cl) line = some k → k.dirty = true → marked s k.owner line = false → (∀ o, (s.ownerSt o).mpass = none) →
      Completes (exec (.dirtyWriteback (.near cl) line) s) fun t =>
        t.mem = memWrite s.mem (line * 128) (lineBytes k.data 0 128) ∧
        ∃ b, findCopy t (.near cl) line = some b ∧ b.dirty = false ∧ b.data = k.data) ∧
    (die < 9 → s.home.partials.find? (fun (p : Partial) => p.die == die && p.place.line == line && p.evicted.isSome) = some q →
      partialOf s die q.place.key = some q →
      (s.ownerSt q.place.owner).rpl.mode = 0 → Memory.wf s.mem = true → Completes (exec (.crFold die line) s) fun t =>
        (∀ p ∈ t.home.partials, ¬(p.die = die ∧ p.place.key = q.place.key)) ∧
        crHome t q.place = (crHome s q.place).add q.place.fmt q.line) ∧
    (s.home.classChanges[n]? = some g → changeReady s g = true → Completes (exec (.classChangeComplete n) s) fun t =>
      g ∉ t.home.classChanges ∧ (∀ b ∈ t.home.copies, lineInPage g.oldEntry g.level b.line = true → ∃ i, b.at_ = .far i) ∧
      (entryCls g.newEntry = clsCr → Memory.wf s.mem = true →
        ∀ x, base ≤ x → x < base + pageBytes g.newEntry g.level → memGet t.mem x = 0))

/-- R17, R156, R157, R165, R177, R216, R249, R252, R255, R278, R279, R281, R284, R285, R291, R321: what the engines of a core and of a
cluster do: announcements are presented and applied, matrix operations start, complete and meet GANG, ramps and holds end, the lane store
is cleared, copies start, work and complete, deliveries land, fires and pending pushes enter deques, a free context starts the record that
it pops, and records are stolen and dispatched again.
Where it rests on a choice of the model, that is those of log entries 3, 25, 27, 31, 32 and 49. -/
def Obligations.EnginesAct : Prop :=
  ∀ (s u : State) (core cl n w j word op : Nat) (c : CtxId) (o : MatOp) (p : GangPos) (a : Announce) (v : Word) (q : CopyOp)
      (d : Delivery) (l : Landing) (slot h : Nat) (f : Fire) (e : DequeEntry) (y : Steal) (r : Redispatch) (z : Cause × Option Word)
      (rest : List Announce),
    let me := s.coreSt core
    let k := s.clusterSt cl
    let runs := engineRuns s core = true
    let slice := fun (t : State) => (t.coreSt core).slice
    let old := (s.ownerSt a.oid).notif.toList
    let g := s.onHome fun t => { t with fires := dropAt t.fires n }
    let b := dequeTake s c.core 0
    let started := launchCancelled b ⟨c.core, 3⟩ (s.coreOwner c.core) (recLaunch e.record)
    let fired := launchCancelled g ⟨f.core, 3⟩ f.oid (recLaunch f.record)
    let i := recOwner e.record
    (me.failed = false → me.annQueue = a :: rest → a.core = core → (∀ b ∈ rest, b.id ≠ a.id) → (s.ownerSt a.oid).rpl.mode = 0 →
      a.ctx.which < 3 → Completes (exec (.announcePresent core) s) fun t => (t.coreSt core).annQueue = rest ∧
        t.net.announced = s.net.announced ++ [{ a with window := annWindow s core }] ∧ t.mem = s.mem ∧
        ((s.ctxOf a.ctx).wait = some (.window a.id) → (t.ctxOf a.ctx).wait = none ∧
          (t.ctxOf a.ctx).verdict = some (BitVec.ofNat 64 ((64 * annWindow s core + 384) % 2 ^ 48), 0))) ∧
    (dueWindow s = some w → s.net.announced.filter (fun (a : Announce) => a.window == w) = [a] → a.kind = .word word op v → word < 64 →
      op < 4 → (s.ownerSt a.oid).rpl.mode = 0 → Completes (exec .gauzeWindowApply s) fun t => t.mem = s.mem ∧
        (∀ x ∈ t.net.announced, x.window ≠ w) ∧
        (t.ownerSt a.oid).notif.toList = old.set word (match op with
          | 0 => v | 1 => old.getD word 0 + v | 2 => old.getD word 0 ||| v | _ => old.getD word 0 &&& v)) ∧
    (runs → unstarted s core = some o → o.position = none → Completes (exec (.matrixOpStart core) s) fun t => t.mem = s.mem ∧
      (∀ x ∈ slice t, x.id = o.id → x.started = true) ∧ (t.coreSt core).rampIdle = false) ∧
    (runs → (slice s).head? = some o → o.started = true → o.discard = false →
      (opFault o = none → contribute s o = .done u → Completes (exec (.matrixOpComplete core) s) fun t =>
        slice t = (slice u).filter (fun (x : MatOp) => x.id != o.id) ∧ t.mem = u.mem ∧ t.home.partials = u.home.partials) ∧
      ((opFault o = some z ∨ opFault o = none ∧ contribute s o = .fault z) → o.ctx.which < 3 → Completes (exec (.matrixOpComplete core) s) fun t => t.mem = s.mem ∧
        slice t = (slice s).filter (fun (x : MatOp) => x.id != o.id) ∧
        (t.ctxOf o.ctx).engFaults = (s.ctxOf o.ctx).engFaults ++ [⟨z.1, some (z.2.getD 0), o.pc, o.id⟩])) ∧
    ((slice s).find? (fun (x : MatOp) => !x.started && x.position.isSome) = some o → o.position = some p →
      core ∈ memberCores (clusterOf core) p.mask → positionOp s core p = some o →
      (∃ c ∈ memberCores (clusterOf core) p.mask, positionOp s c p = none) →
      atOrPast s.now (o.issuedAt + 65536) = true → Completes (exec (.gangTimeout core) s) fun t => t.mem = s.mem ∧
        ∀ x ∈ slice t, x.id = o.id → x.started = true ∧ x.gangFault = true) ∧
    ((slice s).all (fun (x : MatOp) => !x.started) = true → me.hold = none →
      atOrPast s.now (me.lastDone + cyclesNs s (clusterOf core) 256) = true → Completes (exec (.sliceRampDown core) s) fun t =>
        t = s.updCore core fun k => { k with rampIdle := true }) ∧
    (∀ x y, me.hold = some (x, y) → atOrPast s.now y = true → Completes (exec (.mhintHoldEnd core) s) fun t =>
      t = s.updCore core fun k => { k with hold := none }) ∧
    (me.laneClearing = true → Completes (exec (.laneStoreClear core) s) fun t =>
      t = s.updCore core fun k => { k with laneClearing := false, lane := [], lanePoison := [] }) ∧
    (k.halted = false → k.failed = false → k.copyQ.filter (fun (x : CopyOp) => !x.started) = [q] → q.src.kind < 2 →
      Completes (exec (.copyStart cl) s) fun t => t.mem = s.mem ∧
        ∀ x ∈ (t.clusterSt cl).copyQ, x.tag = q.tag → x.started = true) ∧
    (k.copyQ.find? (fun (x : CopyOp) => x.tag == q.tag) = some q → q.started = true →
      (q.sent = false → k.halted = false → copyWork s cl q = some u → exec (.copyComplete cl q.tag) s = .next u) ∧
      (q.sent = true → copyDone s cl q = true → q.ctx.which < 3 → Completes (exec (.copyComplete cl q.tag) s) fun t =>
        (∀ x ∈ (t.clusterSt cl).copyQ, x.tag ≠ q.tag) ∧ q.tag ∉ (t.ctxOf q.ctx).copies)) ∧
    (s.net.inbound[n]? = some d → arrival s d = .lands core l slot h → Completes (exec (.inboundDelivery n) s) fun t =>
      t.net.inbound = dropAt s.net.inbound n ∧ bufOf t d.cluster h = (bufOf s d.cluster h).map fun b =>
        d.rows.foldl (fun b (r : Nat × List Byte) => bufWrite b r.1 r.2) b) ∧
    (s.home.fires[n]? = some f → fired.1 = false → recRearm f.record = false →
      pushDeque fired.2 (pushTarget g f.core f.oid) f.oid { record := f.record, addr := f.addr, startWit := f.wit, fid := f.fid } false =
        some u → Completes (exec (.triggerFirePush n) s) fun t => t.home.fires = dropAt s.home.fires n ∧
        ∃ x ∈ (t.coreSt (pushTarget g f.core f.oid)).deque,
          x.record = f.record ∧ x.addr = f.addr ∧ x.startWit = f.wit ∧ x.fid = f.fid) ∧
    (me.pendPush = [⟨e, none⟩] → pushDeque s core i e true = some u → Completes (exec (.dequePushRetry core) s) fun t =>
      (t.coreSt core).pendPush = [] ∧ ∃ x ∈ (t.coreSt core).deque, x.record = e.record ∧ x.addr = e.addr ∧ x.fid = e.fid) ∧
    (canDispatch s c = true → (s.coreSt c.core).deque = [e] → e.resume = none → e.spill = none →
      started.1 = false → Completes (exec (.firingDispatch c) s) fun t =>
        let x := t.ctxOf c
        x.life = .running ∧ x.pc = recEntry e.record ∧ x.getX 1 = recArg e.record ∧ x.getX 2 = e.addr ∧
        (∀ r, r ≠ 1 → r ≠ 2 → x.getX r = 0) ∧ x.crs.cmode = decide (i = 0) ∧ x.fir.oid = BitVec.ofNat 8 i ∧ x.fir.fid = e.fid ∧
        x.fir.startWit = e.startWit ∧ (t.coreSt c.core).deque = []) ∧
    (canSteal s core = true → (s.coresOf (s.coreOwner core)).filter (· != core) ≠ [] → me.stealFails < 64 →
      Completes (exec (.stealRequest core) s) fun t => ∃ v ∈ s.coresOf (s.coreOwner core), v ≠ core ∧
        t.net.steals = s.net.steals ++ [⟨core, v⟩]) ∧
    (s.net.steals[n]? = some y → y.thief ≠ y.victim → s.coreOwner y.victim = s.coreOwner y.thief →
      (1 < (s.coreSt y.victim).deque.length ∨ hasFree s y.victim = false) → pickEntry (s.coreSt y.victim).deque false = some j →
      (s.coreSt y.victim).deque[j]? = some e → (∀ x ∈ (s.coreSt y.victim).deque, x.spill = none) → Completes (exec (.stealReply n) s) fun t =>
        t.net.steals = dropAt s.net.steals n ∧ (t.coreSt y.victim).deque = dropAt (s.coreSt y.victim).deque j) ∧
    (s.net.redispatch[n]? = some r → Completes (exec (.firingRedispatch n) s) fun t =>
      t.net.redispatch = dropAt s.net.redispatch n ∧ ∃ x, (∃ y ∈ (t.coreSt x).deque, y.record = r.entry.record ∧ y.fid = r.entry.fid ∧ y.retry = r.entry.retry) ∨
        ⟨r.entry, none⟩ ∈ (t.coreSt x).pendPush)

/-- R85, R249, R296, R300, R301, R303, R341, R367, R382, R383, R386, R391, R413: what comes to a context between instructions, and what
time brings. The pending cause of highest rank is taken as a trap with its values; a deadline makes TIMER pending; a wait that is over
lets its instruction execute again; pre-emption and resuming are as the named acts give them; a barrier's time-out ends its generation;
an interval's end at a slice halves every utility count and conserves the ways; a pass ends; an event that replay has held for 2^20 ns
is released, and its firing differs there.
Where it rests on a choice of the model, that is those of log entries 3, 27, 37 and 38. -/
def Obligations.ContextsAct : Prop :=
  ∀ (s u : State) (c : CtxId) (w : Wait) (sv : Saved) (b : Barrier) (x : Stamp) (oid slot die n : Nat) (m : MPass) (h : Held)
      (q : Quotas) (k' : ClusterSt) (e : EngFault) (es : List EngFault) (kind : Nat) (va : Word) (ls : List (Nat × Word)),
    let k := s.ctxOf c
    let r := s.cx
    let takes := fun (q : Ctx) (cause : Cause) (impr : Bool) (addr val : Option Word) =>
      exec (.trapEntry s.cur) s = .next (takeTrap { s with cx := q } cause impr addr val r.pc)
    let released := fun (o : Out) => Completes o fun t =>
      (t.ctxOf c).wait = none ∧ (t.ctxOf c).woke = some w ∧ (t.ctxOf c).x = k.x ∧ (t.ctxOf c).pc = k.pc ∧ t.mem = s.mem
    let total := fun (q : Quotas) => (q.parts.map fun (p : Part) => p.quota).sum + q.free
    let halves := fun (new old : Quotas) => total new = total old ∧
      new.parts.map (fun (p : Part) => p.hits) = (old.parts.map fun (p : Part) => p.hits.map (· / 2)) ∧ new.done = old.done + 1
    (haltedAt s s.cur.core = false → r.wait = none → r.woke = none →
      (pendingCause s r = some .lost → r.lostPend = (kind, va) :: ls →
        takes { r with lostPend := ls } .lost false (some va) (some (BitVec.ofNat 64 kind))) ∧
      (pendingCause s r = some .engine → firstFault r.engFaults = some (e, es) →
        takes { r with engFaults := es } e.cause true (some (e.addr.getD 0)) (some e.val)) ∧
      (pendingCause s r = some .timer →
        takes { r with timerPend := false, crs := { r.crs with tdline := r.crs.tdline &&& ~~~(BitVec.twoPow 64 63) } }
          .timer false none none) ∧
      (pendingCause s r = some .notice → takes { r with noticeSet := 0 } .notice false none (some r.noticeSet))) ∧
    (c ≠ s.cur → haltedAt s c.core = false → exec (.trapEntry c) s = .next ((boundaryTrap (s.switchTo c)).switchTo s.cur)) ∧
    (c.which < 3 → k.life = .running → timerDue s k = true → Completes (exec (.tdlineDeadline c) s) fun t =>
      (t.ctxOf c).timerPend = true ∧ t.mem = s.mem) ∧
    (c.which < 2 → haltedAt s c.core = false → pendingCause s k = some .preempt → preemptCtx s c none true = (sv, u) → exec (.preemption c) s = .next u) ∧
    ((suspdSlots s oid).find? (fun (p : Nat × CtxId) => p.1 == slot) = some (slot, c) → (s.ownerSt oid).valid = true →
      (s.ownerSt oid).susp = false → coreOpen s c.core = true → s.coreOwner c.core = oid → k.life = .free →
      resumeSlot s c oid slot = some u → exec (.suspendedResume oid slot) s = .next u) ∧
    (c.which < 3 → haltedAt s c.core = false → k.wait = some w →
      ((∃ a v, w = .address a v true) → released (exec (.waitaPoll c) s)) ∧
      ((∃ a v, w = .address a v false) → released (exec (.waitaWake c) s)) ∧
      (w = .copyQueue → waitOver s c w = true → released (exec (.copyEnqueue c) s)) ∧
      (waitOver s c w = true → (∀ n, w ≠ .entry n) → (∀ a v p, w ≠ .address a v p) → w ≠ .copyQueue →
        released (exec (.instrWaitEnd c) s))) ∧
    (tfind (s.dieSt die).barriers n = some b → b.started = some x → atOrPast s.now (x + BitVec.ofNat 48 b.timeout) = true →
      Completes (exec (.barrierTimeout die n) s) fun t => t.mem = s.mem ∧
        tfind (t.dieSt die).barriers n = some { b with g := !b.g, arrived := [], started := none, timedOut := true }) ∧
    (tfind s.clusters (die * 32 + n) = some k' → k'.quotas.done < s.dev.intervals →
      Completes (exec (.quotaInterval false die n) s) fun t => t.mem = s.mem ∧
        halves (t.clusterSt (die * 32 + n)).quotas k'.quotas) ∧
    (tfind (s.dieSt die).farQuotas n = some q → q.done < s.dev.intervals →
      Completes (exec (.quotaInterval true die n) s) fun t => t.mem = s.mem ∧
        ∃ p, tfind (t.dieSt die).farQuotas n = some p ∧ halves p q) ∧
    ((s.ownerSt oid).mpass = some m → passOver s oid = true → Completes (exec (.mpassPassEnd oid) s) fun t =>
      ∀ m', (t.ownerSt oid).mpass = some m' → m'.pass = m.pass + 1) ∧
    ((heldNow s).find? (fun (h : Held) => h.id == n) = some h → tfind (s.ownerSt h.oid).rpl.holds n = some x →
      atOrPast s.now (x + BitVec.ofNat 48 (2 ^ 20)) = true →
      Completes (exec (.replayHoldTimeout n) s) fun t => t.mem = s.mem ∧
        (t.ownerSt h.oid).rpl.released = n :: (s.ownerSt h.oid).rpl.released ∧
        (∀ fid ev, h.event = some (fid, ev) → ∃ i, tfind (t.ownerSt h.oid).rpl.differ fid = some i ∧
          (tfind (s.ownerSt h.oid).rpl.differ fid = none → i = ev)) ∧
        (h.event = none → (t.ownerSt h.oid).rpl.differ = (s.ownerSt h.oid).rpl.differ))

/-- R394 to R404, R416: what fails, and what is done about it. An error in HBM or in the adder marks its line, one in registers or the
scalar unit makes HWERR pending, one in a scratchpad or lane-store chunk poisons it, and one in a clean copy drops it; a wire fails, at
once or after 16 retries, and its traffic is lost; a failed core runs nothing, a failed cluster keeps no copy and none of its cores'
places, and a failed die's lines are lost; a group's fatal fault frees the owner's buffers; a cluster halts with a snapshot and resumes,
and after a crash dump all are halted; a failed home slice or near-tier slice loses what it held dirty.
Where it rests on a choice of the model, that is those of log entries 13 and 28. -/
def Obligations.FailuresAct : Prop :=
  ∀ (s : State) (c : CtxId) (line core cl die slice wire handle chunk entry : Nat) (k : Copy) (b : Buf) (a : CacheId),
    let unchanged := fun (t : State) => t.cx = s.cx ∧ t.mem = s.mem
    let lost := fun (t : State) (p : Copy → Prop) => ∀ k ∈ s.home.copies, p k → k.dirty = true → ∀ o, marked t o k.line = true
    let err := fun (e : ErrSite) => exec (.uncorrectableError e) s
    let n := tget 0 s.dev.crcRetry wire
    let gone := fun (t : State) => wire ∈ t.dev.linksDown ∧ (∀ f ∈ t.net.flight, inLink f.pa = true →
      (f.pa - (2 ^ 51 + 2 ^ 50)) / 2 ^ 46 = wire → f.state ≠ .onWay)
    let still := fun (t : State) => t.cx = { s.cx with dacc := t.cx.dacc }
    (line * 128 < hbmEnd → Completes (err (.hbm line)) (fun t => t.mem = s.mem ∧ ∀ o, marked t o line = true) ∧
      Completes (err (.adder line)) (fun t => t.mem = s.mem ∧ ∀ o, marked t o line = true)) ∧
    (c.which < 3 → (s.ctxOf c).life = .running → Completes (err (.registers c)) (fun t => (t.ctxOf c).hwerr = true ∧ t.mem = s.mem) ∧
      Completes (err (.scalarUnit c)) (fun t => (t.ctxOf c).hwerr = true ∧ t.mem = s.mem)) ∧
    (bufOf s cl handle = some b → 16 * chunk < b.size → Completes (err (.scratch cl handle chunk)) fun t => unchanged t ∧
      ∃ q, bufOf t cl handle = some q ∧ chunk ∈ q.poison ∧ q.data = b.data) ∧
    (entry < 1024 → chunk < 4 → (s.coreSt core).laneHolder ≠ none → Completes (err (.lane core entry chunk)) fun t => unchanged t ∧
      (entry * 4 + chunk) ∈ (t.coreSt core).lanePoison ∧ (t.coreSt core).lane = (s.coreSt core).lane) ∧
    (findCopy s a line = some k → k.dirty = false → (∀ i, a ≠ .near i) → Completes (err (.copy a line)) fun t => unchanged t ∧
      findCopy t a line = none ∧ t.home.marks = s.home.marks) ∧
    (wire < 28 → wire ∉ s.dev.linksDown →
      Completes (exec (.edgeLinkFail wire) s) (fun t => unchanged t ∧ gone t) ∧
      Completes (exec (.linkCrcRetry wire) s) (fun t => unchanged t ∧
        (15 ≤ n ∧ gone t ∨ n < 15 ∧ tget 0 t.dev.crcRetry wire = n + 1 ∨ tget 0 t.dev.crcRetry wire = 1))) ∧
    ((s.coreSt core).failed = false → Completes (exec (.coreFail core) s) fun t => (t.coreSt core).failed = true ∧
      (t.coreSt core).slice = [] ∧ (t.ctxOf ⟨core, 0⟩).life = .free ∧ (t.ctxOf ⟨core, 1⟩).life = .free) ∧
    (cl < 288 → (s.clusterSt cl).failed = false → Completes (exec (.clusterFail cl) s) fun t => (t.clusterSt cl).failed = true ∧
      (t.clusterSt cl).copyQ = [] ∧ ∀ i < 8, (t.coreSt (coreAt cl i)).failed = true ∧ (t.place (coreAt cl i)).present = false) ∧
    (die < 9 → (s.dieSt die).failed = false → Completes (exec (.dieFail die) s) fun t => (t.dieSt die).failed = true ∧
      ∀ l o, l * 128 < hbmEnd → homeDie l = die → marked t o l = true) ∧
    ((s.clusterSt cl).fatal = true → Completes (exec (.groupFatalFault cl) s) fun t => unchanged t ∧
      (t.clusterSt cl).fatal = false ∧ ∀ e ∈ (t.clusterSt cl).bufs, e.2.owner = s.coreOwner (coreAt cl 0) →
        e.2.holder = 18 ∧ e.2.readers ≠ 0 ∧ e.2.quarantined = true) ∧
    (28 ≤ wire → exec (.edgeLinkFail wire) s = .next s ∧ exec (.linkCrcRetry wire) s = .next s) ∧
    (cl < 288 → (s.clusterSt cl).halted = false → Completes (exec (.crossTriggerHalt cl) s) fun t => still t ∧
      (t.clusterSt cl).halted = true ∧ (t.clusterSt cl).snapshot ≠ none) ∧
    ((s.clusterSt cl).halted = true → s.dev.crash = false → Completes (exec (.haltResume cl) s) fun t => still t ∧
      (t.clusterSt cl).halted = false) ∧
    Completes (exec .crashDump s) (fun t => still t ∧ t.dev.crash = true ∧ ∀ i < 288, (t.clusterSt i).halted = true) ∧
    Completes (exec (.homeSliceFail die slice true) s) (fun t => t.mem = s.mem ∧ slice ∈ (t.dieSt die).failedSlices ∧
      lost t fun k => k.at_ = .far (die * 128 + slice)) ∧
    Completes (exec (.homeSliceFail die slice false) s) (fun t => t.mem = s.mem ∧ slice ∈ (t.dieSt die).failedSlices ∧
      (die * 128 + slice) ∈ t.home.chanLost) ∧
    Completes (exec (.nearTierDataArraysFail cl) s) (fun t => t.mem = s.mem ∧ (∀ k ∈ t.home.copies, k.at_ ≠ .near cl) ∧
      lost t fun k => k.at_ = .near cl)

/-- R202, R417 to R431: the apertures, the endpoint's registers, NVMe, boot, power and cooling. A request to no valid aperture is answered
with an abort; a read and a write of one unit of an SM page give the bytes and write them, and of a longer one the first unit is gone
when it has begun; a write through a counting aperture is a counter message; QRESET closes the owner's trace session, and MBOX hands a
word on, which after a failure of boot to read its image, record or HBM begins its recovery; another register ignores a write; a
function-level reset leaves the package as reset does, and the memory beyond it as it was; NVMe writes where its table allows; boot goes
on step by step and ends ready, with owner 0 valid, or in ROM with its code, or with a link down; the supply, the power limit and the
temperature change clocks, within the boost clock; without power no step is taken.
Where it rests on a choice of the model, that is those of log entries 5, 29, 36 and 38. -/
def Obligations.WorldActs : Prop :=
  ∀ (s u : State) (q : Inbound) (a : Aperture) (l : Leaf) (n cl die w addr clock : Nat) (d : List Byte) (x : Word)
      (fail : BitVec 8),
    let va := a.vbase + BitVec.ofNat 64 q.off
    let len := inLen q.op
    let clk := fun (t : State) (i : Nat) => (t.clusterSt i).clockKHz
    let first := (∀ r ∈ s.dev.inQueue, r.src ≠ q.src) ∧ ∀ w ∈ s.dev.inBusy, w.q.src ≠ q.src
    let asked := first ∧ apertureOf s q = some a ∧ a.cnt = false ∧ q.off + len ≤ a.size.toNat ∧ inPending s q.src = false ∧
      0 < len ∧ va.toNat % 128 + len ≤ 128 ∧ inLeaves q a.oid va [(0, len)] s = (some [(0, len, l)], u) ∧ l.cls = clsSm ∧
      marked u l.owner l.line = false
    let code := fieldN s.bootst 15 8
    let next := s.bootst.toNat + 1
    let boots := fun (b : BitVec 8) (t : State) => t.bootst = (if b = BitVec.ofNat 8 next ∧ next ≤ 5 then BitVec.ofNat 64 (next * 257)
      else BitVec.ofNat 64 next) ∧ t.cx = s.cx
    (first → apertureOf s q = none → Completes (exec (.inboundRequest q) s) fun t =>
      t = { s with dev := { s.dev with answers := s.dev.answers ++ [.abort] } }) ∧
    (asked →
      (l.pa % 8 + len ≤ 8 →
        (q.op = .read n → Completes (exec (.inboundRequest q) s) fun t => t.mem = u.mem ∧
          t.dev.answers = u.dev.answers ++ [.data (memRead u.mem l.pa n)]) ∧
        (q.op = .write d → a.w = true → Completes (exec (.inboundRequest q) s) fun t =>
          t.mem = memWrite u.mem l.pa d ∧ t.dev.answers = u.dev.answers ++ [.done])) ∧
      (8 < l.pa % 8 + len → (q.op = .read n ∨ q.op = .write d ∧ a.w = true) → Completes (exec (.inboundRequest q) s) fun t =>
        t.dev.answers = u.dev.answers ∧ ∃ w ∈ t.dev.inBusy, w.q = q ∧ w.left.length + 1 = (unitsOf 17 (0, len, l)).length)) ∧
    (first → inPending s q.src = false → apertureOf s q = some a → a.cnt = true → a.w = true → q.op = .write d → d.length = 8 → va.toNat % 8 = 0 →
      q.off + 8 ≤ a.size.toNat → inCheck s q a.oid va = (some l, u) → l.cls = clsSm → marked u l.owner l.line = false →
      (∀ w ∈ u.home.watches, w.pa ≠ l.pa) → Completes (exec (.apertureCounterWrite q) s) fun t =>
        t.mem = memWrite u.mem l.pa (leBytes 8 ((leNat (memRead u.mem l.pa 8) + leNat d % 2 ^ 64) % 2 ^ 64)) ∧
        t.dev.answers = u.dev.answers ++ [.done]) ∧
    Completes (exec (.qreset x) s) (fun t => (t.ownerSt (x.setWidth 8).toNat).trace = none ∧ t.dev.mbox = s.dev.mbox ++ [x]) ∧
    ((code < 2 ∨ 4 < code) → exec (.mbox x) s = .next { s with dev := { s.dev with mbox := s.dev.mbox ++ [x] } }) ∧
    (2 ≤ code → code ≤ 4 → Completes (exec (.mbox x) s) fun t => t.bootst = 1 ∧ t.dev.mbox = s.dev.mbox ++ [x] ∧ t.cx = s.cx) ∧
    exec (.hostCtrlWrite n x) s = .next s ∧
    Completes (exec .functionLevelReset s) (fun t => t.powered = true ∧ t.bootst = 0 ∧ t.now = 0 ∧ t.mem = s.mem.filter (fun c => inWindow c.1) ∧ t.cx = {} ∧
      t.parked = [] ∧ t.net = {} ∧ t.home = {} ∧ t.cores = [] ∧ ∀ o, (t.ownerSt o).valid = decide (o = 0)) ∧
    (addr + d.length ≤ 33554432 → exec (.nvmeDmaWrite true addr d) s = .next { s with sysSram := memWrite s.sysSram addr d }) ∧
    (d ≠ [] → addr % 128 + d.length ≤ 128 → addr < hbmEnd → addr / 65536 ∈ s.dev.nvmeDma →
      tfind s.home.sealTags (addr / 65536) = none → marked s 0 (addr / 128) = false →
      Completes (exec (.nvmeDmaWrite false addr d) s) fun t => t.mem = memWrite s.mem addr d ∧ t.cx = s.cx) ∧
    (s.powered = true → s.bootst = 0 → Completes (exec (.boot fail) s) fun t => boots fail t ∧ t.dev.bootFail = fail ∧ t.mem = s.mem) ∧
    (s.powered = true → 0 < s.bootst.toNat → next ≤ 7 → Completes (exec (.boot fail) s) fun t => boots s.dev.bootFail t ∧
      (next = 5 → Memory.wf s.mem = true → s.dev.bootFail ≠ 5 → ∀ x < hbmEnd, memGet t.mem x = memGet [] x) ∧
      (next = 6 → s.dev.bootFail = 6 → (Config.deadLink s.tick % 16) ∈ t.dev.linksDown) ∧
      (next = 7 → Memory.wf s.mem = true → entryValid (ownerEntry t 0) = true)) ∧
    exec (.supplySag cl) s = .next (s.updCluster cl fun k => { k with sagged := true }) ∧
    exec (.supplyRestore cl) s = .next (s.updCluster cl fun k => { k with sagged := false }) ∧
    Completes (exec (.powerLimitAdjust w [(cl, clock)]) s) (fun t => t.dev.powerLimitW = min w s.dev.recordLimitW ∧
      clk t cl = max 1 (min clock 3200000) ∧ (∀ i, i ≠ cl → clk t i = clk s i) ∧ t.cx = s.cx ∧ t.mem = s.mem) ∧
    (die < 9 → Completes (exec (.thermalThrottle die) s) fun t => (∀ i < 32, clk t (die * 32 + i) = clk s (die * 32 + i) - 100000) ∧
      t.cx = s.cx ∧ t.mem = s.mem) ∧
    Completes (exec (.thermalShutdown die) s) (fun t => t.powered = false ∧ step t = .fault .noPower)
end

