-- ==== Sys2Proof/Laws/Memory.lean ====
section
/-! SUPPORT. The laws of memory, a list of cells with an address and a byte each; every operation keeps the canonical form, a read after a write
gives what was written, and a write leaves every other byte alone. -/

namespace Sys2Proof.Machine

/-- Every listed address lies at or above `n`. -/
def Memory.above (n : Nat) (m : List Host.Cell) : Prop := ∀ c ∈ m, n ≤ c.1

/-- The canonical form, cell by cell. -/
theorem Memory.wf_cons (c : Host.Cell) (m : List Host.Cell) :
    Memory.wf (c :: m) = true ↔ c.2 ≠ Memory.unlisted ∧ Memory.above (c.1 + 1) m ∧ Memory.wf m = true := by
  induction m generalizing c with
  | nil => simp [Memory.wf, Memory.above]
  | cons d m ih =>
    simp only [Memory.wf, Bool.and_eq_true, bne_iff_ne, ne_eq, decide_eq_true_eq, and_assoc]
    constructor
    · rintro ⟨hc, hcd, hm⟩
      refine ⟨hc, ?_, hm⟩
      intro e he
      rcases List.mem_cons.mp he with rfl | he
      · omega
      · have := ((ih d).mp hm).2.1 e he
        omega
    · rintro ⟨hc, ha, hm⟩
      exact ⟨hc, by have := ha d (by simp); omega, hm⟩

theorem Memory.above_mono {n k : Nat} {m : List Host.Cell} (h : Memory.above n m) (hk : k ≤ n) : Memory.above k m :=
  fun c hc => Nat.le_trans hk (h c hc)

/-- Writing a byte lists no address but those listed and the one written. -/
theorem memPut_above {n : Nat} {m : List Host.Cell} (a : Nat) (b : Byte) (h : Memory.above n m) (ha : n ≤ a) :
    Memory.above n (memPut m a b) := by
  induction m with
  | nil =>
    unfold memPut; split
    · exact h
    · intro c hc; simp at hc; subst hc; exact ha
  | cons d m ih =>
    have hm : Memory.above n m := fun c hc => h c (by simp [hc])
    have hd : n ≤ d.1 := h d (by simp)
    unfold memPut
    intro c hc
    split at hc
    · split at hc
      · exact hm c hc
      · rcases List.mem_cons.mp hc with rfl | hc
        · exact ha
        · exact hm c hc
    · split at hc
      · split at hc
        · exact h c hc
        · rcases List.mem_cons.mp hc with rfl | hc
          · exact ha
          · exact h c hc
      · rcases List.mem_cons.mp hc with rfl | hc
        · exact hd
        · exact ih hm c hc

/-- Writing a byte keeps the canonical form. -/
theorem memPut_wf {m : List Host.Cell} (a : Nat) (b : Byte) (h : Memory.wf m = true) :
    Memory.wf (memPut m a b) = true := by
  induction m with
  | nil => unfold memPut; split <;> simp_all [Memory.wf]
  | cons d m ih =>
    obtain ⟨hd, hab, hm⟩ := (Memory.wf_cons d m).mp h
    unfold memPut
    split
    · split
      · exact hm
      · exact (Memory.wf_cons _ _).mpr ⟨by assumption, by simp_all, hm⟩
    · split
      · split
        · exact h
        · refine (Memory.wf_cons _ _).mpr ⟨by assumption, ?_, h⟩
          intro c hc
          rcases List.mem_cons.mp hc with rfl | hc
          · simp only; omega
          · have := hab c hc; simp only at this ⊢; omega
      · exact (Memory.wf_cons _ _).mpr ⟨hd, memPut_above a b hab (by simp only at *; omega), ih hm⟩

theorem foldl_wf {α : Type} {f : List Host.Cell → α → List Host.Cell}
    (hf : ∀ m a, Memory.wf m = true → Memory.wf (f m a) = true) (l : List α) {m : List Host.Cell}
    (h : Memory.wf m = true) : Memory.wf (l.foldl f m) = true := by
  induction l generalizing m with
  | nil => exact h
  | cons a l ih => exact ih (hf m a h)

/-- Writing bytes keeps the canonical form. -/
theorem memWrite_wf {m : List Host.Cell} (a : Nat) (bs : List Byte) (h : Memory.wf m = true) :
    Memory.wf (memWrite m a bs) = true := by
  induction bs generalizing m a with
  | nil => exact h
  | cons b bs ih => exact ih (a + 1) (memPut_wf a b h)

/-- Clearing bytes keeps the canonical form. -/
theorem memClear_wf {m : List Host.Cell} (a n : Nat) (h : Memory.wf m = true) :
    Memory.wf (memClear m a n) = true := by
  refine foldl_wf (fun m c hm => ?_) _ h
  split
  · exact memPut_wf _ _ hm
  · exact hm

/-- Copying bytes keeps the canonical form. -/
theorem memCopy_wf {m : List Host.Cell} (src dst n : Nat) (h : Memory.wf m = true) :
    Memory.wf (memCopy m src dst n) = true := by
  refine foldl_wf (fun m c hm => ?_) _ (foldl_wf (fun m c hm => ?_) _ h)
  · split
    · exact memPut_wf _ _ hm
    · exact hm
  · split
    · exact memPut_wf _ _ hm
    · exact hm

/-! ### Reads after writes -/

/-- A memory of which some cells are left out. -/
theorem filter_wf (p : Host.Cell → Bool) {m : List Host.Cell} (h : Memory.wf m = true) : Memory.wf (m.filter p) = true := by
  induction m with
  | nil => rfl
  | cons c m ih =>
    obtain ⟨hc, ha, hm⟩ := (Memory.wf_cons c m).1 h
    rw [List.filter_cons]
    split
    · exact (Memory.wf_cons _ _).2 ⟨hc, fun d hd => ha d (List.mem_filter.1 hd).1, ih hm⟩
    · exact ih hm

/-- An address below every listed one is not listed. -/
theorem memGet_above {n a : Nat} {m : List Host.Cell} (h : Memory.above n m) (ha : a < n) :
    memGet m a = Memory.unlisted := by
  cases m with
  | nil => rfl
  | cons d m =>
    have := h d (by simp)
    unfold memGet
    rw [if_neg (by omega), if_pos (by omega)]

/-- A byte after a byte was written. -/
theorem memGet_memPut {m : List Host.Cell} (a : Nat) (b : Byte) (h : Memory.wf m = true) (c : Nat) :
    memGet (memPut m a b) c = if c = a then b else memGet m c := by
  induction m with
  | nil =>
    unfold memPut
    split <;> simp only [memGet] <;> split <;> (try split) <;> simp_all <;> omega
  | cons d m ih =>
    obtain ⟨hd, hab, hm⟩ := (Memory.wf_cons d m).mp h
    unfold memPut
    split
    · rename_i e
      split
      · by_cases hc : c = a
        · rw [if_pos hc, memGet_above hab (by omega)]; simp_all
        · rw [if_neg hc]
          conv_rhs => unfold memGet
          rw [if_neg (by omega)]
          split
          · exact memGet_above hab (by omega)
          · rfl
      · simp only [memGet]
        by_cases hc : c = a
        · simp [hc]
        · rw [if_neg (by omega), if_neg hc, if_neg (by omega : ¬ d.1 = c), e]
    · split
      · split
        · rename_i hb
          by_cases hc : c = a
          · rw [if_pos hc, memGet_above (n := d.1) _ (by omega)]
            · exact hb.symm
            · intro x hx
              rcases List.mem_cons.mp hx with rfl | hx
              · exact Nat.le_refl _
              · have := hab x hx; omega
          · rw [if_neg hc]
        · by_cases hc : c = a
          · simp [memGet, hc]
          · rw [if_neg hc]
            conv_lhs => unfold memGet
            rw [if_neg (by omega)]
            split
            · symm
              apply memGet_above (n := d.1) _ (by omega)
              intro x hx
              rcases List.mem_cons.mp hx with rfl | hx
              · exact Nat.le_refl _
              · have := hab x hx; omega
            · rfl
      · simp only [memGet, ih hm]
        by_cases hc : c = a
        · subst hc; rw [if_neg (by omega), if_neg (by omega)]; simp
        · simp [hc]

/-- A byte outside the bytes written reads as before. -/
theorem memGet_memWrite_other {m : List Host.Cell} (a : Nat) (bs : List Byte) (h : Memory.wf m = true) (c : Nat)
    (hc : c < a ∨ a + bs.length ≤ c) : memGet (memWrite m a bs) c = memGet m c := by
  induction bs generalizing m a with
  | nil => rfl
  | cons b bs ih =>
    simp only [List.length_cons] at hc
    rw [memWrite, ih (a + 1) (memPut_wf a b h) (by omega), memGet_memPut a b h, if_neg (by omega)]

/-- The bytes written read back. -/
theorem memRead_memWrite {m : List Host.Cell} (a : Nat) (bs : List Byte) (h : Memory.wf m = true) :
    memRead (memWrite m a bs) a bs.length = bs := by
  induction bs generalizing m a with
  | nil => rfl
  | cons b bs ih =>
    rw [List.length_cons, memRead, memWrite, ih (a + 1) (memPut_wf a b h),
      memGet_memWrite_other (a + 1) bs (memPut_wf a b h) a (by omega), memGet_memPut a b h, if_pos rfl]

/-- Reads of bytes that agree one by one agree. -/
theorem memRead_congr {m k : List Host.Cell} (a n : Nat) (h : ∀ c, a ≤ c → c < a + n → memGet m c = memGet k c) :
    memRead m a n = memRead k a n := by
  induction n generalizing a with
  | zero => rfl
  | succ n ih =>
    rw [memRead, memRead, h a (by omega) (by omega), ih (a + 1) fun c h1 h2 => h c (by omega) (by omega)]

/-- A read outside the bytes written gives what it gave before. -/
theorem memRead_memWrite_other {m : List Host.Cell} (a : Nat) (bs : List Byte) (h : Memory.wf m = true) (c n : Nat)
    (hc : c + n ≤ a ∨ a + bs.length ≤ c) : memRead (memWrite m a bs) c n = memRead m c n :=
  memRead_congr c n fun d _ _ => memGet_memWrite_other a bs h d (by omega)

@[simp] theorem memRead_length (m : List Host.Cell) (a n : Nat) : (memRead m a n).length = n := by
  induction n generalizing a with
  | zero => rfl
  | succ n ih => simp [memRead, ih]

@[simp] theorem leBytes_length (n v : Nat) : (leBytes n v).length = n := by
  induction n generalizing v with
  | zero => rfl
  | succ n ih => simp [leBytes, ih]

/-- A number below 2^(8n) is what its n little-endian bytes stand for (R92). -/
theorem leNat_leBytes (n v : Nat) : leNat (leBytes n v) = v % 256 ^ n := by
  induction n generalizing v with
  | zero => simp [leBytes, leNat, Nat.mod_one]
  | succ n ih =>
    rw [leBytes, leNat, ih, Nat.pow_succ, Nat.mul_comm (256 ^ n) 256, Nat.mod_mul]
    simp [BitVec.toNat_ofNat]

/-- The memory of the state after reset is in its canonical form. -/
theorem reset_mem_wf : Memory.wf State.reset.mem = true := rfl

end Sys2Proof.Machine
end

