-- ==== Sys2Proof/Laws/PerInstr.lean ====
section
/-! SUPPORT. The family FieldsReadBack, one lemma for each constructor of Instr: the fields that the encoder lays out pass every check of
the decoder (R39 to R48), and the decoder reads the instruction back from them. The lemmas before them say the same of each
kind of field. -/

namespace Sys2Proof.Laws.FieldsReadBack
open Sys2Proof

/-- The fields of a well-formed instruction have a page and an opcode that the tables of R61 to R68 list, each field is legal in the
shape listed there, and the decoder's table gives the instruction back. An event has no fields. -/
def Statement (i : Instr) : Prop :=
  i.wf = true → ∀ page op f, i.fields = some (page, op, f) →
    page < 8 ∧ op < 0x3c ∧ ∃ s, shapeOf page op = some s ∧ modOk s.mod f.mod = true ∧ sizeOk s.size f.size = true ∧
      fldOk s.a f.a = true ∧ fldOk s.b f.b = true ∧ fldOk s.c f.c = true ∧
      (s.imm = .none ∨ s.imm = .ignored → f.imm = 0) ∧
      instrOf page op f = some i.firstRow

@[simp] theorem sizeOf_code (sz : Size) : sizeOf sz.code = sz := by cases sz <;> rfl
@[simp] theorem vsizeOf_code (sz : VSize) : vsizeOf sz.code = sz := by cases sz <;> rfl
@[simp] theorem sizeOk_scalar (c : BitVec 2) : sizeOk .scalar c = true := rfl
@[simp] theorem sizeOk_none : sizeOk .none 0#2 = true := rfl
@[simp] theorem sizeOk_vector (sz : VSize) : sizeOk .vector sz.code = true := by cases sz <;> rfl
@[simp] theorem fldOk_x (r : BitVec 5) : fldOk .x (r.setWidth 6) = true := by
  simp [fldOk]; omega
@[simp] theorem fldOk_v (r : BitVec 6) : fldOk .v r = true := rfl
@[simp] theorem fldOk_none : fldOk .none 0#6 = true := rfl
@[simp] theorem fldOk_m (r : BitVec 3) : fldOk .m (r.setWidth 6) = true := by
  simp [fldOk]; omega
@[simp] theorem fldOk_t (r : BitVec 3) : fldOk .t (r.setWidth 6) = true := by
  simp [fldOk]; omega
@[simp] theorem modOk_none : modOk .none 0#6 = true := rfl
@[simp] theorem modOk_n (na : Bool) : modOk .n (naBit na) = true := by cases na <;> rfl
@[simp] theorem modOk_raw (na : Bool) : modOk .raw (rawBit na) = true := by cases na <;> rfl
@[simp] theorem modOk_s (sc : Option Scope) : modOk .s (scopeBits sc) = true := by
  rcases sc with _ | s; rfl; cases s <;> rfl
@[simp] theorem modOk_sn (sc : Option Scope) (na : Bool) : modOk .sn (scopeBits sc ||| naBit na) = true := by
  rcases sc with _ | s <;> cases na <;> try rfl
  all_goals cases s <;> rfl
@[simp] theorem modOk_p1 (mk : MReg) : modOk .p1 (mk.setWidth 6) = true := by revert mk; decide
@[simp] theorem modOk_sat (sat : Bool) (mk : MReg) : modOk .sat (satBits sat ||| mk.setWidth 6) = true := by revert sat mk; decide
@[simp] theorem modOk_rnd (r : RSel) (mk : MReg) : modOk .rnd (rndBits r ||| mk.setWidth 6) = true := by cases r <;> revert mk <;> decide
@[simp] theorem modNa_bit (na : Bool) : modNa (naBit na) = na := by cases na <;> rfl
@[simp] theorem modRaw_bit (na : Bool) : modRaw (rawBit na) = na := by cases na <;> rfl
@[simp] theorem modScope_bits (sc : Option Scope) : modScope (scopeBits sc) = sc := by
  rcases sc with _ | s; rfl; cases s <;> rfl
@[simp] theorem modScope_bits_na (sc : Option Scope) (na : Bool) : modScope (scopeBits sc ||| naBit na) = sc := by
  rcases sc with _ | s <;> cases na <;> try rfl
  all_goals cases s <;> rfl
@[simp] theorem modNa_bits_na (sc : Option Scope) (na : Bool) : modNa (scopeBits sc ||| naBit na) = na := by
  rcases sc with _ | s <;> cases na <;> try rfl
  all_goals cases s <;> rfl
@[simp] theorem modMask_bits (mk : MReg) : modMask (mk.setWidth 6) = mk := by revert mk; decide
@[simp] theorem modMask_sat (sat : Bool) (mk : MReg) : modMask (satBits sat ||| mk.setWidth 6) = mk := by revert sat mk; decide
@[simp] theorem modSat_sat (sat : Bool) (mk : MReg) : modSat (satBits sat ||| mk.setWidth 6) = sat := by revert sat mk; decide
@[simp] theorem modMask_rnd (r : RSel) (mk : MReg) : modMask (rndBits r ||| mk.setWidth 6) = mk := by cases r <;> revert mk <;> decide
@[simp] theorem modRnd_rnd (r : RSel) (mk : MReg) : modRnd (rndBits r ||| mk.setWidth 6) = r := by cases r <;> revert mk <;> decide

/-- An event has no words. -/
theorem of_no_fields {i : Instr} (hf : i.fields = none) : Statement i := by
  intro _ page op f h
  simp [hf] at h

/-- The statement of an instruction whose fields are known. -/
theorem of_fields {i j k : Instr} {page op : Nat} {f : Fields} {s : Shape} (hf : i.fields = some (page, op, f))
    (hpage : page < 8) (hop : op < 0x3c) (hs : shapeOf page op = some s) (hj : instrOf page op f = some j)
    (hk : i.firstRow = k)
    (h : i.wf = true → modOk s.mod f.mod = true ∧ sizeOk s.size f.size = true ∧
      fldOk s.a f.a = true ∧ fldOk s.b f.b = true ∧ fldOk s.c f.c = true ∧
      (s.imm = .none ∨ s.imm = .ignored → f.imm = 0) ∧ j = k) : Statement i := by
  intro hw page' op' f' hf'
  rw [hf] at hf'
  obtain ⟨rfl, rfl, rfl⟩ : page = page' ∧ op = op' ∧ f = f' := by simpa using hf'
  obtain ⟨hmod, hsize, ha, hb, hc, himm, rfl⟩ := h hw
  exact ⟨hpage, hop, s, hs, hmod, hsize, ha, hb, hc, himm, hj.trans (congrArg some hk.symm)⟩

theorem nop : Statement (.nop) :=
  of_fields (k := .nop) rfl (by decide) (by decide) rfl rfl rfl fun _ => by simp
theorem mov (a b) : Statement (.mov a b) :=
  of_fields (k := .mov a b) rfl (by decide) (by decide) rfl rfl rfl fun _ => by simp
theorem li (a imm) : Statement (.li a imm) :=
  of_fields (k := .li a imm) rfl (by decide) (by decide) rfl rfl rfl fun _ => by simp
theorem lih (a imm) : Statement (.lih a imm) :=
  of_fields (k := .lih a imm) rfl (by decide) (by decide) rfl rfl rfl fun _ => by simp
theorem add (d l r sz) : Statement (.add d l r sz) :=
  of_fields (k := .add d l r sz) rfl (by decide) (by decide) rfl rfl rfl fun _ => by simp
theorem sub (d l r sz) : Statement (.sub d l r sz) :=
  of_fields (k := .sub d l r sz) rfl (by decide) (by decide) rfl rfl rfl fun _ => by simp
theorem mul (d l r sz) : Statement (.mul d l r sz) :=
  of_fields (k := .mul d l r sz) rfl (by decide) (by decide) rfl rfl rfl fun _ => by simp
theorem mulh (d l r sz) : Statement (.mulh d l r sz) :=
  of_fields (k := .mulh d l r sz) rfl (by decide) (by decide) rfl rfl rfl fun _ => by simp
theorem mulhu (d l r sz) : Statement (.mulhu d l r sz) :=
  of_fields (k := .mulhu d l r sz) rfl (by decide) (by decide) rfl rfl rfl fun _ => by simp
theorem div (d l r sz) : Statement (.div d l r sz) :=
  of_fields (k := .div d l r sz) rfl (by decide) (by decide) rfl rfl rfl fun _ => by simp
theorem divu (d l r sz) : Statement (.divu d l r sz) :=
  of_fields (k := .divu d l r sz) rfl (by decide) (by decide) rfl rfl rfl fun _ => by simp
theorem rem (d l r sz) : Statement (.rem d l r sz) :=
  of_fields (k := .rem d l r sz) rfl (by decide) (by decide) rfl rfl rfl fun _ => by simp
theorem remu (d l r sz) : Statement (.remu d l r sz) :=
  of_fields (k := .remu d l r sz) rfl (by decide) (by decide) rfl rfl rfl fun _ => by simp
theorem and (d l r) : Statement (.and d l r) :=
  of_fields (k := .and d l r) rfl (by decide) (by decide) rfl rfl rfl fun _ => by simp
theorem or (d l r) : Statement (.or d l r) :=
  of_fields (k := .or d l r) rfl (by decide) (by decide) rfl rfl rfl fun _ => by simp
theorem xor (d l r) : Statement (.xor d l r) :=
  of_fields (k := .xor d l r) rfl (by decide) (by decide) rfl rfl rfl fun _ => by simp
theorem shl (d l r sz) : Statement (.shl d l r sz) :=
  of_fields (k := .shl d l r sz) rfl (by decide) (by decide) rfl rfl rfl fun _ => by simp
theorem shr (d l r sz) : Statement (.shr d l r sz) :=
  of_fields (k := .shr d l r sz) rfl (by decide) (by decide) rfl rfl rfl fun _ => by simp
theorem sra (d l r sz) : Statement (.sra d l r sz) :=
  of_fields (k := .sra d l r sz) rfl (by decide) (by decide) rfl rfl rfl fun _ => by simp
theorem rotl (d l r sz) : Statement (.rotl d l r sz) :=
  of_fields (k := .rotl d l r sz) rfl (by decide) (by decide) rfl rfl rfl fun _ => by simp
theorem min (d l r sz) : Statement (.min d l r sz) :=
  of_fields (k := .min d l r sz) rfl (by decide) (by decide) rfl rfl rfl fun _ => by simp
theorem max (d l r sz) : Statement (.max d l r sz) :=
  of_fields (k := .max d l r sz) rfl (by decide) (by decide) rfl rfl rfl fun _ => by simp
theorem minu (d l r sz) : Statement (.minu d l r sz) :=
  of_fields (k := .minu d l r sz) rfl (by decide) (by decide) rfl rfl rfl fun _ => by simp
theorem maxu (d l r sz) : Statement (.maxu d l r sz) :=
  of_fields (k := .maxu d l r sz) rfl (by decide) (by decide) rfl rfl rfl fun _ => by simp
theorem seq (d l r sz) : Statement (.seq d l r sz) :=
  of_fields (k := .seq d l r sz) rfl (by decide) (by decide) rfl rfl rfl fun _ => by simp
theorem slt (d l r sz) : Statement (.slt d l r sz) :=
  of_fields (k := .slt d l r sz) rfl (by decide) (by decide) rfl rfl rfl fun _ => by simp
theorem sltu (d l r sz) : Statement (.sltu d l r sz) :=
  of_fields (k := .sltu d l r sz) rfl (by decide) (by decide) rfl rfl rfl fun _ => by simp
theorem addi (a sz imm) : Statement (.addi a sz imm) :=
  of_fields (k := .addi a sz imm) rfl (by decide) (by decide) rfl rfl rfl fun _ => by simp
theorem andi (a imm) : Statement (.andi a imm) :=
  of_fields (k := .andi a imm) rfl (by decide) (by decide) rfl rfl rfl fun _ => by simp
theorem ori (a imm) : Statement (.ori a imm) :=
  of_fields (k := .ori a imm) rfl (by decide) (by decide) rfl rfl rfl fun _ => by simp
theorem shli (a sz imm) : Statement (.shli a sz imm) :=
  of_fields (k := .shli a sz imm) rfl (by decide) (by decide) rfl rfl rfl fun _ => by simp
theorem shri (a sz imm) : Statement (.shri a sz imm) :=
  of_fields (k := .shri a sz imm) rfl (by decide) (by decide) rfl rfl rfl fun _ => by simp
theorem srai (a sz imm) : Statement (.srai a sz imm) :=
  of_fields (k := .srai a sz imm) rfl (by decide) (by decide) rfl rfl rfl fun _ => by simp
theorem slti (a sz imm) : Statement (.slti a sz imm) :=
  of_fields (k := .slti a sz imm) rfl (by decide) (by decide) rfl rfl rfl fun _ => by simp
theorem clz (a b sz) : Statement (.clz a b sz) :=
  of_fields (k := .clz a b sz) rfl (by decide) (by decide) rfl rfl rfl fun _ => by simp
theorem popc (a b sz) : Statement (.popc a b sz) :=
  of_fields (k := .popc a b sz) rfl (by decide) (by decide) rfl rfl rfl fun _ => by simp
theorem sel (a b c) : Statement (.sel a b c) :=
  of_fields (k := .sel a b c) rfl (by decide) (by decide) rfl rfl rfl fun _ => by simp
theorem ld (a b sz imm na) : Statement (.ld a b sz imm na) :=
  of_fields (k := .ld a b sz imm na) rfl (by decide) (by decide) rfl rfl rfl fun _ => by simp
theorem ldx (a b sz imm na) : Statement (.ldx a b sz imm na) :=
  of_fields (k := .ldx a b sz imm na) rfl (by decide) (by decide) rfl rfl rfl fun _ => by simp
theorem st (a b c sz imm sc na) : Statement (.st a b c sz imm sc na) :=
  of_fields (k := .st a b c sz imm sc na) rfl (by decide) (by decide) rfl rfl rfl fun _ => by simp
theorem ldw (a b c sz imm na) : Statement (.ldw a b c sz imm na) :=
  of_fields (k := .ldw a b c sz imm na) rfl (by decide) (by decide) rfl rfl rfl fun _ => by simp
theorem wmax (d l r) : Statement (.wmax d l r) :=
  of_fields (k := .wmax d l r) rfl (by decide) (by decide) rfl rfl rfl fun _ => by simp
theorem br (imm) : Statement (.br imm) :=
  of_fields (k := .br imm) rfl (by decide) (by decide) rfl rfl rfl fun _ => by simp
theorem bz (a imm) : Statement (.bz a imm) :=
  of_fields (k := .bz a imm) rfl (by decide) (by decide) rfl rfl rfl fun _ => by simp
theorem bnz (a imm) : Statement (.bnz a imm) :=
  of_fields (k := .bnz a imm) rfl (by decide) (by decide) rfl rfl rfl fun _ => by simp
theorem bltz (a imm) : Statement (.bltz a imm) :=
  of_fields (k := .bltz a imm) rfl (by decide) (by decide) rfl rfl rfl fun _ => by simp
theorem bgez (a imm) : Statement (.bgez a imm) :=
  of_fields (k := .bgez a imm) rfl (by decide) (by decide) rfl rfl rfl fun _ => by simp
theorem call (imm) : Statement (.call imm) :=
  of_fields (k := .call imm) rfl (by decide) (by decide) rfl rfl rfl fun _ => by simp
theorem callr (a) : Statement (.callr a) :=
  of_fields (k := .callr a) rfl (by decide) (by decide) rfl rfl rfl fun _ => by simp
theorem jr (a) : Statement (.jr a) :=
  of_fields (k := .jr a) rfl (by decide) (by decide) rfl rfl rfl fun _ => by simp
theorem jtab (a b imm) : Statement (.jtab a b imm) :=
  of_fields (k := .jtab a b imm) rfl (by decide) (by decide) rfl rfl rfl fun _ => by simp
theorem bany (a sz imm) : Statement (.bany a sz imm) :=
  of_fields (k := .bany a sz imm) rfl (by decide) (by decide) rfl rfl rfl fun _ => by simp
theorem bnone (a sz imm) : Statement (.bnone a sz imm) :=
  of_fields (k := .bnone a sz imm) rfl (by decide) (by decide) rfl rfl rfl fun _ => by simp
theorem ball (a sz imm) : Statement (.ball a sz imm) :=
  of_fields (k := .ball a sz imm) rfl (by decide) (by decide) rfl rfl rfl fun _ => by simp
theorem mrd (a b) : Statement (.mrd a b) :=
  of_fields (k := .mrd a b) rfl (by decide) (by decide) rfl rfl rfl fun _ => by simp
theorem mwr (a b) : Statement (.mwr a b) :=
  of_fields (k := .mwr a b) rfl (by decide) (by decide) rfl rfl rfl fun _ => by simp
theorem time (a) : Statement (.time a) :=
  of_fields (k := .time a) rfl (by decide) (by decide) rfl rfl rfl fun _ => by simp
theorem brk (imm) : Statement (.brk imm) :=
  of_fields (k := .brk imm) rfl (by decide) (by decide) rfl rfl rfl fun _ => by simp
theorem sys (imm) : Statement (.sys imm) :=
  of_fields (k := .sys imm) rfl (by decide) (by decide) rfl rfl rfl fun _ => by simp
theorem vmov (a b sz mk) : Statement (.vmov a b sz mk) :=
  of_fields (k := .vmov a b sz mk) rfl (by decide) (by decide) rfl rfl rfl fun _ => by simp
theorem vbcast (a b sz mk) : Statement (.vbcast a b sz mk) :=
  of_fields (k := .vbcast a b sz mk) rfl (by decide) (by decide) rfl rfl rfl fun _ => by simp
theorem vext (a b sz imm mk) : Statement (.vext a b sz imm mk) :=
  of_fields (k := .vext a b sz imm mk) rfl (by decide) (by decide) rfl rfl rfl fun _ => by simp
theorem vins (a b sz imm mk) : Statement (.vins a b sz imm mk) :=
  of_fields (k := .vins a b sz imm mk) rfl (by decide) (by decide) rfl rfl rfl fun _ => by simp
theorem vld (a b sz imm mk) : Statement (.vld a b sz imm mk) :=
  of_fields (k := .vld a b sz imm mk) rfl (by decide) (by decide) rfl rfl rfl fun _ => by simp
theorem vst (a b c sz imm mk) : Statement (.vst a b c sz imm mk) :=
  of_fields (k := .vst a b c sz imm mk) rfl (by decide) (by decide) rfl rfl rfl fun _ => by simp
theorem vlds (a b c sz imm mk) : Statement (.vlds a b c sz imm mk) :=
  of_fields (k := .vlds a b c sz imm mk) rfl (by decide) (by decide) rfl rfl rfl fun _ => by simp
theorem vgath (a b c sz imm mk) : Statement (.vgath a b c sz imm mk) :=
  of_fields (k := .vgath a b c sz imm mk) rfl (by decide) (by decide) rfl rfl rfl fun _ => by simp
theorem vscat (a b c sz imm mk) : Statement (.vscat a b c sz imm mk) :=
  of_fields (k := .vscat a b c sz imm mk) rfl (by decide) (by decide) rfl rfl rfl fun _ => by simp
theorem vlsr (a b sz mk) : Statement (.vlsr a b sz mk) :=
  of_fields (k := .vlsr a b sz mk) rfl (by decide) (by decide) rfl rfl rfl fun _ => by simp
theorem vlsw (a b sz mk) : Statement (.vlsw a b sz mk) :=
  of_fields (k := .vlsw a b sz mk) rfl (by decide) (by decide) rfl rfl rfl fun _ => by simp
theorem vperm (d l r sz mk) : Statement (.vperm d l r sz mk) :=
  of_fields (k := .vperm d l r sz mk) rfl (by decide) (by decide) rfl rfl rfl fun _ => by simp
theorem vrot (a b sz imm mk) : Statement (.vrot a b sz imm mk) :=
  of_fields (k := .vrot a b sz imm mk) rfl (by decide) (by decide) rfl rfl rfl fun _ => by simp
theorem vadd (d l r sz sat mk) : Statement (.vadd d l r sz sat mk) :=
  of_fields (k := .vadd d l r sz sat mk) rfl (by decide) (by decide) rfl rfl rfl fun _ => by simp
theorem vsub (d l r sz sat mk) : Statement (.vsub d l r sz sat mk) :=
  of_fields (k := .vsub d l r sz sat mk) rfl (by decide) (by decide) rfl rfl rfl fun _ => by simp
theorem vmul (d l r sz sat mk) : Statement (.vmul d l r sz sat mk) :=
  of_fields (k := .vmul d l r sz sat mk) rfl (by decide) (by decide) rfl rfl rfl fun _ => by simp
theorem vmulh (d l r sz mk) : Statement (.vmulh d l r sz mk) :=
  of_fields (k := .vmulh d l r sz mk) rfl (by decide) (by decide) rfl rfl rfl fun _ => by simp
theorem vmin (d l r sz mk) : Statement (.vmin d l r sz mk) :=
  of_fields (k := .vmin d l r sz mk) rfl (by decide) (by decide) rfl rfl rfl fun _ => by simp
theorem vmax (d l r sz mk) : Statement (.vmax d l r sz mk) :=
  of_fields (k := .vmax d l r sz mk) rfl (by decide) (by decide) rfl rfl rfl fun _ => by simp
theorem vand (d l r sz mk) : Statement (.vand d l r sz mk) :=
  of_fields (k := .vand d l r sz mk) rfl (by decide) (by decide) rfl rfl rfl fun _ => by simp
theorem vor (d l r sz mk) : Statement (.vor d l r sz mk) :=
  of_fields (k := .vor d l r sz mk) rfl (by decide) (by decide) rfl rfl rfl fun _ => by simp
theorem vxor (d l r sz mk) : Statement (.vxor d l r sz mk) :=
  of_fields (k := .vxor d l r sz mk) rfl (by decide) (by decide) rfl rfl rfl fun _ => by simp
theorem vshl (d l r sz sat mk) : Statement (.vshl d l r sz sat mk) :=
  of_fields (k := .vshl d l r sz sat mk) rfl (by decide) (by decide) rfl rfl rfl fun _ => by simp
theorem vshr (d l r sz mk) : Statement (.vshr d l r sz mk) :=
  of_fields (k := .vshr d l r sz mk) rfl (by decide) (by decide) rfl rfl rfl fun _ => by simp
theorem vsra (d l r sz mk) : Statement (.vsra d l r sz mk) :=
  of_fields (k := .vsra d l r sz mk) rfl (by decide) (by decide) rfl rfl rfl fun _ => by simp
theorem vcmp (a b c sz imm mk) : Statement (.vcmp a b c sz imm mk) :=
  of_fields (k := .vcmp a b c sz imm mk) rfl (by decide) (by decide) rfl rfl rfl fun _ => by simp
theorem vsel (d l r sz mk) : Statement (.vsel d l r sz mk) :=
  of_fields (k := .vsel d l r sz mk) rfl (by decide) (by decide) rfl rfl rfl fun _ => by simp
theorem vdot4 (a b c imm sat mk) : Statement (.vdot4 a b c imm sat mk) :=
  of_fields (k := .vdot4 a b c imm sat mk) rfl (by decide) (by decide) rfl rfl rfl fun _ => by simp
theorem vmac (a b c sz sat mk) : Statement (.vmac a b c sz sat mk) :=
  of_fields (k := .vmac a b c sz sat mk) rfl (by decide) (by decide) rfl rfl rfl fun _ => by simp
theorem vrshr (d l r sz rnd mk) : Statement (.vrshr d l r sz rnd mk) :=
  of_fields (k := .vrshr d l r sz rnd mk) rfl (by decide) (by decide) rfl rfl rfl fun _ => by simp
theorem vclamp (a b c sz mk) : Statement (.vclamp a b c sz mk) :=
  of_fields (k := .vclamp a b c sz mk) rfl (by decide) (by decide) rfl rfl rfl fun _ => by simp
theorem vfadd (d l r sz rnd mk) : Statement (.vfadd d l r sz rnd mk) :=
  of_fields (k := .vfadd d l r sz rnd mk) rfl (by decide) (by decide) rfl rfl rfl fun _ => by simp
theorem vfsub (d l r sz rnd mk) : Statement (.vfsub d l r sz rnd mk) :=
  of_fields (k := .vfsub d l r sz rnd mk) rfl (by decide) (by decide) rfl rfl rfl fun _ => by simp
theorem vfmul (d l r sz rnd mk) : Statement (.vfmul d l r sz rnd mk) :=
  of_fields (k := .vfmul d l r sz rnd mk) rfl (by decide) (by decide) rfl rfl rfl fun _ => by simp
theorem vfma (a b c sz rnd mk) : Statement (.vfma a b c sz rnd mk) :=
  of_fields (k := .vfma a b c sz rnd mk) rfl (by decide) (by decide) rfl rfl rfl fun _ => by simp
theorem vfmin (d l r sz mk) : Statement (.vfmin d l r sz mk) :=
  of_fields (k := .vfmin d l r sz mk) rfl (by decide) (by decide) rfl rfl rfl fun _ => by simp
theorem vfmax (d l r sz mk) : Statement (.vfmax d l r sz mk) :=
  of_fields (k := .vfmax d l r sz mk) rfl (by decide) (by decide) rfl rfl rfl fun _ => by simp
theorem vfrcp (a b sz rnd mk) : Statement (.vfrcp a b sz rnd mk) :=
  of_fields (k := .vfrcp a b sz rnd mk) rfl (by decide) (by decide) rfl rfl rfl fun _ => by simp
theorem vfrsq (a b sz rnd mk) : Statement (.vfrsq a b sz rnd mk) :=
  of_fields (k := .vfrsq a b sz rnd mk) rfl (by decide) (by decide) rfl rfl rfl fun _ => by simp
theorem vfexp2 (a b sz rnd mk) : Statement (.vfexp2 a b sz rnd mk) :=
  of_fields (k := .vfexp2 a b sz rnd mk) rfl (by decide) (by decide) rfl rfl rfl fun _ => by simp
theorem vcvt (a b imm rnd mk) : Statement (.vcvt a b imm rnd mk) :=
  of_fields (k := .vcvt a b imm rnd mk) rfl (by decide) (by decide) rfl rfl rfl fun _ => by simp
theorem vredadd (a b sz sat mk) : Statement (.vredadd a b sz sat mk) :=
  of_fields (k := .vredadd a b sz sat mk) rfl (by decide) (by decide) rfl rfl rfl fun _ => by simp
theorem vredmax (a b sz mk) : Statement (.vredmax a b sz mk) :=
  of_fields (k := .vredmax a b sz mk) rfl (by decide) (by decide) rfl rfl rfl fun _ => by simp
theorem vfred (a b sz rnd mk) : Statement (.vfred a b sz rnd mk) :=
  of_fields (k := .vfred a b sz rnd mk) rfl (by decide) (by decide) rfl rfl rfl fun _ => by simp
theorem mlog (d l r sz imm mk) : Statement (.mlog d l r sz imm mk) :=
  of_fields (k := .mlog d l r sz imm mk) rfl (by decide) (by decide) rfl rfl rfl fun _ => by simp
theorem mgang (imm) : Statement (.mgang imm) :=
  of_fields (k := .mgang imm) rfl (by decide) (by decide) rfl rfl rfl fun _ => by simp
theorem mma (a b c imm) : Statement (.mma a b c imm) :=
  of_fields (k := .mma a b c imm) rfl (by decide) (by decide) rfl rfl rfl fun _ => by simp
theorem mmas (a b c imm) : Statement (.mmas a b c imm) :=
  of_fields (k := .mmas a b c imm) rfl (by decide) (by decide) rfl rfl rfl fun _ => by simp
theorem mmat (a b c imm) : Statement (.mmat a b c imm) :=
  of_fields (k := .mmat a b c imm) rfl (by decide) (by decide) rfl rfl rfl fun _ => by simp
theorem tld (a b c imm) : Statement (.tld a b c imm) :=
  of_fields (k := .tld a b c imm) rfl (by decide) (by decide) rfl rfl rfl fun _ => by simp
theorem tst (a b c imm) : Statement (.tst a b c imm) :=
  of_fields (k := .tst a b c imm) rfl (by decide) (by decide) rfl rfl rfl fun _ => by simp
theorem tzero (a) : Statement (.tzero a) :=
  of_fields (k := .tzero a) rfl (by decide) (by decide) rfl rfl rfl fun _ => by simp
theorem mhint (imm) : Statement (.mhint imm) :=
  of_fields (k := .mhint imm) rfl (by decide) (by decide) rfl rfl rfl fun _ => by simp
theorem mwait (a) : Statement (.mwait a) :=
  of_fields (k := .mwait a) rfl (by decide) (by decide) rfl rfl rfl fun _ => by simp
theorem mstat (a b c imm) : Statement (.mstat a b c imm) :=
  of_fields (k := .mstat a b c imm) rfl (by decide) (by decide) rfl rfl rfl fun _ => by simp
theorem crclr (a b c) : Statement (.crclr a b c) :=
  of_fields (k := .crclr a b c) rfl (by decide) (by decide) rfl rfl rfl fun _ => by simp
theorem crflush (a b c) : Statement (.crflush a b c) :=
  of_fields (k := .crflush a b c) rfl (by decide) (by decide) rfl rfl rfl fun _ => by simp
theorem crrd (a b c raw) : Statement (.crrd a b c raw) :=
  of_fields (k := .crrd a b c raw) rfl (by decide) (by decide) rfl rfl rfl fun _ => by simp
theorem cradd (a b c) : Statement (.cradd a b c) :=
  of_fields (k := .cradd a b c) rfl (by decide) (by decide) rfl rfl rfl fun _ => by simp
theorem amoadd (a b c sz sc) : Statement (.amoadd a b c sz sc) :=
  of_fields (k := .amoadd a b c sz sc) rfl (by decide) (by decide) rfl rfl rfl fun _ => by simp
theorem amoand (a b c sz sc) : Statement (.amoand a b c sz sc) :=
  of_fields (k := .amoand a b c sz sc) rfl (by decide) (by decide) rfl rfl rfl fun _ => by simp
theorem amoor (a b c sz sc) : Statement (.amoor a b c sz sc) :=
  of_fields (k := .amoor a b c sz sc) rfl (by decide) (by decide) rfl rfl rfl fun _ => by simp
theorem amoxor (a b c sz sc) : Statement (.amoxor a b c sz sc) :=
  of_fields (k := .amoxor a b c sz sc) rfl (by decide) (by decide) rfl rfl rfl fun _ => by simp
theorem amomin (a b c sz sc) : Statement (.amomin a b c sz sc) :=
  of_fields (k := .amomin a b c sz sc) rfl (by decide) (by decide) rfl rfl rfl fun _ => by simp
theorem amomax (a b c sz sc) : Statement (.amomax a b c sz sc) :=
  of_fields (k := .amomax a b c sz sc) rfl (by decide) (by decide) rfl rfl rfl fun _ => by simp
theorem amominu (a b c sz sc) : Statement (.amominu a b c sz sc) :=
  of_fields (k := .amominu a b c sz sc) rfl (by decide) (by decide) rfl rfl rfl fun _ => by simp
theorem amomaxu (a b c sz sc) : Statement (.amomaxu a b c sz sc) :=
  of_fields (k := .amomaxu a b c sz sc) rfl (by decide) (by decide) rfl rfl rfl fun _ => by simp
theorem amoswp (a b c sz sc) : Statement (.amoswp a b c sz sc) :=
  of_fields (k := .amoswp a b c sz sc) rfl (by decide) (by decide) rfl rfl rfl fun _ => by simp
theorem amocas (a b c sz sc) : Statement (.amocas a b c sz sc) :=
  of_fields (k := .amocas a b c sz sc) rfl (by decide) (by decide) rfl rfl rfl fun _ => by simp
theorem amofadd (a b c sz sc) : Statement (.amofadd a b c sz sc) :=
  of_fields (k := .amofadd a b c sz sc) rfl (by decide) (by decide) rfl rfl rfl fun _ => by simp
theorem mxacc (a b c sz imm sc) : Statement (.mxacc a b c sz imm sc) :=
  of_fields (k := .mxacc a b c sz imm sc) rfl (by decide) (by decide) rfl rfl rfl fun _ => by simp
theorem prf (b imm sc na) : Statement (.prf b imm sc na) :=
  of_fields (k := .prf b imm sc na) rfl (by decide) (by decide) rfl rfl rfl fun _ => by simp
theorem wtest (a b) : Statement (.wtest a b) :=
  of_fields (k := .wtest a b) rfl (by decide) (by decide) rfl rfl rfl fun _ => by simp
theorem wwait (b) : Statement (.wwait b) :=
  of_fields (k := .wwait b) rfl (by decide) (by decide) rfl rfl rfl fun _ => by simp
theorem wfront (a) : Statement (.wfront a) :=
  of_fields (k := .wfront a) rfl (by decide) (by decide) rfl rfl rfl fun _ => by simp
theorem sca (a b imm) : Statement (.sca a b imm) :=
  of_fields (k := .sca a b imm) rfl (by decide) (by decide) rfl rfl rfl fun _ => by simp
theorem nrd (a c imm) : Statement (.nrd a c imm) :=
  of_fields (k := .nrd a c imm) rfl (by decide) (by decide) rfl rfl rfl fun _ => by simp
theorem nwait (a b c imm) : Statement (.nwait a b c imm) :=
  of_fields (k := .nwait a b c imm) rfl (by decide) (by decide) rfl rfl rfl fun _ => by simp
theorem pclr (a b sc) : Statement (.pclr a b sc) :=
  of_fields (k := .pclr a b sc) rfl (by decide) (by decide) rfl rfl rfl fun _ => by simp
theorem balloc (a b c) : Statement (.balloc a b c) :=
  of_fields (k := .balloc a b c) rfl (by decide) (by decide) rfl rfl rfl fun _ => by simp
theorem bfree (b) : Statement (.bfree b) :=
  of_fields (k := .bfree b) rfl (by decide) (by decide) rfl rfl rfl fun _ => by simp
theorem bgive (b c) : Statement (.bgive b c) :=
  of_fields (k := .bgive b c) rfl (by decide) (by decide) rfl rfl rfl fun _ => by simp
theorem bexportStart (b c) : Statement (.bexportStart b c) :=
  of_fields (k := .bexportStart b c) rfl (by decide) (by decide) rfl rfl rfl fun _ => by simp
theorem bexportEnd (b c) : Statement (.bexportEnd b c) :=
  of_fields (k := .bexportStart b c) rfl (by decide) (by decide) rfl rfl rfl fun _ => by simp
theorem spld (a b imm) : Statement (.spld a b imm) :=
  of_fields (k := .spld a b imm) rfl (by decide) (by decide) rfl rfl rfl fun _ => by simp
theorem spst (a b imm) : Statement (.spst a b imm) :=
  of_fields (k := .spst a b imm) rfl (by decide) (by decide) rfl rfl rfl fun _ => by simp
theorem cpy (a b c sc na) : Statement (.cpy a b c sc na) :=
  of_fields (k := .cpy a b c sc na) rfl (by decide) (by decide) rfl rfl rfl fun _ => by simp
theorem cpym (a b c sc na) : Statement (.cpym a b c sc na) :=
  of_fields (k := .cpym a b c sc na) rfl (by decide) (by decide) rfl rfl rfl fun _ => by simp
theorem cpyr (a b c sc na) : Statement (.cpyr a b c sc na) :=
  of_fields (k := .cpyr a b c sc na) rfl (by decide) (by decide) rfl rfl rfl fun _ => by simp
theorem sbind (a b c na) : Statement (.sbind a b c na) :=
  of_fields (k := .sbind a b c na) rfl (by decide) (by decide) rfl rfl rfl fun _ => by simp
theorem sunbind (a) : Statement (.sunbind a) :=
  of_fields (k := .sunbind a) rfl (by decide) (by decide) rfl rfl rfl fun _ => by simp
theorem lndset (a b c) : Statement (.lndset a b c) :=
  of_fields (k := .lndset a b c) rfl (by decide) (by decide) rfl rfl rfl fun _ => by simp
theorem lndwait (a b c) : Statement (.lndwait a b c) :=
  of_fields (k := .lndwait a b c) rfl (by decide) (by decide) rfl rfl rfl fun _ => by simp
theorem lndrelBuffer (a b) : Statement (.lndrelBuffer a b) :=
  of_fields (k := .lndrelBuffer a b) rfl (by decide) (by decide) rfl rfl rfl fun _ => by simp
theorem lndrelDismantle (a b) : Statement (.lndrelDismantle a b) :=
  of_fields (k := .lndrelBuffer a b) rfl (by decide) (by decide) rfl rfl rfl fun _ => by simp
theorem waita (a b c) : Statement (.waita a b c) :=
  of_fields (k := .waita a b c) rfl (by decide) (by decide) rfl rfl rfl fun _ => by simp
theorem spstat (a b imm) : Statement (.spstat a b imm) :=
  of_fields (k := .spstat a b imm) rfl (by decide) (by decide) rfl rfl rfl fun _ => by simp
theorem spawn (a b c) : Statement (.spawn a b c) :=
  of_fields (k := .spawn a b c) rfl (by decide) (by decide) rfl rfl rfl fun _ => by simp
theorem endf : Statement (.endf) :=
  of_fields (k := .endf) rfl (by decide) (by decide) rfl rfl rfl fun _ => by simp
theorem arm (a b c) : Statement (.arm a b c) :=
  of_fields (k := .arm a b c) rfl (by decide) (by decide) rfl rfl rfl fun _ => by simp
theorem disarm (a b) : Statement (.disarm a b) :=
  of_fields (k := .disarm a b) rfl (by decide) (by decide) rfl rfl rfl fun _ => by simp
theorem cntadd (a b sc) : Statement (.cntadd a b sc) :=
  of_fields (k := .cntadd a b sc) rfl (by decide) (by decide) rfl rfl rfl fun _ => by simp
theorem cntrd (a b c) : Statement (.cntrd a b c) :=
  of_fields (k := .cntrd a b c) rfl (by decide) (by decide) rfl rfl rfl fun _ => by simp
theorem lvopen (a b c imm) : Statement (.lvopen a b c imm) :=
  of_fields (k := .lvopen a b c imm) rfl (by decide) (by decide) rfl rfl rfl fun _ => by simp
theorem lvwait (a b c) : Statement (.lvwait a b c) :=
  of_fields (k := .lvwait a b c) rfl (by decide) (by decide) rfl rfl rfl fun _ => by simp
theorem lvcancel (b) : Statement (.lvcancel b) :=
  of_fields (k := .lvcancel b) rfl (by decide) (by decide) rfl rfl rfl fun _ => by simp
theorem lvstat (a b c) : Statement (.lvstat a b c) :=
  of_fields (k := .lvstat a b c) rfl (by decide) (by decide) rfl rfl rfl fun _ => by simp
theorem bara (imm) : Statement (.bara imm) :=
  of_fields (k := .bara imm) rfl (by decide) (by decide) rfl rfl rfl fun _ => by simp
theorem barw (a imm) : Statement (.barw a imm) :=
  of_fields (k := .barw a imm) rfl (by decide) (by decide) rfl rfl rfl fun _ => by simp
theorem barcfg (a b c) : Statement (.barcfg a b c) :=
  of_fields (k := .barcfg a b c) rfl (by decide) (by decide) rfl rfl rfl fun _ => by simp
theorem hspawn (a b) : Statement (.hspawn a b) :=
  of_fields (k := .hspawn a b) rfl (by decide) (by decide) rfl rfl rfl fun _ => by simp
theorem hstop : Statement (.hstop) :=
  of_fields (k := .hstop) rfl (by decide) (by decide) rfl rfl rfl fun _ => by simp
theorem expose : Statement (.expose) :=
  of_fields (k := .expose) rfl (by decide) (by decide) rfl rfl rfl fun _ => by simp
theorem yieldf : Statement (.yieldf) :=
  of_fields (k := .yieldf) rfl (by decide) (by decide) rfl rfl rfl fun _ => by simp
theorem self (a imm) : Statement (.self a imm) :=
  of_fields (k := .self a imm) rfl (by decide) (by decide) rfl rfl rfl fun _ => by simp
theorem crd (a imm) : Statement (.crd a imm) :=
  of_fields (k := .crd a imm) rfl (by decide) (by decide) rfl rfl rfl fun _ => by simp
theorem cwr (a imm) : Statement (.cwr a imm) :=
  of_fields (k := .cwr a imm) rfl (by decide) (by decide) rfl rfl rfl fun h => by simp_all [Instr.wf]
theorem seedInstall (a) : Statement (.seedInstall a) :=
  of_fields (k := .seedInstall a) rfl (by decide) (by decide) rfl rfl rfl fun _ => by simp
theorem tret : Statement (.tret) :=
  of_fields (k := .tret) rfl (by decide) (by decide) rfl rfl rfl fun _ => by simp
theorem tlbinv (b c sc) : Statement (.tlbinv b c sc) :=
  of_fields (k := .tlbinv b c sc) rfl (by decide) (by decide) rfl rfl rfl fun _ => by simp
theorem tlbprobe (a b c) : Statement (.tlbprobe a b c) :=
  of_fields (k := .tlbprobe a b c) rfl (by decide) (by decide) rfl rfl rfl fun _ => by simp
theorem pmapw (a b) : Statement (.pmapw a b) :=
  of_fields (k := .pmapw a b) rfl (by decide) (by decide) rfl rfl rfl fun _ => by simp
theorem pmaprd (a b c) : Statement (.pmaprd a b c) :=
  of_fields (k := .pmaprd a b c) rfl (by decide) (by decide) rfl rfl rfl fun _ => by simp
theorem trcmark (imm) : Statement (.trcmark imm) :=
  of_fields (k := .trcmark imm) rfl (by decide) (by decide) rfl rfl rfl fun _ => by simp
theorem trcctlOpen (a b c) : Statement (.trcctlOpen a b c) :=
  of_fields (k := .trcctlOpen a b c) rfl (by decide) (by decide) rfl rfl rfl fun _ => by simp
theorem trcctlClose (a b c) : Statement (.trcctlClose a b c) :=
  of_fields (k := .trcctlOpen a b c) rfl (by decide) (by decide) rfl rfl rfl fun _ => by simp
theorem trcctlGrant (a b c) : Statement (.trcctlGrant a b c) :=
  of_fields (k := .trcctlOpen a b c) rfl (by decide) (by decide) rfl rfl rfl fun _ => by simp
theorem trcctlWithdraw (a b c) : Statement (.trcctlWithdraw a b c) :=
  of_fields (k := .trcctlOpen a b c) rfl (by decide) (by decide) rfl rfl rfl fun _ => by simp
theorem trcctlStatus (a b c) : Statement (.trcctlStatus a b c) :=
  of_fields (k := .trcctlOpen a b c) rfl (by decide) (by decide) rfl rfl rfl fun _ => by simp
theorem mpass (a b) : Statement (.mpass a b) :=
  of_fields (k := .mpass a b) rfl (by decide) (by decide) rfl rfl rfl fun _ => by simp
theorem evsel (a b c) : Statement (.evsel a b c) :=
  of_fields (k := .evsel a b c) rfl (by decide) (by decide) rfl rfl rfl fun _ => by simp
theorem evrd (a b) : Statement (.evrd a b) :=
  of_fields (k := .evrd a b) rfl (by decide) (by decide) rfl rfl rfl fun _ => by simp
theorem rplctlStop (a b c) : Statement (.rplctlStop a b c) :=
  of_fields (k := .rplctlStop a b c) rfl (by decide) (by decide) rfl rfl rfl fun _ => by simp
theorem rplctlRecord (a b c) : Statement (.rplctlRecord a b c) :=
  of_fields (k := .rplctlStop a b c) rfl (by decide) (by decide) rfl rfl rfl fun _ => by simp
theorem rplctlReplay (a b c) : Statement (.rplctlReplay a b c) :=
  of_fields (k := .rplctlStop a b c) rfl (by decide) (by decide) rfl rfl rfl fun _ => by simp
theorem rplctlStatus (a b c) : Statement (.rplctlStatus a b c) :=
  of_fields (k := .rplctlStop a b c) rfl (by decide) (by decide) rfl rfl rfl fun _ => by simp
theorem ctxsave (a b c) : Statement (.ctxsave a b c) :=
  of_fields (k := .ctxsave a b c) rfl (by decide) (by decide) rfl rfl rfl fun _ => by simp
theorem ctxload (a b c) : Statement (.ctxload a b c) :=
  of_fields (k := .ctxload a b c) rfl (by decide) (by decide) rfl rfl rfl fun _ => by simp
theorem idle : Statement (.idle) :=
  of_fields (k := .idle) rfl (by decide) (by decide) rfl rfl rfl fun _ => by simp
theorem reseed (a b c) : Statement (.reseed a b c) :=
  of_fields (k := .reseed a b c) rfl (by decide) (by decide) rfl rfl rfl fun _ => by simp
theorem xq (a b c) : Statement (.xq a b c) :=
  of_fields (k := .xq a b c) rfl (by decide) (by decide) rfl rfl rfl fun _ => by simp
theorem xdraw (a b c) : Statement (.xdraw a b c) :=
  of_fields (k := .xdraw a b c) rfl (by decide) (by decide) rfl rfl rfl fun _ => by simp
theorem daccrd (a b) : Statement (.daccrd a b) :=
  of_fields (k := .daccrd a b) rfl (by decide) (by decide) rfl rfl rfl fun _ => by simp
theorem daccclr (b) : Statement (.daccclr b) :=
  of_fields (k := .daccclr b) rfl (by decide) (by decide) rfl rfl rfl fun _ => by simp
theorem umrd (a b) : Statement (.umrd a b) :=
  of_fields (k := .umrd a b) rfl (by decide) (by decide) rfl rfl rfl fun _ => by simp
theorem qset (a b c) : Statement (.qset a b c) :=
  of_fields (k := .qset a b c) rfl (by decide) (by decide) rfl rfl rfl fun _ => by simp
theorem qrd (a b) : Statement (.qrd a b) :=
  of_fields (k := .qrd a b) rfl (by decide) (by decide) rfl rfl rfl fun _ => by simp
theorem measure (a b c) : Statement (.measure a b c) :=
  of_fields (k := .measure a b c) rfl (by decide) (by decide) rfl rfl rfl fun _ => by simp
theorem attestReport (a b c imm) : Statement (.attestReport a b c imm) :=
  of_fields (k := .attestReport a b c imm) rfl (by decide) (by decide) rfl rfl rfl fun h => by simp_all [Instr.wf]
theorem attestDecapsulate (a b c) : Statement (.attestDecapsulate a b c) :=
  of_fields (k := .attestDecapsulate a b c) rfl (by decide) (by decide) rfl rfl rfl fun _ => by simp
theorem trapEntry (c) : Statement (.trapEntry c) := of_no_fields rfl
theorem tdlineDeadline (c) : Statement (.tdlineDeadline c) := of_no_fields rfl
theorem leaseExpiry (at_ line) : Statement (.leaseExpiry at_ line) := of_no_fields rfl
theorem homeApply (id) : Statement (.homeApply id) := of_no_fields rfl
theorem witnessDelivered (c r) : Statement (.witnessDelivered c r) := of_no_fields rfl
theorem refusalReport (id) : Statement (.refusalReport id) := of_no_fields rfl
theorem lostReport (id) : Statement (.lostReport id) := of_no_fields rfl
theorem dirtyWriteback (at_ line) : Statement (.dirtyWriteback at_ line) := of_no_fields rfl
theorem crFold (die line) : Statement (.crFold die line) := of_no_fields rfl
theorem replSequence (id) : Statement (.replSequence id) := of_no_fields rfl
theorem replReplicaApply (die) : Statement (.replReplicaApply die) := of_no_fields rfl
theorem replMark : Statement (.replMark) := of_no_fields rfl
theorem classChangeComplete (n) : Statement (.classChangeComplete n) := of_no_fields rfl
theorem announcePresent (core) : Statement (.announcePresent core) := of_no_fields rfl
theorem gauzeWindowApply : Statement (.gauzeWindowApply) := of_no_fields rfl
theorem matrixOpStart (core) : Statement (.matrixOpStart core) := of_no_fields rfl
theorem matrixOpComplete (core) : Statement (.matrixOpComplete core) := of_no_fields rfl
theorem gangTimeout (core) : Statement (.gangTimeout core) := of_no_fields rfl
theorem sliceRampDown (core) : Statement (.sliceRampDown core) := of_no_fields rfl
theorem laneStoreClear (core) : Statement (.laneStoreClear core) := of_no_fields rfl
theorem copyEnqueue (c) : Statement (.copyEnqueue c) := of_no_fields rfl
theorem copyStart (cluster) : Statement (.copyStart cluster) := of_no_fields rfl
theorem copyComplete (cluster tag) : Statement (.copyComplete cluster tag) := of_no_fields rfl
theorem inboundDelivery (n) : Statement (.inboundDelivery n) := of_no_fields rfl
theorem counterMessageApply (id) : Statement (.counterMessageApply id) := of_no_fields rfl
theorem triggerFirePush (n) : Statement (.triggerFirePush n) := of_no_fields rfl
theorem dequePushRetry (core) : Statement (.dequePushRetry core) := of_no_fields rfl
theorem firingDispatch (c) : Statement (.firingDispatch c) := of_no_fields rfl
theorem stealRequest (core) : Statement (.stealRequest core) := of_no_fields rfl
theorem stealReply (n) : Statement (.stealReply n) := of_no_fields rfl
theorem firingRedispatch (n) : Statement (.firingRedispatch n) := of_no_fields rfl
theorem preemption (c) : Statement (.preemption c) := of_no_fields rfl
theorem suspendedResume (oid slot) : Statement (.suspendedResume oid slot) := of_no_fields rfl
theorem waitaPoll (c) : Statement (.waitaPoll c) := of_no_fields rfl
theorem waitaWake (c) : Statement (.waitaWake c) := of_no_fields rfl
theorem instrWaitEnd (c) : Statement (.instrWaitEnd c) := of_no_fields rfl
theorem barrierTimeout (die bar) : Statement (.barrierTimeout die bar) := of_no_fields rfl
theorem quotaInterval (far die slice) : Statement (.quotaInterval far die slice) := of_no_fields rfl
theorem mpassPassEnd (oid) : Statement (.mpassPassEnd oid) := of_no_fields rfl
theorem replayHoldTimeout (id) : Statement (.replayHoldTimeout id) := of_no_fields rfl
theorem uncorrectableError (site) : Statement (.uncorrectableError site) := of_no_fields rfl
theorem linkCrcRetry (wire) : Statement (.linkCrcRetry wire) := of_no_fields rfl
theorem edgeLinkFail (wire) : Statement (.edgeLinkFail wire) := of_no_fields rfl
theorem coreFail (core) : Statement (.coreFail core) := of_no_fields rfl
theorem clusterFail (cluster) : Statement (.clusterFail cluster) := of_no_fields rfl
theorem dieFail (die) : Statement (.dieFail die) := of_no_fields rfl
theorem groupFatalFault (cluster) : Statement (.groupFatalFault cluster) := of_no_fields rfl
theorem crossTriggerHalt (cluster) : Statement (.crossTriggerHalt cluster) := of_no_fields rfl
theorem haltResume (cluster) : Statement (.haltResume cluster) := of_no_fields rfl
theorem crashDump : Statement (.crashDump) := of_no_fields rfl
theorem inboundRequest (q) : Statement (.inboundRequest q) := of_no_fields rfl
theorem apertureCounterWrite (q) : Statement (.apertureCounterWrite q) := of_no_fields rfl
theorem qreset (w) : Statement (.qreset w) := of_no_fields rfl
theorem mbox (w) : Statement (.mbox w) := of_no_fields rfl
theorem hostCtrlWrite (off w) : Statement (.hostCtrlWrite off w) := of_no_fields rfl
theorem functionLevelReset : Statement (.functionLevelReset) := of_no_fields rfl
theorem nvmeDmaWrite (sram addr data) : Statement (.nvmeDmaWrite sram addr data) := of_no_fields rfl
theorem boot (fail) : Statement (.boot fail) := of_no_fields rfl
theorem supplySag (cluster) : Statement (.supplySag cluster) := of_no_fields rfl
theorem supplyRestore (cluster) : Statement (.supplyRestore cluster) := of_no_fields rfl
theorem powerLimitAdjust (watts clocks) : Statement (.powerLimitAdjust watts clocks) := of_no_fields rfl
theorem thermalThrottle (die) : Statement (.thermalThrottle die) := of_no_fields rfl
theorem thermalShutdown (die) : Statement (.thermalShutdown die) := of_no_fields rfl
theorem homeSliceFail (die slice tagsReadable) : Statement (.homeSliceFail die slice tagsReadable) := of_no_fields rfl
theorem nearTierDataArraysFail (cluster) : Statement (.nearTierDataArraysFail cluster) := of_no_fields rfl
theorem mhintHoldEnd (core) : Statement (.mhintHoldEnd core) := of_no_fields rfl

end Sys2Proof.Laws.FieldsReadBack
end

