-- ==== Sys2Proof/Laws/State.lean ====
section
/-! SUPPORT. What each update of the state leaves alone and what it sets, one lemma per field, so that no proof unfolds a
record update (spec/01_machine.md R16). Generated once by a script from the list of fields. -/

namespace Sys2Proof.Machine

variable (s : State)

@[simp] theorem State.onCx_now (f : Ctx → Ctx) : (s.onCx f).now = s.now := rfl
@[simp] theorem State.onCx_tick (f : Ctx → Ctx) : (s.onCx f).tick = s.tick := rfl
@[simp] theorem State.onCx_cur (f : Ctx → Ctx) : (s.onCx f).cur = s.cur := rfl
@[simp] theorem State.onCx_cx (f : Ctx → Ctx) : (s.onCx f).cx = f s.cx := rfl
@[simp] theorem State.onCx_parked (f : Ctx → Ctx) : (s.onCx f).parked = s.parked := rfl
@[simp] theorem State.onCx_plan (f : Ctx → Ctx) : (s.onCx f).plan = s.plan := rfl
@[simp] theorem State.onCx_powered (f : Ctx → Ctx) : (s.onCx f).powered = s.powered := rfl
@[simp] theorem State.onCx_bootst (f : Ctx → Ctx) : (s.onCx f).bootst = s.bootst := rfl
@[simp] theorem State.onCx_cores (f : Ctx → Ctx) : (s.onCx f).cores = s.cores := rfl
@[simp] theorem State.onCx_clusters (f : Ctx → Ctx) : (s.onCx f).clusters = s.clusters := rfl
@[simp] theorem State.onCx_dies (f : Ctx → Ctx) : (s.onCx f).dies = s.dies := rfl
@[simp] theorem State.onCx_owners (f : Ctx → Ctx) : (s.onCx f).owners = s.owners := rfl
@[simp] theorem State.onCx_mem (f : Ctx → Ctx) : (s.onCx f).mem = s.mem := rfl
@[simp] theorem State.onCx_sysSram (f : Ctx → Ctx) : (s.onCx f).sysSram = s.sysSram := rfl
@[simp] theorem State.onCx_home (f : Ctx → Ctx) : (s.onCx f).home = s.home := rfl
@[simp] theorem State.onCx_net (f : Ctx → Ctx) : (s.onCx f).net = s.net := rfl
@[simp] theorem State.onCx_dev (f : Ctx → Ctx) : (s.onCx f).dev = s.dev := rfl

@[simp] theorem State.setX_now (r : XReg) (w : Word) : (s.setX r w).now = s.now := rfl
@[simp] theorem State.setX_tick (r : XReg) (w : Word) : (s.setX r w).tick = s.tick := rfl
@[simp] theorem State.setX_cur (r : XReg) (w : Word) : (s.setX r w).cur = s.cur := rfl
@[simp] theorem State.setX_cx (r : XReg) (w : Word) : (s.setX r w).cx = s.cx.setX r w := rfl
@[simp] theorem State.setX_parked (r : XReg) (w : Word) : (s.setX r w).parked = s.parked := rfl
@[simp] theorem State.setX_plan (r : XReg) (w : Word) : (s.setX r w).plan = s.plan := rfl
@[simp] theorem State.setX_powered (r : XReg) (w : Word) : (s.setX r w).powered = s.powered := rfl
@[simp] theorem State.setX_bootst (r : XReg) (w : Word) : (s.setX r w).bootst = s.bootst := rfl
@[simp] theorem State.setX_cores (r : XReg) (w : Word) : (s.setX r w).cores = s.cores := rfl
@[simp] theorem State.setX_clusters (r : XReg) (w : Word) : (s.setX r w).clusters = s.clusters := rfl
@[simp] theorem State.setX_dies (r : XReg) (w : Word) : (s.setX r w).dies = s.dies := rfl
@[simp] theorem State.setX_owners (r : XReg) (w : Word) : (s.setX r w).owners = s.owners := rfl
@[simp] theorem State.setX_mem (r : XReg) (w : Word) : (s.setX r w).mem = s.mem := rfl
@[simp] theorem State.setX_sysSram (r : XReg) (w : Word) : (s.setX r w).sysSram = s.sysSram := rfl
@[simp] theorem State.setX_home (r : XReg) (w : Word) : (s.setX r w).home = s.home := rfl
@[simp] theorem State.setX_net (r : XReg) (w : Word) : (s.setX r w).net = s.net := rfl
@[simp] theorem State.setX_dev (r : XReg) (w : Word) : (s.setX r w).dev = s.dev := rfl

@[simp] theorem State.setV_now (r : VReg) (w : Vec) : (s.setV r w).now = s.now := rfl
@[simp] theorem State.setV_tick (r : VReg) (w : Vec) : (s.setV r w).tick = s.tick := rfl
@[simp] theorem State.setV_cur (r : VReg) (w : Vec) : (s.setV r w).cur = s.cur := rfl
@[simp] theorem State.setV_cx (r : VReg) (w : Vec) : (s.setV r w).cx = s.cx.setV r w := rfl
@[simp] theorem State.setV_parked (r : VReg) (w : Vec) : (s.setV r w).parked = s.parked := rfl
@[simp] theorem State.setV_plan (r : VReg) (w : Vec) : (s.setV r w).plan = s.plan := rfl
@[simp] theorem State.setV_powered (r : VReg) (w : Vec) : (s.setV r w).powered = s.powered := rfl
@[simp] theorem State.setV_bootst (r : VReg) (w : Vec) : (s.setV r w).bootst = s.bootst := rfl
@[simp] theorem State.setV_cores (r : VReg) (w : Vec) : (s.setV r w).cores = s.cores := rfl
@[simp] theorem State.setV_clusters (r : VReg) (w : Vec) : (s.setV r w).clusters = s.clusters := rfl
@[simp] theorem State.setV_dies (r : VReg) (w : Vec) : (s.setV r w).dies = s.dies := rfl
@[simp] theorem State.setV_owners (r : VReg) (w : Vec) : (s.setV r w).owners = s.owners := rfl
@[simp] theorem State.setV_mem (r : VReg) (w : Vec) : (s.setV r w).mem = s.mem := rfl
@[simp] theorem State.setV_sysSram (r : VReg) (w : Vec) : (s.setV r w).sysSram = s.sysSram := rfl
@[simp] theorem State.setV_home (r : VReg) (w : Vec) : (s.setV r w).home = s.home := rfl
@[simp] theorem State.setV_net (r : VReg) (w : Vec) : (s.setV r w).net = s.net := rfl
@[simp] theorem State.setV_dev (r : VReg) (w : Vec) : (s.setV r w).dev = s.dev := rfl

@[simp] theorem State.setM_now (r : MReg) (w : Word) : (s.setM r w).now = s.now := rfl
@[simp] theorem State.setM_tick (r : MReg) (w : Word) : (s.setM r w).tick = s.tick := rfl
@[simp] theorem State.setM_cur (r : MReg) (w : Word) : (s.setM r w).cur = s.cur := rfl
@[simp] theorem State.setM_cx (r : MReg) (w : Word) : (s.setM r w).cx = s.cx.setM r w := rfl
@[simp] theorem State.setM_parked (r : MReg) (w : Word) : (s.setM r w).parked = s.parked := rfl
@[simp] theorem State.setM_plan (r : MReg) (w : Word) : (s.setM r w).plan = s.plan := rfl
@[simp] theorem State.setM_powered (r : MReg) (w : Word) : (s.setM r w).powered = s.powered := rfl
@[simp] theorem State.setM_bootst (r : MReg) (w : Word) : (s.setM r w).bootst = s.bootst := rfl
@[simp] theorem State.setM_cores (r : MReg) (w : Word) : (s.setM r w).cores = s.cores := rfl
@[simp] theorem State.setM_clusters (r : MReg) (w : Word) : (s.setM r w).clusters = s.clusters := rfl
@[simp] theorem State.setM_dies (r : MReg) (w : Word) : (s.setM r w).dies = s.dies := rfl
@[simp] theorem State.setM_owners (r : MReg) (w : Word) : (s.setM r w).owners = s.owners := rfl
@[simp] theorem State.setM_mem (r : MReg) (w : Word) : (s.setM r w).mem = s.mem := rfl
@[simp] theorem State.setM_sysSram (r : MReg) (w : Word) : (s.setM r w).sysSram = s.sysSram := rfl
@[simp] theorem State.setM_home (r : MReg) (w : Word) : (s.setM r w).home = s.home := rfl
@[simp] theorem State.setM_net (r : MReg) (w : Word) : (s.setM r w).net = s.net := rfl
@[simp] theorem State.setM_dev (r : MReg) (w : Word) : (s.setM r w).dev = s.dev := rfl

@[simp] theorem State.setT_now (r : TReg) (w : Tile) : (s.setT r w).now = s.now := rfl
@[simp] theorem State.setT_tick (r : TReg) (w : Tile) : (s.setT r w).tick = s.tick := rfl
@[simp] theorem State.setT_cur (r : TReg) (w : Tile) : (s.setT r w).cur = s.cur := rfl
@[simp] theorem State.setT_cx (r : TReg) (w : Tile) : (s.setT r w).cx = s.cx.setT r w := rfl
@[simp] theorem State.setT_parked (r : TReg) (w : Tile) : (s.setT r w).parked = s.parked := rfl
@[simp] theorem State.setT_plan (r : TReg) (w : Tile) : (s.setT r w).plan = s.plan := rfl
@[simp] theorem State.setT_powered (r : TReg) (w : Tile) : (s.setT r w).powered = s.powered := rfl
@[simp] theorem State.setT_bootst (r : TReg) (w : Tile) : (s.setT r w).bootst = s.bootst := rfl
@[simp] theorem State.setT_cores (r : TReg) (w : Tile) : (s.setT r w).cores = s.cores := rfl
@[simp] theorem State.setT_clusters (r : TReg) (w : Tile) : (s.setT r w).clusters = s.clusters := rfl
@[simp] theorem State.setT_dies (r : TReg) (w : Tile) : (s.setT r w).dies = s.dies := rfl
@[simp] theorem State.setT_owners (r : TReg) (w : Tile) : (s.setT r w).owners = s.owners := rfl
@[simp] theorem State.setT_mem (r : TReg) (w : Tile) : (s.setT r w).mem = s.mem := rfl
@[simp] theorem State.setT_sysSram (r : TReg) (w : Tile) : (s.setT r w).sysSram = s.sysSram := rfl
@[simp] theorem State.setT_home (r : TReg) (w : Tile) : (s.setT r w).home = s.home := rfl
@[simp] theorem State.setT_net (r : TReg) (w : Tile) : (s.setT r w).net = s.net := rfl
@[simp] theorem State.setT_dev (r : TReg) (w : Tile) : (s.setT r w).dev = s.dev := rfl

@[simp] theorem State.setPc_now (p : Word) : (s.setPc p).now = s.now := rfl
@[simp] theorem State.setPc_tick (p : Word) : (s.setPc p).tick = s.tick := rfl
@[simp] theorem State.setPc_cur (p : Word) : (s.setPc p).cur = s.cur := rfl
@[simp] theorem State.setPc_cx (p : Word) : (s.setPc p).cx = { s.cx with pc := p } := rfl
@[simp] theorem State.setPc_parked (p : Word) : (s.setPc p).parked = s.parked := rfl
@[simp] theorem State.setPc_plan (p : Word) : (s.setPc p).plan = s.plan := rfl
@[simp] theorem State.setPc_powered (p : Word) : (s.setPc p).powered = s.powered := rfl
@[simp] theorem State.setPc_bootst (p : Word) : (s.setPc p).bootst = s.bootst := rfl
@[simp] theorem State.setPc_cores (p : Word) : (s.setPc p).cores = s.cores := rfl
@[simp] theorem State.setPc_clusters (p : Word) : (s.setPc p).clusters = s.clusters := rfl
@[simp] theorem State.setPc_dies (p : Word) : (s.setPc p).dies = s.dies := rfl
@[simp] theorem State.setPc_owners (p : Word) : (s.setPc p).owners = s.owners := rfl
@[simp] theorem State.setPc_mem (p : Word) : (s.setPc p).mem = s.mem := rfl
@[simp] theorem State.setPc_sysSram (p : Word) : (s.setPc p).sysSram = s.sysSram := rfl
@[simp] theorem State.setPc_home (p : Word) : (s.setPc p).home = s.home := rfl
@[simp] theorem State.setPc_net (p : Word) : (s.setPc p).net = s.net := rfl
@[simp] theorem State.setPc_dev (p : Word) : (s.setPc p).dev = s.dev := rfl

@[simp] theorem State.advance_now : (s.advance).now = s.now := rfl
@[simp] theorem State.advance_tick : (s.advance).tick = s.tick := rfl
@[simp] theorem State.advance_cur : (s.advance).cur = s.cur := rfl
@[simp] theorem State.advance_cx : (s.advance).cx = { s.cx with pc := s.cx.npc } := rfl
@[simp] theorem State.advance_parked : (s.advance).parked = s.parked := rfl
@[simp] theorem State.advance_plan : (s.advance).plan = s.plan := rfl
@[simp] theorem State.advance_powered : (s.advance).powered = s.powered := rfl
@[simp] theorem State.advance_bootst : (s.advance).bootst = s.bootst := rfl
@[simp] theorem State.advance_cores : (s.advance).cores = s.cores := rfl
@[simp] theorem State.advance_clusters : (s.advance).clusters = s.clusters := rfl
@[simp] theorem State.advance_dies : (s.advance).dies = s.dies := rfl
@[simp] theorem State.advance_owners : (s.advance).owners = s.owners := rfl
@[simp] theorem State.advance_mem : (s.advance).mem = s.mem := rfl
@[simp] theorem State.advance_sysSram : (s.advance).sysSram = s.sysSram := rfl
@[simp] theorem State.advance_home : (s.advance).home = s.home := rfl
@[simp] theorem State.advance_net : (s.advance).net = s.net := rfl
@[simp] theorem State.advance_dev : (s.advance).dev = s.dev := rfl

@[simp] theorem State.updCore_now (n : Nat) (f : CoreSt → CoreSt) : (s.updCore n f).now = s.now := rfl
@[simp] theorem State.updCore_tick (n : Nat) (f : CoreSt → CoreSt) : (s.updCore n f).tick = s.tick := rfl
@[simp] theorem State.updCore_cur (n : Nat) (f : CoreSt → CoreSt) : (s.updCore n f).cur = s.cur := rfl
@[simp] theorem State.updCore_cx (n : Nat) (f : CoreSt → CoreSt) : (s.updCore n f).cx = s.cx := rfl
@[simp] theorem State.updCore_parked (n : Nat) (f : CoreSt → CoreSt) : (s.updCore n f).parked = s.parked := rfl
@[simp] theorem State.updCore_plan (n : Nat) (f : CoreSt → CoreSt) : (s.updCore n f).plan = s.plan := rfl
@[simp] theorem State.updCore_powered (n : Nat) (f : CoreSt → CoreSt) : (s.updCore n f).powered = s.powered := rfl
@[simp] theorem State.updCore_bootst (n : Nat) (f : CoreSt → CoreSt) : (s.updCore n f).bootst = s.bootst := rfl
@[simp] theorem State.updCore_cores (n : Nat) (f : CoreSt → CoreSt) : (s.updCore n f).cores = tset s.cores n (f (s.coreSt n)) := rfl
@[simp] theorem State.updCore_clusters (n : Nat) (f : CoreSt → CoreSt) : (s.updCore n f).clusters = s.clusters := rfl
@[simp] theorem State.updCore_dies (n : Nat) (f : CoreSt → CoreSt) : (s.updCore n f).dies = s.dies := rfl
@[simp] theorem State.updCore_owners (n : Nat) (f : CoreSt → CoreSt) : (s.updCore n f).owners = s.owners := rfl
@[simp] theorem State.updCore_mem (n : Nat) (f : CoreSt → CoreSt) : (s.updCore n f).mem = s.mem := rfl
@[simp] theorem State.updCore_sysSram (n : Nat) (f : CoreSt → CoreSt) : (s.updCore n f).sysSram = s.sysSram := rfl
@[simp] theorem State.updCore_home (n : Nat) (f : CoreSt → CoreSt) : (s.updCore n f).home = s.home := rfl
@[simp] theorem State.updCore_net (n : Nat) (f : CoreSt → CoreSt) : (s.updCore n f).net = s.net := rfl
@[simp] theorem State.updCore_dev (n : Nat) (f : CoreSt → CoreSt) : (s.updCore n f).dev = s.dev := rfl

@[simp] theorem State.updCluster_now (n : Nat) (f : ClusterSt → ClusterSt) : (s.updCluster n f).now = s.now := rfl
@[simp] theorem State.updCluster_tick (n : Nat) (f : ClusterSt → ClusterSt) : (s.updCluster n f).tick = s.tick := rfl
@[simp] theorem State.updCluster_cur (n : Nat) (f : ClusterSt → ClusterSt) : (s.updCluster n f).cur = s.cur := rfl
@[simp] theorem State.updCluster_cx (n : Nat) (f : ClusterSt → ClusterSt) : (s.updCluster n f).cx = s.cx := rfl
@[simp] theorem State.updCluster_parked (n : Nat) (f : ClusterSt → ClusterSt) : (s.updCluster n f).parked = s.parked := rfl
@[simp] theorem State.updCluster_plan (n : Nat) (f : ClusterSt → ClusterSt) : (s.updCluster n f).plan = s.plan := rfl
@[simp] theorem State.updCluster_powered (n : Nat) (f : ClusterSt → ClusterSt) : (s.updCluster n f).powered = s.powered := rfl
@[simp] theorem State.updCluster_bootst (n : Nat) (f : ClusterSt → ClusterSt) : (s.updCluster n f).bootst = s.bootst := rfl
@[simp] theorem State.updCluster_cores (n : Nat) (f : ClusterSt → ClusterSt) : (s.updCluster n f).cores = s.cores := rfl
@[simp] theorem State.updCluster_clusters (n : Nat) (f : ClusterSt → ClusterSt) : (s.updCluster n f).clusters = tset s.clusters n (f (s.clusterSt n)) := rfl
@[simp] theorem State.updCluster_dies (n : Nat) (f : ClusterSt → ClusterSt) : (s.updCluster n f).dies = s.dies := rfl
@[simp] theorem State.updCluster_owners (n : Nat) (f : ClusterSt → ClusterSt) : (s.updCluster n f).owners = s.owners := rfl
@[simp] theorem State.updCluster_mem (n : Nat) (f : ClusterSt → ClusterSt) : (s.updCluster n f).mem = s.mem := rfl
@[simp] theorem State.updCluster_sysSram (n : Nat) (f : ClusterSt → ClusterSt) : (s.updCluster n f).sysSram = s.sysSram := rfl
@[simp] theorem State.updCluster_home (n : Nat) (f : ClusterSt → ClusterSt) : (s.updCluster n f).home = s.home := rfl
@[simp] theorem State.updCluster_net (n : Nat) (f : ClusterSt → ClusterSt) : (s.updCluster n f).net = s.net := rfl
@[simp] theorem State.updCluster_dev (n : Nat) (f : ClusterSt → ClusterSt) : (s.updCluster n f).dev = s.dev := rfl

@[simp] theorem State.updDie_now (n : Nat) (f : DieSt → DieSt) : (s.updDie n f).now = s.now := rfl
@[simp] theorem State.updDie_tick (n : Nat) (f : DieSt → DieSt) : (s.updDie n f).tick = s.tick := rfl
@[simp] theorem State.updDie_cur (n : Nat) (f : DieSt → DieSt) : (s.updDie n f).cur = s.cur := rfl
@[simp] theorem State.updDie_cx (n : Nat) (f : DieSt → DieSt) : (s.updDie n f).cx = s.cx := rfl
@[simp] theorem State.updDie_parked (n : Nat) (f : DieSt → DieSt) : (s.updDie n f).parked = s.parked := rfl
@[simp] theorem State.updDie_plan (n : Nat) (f : DieSt → DieSt) : (s.updDie n f).plan = s.plan := rfl
@[simp] theorem State.updDie_powered (n : Nat) (f : DieSt → DieSt) : (s.updDie n f).powered = s.powered := rfl
@[simp] theorem State.updDie_bootst (n : Nat) (f : DieSt → DieSt) : (s.updDie n f).bootst = s.bootst := rfl
@[simp] theorem State.updDie_cores (n : Nat) (f : DieSt → DieSt) : (s.updDie n f).cores = s.cores := rfl
@[simp] theorem State.updDie_clusters (n : Nat) (f : DieSt → DieSt) : (s.updDie n f).clusters = s.clusters := rfl
@[simp] theorem State.updDie_dies (n : Nat) (f : DieSt → DieSt) : (s.updDie n f).dies = tset s.dies n (f (s.dieSt n)) := rfl
@[simp] theorem State.updDie_owners (n : Nat) (f : DieSt → DieSt) : (s.updDie n f).owners = s.owners := rfl
@[simp] theorem State.updDie_mem (n : Nat) (f : DieSt → DieSt) : (s.updDie n f).mem = s.mem := rfl
@[simp] theorem State.updDie_sysSram (n : Nat) (f : DieSt → DieSt) : (s.updDie n f).sysSram = s.sysSram := rfl
@[simp] theorem State.updDie_home (n : Nat) (f : DieSt → DieSt) : (s.updDie n f).home = s.home := rfl
@[simp] theorem State.updDie_net (n : Nat) (f : DieSt → DieSt) : (s.updDie n f).net = s.net := rfl
@[simp] theorem State.updDie_dev (n : Nat) (f : DieSt → DieSt) : (s.updDie n f).dev = s.dev := rfl

@[simp] theorem State.updOwner_now (n : Nat) (f : OwnerSt → OwnerSt) : (s.updOwner n f).now = s.now := rfl
@[simp] theorem State.updOwner_tick (n : Nat) (f : OwnerSt → OwnerSt) : (s.updOwner n f).tick = s.tick := rfl
@[simp] theorem State.updOwner_cur (n : Nat) (f : OwnerSt → OwnerSt) : (s.updOwner n f).cur = s.cur := rfl
@[simp] theorem State.updOwner_cx (n : Nat) (f : OwnerSt → OwnerSt) : (s.updOwner n f).cx = s.cx := rfl
@[simp] theorem State.updOwner_parked (n : Nat) (f : OwnerSt → OwnerSt) : (s.updOwner n f).parked = s.parked := rfl
@[simp] theorem State.updOwner_plan (n : Nat) (f : OwnerSt → OwnerSt) : (s.updOwner n f).plan = s.plan := rfl
@[simp] theorem State.updOwner_powered (n : Nat) (f : OwnerSt → OwnerSt) : (s.updOwner n f).powered = s.powered := rfl
@[simp] theorem State.updOwner_bootst (n : Nat) (f : OwnerSt → OwnerSt) : (s.updOwner n f).bootst = s.bootst := rfl
@[simp] theorem State.updOwner_cores (n : Nat) (f : OwnerSt → OwnerSt) : (s.updOwner n f).cores = s.cores := rfl
@[simp] theorem State.updOwner_clusters (n : Nat) (f : OwnerSt → OwnerSt) : (s.updOwner n f).clusters = s.clusters := rfl
@[simp] theorem State.updOwner_dies (n : Nat) (f : OwnerSt → OwnerSt) : (s.updOwner n f).dies = s.dies := rfl
@[simp] theorem State.updOwner_owners (n : Nat) (f : OwnerSt → OwnerSt) : (s.updOwner n f).owners = tset s.owners n (f (s.ownerSt n)) := rfl
@[simp] theorem State.updOwner_mem (n : Nat) (f : OwnerSt → OwnerSt) : (s.updOwner n f).mem = s.mem := rfl
@[simp] theorem State.updOwner_sysSram (n : Nat) (f : OwnerSt → OwnerSt) : (s.updOwner n f).sysSram = s.sysSram := rfl
@[simp] theorem State.updOwner_home (n : Nat) (f : OwnerSt → OwnerSt) : (s.updOwner n f).home = s.home := rfl
@[simp] theorem State.updOwner_net (n : Nat) (f : OwnerSt → OwnerSt) : (s.updOwner n f).net = s.net := rfl
@[simp] theorem State.updOwner_dev (n : Nat) (f : OwnerSt → OwnerSt) : (s.updOwner n f).dev = s.dev := rfl

@[simp] theorem State.onHome_now (f : HomeSt → HomeSt) : (s.onHome f).now = s.now := rfl
@[simp] theorem State.onHome_tick (f : HomeSt → HomeSt) : (s.onHome f).tick = s.tick := rfl
@[simp] theorem State.onHome_cur (f : HomeSt → HomeSt) : (s.onHome f).cur = s.cur := rfl
@[simp] theorem State.onHome_cx (f : HomeSt → HomeSt) : (s.onHome f).cx = s.cx := rfl
@[simp] theorem State.onHome_parked (f : HomeSt → HomeSt) : (s.onHome f).parked = s.parked := rfl
@[simp] theorem State.onHome_plan (f : HomeSt → HomeSt) : (s.onHome f).plan = s.plan := rfl
@[simp] theorem State.onHome_powered (f : HomeSt → HomeSt) : (s.onHome f).powered = s.powered := rfl
@[simp] theorem State.onHome_bootst (f : HomeSt → HomeSt) : (s.onHome f).bootst = s.bootst := rfl
@[simp] theorem State.onHome_cores (f : HomeSt → HomeSt) : (s.onHome f).cores = s.cores := rfl
@[simp] theorem State.onHome_clusters (f : HomeSt → HomeSt) : (s.onHome f).clusters = s.clusters := rfl
@[simp] theorem State.onHome_dies (f : HomeSt → HomeSt) : (s.onHome f).dies = s.dies := rfl
@[simp] theorem State.onHome_owners (f : HomeSt → HomeSt) : (s.onHome f).owners = s.owners := rfl
@[simp] theorem State.onHome_mem (f : HomeSt → HomeSt) : (s.onHome f).mem = s.mem := rfl
@[simp] theorem State.onHome_sysSram (f : HomeSt → HomeSt) : (s.onHome f).sysSram = s.sysSram := rfl
@[simp] theorem State.onHome_home (f : HomeSt → HomeSt) : (s.onHome f).home = f s.home := rfl
@[simp] theorem State.onHome_net (f : HomeSt → HomeSt) : (s.onHome f).net = s.net := rfl
@[simp] theorem State.onHome_dev (f : HomeSt → HomeSt) : (s.onHome f).dev = s.dev := rfl

@[simp] theorem State.onNet_now (f : NetSt → NetSt) : (s.onNet f).now = s.now := rfl
@[simp] theorem State.onNet_tick (f : NetSt → NetSt) : (s.onNet f).tick = s.tick := rfl
@[simp] theorem State.onNet_cur (f : NetSt → NetSt) : (s.onNet f).cur = s.cur := rfl
@[simp] theorem State.onNet_cx (f : NetSt → NetSt) : (s.onNet f).cx = s.cx := rfl
@[simp] theorem State.onNet_parked (f : NetSt → NetSt) : (s.onNet f).parked = s.parked := rfl
@[simp] theorem State.onNet_plan (f : NetSt → NetSt) : (s.onNet f).plan = s.plan := rfl
@[simp] theorem State.onNet_powered (f : NetSt → NetSt) : (s.onNet f).powered = s.powered := rfl
@[simp] theorem State.onNet_bootst (f : NetSt → NetSt) : (s.onNet f).bootst = s.bootst := rfl
@[simp] theorem State.onNet_cores (f : NetSt → NetSt) : (s.onNet f).cores = s.cores := rfl
@[simp] theorem State.onNet_clusters (f : NetSt → NetSt) : (s.onNet f).clusters = s.clusters := rfl
@[simp] theorem State.onNet_dies (f : NetSt → NetSt) : (s.onNet f).dies = s.dies := rfl
@[simp] theorem State.onNet_owners (f : NetSt → NetSt) : (s.onNet f).owners = s.owners := rfl
@[simp] theorem State.onNet_mem (f : NetSt → NetSt) : (s.onNet f).mem = s.mem := rfl
@[simp] theorem State.onNet_sysSram (f : NetSt → NetSt) : (s.onNet f).sysSram = s.sysSram := rfl
@[simp] theorem State.onNet_home (f : NetSt → NetSt) : (s.onNet f).home = s.home := rfl
@[simp] theorem State.onNet_net (f : NetSt → NetSt) : (s.onNet f).net = f s.net := rfl
@[simp] theorem State.onNet_dev (f : NetSt → NetSt) : (s.onNet f).dev = s.dev := rfl

@[simp] theorem State.onDev_now (f : DevSt → DevSt) : (s.onDev f).now = s.now := rfl
@[simp] theorem State.onDev_tick (f : DevSt → DevSt) : (s.onDev f).tick = s.tick := rfl
@[simp] theorem State.onDev_cur (f : DevSt → DevSt) : (s.onDev f).cur = s.cur := rfl
@[simp] theorem State.onDev_cx (f : DevSt → DevSt) : (s.onDev f).cx = s.cx := rfl
@[simp] theorem State.onDev_parked (f : DevSt → DevSt) : (s.onDev f).parked = s.parked := rfl
@[simp] theorem State.onDev_plan (f : DevSt → DevSt) : (s.onDev f).plan = s.plan := rfl
@[simp] theorem State.onDev_powered (f : DevSt → DevSt) : (s.onDev f).powered = s.powered := rfl
@[simp] theorem State.onDev_bootst (f : DevSt → DevSt) : (s.onDev f).bootst = s.bootst := rfl
@[simp] theorem State.onDev_cores (f : DevSt → DevSt) : (s.onDev f).cores = s.cores := rfl
@[simp] theorem State.onDev_clusters (f : DevSt → DevSt) : (s.onDev f).clusters = s.clusters := rfl
@[simp] theorem State.onDev_dies (f : DevSt → DevSt) : (s.onDev f).dies = s.dies := rfl
@[simp] theorem State.onDev_owners (f : DevSt → DevSt) : (s.onDev f).owners = s.owners := rfl
@[simp] theorem State.onDev_mem (f : DevSt → DevSt) : (s.onDev f).mem = s.mem := rfl
@[simp] theorem State.onDev_sysSram (f : DevSt → DevSt) : (s.onDev f).sysSram = s.sysSram := rfl
@[simp] theorem State.onDev_home (f : DevSt → DevSt) : (s.onDev f).home = s.home := rfl
@[simp] theorem State.onDev_net (f : DevSt → DevSt) : (s.onDev f).net = s.net := rfl
@[simp] theorem State.onDev_dev (f : DevSt → DevSt) : (s.onDev f).dev = f s.dev := rfl

@[simp] theorem putX_now (r : XReg) (w : Word) : (putX s r w).now = s.now := rfl
@[simp] theorem putX_tick (r : XReg) (w : Word) : (putX s r w).tick = s.tick := rfl
@[simp] theorem putX_cur (r : XReg) (w : Word) : (putX s r w).cur = s.cur := rfl
@[simp] theorem putX_parked (r : XReg) (w : Word) : (putX s r w).parked = s.parked := rfl
@[simp] theorem putX_plan (r : XReg) (w : Word) : (putX s r w).plan = s.plan := rfl
@[simp] theorem putX_powered (r : XReg) (w : Word) : (putX s r w).powered = s.powered := rfl
@[simp] theorem putX_bootst (r : XReg) (w : Word) : (putX s r w).bootst = s.bootst := rfl
@[simp] theorem putX_cores (r : XReg) (w : Word) : (putX s r w).cores = s.cores := rfl
@[simp] theorem putX_clusters (r : XReg) (w : Word) : (putX s r w).clusters = s.clusters := rfl
@[simp] theorem putX_dies (r : XReg) (w : Word) : (putX s r w).dies = s.dies := rfl
@[simp] theorem putX_owners (r : XReg) (w : Word) : (putX s r w).owners = s.owners := rfl
@[simp] theorem putX_mem (r : XReg) (w : Word) : (putX s r w).mem = s.mem := rfl
@[simp] theorem putX_sysSram (r : XReg) (w : Word) : (putX s r w).sysSram = s.sysSram := rfl
@[simp] theorem putX_home (r : XReg) (w : Word) : (putX s r w).home = s.home := rfl
@[simp] theorem putX_net (r : XReg) (w : Word) : (putX s r w).net = s.net := rfl
@[simp] theorem putX_dev (r : XReg) (w : Word) : (putX s r w).dev = s.dev := rfl

@[simp] theorem putV_now (r : VReg) (w : Vec) : (putV s r w).now = s.now := rfl
@[simp] theorem putV_tick (r : VReg) (w : Vec) : (putV s r w).tick = s.tick := rfl
@[simp] theorem putV_cur (r : VReg) (w : Vec) : (putV s r w).cur = s.cur := rfl
@[simp] theorem putV_parked (r : VReg) (w : Vec) : (putV s r w).parked = s.parked := rfl
@[simp] theorem putV_plan (r : VReg) (w : Vec) : (putV s r w).plan = s.plan := rfl
@[simp] theorem putV_powered (r : VReg) (w : Vec) : (putV s r w).powered = s.powered := rfl
@[simp] theorem putV_bootst (r : VReg) (w : Vec) : (putV s r w).bootst = s.bootst := rfl
@[simp] theorem putV_cores (r : VReg) (w : Vec) : (putV s r w).cores = s.cores := rfl
@[simp] theorem putV_clusters (r : VReg) (w : Vec) : (putV s r w).clusters = s.clusters := rfl
@[simp] theorem putV_dies (r : VReg) (w : Vec) : (putV s r w).dies = s.dies := rfl
@[simp] theorem putV_owners (r : VReg) (w : Vec) : (putV s r w).owners = s.owners := rfl
@[simp] theorem putV_mem (r : VReg) (w : Vec) : (putV s r w).mem = s.mem := rfl
@[simp] theorem putV_sysSram (r : VReg) (w : Vec) : (putV s r w).sysSram = s.sysSram := rfl
@[simp] theorem putV_home (r : VReg) (w : Vec) : (putV s r w).home = s.home := rfl
@[simp] theorem putV_net (r : VReg) (w : Vec) : (putV s r w).net = s.net := rfl
@[simp] theorem putV_dev (r : VReg) (w : Vec) : (putV s r w).dev = s.dev := rfl

@[simp] theorem putM_now (r : MReg) (w : Word) : (putM s r w).now = s.now := rfl
@[simp] theorem putM_tick (r : MReg) (w : Word) : (putM s r w).tick = s.tick := rfl
@[simp] theorem putM_cur (r : MReg) (w : Word) : (putM s r w).cur = s.cur := rfl
@[simp] theorem putM_parked (r : MReg) (w : Word) : (putM s r w).parked = s.parked := rfl
@[simp] theorem putM_plan (r : MReg) (w : Word) : (putM s r w).plan = s.plan := rfl
@[simp] theorem putM_powered (r : MReg) (w : Word) : (putM s r w).powered = s.powered := rfl
@[simp] theorem putM_bootst (r : MReg) (w : Word) : (putM s r w).bootst = s.bootst := rfl
@[simp] theorem putM_cores (r : MReg) (w : Word) : (putM s r w).cores = s.cores := rfl
@[simp] theorem putM_clusters (r : MReg) (w : Word) : (putM s r w).clusters = s.clusters := rfl
@[simp] theorem putM_dies (r : MReg) (w : Word) : (putM s r w).dies = s.dies := rfl
@[simp] theorem putM_owners (r : MReg) (w : Word) : (putM s r w).owners = s.owners := rfl
@[simp] theorem putM_mem (r : MReg) (w : Word) : (putM s r w).mem = s.mem := rfl
@[simp] theorem putM_sysSram (r : MReg) (w : Word) : (putM s r w).sysSram = s.sysSram := rfl
@[simp] theorem putM_home (r : MReg) (w : Word) : (putM s r w).home = s.home := rfl
@[simp] theorem putM_net (r : MReg) (w : Word) : (putM s r w).net = s.net := rfl
@[simp] theorem putM_dev (r : MReg) (w : Word) : (putM s r w).dev = s.dev := rfl

@[simp] theorem putPair_now (r : XReg) (lo hi : Word) : (putPair s r lo hi).now = s.now := rfl
@[simp] theorem putPair_tick (r : XReg) (lo hi : Word) : (putPair s r lo hi).tick = s.tick := rfl
@[simp] theorem putPair_cur (r : XReg) (lo hi : Word) : (putPair s r lo hi).cur = s.cur := rfl
@[simp] theorem putPair_parked (r : XReg) (lo hi : Word) : (putPair s r lo hi).parked = s.parked := rfl
@[simp] theorem putPair_plan (r : XReg) (lo hi : Word) : (putPair s r lo hi).plan = s.plan := rfl
@[simp] theorem putPair_powered (r : XReg) (lo hi : Word) : (putPair s r lo hi).powered = s.powered := rfl
@[simp] theorem putPair_bootst (r : XReg) (lo hi : Word) : (putPair s r lo hi).bootst = s.bootst := rfl
@[simp] theorem putPair_cores (r : XReg) (lo hi : Word) : (putPair s r lo hi).cores = s.cores := rfl
@[simp] theorem putPair_clusters (r : XReg) (lo hi : Word) : (putPair s r lo hi).clusters = s.clusters := rfl
@[simp] theorem putPair_dies (r : XReg) (lo hi : Word) : (putPair s r lo hi).dies = s.dies := rfl
@[simp] theorem putPair_owners (r : XReg) (lo hi : Word) : (putPair s r lo hi).owners = s.owners := rfl
@[simp] theorem putPair_mem (r : XReg) (lo hi : Word) : (putPair s r lo hi).mem = s.mem := rfl
@[simp] theorem putPair_sysSram (r : XReg) (lo hi : Word) : (putPair s r lo hi).sysSram = s.sysSram := rfl
@[simp] theorem putPair_home (r : XReg) (lo hi : Word) : (putPair s r lo hi).home = s.home := rfl
@[simp] theorem putPair_net (r : XReg) (lo hi : Word) : (putPair s r lo hi).net = s.net := rfl
@[simp] theorem putPair_dev (r : XReg) (lo hi : Word) : (putPair s r lo hi).dev = s.dev := rfl

@[simp] theorem State.flags_now (n : Nat) : (s.flags n).now = s.now := rfl
@[simp] theorem State.flags_tick (n : Nat) : (s.flags n).tick = s.tick := rfl
@[simp] theorem State.flags_cur (n : Nat) : (s.flags n).cur = s.cur := rfl
@[simp] theorem State.flags_parked (n : Nat) : (s.flags n).parked = s.parked := rfl
@[simp] theorem State.flags_plan (n : Nat) : (s.flags n).plan = s.plan := rfl
@[simp] theorem State.flags_powered (n : Nat) : (s.flags n).powered = s.powered := rfl
@[simp] theorem State.flags_bootst (n : Nat) : (s.flags n).bootst = s.bootst := rfl
@[simp] theorem State.flags_cores (n : Nat) : (s.flags n).cores = s.cores := rfl
@[simp] theorem State.flags_clusters (n : Nat) : (s.flags n).clusters = s.clusters := rfl
@[simp] theorem State.flags_dies (n : Nat) : (s.flags n).dies = s.dies := rfl
@[simp] theorem State.flags_owners (n : Nat) : (s.flags n).owners = s.owners := rfl
@[simp] theorem State.flags_mem (n : Nat) : (s.flags n).mem = s.mem := rfl
@[simp] theorem State.flags_sysSram (n : Nat) : (s.flags n).sysSram = s.sysSram := rfl
@[simp] theorem State.flags_home (n : Nat) : (s.flags n).home = s.home := rfl
@[simp] theorem State.flags_net (n : Nat) : (s.flags n).net = s.net := rfl
@[simp] theorem State.flags_dev (n : Nat) : (s.flags n).dev = s.dev := rfl

variable (c : Ctx)

@[simp] theorem Ctx.stands_x (n : Nat) (p : Dest → Bool) : (c.stands n p).x = c.x := rfl
@[simp] theorem Ctx.stands_v (n : Nat) (p : Dest → Bool) : (c.stands n p).v = c.v := rfl
@[simp] theorem Ctx.stands_m (n : Nat) (p : Dest → Bool) : (c.stands n p).m = c.m := rfl
@[simp] theorem Ctx.stands_t (n : Nat) (p : Dest → Bool) : (c.stands n p).t = c.t := rfl
@[simp] theorem Ctx.stands_pc (n : Nat) (p : Dest → Bool) : (c.stands n p).pc = c.pc := rfl
@[simp] theorem Ctx.stands_npc (n : Nat) (p : Dest → Bool) : (c.stands n p).npc = c.npc := rfl
@[simp] theorem Ctx.stands_chain (n : Nat) (p : Dest → Bool) : (c.stands n p).chain = c.chain := rfl
@[simp] theorem Ctx.stands_life (n : Nat) (p : Dest → Bool) : (c.stands n p).life = c.life := rfl
@[simp] theorem Ctx.stands_wait (n : Nat) (p : Dest → Bool) : (c.stands n p).wait = c.wait := rfl
@[simp] theorem Ctx.stands_since (n : Nat) (p : Dest → Bool) : (c.stands n p).since = c.since := rfl
@[simp] theorem Ctx.stands_firstId (n : Nat) (p : Dest → Bool) : (c.stands n p).firstId = c.firstId := rfl
@[simp] theorem Ctx.stands_woke (n : Nat) (p : Dest → Bool) : (c.stands n p).woke = c.woke := rfl
@[simp] theorem Ctx.stands_trapped (n : Nat) (p : Dest → Bool) : (c.stands n p).trapped = c.trapped := rfl
@[simp] theorem Ctx.stands_crs (n : Nat) (p : Dest → Bool) : (c.stands n p).crs = c.crs := rfl
@[simp] theorem Ctx.stands_fir (n : Nat) (p : Dest → Bool) : (c.stands n p).fir = c.fir := rfl
@[simp] theorem Ctx.stands_runMax (n : Nat) (p : Dest → Bool) : (c.stands n p).runMax = c.runMax := rfl
@[simp] theorem Ctx.stands_holds (n : Nat) (p : Dest → Bool) : (c.stands n p).holds = c.holds := rfl
@[simp] theorem Ctx.stands_pend (n : Nat) (p : Dest → Bool) : (c.stands n p).pend = c.pend := rfl
@[simp] theorem Ctx.stands_streams (n : Nat) (p : Dest → Bool) : (c.stands n p).streams = c.streams := rfl
@[simp] theorem Ctx.stands_dacc (n : Nat) (p : Dest → Bool) : (c.stands n p).dacc = c.dacc := rfl
@[simp] theorem Ctx.stands_staging (n : Nat) (p : Dest → Bool) : (c.stands n p).staging = c.staging := rfl
@[simp] theorem Ctx.stands_engFaults (n : Nat) (p : Dest → Bool) : (c.stands n p).engFaults = c.engFaults := rfl
@[simp] theorem Ctx.stands_lostPend (n : Nat) (p : Dest → Bool) : (c.stands n p).lostPend = c.lostPend := rfl
@[simp] theorem Ctx.stands_hwerr (n : Nat) (p : Dest → Bool) : (c.stands n p).hwerr = c.hwerr := rfl
@[simp] theorem Ctx.stands_preempt (n : Nat) (p : Dest → Bool) : (c.stands n p).preempt = c.preempt := rfl
@[simp] theorem Ctx.stands_timerPend (n : Nat) (p : Dest → Bool) : (c.stands n p).timerPend = c.timerPend := rfl
@[simp] theorem Ctx.stands_noticeSet (n : Nat) (p : Dest → Bool) : (c.stands n p).noticeSet = c.noticeSet := rfl
@[simp] theorem Ctx.stands_gang (n : Nat) (p : Dest → Bool) : (c.stands n p).gang = c.gang := rfl
@[simp] theorem Ctx.stands_gangInst (n : Nat) (p : Dest → Bool) : (c.stands n p).gangInst = c.gangInst := rfl
@[simp] theorem Ctx.stands_copies (n : Nat) (p : Dest → Bool) : (c.stands n p).copies = c.copies := rfl
@[simp] theorem Ctx.stands_copyWit (n : Nat) (p : Dest → Bool) : (c.stands n p).copyWit = c.copyWit := rfl
@[simp] theorem Ctx.stands_sig (n : Nat) (p : Dest → Bool) : (c.stands n p).sig = c.sig := rfl
@[simp] theorem Ctx.stands_evIdx (n : Nat) (p : Dest → Bool) : (c.stands n p).evIdx = c.evIdx := rfl
@[simp] theorem Ctx.stands_bankWait (n : Nat) (p : Dest → Bool) : (c.stands n p).bankWait = c.bankWait := rfl
@[simp] theorem Ctx.stands_fill (n : Nat) (p : Dest → Bool) : (c.stands n p).fill = c.fill := rfl
@[simp] theorem Ctx.stands_early (n : Nat) (p : Dest → Bool) : (c.stands n p).early = c.early := rfl
@[simp] theorem Ctx.stands_lag (n : Nat) (p : Dest → Bool) : (c.stands n p).lag = c.lag := rfl
@[simp] theorem Ctx.stands_ready (n : Nat) (p : Dest → Bool) : (c.stands n p).ready = c.ready := rfl
@[simp] theorem Ctx.stands_wrote (n : Nat) (p : Dest → Bool) : (c.stands n p).wrote = c.wrote := rfl
@[simp] theorem Ctx.stands_banks (n : Nat) (p : Dest → Bool) : (c.stands n p).banks = c.banks := rfl
@[simp] theorem Ctx.stands_verdict (n : Nat) (p : Dest → Bool) : (c.stands n p).verdict = c.verdict := rfl
@[simp] theorem Ctx.stands_judged (n : Nat) (p : Dest → Bool) : (c.stands n p).judged = c.judged := rfl

@[simp] theorem Ctx.setX_v (r : XReg) (w : Word) : (c.setX r w).v = c.v := by unfold Ctx.setX; split <;> rfl
@[simp] theorem Ctx.setX_m (r : XReg) (w : Word) : (c.setX r w).m = c.m := by unfold Ctx.setX; split <;> rfl
@[simp] theorem Ctx.setX_t (r : XReg) (w : Word) : (c.setX r w).t = c.t := by unfold Ctx.setX; split <;> rfl
@[simp] theorem Ctx.setX_pc (r : XReg) (w : Word) : (c.setX r w).pc = c.pc := by unfold Ctx.setX; split <;> rfl
@[simp] theorem Ctx.setX_npc (r : XReg) (w : Word) : (c.setX r w).npc = c.npc := by unfold Ctx.setX; split <;> rfl
@[simp] theorem Ctx.setX_chain (r : XReg) (w : Word) : (c.setX r w).chain = c.chain := by unfold Ctx.setX; split <;> rfl
@[simp] theorem Ctx.setX_life (r : XReg) (w : Word) : (c.setX r w).life = c.life := by unfold Ctx.setX; split <;> rfl
@[simp] theorem Ctx.setX_wait (r : XReg) (w : Word) : (c.setX r w).wait = c.wait := by unfold Ctx.setX; split <;> rfl
@[simp] theorem Ctx.setX_since (r : XReg) (w : Word) : (c.setX r w).since = c.since := by unfold Ctx.setX; split <;> rfl
@[simp] theorem Ctx.setX_firstId (r : XReg) (w : Word) : (c.setX r w).firstId = c.firstId := by unfold Ctx.setX; split <;> rfl
@[simp] theorem Ctx.setX_woke (r : XReg) (w : Word) : (c.setX r w).woke = c.woke := by unfold Ctx.setX; split <;> rfl
@[simp] theorem Ctx.setX_trapped (r : XReg) (w : Word) : (c.setX r w).trapped = c.trapped := by unfold Ctx.setX; split <;> rfl
@[simp] theorem Ctx.setX_crs (r : XReg) (w : Word) : (c.setX r w).crs = c.crs := by unfold Ctx.setX; split <;> rfl
@[simp] theorem Ctx.setX_fir (r : XReg) (w : Word) : (c.setX r w).fir = c.fir := by unfold Ctx.setX; split <;> rfl
@[simp] theorem Ctx.setX_runMax (r : XReg) (w : Word) : (c.setX r w).runMax = c.runMax := by unfold Ctx.setX; split <;> rfl
@[simp] theorem Ctx.setX_holds (r : XReg) (w : Word) : (c.setX r w).holds = c.holds := by unfold Ctx.setX; split <;> rfl
@[simp] theorem Ctx.setX_streams (r : XReg) (w : Word) : (c.setX r w).streams = c.streams := by unfold Ctx.setX; split <;> rfl
@[simp] theorem Ctx.setX_dacc (r : XReg) (w : Word) : (c.setX r w).dacc = c.dacc := by unfold Ctx.setX; split <;> rfl
@[simp] theorem Ctx.setX_staging (r : XReg) (w : Word) : (c.setX r w).staging = c.staging := by unfold Ctx.setX; split <;> rfl
@[simp] theorem Ctx.setX_engFaults (r : XReg) (w : Word) : (c.setX r w).engFaults = c.engFaults := by unfold Ctx.setX; split <;> rfl
@[simp] theorem Ctx.setX_lostPend (r : XReg) (w : Word) : (c.setX r w).lostPend = c.lostPend := by unfold Ctx.setX; split <;> rfl
@[simp] theorem Ctx.setX_hwerr (r : XReg) (w : Word) : (c.setX r w).hwerr = c.hwerr := by unfold Ctx.setX; split <;> rfl
@[simp] theorem Ctx.setX_preempt (r : XReg) (w : Word) : (c.setX r w).preempt = c.preempt := by unfold Ctx.setX; split <;> rfl
@[simp] theorem Ctx.setX_timerPend (r : XReg) (w : Word) : (c.setX r w).timerPend = c.timerPend := by unfold Ctx.setX; split <;> rfl
@[simp] theorem Ctx.setX_noticeSet (r : XReg) (w : Word) : (c.setX r w).noticeSet = c.noticeSet := by unfold Ctx.setX; split <;> rfl
@[simp] theorem Ctx.setX_gang (r : XReg) (w : Word) : (c.setX r w).gang = c.gang := by unfold Ctx.setX; split <;> rfl
@[simp] theorem Ctx.setX_gangInst (r : XReg) (w : Word) : (c.setX r w).gangInst = c.gangInst := by unfold Ctx.setX; split <;> rfl
@[simp] theorem Ctx.setX_copies (r : XReg) (w : Word) : (c.setX r w).copies = c.copies := by unfold Ctx.setX; split <;> rfl
@[simp] theorem Ctx.setX_copyWit (r : XReg) (w : Word) : (c.setX r w).copyWit = c.copyWit := by unfold Ctx.setX; split <;> rfl
@[simp] theorem Ctx.setX_sig (r : XReg) (w : Word) : (c.setX r w).sig = c.sig := by unfold Ctx.setX; split <;> rfl
@[simp] theorem Ctx.setX_evIdx (r : XReg) (w : Word) : (c.setX r w).evIdx = c.evIdx := by unfold Ctx.setX; split <;> rfl
@[simp] theorem Ctx.setX_bankWait (r : XReg) (w : Word) : (c.setX r w).bankWait = c.bankWait := by unfold Ctx.setX; split <;> rfl
@[simp] theorem Ctx.setX_fill (r : XReg) (w : Word) : (c.setX r w).fill = c.fill := by unfold Ctx.setX; split <;> rfl
@[simp] theorem Ctx.setX_early (r : XReg) (w : Word) : (c.setX r w).early = c.early := by unfold Ctx.setX; split <;> rfl
@[simp] theorem Ctx.setX_lag (r : XReg) (w : Word) : (c.setX r w).lag = c.lag := by unfold Ctx.setX; split <;> rfl
@[simp] theorem Ctx.setX_ready (r : XReg) (w : Word) : (c.setX r w).ready = c.ready := by unfold Ctx.setX; split <;> rfl
@[simp] theorem Ctx.setX_wrote (r : XReg) (w : Word) : (c.setX r w).wrote = c.wrote := by unfold Ctx.setX; split <;> rfl
@[simp] theorem Ctx.setX_banks (r : XReg) (w : Word) : (c.setX r w).banks = c.banks := by unfold Ctx.setX; split <;> rfl
@[simp] theorem Ctx.setX_verdict (r : XReg) (w : Word) : (c.setX r w).verdict = c.verdict := by unfold Ctx.setX; split <;> rfl
@[simp] theorem Ctx.setX_judged (r : XReg) (w : Word) : (c.setX r w).judged = c.judged := by unfold Ctx.setX; split <;> rfl

@[simp] theorem Ctx.setM_x (r : MReg) (w : Word) : (c.setM r w).x = c.x := by unfold Ctx.setM; split <;> rfl
@[simp] theorem Ctx.setM_v (r : MReg) (w : Word) : (c.setM r w).v = c.v := by unfold Ctx.setM; split <;> rfl
@[simp] theorem Ctx.setM_t (r : MReg) (w : Word) : (c.setM r w).t = c.t := by unfold Ctx.setM; split <;> rfl
@[simp] theorem Ctx.setM_pc (r : MReg) (w : Word) : (c.setM r w).pc = c.pc := by unfold Ctx.setM; split <;> rfl
@[simp] theorem Ctx.setM_npc (r : MReg) (w : Word) : (c.setM r w).npc = c.npc := by unfold Ctx.setM; split <;> rfl
@[simp] theorem Ctx.setM_chain (r : MReg) (w : Word) : (c.setM r w).chain = c.chain := by unfold Ctx.setM; split <;> rfl
@[simp] theorem Ctx.setM_life (r : MReg) (w : Word) : (c.setM r w).life = c.life := by unfold Ctx.setM; split <;> rfl
@[simp] theorem Ctx.setM_wait (r : MReg) (w : Word) : (c.setM r w).wait = c.wait := by unfold Ctx.setM; split <;> rfl
@[simp] theorem Ctx.setM_since (r : MReg) (w : Word) : (c.setM r w).since = c.since := by unfold Ctx.setM; split <;> rfl
@[simp] theorem Ctx.setM_firstId (r : MReg) (w : Word) : (c.setM r w).firstId = c.firstId := by unfold Ctx.setM; split <;> rfl
@[simp] theorem Ctx.setM_woke (r : MReg) (w : Word) : (c.setM r w).woke = c.woke := by unfold Ctx.setM; split <;> rfl
@[simp] theorem Ctx.setM_trapped (r : MReg) (w : Word) : (c.setM r w).trapped = c.trapped := by unfold Ctx.setM; split <;> rfl
@[simp] theorem Ctx.setM_crs (r : MReg) (w : Word) : (c.setM r w).crs = c.crs := by unfold Ctx.setM; split <;> rfl
@[simp] theorem Ctx.setM_fir (r : MReg) (w : Word) : (c.setM r w).fir = c.fir := by unfold Ctx.setM; split <;> rfl
@[simp] theorem Ctx.setM_runMax (r : MReg) (w : Word) : (c.setM r w).runMax = c.runMax := by unfold Ctx.setM; split <;> rfl
@[simp] theorem Ctx.setM_holds (r : MReg) (w : Word) : (c.setM r w).holds = c.holds := by unfold Ctx.setM; split <;> rfl
@[simp] theorem Ctx.setM_pend (r : MReg) (w : Word) : (c.setM r w).pend = c.pend := by unfold Ctx.setM; split <;> rfl
@[simp] theorem Ctx.setM_streams (r : MReg) (w : Word) : (c.setM r w).streams = c.streams := by unfold Ctx.setM; split <;> rfl
@[simp] theorem Ctx.setM_dacc (r : MReg) (w : Word) : (c.setM r w).dacc = c.dacc := by unfold Ctx.setM; split <;> rfl
@[simp] theorem Ctx.setM_staging (r : MReg) (w : Word) : (c.setM r w).staging = c.staging := by unfold Ctx.setM; split <;> rfl
@[simp] theorem Ctx.setM_engFaults (r : MReg) (w : Word) : (c.setM r w).engFaults = c.engFaults := by unfold Ctx.setM; split <;> rfl
@[simp] theorem Ctx.setM_lostPend (r : MReg) (w : Word) : (c.setM r w).lostPend = c.lostPend := by unfold Ctx.setM; split <;> rfl
@[simp] theorem Ctx.setM_hwerr (r : MReg) (w : Word) : (c.setM r w).hwerr = c.hwerr := by unfold Ctx.setM; split <;> rfl
@[simp] theorem Ctx.setM_preempt (r : MReg) (w : Word) : (c.setM r w).preempt = c.preempt := by unfold Ctx.setM; split <;> rfl
@[simp] theorem Ctx.setM_timerPend (r : MReg) (w : Word) : (c.setM r w).timerPend = c.timerPend := by unfold Ctx.setM; split <;> rfl
@[simp] theorem Ctx.setM_noticeSet (r : MReg) (w : Word) : (c.setM r w).noticeSet = c.noticeSet := by unfold Ctx.setM; split <;> rfl
@[simp] theorem Ctx.setM_gang (r : MReg) (w : Word) : (c.setM r w).gang = c.gang := by unfold Ctx.setM; split <;> rfl
@[simp] theorem Ctx.setM_gangInst (r : MReg) (w : Word) : (c.setM r w).gangInst = c.gangInst := by unfold Ctx.setM; split <;> rfl
@[simp] theorem Ctx.setM_copies (r : MReg) (w : Word) : (c.setM r w).copies = c.copies := by unfold Ctx.setM; split <;> rfl
@[simp] theorem Ctx.setM_copyWit (r : MReg) (w : Word) : (c.setM r w).copyWit = c.copyWit := by unfold Ctx.setM; split <;> rfl
@[simp] theorem Ctx.setM_sig (r : MReg) (w : Word) : (c.setM r w).sig = c.sig := by unfold Ctx.setM; split <;> rfl
@[simp] theorem Ctx.setM_evIdx (r : MReg) (w : Word) : (c.setM r w).evIdx = c.evIdx := by unfold Ctx.setM; split <;> rfl
@[simp] theorem Ctx.setM_bankWait (r : MReg) (w : Word) : (c.setM r w).bankWait = c.bankWait := by unfold Ctx.setM; split <;> rfl
@[simp] theorem Ctx.setM_fill (r : MReg) (w : Word) : (c.setM r w).fill = c.fill := by unfold Ctx.setM; split <;> rfl
@[simp] theorem Ctx.setM_early (r : MReg) (w : Word) : (c.setM r w).early = c.early := by unfold Ctx.setM; split <;> rfl
@[simp] theorem Ctx.setM_lag (r : MReg) (w : Word) : (c.setM r w).lag = c.lag := by unfold Ctx.setM; split <;> rfl
@[simp] theorem Ctx.setM_ready (r : MReg) (w : Word) : (c.setM r w).ready = c.ready := by unfold Ctx.setM; split <;> rfl
@[simp] theorem Ctx.setM_wrote (r : MReg) (w : Word) : (c.setM r w).wrote = c.wrote := by unfold Ctx.setM; split <;> rfl
@[simp] theorem Ctx.setM_banks (r : MReg) (w : Word) : (c.setM r w).banks = c.banks := by unfold Ctx.setM; split <;> rfl
@[simp] theorem Ctx.setM_verdict (r : MReg) (w : Word) : (c.setM r w).verdict = c.verdict := by unfold Ctx.setM; split <;> rfl
@[simp] theorem Ctx.setM_judged (r : MReg) (w : Word) : (c.setM r w).judged = c.judged := by unfold Ctx.setM; split <;> rfl

@[simp] theorem Ctx.setV_x (r : VReg) (w : Vec) : (c.setV r w).x = c.x := rfl
@[simp] theorem Ctx.setV_m (r : VReg) (w : Vec) : (c.setV r w).m = c.m := rfl
@[simp] theorem Ctx.setV_t (r : VReg) (w : Vec) : (c.setV r w).t = c.t := rfl
@[simp] theorem Ctx.setV_pc (r : VReg) (w : Vec) : (c.setV r w).pc = c.pc := rfl
@[simp] theorem Ctx.setV_npc (r : VReg) (w : Vec) : (c.setV r w).npc = c.npc := rfl
@[simp] theorem Ctx.setV_chain (r : VReg) (w : Vec) : (c.setV r w).chain = c.chain := rfl
@[simp] theorem Ctx.setV_life (r : VReg) (w : Vec) : (c.setV r w).life = c.life := rfl
@[simp] theorem Ctx.setV_wait (r : VReg) (w : Vec) : (c.setV r w).wait = c.wait := rfl
@[simp] theorem Ctx.setV_since (r : VReg) (w : Vec) : (c.setV r w).since = c.since := rfl
@[simp] theorem Ctx.setV_firstId (r : VReg) (w : Vec) : (c.setV r w).firstId = c.firstId := rfl
@[simp] theorem Ctx.setV_woke (r : VReg) (w : Vec) : (c.setV r w).woke = c.woke := rfl
@[simp] theorem Ctx.setV_trapped (r : VReg) (w : Vec) : (c.setV r w).trapped = c.trapped := rfl
@[simp] theorem Ctx.setV_crs (r : VReg) (w : Vec) : (c.setV r w).crs = c.crs := rfl
@[simp] theorem Ctx.setV_fir (r : VReg) (w : Vec) : (c.setV r w).fir = c.fir := rfl
@[simp] theorem Ctx.setV_runMax (r : VReg) (w : Vec) : (c.setV r w).runMax = c.runMax := rfl
@[simp] theorem Ctx.setV_holds (r : VReg) (w : Vec) : (c.setV r w).holds = c.holds := rfl
@[simp] theorem Ctx.setV_pend (r : VReg) (w : Vec) : (c.setV r w).pend = c.pend := rfl
@[simp] theorem Ctx.setV_streams (r : VReg) (w : Vec) : (c.setV r w).streams = c.streams := rfl
@[simp] theorem Ctx.setV_dacc (r : VReg) (w : Vec) : (c.setV r w).dacc = c.dacc := rfl
@[simp] theorem Ctx.setV_staging (r : VReg) (w : Vec) : (c.setV r w).staging = c.staging := rfl
@[simp] theorem Ctx.setV_engFaults (r : VReg) (w : Vec) : (c.setV r w).engFaults = c.engFaults := rfl
@[simp] theorem Ctx.setV_lostPend (r : VReg) (w : Vec) : (c.setV r w).lostPend = c.lostPend := rfl
@[simp] theorem Ctx.setV_hwerr (r : VReg) (w : Vec) : (c.setV r w).hwerr = c.hwerr := rfl
@[simp] theorem Ctx.setV_preempt (r : VReg) (w : Vec) : (c.setV r w).preempt = c.preempt := rfl
@[simp] theorem Ctx.setV_timerPend (r : VReg) (w : Vec) : (c.setV r w).timerPend = c.timerPend := rfl
@[simp] theorem Ctx.setV_noticeSet (r : VReg) (w : Vec) : (c.setV r w).noticeSet = c.noticeSet := rfl
@[simp] theorem Ctx.setV_gang (r : VReg) (w : Vec) : (c.setV r w).gang = c.gang := rfl
@[simp] theorem Ctx.setV_gangInst (r : VReg) (w : Vec) : (c.setV r w).gangInst = c.gangInst := rfl
@[simp] theorem Ctx.setV_copies (r : VReg) (w : Vec) : (c.setV r w).copies = c.copies := rfl
@[simp] theorem Ctx.setV_copyWit (r : VReg) (w : Vec) : (c.setV r w).copyWit = c.copyWit := rfl
@[simp] theorem Ctx.setV_sig (r : VReg) (w : Vec) : (c.setV r w).sig = c.sig := rfl
@[simp] theorem Ctx.setV_evIdx (r : VReg) (w : Vec) : (c.setV r w).evIdx = c.evIdx := rfl
@[simp] theorem Ctx.setV_bankWait (r : VReg) (w : Vec) : (c.setV r w).bankWait = c.bankWait := rfl
@[simp] theorem Ctx.setV_fill (r : VReg) (w : Vec) : (c.setV r w).fill = c.fill := rfl
@[simp] theorem Ctx.setV_early (r : VReg) (w : Vec) : (c.setV r w).early = c.early := rfl
@[simp] theorem Ctx.setV_lag (r : VReg) (w : Vec) : (c.setV r w).lag = c.lag := rfl
@[simp] theorem Ctx.setV_ready (r : VReg) (w : Vec) : (c.setV r w).ready = c.ready := rfl
@[simp] theorem Ctx.setV_wrote (r : VReg) (w : Vec) : (c.setV r w).wrote = c.wrote := rfl
@[simp] theorem Ctx.setV_banks (r : VReg) (w : Vec) : (c.setV r w).banks = c.banks := rfl
@[simp] theorem Ctx.setV_verdict (r : VReg) (w : Vec) : (c.setV r w).verdict = c.verdict := rfl
@[simp] theorem Ctx.setV_judged (r : VReg) (w : Vec) : (c.setV r w).judged = c.judged := rfl

@[simp] theorem Ctx.setT_x (r : TReg) (w : Tile) : (c.setT r w).x = c.x := rfl
@[simp] theorem Ctx.setT_v (r : TReg) (w : Tile) : (c.setT r w).v = c.v := rfl
@[simp] theorem Ctx.setT_m (r : TReg) (w : Tile) : (c.setT r w).m = c.m := rfl
@[simp] theorem Ctx.setT_pc (r : TReg) (w : Tile) : (c.setT r w).pc = c.pc := rfl
@[simp] theorem Ctx.setT_npc (r : TReg) (w : Tile) : (c.setT r w).npc = c.npc := rfl
@[simp] theorem Ctx.setT_chain (r : TReg) (w : Tile) : (c.setT r w).chain = c.chain := rfl
@[simp] theorem Ctx.setT_life (r : TReg) (w : Tile) : (c.setT r w).life = c.life := rfl
@[simp] theorem Ctx.setT_wait (r : TReg) (w : Tile) : (c.setT r w).wait = c.wait := rfl
@[simp] theorem Ctx.setT_since (r : TReg) (w : Tile) : (c.setT r w).since = c.since := rfl
@[simp] theorem Ctx.setT_firstId (r : TReg) (w : Tile) : (c.setT r w).firstId = c.firstId := rfl
@[simp] theorem Ctx.setT_woke (r : TReg) (w : Tile) : (c.setT r w).woke = c.woke := rfl
@[simp] theorem Ctx.setT_trapped (r : TReg) (w : Tile) : (c.setT r w).trapped = c.trapped := rfl
@[simp] theorem Ctx.setT_crs (r : TReg) (w : Tile) : (c.setT r w).crs = c.crs := rfl
@[simp] theorem Ctx.setT_fir (r : TReg) (w : Tile) : (c.setT r w).fir = c.fir := rfl
@[simp] theorem Ctx.setT_runMax (r : TReg) (w : Tile) : (c.setT r w).runMax = c.runMax := rfl
@[simp] theorem Ctx.setT_holds (r : TReg) (w : Tile) : (c.setT r w).holds = c.holds := rfl
@[simp] theorem Ctx.setT_pend (r : TReg) (w : Tile) : (c.setT r w).pend = c.pend := rfl
@[simp] theorem Ctx.setT_streams (r : TReg) (w : Tile) : (c.setT r w).streams = c.streams := rfl
@[simp] theorem Ctx.setT_dacc (r : TReg) (w : Tile) : (c.setT r w).dacc = c.dacc := rfl
@[simp] theorem Ctx.setT_staging (r : TReg) (w : Tile) : (c.setT r w).staging = c.staging := rfl
@[simp] theorem Ctx.setT_engFaults (r : TReg) (w : Tile) : (c.setT r w).engFaults = c.engFaults := rfl
@[simp] theorem Ctx.setT_lostPend (r : TReg) (w : Tile) : (c.setT r w).lostPend = c.lostPend := rfl
@[simp] theorem Ctx.setT_hwerr (r : TReg) (w : Tile) : (c.setT r w).hwerr = c.hwerr := rfl
@[simp] theorem Ctx.setT_preempt (r : TReg) (w : Tile) : (c.setT r w).preempt = c.preempt := rfl
@[simp] theorem Ctx.setT_timerPend (r : TReg) (w : Tile) : (c.setT r w).timerPend = c.timerPend := rfl
@[simp] theorem Ctx.setT_noticeSet (r : TReg) (w : Tile) : (c.setT r w).noticeSet = c.noticeSet := rfl
@[simp] theorem Ctx.setT_gang (r : TReg) (w : Tile) : (c.setT r w).gang = c.gang := rfl
@[simp] theorem Ctx.setT_gangInst (r : TReg) (w : Tile) : (c.setT r w).gangInst = c.gangInst := rfl
@[simp] theorem Ctx.setT_copies (r : TReg) (w : Tile) : (c.setT r w).copies = c.copies := rfl
@[simp] theorem Ctx.setT_copyWit (r : TReg) (w : Tile) : (c.setT r w).copyWit = c.copyWit := rfl
@[simp] theorem Ctx.setT_sig (r : TReg) (w : Tile) : (c.setT r w).sig = c.sig := rfl
@[simp] theorem Ctx.setT_evIdx (r : TReg) (w : Tile) : (c.setT r w).evIdx = c.evIdx := rfl
@[simp] theorem Ctx.setT_bankWait (r : TReg) (w : Tile) : (c.setT r w).bankWait = c.bankWait := rfl
@[simp] theorem Ctx.setT_fill (r : TReg) (w : Tile) : (c.setT r w).fill = c.fill := rfl
@[simp] theorem Ctx.setT_early (r : TReg) (w : Tile) : (c.setT r w).early = c.early := rfl
@[simp] theorem Ctx.setT_lag (r : TReg) (w : Tile) : (c.setT r w).lag = c.lag := rfl
@[simp] theorem Ctx.setT_ready (r : TReg) (w : Tile) : (c.setT r w).ready = c.ready := rfl
@[simp] theorem Ctx.setT_wrote (r : TReg) (w : Tile) : (c.setT r w).wrote = c.wrote := rfl
@[simp] theorem Ctx.setT_banks (r : TReg) (w : Tile) : (c.setT r w).banks = c.banks := rfl
@[simp] theorem Ctx.setT_verdict (r : TReg) (w : Tile) : (c.setT r w).verdict = c.verdict := rfl
@[simp] theorem Ctx.setT_judged (r : TReg) (w : Tile) : (c.setT r w).judged = c.judged := rfl


/-! ### Registers after a write (R16) -/

/-- x0 reads as zero. -/
@[simp] theorem Ctx.getX_zero : c.getX 0#5 = 0#64 := by simp [Ctx.getX]
/-- m0 reads as all ones. -/
@[simp] theorem Ctx.getM_zero : c.getM 0#3 = BitVec.allOnes 64 := by simp [Ctx.getM]

/-- An element of a vector after a write to any. -/
theorem Vector.get_set_any {α : Type} {n : Nat} (v : Vector α n) (i : Nat) (h : i < n) (a : α) (j : Fin n) :
    (v.set i a h).get j = if j.val = i then a else v.get j := by
  rcases j with ⟨j, hj⟩
  simp only [Vector.get_eq_getElem, Vector.getElem_set]
  by_cases e : i = j
  · simp [e]
  · simp [e, eq_comm]

/-- Two register numbers are the same where their values are. -/
theorem reg_eq_iff {n : Nat} (r q : BitVec n) : q.toFin.val = r.toNat ↔ q = r :=
  ⟨fun h => BitVec.eq_of_toNat_eq h, fun h => by subst h; rfl⟩

/-- A scalar register after a write to any: the value written, but that x0 stays zero. -/
theorem Ctx.getX_setX (r q : XReg) (w : Word) :
    (c.setX r w).getX q = if q = r ∧ r ≠ 0 then w else c.getX q := by
  by_cases hr : r = 0
  · subst hr; simp [Ctx.setX]
  · by_cases h0 : q = 0
    · subst h0; rw [if_neg fun h => hr h.1.symm]; exact (Ctx.getX_zero _).trans (Ctx.getX_zero _).symm
    · have : (c.setX r w).getX q = (c.x.set r.toNat w r.isLt).get q.toFin := by
        rw [Ctx.setX, if_neg hr, Ctx.getX, if_neg h0, Ctx.stands_x]
      rw [this, Vector.get_set_any, Ctx.getX, if_neg h0]
      simp only [reg_eq_iff, hr, ne_eq, not_false_eq_true, and_true]

/-- A vector register after a write to any. -/
theorem Ctx.getV_setV (r q : VReg) (w : Vec) : (c.setV r w).getV q = if q = r then w else c.getV q := by
  simp only [Ctx.getV, Ctx.setV, Ctx.stands_v, Vector.get_set_any, reg_eq_iff]

/-- A tile register after a write to any. -/
theorem Ctx.getT_setT (r q : TReg) (w : Tile) : (c.setT r w).getT q = if q = r then w else c.getT q := by
  simp only [Ctx.getT, Ctx.setT, Ctx.stands_t, Vector.get_set_any, reg_eq_iff]

/-- A mask register after a write to any: the value written, but that m0 stays all ones. -/
theorem Ctx.getM_setM (r q : MReg) (w : Word) :
    (c.setM r w).getM q = if q = r ∧ r ≠ 0 then w else c.getM q := by
  by_cases hr : r = 0
  · subst hr; simp [Ctx.setM]
  · by_cases h0 : q = 0
    · subst h0; rw [if_neg fun h => hr h.1.symm]; exact (Ctx.getM_zero _).trans (Ctx.getM_zero _).symm
    · have : (c.setM r w).getM q = (c.m.set r.toNat w r.isLt).get q.toFin := by
        rw [Ctx.setM, if_neg hr, Ctx.getM, if_neg h0]
      rw [this, Vector.get_set_any, Ctx.getM, if_neg h0]
      simp only [reg_eq_iff, hr, ne_eq, not_false_eq_true, and_true]

@[simp] theorem Ctx.getV_setX (r : XReg) (w : Word) (q : VReg) : (c.setX r w).getV q = c.getV q := by
  unfold Ctx.getV; simp only [Ctx.setX_v]
@[simp] theorem Ctx.getM_setX (r : XReg) (w : Word) (q : MReg) : (c.setX r w).getM q = c.getM q := by
  unfold Ctx.getM; simp only [Ctx.setX_m]
@[simp] theorem Ctx.getT_setX (r : XReg) (w : Word) (q : TReg) : (c.setX r w).getT q = c.getT q := by
  unfold Ctx.getT; simp only [Ctx.setX_t]
@[simp] theorem Ctx.getX_setM (r : MReg) (w : Word) (q : XReg) : (c.setM r w).getX q = c.getX q := by
  unfold Ctx.getX; simp only [Ctx.setM_x]
@[simp] theorem Ctx.getV_setM (r : MReg) (w : Word) (q : VReg) : (c.setM r w).getV q = c.getV q := by
  unfold Ctx.getV; simp only [Ctx.setM_v]
@[simp] theorem Ctx.getT_setM (r : MReg) (w : Word) (q : TReg) : (c.setM r w).getT q = c.getT q := by
  unfold Ctx.getT; simp only [Ctx.setM_t]
@[simp] theorem Ctx.getX_setV (r : VReg) (w : Vec) (q : XReg) : (c.setV r w).getX q = c.getX q := by
  unfold Ctx.getX; simp only [Ctx.setV_x]
@[simp] theorem Ctx.getM_setV (r : VReg) (w : Vec) (q : MReg) : (c.setV r w).getM q = c.getM q := by
  unfold Ctx.getM; simp only [Ctx.setV_m]
@[simp] theorem Ctx.getT_setV (r : VReg) (w : Vec) (q : TReg) : (c.setV r w).getT q = c.getT q := by
  unfold Ctx.getT; simp only [Ctx.setV_t]
@[simp] theorem Ctx.getX_setT (r : TReg) (w : Tile) (q : XReg) : (c.setT r w).getX q = c.getX q := by
  unfold Ctx.getX; simp only [Ctx.setT_x]
@[simp] theorem Ctx.getM_setT (r : TReg) (w : Tile) (q : MReg) : (c.setT r w).getM q = c.getM q := by
  unfold Ctx.getM; simp only [Ctx.setT_m]
@[simp] theorem Ctx.getV_setT (r : TReg) (w : Tile) (q : VReg) : (c.setT r w).getV q = c.getV q := by
  unfold Ctx.getV; simp only [Ctx.setT_v]

end Sys2Proof.Machine
end

