-- ==== Sys2Proof/Laws/Tables.lean ====
section
/-! SUPPORT. Tables by number: a read after a write, and what the updates of cores, clusters, dies and owners leave of the others. -/

namespace Sys2Proof.Machine

/-- A table reads back what was put under a key, and everything else as before. -/
theorem tget_tset {α : Type} (d : α) (t : Tab α) (k j : Nat) (a : α) :
    tget d (tset t k a) j = if k = j then a else tget d t j := by
  induction t with
  | nil => rfl
  | cons p t ih =>
    obtain ⟨i, b⟩ := p
    by_cases hik : i = k
    · subst hik
      rw [tset, if_pos rfl]
      by_cases h : i = j <;> simp [tget, h]
    · rw [tset, if_neg hik]
      split
      · rfl
      · by_cases h : i = j
        · subst h
          rw [if_neg fun h => hik h.symm]
          simp [tget]
        · simp [tget, h, ih]

variable (s : State)

theorem State.coreSt_updCore (n k : Nat) (f : CoreSt → CoreSt) :
    (s.updCore n f).coreSt k = if n = k then f (s.coreSt n) else s.coreSt k := tget_tset _ _ _ _ _
theorem State.clusterSt_updCluster (n k : Nat) (f : ClusterSt → ClusterSt) :
    (s.updCluster n f).clusterSt k = if n = k then f (s.clusterSt n) else s.clusterSt k := tget_tset _ _ _ _ _
theorem State.dieSt_updDie (n k : Nat) (f : DieSt → DieSt) :
    (s.updDie n f).dieSt k = if n = k then f (s.dieSt n) else s.dieSt k := tget_tset _ _ _ _ _
theorem State.ownerSt_updOwner (n k : Nat) (f : OwnerSt → OwnerSt) :
    (s.updOwner n f).ownerSt k = if n = k then f (s.ownerSt n) else s.ownerSt k := tget_tset _ _ _ _ _

/-- An update reads back where it was made. -/
@[simp] theorem State.coreSt_updCore_same (n : Nat) (f : CoreSt → CoreSt) : (s.updCore n f).coreSt n = f (s.coreSt n) := by
  rw [coreSt_updCore, if_pos rfl]
@[simp] theorem State.clusterSt_updCluster_same (n : Nat) (f : ClusterSt → ClusterSt) :
    (s.updCluster n f).clusterSt n = f (s.clusterSt n) := by rw [clusterSt_updCluster, if_pos rfl]
@[simp] theorem State.dieSt_updDie_same (n : Nat) (f : DieSt → DieSt) : (s.updDie n f).dieSt n = f (s.dieSt n) := by
  rw [dieSt_updDie, if_pos rfl]
@[simp] theorem State.ownerSt_updOwner_same (n : Nat) (f : OwnerSt → OwnerSt) : (s.updOwner n f).ownerSt n = f (s.ownerSt n) := by
  rw [ownerSt_updOwner, if_pos rfl]

/-- A table without a key has nothing under it, and keeps the rest. -/
theorem tget_tdel {α : Type} (d : α) (t : Tab α) (k j : Nat) : tget d (tdel t k) j = if k = j then d else tget d t j := by
  unfold tdel
  induction t with
  | nil => by_cases h : k = j <;> simp [tget, h]
  | cons p t ih =>
    obtain ⟨i, b⟩ := p
    by_cases hik : i = k
    · subst hik
      rw [List.filter_cons_of_neg (by simp), ih]
      by_cases h : i = j <;> simp [tget, h]
    · rw [List.filter_cons_of_pos (by simp [hik])]
      by_cases h : i = j
      · subst h; rw [if_neg fun h => hik h.symm]; simp [tget]
      · simp [tget, h, ih]

end Sys2Proof.Machine
end

