-- ==== Sys2Proof/Laws/Reads.lean ====
section
/-! SUPPORT. What a read of the running context leaves: it touches only what `Reads` names, and what it needed is there for the next
one. -/

namespace Sys2Proof.Claim

open Machine

namespace Reads

theorem refl (s : State) : Reads s s := ⟨rfl, rfl, rfl, rfl, fun _ => rfl, fun _ => rfl, fun _ => rfl⟩

theorem trans {s t u : State} (h : Reads s t) (k : Reads t u) : Reads s u where
  context := by rw [k.context, h.context]
  package := by
    have := k.package
    rw [h.package] at this
    exact this
  flights := k.flights.trans h.flights
  home := by rw [k.home, h.home]
  owners o := by rw [k.owners, h.owners]
  dies d := by rw [k.dies, h.dies]
  cores c := by rw [k.cores, h.cores]

end Reads

/-- Owners that take the counters of others' draws keep everything else. -/
theorem owners_ctr (g : Nat → Tab Word) (os : List Nat) : ∀ (t : Tab OwnerSt) (o : Nat),
    ∃ c, tget {} (os.foldl (fun t o => tset t o { tget {} t o with ctr := g o }) t) o = { tget {} t o with ctr := c } := by
  induction os with
  | nil => exact fun t o => ⟨_, rfl⟩
  | cons p os ih =>
    intro t o
    obtain ⟨c, hc⟩ := ih (tset t p { tget {} t p with ctr := g p }) o
    refine ⟨c, ?_⟩
    rw [List.foldl_cons, hc, tget_tset]
    split
    · subst_vars; rfl
    · rfl

/-- An arbiter changes nothing that is on its way. -/
theorem arbitrate_net (s : State) (tab : List Share) (cls idx : Nat) (rs : List Request) :
    (arbitrate s tab cls idx rs).2.net = s.net := by
  simp only [arbitrate]
  repeat' split
  all_goals rfl

/-- Flights that change in nothing but their places. -/
theorem lupd_sameButPlace (p : Flight → Bool) (f : Flight → Flight) (hf : ∀ g, sameButPlace (f g) = sameButPlace g)
    (l : List Flight) : (lupd p f l).map sameButPlace = l.map sameButPlace := by
  rw [lupd, List.map_map]
  refine List.map_congr_left fun g _ => ?_
  simp only [Function.comp_apply]
  split
  · exact hf g
  · rfl

/-- A grant, and a rise in age, change nothing of a flight but its place. -/
theorem granted_same (s : State) (q : Nat × Nat) (g : Flight) : sameButPlace (g.granted s q) = sameButPlace g := rfl
theorem older_same (g : Flight) : sameButPlace { g with age := g.age + 1 } = sameButPlace g := rfl

/-- A grant opportunity changes nothing of the flights but their places (R334). -/
theorem opportunity_flights (s : State) (q : Nat × Nat) (here : List Flight) (own : Option Request) :
    (opportunity s q here own).2.net.flight.map sameButPlace = s.net.flight.map sameButPlace := by
  have ha := fun (tab : List Share) (i : Nat) (rs : List Request) => arbitrate_net s tab q.1 i rs
  simp only [opportunity]
  generalize lget [] (s.dieSt (queueDie q)).share q.1 = tab
  generalize (here.map fun g => (⟨g.oid, g.age, g.id⟩ : Request)) ++ own.toList = rs
  cases here with
  | nil =>
    have h := ha tab q.2 rs
    rcases hr : arbitrate s tab q.1 q.2 rs with ⟨_ | ⟨id, aged⟩, t⟩ <;> rw [hr] at h <;> simp only
    · exact congrArg (fun n => n.flight.map sameButPlace) h
    · refine (lupd_sameButPlace _ _ (granted_same _ q) _).trans ((lupd_sameButPlace _ _ older_same _).trans ?_)
      exact congrArg (fun n => n.flight.map sameButPlace) h
  | cons f fs =>
    have h := ha tab ((f.path.head?).getD q).2 rs
    rcases hr : arbitrate s tab q.1 ((f.path.head?).getD q).2 rs with ⟨_ | ⟨id, aged⟩, t⟩ <;> rw [hr] at h <;> simp only
    · exact congrArg (fun n => n.flight.map sameButPlace) h
    · refine (lupd_sameButPlace _ _ (granted_same _ q) _).trans ((lupd_sameButPlace _ _ older_same _).trans ?_)
      exact congrArg (fun n => n.flight.map sameButPlace) h

theorem grantRequest_flights (q : Nat × Nat) : ∀ (fuel : Nat) (r : Request) (s : State),
    (grantRequest q fuel r s).net.flight.map sameButPlace = s.net.flight.map sameButPlace
  | 0, _, _ => rfl
  | n + 1, r, s => by
    have h := opportunity_flights s q (waiting s q (mayGo s)) (some r)
    rw [grantRequest]
    rcases hr : opportunity s q (waiting s q (mayGo s)) (some r) with ⟨_ | ⟨id, aged⟩, t⟩ <;> rw [hr] at h <;> simp only
    · exact h
    · split
      · exact h
      · exact (grantRequest_flights q n _ t).trans h

theorem grants_flights (oid : Nat) : ∀ (path : List (Nat × Nat)) (s : State),
    (path.foldl (fun s q => s.grant oid q) s).net.flight.map sameButPlace = s.net.flight.map sameButPlace
  | [], _ => rfl
  | q :: path, s => (grants_flights oid path _).trans (grantRequest_flights q _ _ s)

theorem movedOn_flights {s t : State} (h : t.net.flight.map sameButPlace = s.net.flight.map sameButPlace) :
    (movedOn s t).map sameButPlace = s.net.flight.map sameButPlace := by
  unfold movedOn
  split
  · rfl
  · exact h

theorem pass_flights (s : State) (oid : Nat) (path : List (Nat × Nat)) :
    (s.pass oid path).net.flight.map sameButPlace = s.net.flight.map sameButPlace := movedOn_flights (grants_flights oid path s)

/-- Grants on the way of an access. -/
theorem pass_reads (s : State) (oid : Nat) (path : List (Nat × Nat)) : Reads s (s.pass oid path) where
  context := rfl
  package := rfl
  flights := pass_flights s oid path
  home := rfl
  owners o := by
    obtain ⟨x, hx⟩ := owners_ctr (fun o => ((path.foldl (fun s q => s.grant oid q) s).ownerSt o).ctr)
      (oid :: s.owners.map (·.1) ++ s.net.flight.map (·.oid)) s.owners o
    have h : (s.pass oid path).ownerSt o = { s.ownerSt o with ctr := x } := hx
    rw [h]
  dies _ := rfl
  cores _ := rfl

theorem countEv_net (s : State) (c : CtxId) (e n o l : Nat) : (s.countEv c e n o l).net = s.net := by
  unfold State.countEv
  repeat' split
  all_goals rfl

theorem farFill_flights (s : State) (key : Nat) (q : Quotas) (fresh : Copy) :
    (farFill s key q fresh).net.flight.map sameButPlace = s.net.flight.map sameButPlace := by
  have put (s : State) (k : Copy) : (s.putCopy k).net = s.net := rfl
  have drop (s : State) (a : CacheId) (l : Nat) : (s.dropCopy a l).net = s.net := rfl
  have draw (s : State) (o i : Nat) : (s.draw o 8 i).2.net = s.net := rfl
  unfold farFill
  dsimp only
  split
  · rfl
  · split
    · rw [put, drop]
      split
      · rw [pass_flights, draw]
      · rw [draw]
    · rw [put, draw]

/-- What a home slice does with a line changes nothing of the flights but their places. -/
theorem homeTouched_flights (s : State) (c : CtxId) (oid owner line : Nat) (write paid : Bool) :
    (homeTouched s c oid owner line write paid).net.flight.map sameButPlace = s.net.flight.map sameButPlace := by
  have put (s : State) (k : Copy) : (s.putCopy k).net = s.net := rfl
  have die (s : State) (d : Nat) (f : DieSt → DieSt) : (s.updDie d f).net = s.net := rfl
  unfold homeTouched
  dsimp only
  split
  · rfl
  · split
    · split <;> simp only [put, die]
    · rw [farFill_flights]
      split <;> simp only [die, countEv_net, pass_flights]

/-- A line that reaches its home slice is read. -/
theorem touchHome_reads (s : State) (c : CtxId) (oid owner line : Nat) (w paid : Bool) :
    Reads s (touchHome s c oid owner line w paid) where
  context := rfl
  package := rfl
  flights := by
    -- only the counters of owners and events, and the far tier's quotas, change before the flights are taken over
    exact movedOn_flights (homeTouched_flights s c oid owner line w paid)
  home := rfl
  owners o := by
    obtain ⟨x, hx⟩ := owners_ctr (fun o => ((homeTouched s c oid owner line w paid).ownerSt o).ctr)
      (owner :: oid :: s.owners.map (·.1) ++ s.net.flight.map (·.oid)) s.owners o
    have h : (touchHome s c oid owner line w paid).ownerSt o = { s.ownerSt o with ctr := x } := hx
    rw [h]
  dies d := by
    have h : (touchHome s c oid owner line w paid).dieSt d = if homeDie line = d then
        { s.dieSt (homeDie line) with farQuotas := ((homeTouched s c oid owner line w paid).dieSt (homeDie line)).farQuotas }
        else s.dieSt d := by
      show tget {} (tset s.dies (homeDie line) _) d = _
      exact tget_tset _ _ _ _ _
    rw [h]
    split
    · subst_vars; rfl
    · rfl
  cores k := by
    have h : (touchHome s c oid owner line w paid).coreSt k = if c.core = k then
        { s.coreSt c.core with perf := ((homeTouched s c oid owner line w paid).coreSt c.core).perf } else s.coreSt k := by
      show tget {} (tset s.cores c.core _) k = _
      exact tget_tset _ _ _ _ _
    rw [h]
    split
    · subst_vars; rfl
    · rfl

theorem response_reads (s : State) (i : Nat) : Reads s (s.response i) :=
  ⟨rfl, rfl, rfl, rfl, fun _ => rfl, fun _ => rfl, fun _ => rfl⟩

/-- An access to a line that travels to its home, and its response. -/
theorem reachHome_reads (s : State) (c : CtxId) (owner line : Nat) (arrived : Option Bool) :
    Reads s (reachHome s c owner line arrived) := by
  unfold reachHome reachFor
  refine Reads.trans ?_ (touchHome_reads _ _ _ _ _ _ _)
  repeat' split
  · exact .refl s
  · exact pass_reads _ _ _
  · exact pass_reads _ _ _

theorem heard_reads (s : State) (on : Bool) (i : Nat) : Reads s (s.heard on i) := by
  unfold State.heard
  split
  · exact response_reads s i
  · exact .refl s

/-- What was read ahead is forgotten. -/
theorem ahead_reads (s : State) (pa n k : Nat) : Reads s (s.onCx fun c => { c.dropEarly pa n with wrote := k }) :=
  ⟨rfl, rfl, rfl, rfl, fun _ => rfl, fun _ => rfl, fun _ => rfl⟩

/-- Whether an access on its way touches bytes does not depend on the places of the flights. -/
theorem ownFlight_same {s t : State} (h : t.net.flight.map sameButPlace = s.net.flight.map sameButPlace) (c : CtxId) (pa n : Nat)
    (own : ownFlight s c pa n = none) : ownFlight t c pa n = none := by
  refine List.find?_eq_none.2 fun f hf => ?_
  obtain ⟨g, hg, e⟩ := List.mem_map.1 (h ▸ List.mem_map_of_mem (f := sameButPlace) hf)
  have k := List.find?_eq_none.1 own g hg
  have e1 : g.ctx = f.ctx := (congrArg Flight.ctx e :)
  have e2 : g.pa = f.pa := (congrArg Flight.pa e :)
  have e3 : g.len = f.len := (congrArg Flight.len e :)
  rwa [e1, e2, e3] at k

/-- The translations, the marks, the accesses set aside and the firing are after a read what they were. -/
theorem Reads.kept {s t : State} (h : Reads s t) :
    (t.coreSt t.coreNo).tlb1 = (s.coreSt s.coreNo).tlb1 ∧ t.oid = s.oid ∧ t.who = s.who ∧ t.cur = s.cur ∧
    t.home.classes = s.home.classes ∧ t.home.marks = s.home.marks ∧ t.home.chanLost = s.home.chanLost ∧
    t.home.dieLost = s.home.dieLost ∧ t.home.cleared = s.home.cleared ∧ t.cx.aside = s.cx.aside ∧ t.mem = s.mem ∧
    t.cx.staged = s.cx.staged ∧ t.cx.staging = s.cx.staging ∧ ∀ o, (t.ownerSt o).isSealed = (s.ownerSt o).isSealed := by
  have hc : t.cur = s.cur := (congrArg State.cur h.package :)
  have hf : t.cx.fir = s.cx.fir := (congrArg Ctx.fir h.context :)
  have hr : t.cx.crs = s.cx.crs := (congrArg Ctx.crs h.context :)
  refine ⟨?_, ?_, ?_, hc, (congrArg HomeSt.classes h.home :), (congrArg HomeSt.marks h.home :),
    (congrArg HomeSt.chanLost h.home :), (congrArg HomeSt.dieLost h.home :), (congrArg HomeSt.cleared h.home :),
    (congrArg Ctx.aside h.context :), (congrArg State.mem h.package :), (congrArg Ctx.staged h.context :),
    (congrArg Ctx.staging h.context :), fun o => by rw [h.owners]⟩
  · rw [State.coreNo, State.coreNo, hc, h.cores]
  · rw [State.oid, State.oid, hf]
  · simp only [State.who, State.oid, hf, hr, hc]

/-- A page that an access reaches is reached after a read as well, where no frame was sealed meanwhile. -/
theorem Reaches.mono {s t : State} {va : Word} {n : Nat} {k : Kind} {l : Leaf} (h : Reads s t)
    (hs : t.home.sealTags = s.home.sealTags) (r : Reaches s va n k l) : Reaches t va n k l := by
  obtain ⟨ht, ho, hw, -, hc, -, -, -, -, -, -, -, -, hv⟩ := h.kept
  refine ⟨⟨r.page.1, ?_⟩, r.aligned, ?_, ?_, r.known, r.window, r.anchor⟩
  · have := r.page.2
    simp only [underOld, pageClass, ht, ho, hc] at this ⊢
    exact this
  · have := r.unsealed
    simp only [sealOk, hs, hw, hv] at this ⊢
    exact this
  · rw [hw]; exact r.allowed

/-- A line found at its home is found there after a read as well. -/
theorem AtHome.mono {s t : State} {l : Leaf} {n : Nat} (h : Reads s t) (a : AtHome s l n) : AtHome t l n := by
  obtain ⟨-, -, -, hu, -, hm, hl, hd, hk, hn, -, -, -, -⟩ := h.kept
  refine ⟨a.1, a.2.1, ?_, ?_⟩
  · have seed : (t.ownerSt l.owner).seed = (s.ownerSt l.owner).seed := by rw [h.owners]
    have := a.2.2.1
    simp only [marked, sliceKey, homeSlice, hm, hl, hd, hk, seed] at this ⊢
    exact this
  · have := a.2.2.2
    exact ⟨hu ▸ ownFlight_same h.flights _ _ _ this.1, by unfold AsideClear; rw [hn]; exact this.2⟩

/-- The checks pass for an access that reaches its page, and they leave the state as it was (R221). -/
theorem Reaches.check {s : State} {va : Word} {n : Nat} {k : Kind} {l : Leaf} (r : Reaches s va n k l) :
    s.check va n k = .ok (l, s) := by
  obtain ⟨e, he, hl⟩ := Option.map_eq_some_iff.1 r.page.2
  have ht : tlbTranslate s s.cur s.oid s.oid va = .ok (⟨e.entry, e.level, e.entryPa, leafPa e.entry e.level va⟩, s) := by
    have hlow : ¬(va.toNat ≥ 2 ^ 56) := by have := r.page.1; omega
    simp only [tlbTranslate, tlbTried, if_neg hlow]
    have : tlbLookup (s.coreSt s.cur.core).tlb1 s.oid va = some e := he
    rw [this]
  have htr : translate s s.cur s.oid va = .ok (l, s) := by
    rw [Machine.translate, ht]; simp only [Except.map, hl]
  have htr' : Machine.translate s s.cur s.who.oid va s.who.oid = .ok (l, s) := htr
  have ha : (n != 0 && va.toNat % n != 0) = false := by simp [r.aligned]
  have hw : (inWindow l.pa && l.cls != 2) = false := by
    cases hp : inWindow l.pa with
    | false => rfl
    | true => rw [r.window hp]; rfl
  have hcr : (l.cls == 3 && entryFmt l.entry == 3 && entryAnchor l.entry != 0) = false := by
    simp only [Bool.and_eq_false_imp, Bool.and_eq_true, beq_iff_eq, bne_eq_false_iff_eq]
    exact fun h => r.anchor h.1 h.2
  have hk : decide (5 ≤ l.cls.toNat) = false := by have := r.known; simp; omega
  simp only [State.check, Machine.check, ha, htr', r.unsealed, r.allowed, hw, hcr, hk, Chk.act, Bool.not_true,
    Bool.false_eq_true, if_false]

theorem reachFor_cx (s : State) (c : CtxId) (oid owner line : Nat) (arrived : Option Bool) :
    (reachFor s c oid owner line arrived).cx = s.cx := by
  unfold reachFor touchHome
  repeat' split
  all_goals rfl

/-- A read of a context that has read nothing ahead takes what is at hand. -/
theorem aheadBytes_none (c : Ctx) (va : Word) (n : Nat) (wit : Option Stamp) (bs : List Byte) (t : Nat) (h : c.early = []) :
    aheadBytes c va n wit bs t = (bs, t) := by simp [aheadBytes, h]

/-- No access of the context itself to the bytes is in the way of one that none of its accesses touches. -/
theorem busyWith_sm {s : State} {l : Leaf} {va : Word} {n : Nat} (hc : l.cls = clsSm) (h : InTurn s l.pa n) :
    busyWith s s.cur l va n = none := by
  have hn : (s.net.flight.find? fun f => f.ctx == s.cur && overlaps f.pa f.len l.pa n &&
      !(f.isLoad && f.first == (s.ctxOf s.cur).firstId)) = none := by
    refine List.find?_eq_none.2 fun f hf => ?_
    have := List.find?_eq_none.1 h.1 f hf
    simp_all
  have ha : ((s.ctxOf s.cur).aside.any fun a => a.touch.any fun t => overlaps t.1 t.2 l.pa n) = false := by
    rw [show s.ctxOf s.cur = s.cx by simp [State.ctxOf]]
    exact h.2
  have h3 : (l.cls == clsCr) = false := by rw [hc]; rfl
  have h4 : (l.cls == clsRepl) = false := by rw [hc]; rfl
  unfold busyWith
  simp only [h3, h4, hn, ha, Bool.false_eq_true, if_false]

/-- A load of bytes that lie at their home gives them as the firing sees them, or as it has read them ahead (R200, R203, R215,
R224). -/
theorem loadBytes_atHome {s : State} {va : Word} {n : Nat} {l : Leaf} (wit : Option Stamp) (na : Bool) (r : Reaches s va n .r l)
    (a : AtHome s l n) (hu : entrySealed l.entry = false) :
    ∃ t, loadBytes s va n wit na = .ok ((aheadBytes s.cx va n wit (seen s l.pa n) s.tick).1, t) ∧ Reads s t ∧
      t.home.sealTags = s.home.sealTags := by
  obtain ⟨hc, hp, hm, hf⟩ := a
  have hl : inLink l.pa = false := by
    have := hp; simp only [inWindow, Bool.or_eq_false_iff] at this; exact this.2
  let u := (reachHome s s.cur l.owner l.line).heard true (placeIdx s l.owner l.pa)
  have hx : aheadBytes u.cx va n wit (seen s l.pa n) u.tick = aheadBytes s.cx va n wit (seen s l.pa n) s.tick := by
    have he : u.cx.early = s.cx.early := by
      show (reachHome s s.cur l.owner l.line).cx.early = _
      rw [reachHome, reachFor_cx]
    have hr : u.cx.ready = s.cx.ready := by
      show (reachHome s s.cur l.owner l.line).cx.ready = _
      rw [reachHome, reachFor_cx]
    have ht : u.tick = s.tick := (congrArg State.tick (((reachHome_reads s s.cur l.owner l.line none).trans (heard_reads _ true _))).package :)
    simp only [aheadBytes, Ctx.sampled, he, hr, ht]
  refine ⟨u.onCx fun k => { k.dropEarly l.pa n with
      wrote := max k.wrote (aheadBytes u.cx va n wit (seen s l.pa n) u.tick).2 }, ?_, ?_, ?_⟩
  · rw [loadBytes, r.check, ← hx]
    simp only [bind, Except.bind, busyWith_sm hc hf, readNow, aheadLine, readBytes, behindPort, hc, hm, hp, hl, seen]
    simp [clsSm, clsPriv, clsRo, clsCr, State.sealFrame, hu, u, seen, State.onCx, reachHome]
    rfl
  · exact ((reachHome_reads s s.cur l.owner l.line none).trans (heard_reads _ true _)).trans ⟨rfl, rfl, rfl, rfl, fun _ => rfl, fun _ => rfl, fun _ => rfl⟩
  · show (reachHome s s.cur l.owner l.line).home.sealTags = _
    unfold reachHome reachFor touchHome
    repeat' split
    all_goals rfl

/-- A record of doublewords that lie at their home is read; what is seen in each of them depends on memory and the staged
stores, which no read changes, and on what was read ahead. -/
theorem loadWords_atHome (wit : Option Stamp) : ∀ (k : Nat) (s : State) (va : Word) (leaf : Nat → Leaf),
    (∀ i < k, Reaches s (va + BitVec.ofNat 64 (8 * i)) 8 .r (leaf i)) → (∀ i < k, AtHome s (leaf i) 8) →
    (∀ i < k, entrySealed (leaf i).entry = false) →
    ∃ bs t, loadWords s va wit k = .ok (bs, t) ∧ Reads s t ∧ t.home.sealTags = s.home.sealTags
  | 0, s, _, _, _, _, _ => ⟨[], s, rfl, .refl s, rfl⟩
  | k + 1, s, va, leaf, r, a, u => by
    have r0 : Reaches s va 8 .r (leaf 0) := by simpa using r 0 (by omega)
    obtain ⟨t, h1, h2, h3⟩ := loadBytes_atHome wit false r0 (a 0 (by omega)) (u 0 (by omega))
    obtain ⟨bs, w, h4, h5, h6⟩ := loadWords_atHome wit k t (va + 8) (fun i => leaf (i + 1))
      (fun i hi => by
        have := (r (i + 1) (by omega)).mono h2 h3
        have e : va + BitVec.ofNat 64 (8 * (i + 1)) = va + 8 + BitVec.ofNat 64 (8 * i) := by
          rw [show 8 * (i + 1) = 8 + 8 * i by omega, BitVec.ofNat_add, BitVec.add_assoc]; rfl
        rwa [e] at this)
      (fun i hi => (a (i + 1) (by omega)).mono h2) (fun i hi => u (i + 1) (by omega))
    exact ⟨(aheadBytes s.cx va 8 wit (seen s (leaf 0).pa 8) s.tick).1 ++ bs, w, by rw [loadWords, h1]; simp only [bind, Except.bind, h4], h2.trans h5, by rw [h6, h3]⟩

end Sys2Proof.Claim
end

