-- ==== Sys2Proof/Laws/Writes.lean ====
section
/-! SUPPORT. How the shared endings of an instruction leave the state, in the terms of Safety: one lemma for each. -/

namespace Sys2Proof.Claim

open Machine

/-- The ending of an instruction that writes a scalar register. -/
theorem putX_writes (s : State) (d : XReg) (w : Word) : WritesX s (putX s d w) d w where
  value := by
    show (s.cx.setX d w).getX d = _
    rw [Ctx.getX_setX]
    by_cases h : d = 0
    · subst h; simp
    · rw [if_pos ⟨rfl, h⟩, if_neg h]
  others q hq := by
    show (s.cx.setX d w).getX q = _
    rw [Ctx.getX_setX, if_neg fun h => hq h.1]; rfl
  pending := by
    show (s.cx.setX d w).pend = _
    unfold Ctx.setX; split <;> rfl
  late l h := by
    have h : l ∈ (s.cx.setX d w).late := h
    unfold Ctx.setX at h
    split at h
    · exact h
    · exact (List.mem_filter.1 h).1
  stays l h hl := by
    show l ∈ (s.cx.setX d w).late
    unfold Ctx.setX
    split
    · exact h
    · exact List.mem_filter.2 ⟨h, by simp [hl]⟩
  next := by show (s.cx.setX d w).npc = _; simp
  rest := by
    show putX s d w = _
    unfold putX State.setX State.advance State.setPc Ctx.setX
    split <;> rfl

/-- The ending of an instruction that writes a mask register. -/
theorem putM_writes (s : State) (d : MReg) (w : Word) (f : Nat) :
    WritesM s ((putM s d w).flags f) d w (BitVec.ofNat 64 (f % 64)) where
  value := by
    show (s.cx.setM d w).getM d = _
    rw [Ctx.getM_setM]
    by_cases h : d = 0
    · subst h; simp
    · rw [if_pos ⟨rfl, h⟩, if_neg h]
  others q hq := by
    show (s.cx.setM d w).getM q = _
    rw [Ctx.getM_setM, if_neg fun h => hq h.1]; rfl
  flags := by
    show ((putM s d w).flags f).cx.crs = { s.cx.crs with fstat := s.cx.crs.fstat ||| BitVec.ofNat 64 (f % 64) }
    have h : (putM s d w).cx.crs = s.cx.crs := Ctx.setM_crs _ _ _
    unfold State.flags State.onCx
    simp only [h]
  next := by show (s.cx.setM d w).npc = _; simp
  rest := by
    show (putM s d w).flags f = _
    unfold State.flags State.onCx putM State.setM State.advance State.setPc Ctx.setM
    split <;> rfl

/-- The ending of an instruction that writes a mask register and raises no flag. -/
theorem putM_writes_quiet (s : State) (d : MReg) (w : Word) : WritesM s (putM s d w) d w 0 where
  value := (putM_writes s d w 0).value
  others := (putM_writes s d w 0).others
  flags := by
    show (s.cx.setM d w).crs = _
    rw [Ctx.setM_crs]; simp
  next := (putM_writes s d w 0).next
  rest := by
    show putM s d w = _
    unfold putM State.setM State.advance State.setPc Ctx.setM
    split <;> rfl

/-- The ending of an instruction that writes a vector register and raises flags. -/
theorem putV_writes (s : State) (d : VReg) (w : Vec) (f : Nat) :
    WritesV s ((putV s d w).flags f) d w (BitVec.ofNat 64 (f % 64)) where
  value := by
    show (s.cx.setV d w).getV d = _
    rw [Ctx.getV_setV, if_pos rfl]
  others q hq := by
    show (s.cx.setV d w).getV q = _
    rw [Ctx.getV_setV, if_neg hq]; rfl
  flags := rfl
  late _ h := (List.mem_filter.1 h).1
  stays _ h hl := List.mem_filter.2 ⟨h, by simp [hl]⟩
  next := rfl
  rest := rfl

/-- The ending of an instruction that writes a vector register and raises no flag. -/
theorem putV_writes_quiet (s : State) (d : VReg) (w : Vec) : WritesV s (putV s d w) d w 0 where
  value := (putV_writes s d w 0).value
  others := (putV_writes s d w 0).others
  flags := by show s.cx.crs = _; simp
  late := (putV_writes s d w 0).late
  stays := (putV_writes s d w 0).stays
  next := rfl
  rest := rfl

/-- A trap at an instruction. -/
theorem finish_trap (s : State) (c : Cause) (addr val : Option Word) :
    Traps (finish s (.error (.trap c addr val))) s c addr val := by
  unfold Traps finish
  by_cases h : s.cur.which = 2
  · simp only [h, if_true]
  · simp only [h, if_false]

/-- A wait that leaves nothing behind. -/
theorem finish_wait (s : State) (w : Wait) : Waits (finish s (.error (.wait w none))) s w := rfl

end Sys2Proof.Claim
end

