-- ==== Sys2Proof/Tests/Slice0.lean ====
section
/-! SUPPORT. Tests of the model: ill-formed terms refused, words decoded, the hypotheses of the statements met, and single steps. Expected
results come from spec/: its encoding tables, its examples, or a rule worked out by hand. -/

namespace Sys2Proof.Tests

open Machine Claim

set_option Elab.async false

/-! ### Well-formedness: one ill-formed term for each check -/

/-- R36, R41: an operand beyond the IMX words that the chain has room for. -/
theorem test_wf_signed_operand : (Instr.ld 1 2 .w (2 ^ 29) true).wf = false ∧ (Instr.ld 1 2 .w (2 ^ 19 - 1) true).wf = true := by decide
theorem test_wf_branch_operand : (Instr.br (2 ^ 49)).wf = false ∧ (Instr.br (2 ^ 49 - 1)).wf = true := by decide
theorem test_wf_unsigned_operand : (Instr.brk (2 ^ 50)).wf = false ∧ (Instr.brk (2 ^ 50 - 1)).wf = true := by decide
theorem test_wf_room : (Instr.mma 1 2 3 (2 ^ 20)).wf = false ∧ (Instr.mma 1 2 0 (2 ^ 20)).wf = true := by decide
/-- R295: the immediate of BARA has five bits. -/
theorem test_wf_barrier : (Instr.bara 32).wf = false ∧ (Instr.bara 31).wf = true := by decide
/-- The rows that an immediate selects: SEED_INSTALL is CWR of 0x43, ATTEST_DECAPSULATE is ATTEST #1. -/
theorem test_wf_selected_rows : (Instr.cwr 1 67).wf = false ∧ (Instr.attestReport 1 2 3 1).wf = false := by decide
/-- Events name units that the package has. -/
theorem test_wf_contexts : (Instr.trapEntry ⟨2304, 0⟩).wf = false ∧ (Instr.trapEntry ⟨0, 3⟩).wf = false := by decide
theorem test_wf_caches : (Instr.leaseExpiry (.near 288) 0).wf = false ∧ (Instr.leaseExpiry (.l1 2304) 0).wf = false ∧
    (Instr.dirtyWriteback (.far 1152) 0).wf = false := by decide
theorem test_wf_places : (Instr.crFold 9 0).wf = false ∧ (Instr.coreFail 2304).wf = false ∧ (Instr.copyStart 288).wf = false ∧
    (Instr.suspendedResume 256 0).wf = false ∧ (Instr.barrierTimeout 0 16).wf = false ∧ (Instr.homeSliceFail 0 128 true).wf = false := by
  decide
theorem test_wf_inbound : (Instr.inboundRequest ⟨17, 0, 0, .read 1⟩).wf = false := by decide

/-! ### Decoding: every row from words laid out from the tables of spec/03_opcode_map.md and the fields of R35 to R41 -/

/-- Each list of words decodes to its instruction, with no word left. -/
def reads (t : List (List Half × Instr)) : Bool := t.all fun p => (decodeWords p.1).toOption == some (p.2, [])

/-- R61: nop to rem, each from its words. -/
theorem test_decode_page0_nop_to_rem :
    reads [
      ([0x0000], .nop),
      ([0x0506], .mov 8 6),
      ([0x091D], .li 8 (-3)),
      ([0x0D09], .lih 8 9),
      ([0xF4E2, 0x1106], .add 8 6 7 .h),
      ([0xF4E2, 0x1506], .sub 8 6 7 .h),
      ([0xF4E2, 0x1D06], .mul 8 6 7 .h),
      ([0xF4E2, 0x2106], .mulh 8 6 7 .h),
      ([0xF4E2, 0x2506], .mulhu 8 6 7 .h),
      ([0xF4E2, 0x2906], .div 8 6 7 .h),
      ([0xF4E2, 0x2D06], .divu 8 6 7 .h),
      ([0xF4E2, 0x3106], .rem 8 6 7 .h)] = true := by decide

/-- R61: remu to maxu, each from its words. -/
theorem test_decode_page0_remu_to_maxu :
    reads [
      ([0xF4E2, 0x3506], .remu 8 6 7 .h),
      ([0xF4E0, 0x3906], .and 8 6 7),
      ([0xF4E0, 0x3D06], .or 8 6 7),
      ([0xF4E0, 0x4106], .xor 8 6 7),
      ([0xF4E2, 0x4D06], .shl 8 6 7 .h),
      ([0xF4E2, 0x5106], .shr 8 6 7 .h),
      ([0xF4E2, 0x5506], .sra 8 6 7 .h),
      ([0xF4E2, 0x6506], .rotl 8 6 7 .h),
      ([0xF4E2, 0x7106], .min 8 6 7 .h),
      ([0xF4E2, 0x7506], .max 8 6 7 .h),
      ([0xF4E2, 0x7906], .minu 8 6 7 .h),
      ([0xF4E2, 0x7D06], .maxu 8 6 7 .h)] = true := by decide

/-- R61: seq to popc, each from its words. -/
theorem test_decode_page0_seq_to_popc :
    reads [
      ([0xF4E2, 0x8106], .seq 8 6 7 .h),
      ([0xF4E2, 0x8506], .slt 8 6 7 .h),
      ([0xF4E2, 0x8906], .sltu 8 6 7 .h),
      ([0xF402, 0x191D], .addi 8 .h (-3)),
      ([0x451D], .andi 8 (-3)),
      ([0x491D], .ori 8 (-3)),
      ([0xF402, 0x5909], .shli 8 .h 9),
      ([0xF402, 0x5D09], .shri 8 .h 9),
      ([0xF402, 0x6109], .srai 8 .h 9),
      ([0xF402, 0x8D1D], .slti 8 .h (-3)),
      ([0xF402, 0x6906], .clz 8 6 .h),
      ([0xF402, 0x6D06], .popc 8 6 .h)] = true := by decide

/-- R61: sel to call, each from its words. -/
theorem test_decode_page0_sel_to_call :
    reads [
      ([0xF4E0, 0x9106], .sel 8 6 7),
      ([0xF009, 0xF402, 0xF802, 0x9506], .ld 8 6 .h 9 true),
      ([0xF009, 0xF402, 0xF802, 0x9906], .ldx 8 6 .h 9 true),
      ([0xF009, 0xF4E2, 0xF82A, 0x9D06], .st 8 6 7 .h 9 (some .die) true),
      ([0xF009, 0xF4E2, 0xF802, 0xA106], .ldw 8 6 7 .h 9 true),
      ([0xF4E0, 0xA506], .wmax 8 6 7),
      ([0xAAD4], .br (-300)),
      ([0xAD1D], .bz 8 (-3)),
      ([0xB109], .bnz 8 9),
      ([0xB509], .bltz 8 9),
      ([0xB909], .bgez 8 9),
      ([0xBC09], .call 9)] = true := by decide

/-- R61: callr to sys, each from its words. -/
theorem test_decode_page0_callr_to_sys :
    reads [
      ([0xC100], .callr 8),
      ([0xC500], .jr 8),
      ([0xF009, 0xC906], .jtab 8 6 9),
      ([0xF401, 0xCCA9], .bany 5 .s16 9),
      ([0xF401, 0xD0A9], .bnone 5 .s16 9),
      ([0xF401, 0xD4A9], .ball 5 .s16 9),
      ([0xD906], .mrd 8 6),
      ([0xDCA6], .mwr 5 6),
      ([0xE100], .time 8),
      ([0xE409], .brk 9),
      ([0xE809], .sys 9)] = true := by decide

/-- R62: vmov to vperm, each from its words. -/
theorem test_decode_page1_vmov_to_vperm :
    reads [
      ([0xF409, 0xF843, 0x0103], .vmov 40 3 .s16 3),
      ([0xF409, 0xF843, 0x0506], .vbcast 40 6 .s16 3),
      ([0xF009, 0xF401, 0xF843, 0x0903], .vext 8 3 .s16 9 3),
      ([0xF009, 0xF409, 0xF843, 0x0D06], .vins 40 6 .s16 9 3),
      ([0xF009, 0xF409, 0xF843, 0x1106], .vld 40 6 .s16 9 3),
      ([0xF009, 0xF4E9, 0xF843, 0x1506], .vst 40 6 7 .s16 9 3),
      ([0xF009, 0xF4E9, 0xF843, 0x1906], .vlds 40 6 7 .s16 9 3),
      ([0xF009, 0xF7B9, 0xF843, 0x1D06], .vgath 40 6 61 .s16 9 3),
      ([0xF009, 0xF7B9, 0xF843, 0x2106], .vscat 40 6 61 .s16 9 3),
      ([0xF409, 0xF843, 0x2503], .vlsr 40 3 .s16 3),
      ([0xF409, 0xF843, 0x2903], .vlsw 40 3 .s16 3),
      ([0xF7B9, 0xF843, 0x2D03], .vperm 40 3 61 .s16 3)] = true := by decide

/-- R62: vrot to vshr, each from its words. -/
theorem test_decode_page1_vrot_to_vshr :
    reads [
      ([0xF009, 0xF409, 0xF843, 0x3103], .vrot 40 3 .s16 9 3),
      ([0xF7B9, 0xF84B, 0x3503], .vadd 40 3 61 .s16 true 3),
      ([0xF7B9, 0xF84B, 0x3903], .vsub 40 3 61 .s16 true 3),
      ([0xF7B9, 0xF84B, 0x3D03], .vmul 40 3 61 .s16 true 3),
      ([0xF7B9, 0xF843, 0x4103], .vmulh 40 3 61 .s16 3),
      ([0xF7B9, 0xF843, 0x4503], .vmin 40 3 61 .s16 3),
      ([0xF7B9, 0xF843, 0x4903], .vmax 40 3 61 .s16 3),
      ([0xF7B9, 0xF843, 0x4D03], .vand 40 3 61 .s16 3),
      ([0xF7B9, 0xF843, 0x5103], .vor 40 3 61 .s16 3),
      ([0xF7B9, 0xF843, 0x5503], .vxor 40 3 61 .s16 3),
      ([0xF7B9, 0xF84B, 0x5903], .vshl 40 3 61 .s16 true 3),
      ([0xF7B9, 0xF843, 0x5D03], .vshr 40 3 61 .s16 3)] = true := by decide

/-- R62: vsra to vfmin, each from its words. -/
theorem test_decode_page1_vsra_to_vfmin :
    reads [
      ([0xF7B9, 0xF843, 0x6103], .vsra 40 3 61 .s16 3),
      ([0xF009, 0xF7B1, 0xF843, 0x64A3], .vcmp 5 3 61 .s16 9 3),
      ([0xF7B9, 0xF843, 0x6903], .vsel 40 3 61 .s16 3),
      ([0xF009, 0xF7B8, 0xF84B, 0x6D03], .vdot4 40 3 61 9 true 3),
      ([0xF7B9, 0xF84B, 0x7103], .vmac 40 3 61 .s16 true 3),
      ([0xF7B9, 0xF86B, 0x7503], .vrshr 40 3 61 .s16 .rna 3),
      ([0xF7B9, 0xF843, 0x7903], .vclamp 40 3 61 .s16 3),
      ([0xF7B9, 0xF86B, 0x7D03], .vfadd 40 3 61 .s16 .rna 3),
      ([0xF7B9, 0xF86B, 0x8103], .vfsub 40 3 61 .s16 .rna 3),
      ([0xF7B9, 0xF86B, 0x8503], .vfmul 40 3 61 .s16 .rna 3),
      ([0xF7B9, 0xF86B, 0x8903], .vfma 40 3 61 .s16 .rna 3),
      ([0xF7B9, 0xF843, 0x8D03], .vfmin 40 3 61 .s16 3)] = true := by decide

/-- R62: vfmax to mlog, each from its words. -/
theorem test_decode_page1_vfmax_to_mlog :
    reads [
      ([0xF7B9, 0xF843, 0x9103], .vfmax 40 3 61 .s16 3),
      ([0xF409, 0xF86B, 0x9503], .vfrcp 40 3 .s16 .rna 3),
      ([0xF409, 0xF86B, 0x9903], .vfrsq 40 3 .s16 .rna 3),
      ([0xF409, 0xF86B, 0x9D03], .vfexp2 40 3 .s16 .rna 3),
      ([0xF009, 0xF408, 0xF86B, 0xA103], .vcvt 40 3 9 .rna 3),
      ([0xF409, 0xF84B, 0xA503], .vredadd 40 3 .s16 true 3),
      ([0xF409, 0xF843, 0xA903], .vredmax 40 3 .s16 3),
      ([0xF409, 0xF86B, 0xAD03], .vfred 40 3 .s16 .rna 3),
      ([0xF009, 0xF4E1, 0xF843, 0xB0A6], .mlog 5 6 7 .s16 9 3)] = true := by decide

/-- R63: mgang to crflush, each from its words. -/
theorem test_decode_page2_mgang_to_crflush :
    reads [
      ([0xF880, 0x0009], .mgang 9),
      ([0xF009, 0xF4E0, 0xF880, 0x0506], .mma 8 6 7 9),
      ([0xF009, 0xF4E0, 0xF880, 0x0906], .mmas 8 6 7 9),
      ([0xF009, 0xF4E0, 0xF880, 0x0D06], .mmat 8 6 7 9),
      ([0xF009, 0xF4E0, 0xF880, 0x1046], .tld 2 6 7 9),
      ([0xF009, 0xF4E0, 0xF880, 0x1446], .tst 2 6 7 9),
      ([0xF880, 0x1840], .tzero 2),
      ([0xF880, 0x1C09], .mhint 9),
      ([0xF880, 0x2100], .mwait 8),
      ([0xF009, 0xF4E0, 0xF880, 0x2506], .mstat 8 6 7 9),
      ([0xF4E0, 0xF880, 0x2906], .crclr 8 6 7),
      ([0xF4E0, 0xF880, 0x2D06], .crflush 8 6 7)] = true := by decide

/-- R63: crrd to cradd, each from its words. -/
theorem test_decode_page2_crrd_to_cradd :
    reads [
      ([0xF4E8, 0xF8A0, 0x3106], .crrd 40 6 7 true),
      ([0xF4E8, 0xF880, 0x3506], .cradd 40 6 7)] = true := by decide

/-- R64: amoadd to mxacc, each from its words. -/
theorem test_decode_page3_amoadd_to_mxacc :
    reads [
      ([0xF4E1, 0xF8E8, 0x0106], .amoadd 8 6 7 .w (some .die)),
      ([0xF4E1, 0xF8E8, 0x0506], .amoand 8 6 7 .w (some .die)),
      ([0xF4E1, 0xF8E8, 0x0906], .amoor 8 6 7 .w (some .die)),
      ([0xF4E1, 0xF8E8, 0x0D06], .amoxor 8 6 7 .w (some .die)),
      ([0xF4E1, 0xF8E8, 0x1106], .amomin 8 6 7 .w (some .die)),
      ([0xF4E1, 0xF8E8, 0x1506], .amomax 8 6 7 .w (some .die)),
      ([0xF4E1, 0xF8E8, 0x1906], .amominu 8 6 7 .w (some .die)),
      ([0xF4E1, 0xF8E8, 0x1D06], .amomaxu 8 6 7 .w (some .die)),
      ([0xF4E1, 0xF8E8, 0x2106], .amoswp 8 6 7 .w (some .die)),
      ([0xF4E1, 0xF8E8, 0x2506], .amocas 8 6 7 .w (some .die)),
      ([0xF4E1, 0xF8E8, 0x2906], .amofadd 8 6 7 .w (some .die)),
      ([0xF009, 0xF4E9, 0xF8E8, 0x2D06], .mxacc 40 6 7 .w 9 (some .die))] = true := by decide

/-- R64: prf to pclr, each from its words. -/
theorem test_decode_page3_prf_to_pclr :
    reads [
      ([0xF009, 0xF8EA, 0x3006], .prf 6 9 (some .die) true),
      ([0xF8C0, 0x3506], .wtest 8 6),
      ([0xF8C0, 0x3806], .wwait 6),
      ([0xF8C0, 0x3D00], .wfront 8),
      ([0xF009, 0xF8C0, 0x4106], .sca 8 6 9),
      ([0xF009, 0xF4E0, 0xF8C0, 0x4500], .nrd 8 7 9),
      ([0xF009, 0xF4E0, 0xF8C0, 0x4906], .nwait 8 6 7 9),
      ([0xF8E8, 0x4D06], .pclr 8 6 (some .die))] = true := by decide

/-- R65: balloc to sunbind, each from its words. -/
theorem test_decode_page4_balloc_to_sunbind :
    reads [
      ([0xF4E0, 0xF900, 0x0106], .balloc 8 6 7),
      ([0xF900, 0x0406], .bfree 6),
      ([0xF4E0, 0xF900, 0x0806], .bgive 6 7),
      ([0xF4E0, 0xF900, 0x0C06], .bexportStart 6 7),
      ([0xF4E0, 0xF900, 0x0C06], .bexportStart 6 7),
      ([0xF009, 0xF408, 0xF900, 0x1106], .spld 40 6 9),
      ([0xF009, 0xF408, 0xF900, 0x1506], .spst 40 6 9),
      ([0xF4E0, 0xF92A, 0x1906], .cpy 8 6 7 (some .die) true),
      ([0xF4E0, 0xF92A, 0x1D06], .cpym 8 6 7 (some .die) true),
      ([0xF4E0, 0xF92A, 0x2106], .cpyr 8 6 7 (some .die) true),
      ([0xF4E8, 0xF902, 0x2506], .sbind 40 6 7 true),
      ([0xF408, 0xF900, 0x2900], .sunbind 40)] = true := by decide

/-- R65: lndset to spstat, each from its words. -/
theorem test_decode_page4_lndset_to_spstat :
    reads [
      ([0xF4E0, 0xF900, 0x2D06], .lndset 8 6 7),
      ([0xF4E0, 0xF900, 0x3106], .lndwait 8 6 7),
      ([0xF900, 0x3506], .lndrelBuffer 8 6),
      ([0xF900, 0x3506], .lndrelBuffer 8 6),
      ([0xF4E0, 0xF900, 0x3906], .waita 8 6 7),
      ([0xF009, 0xF900, 0x3D06], .spstat 8 6 9)] = true := by decide

/-- R66: spawn to barw, each from its words. -/
theorem test_decode_page5_spawn_to_barw :
    reads [
      ([0xF4E0, 0xF940, 0x0106], .spawn 8 6 7),
      ([0xF940, 0x0400], .endf),
      ([0xF4E0, 0xF940, 0x0906], .arm 8 6 7),
      ([0xF940, 0x0D06], .disarm 8 6),
      ([0xF968, 0x1106], .cntadd 8 6 (some .die)),
      ([0xF4E0, 0xF940, 0x1506], .cntrd 8 6 7),
      ([0xF009, 0xF4E0, 0xF940, 0x1906], .lvopen 8 6 7 9),
      ([0xF4E0, 0xF940, 0x1D06], .lvwait 8 6 7),
      ([0xF940, 0x2006], .lvcancel 6),
      ([0xF4E0, 0xF940, 0x2506], .lvstat 8 6 7),
      ([0xF940, 0x2809], .bara 9),
      ([0xF940, 0x2D09], .barw 8 9)] = true := by decide

/-- R66: barcfg to self, each from its words. -/
theorem test_decode_page5_barcfg_to_self :
    reads [
      ([0xF4E0, 0xF940, 0x3106], .barcfg 8 6 7),
      ([0xF940, 0x3506], .hspawn 8 6),
      ([0xF940, 0x3800], .hstop),
      ([0xF940, 0x3C00], .expose),
      ([0xF940, 0x4000], .yieldf),
      ([0xF009, 0xF940, 0x4500], .self 8 9)] = true := by decide

/-- R67: crd to trcctlGrant, each from its words. -/
theorem test_decode_page6_crd_to_trcctlGrant :
    reads [
      ([0xF980, 0x0109], .crd 8 9),
      ([0xF980, 0x0509], .cwr 8 9),
      ([0xF002, 0xF980, 0x0503], .seedInstall 8),
      ([0xF980, 0x0800], .tret),
      ([0xF4E0, 0xF9A8, 0x0C06], .tlbinv 6 7 (some .die)),
      ([0xF4E0, 0xF980, 0x1106], .tlbprobe 8 6 7),
      ([0xF980, 0x1506], .pmapw 8 6),
      ([0xF4E0, 0xF980, 0x1906], .pmaprd 8 6 7),
      ([0xF980, 0x1C09], .trcmark 9),
      ([0xF4E0, 0xF980, 0x2106], .trcctlOpen 8 6 7),
      ([0xF4E0, 0xF980, 0x2106], .trcctlOpen 8 6 7),
      ([0xF4E0, 0xF980, 0x2106], .trcctlOpen 8 6 7)] = true := by decide

/-- R67: trcctlWithdraw to idle, each from its words. -/
theorem test_decode_page6_trcctlWithdraw_to_idle :
    reads [
      ([0xF4E0, 0xF980, 0x2106], .trcctlOpen 8 6 7),
      ([0xF4E0, 0xF980, 0x2106], .trcctlOpen 8 6 7),
      ([0xF980, 0x2506], .mpass 8 6),
      ([0xF4E0, 0xF980, 0x2906], .evsel 8 6 7),
      ([0xF980, 0x2D06], .evrd 8 6),
      ([0xF4E0, 0xF980, 0x3106], .rplctlStop 8 6 7),
      ([0xF4E0, 0xF980, 0x3106], .rplctlStop 8 6 7),
      ([0xF4E0, 0xF980, 0x3106], .rplctlStop 8 6 7),
      ([0xF4E0, 0xF980, 0x3106], .rplctlStop 8 6 7),
      ([0xF4E0, 0xF980, 0x3506], .ctxsave 8 6 7),
      ([0xF4E0, 0xF980, 0x3906], .ctxload 8 6 7),
      ([0xF980, 0x3C00], .idle)] = true := by decide

/-- R68: reseed to attestDecapsulate, each from its words. -/
theorem test_decode_page7_reseed_to_attestDecapsulate :
    reads [
      ([0xF4E0, 0xF9C0, 0x0106], .reseed 8 6 7),
      ([0xF4E0, 0xF9C0, 0x0506], .xq 8 6 7),
      ([0xF4E0, 0xF9C0, 0x0906], .xdraw 8 6 7),
      ([0xF9C0, 0x0D06], .daccrd 8 6),
      ([0xF9C0, 0x1006], .daccclr 6),
      ([0xF9C0, 0x1506], .umrd 8 6),
      ([0xF4E0, 0xF9C0, 0x1906], .qset 8 6 7),
      ([0xF9C0, 0x1D06], .qrd 8 6),
      ([0xF4E8, 0xF9C0, 0x2106], .measure 40 6 7),
      ([0xF009, 0xF4E0, 0xF9C0, 0x2506], .attestReport 8 6 7 9),
      ([0xF001, 0xF4E0, 0xF9C0, 0x2506], .attestDecapsulate 8 6 7)] = true := by decide

/-! ### States for the tests -/

/-- Owner 0's firing in S mode, at address 0 of an SM page, about to execute NOP; the owner's seed is 0, so that draws can be computed. -/
def base : State := (State.reset.withFetchWord 16 0).updOwner 0 fun o => { o with seed := 0 }

/-- `s` with some scalar registers of the running context set. -/
def withX (s : State) (l : List (Nat × Word)) : State :=
  s.onCx fun k => { k with x := l.foldl (fun x p => x.set! p.1 p.2) k.x }

/-- A present level-0 entry of a class and a format, readable, writable and executable in every mode, whose frame is at 0x10000. -/
def entryOf (cls fmt : Nat) : Word := BitVec.ofNat 64 (2 ^ 63 + cls * 2 ^ 60 + fmt * 2 ^ 58 + 15 * 2 ^ 52 + 0x10000)

/-- `base` with address 0x10000 mapped by an entry, x6 holding that address plus `off`, and other registers set. -/
def paged (e : Word) (off : Nat) (l : List (Nat × Word)) : State :=
  withX (base.updCore 0 fun k => { k with tlb1 := ⟨0, 0, 1, e, 0⟩ :: k.tlb1 }) ((6, BitVec.ofNat 64 (0x10000 + off)) :: l)

/-- The leaf that the page of `paged` gives. -/
def leafOf (e : Word) (off : Nat) : Leaf := ⟨e, 0, 0, 0x10000 + off⟩

/-- SM, PRIV, RO, CR (fixed point, 32 bits) and REPL pages. -/
def sm : Word := entryOf 2 0
def priv : Word := entryOf 0 0
def ro : Word := entryOf 1 0
def cr : Word := entryOf 3 0
def repl : Word := entryOf 4 0

/-- `base` in the mode and with the control registers given. -/
def withCrs (f : Crs → Crs) (s : State) : State := s.onCx fun k => { k with crs := f k.crs }

/-- Whether a computation answers, and its answer has a property. -/
def answers {ε α : Type} (x : Except ε α) (p : α → Bool) : Bool :=
  match x with
  | .ok a => p a
  | .error _ => false

theorem answers_iff {ε α : Type} (x : Except ε α) (p : α → Bool) : answers x p = true ↔ ∃ a, x = .ok a ∧ p a = true := by
  cases x <;> simp [answers]

/-! ### The hypotheses of the statements are met, clause by clause -/

section Witnesses

theorem test_witness_Division_zero : low .d (base.getX 6) = 0 := by decide
theorem test_witness_Division_overflow :
    let s := withX base [(6, 0x8000), (7, 0xFFFF)]
    (low .h (s.getX 6)).toInt = -(2 ^ (Size.bits .h - 1)) ∧ (low .h (s.getX 7)).toInt = -1 := by decide
theorem test_witness_Division_plain :
    let s := withX base [(6, 0x8000), (7, 0xFFFE)]
    low .h (s.getX 7) ≠ 0 ∧ ¬((low .h (s.getX 6)).toInt = -(2 ^ (Size.bits .h - 1)) ∧ (low .h (s.getX 7)).toInt = -1) := by decide
theorem test_witness_Shifts : (31 : Word).toNat < Size.bits .w ∧ Size.bits .w ≤ (32 : Word).toNat := by decide
theorem test_witness_WitnessMerge :
    let ok := fun (w : Word) => w.extractLsb' 48 12 = 0 ∧ (w.extractLsb' 60 3).toNat ≤ 4
    ok 0 ∧ ok 0xC000000000000001 ∧ (0xC000000000000001 : Word).getLsbD 63 = true ∧ (0 : Word).getLsbD 63 = false ∧
      ¬ok 0xD000000000000000 ∧ ¬ok 0x0001000000000000 := by decide
theorem test_witness_CallsAndJumps : (base.getX 6).getLsbD 0 = false ∧ ((withX base [(6, 1)]).getX 6).getLsbD 0 = true := by decide
theorem test_witness_BreakSysAndReturn :
    let s := withCrs fun r => { r with inh := true }
    base.cur.which ≠ 2 ∧ base.cx.crs.inh = false ∧
    (let q := (withCrs (fun r => { r with inh := true, cmode := false, pmode := true }) base).cx.crs
     q.inh = true ∧ q.cmode = false ∧ q.pmode = true) ∧
    ((s base).cx.crs.inh = true ∧ (s base).cx.crs.cmode = true) ∧
    (let q := (withCrs (fun r => { r with inh := true, cmode := false }) base).cx.crs
     q.inh = true ∧ q.pmode = false) := by decide
theorem test_witness_TrapEntry_handler :
    let s := withCrs (fun r => { r with cmode := false, tvec := 0x2001 }) base
    Cause.brk ∉ [Cause.preempt, .hwerr] ∧ ¬(s.cx.crs.inh ∧ s.cx.crs.cmode) ∧ s.cx.crs.tvec &&& ~~~(1 : Word) ≠ 0 := by decide
theorem test_witness_TrapEntry_svec :
    let s := base.updOwner 0 fun o => { o with svec := 0x4000 }
    Cause.xlate ∉ [Cause.preempt, .hwerr] ∧ ¬(s.cx.crs.inh ∧ s.cx.crs.cmode) ∧ (s.ownerSt s.oid).svec &&& ~~~(1 : Word) ≠ 0 := by decide
theorem test_witness_TrapEntry_none : trapDest base .brk = 0 ∧
    (let s := withCrs (fun r => { r with inh := true }) base; s.cx.crs.inh = true ∧ s.cx.crs.cmode = true) := by decide

theorem test_witness_LaneMoves : (15 : Word).toNat < 512 / VSize.bits .s32 ∧ 512 / VSize.bits .s32 ≤ (16 : Word).toNat := by decide
theorem test_witness_LaneStore :
    let k := base.coreSt base.coreNo
    let s := base.updCore 0 fun k => { k with laneHolder := some 0, lanePoison := [0] }
    (k.laneHolder = none ∧ k.laneClearing = false) ∧ (s.coreSt s.coreNo).laneHolder = some s.cur.which ∧
    on s 0 0 = true ∧ (el .s32 (s.getV 1) 0).toNat % 1024 * 4 + VSize.bits .s32 * 0 / 128 ∈ (s.coreSt s.coreNo).lanePoison := by decide +kernel
theorem test_witness_LaneCompares : 10 ≤ (10 : Word).toNat ∧ (VSize.s8 = .s8 ∧ 6 ≤ (6 : Word).toNat) := by decide
theorem test_witness_Accumulate : (3 : Word).toNat < 4 ∧ 4 ≤ (4 : Word).toNat := by decide
theorem test_witness_ReductionsAndMaskLogic : 5 ≤ (5 : Word).toNat := by decide
/-- Signalling and quiet NaNs, infinities, zeros, a negative number, and numbers with exact sums and products. -/
theorem test_witness_FloatValues :
    fp32.decode 0x7F800001 = .nan true ∧ bf16.decode 0x7FC0 = .nan false ∧ fp32.decode 0x7F800000 = .inf false ∧
    fp32.decode 0xFF800000 = .inf true ∧ (∃ e, fp32.decode 0x80000000 = .fin true 0 e) ∧
    (∃ k e, bf16.decode 0xBF80 = .fin true k e ∧ k ≠ 0) ∧
    (match fp32.decode 0x3FC00000, fp32.decode 0x40200000, fp32.decode 0x40800000, fp32.decode 0x40700000 with
     | .fin p k e, .fin q l f, .fin u n h, .fin u' n' h' =>
       n != 0 && n' != 0 && !p && !q && !u && !u' &&
       n * 2 ^ (h + 200).toNat == k * 2 ^ (e + 200).toNat + l * 2 ^ (f + 200).toNat &&
       n' * 2 ^ (h' + 400).toNat == k * 2 ^ (e + 200).toNat * (l * 2 ^ (f + 200).toNat)
     | _, _, _, _ => false) = true := by
  refine ⟨by decide, by decide, by decide, by decide, ⟨_, rfl⟩, ⟨_, _, rfl, by decide⟩, by decide +kernel⟩
theorem test_witness_Conversions :
    let c := (0x10 : Word).toNat
    (cvFmt (c % 16)).isSome = true ∧ (cvFmt (c / 16 % 16)).isSome = true ∧ cvFmt 15 = none := by decide

/-! Memory: each trap of R221, and each class of page. -/

/-- The checks before POISON pass on a page of each class, at the first and at the last doubleword of the page's first line and at its
last line, for reads, and for writes and atomics. -/
theorem test_reaches (cls off : Nat) (k : Kind) (hc : cls < 5) (h : off = 0 ∨ off = 0xFF80) (hk : k = .r ∨ k = .w ∨ k = .rw) :
    Reaches (paged (entryOf cls 0) off []) ((paged (entryOf cls 0) off []).getX 6) 128 k (leafOf (entryOf cls 0) off) := by
  obtain rfl | rfl | rfl | rfl | rfl : cls = 0 ∨ cls = 1 ∨ cls = 2 ∨ cls = 3 ∨ cls = 4 := by omega
  all_goals obtain rfl | rfl := h
  all_goals obtain rfl | rfl | rfl := hk
  all_goals constructor <;> decide

/-- The translation that AccessTraps asks for, as a test. -/
def held (s : State) (va : Word) (l : Leaf) : Bool :=
  (tlbLookup (s.coreSt s.coreNo).tlb1 s.oid va).map
    (fun (t : TlbEntry) => underOld s s.oid va ⟨t.entry, t.level, t.entryPa, leafPa t.entry t.level va⟩) == some l

/-- A misaligned address, one beyond 56 bits, a sealed page, a page without the permission, a reserved class, a window page that is not
SM, a store to an RO page, CR pages, and a marked line. -/
theorem test_witness_AccessTraps :
    ((0x10001 : Word).toNat % 8 ≠ 0 ∧ ((2 ^ 56 : Word).toNat % 8 = 0 ∧ 2 ^ 56 ≤ (2 ^ 56 : Word).toNat)) ∧
    (let e := sm ||| 2 ^ 57; held (paged e 0 []) 0x10000 (leafOf e 0) = true ∧ sealOk (paged e 0 []) base.who e 0x10000 = false) ∧
    (let e := sm &&& ~~~(2 ^ 54); held (paged e 0 []) 0x10000 (leafOf e 0) = true ∧ permOk base.who .w e = false ∧
      sealOk (paged e 0 []) base.who e 0x10000 = true) ∧
    (let e := entryOf 5 0; held (paged e 0 []) 0x10000 (leafOf e 0) = true ∧ permOk base.who .r e = true ∧ 5 ≤ (leafOf e 0).cls.toNat) ∧
    (let e := priv + 2 ^ 51; inWindow (leafPa e 0 0x10000) = true ∧ (entryCls e).toNat ≠ 2 ∧ permOk base.who .r e = true) ∧
    (held (paged ro 0 []) 0x10000 (leafOf ro 0) = true ∧ permOk base.who .w ro = true ∧ (leafOf ro 0).cls.toNat = 1) ∧
    (held (paged cr 0 []) 0x10000 (leafOf cr 0) = true ∧ (leafOf cr 0).cls.toNat = 3 ∧ inWindow (leafOf cr 0).pa = false) ∧
    (let s := (paged sm 0 []).onHome fun h => { h with marks := [(512, .poisoned)] }
     held s 0x10000 (leafOf sm 0) = true ∧ marked s 0 (leafOf sm 0).line = true ∧ ownFlight s s.cur 0x10000 8 = none) := by
  decide

/-- Each check before POISON fails, for accesses of the sizes that the families make. -/
theorem test_witness_Fails :
    Fails (paged sm 0 []) 0x10001 8 .r .align none ∧ Fails (paged sm 0 []) (2 ^ 56) 8 .w .xlate (some 0) ∧
    Fails (paged (sm ||| 2 ^ 57) 0 []) 0x10000 4 .r .sealed none ∧ Fails (paged (sm &&& ~~~(2 ^ 54)) 0 []) 0x10004 4 .w .perm none ∧
    Fails (paged (entryOf 5 0) 0 []) 0x10040 64 .rw .class_ none ∧ Fails (paged (entryOf 3 3 + 256) 0 []) 0x10000 4 .r .crfmt none := by
  refine ⟨.inl (by decide), .inr (.inl (by decide)), .inr (.inr ⟨by decide, rfl, leafOf (sm ||| 2 ^ 57) 0, by decide, .inl (by decide)⟩),
    .inr (.inr ⟨by decide, rfl, leafOf (sm &&& ~~~(2 ^ 54)) 4, by decide, .inr (.inl (by decide))⟩),
    .inr (.inr ⟨by decide, rfl, leafOf (entryOf 5 0) 0x40, by decide, .inr (.inr (by decide))⟩),
    .inr (.inr ⟨by decide, rfl, leafOf (entryOf 3 3 + 256) 0, by decide, .inr (.inr (by decide))⟩)⟩

/-- A clean copy of the line at 0x10000 in the L1 of core 0. -/
def copyAt (s : State) : State :=
  s.onHome fun h => { h with copies := [⟨.l1 0, 512, 7, 0, 100, false, 0, none, 0x10000, 0, 0, false⟩] }

theorem test_witness_ScalarLoads :
    let s := paged sm 0 []
    let p := copyAt (paged priv 0 [])
    let q := paged repl 0 []
    (s.cx.judged = none ∧ (p.onCx fun k => { k with judged := some (some 0) }).cx.judged ≠ none) ∧
    ((leafOf sm 0).cls = clsSm ∧ marked s 0 512 = false ∧ ownFlight s s.cur 0x10000 8 = none) ∧
    ((leafOf priv 0).cls = clsPriv ∧ (presentCopy p (.l1 p.coreNo) 512 none).isSome = true ∧
      (presentCopy p (.l1 p.coreNo) 512 (some 0)).isSome = true ∧ marked p 0 512 = false ∧ ownFlight p p.cur 0x10000 8 = none) ∧
    ((leafOf repl 0).cls = clsRepl ∧ marked q 0 (replicaPa 0x10000 q.dieNo / 128) = false ∧ ownFlight q q.cur 0x10000 8 = none ∧
      ownRepl q q.cur 0x10000 8 = none ∧ after (q.dieSt q.dieNo).replMark 0 = false) ∧
    (witMalformed 0 = false ∧ witMalformed (mkWit .device (some 1)) = false ∧ witMalformed (2 ^ 48) = true) ∧
    (let c := paged cr 0 []; crMarked c (crPlace (leafOf cr 0) 0x10000) = false ∧ ownClear c c.cur (crPlace (leafOf cr 0) 0x10000) = none ∧
      c.cx.lag = false ∧ (c.onCx fun k => { k with lag := true }).cx.lag = true) := by decide

/-- The running firing is recoverable and not exposed. -/
def stagedS (s : State) (l : List Staged) : State :=
  s.onCx fun k => { k with fir := { k.fir with recov := true }, staging := l }

/-- A staged store that a new store to the same bytes replaces no room for. -/
def stagedStore : Staged := .store 0x10000 0x10000 2 0 [1, 2, 3, 4, 5, 6, 7, 8]

theorem test_witness_Stores :
    let st := [stagedStore, stagedStore]
    let s := stagedS (paged sm 0 []) [stagedStore]
    let r := (s.sealFrame s.who sm 0x10000).onCx (·.dropEarly 0x10000 8)
    (paged sm 0 []).cx.staged = false ∧ s.cx.staged = true ∧ ownFlight s s.cur 0x10000 8 = none ∧ stagingNeed r st [] ≤ stagingLimit ∧
    stagingNeed r st [] ≤ stagingNeed r s.cx.staging [] ∧ marked (copyAt (paged priv 0 [])) 0 512 = false ∧
    (presentCopy (copyAt (paged priv 0 [])) (.l1 0) 512 none).isSome = true ∧
    ownFlight (copyAt (paged priv 0 [])) ⟨0, 0⟩ 0x10000 8 = none ∧ AsideClear s 0x10000 8 ∧
    (let q := (paged priv 0 []).onCx fun k => { k with lag := true }
     q.cx.lag = true ∧ InTurn q 0x10000 8 ∧ q.storeRefused = false) := by decide

/-- Lanes 0 and 15 of a 32-bit vector access on the page. -/
theorem test_witness_VectorAccess : ∀ j, j < 16 →
    (Reaches (paged sm 0 []) (0x10000 + BitVec.ofNat 64 (j * 4)) 4 .r (leafOf sm (4 * j)) ∧
      AtHome (paged sm 0 []) (leafOf sm (4 * j)) 4 ∧ entrySealed (leafOf sm (4 * j)).entry = false) ∧
    Reaches (paged sm 0 []) (0x10000 + BitVec.ofNat 64 (j * 4)) 4 .w (leafOf sm (4 * j)) := by
  intro j hj
  interval_cases j <;> exact ⟨⟨by constructor <;> decide, by refine ⟨?_, ?_, ?_⟩ <;> decide, by decide⟩, by constructor <;> decide⟩

theorem test_witness_JumpTable :
    let s := paged sm 0 [(5, 1)]
    (0 : Word).toNat = 0 ∧ 2 ^ 32 ≤ (2 ^ 32 : Word).toNat ∧ (0 < (1 : Word).toNat ∧ (1 : Word).toNat < 2 ^ 32) ∧
    (1 : Word).toNat ≤ (s.getX 5).toNat ∧ (s.getX 5).toNat < (2 : Word).toNat ∧
    (seen s 0x10004 4 = [0, 0, 0, 0] ∧ (s.getX 6 + 0).getLsbD 0 = false ∧ ((paged sm 1 []).getX 6 + 0).getLsbD 0 = true) := by decide

theorem test_witness_Atomics :
    let s := paged sm 0 []
    let h := stagedS s []
    (leafOf sm 0).cls = clsSm ∧ s.cx.staged = false ∧ (h.cx.staged = true ∧ h.cx.staging = []) ∧ inHost 0x10000 = false ∧
    inHost (2 ^ 51) = true ∧ Size.b ∉ [Size.d, .w] ∧ Size.h ∈ [Size.w, .h] ∧ (0x10002 : Word).toNat % (Size.bits .w / 8) ≠ 0 ∧
    (6 ≤ (8 : Word).toNat ∧ (8 : Word).toNat ≤ 8) ∧ 8 < (9 : Word).toNat := by decide

theorem test_witness_PrefetchAndClear :
    let st := stageClear [Staged.pclr 0x10000 0x10000 2 0 none] 0x10000 (leafOf sm 0) none
    let s := stagedS (paged sm 0 []) [Staged.pclr 0x10000 0x10000 2 0 none]
    let r := (s.sealFrame s.who sm 0x10000).onCx (·.dropEarly 0x10000 128)
    let dirty : Copy := ⟨.l1 0, 512, 7, 0, 100, true, 0, some ⟨0, 0⟩, 0x10000, 0, 0, false⟩
    2 ^ 56 ≤ (2 ^ 56 : Word).toNat ∧
    (marked ((paged sm 0 []).onHome fun h => { h with marks := [(512, .poisoned)] }) 0 512 = true ∧
      marked (paged sm 0 []) 0 512 = false) ∧
    ((leafOf ro 0).cls = clsRo ∧ (leafOf priv 0).cls = clsPriv ∧ (paged priv 0 []).home.copies = [] ∧
      ∀ k ∈ ((paged priv 0 []).onHome fun h => { h with copies := [dirty] }).home.copies, k.holder = some base.cur) ∧
    (0x10040 : Word).toNat % 128 ≠ 0 ∧
    (leafOf sm 0).cls ≠ clsRo ∧ (leafOf sm 0).cls ≠ clsPriv ∧ (paged sm 0 []).cx.staged = false ∧ s.cx.staged = true ∧
    stagingNeed r st [] ≤ stagingLimit ∧ stagingNeed r st [] ≤ stagingNeed r s.cx.staging [] := by decide

theorem test_witness_Witnesses :
    witMalformed (2 ^ 48) = true ∧ witMalformed 0 = false ∧ judge base.now 0 = none ∧
    base.cx.judged = none ∧ judge base.now (mkWit .device (some 0)) = some 0 ∧ atOrPast (base.dieSt base.dieNo).replMark 0 = true ∧
    (let s := { base with now := 8 }
     judge s.now (mkWit .device (some 5)) = some 5 ∧ atOrPast (s.dieSt s.dieNo).replMark 5 = false) := by decide

/-! Matrix operations, scratchpad buffers, copies, streams and landing objects. -/

/-- Buffers 3 and 4 of owner 0, held by core 0. -/
def buffers (s : State) : State :=
  s.updCluster 0 fun k => { k with bufs := [(3, { owner := 0, holder := 0, size := 8192 }), (4, { owner := 0, holder := 0, size := 8192 })] }

/-- A matrix multiply of a context, not started. -/
def opAt (id : Nat) (c : CtxId) : MatOp :=
  { id := id, kind := .mma, depth := 64, keep := 0, mfmt := 0, daddr := 0, dfld := 0, a := {}, b := {}, pc := 0, ctx := c, oid := 0,
    sMode := true, position := none, handles := [], issuedAt := 0, started := false, gangFault := false, discard := false }

theorem test_witness_MatrixControl :
    let op := opAt 0 base.cur
    let busy := base.updCore 0 fun k => { k with slice := [op], sliceGang := some 1 }
    (0 < (1 : Word).toNat ∧ (255 : Word).toNat < 256 ∧ (1 : Word).getLsbD (indexOf base.coreNo) = true ∧ base.cx.gang = none ∧
      (base.coreSt base.coreNo).sliceGang = none ∧ (busy.coreSt busy.coreNo).sliceGang ≠ none) ∧
    (256 ≤ (256 : Word).toNat ∧ (2 : Word).getLsbD (indexOf base.coreNo) = false ∧
      (base.onCx fun k => { k with gang := some (1, 0) }).cx.gang ≠ none) ∧
    ((∀ o ∈ (base.coreSt base.coreNo).slice, o.ctx ≠ base.cur) ∧ (∃ o ∈ (busy.coreSt busy.coreNo).slice, o.ctx = busy.cur)) ∧
    3 ≤ (3 : Word).toNat ∧
    (let s := paged cr 0 []
     (leafOf cr 0).cls = clsCr ∧ crMarked s (crPlace (leafOf cr 0) (s.getX 6)) = false ∧ s.net.flight = [] ∧
      witMalformed (s.getX 0) = false) := by decide

/-- The operands of MMA x8, x10, x12: a destination, A in buffer 3 and B in buffer 4. -/
def matrixS : State := buffers (withX base [(8, 0x10000), (9, 128), (10, 0x3000000), (11, 0x8000040), (12, 0x4000000), (13, 0x8000020)])

theorem test_witness_MatrixIssue :
    let s := matrixS
    let da : Desc := ⟨0x3000000, 64, 2048, 0⟩
    let db : Desc := ⟨0x4000000, 32, 2048, 0⟩
    let kb : Buf := { owner := 0, holder := 0, size := 8192 }
    let fld := s.getX (nextReg 8)
    (s.cx.gang = none ∧ s.cx.staged = false ∧ fld.toNat < 2 ^ 43 ∧ fieldN fld 31 0 % 4 = 0 ∧ 128 ≤ fieldN fld 31 0 ∧
      nextHolderOk (fieldN fld 36 32) = true ∧ nextHolderOk (fieldN fld 41 37) = true ∧ (s.getX 8).toNat % 4 = 0 ∧
      fmtMx (fieldN s.cx.crs.mfmt 3 0) = false ∧ fmtMx (fieldN s.cx.crs.mfmt 7 4) = false ∧
      (s.coreSt s.coreNo).slice.length < 8 ∧ answers (descOf s 12) (· == db) = true ∧
      answers (sliceBuf s db.handle db.addr) (· == kb) = true) ∧
    (db.limits 64 32 0 = true ∧ db.extent 2 64 32 ≤ kb.size ∧ answers (descOf s 10) (· == da) = true ∧
      answers (sliceBuf s da.handle da.addr) (· == kb) = true ∧ da.limits 32 64 0 = true ∧ da.extent 2 32 64 ≤ kb.size ∧
      da.handle ≠ db.handle) ∧
    (6 : TReg).toNat + (128 * 8 / 8 + 63) / 64 ≤ 8 ∧
    ((1 : Word).toNat < 2048 ∧ (let d : Desc := ⟨0x4000000, 32, 2048, 0⟩
      d.limits (4 * 4) 32 (64 * 4) = true ∧ d.off + (2 - 1) * d.tilePitch + 4 * 8 * d.rowPitch + 64 * 8 ≤ kb.size)) := by
  decide +kernel

theorem test_witness_TilesAndScratchpad :
    let s := buffers (withX base [(6, 0x3000000), (7, 64)])
    let k : Buf := { owner := 0, holder := 0, size := 8192 }
    let poisoned : Buf := { k with poison := [0] }
    let d : Desc := ⟨0x3000000, 64, 0, 0⟩
    (coreHolds s s.cur s.oid 3 = some k ∧ bufPoisoned k 0 64 = false ∧ bufPoisoned k 8128 64 = false ∧ 8128 + 64 ≤ k.size ∧
      bufPoisoned poisoned 0 64 = true) ∧
    ((8 : Int) % 16 ≠ 0 ∧ coreHolds s s.cur s.oid 5 = none ∧ (-16 : Int) % 16 = 0 ∧ (k.size : Int) < 8144 + 64) ∧
    (answers (descOf (withX s [(7, 64)]) 6) (fun e => e == d) = true ∧ d.rowPitch % 16 = 0 ∧ 64 ≤ d.rowPitch ∧
      (∀ r < 32, ∀ q < 4, d.chunk 0 r q + 16 ≤ k.size) ∧ (∀ r < 32, ∀ q < 4, bufPoisoned k (d.chunk 0 r q) 16 = false)) ∧
    ((s.getX 6).toNat % 64 = 0 ∧ (s.getX 7).toNat % 64 = 0) := by decide +kernel

/-- The first and the last row of a tile at 0x10000 with a stride of 64 bytes. -/
theorem test_witness_TileRows (r : Nat) (h : r = 0 ∨ r = 31) (k : Kind) (hk : k = .r ∨ k = .w) :
    Reaches (paged sm 0 [(7, 64)]) ((paged sm 0 [(7, 64)]).getX 6 + BitVec.ofNat 64 r * (paged sm 0 [(7, 64)]).getX 7) 64 k
      (leafOf sm (64 * r)) ∧
    AtHome (paged sm 0 [(7, 64)]) (leafOf sm (64 * r)) 64 ∧ entrySealed (leafOf sm (64 * r)).entry = false := by
  obtain rfl | rfl := h
  all_goals obtain rfl | rfl := hk
  all_goals exact ⟨by constructor <;> decide, ⟨by decide, by decide, by decide⟩, by decide⟩

theorem test_witness_CrMemory :
    let s := paged cr 0 [(7, 128)]
    let p := crPlace (leafOf cr 0) (s.getX 6)
    ((127 : Word).toNat < 128 ∧ 2 ^ 30 < (2 ^ 30 + 128 : Word).toNat ∧ 128 ≤ (129 : Word).toNat ∧ (129 : Word).toNat % 128 ≠ 0 ∧
      (0x10040 : Word).toNat % 128 ≠ 0) ∧
    ((s.getX 7).toNat = 128 ∧ (s.getX 6).toNat % 128 = 0 ∧ (leafOf cr 0).cls = clsCr ∧ crMarked s p = false ∧
      s.cx.staged = false ∧ s.net.flight = [] ∧ (s.ownerSt (leafOf cr 0).owner).rpl.mode = 0 ∧ commitUnderWay s s.cur [p.key] = false) ∧
    (witMalformed (s.getX 0) = false ∧ (entryFmt (leafOf cr 0).entry).toNat < 2 ∧ (s.ownerSt s.oid).rpl.mode = 0 ∧
      (s.ownerSt s.oid).mpass = none) := by decide

/-- A range of two lines, and the partial of a line: none, one that takes contributions, and one on its way to be folded. -/
theorem test_witness_CrRange :
    let s := paged cr 0 [(7, 256)]
    let p := crPlace (leafOf cr 0) (s.getX 6)
    let q : Partial := ⟨0, p, CrLine.empty, 0, 0, 0, none⟩
    let with_ := fun (q : Partial) => s.onHome fun h => { h with partials := [q] }
    (128 ≤ (s.getX 7).toNat ∧ (s.getX 7).toNat ≤ 2 ^ 30 ∧ (s.getX 6).toNat % 128 = 0 ∧ (s.getX 7).toNat % 128 = 0 ∧
      (s.getX 6).toNat + (s.getX 7).toNat ≤ 2 ^ 56 ∧ (s.getX 7).toNat / 128 = 2 ∧ s.cx.staged = false ∧ s.net.flight = []) ∧
    (∀ i < 2, Reaches s (s.getX 6 + BitVec.ofNat 64 (128 * i)) 1 .w (leafOf cr (128 * i)) ∧ (leafOf cr (128 * i)).cls = clsCr ∧
      entrySealed (leafOf cr (128 * i)).entry = false ∧
      crMarked s (crPlace (leafOf cr (128 * i)) (s.getX 6 + BitVec.ofNat 64 (128 * i))) = false ∧
      (s.ownerSt (leafOf cr (128 * i)).owner).rpl.mode = 0) ∧
    (partialOf s 0 p.key = none ∧ s.home.copies = [] ∧ s.home.partials = []) ∧
    ((partialOf (with_ q) 0 p.key).filter fun r => r.evicted.isNone) = some q ∧
    ((partialOf (with_ { q with evicted := some 1 }) 0 p.key).filter fun r => r.evicted.isNone) = none := by
  refine ⟨by decide, fun i h => ?_, by decide, by decide, by decide⟩
  obtain rfl | rfl : i = 0 ∨ i = 1 := by omega
  all_goals exact ⟨by constructor <;> decide, by decide, by decide, by decide, by decide⟩

theorem test_witness_Buffers :
    let s := buffers base
    let x := base.updCluster 0 fun k => { k with bufs := [(3, { owner := 0, holder := 18, size := 16, exporter := 0 })] }
    ((255 : Nat) < 256 ∧ (16 % 16 = 0 ∧ 16 ≤ 16 ∧ 4194304 % 16 = 0) ∧ bufOf s 0 3 ≠ none ∧ bufOf s 0 5 = none ∧
      freeBytes s 0 < (4194304 + 511) / 512 * 512 ∧ (16 + 511) / 512 * 512 ≤ freeBytes s 0) ∧
    (coreHolds s s.cur s.oid 3 ≠ none ∧ coreHolds s s.cur s.oid 5 = none) ∧
    (∃ k, bufOf x 0 3 = some k ∧ k.holder = 18 ∧ k.exporter = indexOf x.coreNo ∧ k.owner = x.oid ∧ k.quarantined = false ∧
      k.readers = 0) ∧
    (∃ k, bufOf (x.updCluster 0 fun c => { c with bufs := [(3, { owner := 0, holder := 18, size := 16, readers := 1 })] }) 0 3 = some k ∧
      k.holder = 18 ∧ k.owner = x.oid ∧ k.readers ≠ 0) := by
  refine ⟨by decide, by decide, ⟨_, rfl, by decide⟩, ⟨_, rfl, by decide⟩⟩

/-- CPY x8, x10, x12: sixteen bytes from memory to buffer 3. -/
def copyS (op dst src : Nat) (dword : Word) : State :=
  buffers (withX base [(8, if dst = 1 then 0x3000000 else dword), (9, BitVec.ofNat 64 (dst * 2 ^ 62)),
    (10, if src = 1 then 0x4000000 else 0x10000), (11, BitVec.ofNat 64 (src * 2 ^ 62)),
    (12, BitVec.ofNat 64 (31 * 2 ^ 59 + op * 2 ^ 56 + 16)), (13, 0)])

theorem test_witness_Copies :
    let legal := fun (s : State) =>
      let ctl := s.getX 12
      ctlLnd ctl = 31 ∧ fieldN ctl 38 34 < 8 ∧ fieldN ctl 33 24 = 0 ∧ ctlLen ctl ≠ 0 ∧ witMalformed (s.getX (nextReg 12)) = false ∧
      s.cx.staged = false ∧ ((s.clusterSt s.clusterNo).copyQ.countP fun q => !q.started) < 32
    (legal (copyS 0 1 0 0) ∧ ctlOp ((copyS 0 1 0 0).getX 12) = 0 ∧ answers (endpointOf (copyS 0 1 0 0) 8) (·.kind == 1) = true ∧
      answers (endpointOf (copyS 0 1 0 0) 10) (·.kind == 0) = true ∧
      (coreHolds (copyS 0 1 0 0) base.cur 0 3).any (fun k => decide (0 + 16 ≤ k.size)) = true) ∧
    (legal (copyS 0 2 1 0x203000000) ∧
      answers (endpointOf (copyS 0 2 1 0x203000000) 8) (fun e => e.kind == 2 && e.clusters == [1] && spHandle e.addr == 3) = true) ∧
    (legal (copyS 5 1 1 0) ∧ ctlOp ((copyS 5 1 1 0).getX 12) < 6 ∧ ctlLen ((copyS 5 1 1 0).getX 12) % 4 = 0 ∧
      answers (endpointOf (copyS 5 1 1 0) 8) (fun e => e.addr.toNat % 4 == 0 && e.kind == 1) = true) := by decide

theorem test_witness_StreamsAndWaita :
    let s := copyS 0 1 0 0
    let q := copyS 0 2 1 0x203000000
    (answers (endpointOf s 8) (fun e => decide (e.kind < 2) && e.addr.toNat % 16 == 0) = true ∧ 56 ≤ (56 : VReg).toNat ∧
      (55 : VReg).toNat < 56 ∧ fieldN 0 62 56 = 0 ∧ fieldN 0 15 0 = 0 ∧ fieldN 0 43 28 = 0 ∧ fieldN (2 ^ 16 - 1) 15 0 ≠ 0 ∧
      answers (endpointOf q 8) (fun e => e.kind == 2) = true) ∧
    (let w := paged sm 0 []
     seen w 0x10000 8 = List.replicate 8 0 ∧ w.cx.woke = none ∧ w.getX 0 = 0 ∧ w.getX 6 ≠ 0 ∧ inWindow (leafOf sm 0).pa = false ∧
      w.cur ∉ (w.coreSt w.coreNo).monitor ∧ (w.coreSt w.coreNo).monitor.length < 16) := by decide

/-- A landing object that counts, and one of two slots. -/
def landS (o : Landing) : State := (buffers base).updCore 0 fun k => { k with landing := [o] }

theorem test_witness_LandingObjects :
    let s := withX (buffers base) [(5, 15), (6, 1), (7, BitVec.ofNat 64 (2 * 2 ^ 62 + 3 * 2 ^ 54 + 1 * 2 ^ 48 + 1))]
    let o : Landing := ⟨15, 0, 0, 2, 0, 0, 0, 2, true, [], 0, 0⟩
    let z : Landing := ⟨15, 0, 2, 0, 0, 0, 0, 1, true, [(3, 1, false), (4, 0, false)], 0, 0⟩
    let held := z.bufs.map fun q => q.1
    ((s.getX 5).toNat < 16 ∧ landingOf s s.coreNo 15 = none ∧ fieldN (s.getX 6) 63 62 = 0 ∧ fieldN (s.getX 6) 31 0 ≠ 0 ∧
      fieldN (s.getX 6) 47 32 = 0 ∧ fieldN (s.getX 6) 53 48 = 0) ∧
    (fieldN (s.getX 7) 63 62 = 2 ∧ fieldN (s.getX 7) 61 54 + fieldN (s.getX 7) 53 48 ≤ 255 ∧ fieldN (s.getX 7) 31 0 ≠ 0 ∧
      (∀ h ∈ held, coreHolds s s.cur s.oid h ≠ none)) ∧
    (landingOf (landS o) 0 15 = some o ∧ o.oid = base.oid ∧ o.mode = 0 ∧ o.expect ≤ o.count ∧
      landingOf (landS { o with count := 1 }) 0 15 = some { o with count := 1 } ∧ (1 : Nat) < o.expect) ∧
    (landingOf (landS z) 0 15 = some z ∧ z.mode ≠ 0 ∧ z.bufs[z.oldest]? = some (3, 1, false) ∧ z.expect ≤ 1 ∧
      ({ z with oldest := 1 } : Landing).bufs[1]? = some (4, 0, false) ∧ (0 : Nat) < z.expect) ∧
    (coreHolds (landS z) base.cur base.oid 3 ≠ none ∧ landingBusy (landS o) 0 o = false) ∧
    (let d : Delivery := ⟨0, 0x3000000, [], 0, 0, 0, 0⟩
     16 ≤ (16 : Nat) ∧ landingOf base base.coreNo 0 = none ∧
      landingBusy { landS z with net := { (landS z).net with inbound := [d] } } 0 z = true) := by decide

/-! Tasks, counters, levels, barriers and announcements. -/

/-- `paged sm` with the level table of owner 0 at 0x20000, its entry 1 an open launch with two counts, and at 0x10000 a record of that
launch with a trigger counter at 0x10100 and a threshold of 3. -/
def taskS (l : List (Nat × Word)) : State :=
  let s := paged sm 0 l
  let s := s.updCore 0 fun k => { k with tlb1 := k.tlb1 ++ [⟨0, 0, 0x5000, sm + 0x10000, 0⟩] }
  let r := 0x1000 + 5 * 2 ^ 64 + 0x10100 * 2 ^ 128 + 1 * 2 ^ 212 + 3 * 2 ^ 224
  let m := memWrite s.mem 0x10000 (leBytes 64 r)
  { s with mem := memWrite m 0x20010 (leBytes 8 (2 ^ 60 + 2)) }.onCx fun k => { k with fir := { k.fir with launch := 1 } }

theorem test_witness_FiringControl :
    let s := taskS []
    let u := endRelease s
    let w := Counted u .device
    let wit := witnessMax (mkWit .device w.cx.runMax) (mkWit .device (witStamp w.cx.copyWit))
    let busy := base.updCore 0 fun k => { k with helperOf := some 0 }
    (s.cx.copies = [] ∧ s.cx.late = [] ∧ (s.coreSt s.coreNo).slice = [] ∧ s.home.copies = [] ∧ s.cx.engFaults = [] ∧ s.cx.staged = false ∧
      delivered u u.cur u.net.nextId .device = true ∧ u.home.replLog = [] ∧ u.home.copies = [] ∧
      answers (levelDec s.cur s.oid 4 w s.cx.fir.launch.toNat wit false) (fun v => memGet v.mem 0x20010 == 1) = true) ∧
    (delivered s s.cur s.net.nextId .device = true ∧ s.home.replLog = []) ∧
    ((base.onCx fun k => { k with copies := [0] }).cx.copies ≠ [] ∧ (base.onCx fun k => { k with late := [⟨0, .x 1 8 true⟩] }).cx.late ≠ [] ∧
      (∃ o ∈ ((base.updCore 0 fun k => { k with slice := [opAt 0 base.cur] }).coreSt base.coreNo).slice, o.ctx = base.cur)) ∧
    (base.cx.staged = false ∧ (stagedS base []).cx.staged = true ∧ (stagedS base []).cx.staging = [] ∧
      (stagedS base [stagedStore]).cx.staged = true ∧ (stagedS base [stagedStore]).cx.staging ≠ []) ∧
    ((base.onCx fun k => { k with gang := some (1, 0) }).cx.gang ≠ none ∧ (base.coreSt base.coreNo).deque = []) ∧
    (3 ≤ (3 : Word).toNat ∧ (1 : Word).getLsbD 0 = true) ∧
    (base.cur.which ≠ 2 ∧ (base.coreSt base.coreNo).helperOf = none ∧ (busy.coreSt busy.coreNo).helperOf = some busy.cur.which ∧
      (let q := base.updCore 0 fun k => { k with helperOf := some 1 }; (q.coreSt q.coreNo).helperOf = some 1 ∧ (1 : Nat) ≠ q.cur.which)) := by
  decide +kernel

/-- The leaf of a level's entry in `taskS`. -/
def levelLeaf (i : Nat) : Leaf := ⟨sm + 0x10000, 0, 0, 0x20000 + 16 * i⟩

/-- The level engine reaches every entry of the table of `taskS`, whatever memory holds. -/
theorem test_level_at (m : List Host.Cell) (i : Nat) (hi : i < 4096) : LevelAt { taskS [] with mem := m } 0 i (levelLeaf i) := by
  have hv : (levelVa { taskS [] with mem := m } 0 i).toNat = 0x50000000 + 16 * i := by
    have h : levelVa { taskS [] with mem := m } 0 i = 0#64 + BitVec.ofNat 64 (0x50000000 + 16 * i) := rfl
    rw [h, BitVec.zero_add, BitVec.toNat_ofNat]
    omega
  have h0 : vpageOf (levelVa { taskS [] with mem := m } 0 i) 0 = 0x5000 := by rw [vpageOf, hv, levelShift]; omega
  have ht : tlbFind (({ taskS [] with mem := m } : State).coreSt 0).tlb1 0 0 (levelVa { taskS [] with mem := m } 0 i) =
      some ⟨0, 0, 0x5000, sm + 0x10000, 0⟩ := by
    rw [tlbFind, h0]
    show List.find? _ ((taskS []).coreSt 0).tlb1 = _
    decide
  have hp : leafPa (sm + 0x10000) 0 (levelVa { taskS [] with mem := m } 0 i) = 0x20000 + 16 * i := by
    rw [leafPa, hv, show entryBase (sm + 0x10000) = 0x20000 by decide, levelShift]
    omega
  have hm : (taskS []).home = {} := rfl
  have hs : entrySealed (sm + 65536#64) = false := by decide
  refine ⟨by omega, ?_, ?_, by show (entryCls (sm + 0x10000)).toNat < 5; decide, fun _ => by show entryCls (sm + 0x10000) = clsSm; decide, ?_⟩
  · refine (congrArg (Option.map _) (?_ : tlbLookup _ _ _ = some ⟨0, 0, 0x5000, sm + 0x10000, 0⟩)).trans
      (congrArg some (congrArg (Leaf.mk (sm + 0x10000) 0 0) hp))
    rw [tlbLookup]
    exact congrArg (fun o : Option TlbEntry => o.or _) ht
  · simp [sealOk, levelLeaf, hs, hm, tfind, tget]
  · simp [marked, hm]
theorem test_witness_TableReady : TableReady (taskS []) 0 := fun i hi => ⟨_, test_level_at _ i hi, by show entrySealed (sm + 0x10000) = false; decide⟩

/-- A record of the class of the running firing waits in the core's deque, and the firing can be saved. -/
theorem test_witness_FiringControl_yield :
    let e : DequeEntry := { record := 0, addr := 0, startWit := 0, fid := 0 }
    let s := (paged sm 0 []).updCore 0 fun k => { k with deque := [e], hw := 1 }
    s.cx.staged = false ∧ s.cx.gang = none ∧ (∃ e ∈ (s.coreSt s.coreNo).deque, s.cx.fir.prio.toNat ≤ (recPrio e.record).toNat) ∧
    (pushDeque s s.coreNo s.oid { e with resume := some 0 } true).isSome = true ∧
    (preemptCtx s.advance s.cur none false).1 = .slot 0 := by decide +kernel

theorem test_witness_Requests_spawn :
    answers (readRecord (Counted (taskS []) ((taskS []).scope none)) 0x10000 (some 0) false) (fun q =>
      let u := q.2
      !u.cx.staged && delivered u u.cur u.net.nextId (u.scope none) && u.home.copies.all (fun k => !k.dirty) &&
        (let v := Counted u (u.scope none); answers (spawnRecord v u.cur q.1 0x10000 (mkWit (u.scope none) v.cx.runMax))) fun r => r.1 == 0) = true ∧
    (taskS []).cx.staged = false ∧ delivered (taskS []) base.cur (taskS []).net.nextId ((taskS []).scope none) = true ∧
    (taskS []).home.copies = [] := by decide +kernel

/-- The record that `taskS` holds at 0x10000. -/
def taskRecord : BitVec 512 := 0x1000 + 5 * 2 ^ 64 + 0x10100 * 2 ^ 128 + 1 * 2 ^ 212 + 3 * 2 ^ 224

/-- Its doublewords are reached at their homes, and so is its counter. -/
theorem test_witness_Requests_record :
    RecordAt (taskS []) 0x10000 taskRecord ∧ recordOk taskRecord = true ∧ recOwner taskRecord = (taskS []).oid ∧
    Reaches (taskS []) (recTcnt taskRecord) 8 .w (leafOf sm 0x100) ∧ (leafOf sm 0x100).cls = clsSm ∧
    inWindow (leafOf sm 0x100).pa = false ∧ permOk ⟨0, true, 0, false⟩ .w (leafOf sm 0x100).entry = true ∧
    recTcnt taskRecord ≠ 0 ∧ recThresh taskRecord ≠ 0 := by
  refine ⟨⟨by decide, rfl, fun i => leafOf sm (8 * i), fun i hi => ?_, by decide +kernel⟩, by decide +kernel, by decide +kernel, ?_,
    by decide, by decide, by decide, by decide +kernel, by decide +kernel⟩
  · interval_cases i <;> exact ⟨by constructor <;> decide +kernel, by refine ⟨?_, ?_, ?_⟩ <;> decide +kernel, by decide⟩
  · constructor <;> decide +kernel
theorem test_witness_Requests_arm :
    answers (readRecord (taskS []) 0x10000 (some 0) true) (fun q =>
      !q.2.cx.staged && answers (armRecord q.2 q.2.cur q.1 0x10000) fun r => r.1 == 0) = true := by decide +kernel
/-- The page that backs the staging of context F0 of core 0 (R292). -/
def backedS (s : State) : State :=
  s.updCore 0 fun k => { k with tlb1 := k.tlb1 ++ [⟨0, 0, 0x10000, sm + 0x20000, 0⟩] }

theorem test_witness_Requests_staged :
    answers (readRecord (stagedS (backedS (taskS [])) []) 0x10000 (some 0) true) (fun q =>
      q.2.cx.staged && decide (stagingNeed q.2 (q.2.cx.staging ++ [.arm q.1 0x10000 q.2.cx.pc]) [] ≤ stagingLimit) &&
        backingOk q.2 (stagingNeed q.2 (q.2.cx.staging ++ [.arm q.1 0x10000 q.2.cx.pc]) []) &&
        backingOk q.2 (stagingNeed q.2 (q.2.cx.staging ++ [.spawn q.1 0x10000 q.2.cx.pc]) [])) = true := by decide +kernel
theorem test_witness_Requests_disarm :
    let w : Watch := ⟨0x10000, 0, 0, 0, 0, 3, false, 0⟩
    let s := (paged sm 0 []).onHome fun h => { h with watches := [w] }
    let q := (paged sm 0 []).onHome fun h => { h with watches := [{ w with oid := 1 }] }
    (leafOf sm 0).cls = clsSm ∧ inWindow (leafOf sm 0).pa = false ∧ s.cx.staged = false ∧ (paged sm 0 []).home.watches = [] ∧
    (∃ w ∈ s.home.watches, w.pa = 0x10000) ∧ (∀ w ∈ s.home.watches, w.pa = 0x10000 → w.oid = s.oid) ∧
    (∃ w ∈ q.home.watches, w.pa = 0x10000 ∧ w.oid ≠ q.oid) := by decide

theorem test_witness_Counters :
    let st := [Staged.count 0x10000 0x10000 0 5, Staged.count 0x10000 0x10000 0 5]
    (leafOf sm 0).cls = clsSm ∧ inWindow (leafOf sm 0).pa = false ∧ (paged sm 0 []).cx.staged = false ∧
    (let s := stagedS (paged sm 0 []) [Staged.count 0x10000 0x10000 0 5]
     let r := s.sealFrame s.who sm 0x10000
     s.cx.staged = true ∧ stagingNeed r st [] ≤ stagingLimit ∧ stagingNeed r st [] ≤ stagingNeed r s.cx.staging []) ∧
    (leafOf cr 0).cls ≠ clsSm ∧ (leafOf priv 0).cls ≠ clsSm := by decide

/-- The level-table entries 1 and 2 of owner 0: an open launch below an open group of the next kind, or as given. -/
def levelS (one two : Nat) : State :=
  { taskS [] with mem := memWrite (memWrite (taskS []).mem 0x20010 (leBytes 8 one)) 0x20020 (leBytes 8 two) }

theorem test_witness_Levels :
    let opened := 2 ^ 60 + 2 * 2 ^ 48 + 1
    let phase := 2 ^ 62 + 2 ^ 60 + 3 * 2 ^ 48 + 1
    let s := levelS 0 phase
    (1 : Nat) < 4096 ∧ answers (levelGet (levelS opened phase) base.cur 0 1) (fun p => p.1.isOpen) = true ∧
    answers (levelGet s base.cur 0 1) (fun p => !p.1.isOpen &&
      answers (levelGet p.2 base.cur 0 2) fun q => q.1.isOpen && !q.1.cancelled && q.1.kind == 0 + 1 &&
        answers (levelAdd q.2 base.cur 0 2) fun r => r.1) = true ∧
    answers (levelGet s base.cur 0 3) (fun p => !p.1.isOpen) = true ∧ s.cx.holds.length < 8 ∧
    8 ≤ (base.onCx fun k => { k with holds := List.replicate 8 1 }).cx.holds.length ∧ BitVec.ofNat 12 1 ∉ s.cx.holds ∧
    4096 ≤ (4096 : Word).toNat ∧ answers (levelGet s base.cur s.oid s.cx.fir.launch.toNat) (fun _ => true) = true ∧
    (let full := levelS 0 (2 ^ 62 + 2 ^ 60 + 3 * 2 ^ 48 + (2 ^ 32 - 2))
     answers (levelGet full base.cur 0 1) (fun p => answers (levelGet p.2 base.cur 0 2) fun q =>
       answers (levelAdd q.2 base.cur 0 2) fun r => !r.1) = true) ∧
    (let held := (levelS opened phase).onCx fun k => { k with holds := [1] }
     let gone := fun (s : State) => s.onCx fun k => { k with holds := k.holds.filter (· != BitVec.ofNat 12 1) }
     BitVec.ofNat 12 1 ∈ held.cx.holds ∧ answers (levelDec base.cur 0 4 held 1 0 false) (fun r =>
       answers (levelGet (gone r) base.cur 0 1) fun p => !p.1.isOpen) = true) := by decide +kernel

theorem test_witness_Levels_at :
    let phase := 2 ^ 62 + 2 ^ 60 + 3 * 2 ^ 48 + 1
    let s := levelS 0 phase
    let lo := fun (s : State) (i : Nat) => levelLo s (levelLeaf i)
    (LevelAt s s.oid 1 (levelLeaf 1) ∧ LevelAt s s.oid 2 (levelLeaf 2) ∧ entrySealed (levelLeaf 1).entry = false) ∧
    (lo (levelS phase 0) 1).getLsbD 60 = true ∧ (lo s 1).getLsbD 60 = false ∧ (lo s 2).getLsbD 60 = true ∧
    (lo s 2).getLsbD 61 = false ∧ fieldN (lo s 2) 63 62 = 0 + 1 ∧ fieldN (lo s 2) 31 0 + 1 < 2 ^ 32 - 1 ∧ s.cx.holds.length < 8 ∧
    BitVec.ofNat 12 1 ∉ s.cx.holds :=
  ⟨⟨test_level_at _ 1 (by decide), test_level_at _ 2 (by decide), by decide⟩, by decide +kernel⟩

/-- Barrier 15 of die 0, with members of places 0 and 1. -/
def barS (b : Barrier) : State := base.updDie 0 fun d => { d with barriers := [(15, b)] }

theorem test_witness_Barriers :
    let b : Barrier := ⟨0, 3, 2, 1024, true, [], none, false⟩
    let rec_ : BitVec 512 := BitVec.ofNat 512 (3 + 2 * 2 ^ 256 + 1024 * 2 ^ 288)
    let free : BitVec 512 := 0
    let m := fun (s : State) => (barrierOf s 15).filter fun b => b.owner == s.oid
    (m (barS b) = some b ∧ b.members.getLsbD (placeOf base.coreNo) = true ∧ b.g = true ∧ placeOf base.coreNo ∉ b.arrived) ∧
    (m (barS { b with members := 2 }) = some { b with members := 2 } ∧ (2 : BitVec 256).getLsbD (placeOf base.coreNo) = false ∧
      b.g ≠ false ∧ placeOf base.coreNo ∈ ({ b with arrived := [0] } : Barrier).arrived) ∧
    (m base = none ∧ m (barS { b with owner := 1 }) = none) ∧
    (recN rec_ 511 321 = 0 ∧ recN rec_ 287 265 = 0 ∧ recN rec_ 264 256 ≤ 256 ∧ recN rec_ 264 256 ≠ 0 ∧ recN rec_ 319 288 = 1024 ∧
      recN free 264 256 = 0 ∧ recN free 319 288 = 0) ∧
    (base.cx.verdict = none ∧ (base.onCx fun k => { k with verdict := some (1, 0) }).cx.verdict = some (1, 0)) ∧
    answers (loadWords (paged sm 0 []) 0x10000 none 8) (fun p => (barrierOf p.2 15).isNone) = true ∧
    (let open_ : Barrier := { b with arrived := [1], started := some 0 }
     let s := (paged sm 0 []).updDie 0 fun d => { d with barriers := [(15, open_)] }
     let s := s.setCtx ⟨1, 0⟩ { life := .running, wait := some (.barrier 15 true) }
     answers (loadWords s 0x10000 none 8) (fun p => (barrierOf p.2 15).any Barrier.open_ && decide ((⟨1, 0⟩ : CtxId) ≠ p.2.cur) &&
       decide (dieOf 1 = p.2.dieNo) && (p.2.ctxOf ⟨1, 0⟩).wait == some (.barrier 15 true) &&
       (barrierOf p.2 15).all fun k => k.owner == p.2.oid) = true) := by decide +kernel

theorem test_witness_Announcements :
    base.cx.staged = false ∧ delivered base base.cur base.net.nextId .device = true ∧ base.home.copies = [] ∧
    (base.cx.verdict = none ∧ (base.onCx fun k => { k with verdict := some (1, 0) }).cx.verdict = some (1, 0) ∧
      (((base.onCx fun k => { k with verdict := some (1, 0) }).cx.verdict.getD (0, 0)).1 ≠ base.getX 6)) ∧
    (63 : Nat) < 64 ∧ (3 : Nat) < 4 ∧ (4095 : Word).toNat < 4096 ∧ 256 ≤ (256 : Word).toNat ∧ 64 ≤ (64 : Word).toNat ∧
    (base.ownerSt base.oid).notif.toList.getD 63 0 ≠ (withX base [(6, 1)]).getX 6 ∧
    (base.ownerSt base.oid).notif.toList.getD 63 0 = base.getX 6 := by decide

/-! A step, and what decodes. -/

/-- `base` about to execute MOV x8, x6, with x6 = 5. -/
def movS : State := withX (State.reset.withFetchWord 16 0x0506) [(6, 5)]

theorem test_witness_StepRuns :
    let r := collectCopies movS
    let o := r.onCx fun k => { k with trapped := false, since := r.now, firstId := r.net.nextId }
    movS.powered = true ∧ movS.clusters = [] ∧ dueWindow movS = none ∧ quotaDue movS = false ∧ movS.plan = [] ∧ movS.bootst.toNat < 256 ∧ movS.cx.life = .running ∧
    engineRuns movS movS.cur.core = true ∧ pendingCause movS movS.cx = none ∧ movS.cx.wait = none ∧
    answers (fetch o) (fun p => p.1 == .mov 8 6 && p.2.cur.which != 2 &&
      (usesOf (selectForm p.1 p.2)).xs.all (fun x => p.2.cx.pend.all fun q => q.reg != x) &&
      lateUse p.2 (usesOf (selectForm p.1 p.2)) (tileOf (selectForm p.1 p.2)) == none &&
      (usesOf (selectForm p.1 p.2)).vw.isEmpty &&
      answers (takeStreams (usesOf (selectForm p.1 p.2)).vs.eraseDups
        (p.2.begins (selectForm p.1 p.2) (usesOf (selectForm p.1 p.2)))) fun _ => true) = true ∧
    answers (fetchWord o 0) (fun p => p.1 == 0x0506) = true ∧
    (decodeWords [0x0506]).toOption = some (.mov 8 6, []) := by decide +kernel
/-- VMOV to v56, which a stream is bound to. -/
theorem test_witness_StepRuns_blocked :
    let s := { base with mem := memWrite base.mem 0 (bytesOfWords (encode (.vmov 56 3 .s32 0))) }.onCx fun k =>
      { k with streams := [{ reg := 56, addr := 0, shape := 0, pattern := 0, na := false, pos := 0 }] }
    let r := collectCopies s
    let o := r.onCx fun k => { k with trapped := false, since := r.now, firstId := r.net.nextId }
    s.clusters = [] ∧ dueWindow s = none ∧ quotaDue s = false ∧ pendingCause s s.cx = none ∧
    answers (fetch o) (fun p =>
      let j := selectForm p.1 p.2
      p.1 == .vmov 56 3 .s32 0 && (usesOf j).xs.isEmpty && lateUse p.2 (usesOf j) (tileOf j) == none && (usesOf j).vw.contains 56 &&
      (boundTo (p.2.begins j (usesOf j)) 56).isSome) = true := by decide +kernel
theorem test_witness_StepRuns_illegal : decodeWords [0xF880] = .error .truncated ∧ decodeWords [0xF880, 0x3800] = .error .unassigned :=
  ⟨rfl, rfl⟩
theorem test_witness_StepRuns_fetch : Reaches base 0 2 .x (⟨BitVec.ofNat 64 (2 ^ 63 + 2 * 2 ^ 60 + 15 * 2 ^ 52), 0, 0, 0⟩) ∧
    AtHome base ⟨BitVec.ofNat 64 (2 ^ 63 + 2 * 2 ^ 60 + 15 * 2 ^ 52), 0, 0, 0⟩ 2 :=
  ⟨by constructor <;> decide, by decide, by decide, by decide⟩

theorem test_witness_RoundTrip : (Instr.ld 31 31 .b (2 ^ 19 - 1) true).wf = true ∧ (Instr.ld 31 31 .b (2 ^ 19 - 1) true).fields ≠ none := by
  decide
theorem test_witness_StepKeepsMemoryForm : Memory.wf movS.mem = true ∧ (match step movS with | .next _ => true | _ => false) = true := by
  decide +kernel

/-! Control registers, translation, places, trace, measurement, replay, contexts, shares and attestation. -/

/-- Owner 1 exists and is suspended or not. -/
def twoOwners (susp : Bool) (s : State) : State := s.updOwner 1 fun o => { o with valid := true, susp := susp }

/-- The running firing belongs to an owner. -/
def asOwner (n : Nat) (s : State) : State := s.onCx fun k => { k with fir := { k.fir with oid := BitVec.ofNat 8 n } }

theorem test_witness_ControlRegisters :
    base.cx.crs.cmode = true ∧ base.cx.fir.oid = 0 ∧ (withCrs (fun r => { r with cmode := false }) base).cx.crs.cmode = false ∧
    0x40 ≤ (0x40 : Word).toNat ∧ (0x48 : Word).toNat ≤ 0x48 ∧ 17 ≤ (17 : Nat) ∧ (0x48 : Nat) < 2 ^ 64 - 1 ∧ (asOwner 1 base).cx.fir.oid ≠ 0 ∧
    ownerBusy base base.oid = false ∧ crBeaten base 0x45 = false ∧
    crBeaten (base.onDev fun d => { d with crWrites := [⟨0x45, 0, base.now, 5⟩] }) 0x45 = true ∧
    ownerBusy (base.onNet fun n => { n with flight := [flightOf base 0 (.count 1 false) 0 (leafOf sm 0) .device true] }) 0 = true := by
  decide

theorem test_witness_TranslationAndPlaces_tlbinv :
    let s := twoOwners false base
    let held : PageClass := ⟨1, 0, 5, sm⟩
    let u := s.onHome fun h => { h with classes := [held] }
    let clear := fun (s : State) (n : Named) (sc : Scope) =>
      (∀ e ∈ namedEntries s n sc, pageBusy s ⟨e.oid, e.level, e.vpage, e.entry⟩ = false) ∧
      ∀ k ∈ s.home.classes, n.page k = true → pageBusy s k = false ∧ (needsStagings s k = true → stagingHolds s k = false)
    let rid := fun (s : State) (n : Named) => (invalidate s n .device).onCx fun k => { k with early := [] }
    (s.cx.crs.cmode = true ∧ s.cx.staged = false ∧ delivered s s.cur s.net.nextId .device = true ∧ s.home.copies = [] ∧
      (s.ownerSt 1).valid = true ∧ s.oid = 0) ∧
    (clear s ⟨0, 3, 1, 0⟩ .device ∧ clear u ⟨0, 0, 1, 0x50000⟩ .device ∧ clear s ⟨2, 0, 0, 0⟩ .core ∧ clear s ⟨1, 0, 1, 0⟩ .device) ∧
    ((⟨0, 0, 1, 0x50000⟩ : Named).page held = true ∧ newLeaf (rid u ⟨0, 0, 1, 0x50000⟩) held = none ∧
      namedPages (rid u ⟨0, 0, 1, 0x50000⟩) ⟨0, 0, 1, 0x50000⟩ = [] ∧ namedPages (rid s ⟨2, 0, 0, 0⟩) ⟨2, 0, 0, 0⟩ = [] ∧
      namedPages (rid s ⟨1, 0, 2, 0⟩) ⟨1, 0, 2, 0⟩ = []) ∧
    clear s ⟨1, 0, 2, 0⟩ .device ∧ (s.ownerSt 2).valid = false ∧
    entryClean (2 ^ 63) = true ∧ entryClean 0 = true ∧ entryClean (2 ^ 63 + 1) = false := by decide +kernel

/-- An owner-table entry that makes owner 2 exist, and one that does not make owner 1 exist. -/
theorem test_witness_TranslationAndPlaces_owner :
    let s : State := { base with mem := memWrite base.mem (Config.ownerTablePa.toNat + 64 * 2) (leBytes 64 (2 ^ 63)) }
    ownerEntry s 2 = 2 ^ 63 ∧ entryValid (2 ^ 63) = true ∧ (2 ^ 63 : BitVec 512).getLsbD 61 = false ∧ (s.ownerSt 2).valid = false ∧
    entryValid (ownerEntry { base with mem := [] } 1) = false := by
  refine ⟨?_, by decide +kernel, by decide +kernel, rfl, ?_⟩
  · have h := memRead_memWrite (m := base.mem) (Config.ownerTablePa.toNat + 64 * 2) (leBytes 64 (2 ^ 63)) (by decide)
    rw [leBytes_length] at h
    simp only [ownerEntry, h, leNat_leBytes]
    decide +kernel
  · have h : ∀ n a, memRead [] a n = List.replicate n 0 := by
      intro n
      induction n with
      | zero => intro a; rfl
      | succ n ih => intro a; exact congrArg (0 :: ·) (ih (a + 1))
    simp only [ownerEntry, h]
    decide +kernel

theorem test_witness_TranslationAndPlaces_maps :
    let s := base
    let susp := base.updOwner 0 fun o => { o with susp := true }
    let live := copyAt susp |>.onHome fun h => { h with copies := h.copies.map fun k => { k with at_ := .far 5 } }
    let bad : State := { base with mem := memWrite base.mem 0 [0, 0, 0, 1] }
    let place := fun (s : State) (i : Nat) => placeOfWord ((mapImage s 0).1.getD i 0)
    let slice := fun (s : State) (h : Nat) => (((mapImage s 0).2.getD h 0) / 2 ^ 15 % 2 == 1, ((mapImage s 0).2.getD h 0) % 128)
    let held := fun (s : State) => (List.range 256).any fun i => place s i != s.place (0 * 256 + i) && placeHeld s (0 * 256 + i)
    let lives := fun (s : State) => (List.range 128).any fun h =>
      slice s h != sliceEntry s 0 h && sliceLive s 0 h && !((s.dieSt 0).failedSlices.contains h)
    mapOk (mapImage bad 0).1 (mapImage bad 0).2 = false ∧ mapOk (mapImage s 0).1 (mapImage s 0).2 = true ∧ held s = true ∧
    held susp = false ∧ lives susp = false ∧ mapOk (mapImage live 0).1 (mapImage live 0).2 = true ∧ held live = false ∧ lives live = true ∧
    (8 : Nat) < 9 ∧ (255 : Nat) < 256 ∧ (383 : Nat) < 384 := by decide +kernel

theorem test_witness_TraceAndCounters :
    let q : Trace := ⟨0, 0x20000, 0x10000, 0, 0, 0, false⟩
    let s := twoOwners false (paged sm 0 [])
    let m : State := { s with mem := memWrite (memWrite s.mem 0x10000 (leBytes 8 0x20000)) 0x10008 (leBytes 8 0x10000) }
    let traced := m.updOwner 1 fun o => { o with trace := some q, grant0 := true }
    (s.cx.crs.cmode = true ∧ s.oid = 0 ∧ (s.ownerSt 1).valid = true ∧ (s.ownerSt s.oid).trace = none ∧ (s.ownerSt 1).isSealed = false) ∧
    answers (readPairAt m 0x10000) (fun p => p.1 == 0x20000 && p.2.1 == 0x10000 && (p.2.2.ownerSt 1).trace.isNone) = true ∧
    answers (readPairAt traced 0x10000) (fun p => (p.2.2.ownerSt 1).trace.isSome) = true ∧
    ((traced.ownerSt 1).trace ≠ none ∧ (traced.ownerSt 1).grant0 = true ∧ (traced.ownerSt 1).grantHost = false) ∧
    ((base.updOwner 0 fun o => { o with isSealed := true }).ownerSt 0).isSealed = true ∧
    (inPass base base.coreNo = false ∧ (0x11 : Word).toNat < 1024 ∧ ((0x11 : Word).setWidth 8).toNat ≤ 17 ∧ (3 : Word).toNat < 4) := by
  decide +kernel

/-- MPASS descriptor at 0x10000: the record at 0x10100, one pass, SNAP at 0x30000, DONE at 0x40000. -/
def passS : State :=
  let s := paged sm 0 []
  let d := 0x10100 + 1 * 2 ^ 64 + 0x30000 * 2 ^ 128 + 0x10000 * 2 ^ 192 + 0x40000 * 2 ^ 256
  { s with mem := memWrite (memWrite s.mem 0x10000 (leBytes 72 d)) 0x10100 (leBytes 64 0x1000) }

theorem test_witness_MeasuringAndReplay_mpass :
    answers (loadWords passS 0x10000 none 9) (fun p =>
      let word := fun (k : Nat) => (BitVec.ofNat 64 (leNat ((p.1.drop k).take 8)) : Word)
      let byte := fun (k : Nat) => (p.1.getD k 0).toNat
      byte 9 == 0 && leNat ((p.1.drop 12).take 4) == 0 && (word 0).toNat % 64 == 0 && byte 8 == 1 && decide (byte 10 + 256 * byte 11 < 4096) &&
      (List.range 4).all (fun i => decide (byte (40 + i) ≤ 17)) && (word 16).toNat % 65536 == 0 && word 24 == 0x10000 &&
      (word 32).toNat % 8 == 0 &&
      answers (loadWords p.2 (word 0) none 8) fun q =>
        let r : BitVec 512 := BitVec.ofNat 512 (leNat q.1)
        recordOk r && recOwner r == 0 && (q.2.ownerSt 0).valid && (q.2.ownerSt (recOwner r)).mpass.isNone) = true := by decide +kernel
theorem test_witness_MeasuringAndReplay_bad :
    answers (loadWords (paged sm 0 []) 0x10000 none 9) (fun p => (p.1.getD 8 0).toNat == 0 && (p.1.getD 9 0).toNat == 0) = true := by
  decide +kernel
theorem test_witness_MeasuringAndReplay_busy :
    let m : MPass := ⟨0x10000, 0, 0, 0x10100, 1, 0, 0, 0, 0x30000, 0x10000, 0x40000, [], [], [], [], 0, 0, 0, false, false⟩
    answers (loadWords (passS.updOwner 0 fun o => { o with mpass := some m }) 0x10000 none 9) (fun p =>
      answers (loadWords p.2 0x10100 none 8) fun q => (q.2.ownerSt 0).mpass.isSome) = true := by decide +kernel
/-- A log of one event whose reserved bytes are 0. -/
theorem test_witness_MeasuringAndReplay_log :
    let s := (twoOwners true (paged sm 0 [])).updOwner 1 fun o => { o with rpl := { mode := 2, log := 0x10000, size := 0x10000, count := 1 } }
    logClean s 1 = true ∧ (s.ownerSt 1).granted 0 = true := by decide +kernel
theorem test_witness_MeasuringAndReplay_rplctl :
    let pair := fun (s : State) => ({ s with mem := memWrite s.mem 0x10000 (leBytes 8 0x20000) } : State)
    let run := pair (twoOwners false (paged sm 0 []))
    let susp := pair (twoOwners true (paged sm 0 []))
    let hid := susp.updOwner 1 fun o => { o with isSealed := true }
    let shown := hid.updOwner 1 fun o => { o with grant0 := true }
    let u := fun (s : State) (p : OwnerSt → Bool) =>
      answers (readPairAt s 0x10000) (fun q => q.1 == 0x20000 && p (q.2.2.ownerSt 1)) = true
    u run (fun o => !o.susp && o.granted 0) ∧ u susp (fun o => o.susp && o.granted 0) ∧ u hid (fun o => o.susp && !o.granted 0) ∧
    u shown (fun o => o.susp && o.isSealed && o.granted 0) := by decide +kernel

/-- A second firing of owner 0 runs, or none does, in context F1 of core 0, whose slot 0 lies at address 0. -/
def twoContexts (k : Ctx) (valid : Bool) : State :=
  let s := paged sm 0 []
  ({ s with mem := if valid then memWrite s.mem 2 [1] else s.mem }).setCtx ⟨0, 1⟩ k

theorem test_witness_ContextsAndSeeds_save :
    let k : CtxId := ⟨0, 1⟩
    let runs : Ctx := { life := .running }
    let s := twoContexts runs false
    let full := twoContexts runs true
    let waits := s.onNet fun n => { n with flight := [flightOf s 0 (.count 1 false) 0 (leafOf sm 0) .device true |> fun f => { f with ctx := k }] }
    let recov := twoContexts { runs with fir := { recov := true } } false
    let noPage := (base.updOwner 0 fun o => { o with savearea := 0x100000 }).setCtx k runs
    let emerg := noPage.updOwner 0 fun o => { o with esave := 0x200000 }
    (k.core < 2304 ∧ k.which < 2 ∧ k ≠ s.cur ∧ (base.ctxOf k).life = .free ∧ (s.ctxOf k).life = .running ∧ s.coreOwner 0 = 0 ∧
      (s.ctxOf k).fir.oid.toNat = 0 ∧ (s.getX 0).toNat % 131072 = 0 ∧ s.getX 0 = (s.ownerSt 0).savearea + BitVec.ofNat 64 (131072 * 0)) ∧
    answers (slotImage full k 0 0) (fun p => p.1 2 1 == 1) = true ∧ answers (slotImage s k 0 0) (fun p => p.1 2 1 != 1) = true ∧
    (preemptCtx s k (some 0) false).1 = .slot 0 ∧ (preemptCtx waits k (some 0) false).1 = .waits ∧
    (preemptCtx recov k (some 0) false).1 = .restarted ∧ (preemptCtx noPage k (some 0) false).1 = .lost ∧
    (preemptCtx emerg k (some 0) false).1 = .emergency := by decide +kernel

theorem test_witness_ContextsAndSeeds_load :
    let s := twoContexts {} true
    let other : State := { s with mem := memWrite s.mem 4 [1] }
    let both := twoContexts { life := .running } true
    let free := fun (u : State) (i : Nat) =>
      (u.ctxOf ⟨0, i⟩).life == .free && (u.place 0).present && !(u.coreSt 0).failed
    let reads := fun (s : State) (p : (Nat → Nat → Nat) → State → Bool) => answers (slotBytes s s.cur (slotReader s 0) (s.getX 0)).act (fun q => p q.1 q.2)
    let reserved : State := { s with mem := memWrite s.mem 129 [1] }
    let lanes : State := { s with mem := memWrite s.mem 3 [1] }.updCore 0 fun k => { k with laneHolder := some 0 }
    reads (twoContexts {} false) (fun img _ => img 2 1 != 1) = true ∧
    reads other (fun img _ => img 2 1 == 1 && slotClean img && img 4 1 != 0) = true ∧
    reads reserved (fun img _ => img 2 1 == 1 && !slotClean img) = true ∧
    reads both (fun img u => img 2 1 == 1 && slotClean img && img 4 1 == 0 && !free u 0 && !free u 1) = true ∧
    reads lanes (fun img u => img 2 1 == 1 && slotClean img && img 4 1 == 0 && !free u 0 && free u 1 && laneBusy u 0 img) = true ∧
    reads s (fun img u => img 2 1 == 1 && slotClean img && img 4 1 == 0 && !free u 0 && free u 1 && !laneBusy u 0 img) = true := by
  decide +kernel

theorem test_witness_ContextsAndSeeds_seed :
    let s := twoOwners true (paged sm 0 [])
    (base.onCx fun k => { k with woke := some (.idle true) }).cx.woke = some (.idle true) ∧ base.cx.woke = none ∧
    (s.cx.crs.cmode = true ∧ s.oid = 0 ∧ (s.ownerSt 1).valid = true ∧ (s.ownerSt 1).susp = true ∧ (s.ownerSt 0).susp = false) ∧
    ownerBusy s 1 = false ∧
    ownerBusy (s.onNet fun n => { n with flight := [{ flightOf s 0 (.count 1 false) 0 (leafOf sm 0) .device true with owner := 1 }] }) 1 = true ∧
    (s.getX 6).toNat % 16 = 0 ∧ answers (readPairAt s (s.getX 6)) (fun _ => true) = true := by decide +kernel

theorem test_witness_SharesAndQueries :
    let s := twoOwners false base
    let shares := (s.dieSt 8).share.getD 0 []
    let floors := (s.dieSt 8).floors.getD 0 []
    let own : List Share := shares.set 1 ⟨some 1, 0⟩
    let sum := fun (v : Nat) => ((floors.set 0 ⟨some 1, v⟩).map fun (f : Floor) => f.floor).sum
    (8 : Nat) < 9 ∧ (s.ownerSt 1).valid = true ∧ s.oid = 0 ∧ s.cx.crs.cmode = true ∧ s.cx.fir.oid = 0 ∧ (asOwner 1 s).oid ≠ 0 ∧
    (own[1]?.bind fun (e : Share) => e.owner) = some 1 ∧ (shares.all fun e => e.owner != some 1) = true ∧
    24 < sum 25 ∧ sum 24 ≤ 24 ∧ (0 : Nat) < (s.dieSt 8).floors.length ∧ (175 : Nat) < 176 ∧ (65535 : Nat) < 65536 := by decide

/-- A report's or a secret's destination at 0x10000, and the nonce below it. -/
theorem test_witness_Attestation_report :
    answers (loadWords (paged sm 0 []) 0x10200 none 4) (fun p =>
      answers (checkPieces (storePieces 64 0x10000 (attestation p.2 p.1)) p.2) fun q =>
        answers (storeAll q.2 q.1 (q.2.scope none) false) fun _ => true) = true := by decide +kernel
theorem test_witness_Attestation_decapsulate :
    let s := paged sm 0 []
    let hidden := (asOwner 1 (twoOwners false s)).updOwner 1 fun o => { o with isSealed := true }
    let e := sm + 2 ^ 57 + 1
    let own := hidden.updCore 0 fun k => { k with tlb1 := [⟨1, 0, 1, e, 0⟩, ⟨1, 0, 2, e + 0x10000, 0⟩] }
    let plain := hidden.updCore 0 fun k => { k with tlb1 := [⟨1, 0, 1, sm, 0⟩] }
    (0x10020 : Word).toNat % 32 = 0 ∧ (s.ownerSt s.oid).isSealed = false ∧ (own.ownerSt own.oid).isSealed = true ∧
    answers (storeCheck plain 0x10000 32) (fun p => !entrySealed p.1.entry) = true ∧
    answers (storeCheck own 0x10000 32) (fun p => entrySealed p.1.entry && p.1.owner == own.oid &&
      answers (loadWords p.2 0x20000 none 136) fun q => answers (storeOne q.2 0x10000 p.1 (List.replicate 32 0) .device false) fun _ => true) =
      true := by decide +kernel

/-! The events: homes, answers, engines, contexts, failures and the world outside. -/

/-- `paged sm` with accesses on their way. -/
def flying (fs : List Flight) : State := (paged sm 0 []).onNet fun n => { n with flight := fs, nextId := 9 }
/-- An access of the running context to the doubleword at 0x10000, which waits for its grant at its home or has reached the
sequencer die. -/
def access (kind : FlightKind) : Flight :=
  let f := flightOf (paged sm 0 []) 3 kind 0x10000 (leafOf sm 0) .device false
  { f with path := match kind with
      | .repl _ => []
      | _ => f.path.getLast?.toList }
/-- The line at 0x10000 is marked. -/
def markedS (s : State) : State := s.onHome fun h => { h with marks := [(512, .poisoned)] }
/-- The line at 0x10000 is in the far tier. -/
def farS (s : State) : State :=
  s.onHome fun h => { h with copies := [⟨.far (sliceKey s 0 512), 512, 0, 0, 0, false, 0, none, 0, 0, 0, false⟩] }

theorem no_pass (s : State) (h : ∀ p ∈ s.owners, p.2.mpass = none) (o : Nat) : (s.ownerSt o).mpass = none := by
  have key : ∀ l : List (Nat × OwnerSt), (∀ p ∈ l, p.2.mpass = none) → (tget {} l o).mpass = none := by
    intro l
    induction l with
    | nil => intro _; rfl
    | cons p l ih =>
      intro hl
      by_cases hp : p.1 = o
      · simpa [tget, tfind, hp] using hl p (by simp)
      · have := ih fun q hq => hl q (by simp [hq])
        simpa [tget, tfind, hp] using this
  exact key _ h

theorem test_witness_HomesApply :
    let f := access (.store [1, 2, 3, 4, 5, 6, 7, 8])
    let s := farS (flying [f])
    let q := flying [access (.repl [1])]
    let c := access (.pclr clsRepl none)
    let late := { f with path := f.path.map fun q => (3, q.2), fetched := false }
    let r : ReplStore := ⟨1, 1, base.cur, 0, 0x10000, 0, [1], [0], false⟩
    let z : State := { (paged sm 0 []).onHome fun h => { h with replLog := [r] } with now := 3 }
    (s.net.flight.find? (fun (g : Flight) => g.id == f.id) = some f ∧ (∀ g ∈ s.net.flight, g = f) ∧ f.earlier = false ∧ f.ctx.which < 3 ∧
      (s.ownerSt f.oid).rpl.mode = 0 ∧ mayApply s f = true ∧ marked s f.owner (f.pa / 128) = false ∧ f.isLoad = false ∧
      mayApply (markedS s) f = true ∧ marked (markedS s) f.owner (f.pa / 128) = true ∧ f.path.map (·.1) = [2] ∧
      fetches s f = false ∧ fetches (flying [f]) f = true ∧ mayApply (flying [f]) f = true ∧ late.path.map (·.1) = [3] ∧
      mayApply (flying [late]) late = true ∧ isCount f = false ∧ isCount (access (.count 1 false)) = true ∧ inWindow f.pa = false) ∧
    (mayApply (flying [access (.atomic .add .d 1 0)]) (access (.atomic .add .d 1 0)) = true ∧
      mayApply (flying [access (.mxacc 0 6)]) (access (.mxacc 0 6)) = true ∧ mayApply (flying [access (.count 1 false)]) (access (.count 1 false)) = true ∧
      mayApply (flying [access (.pclr clsSm none)]) (access (.pclr clsSm none)) = true ∧ s.home.watches = []) ∧
    (mayStamp q (access (.repl [1])) = true ∧ marked q 0 512 = false ∧ mayStamp (markedS q) (access (.repl [1])) = true ∧
      marked (markedS q) 0 (replicaPa 0x10000 4 / 128) = false ∧
      marked (q.onHome fun h => { h with marks := [(replicaPa 0x10000 4 / 128, .lost)] }) 0 (replicaPa 0x10000 q.dev.seqDie / 128) = true ∧
      mayStamp (flying [{ c with path := [] }]) { c with path := [] } = true) ∧
    (z.home.replLog.find? (fun (q : ReplStore) => q.dies.contains 0) = some r ∧ r.stamp ≠ z.now ∧
      marked z 0 (replicaPa r.pa 0 / 128) = false ∧ base.home.replLog = []) ∧
    (∀ p ∈ s.owners, p.2.mpass = none) ∧ ∀ p ∈ z.owners, p.2.mpass = none := by decide +kernel

theorem test_witness_AnswersAndCopies :
    let p : Pend := { reg := 5, mark := 3, stamp := some 4, scope := .device }
    let s := (paged sm 0 []).onCx fun k => { k with pend := [p] }
    let f := { access (.count 1 false) with state := .refused }
    let denied := { access (.store [1]) with state := .denied }
    let gone := { access (.count 1 false) with state := .lost }
    let old : State := { copyAt (paged sm 0 []) with now := 200 }
    let k : Copy := ⟨.near 0, 512, 7, 0, 100, true, 0, none, 0x10000, 0, 0, false⟩
    let near := (paged sm 0 []).onHome fun h => { h with copies := [k] }
    let pl := crPlace (leafOf cr 0) 0x10000
    let part := (paged cr 0 []).onHome fun h => { h with partials := [⟨0, pl, CrLine.empty, 0, 0, 0, some 0⟩] }
    let g : ClassChange := ⟨0, 0, 1, sm, cr, 0⟩
    let change : State := { (paged sm 0 []).onHome fun h => { h with classChanges := [g] } with now := 3 }
    (s.home.copies = [] ∧ s.net.flight = [] ∧ s.cur.which < 3 ∧ (5 : XReg) ≠ 0 ∧ (s.ctxOf s.cur).pend.find? (fun (p : Pend) => p.reg == 5) = some p ∧ pendReady s s.cur p = true) ∧
    ((flying [f]).net.flight.find? (fun (g : Flight) => g.id == f.id) = some f ∧ f.turnedAway = true ∧ f.ctx.which < 3 ∧
      denied.turnedAway = true) ∧
    (gone.turnedAway = false ∧ homeGone (flying [gone]) gone = true) ∧
    ((findCopy old (.l1 0) 512).isSome = true ∧ passed old.now 100 = true) ∧
    (findCopy near (.near 0) 512 = some k ∧ k.dirty = true ∧ marked near k.owner 512 = false ∧ ∀ p ∈ near.owners, p.2.mpass = none) ∧
    ((part.home.partials.find? fun (p : Partial) => p.die == 0 && p.place.line == pl.line && p.evicted.isSome) = partialOf part 0 pl.key ∧
      (partialOf part 0 pl.key).isSome = true ∧ (part.ownerSt pl.owner).rpl.mode = 0 ∧ Memory.wf part.mem = true) ∧
    (change.home.classChanges[0]? = some g ∧ changeReady change g = true ∧ entryCls g.newEntry = clsCr ∧ Memory.wf change.mem = true) := by
  decide +kernel

/-- A matrix operation of depth 64 on zeros, with its destination at 0x10000, at the head of the slice of core 0. -/
def zeroOp : MatOp :=
  { opAt 3 base.cur with
    daddr := 0x10000, dfld := 128, a := { rows := List.replicate 32 (List.replicate 64 0) }
    b := { rows := List.replicate 64 (List.replicate 32 0) }, started := true }
/-- The slice of core 0 holds an operation. -/
def sliceS (o : MatOp) : State := (paged cr 0 []).updCore 0 fun k => { k with slice := [o] }

theorem test_witness_EnginesAct_core :
    let a : Announce := ⟨3, 0, 0, 0, .word 63 3 1, 0, base.cur, 0, 0, 0⟩
    let s := base.updCore 0 fun k => { k with annQueue := [a] }
    let w : State := { base.onNet fun n => { n with announced := [a] } with now := 384 }
    let idle := { zeroOp with started := false }
    let bad := { zeroOp with mfmt := 0xFF }
    let gang := { idle with position := some ⟨3, 0, 0⟩ }
    let late : State := { sliceS gang with now := 65536 }
    let cold : State := { base with now := 2 ^ 20 }
    let held : State := { base.updCore 0 fun k => { k with hold := some (0, 5), laneClearing := true } with now := 5 }
    ((s.coreSt 0).failed = false ∧ (s.coreSt 0).annQueue = [a] ∧ (s.ownerSt 0).rpl.mode = 0 ∧ a.ctx.which < 3) ∧
    (dueWindow w = some 0 ∧ w.net.announced.filter (fun (a : Announce) => a.window == 0) = [a]) ∧
    (engineRuns (sliceS idle) 0 = true ∧ unstarted (sliceS idle) 0 = some idle ∧ idle.position = none) ∧
    ((sliceS bad).coreSt 0 |>.slice.head?) = some bad ∧ (opFault bad).isSome = true ∧ opFault zeroOp = none ∧
    (((late.coreSt 0).slice.find? fun (x : MatOp) => !x.started && x.position.isSome) = some gang ∧ 0 ∈ memberCores 0 3 ∧
      positionOp late 0 ⟨3, 0, 0⟩ = some gang ∧ (∃ c ∈ memberCores 0 3, positionOp late c ⟨3, 0, 0⟩ = none) ∧ atOrPast late.now (gang.issuedAt + 65536) = true) ∧
    ((cold.coreSt 0).slice = [] ∧ (cold.coreSt 0).hold = none ∧
      atOrPast cold.now ((cold.coreSt 0).lastDone + cyclesNs cold (clusterOf 0) 256) = true) ∧
    ((held.coreSt 0).hold = some (0, 5) ∧ atOrPast held.now 5 = true ∧ (held.coreSt 0).laneClearing = true) := by decide +kernel

set_option maxRecDepth 100000 in
theorem test_witness_EnginesAct_contribute :
    (match contribute (sliceS zeroOp) zeroOp with | .done _ => true | _ => false) = true := by decide +kernel
/-- The destination lies on no page. -/
theorem test_witness_EnginesAct_contribute_fault :
    let o := { zeroOp with daddr := 0x900000 }
    opFault o = none ∧ (match contribute (sliceS o) o with | .fault _ => true | _ => false) = true := by decide +kernel

theorem test_witness_EnginesAct_cluster :
    let ctl : Word := BitVec.ofNat 64 (31 * 2 ^ 59 + 16)
    let q : CopyOp := { tag := 3, kind := .cpy, dAddr := 0x3000000, dShape := 2 ^ 62, sAddr := 0x4000000, sShape := 2 ^ 62, ctl := ctl, wit := 0,
                        scope := .device, na := false, ctx := base.cur, oid := 0, sMode := true, pc := 0, handles := [3, 4] }
    let run := { q with started := true }
    let done := { run with sent := true }
    let at_ := fun (q : CopyOp) => (base.updCluster 0 fun k => { k with
      bufs := [(3, { owner := 0, holder := 16, size := 8192 }), (4, { owner := 0, holder := 16, size := 8192 })], copyQ := [q] })
    let d : Delivery := ⟨0, 0x3000000, [(0, [1])], 0, 1, 0, 0⟩
    let o : Landing := ⟨15, 0, 1, 0, 0, 0, 0, 1, true, [(3, 0, false)], 0, 0⟩
    let held : Buf := { owner := 0, holder := 17, size := 8192 }
    let lands := ((landS o).updCluster 0 fun k => { k with bufs := [(3, held)] }).onNet fun n => { n with inbound := [d] }
    ((at_ q).clusterSt 0).copyQ.filter (fun (x : CopyOp) => !x.started) = [q] ∧ q.src.kind < 2 ∧ ((at_ q).clusterSt 0).halted = false ∧
    ((at_ run).clusterSt 0).copyQ.find? (fun (x : CopyOp) => x.tag == 3) = some run ∧ (copyWork (at_ run) 0 run).isSome = true ∧
    copyDone (at_ done) 0 done = true ∧ done.ctx.which < 3 ∧
    (lands.net.inbound[0]? = some d ∧ arrival lands d = .lands 0 o 0 3) := by decide +kernel

/-- A record of launch 1 of owner 0, and a deque entry that holds it. -/
def rec1 : BitVec 512 := BitVec.ofNat 512 (0x1000 + 1 * 2 ^ 212)
def entry1 : DequeEntry := { record := rec1, addr := 0x10000, startWit := 0, fid := 7 }

theorem test_witness_EnginesAct_tasks :
    let f : Fire := ⟨0, 0, 0, rec1, 0x10000, 0, 7⟩
    let s := (taskS []).onHome fun h => { h with fires := [f] }
    let g := s.onHome fun h => { h with fires := dropAt h.fires 0 }
    let c : CtxId := ⟨0, 1⟩
    let pend := (taskS []).updCore 0 fun k => { k with pendPush := [⟨entry1, none⟩] }
    let ready := (taskS []).updCore 0 fun k => { k with deque := [entry1] }
    let full := (ready.setCtx c { life := .running })
    let steal := full.onNet fun n => { n with steals := [⟨1, 0⟩] }
    let red := (taskS []).onNet fun n => { n with redispatch := [⟨entry1, 0, 0⟩] }
    (s.home.fires[0]? = some f ∧ (launchCancelled g ⟨0, 3⟩ 0 (recLaunch f.record)).1 = false ∧ recRearm f.record = false ∧
      (pushDeque (launchCancelled g ⟨0, 3⟩ 0 (recLaunch f.record)).2 (pushTarget g f.core f.oid) f.oid { record := rec1, addr := 0x10000, startWit := 0, fid := 7 } false).isSome = true) ∧
    ((pend.coreSt 0).pendPush = [⟨entry1, none⟩] ∧ (pushDeque pend 0 (recOwner entry1.record) entry1 true).isSome = true) ∧
    (canDispatch ready c = true ∧ (ready.coreSt 0).deque = [entry1] ∧ entry1.resume = none ∧ entry1.spill = none ∧
      (launchCancelled (dequeTake ready 0 0) ⟨0, 3⟩ (ready.coreOwner 0) (recLaunch entry1.record)).1 = false) ∧
    (canSteal base 1 = true ∧ (base.coreSt 1).stealFails < 64 ∧ 2 ∈ (base.coresOf 0).filter (· != 1)) ∧
    (steal.net.steals[0]? = some ⟨1, 0⟩ ∧ steal.coreOwner 0 = steal.coreOwner 1 ∧ hasFree steal 0 = false ∧
      pickEntry (steal.coreSt 0).deque false = some 0 ∧ (steal.coreSt 0).deque[0]? = some entry1) ∧
    red.net.redispatch[0]? = some ⟨entry1, 0, 0⟩ := by decide +kernel

theorem test_witness_ContextsAct_causes :
    let c := fun (k : Ctx) => pendingCause base k
    let r : Ctx := { base.cx with crs := {} }
    c { r with lostPend := [(1, 0x10000)] } = some .lost ∧ c { r with engFaults := [⟨.poison, none, 0, 3⟩, ⟨.perm, none, 0, 2⟩] } = some .engine ∧
    firstFault [⟨.poison, none, 0, 3⟩, ⟨.perm, none, 0, 2⟩] = some (⟨.perm, none, 0, 2⟩, [⟨.poison, none, 0, 3⟩]) ∧
    haltedAt base base.cur.core = false ∧
    c { r with timerPend := true } = some .timer ∧ c { r with noticeSet := 1, crs := { nmask := 1 } } = some .notice ∧
    c { r with preempt := true } = some .preempt ∧ r.wait = none ∧ r.woke = none ∧ (⟨0, 1⟩ : CtxId) ≠ base.cur ∧
    (let t : State := { withCrs (fun q => { q with tdline := 2 ^ 63 + 5 }) base with now := 5 }
     timerDue t (t.ctxOf t.cur) = true ∧ (t.ctxOf t.cur).life = .running) := by decide +kernel

/-- A valid save of context F0 of core 0, made by a suspension, in slot 0 of owner 0, and the context free. -/
def savedS : State :=
  let s := { paged sm 0 [] with mem := memWrite (paged sm 0 []).mem 2 [1, 4] }
  (s.updOwner 0 fun o => { o with slotsUsed := [0] }).setCtx s.cur {}

theorem test_witness_ContextsAct_saved :
    (suspdSlots savedS 0).find? (fun (p : Nat × CtxId) => p.1 == 0) = some (0, ⟨0, 0⟩) ∧ (savedS.ownerSt 0).valid = true ∧
    (savedS.ownerSt 0).susp = false ∧ coreOpen savedS 0 = true ∧ savedS.coreOwner 0 = 0 ∧ (savedS.ctxOf ⟨0, 0⟩).life = .free ∧
    (resumeSlot savedS ⟨0, 0⟩ 0 0).isSome = true := by decide +kernel

theorem test_witness_ContextsAct_time :
    let wait := fun (w : Wait) => base.onCx fun k => { k with wait := some w }
    let b : Barrier := ⟨0, 3, 2, 1024, true, [], some 0, false⟩
    let late : State := { barS b with now := 1024 }
    let m : MPass := ⟨0x10000, 0, 0, 0x10100, 1, 0, 9, 0, 0x30000, 0x10000, 0x40000, [], [], [], [], 0, 0, 0, false, false⟩
    let pass := (taskS []).updOwner 0 fun o => { o with mpass := some m }
    let f := access (.atomic .add .d 1 0)
    let r : Replay := { mode := 2, log := 0x10000, size := 96, count := 1, holds := [(3, 0)] }
    let quota := (base.updCluster 0 fun k => k).updDie 0 fun d => { d with farQuotas := [(0, quotasReset 16)] }
    let due := quota.onDev fun d => { d with intervals := 1 }
    let held : State := { (flying [f]).updOwner 0 fun o => { o with rpl := r } with
      now := 2 ^ 20, mem := memWrite (memWrite (flying [f]).mem 0x10008 (leBytes 8 1)) 0x10040 (leBytes 32 (3 + 0x10000 * 2 ^ 64 + 5 * 2 ^ 128)) }
    (waitOver (wait .copyQueue) base.cur .copyQueue = true ∧ waitOver (wait (.register 5)) base.cur (.register 5) = true) ∧
    (tfind (late.dieSt 0).barriers 15 = some b ∧ b.started = some 0 ∧ atOrPast late.now (0 + BitVec.ofNat 48 b.timeout) = true) ∧
    ((pass.ownerSt 0).mpass = some m ∧ passOver pass 0 = true) ∧
    ((heldNow held).find? (fun (h : Held) => h.id == 3) = some ⟨3, 0, some (0, 0)⟩ ∧ tfind (held.ownerSt 0).rpl.holds 3 = some 0 ∧
      atOrPast held.now (0 + BitVec.ofNat 48 (2 ^ 20)) = true) ∧
    ((tfind due.clusters 0).any (fun k => decide (k.quotas.done < due.dev.intervals)) = true ∧
      (tfind (due.dieSt 0).farQuotas 0).any (fun q => decide (q.done < due.dev.intervals)) = true) := by decide +kernel

theorem test_witness_FailuresAct :
    let s := base
    let b : Buf := { owner := 0, holder := 0, size := 8192 }
    let lane := base.updCore 0 fun k => { k with laneHolder := some 0 }
    let fatal := base.updCluster 0 fun k => { k with fatal := true }
    let halted := base.updCluster 0 fun k => { k with halted := true }
    (0 * 128 < hbmEnd ∧ (s.ctxOf s.cur).life = .running ∧ s.cur.which < 3) ∧
    (bufOf (buffers s) 0 3 = some b ∧ 16 * 511 < b.size) ∧ (lane.coreSt 0).laneHolder ≠ none ∧
    ((findCopy (copyAt s) (.l1 0) 512).map (·.dirty)) = some false ∧ ((27 : Nat) ∉ s.dev.linksDown ∧ (27 : Nat) < 28 ∧ 28 ≤ (28 : Nat) ∧ (1023 : Nat) < 1024 ∧ (3 : Nat) < 4) ∧ (s.coreSt 0).failed = false ∧
    (s.clusterSt 287).failed = false ∧ (s.dieSt 8).failed = false ∧ (fatal.clusterSt 0).fatal = true ∧ (s.clusterSt 0).halted = false ∧
    (halted.clusterSt 0).halted = true ∧ s.dev.crash = false := by decide

/-- The root table of owner 0 at 0 and a second-level leaf that maps the first GiB to itself, and an aperture over 0x10000. -/
def apertureS (cnt : Bool) : State :=
  let root := memWrite base.mem 0 (leBytes 8 (2 ^ 63 + 0x20000))
  let t : State := { base with mem := memWrite root 0x20000 (leBytes 8 (2 ^ 63 + 2 * 2 ^ 60 + 2 ^ 56 + 15 * 2 ^ 52)) }
  t.onDev fun d => { d with apertures := [(63, { ctl := if cnt then 7 else 3, size := 0x10000, vbase := 0x10000 })] }

theorem test_witness_WorldActs :
    let rd : Inbound := ⟨0, 63, 0xFFF8, .read 8⟩
    let wr : Inbound := ⟨0, 63, 0, .write [1, 2, 3, 4, 5, 6, 7, 8]⟩
    let long : Inbound := ⟨0, 63, 4, .read 8⟩
    let s := apertureS false
    let one := fun (q : Inbound) (va : Word) (long : Bool) =>
      (inLeaves q 0 va [(0, 8)] s).1.any fun p => p.length == 1 && p.all fun l => l.2.2.cls == clsSm &&
        !marked s l.2.2.owner l.2.2.line && decide (va.toNat % 128 + 8 ≤ 128) && decide (8 < l.2.2.pa % 8 + 8) == long
    apertureOf base rd = none ∧ (apertureOf s rd).any (fun a => !a.cnt && a.w && a.oid == 0) = true ∧ s.dev.inQueue = [] ∧ s.dev.inBusy = [] ∧
    inPending s 0 = false ∧ one rd (0x10000 + 0xFFF8) false = true ∧ one wr 0x10000 false = true ∧ one long 0x10004 true = true ∧
    (0xFFF8 + 8 ≤ (0x10000 : Word).toNat) ∧
    (let c := apertureS true
     (apertureOf c wr).any (fun a => a.cnt && a.w) = true ∧
      (inCheck c wr 0 0x10000).1.any (fun l => l.cls == clsSm && !marked c l.owner l.line) = true ∧ c.home.watches = []) ∧
    (33554424 + 8 ≤ 33554432) ∧
    (let n := base.onDev fun d => { d with nvmeDma := [1] }
     (0x10078 % 128 + 8 ≤ 128 ∧ 0x10078 < hbmEnd ∧ 0x10078 / 65536 ∈ n.dev.nvmeDma ∧ tfind n.home.sealTags (0x10078 / 65536) = none ∧
      marked n 0 (0x10078 / 128) = false)) ∧
    (State.reset.powered = true ∧ State.reset.bootst = 0 ∧ Memory.wf State.reset.mem = true ∧ (5 : BitVec 8) ≠ 6) ∧
    (fieldN (0x0202 : Word) 15 8 = 2 ∧ fieldN (6 : Word) 15 8 < 2 ∧ 4 < fieldN (0x0505 : Word) 15 8 ∧ 0 < (6 : Word).toNat ∧
      (6 : Word).toNat + 1 ≤ 7) := by decide +kernel

/-- Page 0 of `base`. -/
def page0 : Word := BitVec.ofNat 64 (2 ^ 63 + 2 * 2 ^ 60 + 15 * 2 ^ 52)

theorem base_reaches (va : Word) (h : va.toNat < 65536) (h8 : va.toNat % 8 = 0) : Reaches base va 8 .r ⟨page0, 0, 0, va.toNat⟩ := by
  have hp : vpageOf va 0 = 0 := Nat.div_eq_of_lt h
  have hl : leafPa page0 0 va = va.toNat := by
    have : entryBase page0 = 0 := by decide
    simp only [leafPa, this, Nat.zero_add]
    exact Nat.mod_eq_of_lt h
  have hf : tlbLookup (base.coreSt base.coreNo).tlb1 base.oid va = some ⟨0, 0, 0, page0, 0⟩ := by
    have : (base.coreSt base.coreNo).tlb1 = [⟨0, 0, 0, page0, 0⟩] := by decide
    rw [this]
    have ho : base.oid = 0 := by decide
    rw [ho]
    have : tlbFind [⟨0, 0, 0, page0, 0⟩] 0 0 va = some ⟨0, 0, 0, page0, 0⟩ := by
      simp [tlbFind, hp]
    rw [tlbLookup, this]; rfl
  have hi : inWindow va.toNat = false := by
    simp only [inWindow, inHost, inLink, Bool.or_eq_false_iff, Bool.and_eq_false_iff, decide_eq_false_iff_not]
    omega
  refine ⟨⟨by omega, ?_⟩, h8, ?_, (by decide : permOk base.who .r page0 = true),
    (by decide : (entryCls page0).toNat < 5), ?_, fun k => absurd k (by decide : entryCls page0 ≠ clsCr)⟩
  · have : base.home.classes = [] := by decide
    rw [hf]
    simp [underOld, pageClass, this, hl]
  · have : base.home.sealTags = [] := by decide
    have e : entrySealed page0 = false := by decide
    simp only [sealOk, this, e, tfind]; rfl
  · intro k; rw [hi] at k; cases k

theorem base_atHome (pa : Nat) (h : pa < 65536) : AtHome base ⟨page0, 0, 0, pa⟩ 8 := by
  refine ⟨(by decide : entryCls page0 = clsSm), ?_, ?_, ?_⟩
  · simp only [inWindow, inHost, inLink, Bool.or_eq_false_iff, Bool.and_eq_false_iff, decide_eq_false_iff_not]
    omega
  · have h1 : base.home.marks = [] := by decide
    have h2 : base.home.dieLost = [] := by decide
    have h3 : base.home.chanLost = [] := by decide
    simp [marked, h1, h2, h3]
  · have : base.net.flight = [] := by decide
    exact ⟨by rw [ownFlight, this]; rfl, rfl⟩

/-- MEASURE of the unit at address 0, which the list at address 0 names. -/
theorem test_witness_Attestation_measure : ∃ ls u v bs w, loadWords base 0 none 1 = .ok (ls, u) ∧
    checkUnits ((List.range 1).map fun i => BitVec.ofNat 64 (leNat ((ls.drop (8 * i)).take 8))) u = .ok v ∧
    readUnits ((List.range 1).map fun i => BitVec.ofNat 64 (leNat ((ls.drop (8 * i)).take 8))) v = .ok (bs, w) := by
  have r0 : Reaches base 0 8 .r ⟨page0, 0, 0, 0⟩ := base_reaches 0 (by decide) (by decide)
  obtain ⟨u, h1, h2, h3⟩ := loadBytes_atHome none false r0 (base_atHome 0 (by decide)) (by decide)
  have hs : seen base 0 8 = List.replicate 8 0 := by decide
  have hv : ((List.range 1).map fun i => BitVec.ofNat 64 (leNat (((List.replicate 8 0 : List Byte).drop (8 * i)).take 8))) = [0] := by decide
  have toNat (i : Nat) (hi : i < 8192) : (0 + BitVec.ofNat 64 (8 * i) : Word).toNat = 8 * i := by
    rw [show (0 : Word) = 0#64 from rfl, BitVec.zero_add, BitVec.toNat_ofNat]; omega
  obtain ⟨bs, w, h4, -, -⟩ := loadWords_atHome none 8192 u 0 (fun i => ⟨page0, 0, 0, 8 * i⟩)
    (fun i hi => by
      have := (base_reaches (0 + BitVec.ofNat 64 (8 * i)) (by rw [toNat i hi]; omega) (by rw [toNat i hi]; omega)).mono h2 h3
      rwa [toNat i hi] at this)
    (fun i hi => (base_atHome (8 * i) (by omega)).mono h2) (fun _ _ => (by decide : entrySealed page0 = false))
  refine ⟨List.replicate 8 0, u, u, bs, w, ?_, ?_, ?_⟩
  · rw [hs] at h1
    simp only [loadWords, h1, bind, Except.bind]
    rfl
  · rw [hv]
    have := (r0.mono h2 h3).check
    have ho : ((⟨page0, 0, 0, 0⟩ : Leaf).owner != u.oid) = false := by
      rw [h2.kept.2.1]; decide
    simp only [checkUnits, this, bind, Except.bind, ho]
    rfl
  · rw [hv]
    simp only [readUnits, h4, bind, Except.bind]
    simp
/-! ### One instruction each: the examples of spec/, and cases worked out by hand from its rules -/

/-- The instruction answers a next state of which `p` holds. -/
def gives (i : Instr) (s : State) (p : State → Bool) : Bool :=
  match exec i s with
  | .next t => p t
  | _ => false

/-- A vector register whose lowest lanes of `w` bits are given, and whose others are `d`. -/
def lanes (w : Nat) (d : Int) (l : List Int) : Vec :=
  BitVec.ofNat 512 ((List.range (512 / w)).foldl (fun (n i : Nat) => n + (l.getD i d % 2 ^ w).toNat * 2 ^ (w * i)) 0)

/-- `s` with some vector registers of the running context set. -/
def withV (s : State) (l : List (Nat × Vec)) : State :=
  s.onCx fun k => { k with v := l.foldl (fun v p => v.set! p.1 p.2) k.v }
/-- `s` with some mask registers of the running context set. -/
def withM (s : State) (l : List (Nat × Word)) : State :=
  s.onCx fun k => { k with m := l.foldl (fun v p => v.set! p.1 p.2) k.m }

/-- The first lanes of a register, as signed numbers. -/
def firstLanes (s : State) (a : VReg) (w n : Nat) : List Int := (List.range n).map fun i => laneS (s.getV a) w i

-- spec/05_core_instructions.md, the table after R129.
theorem test_li_lih : gives (.li 5 (BitVec.ofInt 64 (-2))) base (fun s =>
    s.getX 5 == 0xFFFFFFFFFFFFFFFE && gives (.lih 5 7) s fun t => t.getX 5 == 0x00000007FFFFFFFE) = true := by decide +kernel
theorem test_div_overflow : gives (.div 5 5 6 .w) (withX base [(5, 0xFFFFFFFF80000000), (6, 0xFFFFFFFFFFFFFFFF)])
    (fun t => t.getX 5 == 0xFFFFFFFF80000000) = true := by decide +kernel
theorem test_srai_byte : gives (.srai 5 .b 7) (withX base [(5, 0x80)]) (fun t => t.getX 5 == 0xFFFFFFFFFFFFFFFF) = true := by
  decide +kernel
/-- R129: without RGX the third operand is x0, and the condition is the old xa. -/
theorem test_sel : gives (.sel 5 6 7) (withX base [(5, 1), (6, 60), (7, 70)]) (fun t => t.getX 5 == 60) = true ∧
    gives (.sel 5 6 7) (withX base [(6, 60), (7, 70)]) (fun t => t.getX 5 == 70) = true := by decide +kernel

-- R125, R126, R128: by hand.
theorem test_add_wraps : gives (.add 5 6 7 .b) (withX base [(6, 0x7F), (7, 0xF01)]) (fun t => t.getX 5 == 0xFFFFFFFFFFFFFF80) = true := by
  decide +kernel
theorem test_sub_order : gives (.sub 5 6 7 .d) (withX base [(6, 3), (7, 5)]) (fun t => t.getX 5 == 0xFFFFFFFFFFFFFFFE) = true := by
  decide +kernel
theorem test_mulh_byte : gives (.mulh 5 6 7 .b) (withX base [(6, 0x80), (7, 0x80)]) (fun t => t.getX 5 == 0x40) = true := by decide +kernel
theorem test_mulhu_half : gives (.mulhu 5 6 7 .h) (withX base [(6, 0xFFFF), (7, 0xFFFF)]) (fun t => t.getX 5 == 0xFFFFFFFFFFFFFFFE) =
    true := by decide +kernel
theorem test_rem_sign : gives (.rem 5 6 7 .d) (withX base [(6, 0xFFFFFFFFFFFFFFF9), (7, 2)]) (fun t => t.getX 5 == 0xFFFFFFFFFFFFFFFF) =
    true := by decide +kernel
theorem test_divu_zero : gives (.divu 5 6 7 .h) (withX base [(6, 9)]) (fun t => t.getX 5 == 0xFFFFFFFFFFFFFFFF) = true := by decide +kernel
theorem test_shl_amount : gives (.shl 5 6 7 .w) (withX base [(6, 3), (7, 63)]) (fun t => t.getX 5 == 0xFFFFFFFF80000000) = true := by
  decide +kernel
theorem test_rotl_byte : gives (.rotl 5 6 7 .b) (withX base [(6, 0x81), (7, 9)]) (fun t => t.getX 5 == 3) = true := by decide +kernel
theorem test_sltu_half : gives (.sltu 5 6 7 .h) (withX base [(6, 0x10001), (7, 0xFFFF)]) (fun t => t.getX 5 == 1) = true ∧
    gives (.slt 5 6 7 .h) (withX base [(6, 0x10001), (7, 0xFFFF)]) (fun t => t.getX 5 == 0) = true := by decide +kernel
theorem test_clz_word : gives (.clz 5 6 .w) (withX base [(6, 0xFFFFFFFF00010000)]) (fun t => t.getX 5 == 15) = true := by decide +kernel
theorem test_popc_byte : gives (.popc 5 6 .b) (withX base [(6, 0xFF07)]) (fun t => t.getX 5 == 3) = true := by decide +kernel
theorem test_x0_discards : gives (.add 0 6 7 .d) (withX base [(6, 3), (7, 5)]) (fun t => t.getX 0 == 0) = true := by decide +kernel

-- R130 to R132: targets count from the instruction's first word; CALLR reads its target before it writes x31.
theorem test_bltz : gives (.bltz 5 (BitVec.ofInt 64 (-3))) (withX (base.onCx fun k => { k with pc := 0x100, npc := 0x104 }) [(5, 2 ^ 63)])
    (fun t => t.cx.pc == 0xFA) = true ∧
    gives (.bgez 5 3) (withX (base.onCx fun k => { k with pc := 0x100, npc := 0x104 }) [(5, 2 ^ 63)]) (fun t => t.cx.pc == 0x104) = true := by
  decide +kernel
theorem test_callr_x31 : gives (.callr 31) (withX (base.onCx fun k => { k with pc := 0x100, npc := 0x102 }) [(31, 0x200)])
    (fun t => t.cx.pc == 0x200 && t.getX 31 == 0x102) = true := by decide +kernel
theorem test_jr_odd : gives (.jr 6) (withX (withCrs (fun r => { r with tvec := 0x2001 }) (base.onCx fun k => { k with pc := 0x100, npc := 0x102 }))
    [(6, 0x201)]) (fun t => t.cx.pc == 0x2000 && t.cx.crs.taddr == 0x201 && t.cx.crs.tpc == 0x100 && t.cx.crs.inh) = true := by
  decide +kernel
/-- The example after R132: run A reads the second entry, 0xFFFF_F010, of the table at 0x10000 here; run C falls through. -/
theorem test_jtab : gives (.jtab 5 7 3) (withX ({ paged sm 0 [] with mem := memWrite [] 0x10004 [0x10, 0xF0, 0xFF, 0xFF] }) [(5, 1), (7, 0x10000)])
    (fun t => t.cx.pc == 0xF010) = true ∧
    gives (.jtab 5 7 3) (withX (base.onCx fun k => { k with npc := 8 }) [(5, 0xFFFFFFFFFFFFFFFF), (7, 0x10000)]) (fun t => t.cx.pc == 8) =
      true := by decide +kernel
/-- R133: bits at and above the lane count are ignored. -/
theorem test_bany : gives (.bany 1 .s32 5) (withM (base.onCx fun k => { k with npc := 2 }) [(1, 0x10000)]) (fun t => t.cx.pc == 2) = true ∧
    gives (.bany 1 .s16 5) (withM (base.onCx fun k => { k with npc := 2 }) [(1, 0x10000)]) (fun t => t.cx.pc == 10) = true := by
  decide +kernel

-- The requantisation after R154.
theorem test_vmulh : gives (.vmulh 3 2 1 .s32 0) (withV base [(2, lanes 32 0 [48, 80, -80, 8000]), (1, lanes 32 0x40000000 [])])
    (fun t => firstLanes t 3 32 5 == [12, 20, -20, 2000, 0]) = true := by decide +kernel
theorem test_vrshr : gives (.vrshr 3 3 4 .s32 .dyn 0) (withV base [(3, lanes 32 0 [12, 20, -20, 2000]), (4, lanes 32 3 [])])
    (fun t => firstLanes t 3 32 5 == [2, 2, -2, 250, 0]) = true ∧
    gives (.vrshr 3 3 4 .s32 .rna 0) (withV base [(3, lanes 32 0 [12, 20, -20, 2000]), (4, lanes 32 3 [])])
      (fun t => firstLanes t 3 32 4 == [2, 3, -3, 250]) = true := by decide +kernel
theorem test_vrshr_down : gives (.vrshr 3 3 4 .s32 .rdn 0) (withV base [(3, lanes 32 0 [12, 20, -20, 2000]), (4, lanes 32 3 [])])
    (fun t => firstLanes t 3 32 4 == [1, 2, -3, 250]) = true := by decide +kernel
theorem test_vclamp : gives (.vclamp 3 6 7 .s32 0)
    (withV base [(3, lanes 32 0 [2, 2, -2, 250]), (6, lanes 32 (-128) []), (7, lanes 32 127 [])])
    (fun t => firstLanes t 3 32 5 == [2, 2, -2, 127, 0] && t.cx.crs.fstat == 0) = true := by decide +kernel
theorem test_vcvt : gives (.vcvt 5 3 0x104 .dyn 0) (withV base [(3, lanes 32 0 [2, 2, -2, 127]), (5, lanes 8 9 [])])
    (fun t => firstLanes t 5 8 5 == [2, 2, -2, 127, 0] && laneS (t.getV 5) 8 15 == 0 && laneS (t.getV 5) 8 16 == 9 && t.cx.crs.fstat == 0) =
      true := by decide +kernel

-- R141 to R153: by hand.
theorem test_vperm_two : gives (.vperm 3 3 4 .s32 0) (withV base [(3, lanes 32 0 [10, 11, 12]), (4, lanes 32 0 [2, 17, 0])])
    (fun t => firstLanes t 3 32 4 == [12, 11, 10, 10]) = true := by decide +kernel
theorem test_vrot : gives (.vrot 3 4 .s32 15 0) (withV base [(4, lanes 32 0 [10, 11])]) (fun t => firstLanes t 3 32 3 == [0, 10, 11]) = true := by
  decide +kernel
theorem test_vadd_sat : gives (.vadd 3 4 5 .s8 true 0) (withV base [(4, lanes 8 0 [127, -128]), (5, lanes 8 0 [1, -1])])
    (fun t => firstLanes t 3 8 3 == [127, -128, 0] && t.cx.crs.fstat == 32) = true ∧
    gives (.vadd 3 4 5 .s8 false 0) (withV base [(4, lanes 8 0 [127, -128]), (5, lanes 8 0 [1, -1])])
      (fun t => firstLanes t 3 8 3 == [-128, 127, 0] && t.cx.crs.fstat == 0) = true := by decide +kernel
theorem test_vsub_masked : gives (.vsub 3 4 5 .s16 false 1)
    (withM (withV base [(3, lanes 16 7 []), (4, lanes 16 0 [1, 2]), (5, lanes 16 0 [5, 6])]) [(1, 2)])
    (fun t => firstLanes t 3 16 3 == [7, -4, 7]) = true := by decide +kernel
theorem test_vcmp : gives (.vcmp 2 4 5 .s32 4 1)
    (withM (withV base [(4, lanes 32 0 [1, -1, 1]), (5, lanes 32 0 [-1, 1, -1])]) [(1, 3), (2, 0xFFFF000C)])
    (fun t => t.getM 2 == 0xD) = true := by decide +kernel
theorem test_vsel_two : gives (.vsel 3 3 4 .s32 1) (withM (withV base [(3, lanes 32 1 []), (4, lanes 32 2 [])]) [(1, 1)])
    (fun t => firstLanes t 3 32 2 == [1, 2]) = true := by decide +kernel
theorem test_vdot4 : gives (.vdot4 3 4 5 1 false 0) (withV base [(3, lanes 32 0 [100]), (4, lanes 8 0 [-1, 1]), (5, lanes 8 0 [-1, 2])])
    (fun t => firstLanes t 3 32 1 == [-153]) = true := by decide +kernel
theorem test_vmac_once : gives (.vmac 3 4 5 .s8 true 0) (withV base [(3, lanes 8 0 [-100]), (4, lanes 8 0 [100]), (5, lanes 8 0 [2])])
    (fun t => firstLanes t 3 8 1 == [100] && t.cx.crs.fstat == 0) = true := by decide +kernel
theorem test_vshl : gives (.vshl 3 4 5 .s16 false 0) (withV base [(4, lanes 16 0 [3]), (5, lanes 16 0 [17])])
    (fun t => firstLanes t 3 16 1 == [6]) = true := by decide +kernel
theorem test_vredmax_none : gives (.vredmax 3 4 .s16 1) (withV base [(3, lanes 16 7 []), (4, lanes 16 5 [])])
    (fun t => firstLanes t 3 16 2 == [-32768, 7]) = true := by decide +kernel
theorem test_vredadd : gives (.vredadd 3 4 .s8 true 0) (withV base [(4, lanes 8 3 [])])
    (fun t => firstLanes t 3 8 2 == [127, 0] && t.cx.crs.fstat == 32) = true := by decide +kernel
/-- 1.5 + 2^-24 rounds to 1.5 and sets NX; 1 / +0 is +∞ and sets DZ; ∞ · 0 + NaN is the canonical NaN and sets NV. -/
theorem test_vfadd : gives (.vfadd 3 4 5 .s32 .rne 1) (withM (withV base [(4, lanes 32 0 [0x3FC00000]), (5, lanes 32 0 [0x33800000])]) [(1, 1)])
    (fun t => firstLanes t 3 32 1 == [0x3FC00000] && t.cx.crs.fstat == 1) = true ∧
    gives (.vfadd 3 4 5 .s32 .rup 1) (withM (withV base [(4, lanes 32 0 [0x3FC00000]), (5, lanes 32 0 [0x33800000])]) [(1, 1)])
      (fun t => firstLanes t 3 32 1 == [0x3FC00001]) = true := by decide +kernel
theorem test_vfrcp_zero : gives (.vfrcp 3 4 .s32 .rne 1) (withM base [(1, 1)])
    (fun t => firstLanes t 3 32 1 == [0x7F800000] && t.cx.crs.fstat == 8) = true := by decide +kernel
theorem test_vfma_invalid : gives (.vfma 3 4 5 .s16 .rne 1) (withM (withV base [(3, lanes 16 0 [0x7FC1]), (4, lanes 16 0 [0x7F80])]) [(1, 1)])
    (fun t => firstLanes t 3 16 1 == [0x7FC0] && t.cx.crs.fstat == 16) = true := by decide +kernel
theorem test_vfmin_zero : gives (.vfmin 3 4 5 .s32 1) (withM (withV base [(5, lanes 32 0 [-0x80000000])]) [(1, 1)])
    (fun t => firstLanes t 3 32 1 == [-0x80000000] && t.cx.crs.fstat == 0) = true := by decide +kernel
theorem test_vfexp2 : gives (.vfexp2 3 4 .s32 .rne 1) (withM (withV base [(4, lanes 32 0 [0xC0000000])]) [(1, 1)])
    (fun t => firstLanes t 3 32 1 == [0x3E800000] && t.cx.crs.fstat == 0) = true := by decide +kernel
theorem test_vfred : gives (.vfred 3 4 .s32 .rne 1) (withM (withV base [(4, lanes 32 0 [0x3F800000, 0, 0x40000000])]) [(1, 5)])
    (fun t => firstLanes t 3 32 1 == [0x40400000]) = true := by decide +kernel
theorem test_mlog : gives (.mlog 2 3 4 .s32 3 0) (withM base [(2, 0xFFFFFFFF), (3, 0x3), (4, 0x5)]) (fun t => t.getM 2 == 2) = true := by
  decide +kernel

-- R224, R203, R230: loads extend, a store leaves as an access and reaches memory at its home, an atomic gives the old value.
theorem test_ld_signs : gives (.ld 5 6 .b 1 false) { paged sm 0 [] with mem := memWrite [] 0x10001 [0x80] }
    (fun t => t.getX 5 == 0xFFFFFFFFFFFFFF80) = true ∧
    gives (.ldx 5 6 .b 1 false) { paged sm 0 [] with mem := memWrite [] 0x10001 [0x80] } (fun t => t.getX 5 == 0x80) = true := by
  decide +kernel
theorem test_store_applies : gives (.st 5 6 0 .h 2 none false) (farS (paged sm 0 [(5, 0xABCD1234)])) (fun t => t.mem == [] &&
    match t.net.flight with
    | [f] => gives (.homeApply f.id) t fun u => u.mem == memWrite [] 0x10002 [0x34, 0x12]
    | _ => false) = true := by decide +kernel

/-- A step fetches the word at the pc and runs it; 0x0506 is MOV x8, x6 (R61). The address moves past it (R44). -/
theorem test_step_runs : (match step movS with
    | .next t => t.getX 8 == 5 && t.cx.pc == 2
    | _ => false) = true := by decide +kernel

end Witnesses

end Sys2Proof.Tests
end

section
/-! What the package at power-on holds (R22, R78, R325, R428): its contexts, its owners and its memory. -/

namespace Sys2Proof.Machine

/-- At reset the context that moves next and every other one are fresh. -/
theorem State.reset_ctxOf (c : CtxId) : State.reset.ctxOf c = {} := by
  unfold State.ctxOf
  split <;> rfl

/-- At reset every owner but owner 0 is one that the package has never heard of. -/
theorem State.reset_ownerSt (o : Nat) : State.reset.ownerSt o =
    if o = 0 then { valid := true, seed := Config.entropy 0, applied := BitVec.twoPow 512 63 } else {} := by
  show (if 0 = o then _ else _) = _
  by_cases h : o = 0
  · rw [if_pos h, if_pos h.symm]
  · rw [if_neg h, if_neg (Ne.symm h)]; rfl

/-- A memory that lists nothing reads as bytes that no write has touched. -/
theorem memRead_nil (a n : Nat) : memRead [] a n = List.replicate n 0 := by
  induction n generalizing a with
  | zero => rfl
  | succ n ih => rw [memRead, ih, List.replicate_succ]; rfl

end Sys2Proof.Machine

open Sys2Proof.Machine in
/-- Settles O43: the context and the owners at reset, and memory that lists nothing. -/
theorem resetState : Obligations.ResetState := by
  unfold Obligations.ResetState
  refine ⟨rfl, rfl, rfl, fun c => ?_, rfl, rfl, rfl, fun o => ?_, rfl, memRead_nil, rfl, rfl, rfl, rfl⟩
  · rw [State.reset_ctxOf]
    exact ⟨rfl, rfl, rfl, rfl⟩
  · rw [State.reset_ownerSt]
    split <;> simp_all
end

section

/-! Every step keeps the canonical form of memory (O47): first how the property passes through the checks and steps of an
instruction, then one lemma for each function of the model that gives a state, in the order of the model's files. -/

namespace Sys2Proof.Machine

/-- The memory of a state is in its canonical form (log entry 2). -/
def State.MemOk (s : State) : Prop := Memory.wf s.mem = true

/-- So is that of the state that a waiting instruction leaves, where it leaves one. -/
def Stop.MemOk (e : Stop) : Prop :=
  match e with
  | .wait _ (some t) => t.MemOk
  | _ => True

/-- A result that steps give satisfies `P`, and a state that they stop in has its memory in canonical form. -/
@[irreducible] def ActOk {α : Type} (P : α → Prop) (a : Act α) : Prop :=
  match a with
  | .ok r => P r
  | .error e => e.MemOk

/-- What checks give, where they pass, satisfies `P`. -/
@[irreducible] def ChkOk {ε α : Type} (P : α → Prop) (c : Except ε α) : Prop :=
  match c with
  | .ok r => P r
  | .error _ => True

/-- What there is satisfies `P`. -/
@[irreducible] def OptOk {α : Type} (P : α → Prop) (o : Option α) : Prop :=
  match o with
  | some r => P r
  | none => True

/-- The next state, where there is one, has its memory in canonical form. -/
@[irreducible] def OutOk (o : Host.Outcome State Fault Refusal) : Prop :=
  match o with
  | .next t => t.MemOk
  | .fault _ => True
  | .refused _ => True

theorem ActOk.ok {α : Type} {P : α → Prop} {r : α} (h : P r) : ActOk P (.ok r) := by rwa [ActOk]

theorem ActOk.error {α : Type} {P : α → Prop} {e : Stop} (h : e.MemOk) : ActOk P (.error e : Act α) := by rwa [ActOk]

theorem ChkOk.ok {ε α : Type} {P : α → Prop} {r : α} (h : P r) : ChkOk P (.ok r : Except ε α) := by rwa [ChkOk]

theorem ChkOk.error {ε α : Type} {P : α → Prop} {e : ε} : ChkOk P (.error e : Except ε α) := by rw [ChkOk]; trivial

theorem OptOk.intro {α : Type} {P : α → Prop} {r : α} (h : P r) : OptOk P (some r) := by rwa [OptOk]

theorem OptOk.nothing {α : Type} {P : α → Prop} : OptOk P (none : Option α) := by rw [OptOk]; trivial

theorem OutOk.next {t : State} (h : t.MemOk) : OutOk (.next t) := by rwa [OutOk]

theorem OutOk.of_eq {o : Host.Outcome State Fault Refusal} {t : State} (h : OutOk o) (e : o = .next t) : t.MemOk := by
  rwa [e, OutOk] at h

theorem OutOk.fault {r : Fault} : OutOk (.fault r) := by rw [OutOk]; trivial

theorem OutOk.refused {r : Refusal} : OutOk (.refused r) := by rw [OutOk]; trivial

theorem ChkOk.of_eq {ε α : Type} {P : α → Prop} {c : Except ε α} {r : α} (h : ChkOk P c) (e : c = .ok r) : P r := by
  rwa [e, ChkOk] at h

theorem ActOk.of_eq {α : Type} {P : α → Prop} {a : Act α} {r : α} (h : ActOk P a) (e : a = .ok r) : P r := by
  rwa [e, ActOk] at h

theorem ActOk.of_error {α : Type} {P : α → Prop} {a : Act α} {r : Stop} (h : ActOk P a) (e : a = .error r) : r.MemOk := by
  rwa [e, ActOk] at h

theorem OptOk.of_eq {α : Type} {P : α → Prop} {o : Option α} {r : α} (h : OptOk P o) (e : o = some r) : P r := by
  rwa [e, OptOk] at h

/-- Steps of an instruction, one after the other, as a match. -/
theorem except_bind {ε α β : Type} (x : Except ε α) (f : α → Except ε β) :
    (x >>= f) = match x with
      | .ok a => f a
      | .error e => .error e := by
  cases x <;> rfl

/-- The result of steps changed, as a match. -/
theorem except_map {ε α β : Type} (x : Except ε α) (f : α → β) :
    x.map f = match x with
      | .ok a => .ok (f a)
      | .error e => .error e := by
  cases x <;> rfl

/-- A fold keeps what each of its steps keeps. -/
theorem foldl_keeps {α β : Type} {P : β → Prop} {f : β → α → β} {b : β} (h : P b) (l : List α)
    (hf : ∀ b a, P b → P (f b a)) : P (l.foldl f b) := by
  induction l generalizing b with
  | nil => exact h
  | cons a l ih => exact ih (hf b a h)

theorem foldl_memOk {α : Type} {f : State → α → State} {s : State} (h : s.MemOk) (l : List α)
    (hf : ∀ s a, s.MemOk → (f s a).MemOk) : (l.foldl f s).MemOk := foldl_keeps h l hf

/-- What changes no memory keeps its form. -/
theorem State.MemOk.of_mem {s t : State} (h : s.MemOk) (e : t.mem = s.mem) : t.MemOk := by
  rw [State.MemOk, e]; exact h

/-- Writing bytes keeps the form of memory. -/
theorem State.MemOk.write {s : State} (h : s.MemOk) (a : Nat) (bs : List Byte) :
    { s with mem := memWrite s.mem a bs }.MemOk := memWrite_wf a bs h

/-- Steps, one after the other. -/
theorem ActOk.bind {α β : Type} {Q : α → Prop} {P : β → Prop} {x : Act α} {f : α → Act β} (hx : ActOk Q x)
    (hf : ∀ r, Q r → ActOk P (f r)) : ActOk P (x >>= f) := by
  cases x with
  | ok r => exact hf r (hx.of_eq rfl)
  | error e => exact .error (hx.of_error rfl)

/-- Checks, one after the other. -/
theorem ChkOk.bind {ε α β : Type} {Q : α → Prop} {P : β → Prop} {x : Except ε α} {f : α → Except ε β} (hx : ChkOk Q x)
    (hf : ∀ r, Q r → ChkOk P (f r)) : ChkOk P (x >>= f) := by
  cases x with
  | ok r => exact hf r (hx.of_eq rfl)
  | error e => exact .error

/-- The result of steps changed. -/
theorem ActOk.map {α β : Type} {Q : α → Prop} {P : β → Prop} {x : Act α} {f : α → β} (hx : ActOk Q x)
    (hf : ∀ r, Q r → P (f r)) : ActOk P (x.map f) := by
  cases x with
  | ok r => exact .ok (hf r (hx.of_eq rfl))
  | error e => exact .error (hx.of_error rfl)

theorem OptOk.bind {α β : Type} {Q : α → Prop} {P : β → Prop} {o : Option α} {f : α → Option β} (ho : OptOk Q o)
    (hf : ∀ r, Q r → OptOk P (f r)) : OptOk P (o.bind f) := by
  cases o with
  | some r => exact hf r (ho.of_eq rfl)
  | none => exact .nothing

theorem OptOk.map {α β : Type} {Q : α → Prop} {P : β → Prop} {o : Option α} {f : α → β} (ho : OptOk Q o)
    (hf : ∀ r, Q r → P (f r)) : OptOk P (o.map f) := by
  cases o with
  | some r => exact .intro (hf r (ho.of_eq rfl))
  | none => exact .nothing

theorem OptOk.getD {α : Type} {P : α → Prop} {o : Option α} (ho : OptOk P o) {d : α} (hd : P d) : P (o.getD d) := by
  cases o with
  | some r => exact ho.of_eq rfl
  | none => exact hd

/-- A memory in canonical form, put into a state. -/
theorem State.MemOk.of_wf {s : State} {m : List Host.Cell} (h : Memory.wf m = true) : { s with mem := m }.MemOk := h

/-- Steps that give no state, before others. -/
theorem ActOk.check {α β : Type} {P : β → Prop} {x : Act α} {f : α → Act β} (hx : ActOk (fun _ => True) x)
    (hf : ∀ r, ActOk P (f r)) : ActOk P (x >>= f) := hx.bind fun r _ => hf r

/-- Checks that give no state, as steps. -/
theorem Chk.act_passes {α : Type} (c : Chk α) : ActOk (fun _ => True) c.act := by
  cases c with
  | ok a => exact .ok trivial
  | error f => exact .error (e := f.stop) trivial

theorem ActOk.forM {α : Type} {f : α → Act PUnit} (hf : ∀ a, ActOk (fun _ => True) (f a)) (l : List α) :
    ActOk (fun _ => True) (l.forM f) := by
  induction l with
  | nil => exact .ok trivial
  | cons a l ih => exact (hf a).check fun _ => ih

theorem ActOk.mapM {α β : Type} {f : α → Act β} (hf : ∀ a, ActOk (fun _ => True) (f a)) (l : List α) :
    ActOk (fun _ => True) (l.mapM f) := by
  induction l with
  | nil => exact .ok trivial
  | cons a l ih =>
    rw [List.mapM_cons]
    exact (hf a).check fun _ => ih.check fun _ => .ok trivial

theorem ActOk.foldlM {α β : Type} {P : β → Prop} {f : β → α → Act β} {b : β} (h : P b) (l : List α)
    (hf : ∀ b a, P b → ActOk P (f b a)) : ActOk P (l.foldlM f b) := by
  induction l generalizing b with
  | nil => exact .ok h
  | cons a l ih => exact (hf b a h).bind fun r hr => ih hr

theorem ChkOk.foldlM {ε α β : Type} {P : β → Prop} {f : β → α → Except ε β} {b : β} (h : P b) (l : List α)
    (hf : ∀ b a, P b → ChkOk P (f b a)) : ChkOk P (l.foldlM f b) := by
  induction l generalizing b with
  | nil => exact .ok h
  | cons a l ih => exact (hf b a h).bind fun r hr => ih hr

/-- What is found among things of which each keeps `P`. -/
theorem OptOk.findSome? {α β : Type} {P : β → Prop} {f : α → Option β} (hf : ∀ a, OptOk P (f a)) (l : List α) :
    OptOk P (l.findSome? f) := by
  induction l with
  | nil => exact .nothing
  | cons a l ih =>
    rw [List.findSome?_cons]
    split
    · next heq => exact .intro ((hf a).of_eq heq)
    · exact ih

/-- Steps whose stop is changed. -/
theorem ActOk.mapError {α : Type} {P : α → Prop} {x : Act α} {f : Stop → Stop} (hx : ActOk P x)
    (hf : ∀ e, e.MemOk → (f e).MemOk) : ActOk P (x.mapError f) := by
  cases x with
  | ok r => exact .ok (hx.of_eq rfl)
  | error e => exact .error (hf e (hx.of_error rfl))

/-- A check made on a condition, before other steps. -/
theorem ActOk.guard {α : Type} {P : α → Prop} {c : Prop} [Decidable c] {x : Act PUnit} {f : PUnit → Act α}
    (hx : ActOk (fun _ => True) x)
    (hf : ∀ r, ActOk P (f r)) : ActOk P (if c then x >>= f else f ⟨⟩) := by
  split
  · exact hx.check hf
  · exact hf ⟨⟩

/-- One of two steps, before other steps. -/
theorem ActOk.either {α β : Type} {Q : β → Prop} {P : α → Prop} {c : Prop} [Decidable c] {x y : Act β} {f : β → Act α}
    (hx : ActOk Q x)
    (hy : ActOk Q y) (hf : ∀ r, Q r → ActOk P (f r)) : ActOk P (if c then x >>= f else y >>= f) := by
  split
  · exact hx.bind hf
  · exact hy.bind hf

theorem ActOk.trap {α : Type} {P : α → Prop} (c : Cause) (addr val : Option Word) : ActOk P (.error (.trap c addr val) : Act α) :=
  .error trivial

/-- One of two ways to go on. -/
theorem ActOk.ite {α : Type} {P : α → Prop} {c : Prop} [Decidable c] {x y : Act α} (hx : ActOk P x) (hy : ActOk P y) :
    ActOk P (if c then x else y) := by
  split
  · exact hx
  · exact hy

theorem ChkOk.mono {ε α : Type} {P Q : α → Prop} {x : Except ε α} (hx : ChkOk P x) (h : ∀ r, P r → Q r) : ChkOk Q x := by
  cases x with
  | ok r => exact .ok (h r (hx.of_eq rfl))
  | error e => exact .error

theorem ChkOk.either {ε α : Type} {P : α → Prop} {c : Prop} [Decidable c] {x y : Except ε α} (hx : ChkOk P x) (hy : ChkOk P y) :
    ChkOk P (if c then x else y) := by
  split
  · exact hx
  · exact hy

/-! ### The state at reset (`Machine/State`) -/

theorem State.reset_memOk : State.reset.MemOk := reset_mem_wf

/-! ### Registers, contexts and parts of the state (`Machine/Access`) -/

theorem State.setX_memOk {s : State} (h : s.MemOk) (r : XReg) (w : Word) :
    (State.setX s r w).MemOk := h

theorem State.setV_memOk {s : State} (h : s.MemOk) (r : VReg) (w : Vec) :
    (State.setV s r w).MemOk := h

theorem State.setM_memOk {s : State} (h : s.MemOk) (r : MReg) (w : Word) :
    (State.setM s r w).MemOk := h

theorem State.setT_memOk {s : State} (h : s.MemOk) (r : TReg) (w : Tile) :
    (State.setT s r w).MemOk := h

theorem State.setPc_memOk {s : State} (h : s.MemOk) (pc : Word) :
    (State.setPc s pc).MemOk := h

theorem State.advance_memOk {s : State} (h : s.MemOk) :
    (State.advance s).MemOk := h

theorem State.onCx_memOk {s : State} (h : s.MemOk) (f : Ctx → Ctx) :
    (State.onCx s f).MemOk := h

theorem State.setCtx_memOk {s : State} (h : s.MemOk) (c : CtxId) (k : Ctx) :
    (State.setCtx s c k).MemOk := by
  grind [State.setCtx, State.MemOk]

theorem State.updCtx_memOk {s : State} (h : s.MemOk) (c : CtxId) (f : Ctx → Ctx) :
    (State.updCtx s c f).MemOk := by
  grind [State.updCtx, State.onCx_memOk, State.MemOk]

theorem State.switchTo_memOk {s : State} (h : s.MemOk) (c : CtxId) :
    (State.switchTo s c).MemOk := by
  grind [State.switchTo, State.MemOk]

/-- What keeps the form of memory keeps it as another context. -/
theorem State.asCtx_memOk {s : State} (h : s.MemOk) (c : CtxId) {f : State → State} (hf : ∀ t, t.MemOk → (f t).MemOk) :
    (s.asCtx c f).MemOk :=
  State.switchTo_memOk (hf _ (State.switchTo_memOk h c)) s.cur

theorem State.updCore_memOk {s : State} (h : s.MemOk) (n : Nat) (f : CoreSt → CoreSt) :
    (State.updCore s n f).MemOk := h

theorem State.updCluster_memOk {s : State} (h : s.MemOk) (n : Nat) (f : ClusterSt → ClusterSt) :
    (State.updCluster s n f).MemOk := h

theorem State.updDie_memOk {s : State} (h : s.MemOk) (n : Nat) (f : DieSt → DieSt) :
    (State.updDie s n f).MemOk := h

theorem State.updOwner_memOk {s : State} (h : s.MemOk) (n : Nat) (f : OwnerSt → OwnerSt) :
    (State.updOwner s n f).MemOk := h

theorem State.onHome_memOk {s : State} (h : s.MemOk) (f : HomeSt → HomeSt) :
    (State.onHome s f).MemOk := h

theorem State.onNet_memOk {s : State} (h : s.MemOk) (f : NetSt → NetSt) :
    (State.onNet s f).MemOk := h

theorem State.onDev_memOk {s : State} (h : s.MemOk) (f : DevSt → DevSt) :
    (State.onDev s f).MemOk := h

theorem State.sysEvent_memOk {s : State} (h : s.MemOk) (e : SysEvent) :
    (State.sysEvent s e).MemOk := by
  grind [State.sysEvent, State.MemOk]

theorem State.countEv_memOk {s : State} (h : s.MemOk) (c : CtxId) (code n : Nat) (oid : Nat) (launch : Nat) :
    (State.countEv s c code n oid launch).MemOk := by
  grind [State.countEv, State.updCore_memOk]

theorem State.response_memOk {s : State} (h : s.MemOk) (idx : Nat) :
    (State.response s idx).MemOk := h

theorem State.responseTo_memOk {s : State} (h : s.MemOk) (c : CtxId) (idx : Nat) :
    (State.responseTo s c idx).MemOk := by
  grind [State.responseTo, State.updCtx_memOk]

theorem require_memOk (s : State) (ok : Bool) :
    ActOk (fun _ => True) (require s ok) := by
  grind [require, ActOk, Stop.MemOk, illegal]

theorem needS_memOk (s : State) :
    ActOk (fun _ => True) (needS s) := by
  grind [needS, ActOk, Stop.MemOk, trapNow]

theorem needS0_memOk (s : State) :
    ActOk (fun _ => True) (needS0 s) := by
  grind [needS0, ActOk, Stop.MemOk, trapNow]

/-! ### Draws, response times and faults of engines (`Machine/Damask`) -/

theorem State.draw_memOk {s : State} (h : s.MemOk) (oid cls idx : Nat) :
    (State.draw s oid cls idx).2.MemOk := h

theorem arbitrate_memOk {s : State} (h : s.MemOk) (tab : List Share) (cls idx : Nat) (waiting : List Request) :
    (arbitrate s tab cls idx waiting).2.MemOk := by
  unfold arbitrate
  dsimp only
  repeat' split
  all_goals exact h

/-! ### Queues and their shares (`Machine/Queue`) -/

theorem opportunity_memOk {s : State} (h : s.MemOk) (q : Nat × Nat) (here : List Flight) (own : Option Request) :
    (opportunity s q here own).2.MemOk := by
  unfold opportunity
  grind [State.onNet_memOk, arbitrate_memOk]

theorem grantRequest_memOk {s : State} (h : s.MemOk) (q : Nat × Nat) (fuel : Nat) (r : Request) :
    (grantRequest q fuel r s).MemOk := by
  induction fuel generalizing r s with
  | zero => exact h
  | succ n ih => grind [grantRequest, opportunity_memOk]

theorem State.grant_memOk {s : State} (h : s.MemOk) (oid : Nat) (q : Nat × Nat) :
    (State.grant s oid q).MemOk := by
  grind [State.grant, grantRequest_memOk]

theorem State.pass_memOk {s : State} (h : s.MemOk) (oid : Nat) (path : List (Nat × Nat)) :
    (State.pass s oid path).MemOk := h

theorem State.travel_memOk {s : State} (h : s.MemOk) (c : CtxId) (oid key : Nat) :
    (State.travel s c oid key).MemOk := h

/-! ### Slices of homes and what travels to them (`Machine/Slice`) -/

theorem checkWitness_memOk (w : Word) :
    ActOk (fun _ => True) (checkWitness w) := by
  grind [checkWitness, ActOk, Stop.MemOk, trapNow]

theorem State.dropCopy_memOk {s : State} (h : s.MemOk) (a : CacheId) (line : Nat) :
    (State.dropCopy s a line).MemOk := h

theorem State.putCopy_memOk {s : State} (h : s.MemOk) (c : Copy) :
    (State.putCopy s c).MemOk := h

theorem State.stampWrite_memOk {s : State} (h : s.MemOk) (c : CtxId) (id : Option Nat) (t : Stamp) :
    (State.stampWrite s c id t).MemOk := by
  grind [State.stampWrite, State.updCtx_memOk, State.onNet_memOk]

theorem State.stampLeft_memOk {s : State} (h : s.MemOk) (c : CtxId) (mark : Nat) (sc : Scope) :
    (State.stampLeft s c mark sc).MemOk := by
  grind [State.stampLeft, State.stampWrite_memOk, foldl_memOk]

theorem farFill_memOk {s : State} (h : s.MemOk) (key : Nat) (q : Quotas) (fresh : Copy) :
    (farFill s key q fresh).MemOk := by
  grind [farFill, State.draw_memOk, State.pass_memOk, State.dropCopy_memOk, State.putCopy_memOk]

theorem homeTouched_memOk {s : State} (h : s.MemOk) (c : CtxId) (oid owner line : Nat) (write paid : Bool) :
    (homeTouched s c oid owner line write paid).MemOk := by
  grind [homeTouched, State.updDie_memOk, State.countEv_memOk, State.pass_memOk, State.putCopy_memOk, farFill_memOk]

theorem touchHome_memOk {s : State} (h : s.MemOk) (c : CtxId) (oid owner line : Nat) (write : Bool) (paid : Bool) :
    (touchHome s c oid owner line write paid).MemOk := h

theorem reachFor_memOk {s : State} (h : s.MemOk) (c : CtxId) (oid owner line : Nat) (arrived : Option Bool) :
    (reachFor s c oid owner line arrived).MemOk := by
  grind [reachFor, State.pass_memOk, State.travel_memOk, touchHome_memOk]

theorem reachHome_memOk {s : State} (h : s.MemOk) (c : CtxId) (owner line : Nat) (arrived : Option Bool) :
    (reachHome s c owner line arrived).MemOk := by
  grind [reachHome, reachFor_memOk]

/-! ### Translation and checks of accesses (`Machine/Translate`) -/

/-- A failed check leaves no state. -/
theorem Fail.stop_memOk (f : Fail) : f.stop.MemOk := trivial

/-- Checks as steps. -/
theorem Chk.act_memOk {α : Type} {P : α → Prop} {c : Chk α} (h : ChkOk P c) : ActOk P c.act := by
  cases c with
  | ok a => exact .ok (h.of_eq rfl)
  | error f => exact .error f.stop_memOk

theorem State.loseChannel_memOk {s : State} (h : s.MemOk) (key : Nat) :
    (State.loseChannel s key).MemOk := h

theorem State.unmark_memOk {s : State} (h : s.MemOk) (owner : Nat) (lines : List Nat) :
    (State.unmark s owner lines).MemOk := h

theorem State.mark_memOk {s : State} (h : s.MemOk) (line : Nat) (m : Mark) :
    (State.mark s line m).MemOk := h

theorem State.sealFrame_memOk {s : State} (h : s.MemOk) (w : Who) (e : Word) (pa : Nat) :
    (State.sealFrame s w e pa).MemOk := by
  grind [State.sealFrame, State.onHome_memOk]

theorem tlbFill_memOk {s : State} (h : s.MemOk) (payer : Nat) (es : List TlbEntry) (cap idx : Nat) (e : TlbEntry) :
    (tlbFill s payer es cap idx e).2.MemOk := by
  grind [tlbFill, State.draw_memOk]

theorem walkFrom_memOk {s : State} (h : s.MemOk) (c : CtxId) (oid payer : Nat) (va : Word) (level table : Nat) :
    (walkFrom s c oid payer va level table).2.MemOk := by
  induction level generalizing s table with
  | zero => grind [walkFrom, reachFor_memOk]
  | succ n ih => grind [walkFrom, reachFor_memOk, tlbFill_memOk, State.updDie_memOk]

theorem tlb1Fill_memOk {s : State} (h : s.MemOk) (core : Nat) (e : TlbEntry) :
    (tlb1Fill s core e).MemOk := h

theorem State.noteClass_memOk {s : State} (h : s.MemOk) (oid level vpage : Nat) (e : Word) :
    (State.noteClass s oid level vpage e).MemOk := by
  grind [State.noteClass, State.onHome_memOk]

theorem tlbTried_memOk {s : State} (h : s.MemOk) (c : CtxId) (oid payer : Nat) (va : Word) :
    (tlbTried s c oid payer va).2.MemOk := by
  grind [tlbTried, State.updCluster_memOk, State.countEv_memOk, tlbFill_memOk, walkFrom_memOk, tlb1Fill_memOk,
    State.noteClass_memOk]

theorem tlbTranslate_memOk {s : State} (h : s.MemOk) (c : CtxId) (oid payer : Nat) (va : Word) :
    ChkOk (·.2.MemOk) (tlbTranslate s c oid payer va) := by
  grind [tlbTranslate, tlbTried_memOk, ChkOk]

theorem State.walked_memOk {s : State} (h : s.MemOk) (c : CtxId) (oid : Nat) (va : Word) :
    (State.walked s c oid va).MemOk := by
  grind [State.walked, tlbTried_memOk]

theorem translate_memOk {s : State} (h : s.MemOk) (c : CtxId) (oid : Nat) (va : Word) (payer : Nat) :
    ChkOk (·.2.MemOk) (translate s c oid va payer) := by
  grind [translate, tlbTranslate_memOk, = except_map, ChkOk]

theorem check_memOk {s : State} (h : s.MemOk) (c : CtxId) (w : Who) (va : Word) (n : Nat) (k : Kind) (payer : Nat) :
    ChkOk (·.2.MemOk) (check s c w va n k payer) := by
  grind [check, translate_memOk, ChkOk]

theorem State.check_memOk {s : State} (h : s.MemOk) (va : Word) (n : Nat) (k : Kind) :
    ActOk (·.2.MemOk) (State.check s va n k) := by
  grind [State.check, check_memOk, Chk.act_memOk]

/-! ### Caches and their copies (`Machine/Cache`) -/

/-- What a measurement run captures of a page is a copy within memory (R367). -/
theorem capturePage_memOk {s : State} (h : s.MemOk) (c : CtxId) (pa : Nat) : (capturePage s c pa).MemOk := by
  unfold capturePage
  dsimp only
  split
  · exact h
  · split
    · exact h
    · split
      · next heq =>
        have ht := (check_memOk h ..).of_eq heq
        split
        · exact State.updOwner_memOk ht _ _
        · exact State.updOwner_memOk (State.sealFrame_memOk (.of_wf (memCopy_wf _ _ _ ht)) ..) _ _
      · exact State.updOwner_memOk h _ _

/-- Bytes written at their home. -/
theorem writeHome_memOk {s : State} (h : s.MemOk) (c : CtxId) (owner pa : Nat) (bs : List Byte) (oid : Nat) :
    (writeHome s c owner pa bs oid).MemOk :=
  touchHome_memOk ((capturePage_memOk h c pa).write pa bs) _ _ _ _ _ _

theorem State.engineFault_memOk {s : State} (h : s.MemOk) (c : CtxId) (cause : Cause) (addr : Option Word) (val : Word)
    (issue : Nat) :
    (State.engineFault s c cause addr val issue).MemOk := by
  grind [State.engineFault, State.updCtx_memOk]

theorem State.onCopies_memOk {s : State} (h : s.MemOk) (cluster : Nat) (p : CopyOp → Bool) (f : CopyOp → CopyOp) :
    (State.onCopies s cluster p f).MemOk := h

theorem State.heldAlone_memOk {s : State} (hs : s.MemOk) (h : CtxId) (line : Nat) :
    (State.heldAlone s h line).MemOk := by
  grind [State.heldAlone, State.onHome_memOk]

theorem homeWriteBack_memOk {s : State} (h : s.MemOk) (c : Copy) :
    (homeWriteBack s c).MemOk := by
  grind [homeWriteBack, State.travel_memOk, State.stampWrite_memOk, writeHome_memOk, State.engineFault_memOk,
    State.onCopies_memOk, State.heldAlone_memOk]

theorem backHome_memOk {s : State} (h : s.MemOk) (c : Copy) :
    (backHome s c).MemOk := by
  grind [backHome, State.dropCopy_memOk, State.putCopy_memOk, homeWriteBack_memOk]

theorem throughTo_memOk {s : State} (h : s.MemOk) (c n : Copy) :
    (throughTo s c n).MemOk := h

theorem evictNear_memOk {s : State} (h : s.MemOk) (cluster line : Nat) :
    (evictNear s cluster line).MemOk := by
  grind [evictNear, State.onHome_memOk, backHome_memOk, throughTo_memOk, foldl_memOk]

theorem makeRoom_memOk {s : State} (h : s.MemOk) (cluster set p owner line : Nat) :
    (makeRoom s cluster set p owner line).MemOk := by
  grind [makeRoom, State.onHome_memOk, State.draw_memOk, evictNear_memOk]

theorem fillNear_memOk {s : State} (h : s.MemOk) (cluster owner line : Nat) (data : LineData) :
    (fillNear s cluster owner line data).MemOk := by
  grind [fillNear, State.onHome_memOk, State.putCopy_memOk, makeRoom_memOk]

theorem writeBack_memOk {s : State} (h : s.MemOk) (c : Copy) :
    (writeBack s c).MemOk := by
  grind [writeBack, State.putCopy_memOk, backHome_memOk, throughTo_memOk, fillNear_memOk]

theorem monitorNear_memOk {s : State} (h : s.MemOk) (cluster owner line : Nat) :
    (monitorNear s cluster owner line).MemOk := by
  grind [monitorNear, State.updCluster_memOk]

theorem fillL1_memOk {s : State} (h : s.MemOk) (a : CacheId) (c : Copy) :
    (fillL1 s a c).MemOk := by
  grind [fillL1, State.dropCopy_memOk, State.putCopy_memOk, writeBack_memOk]

theorem State.heard_memOk {s : State} (h : s.MemOk) (own : Bool) (idx : Nat) :
    (State.heard s own idx).MemOk := by
  grind [State.heard, State.response_memOk]

theorem nearGet_memOk {s : State} (h : s.MemOk) (c : CtxId) (own engine : Bool) (owner line : Nat) (wit : Option Stamp)
    (arrived : Bool) (oid : Nat) :
    OptOk (·.2.MemOk) (nearGet s c own engine owner line wit arrived oid) := by
  grind [nearGet, State.countEv_memOk, State.pass_memOk, reachFor_memOk, fillNear_memOk, monitorNear_memOk, State.heard_memOk,
    OptOk]

theorem cachedGet_memOk {s : State} (h : s.MemOk) (c : CtxId) (own inst : Bool) (na : Bool) (owner line : Nat)
    (wit : Option Stamp) (arrived : Bool) :
    OptOk (·.2.MemOk) (cachedGet s c own inst na owner line wit arrived) := by
  grind [cachedGet, State.updCore_memOk, State.countEv_memOk, fillL1_memOk, nearGet_memOk, OptOk]

theorem privStore_memOk {s : State} (h : s.MemOk) (c : CtxId) (own : Bool) (na : Bool) (owner : Nat) (va : Word) (pa : Nat)
    (bs : List Byte) (id : Nat) :
    OptOk State.MemOk (privStore s c own na owner va pa bs id) := by
  grind [privStore, State.countEv_memOk, State.putCopy_memOk, State.stampWrite_memOk, State.heldAlone_memOk, fillL1_memOk,
    nearGet_memOk, OptOk]

theorem deliverPriv_memOk {s : State} (h : s.MemOk) (c : CtxId) (sc : Scope) :
    (deliverPriv s c sc).MemOk := by
  unfold deliverPriv
  grind [writeBack_memOk, foldl_memOk]

theorem State.dropLine_memOk {s : State} (h : s.MemOk) (line : Nat) :
    (State.dropLine s line).MemOk := h

/-! ### CR lines (`Machine/Cr`) -/

/-- A CR line written to its frame, element by element. -/
theorem crSetHome_memOk {s : State} (h : s.MemOk) (p : CrPlace) (l : CrLine) : (crSetHome s p l).MemOk :=
  foldl_wf (fun _ _ hm => memWrite_wf _ _ hm) _ h

theorem State.sharer_memOk {s : State} (h : s.MemOk) (line die : Nat) (on : Bool) :
    (State.sharer s line die on).MemOk := h

theorem crFold_memOk {s : State} (h : s.MemOk) (die : Nat) (p : CrPlace) :
    (crFold s die p).MemOk := by
  grind [crFold, State.onHome_memOk, State.pass_memOk, crSetHome_memOk, State.sharer_memOk]

theorem crClear_memOk {s : State} (h : s.MemOk) (p : CrPlace) :
    (crClear s p).MemOk := by
  grind [crClear, State.onHome_memOk, crSetHome_memOk, State.sharer_memOk, foldl_memOk]

theorem crCommit_memOk {s : State} (h : s.MemOk) (die : Nat) (p : CrPlace) (clear : Bool) (l : CrLine) :
    (crCommit s die p clear l).MemOk := by
  grind [crCommit, State.onHome_memOk, makeRoom_memOk, State.sharer_memOk, crFold_memOk, crClear_memOk]

theorem crSticky_memOk {s : State} (h : s.MemOk) (own : Bool) (p : CrPlace) :
    (crSticky s own p).MemOk := by
  grind [crSticky, State.onCx_memOk, State.onHome_memOk]

theorem crReadElem_memOk {s : State} (h : s.MemOk) (c : CtxId) (own : Bool) (p : CrPlace) (i : Nat) (base : Option CrLine)
    (arrived : Option Bool) (oid : Nat) :
    (crReadElem s c own p i base arrived oid).2.MemOk := by
  grind [crReadElem, reachFor_memOk, crSticky_memOk]

/-! ### Loads, stores and what a staging holds (`Machine/Mem`) -/

theorem readBytes_memOk {s : State} (h : s.MemOk) (c : CtxId) (own inst na : Bool) (l : Leaf) (va : Word) (n : Nat)
    (wit : Option Stamp) (arrived : Option Bool) (oid : Nat) :
    ActOk (·.2.MemOk) (readBytes s c own inst na l va n wit arrived oid) := by
  grind [readBytes, reachFor_memOk, State.heard_memOk, cachedGet_memOk, crReadElem_memOk, ActOk, OptOk, Stop.MemOk, trapAt]

theorem State.launch_memOk {s : State} (h : s.MemOk) (kind : FlightKind) (va : Word) (l : Leaf) (sc : Scope) (wit : Word)
    (earlier : Bool) :
    (State.launch s kind va l sc wit earlier).MemOk := by
  unfold State.launch
  grind [State.onCx_memOk, State.onNet_memOk]

theorem State.linger_memOk {s : State} (h : s.MemOk) (va : Word) (l : Leaf) (n : Nat) (wit : Option Stamp) (na : Bool) (d : Dest) :
    (State.linger s va l n wit na d).MemOk := by
  grind [State.linger, State.onCx_memOk, State.launch_memOk, foldl_memOk]

theorem readNow_memOk {s : State} (h : s.MemOk) (na : Bool) (l : Leaf) (va : Word) (n : Nat) (wit : Option Stamp) :
    ActOk (·.2.MemOk) (readNow s na l va n wit) := by
  grind [readNow, State.onCx_memOk, State.heard_memOk, crReadElem_memOk, readBytes_memOk, = except_bind, ActOk, Stop.MemOk, trapAt]

theorem loadBytes_memOk {s : State} (h : s.MemOk) (va : Word) (n : Nat) (wit : Option Stamp) (na : Bool) (d : Option Dest) :
    ActOk (·.2.MemOk) (loadBytes s va n wit na d) := by
  unfold loadBytes
  simp only [except_bind]
  grind [State.onCx_memOk, State.sealFrame_memOk, State.check_memOk, State.linger_memOk, readNow_memOk, ActOk, Stop.MemOk]

theorem State.readAhead_memOk {s : State} (h : s.MemOk) (va : Word) (n : Nat) :
    (State.readAhead s va n).MemOk := by
  grind [State.readAhead, State.onCx_memOk]

theorem loadNat_memOk {s : State} (h : s.MemOk) (va : Word) (n : Nat) (wit : Option Stamp) (na : Bool) (d : Option Dest) :
    ActOk (·.2.MemOk) (loadNat s va n wit na d) := by
  grind [loadNat, loadBytes_memOk, = except_bind, ActOk]

theorem loadWords_memOk {s : State} (h : s.MemOk) (va : Word) (wit : Option Stamp) (k : Nat) :
    ActOk (·.2.MemOk) (loadWords s va wit k) := by
  induction k generalizing s va with
  | zero => exact .ok h
  | succ k ih => grind [loadWords, loadBytes_memOk, = except_bind, ActOk]

theorem partyRead_memOk {s : State} (h : s.MemOk) (c : CtxId) (w : Who) (va : Word) (n : Nat) (wit : Option Stamp)
    (payer : Nat) : ActOk (·.2.MemOk) (partyRead s c w va n wit payer) :=
  (Chk.act_memOk (check_memOk h c w va n .r payer)).bind fun _ hr =>
    (readBytes_memOk hr ..).bind fun _ ht => .ok (State.sealFrame_memOk ht ..)

theorem State.pendWitness_memOk {s : State} (h : s.MemOk) (r : XReg) (sc : Scope) (null : Bool) :
    (State.pendWitness s r sc null).MemOk := by
  grind [State.pendWitness, State.onCx_memOk]

theorem State.pendResult_memOk {s : State} (h : s.MemOk) (r : XReg) (id : Nat) :
    (State.pendResult s r id).MemOk := by
  grind [State.pendResult, State.onCx_memOk]

theorem deliverPend_memOk {s : State} (h : s.MemOk) (c : CtxId) (p : Pend) :
    (deliverPend s c p).MemOk := by
  grind [deliverPend, State.updCtx_memOk, State.stampLeft_memOk, deliverPriv_memOk]

/-! ### Traces, logs, levels, deques and triggers (`Machine/Tasks`) -/

theorem homePut_memOk {s : State} (h : s.MemOk) (c : CtxId) (l : Leaf) (bs : List Byte) :
    (homePut s c l bs).MemOk := by
  grind [homePut, State.onHome_memOk, State.onNet_memOk, writeHome_memOk]

theorem State.sealLeaf_memOk {s : State} (h : s.MemOk) (w : Who) (l : Leaf) :
    (State.sealLeaf s w l).MemOk := by
  grind [State.sealLeaf, State.sealFrame_memOk]

theorem partyWrite_memOk {s : State} (h : s.MemOk) (c : CtxId) (w : Who) (va : Word) (bs : List Byte) :
    ChkOk State.MemOk (partyWrite s c w va bs) := by
  grind [partyWrite, State.sealFrame_memOk, check_memOk, homePut_memOk, = except_bind, ChkOk]

/-- The bytes of a trace record, at each replica of their page. -/
theorem traceWrite_memOk {s : State} (h : s.MemOk) (c : CtxId) (opener : Nat) (va : Word) (bs : List Byte) :
    ChkOk State.MemOk (traceWrite s c opener va bs) := by
  refine (check_memOk h c _ va 1 .w 0).bind fun r hr => ?_
  dsimp only
  split
  · exact .error
  · split
    · exact .error
    · split
      · exact .error
      · exact .ok <| State.sealFrame_memOk (.of_wf (foldl_wf (fun _ _ hm => memWrite_wf _ _ hm) _ (State.pass_memOk hr ..))) ..

theorem State.trace_memOk {s : State} (h : s.MemOk) (oid kind payload : Nat) (c : CtxId) :
    (State.trace s oid kind payload c).MemOk := by
  grind [State.trace, State.updOwner_memOk, traceWrite_memOk, ChkOk]

theorem State.firingEvent_memOk {s : State} (h : s.MemOk) (c : CtxId) (kind cause index addr : Nat) :
    (State.firingEvent s c kind cause index addr).MemOk := by
  grind [State.firingEvent, State.sysEvent_memOk]

theorem State.ownerEvent_memOk {s : State} (h : s.MemOk) (kind oid : Nat) (fid : BitVec 32) (core index addr : Nat) :
    (State.ownerEvent s kind oid fid core index addr).MemOk := by
  grind [State.ownerEvent, State.sysEvent_memOk]

theorem logRead_memOk {s : State} (h : s.MemOk) (oid off n : Nat) :
    ActOk (·.2.MemOk) (logRead s oid off n) := by
  grind [logRead, partyRead_memOk]

theorem logAppend_memOk {s : State} (h : s.MemOk) (oid : Nat) (e : LogEntry) :
    (logAppend s oid e).MemOk := by
  grind [logAppend, State.updOwner_memOk, traceWrite_memOk, State.ownerEvent_memOk, ChkOk]

theorem useEntry_memOk {s : State} (h : s.MemOk) (oid i : Nat) :
    (useEntry s oid i).MemOk := by
  grind [useEntry, State.updOwner_memOk, logRead_memOk, ActOk]

theorem noteDiffer_memOk {s : State} (h : s.MemOk) (oid fid idx : Nat) :
    (noteDiffer s oid fid idx).MemOk := h

theorem State.foldSig_memOk {s : State} (hs : s.MemOk) (c : CtxId) (h : Word) :
    (State.foldSig s c h).MemOk := by
  grind [State.foldSig, State.updCtx_memOk]

theorem recordEvent_memOk {s : State} (h : s.MemOk) (c : CtxId) (kind : Nat) :
    (recordEvent s c kind).MemOk := by
  grind [recordEvent, State.updCtx_memOk, State.foldSig_memOk]

theorem lineEvent_memOk {s : State} (h : s.MemOk) (oid line kind fid idx : Nat) :
    (lineEvent s oid line kind fid idx).MemOk := by
  grind [lineEvent, logAppend_memOk, useEntry_memOk, noteDiffer_memOk]

theorem newFid_memOk {s : State} (h : s.MemOk) (oid kind key idx : Nat) :
    (newFid s oid kind key idx).2.MemOk := by
  grind [newFid, State.updOwner_memOk, logAppend_memOk, useEntry_memOk, noteDiffer_memOk]

theorem levelGet_memOk {s : State} (h : s.MemOk) (c : CtxId) (oid idx : Nat) :
    ChkOk (·.2.MemOk) (levelGet s c oid idx) := by
  grind [levelGet, reachFor_memOk, State.sealFrame_memOk, translate_memOk, State.heard_memOk, = except_bind, ChkOk]

theorem levelPut_memOk {s : State} (h : s.MemOk) (c : CtxId) (l : Level) :
    (levelPut s c l).MemOk := by
  grind [levelPut, writeHome_memOk]

theorem levelRise_memOk {s : State} (h : s.MemOk) (c : CtxId) (l : Level) :
    (levelRise s c l).MemOk := by
  grind [levelRise, levelPut_memOk]

theorem levelFall_memOk {s : State} (h : s.MemOk) (c : CtxId) (oid : Nat) (l : Level) :
    (levelFall s c oid l).MemOk := by
  grind [levelFall, reachFor_memOk, levelPut_memOk]

theorem levelAdd_memOk {s : State} (h : s.MemOk) (c : CtxId) (oid idx : Nat) :
    ChkOk (·.2.MemOk) (levelAdd s c oid idx) := by
  grind [levelAdd, levelGet_memOk, levelRise_memOk, = except_bind, ChkOk]

theorem levelDec_memOk {s : State} (h : s.MemOk) (c : CtxId) (oid fuel idx : Nat) (wit : Word) (lost : Bool) :
    ChkOk State.MemOk (levelDec c oid fuel s idx wit lost) := by
  induction fuel generalizing s c idx wit lost with
  | zero => exact .ok h
  | succ fuel ih =>
    rw [levelDec]
    refine (levelGet_memOk h c oid idx).bind fun ⟨l, t⟩ ht => ?_
    have hp (l) : (levelPut t c l).MemOk := levelPut_memOk ht c l
    dsimp only
    generalize (l.count + (2 ^ 32 - 1)) % 2 ^ 32 = n
    split
    · split
      · exact .ok (hp _)
      · exact ih (hp _) ..
    · exact .ok (hp _)

theorem levelDrop_memOk {s : State} (h : s.MemOk) (c : CtxId) (oid idx : Nat) (wit : Word) (lost : Bool) :
    (levelDrop s c oid idx wit lost).MemOk := by
  grind [levelDrop, State.walked_memOk, levelDec_memOk, ChkOk]

theorem launchCancelled_memOk {s : State} (h : s.MemOk) (c : CtxId) (oid idx : Nat) :
    (launchCancelled s c oid idx).2.MemOk := by
  grind [launchCancelled, State.walked_memOk, levelGet_memOk, ChkOk]

theorem State.setDeque_memOk {s : State} (h : s.MemOk) (core : Nat) (d : List DequeEntry) :
    (State.setDeque s core d).MemOk := h

theorem spillOldest_memOk {s : State} (h : s.MemOk) (core n : Nat) : OptOk State.MemOk (spillOldest core n s) := by
  induction n generalizing s with
  | zero => exact .intro h
  | succ n ih =>
    unfold spillOldest
    dsimp only
    split
    · split
      · exact .intro h
      · split
        · exact .nothing
        · next heq => exact ih (State.setDeque_memOk ((partyWrite_memOk h ..).of_eq heq) ..)
    · exact .intro h

theorem readSpilled_memOk {s : State} (h : s.MemOk) (core : Nat) (e : DequeEntry) :
    (readSpilled s core e).2.MemOk := by
  grind [readSpilled, partyRead_memOk, ActOk]

theorem moveBack_memOk {s : State} (h : s.MemOk) (core n : Nat) : (moveBack core n s).MemOk := by
  induction n generalizing s with
  | zero => exact h
  | succ n ih => grind [moveBack, readSpilled_memOk, State.setDeque_memOk]

theorem dequeTake_memOk {s : State} (h : s.MemOk) (core i : Nat) :
    (dequeTake s core i).MemOk := by
  grind [dequeTake, State.setDeque_memOk, moveBack_memOk]

theorem wakeOnPush_memOk {s : State} (h : s.MemOk) (core oid : Nat) :
    (wakeOnPush s core oid).MemOk := by
  grind [wakeOnPush, State.updCtx_memOk, State.updCore_memOk]

theorem pushDeque_memOk {s : State} (h : s.MemOk) (core oid : Nat) (e : DequeEntry) (old : Bool) :
    OptOk State.MemOk (pushDeque s core oid e old) := by
  unfold pushDeque
  dsimp only
  split
  · exact .nothing
  · refine OptOk.map (Q := State.MemOk) ?_ fun t ht => wakeOnPush_memOk ht ..
    have hd (d) := State.setDeque_memOk h core d
    split
    · exact spillOldest_memOk (hd _) ..
    · split
      · exact spillOldest_memOk (hd _) ..
      · exact .intro (hd _)

theorem pushOrPend_memOk {s : State} (h : s.MemOk) (core oid : Nat) (e : DequeEntry) (old : Bool) (trig : Option Nat) :
    (pushOrPend s core oid e old trig).MemOk := by
  grind [pushOrPend, State.updCore_memOk, pushDeque_memOk, OptOk]

theorem spawnRecord_memOk {s : State} (h : s.MemOk) (c : CtxId) (record : BitVec 512) (addr startWit : Word) :
    ChkOk (·.2.MemOk) (spawnRecord s c record addr startWit) := by
  refine (levelGet_memOk h ..).bind fun r hr => ?_
  have hrise := levelRise_memOk hr c r.1
  grind [levelFall_memOk, pushDeque_memOk, newFid_memOk, recordEvent_memOk, State.updOwner_memOk, ChkOk, OptOk]

theorem triggerCheck_memOk {s : State} (h : s.MemOk) (c : CtxId) (owner pa : Nat) :
    (triggerCheck s c owner pa).MemOk := by
  grind [triggerCheck, State.updCore_memOk, State.onHome_memOk, writeHome_memOk, newFid_memOk, foldl_memOk]

theorem counterApply_memOk {s : State} (h : s.MemOk) (c : CtxId) (owner pa : Nat) (amount wit : Word) :
    (counterApply s c owner pa amount wit).MemOk := by
  grind [counterApply, State.onHome_memOk, writeHome_memOk, triggerCheck_memOk]

theorem freeTrig_memOk {s : State} (h : s.MemOk) (core idx : Nat) :
    (freeTrig s core idx).MemOk := by
  grind [freeTrig, State.updCore_memOk]

theorem firePush_memOk {s : State} (h : s.MemOk) (f : Fire) (rearm : Bool) :
    (firePush s f rearm).MemOk := by
  grind [firePush, State.onHome_memOk, levelAdd_memOk, levelDrop_memOk, launchCancelled_memOk, pushOrPend_memOk, ChkOk]

theorem armRecord_memOk {s : State} (h : s.MemOk) (c : CtxId) (record : BitVec 512) (addr : Word) :
    ChkOk (·.2.2.MemOk) (armRecord s c record addr) := by
  unfold armRecord
  simp only [except_bind]
  grind [State.updCore_memOk, State.onHome_memOk, reachFor_memOk, State.sealFrame_memOk, check_memOk, levelGet_memOk,
    levelRise_memOk, levelFall_memOk, triggerCheck_memOk, freeTrig_memOk, firePush_memOk, ChkOk, foldl_memOk]

theorem disarmCounter_memOk {s : State} (h : s.MemOk) (c : CtxId) (pa : Nat) :
    (disarmCounter s c pa).2.MemOk := by
  grind [disarmCounter, State.updCore_memOk, State.onHome_memOk, levelDrop_memOk, freeTrig_memOk, firePush_memOk, foldl_memOk]

/-! ### What the homes do with what arrives (`Machine/Home`) -/

theorem State.refuse_memOk {s : State} (h : s.MemOk) (f : Flight) (how : FlightEnd) :
    (State.refuse s f how).MemOk := h

theorem State.landFlight_memOk {s : State} (h : s.MemOk) (id : Nat) :
    (State.landFlight s id).MemOk := h

theorem State.answer_memOk {s : State} (h : s.MemOk) (c : CtxId) (id : Nat) (v : Word) :
    (State.answer s c id v).MemOk := by
  grind [State.answer, State.updCtx_memOk]

theorem State.done_memOk {s : State} (h : s.MemOk) (f : Flight) :
    (State.done s f).MemOk := by
  grind [State.done, State.responseTo_memOk, State.pass_memOk, State.stampWrite_memOk, State.onCopies_memOk, State.landFlight_memOk]

theorem loadArrives_memOk {s : State} (h : s.MemOk) (f : Flight) (entry : Word) (level n : Nat) (na near : Bool) :
    (loadArrives s f entry level n na near).MemOk := by
  grind [loadArrives, State.onCx_memOk, State.updCtx_memOk, State.asCtx_memOk, State.onNet_memOk, readBytes_memOk,
    State.landFlight_memOk, ActOk]

theorem applyFlight_memOk {s : State} (h : s.MemOk) (f : Flight) : (applyFlight s f).MemOk := by
  have written (bs : List Byte) := writeHome_memOk h f.ctx f.owner f.pa bs f.oid
  have answered {t : State} (ht : t.MemOk) (l n e v) : (((lineEvent t f.oid l 3 n e).answer f.ctx f.id v).done f).MemOk :=
    State.done_memOk (State.answer_memOk (lineEvent_memOk ht ..) ..) f
  unfold applyFlight
  extract_lets line k isClear staged
  clear_value isClear staged
  split
  · exact State.landFlight_memOk (State.asCtx_memOk h f.ctx fun t ht => State.firingEvent_memOk ht ..) _
  · split
    · exact State.refuse_memOk h ..
    · split
      · exact State.refuse_memOk h ..
      · split
        · exact State.refuse_memOk h ..
        · split
          · exact State.done_memOk (written _) f
          · next bs na _ =>
            have stored := privStore_memOk h f.ctx (f.ctx == s.cur) na f.owner f.va f.pa bs f.id
            split
            · next heq => exact State.landFlight_memOk (stored.of_eq heq) _
            · exact State.engineFault_memOk (State.landFlight_memOk h _) ..
          · exact h
          · exact loadArrives_memOk h ..
          · exact h
          · exact h
          · exact answered (written _) ..
          · exact answered (written _) ..
          · exact State.done_memOk (counterApply_memOk h ..) f
          · split
            · exact State.done_memOk (State.unmark_memOk (crClear_memOk h _) ..) f
            · have dropped (p : Prop) [Decidable p] : (if p then s.dropLine line else s).MemOk := by
                split
                · exact State.dropLine_memOk h _
                · exact h
              exact State.done_memOk (State.unmark_memOk (writeHome_memOk (dropped _) ..) ..) f

theorem sequence_memOk {s : State} (h : s.MemOk) (f : Flight) (stores : List (Nat × List Byte)) (clear : Bool) :
    (sequence s f stores clear).MemOk := by
  grind [sequence, State.onHome_memOk, State.done_memOk]

theorem replicaWrite_memOk {s : State} (h : s.MemOk) (die : Nat) (r : ReplStore) : (replicaWrite s die r).MemOk := by
  have hw := (capturePage_memOk h r.ctx (replicaPa r.pa die)).write (replicaPa r.pa die) r.data
  unfold replicaWrite
  dsimp only
  split
  · exact h
  · split
    · exact State.unmark_memOk hw ..
    · exact hw

theorem replicaApply_memOk {s : State} (h : s.MemOk) (die : Nat) :
    (replicaApply s die).MemOk := by
  grind [replicaApply, State.updDie_memOk, State.onHome_memOk, replicaWrite_memOk, foldl_memOk]

theorem commitMark_memOk {s : State} (h : s.MemOk) (line : Nat) :
    (commitMark s line).MemOk := by
  grind [commitMark, State.firingEvent_memOk]

theorem foldLine_memOk {s : State} (h : s.MemOk) (die : Nat) (p : CrPlace) :
    (foldLine s die p).MemOk := by
  grind [foldLine, crFold_memOk, lineEvent_memOk]

theorem commitLine_memOk {s : State} (h : s.MemOk) (c : CtxId) (oid : Nat) (p : CrPlace) (clear : Bool) (l : CrLine)
    (ev : Option Nat) : (commitLine s c oid p clear l ev).MemOk := by
  have hcap : ((List.range (crBytes p.fmt / 4)).foldl (fun s i => capturePage s c (p.key + 128 * i)) s).MemOk :=
    foldl_memOk h _ fun _ _ ht => capturePage_memOk ht ..
  grind [commitLine, State.firingEvent_memOk, foldLine_memOk, crCommit_memOk, lineEvent_memOk, recordEvent_memOk]

theorem State.stampNow_memOk {s : State} (h : s.MemOk) (c : CtxId) :
    (State.stampNow s c).MemOk := by
  grind [State.stampNow, State.onNet_memOk, State.stampWrite_memOk]

theorem commitOne_memOk {s : State} (h : s.MemOk) (e : Staged) (ev : Option Nat) :
    (commitOne s e ev).MemOk := by
  unfold commitOne
  grind [State.unmark_memOk, writeHome_memOk, State.dropLine_memOk, crClear_memOk, spawnRecord_memOk, counterApply_memOk,
    armRecord_memOk, disarmCounter_memOk, commitMark_memOk, commitLine_memOk, ChkOk]

theorem State.commitBegins_memOk {s : State} (h : s.MemOk) (c : CtxId) :
    (State.commitBegins s c).MemOk := h

theorem commitApplies_memOk {s : State} (h : s.MemOk) (f : Flight) (es : List Staged) :
    (commitApplies s f es).MemOk := by
  grind [commitApplies, State.asCtx_memOk, State.done_memOk, sequence_memOk, commitMark_memOk, commitOne_memOk,
    State.commitBegins_memOk, foldl_memOk]

theorem requestsApply_memOk {s : State} (h : s.MemOk) (f : Flight) (es : List Staged) :
    (requestsApply s f es).MemOk := by
  grind [requestsApply, State.asCtx_memOk, State.landFlight_memOk, commitOne_memOk, foldl_memOk]

theorem commitLaunch_memOk {s : State} (h : s.MemOk) (kind : FlightKind) (e : Staged) (earlier : Bool) :
    (commitLaunch s kind e earlier).MemOk := h

theorem commitStaging_memOk {s : State} (h : s.MemOk) : (commitStaging s).MemOk := by
  have counts {t : State} (ht : t.MemOk) (l : List Staged) : (l.foldl (fun s e =>
      match e with
      | .count _ _ _ amount => commitLaunch s (.count amount true) e true
      | _ => s) t).MemOk := by
    refine foldl_memOk ht _ fun t e ht => ?_
    split
    · exact commitLaunch_memOk ht ..
    · exact ht
  have lines {t : State} (ht : t.MemOk) (keys : List Nat) (l : List (List Staged)) : (l.foldl (fun s es =>
      match es with
      | [] => s
      | e :: _ =>
        let t := commitLaunch s (.commit es keys false) e false
        if e.recorded then recordEvent t t.cur 4 else t) t).MemOk := by
    refine foldl_memOk ht _ fun t es ht => ?_
    split
    · exact ht
    · dsimp only
      split
      · exact recordEvent_memOk (commitLaunch_memOk ht ..) ..
      · exact commitLaunch_memOk ht ..
  unfold commitStaging
  dsimp only
  split
  · exact counts (lines (State.onCx_memOk h _) ..) _
  · exact commitLaunch_memOk (counts (lines (State.onCx_memOk h _) ..) _) ..

theorem expose_memOk {s : State} (h : s.MemOk) :
    (expose s).MemOk := by
  grind [expose, State.onCx_memOk, commitStaging_memOk]

theorem exposeAct_memOk {s : State} (h : s.MemOk) :
    ActOk State.MemOk (exposeAct s) := by
  grind [exposeAct, expose_memOk, ActOk, Stop.MemOk]

theorem stagePut_memOk {s : State} (h : s.MemOk) (st : List Staged) :
    ActOk (OptOk State.MemOk) (stagePut s st) := by
  grind [stagePut, State.onCx_memOk, ActOk, OptOk, Stop.MemOk, trapNow]

theorem putBytes_memOk {s : State} (h : s.MemOk) (va : Word) (l : Leaf) (bs : List Byte) (sc : Scope) (na : Bool) :
    (putBytes s va l bs sc na).MemOk := by
  grind [putBytes, State.engineFault_memOk, privStore_memOk, State.launch_memOk, OptOk]

theorem storeCheck_memOk {s : State} (h : s.MemOk) (va : Word) (n : Nat) :
    ActOk (·.2.MemOk) (storeCheck s va n) := by
  grind [storeCheck, State.check_memOk, State.sealLeaf_memOk, = except_bind, ActOk, Stop.MemOk, trapAt]

theorem storeAll_memOk {s : State} (h : s.MemOk) (ws : List Put) (sc : Scope) (na : Bool) :
    ActOk State.MemOk (storeAll s ws sc na) := by
  unfold storeAll
  simp only [except_bind]
  grind [State.onCx_memOk, exposeAct_memOk, stagePut_memOk, putBytes_memOk, ActOk, OptOk, Stop.MemOk, foldl_memOk]

theorem storeOne_memOk {s : State} (h : s.MemOk) (va : Word) (l : Leaf) (bs : List Byte) (sc : Scope) (na : Bool) :
    ActOk State.MemOk (storeOne s va l bs sc na) := by
  grind [storeOne, storeAll_memOk]

theorem State.storeWitness_memOk {s : State} (h : s.MemOk) (r : XReg) (sc : Scope) (allStaged : Bool) :
    (State.storeWitness s r sc allStaged).MemOk := by
  grind [State.storeWitness, State.setX_memOk, State.pendWitness_memOk]

theorem storeBytes_memOk {s : State} (h : s.MemOk) (va : Word) (bs : List Byte) (r : XReg) (sc : Scope) (na : Bool) :
    ActOk State.MemOk (storeBytes s va bs r sc na) := by
  grind [storeBytes, storeCheck_memOk, storeOne_memOk, State.storeWitness_memOk, = except_bind, ActOk]

/-! ### Contexts saved and resumed, and traps taken (`Machine/Save`) -/

theorem homeRead_memOk {s : State} (h : s.MemOk) (c : CtxId) (w : Who) (va : Word) (n : Nat) :
    ChkOk (·.2.MemOk) (homeRead s c w va n) := by
  grind [homeRead, State.sealFrame_memOk, check_memOk, = except_bind, ChkOk]

theorem slotWrite_memOk {s : State} (h : s.MemOk) (c : CtxId) (w : Who) (va : Word) (bs : List Byte) :
    OptOk State.MemOk (slotWrite s c w va bs) := by
  grind [slotWrite, State.sealFrame_memOk, check_memOk, State.dropLine_memOk, homePut_memOk, ChkOk, OptOk, foldl_memOk]

theorem slotAt_memOk {s : State} (h : s.MemOk) (c : CtxId) (w : Who) (va : Word) (ps : List (Nat × List Byte)) :
    OptOk State.MemOk (slotAt s c w va ps) := by
  refine foldl_keeps (P := OptOk State.MemOk) (OptOk.intro h) ps fun o p ho => ?_
  exact ho.bind fun t ht => slotWrite_memOk ht ..

theorem slotAtPhys_memOk {s : State} (h : s.MemOk) (c : CtxId) (oid pa : Nat) (ps : List (Nat × List Byte)) :
    OptOk State.MemOk (slotAtPhys s c oid pa ps) := by
  grind [slotAtPhys, State.onHome_memOk, writeHome_memOk, OptOk, foldl_memOk]

theorem setSlotState_memOk {s : State} (h : s.MemOk) (c : CtxId) (oid slot st : Nat) : (setSlotState s c oid slot st).MemOk := by
  have hw (w va bs) : ((slotWrite s c w va bs).getD s).MemOk := (slotWrite_memOk h ..).getD h
  have he (pa bs) := writeHome_memOk h ⟨c.core, 3⟩ oid pa bs (s.ctxOf ⟨c.core, 3⟩).fir.oid.toNat
  unfold setSlotState
  grind [State.updOwner_memOk]

theorem keepBeside_memOk {s : State} (h : s.MemOk) (k : Ctx) (oid slot : Nat) :
    (keepBeside s k oid slot).MemOk := h

theorem saveImage_memOk {s : State} (h : s.MemOk) (c : CtxId) (named : Option Nat) (state cause : Nat) (suspd : Bool) :
    (saveImage s c named state cause suspd).2.MemOk := by
  unfold saveImage
  extract_lets -underBinder k oid lane flags used pick w spoilt tried
  have slot : OptOk (·.2.MemOk) tried := by
    dsimp only [tried]
    split
    · exact .nothing
    · exact (slotAt_memOk h ..).map fun _ ht => State.updOwner_memOk (keepBeside_memOk ht ..) ..
  clear_value tried pick
  split
  · exact slot.of_eq rfl
  · extract_lets -underBinder pa busy failed
    have lost (a : Nat) : (failed a).2.MemOk := by
      dsimp only [failed]
      cases pick with
      | none => exact h
      | some i =>
        rw [Option.map_some, Option.getD_some]
        exact setSlotState_memOk h ..
    clear_value failed pa busy
    split
    · exact lost _
    · split
      · exact lost _
      · split
        · exact lost _
        · next heq => exact State.firingEvent_memOk (keepBeside_memOk ((slotAtPhys_memOk h ..).of_eq heq) ..) ..

theorem stopHelper_memOk {s : State} (h : s.MemOk) (core : Nat) :
    (stopHelper s core).MemOk := by
  grind [stopHelper, State.setCtx_memOk, State.updCore_memOk]

theorem stopHelperOf_memOk {s : State} (h : s.MemOk) (c : CtxId) :
    (stopHelperOf s c).MemOk := by
  grind [stopHelperOf, stopHelper_memOk]

theorem releaseLane_memOk {s : State} (h : s.MemOk) (c : CtxId) :
    (releaseLane s c).MemOk := by
  grind [releaseLane, State.updCore_memOk]

theorem closeGang_memOk {s : State} (h : s.MemOk) (c : CtxId) :
    (closeGang s c).MemOk := by
  grind [closeGang, State.updCtx_memOk, State.updCore_memOk]

theorem leaveGang_memOk {s : State} (h : s.MemOk) (c : CtxId) :
    (leaveGang s c).MemOk := by
  grind [leaveGang, State.updCluster_memOk, closeGang_memOk]

theorem orphan_memOk {s : State} (h : s.MemOk) (c nobody : CtxId) :
    (orphan s c nobody).MemOk := h

theorem freeCtx_memOk {s : State} (h : s.MemOk) (c : CtxId) (heir : CtxId) :
    (freeCtx s c heir).MemOk := by
  grind [freeCtx, State.setCtx_memOk, State.updCore_memOk, stopHelperOf_memOk, releaseLane_memOk, closeGang_memOk, orphan_memOk]

theorem releaseHolds_memOk {s : State} (h : s.MemOk) (c : CtxId) :
    (releaseHolds s c).MemOk := by
  grind [releaseHolds, State.updCtx_memOk, levelDrop_memOk, foldl_memOk]

theorem ghostGoes_memOk {s : State} (h : s.MemOk) (g : CtxId) :
    (ghostGoes s g).MemOk := by
  grind [ghostGoes, State.stampLeft_memOk, deliverPriv_memOk, levelDrop_memOk, State.MemOk]

theorem loseFiring_memOk {s : State} (h : s.MemOk) (c : CtxId) (cause : Nat) :
    (loseFiring s c cause).MemOk := by
  grind [loseFiring, State.setCtx_memOk, State.updOwner_memOk, State.trace_memOk, State.firingEvent_memOk, leaveGang_memOk,
    freeCtx_memOk, releaseHolds_memOk, ghostGoes_memOk]

theorem lossOf_memOk {s : State} (h : s.MemOk) (c : CtxId) (cause : Nat) :
    (lossOf s c cause).MemOk := by
  grind [lossOf, State.onNet_memOk, State.trace_memOk, State.firingEvent_memOk, leaveGang_memOk, freeCtx_memOk,
    releaseHolds_memOk, loseFiring_memOk]

theorem passEvents_memOk {s : State} (h : s.MemOk) (core oid launch : Nat) :
    (passEvents s core oid launch).MemOk := by
  grind [passEvents, State.updCore_memOk, State.updOwner_memOk]

theorem restoreCtx_memOk {s : State} (h : s.MemOk) (c : CtxId) (slot : Nat) (img : Nat → Nat → Nat) :
    (restoreCtx s c slot img).MemOk := by
  grind [restoreCtx, State.setCtx_memOk, State.updCore_memOk, State.updOwner_memOk, passEvents_memOk]

theorem slotBytes_memOk {s : State} (h : s.MemOk) (c : CtxId) (w : Who) (va : Word) :
    ChkOk (·.2.MemOk) (slotBytes s c w va) := by
  unfold slotBytes
  simp only [except_bind]
  grind [reachFor_memOk, State.sealFrame_memOk, check_memOk, ChkOk, foldl_memOk]

/-! ### What every instruction ends with (`Machine/Ops`) -/

theorem trapEnter_memOk {s : State} (h : s.MemOk) (c : Cause) (impr : Bool) (addr val : Option Word) (resume dest : Word) :
    (trapEnter s c impr addr val resume dest).MemOk := h

theorem trapLost_memOk {s : State} (h : s.MemOk) (kind : Nat) (c : Cause) :
    (trapLost s kind c).MemOk := by
  grind [trapLost, State.updCluster_memOk, State.firingEvent_memOk, saveImage_memOk, loseFiring_memOk]

theorem State.noteFault_memOk {s : State} (h : s.MemOk) (c : Cause) :
    (State.noteFault s c).MemOk := by
  grind [State.noteFault, State.updOwner_memOk]

theorem takeTrap_memOk {s : State} (h : s.MemOk) (c : Cause) (impr : Bool) (addr val : Option Word) (resume : Word) :
    (takeTrap s c impr addr val resume).MemOk := by
  grind [takeTrap, State.trace_memOk, trapEnter_memOk, trapLost_memOk, State.noteFault_memOk]

theorem trapReturn_memOk {s : State} (h : s.MemOk) :
    (trapReturn s).MemOk := h

/-- Steps that keep the form of memory end in an outcome that does: the result, a trap, or a wait. -/
theorem finish_memOk {s : State} (h : s.MemOk) {a : Act State} (ha : ActOk State.MemOk a) : OutOk (finish s a) := by
  match a with
  | .ok _ => exact .next (ha.of_eq rfl)
  | .error (.trap c addr val) =>
    rw [finish]
    split
    · exact .next (stopHelper_memOk h _)
    · exact .next (takeTrap_memOk (State.onCx_memOk h _) _ _ _ _ _)
  | .error (.wait _ none) => exact .next h
  | .error (.wait _ (some _)) => exact .next (ha.of_error rfl :)

theorem pass_memOk {s : State} (h : s.MemOk) :
    ActOk State.MemOk (pass s) := by
  grind [pass, State.advance_memOk, ActOk]

theorem putX_memOk {s : State} (h : s.MemOk) (r : XReg) (w : Word) :
    (putX s r w).MemOk := h

theorem putV_memOk {s : State} (h : s.MemOk) (r : VReg) (w : Vec) :
    (putV s r w).MemOk := h

theorem putM_memOk {s : State} (h : s.MemOk) (r : MReg) (w : Word) :
    (putM s r w).MemOk := h

theorem putLate_memOk (t : State) {u : State} (hu : u.MemOk) :
    (putLate t u).MemOk := by
  grind [putLate, State.onCx_memOk]

theorem putPair_memOk {s : State} (h : s.MemOk) (r : XReg) (lo hi : Word) :
    (putPair s r lo hi).MemOk := h

theorem State.flags_memOk {s : State} (h : s.MemOk) (f : Nat) :
    (State.flags s f).MemOk := h

theorem witnessOf_memOk (s : State) (r : XReg) :
    ActOk (fun _ => True) (witnessOf s r) := by
  grind [witnessOf, checkWitness_memOk, = except_bind, ActOk]

theorem helperStop_memOk {s : State} (h : s.MemOk) :
    (helperStop s).MemOk := by
  grind [helperStop, stopHelper_memOk]

/-! ### Operands (`Machine/Operands`) -/

theorem laneOp_memOk {s : State} (h : s.MemOk) (d : VReg) (sz : VSize) (mk : MReg) (f : Nat → Nat × Nat) :
    (laneOp s d sz mk f).MemOk := h

theorem immBelow_memOk (s : State) (imm : Word) (n : Nat) :
    ActOk (fun _ => True) (immBelow s imm n) := by
  grind [immBelow, ActOk, Stop.MemOk, illegal]

/-! ### Scalar instructions (`Machine/Scalar`) -/

theorem execNop_memOk {s : State} (h : s.MemOk) :
    OutOk (execNop s) := by
  grind [execNop, State.advance_memOk, OutOk]

theorem execMov_memOk {s : State} (h : s.MemOk) (a b : XReg) :
    OutOk (execMov a b s) := by
  grind [execMov, putX_memOk, OutOk]

theorem execLi_memOk {s : State} (h : s.MemOk) (a : XReg) (imm : Word) :
    OutOk (execLi a imm s) := by
  grind [execLi, putX_memOk, OutOk]

theorem execLih_memOk {s : State} (h : s.MemOk) (a : XReg) (imm : Word) :
    OutOk (execLih a imm s) := by
  grind [execLih, putX_memOk, OutOk]

theorem signedOp_memOk {s : State} (h : s.MemOk) (f : Int → Int → Int) (d l r : XReg) (sz : Size) :
    OutOk (signedOp f d l r sz s) := by
  grind [signedOp, putX_memOk, OutOk]

theorem unsignedOp_memOk {s : State} (h : s.MemOk) (f : Nat → Nat → Nat) (d l r : XReg) (sz : Size) :
    OutOk (unsignedOp f d l r sz s) := by
  grind [unsignedOp, putX_memOk, OutOk]

theorem bitOp_memOk {s : State} (h : s.MemOk) (f : Word → Word → Word) (d l r : XReg) :
    OutOk (bitOp f d l r s) := by
  grind [bitOp, putX_memOk, OutOk]

theorem execAdd_memOk {s : State} (h : s.MemOk) (d l r : XReg) (sz : Size) :
    OutOk (execAdd d l r sz s) := by
  grind [execAdd, signedOp_memOk]

theorem execSub_memOk {s : State} (h : s.MemOk) (d l r : XReg) (sz : Size) :
    OutOk (execSub d l r sz s) := by
  grind [execSub, signedOp_memOk]

theorem execMul_memOk {s : State} (h : s.MemOk) (d l r : XReg) (sz : Size) :
    OutOk (execMul d l r sz s) := by
  grind [execMul, signedOp_memOk]

theorem execMulh_memOk {s : State} (h : s.MemOk) (d l r : XReg) (sz : Size) :
    OutOk (execMulh d l r sz s) := by
  grind [execMulh, signedOp_memOk]

theorem execMulhu_memOk {s : State} (h : s.MemOk) (d l r : XReg) (sz : Size) :
    OutOk (execMulhu d l r sz s) := by
  grind [execMulhu, unsignedOp_memOk]

theorem execDiv_memOk {s : State} (h : s.MemOk) (d l r : XReg) (sz : Size) :
    OutOk (execDiv d l r sz s) := by
  grind [execDiv, signedOp_memOk]

theorem execDivu_memOk {s : State} (h : s.MemOk) (d l r : XReg) (sz : Size) :
    OutOk (execDivu d l r sz s) := by
  grind [execDivu, putX_memOk, OutOk]

theorem execRem_memOk {s : State} (h : s.MemOk) (d l r : XReg) (sz : Size) :
    OutOk (execRem d l r sz s) := by
  grind [execRem, signedOp_memOk]

theorem execRemu_memOk {s : State} (h : s.MemOk) (d l r : XReg) (sz : Size) :
    OutOk (execRemu d l r sz s) := by
  grind [execRemu, putX_memOk, OutOk]

theorem execAnd_memOk {s : State} (h : s.MemOk) (d l r : XReg) :
    OutOk (execAnd d l r s) := by
  grind [execAnd, bitOp_memOk]

theorem execOr_memOk {s : State} (h : s.MemOk) (d l r : XReg) :
    OutOk (execOr d l r s) := by
  grind [execOr, bitOp_memOk]

theorem execXor_memOk {s : State} (h : s.MemOk) (d l r : XReg) :
    OutOk (execXor d l r s) := by
  grind [execXor, bitOp_memOk]

theorem execShl_memOk {s : State} (h : s.MemOk) (d l r : XReg) (sz : Size) :
    OutOk (execShl d l r sz s) := by
  grind [execShl, unsignedOp_memOk]

theorem execShr_memOk {s : State} (h : s.MemOk) (d l r : XReg) (sz : Size) :
    OutOk (execShr d l r sz s) := by
  grind [execShr, unsignedOp_memOk]

theorem execSra_memOk {s : State} (h : s.MemOk) (d l r : XReg) (sz : Size) :
    OutOk (execSra d l r sz s) := by
  grind [execSra, putX_memOk, OutOk]

theorem execRotl_memOk {s : State} (h : s.MemOk) (d l r : XReg) (sz : Size) :
    OutOk (execRotl d l r sz s) := by
  grind [execRotl, unsignedOp_memOk]

theorem execMin_memOk {s : State} (h : s.MemOk) (d l r : XReg) (sz : Size) :
    OutOk (execMin d l r sz s) := by
  grind [execMin, signedOp_memOk]

theorem execMax_memOk {s : State} (h : s.MemOk) (d l r : XReg) (sz : Size) :
    OutOk (execMax d l r sz s) := by
  grind [execMax, signedOp_memOk]

theorem execMinu_memOk {s : State} (h : s.MemOk) (d l r : XReg) (sz : Size) :
    OutOk (execMinu d l r sz s) := by
  grind [execMinu, unsignedOp_memOk]

theorem execMaxu_memOk {s : State} (h : s.MemOk) (d l r : XReg) (sz : Size) :
    OutOk (execMaxu d l r sz s) := by
  grind [execMaxu, unsignedOp_memOk]

theorem execSeq_memOk {s : State} (h : s.MemOk) (d l r : XReg) (sz : Size) :
    OutOk (execSeq d l r sz s) := by
  grind [execSeq, putX_memOk, OutOk]

theorem execSlt_memOk {s : State} (h : s.MemOk) (d l r : XReg) (sz : Size) :
    OutOk (execSlt d l r sz s) := by
  grind [execSlt, putX_memOk, OutOk]

theorem execSltu_memOk {s : State} (h : s.MemOk) (d l r : XReg) (sz : Size) :
    OutOk (execSltu d l r sz s) := by
  grind [execSltu, putX_memOk, OutOk]

theorem execAddi_memOk {s : State} (h : s.MemOk) (a : XReg) (sz : Size) (imm : Word) :
    OutOk (execAddi a sz imm s) := by
  grind [execAddi, putX_memOk, OutOk]

theorem execAndi_memOk {s : State} (h : s.MemOk) (a : XReg) (imm : Word) :
    OutOk (execAndi a imm s) := by
  grind [execAndi, putX_memOk, OutOk]

theorem execOri_memOk {s : State} (h : s.MemOk) (a : XReg) (imm : Word) :
    OutOk (execOri a imm s) := by
  grind [execOri, putX_memOk, OutOk]

theorem shiftImm_memOk {s : State} (h : s.MemOk) (a : XReg) (sz : Size) (imm : Word) (f : Nat → Word) :
    OutOk (shiftImm s a sz imm f) := by
  grind [shiftImm, finish_memOk, putX_memOk, immBelow_memOk, = except_bind, ActOk]

theorem execShli_memOk {s : State} (h : s.MemOk) (a : XReg) (sz : Size) (imm : Word) :
    OutOk (execShli a sz imm s) := by
  grind [execShli, shiftImm_memOk]

theorem execShri_memOk {s : State} (h : s.MemOk) (a : XReg) (sz : Size) (imm : Word) :
    OutOk (execShri a sz imm s) := by
  grind [execShri, shiftImm_memOk]

theorem execSrai_memOk {s : State} (h : s.MemOk) (a : XReg) (sz : Size) (imm : Word) :
    OutOk (execSrai a sz imm s) := by
  grind [execSrai, shiftImm_memOk]

theorem execSlti_memOk {s : State} (h : s.MemOk) (a : XReg) (sz : Size) (imm : Word) :
    OutOk (execSlti a sz imm s) := by
  grind [execSlti, putX_memOk, OutOk]

theorem execClz_memOk {s : State} (h : s.MemOk) (a b : XReg) (sz : Size) :
    OutOk (execClz a b sz s) := by
  grind [execClz, putX_memOk, OutOk]

theorem execPopc_memOk {s : State} (h : s.MemOk) (a b : XReg) (sz : Size) :
    OutOk (execPopc a b sz s) := by
  grind [execPopc, putX_memOk, OutOk]

theorem execSel_memOk {s : State} (h : s.MemOk) (a b c : XReg) :
    OutOk (execSel a b c s) := by
  grind [execSel, putX_memOk, OutOk]

theorem execMrd_memOk {s : State} (h : s.MemOk) (a : XReg) (b : MReg) :
    OutOk (execMrd a b s) := by
  grind [execMrd, putX_memOk, OutOk]

theorem execMwr_memOk {s : State} (h : s.MemOk) (a : MReg) (b : XReg) :
    OutOk (execMwr a b s) := by
  grind [execMwr, putM_memOk, OutOk]

theorem execTime_memOk {s : State} (h : s.MemOk) (a : XReg) :
    OutOk (execTime a s) := by
  grind [execTime, putX_memOk, OutOk]

theorem execWmax_memOk {s : State} (h : s.MemOk) (d l r : XReg) :
    OutOk (execWmax d l r s) := by
  grind [execWmax, checkWitness_memOk, finish_memOk, putX_memOk, = except_bind, ActOk]

/-! ### Branches (`Machine/Branch`) -/

theorem branchIf_memOk {s : State} (h : s.MemOk) (taken : Bool) (disp : Word) :
    OutOk (branchIf s taken disp) := by
  grind [branchIf, State.setPc_memOk, State.advance_memOk, State.foldSig_memOk, OutOk]

theorem jumpTo_memOk {s : State} (h : s.MemOk) (dest : Word) (link : Bool) :
    OutOk (jumpTo s dest link) := by
  grind [jumpTo, State.setX_memOk, State.setPc_memOk, State.foldSig_memOk, finish_memOk, ActOk, Stop.MemOk, trapAt]

theorem execBr_memOk {s : State} (h : s.MemOk) (imm : Word) :
    OutOk (execBr imm s) := by
  grind [execBr, State.setPc_memOk, OutOk]

theorem execBz_memOk {s : State} (h : s.MemOk) (a : XReg) (imm : Word) :
    OutOk (execBz a imm s) := by
  grind [execBz, branchIf_memOk]

theorem execBnz_memOk {s : State} (h : s.MemOk) (a : XReg) (imm : Word) :
    OutOk (execBnz a imm s) := by
  grind [execBnz, branchIf_memOk]

theorem execBltz_memOk {s : State} (h : s.MemOk) (a : XReg) (imm : Word) :
    OutOk (execBltz a imm s) := by
  grind [execBltz, branchIf_memOk]

theorem execBgez_memOk {s : State} (h : s.MemOk) (a : XReg) (imm : Word) :
    OutOk (execBgez a imm s) := by
  grind [execBgez, branchIf_memOk]

theorem execCall_memOk {s : State} (h : s.MemOk) (imm : Word) :
    OutOk (execCall imm s) := by
  grind [execCall, State.setX_memOk, State.setPc_memOk, OutOk]

theorem execCallr_memOk {s : State} (h : s.MemOk) (a : XReg) :
    OutOk (execCallr a s) := by
  grind [execCallr, jumpTo_memOk]

theorem execJr_memOk {s : State} (h : s.MemOk) (a : XReg) :
    OutOk (execJr a s) := by
  grind [execJr, jumpTo_memOk]

theorem execJtab_memOk {s : State} (h : s.MemOk) (a b : XReg) (imm : Word) :
    OutOk (execJtab a b imm s) := by
  grind [execJtab, State.setPc_memOk, State.advance_memOk, loadNat_memOk, State.foldSig_memOk, finish_memOk, = except_bind, ActOk,
    OutOk, Stop.MemOk, illegal, trapAt]

theorem execBany_memOk {s : State} (h : s.MemOk) (a : MReg) (sz : VSize) (imm : Word) :
    OutOk (execBany a sz imm s) := by
  grind [execBany, branchIf_memOk]

theorem execBnone_memOk {s : State} (h : s.MemOk) (a : MReg) (sz : VSize) (imm : Word) :
    OutOk (execBnone a sz imm s) := by
  grind [execBnone, branchIf_memOk]

theorem execBall_memOk {s : State} (h : s.MemOk) (a : MReg) (sz : VSize) (imm : Word) :
    OutOk (execBall a sz imm s) := by
  grind [execBall, branchIf_memOk]

theorem execBrk_memOk {s : State} (h : s.MemOk) (imm : Word) :
    OutOk (execBrk imm s) := by
  grind [execBrk, finish_memOk, ActOk, Stop.MemOk]

theorem execSys_memOk {s : State} (h : s.MemOk) (imm : Word) :
    OutOk (execSys imm s) := by
  grind [execSys, finish_memOk, ActOk, Stop.MemOk]

/-! ### Vector instructions (`Machine/Vector`) -/

theorem execVmov_memOk {s : State} (h : s.MemOk) (a b : VReg) (sz : VSize) (mk : MReg) :
    OutOk (execVmov a b sz mk s) := by
  grind [execVmov, laneOp_memOk, OutOk]

theorem execVbcast_memOk {s : State} (h : s.MemOk) (a : VReg) (b : XReg) (sz : VSize) (mk : MReg) :
    OutOk (execVbcast a b sz mk s) := by
  grind [execVbcast, laneOp_memOk, OutOk]

theorem execVext_memOk {s : State} (h : s.MemOk) (a : XReg) (b : VReg) (sz : VSize) (imm : Word) (mk : MReg) :
    OutOk (execVext a b sz imm mk s) := by
  grind [execVext, State.advance_memOk, finish_memOk, putX_memOk, immBelow_memOk, = except_bind, ActOk]

theorem execVins_memOk {s : State} (h : s.MemOk) (a : VReg) (b : XReg) (sz : VSize) (imm : Word) (mk : MReg) :
    OutOk (execVins a b sz imm mk s) := by
  grind [execVins, State.advance_memOk, finish_memOk, putV_memOk, immBelow_memOk, = except_bind, ActOk]

theorem takeLane_memOk {s : State} (h : s.MemOk) :
    ActOk State.MemOk (takeLane s) := by
  grind [takeLane, State.updCore_memOk, ActOk, Stop.MemOk]

theorem execVlsr_memOk {s : State} (h : s.MemOk) (a b : VReg) (sz : VSize) (mk : MReg) :
    OutOk (execVlsr a b sz mk s) := by
  grind [execVlsr, finish_memOk, laneOp_memOk, takeLane_memOk, = except_bind, ActOk, Stop.MemOk, trapNow]

theorem execVlsw_memOk {s : State} (h : s.MemOk) (a b : VReg) (sz : VSize) (mk : MReg) :
    OutOk (execVlsw a b sz mk s) := by
  grind [execVlsw, State.advance_memOk, State.updCore_memOk, finish_memOk, takeLane_memOk, = except_bind, ActOk]

theorem execVperm_memOk {s : State} (h : s.MemOk) (d l r : VReg) (sz : VSize) (mk : MReg) :
    OutOk (execVperm d l r sz mk s) := by
  grind [execVperm, laneOp_memOk, OutOk]

theorem execVrot_memOk {s : State} (h : s.MemOk) (a b : VReg) (sz : VSize) (imm : Word) (mk : MReg) :
    OutOk (execVrot a b sz imm mk s) := by
  grind [execVrot, finish_memOk, laneOp_memOk, immBelow_memOk, = except_bind, ActOk]

theorem vecInt_memOk {s : State} (h : s.MemOk) (f : Nat → Int → Int → Int) (d l r : VReg) (sz : VSize) (sat : Bool) (mk : MReg) :
    OutOk (vecInt f d l r sz sat mk s) := by
  grind [vecInt, laneOp_memOk, OutOk]

theorem vecNat_memOk {s : State} (h : s.MemOk) (f : Nat → Nat → Nat → Nat) (d l r : VReg) (sz : VSize) (mk : MReg) :
    OutOk (vecNat f d l r sz mk s) := by
  grind [vecNat, laneOp_memOk, OutOk]

theorem execVadd_memOk {s : State} (h : s.MemOk) (d l r : VReg) (sz : VSize) (sat : Bool) (mk : MReg) :
    OutOk (execVadd d l r sz sat mk s) := by
  grind [execVadd, vecInt_memOk]

theorem execVsub_memOk {s : State} (h : s.MemOk) (d l r : VReg) (sz : VSize) (sat : Bool) (mk : MReg) :
    OutOk (execVsub d l r sz sat mk s) := by
  grind [execVsub, vecInt_memOk]

theorem execVmul_memOk {s : State} (h : s.MemOk) (d l r : VReg) (sz : VSize) (sat : Bool) (mk : MReg) :
    OutOk (execVmul d l r sz sat mk s) := by
  grind [execVmul, vecInt_memOk]

theorem execVmulh_memOk {s : State} (h : s.MemOk) (d l r : VReg) (sz : VSize) (mk : MReg) :
    OutOk (execVmulh d l r sz mk s) := by
  grind [execVmulh, vecInt_memOk]

theorem execVmin_memOk {s : State} (h : s.MemOk) (d l r : VReg) (sz : VSize) (mk : MReg) :
    OutOk (execVmin d l r sz mk s) := by
  grind [execVmin, vecInt_memOk]

theorem execVmax_memOk {s : State} (h : s.MemOk) (d l r : VReg) (sz : VSize) (mk : MReg) :
    OutOk (execVmax d l r sz mk s) := by
  grind [execVmax, vecInt_memOk]

theorem execVand_memOk {s : State} (h : s.MemOk) (d l r : VReg) (sz : VSize) (mk : MReg) :
    OutOk (execVand d l r sz mk s) := by
  grind [execVand, vecNat_memOk]

theorem execVor_memOk {s : State} (h : s.MemOk) (d l r : VReg) (sz : VSize) (mk : MReg) :
    OutOk (execVor d l r sz mk s) := by
  grind [execVor, vecNat_memOk]

theorem execVxor_memOk {s : State} (h : s.MemOk) (d l r : VReg) (sz : VSize) (mk : MReg) :
    OutOk (execVxor d l r sz mk s) := by
  grind [execVxor, vecNat_memOk]

theorem execVshl_memOk {s : State} (h : s.MemOk) (d l r : VReg) (sz : VSize) (sat : Bool) (mk : MReg) :
    OutOk (execVshl d l r sz sat mk s) := by
  grind [execVshl, vecInt_memOk]

theorem execVshr_memOk {s : State} (h : s.MemOk) (d l r : VReg) (sz : VSize) (mk : MReg) :
    OutOk (execVshr d l r sz mk s) := by
  grind [execVshr, vecNat_memOk]

theorem execVsra_memOk {s : State} (h : s.MemOk) (d l r : VReg) (sz : VSize) (mk : MReg) :
    OutOk (execVsra d l r sz mk s) := by
  grind [execVsra, vecInt_memOk]

theorem execVcmp_memOk {s : State} (h : s.MemOk) (a : MReg) (b c : VReg) (sz : VSize) (imm : Word) (mk : MReg) :
    OutOk (execVcmp a b c sz imm mk s) := by
  grind [execVcmp, finish_memOk, putM_memOk, State.flags_memOk, immBelow_memOk, = except_bind, ActOk, Stop.MemOk, illegal]

theorem execVsel_memOk {s : State} (h : s.MemOk) (d l r : VReg) (sz : VSize) (mk : MReg) :
    OutOk (execVsel d l r sz mk s) := by
  grind [execVsel, putV_memOk, OutOk]

theorem execVdot4_memOk {s : State} (h : s.MemOk) (a b c : VReg) (imm : Word) (sat : Bool) (mk : MReg) :
    OutOk (execVdot4 a b c imm sat mk s) := by
  grind [execVdot4, finish_memOk, laneOp_memOk, immBelow_memOk, = except_bind, ActOk]

theorem execVmac_memOk {s : State} (h : s.MemOk) (a b c : VReg) (sz : VSize) (sat : Bool) (mk : MReg) :
    OutOk (execVmac a b c sz sat mk s) := by
  grind [execVmac, laneOp_memOk, OutOk]

theorem execVrshr_memOk {s : State} (h : s.MemOk) (d l r : VReg) (sz : VSize) (rnd : RSel) (mk : MReg) :
    OutOk (execVrshr d l r sz rnd mk s) := by
  grind [execVrshr, laneOp_memOk, OutOk]

theorem execVclamp_memOk {s : State} (h : s.MemOk) (a b c : VReg) (sz : VSize) (mk : MReg) :
    OutOk (execVclamp a b c sz mk s) := by
  grind [execVclamp, laneOp_memOk, OutOk]

theorem putLane0_memOk {s : State} (h : s.MemOk) (a : VReg) (w : Nat) (r : Nat × Nat) :
    (putLane0 s a w r).MemOk := h

theorem execVredadd_memOk {s : State} (h : s.MemOk) (a b : VReg) (sz : VSize) (sat : Bool) (mk : MReg) :
    OutOk (execVredadd a b sz sat mk s) := by
  grind [execVredadd, putLane0_memOk, OutOk]

theorem execVredmax_memOk {s : State} (h : s.MemOk) (a b : VReg) (sz : VSize) (mk : MReg) :
    OutOk (execVredmax a b sz mk s) := by
  grind [execVredmax, putLane0_memOk, OutOk]

theorem execMlog_memOk {s : State} (h : s.MemOk) (d l r : MReg) (sz : VSize) (imm : Word) (mk : MReg) :
    OutOk (execMlog d l r sz imm mk s) := by
  grind [execMlog, finish_memOk, putM_memOk, immBelow_memOk, = except_bind, ActOk]

/-! ### Vector floating point (`Machine/VFloat`) -/

theorem vecFlt_memOk {s : State} (h : s.MemOk) (d : VReg) (sz : VSize) (mk : MReg) (f : FFmt → Nat → Nat × Nat) :
    OutOk (vecFlt s d sz mk f) := by
  grind [vecFlt, State.countEv_memOk, finish_memOk, laneOp_memOk, ActOk, OutOk, Stop.MemOk, illegal]

theorem vecFlt2_memOk {s : State} (h : s.MemOk) (op : FFmt → RMode → FVal → FVal → Nat × Nat) (d l r : VReg) (sz : VSize)
    (rnd : RSel) (mk : MReg) :
    OutOk (vecFlt2 op d l r sz rnd mk s) := by
  grind [vecFlt2, vecFlt_memOk]

theorem vecFlt1_memOk {s : State} (h : s.MemOk) (op : FFmt → RMode → FVal → Nat × Nat) (a b : VReg) (sz : VSize) (rnd : RSel)
    (mk : MReg) :
    OutOk (vecFlt1 op a b sz rnd mk s) := by
  grind [vecFlt1, vecFlt_memOk]

theorem execVfadd_memOk {s : State} (h : s.MemOk) (d l r : VReg) (sz : VSize) (rnd : RSel) (mk : MReg) :
    OutOk (execVfadd d l r sz rnd mk s) := by
  grind [execVfadd, vecFlt2_memOk]

theorem execVfsub_memOk {s : State} (h : s.MemOk) (d l r : VReg) (sz : VSize) (rnd : RSel) (mk : MReg) :
    OutOk (execVfsub d l r sz rnd mk s) := by
  grind [execVfsub, vecFlt2_memOk]

theorem execVfmul_memOk {s : State} (h : s.MemOk) (d l r : VReg) (sz : VSize) (rnd : RSel) (mk : MReg) :
    OutOk (execVfmul d l r sz rnd mk s) := by
  grind [execVfmul, vecFlt2_memOk]

theorem execVfma_memOk {s : State} (h : s.MemOk) (a b c : VReg) (sz : VSize) (rnd : RSel) (mk : MReg) :
    OutOk (execVfma a b c sz rnd mk s) := by
  grind [execVfma, vecFlt_memOk]

theorem execVfmin_memOk {s : State} (h : s.MemOk) (d l r : VReg) (sz : VSize) (mk : MReg) :
    OutOk (execVfmin d l r sz mk s) := by
  grind [execVfmin, vecFlt_memOk]

theorem execVfmax_memOk {s : State} (h : s.MemOk) (d l r : VReg) (sz : VSize) (mk : MReg) :
    OutOk (execVfmax d l r sz mk s) := by
  grind [execVfmax, vecFlt_memOk]

theorem execVfrcp_memOk {s : State} (h : s.MemOk) (a b : VReg) (sz : VSize) (rnd : RSel) (mk : MReg) :
    OutOk (execVfrcp a b sz rnd mk s) := by
  grind [execVfrcp, vecFlt1_memOk]

theorem execVfrsq_memOk {s : State} (h : s.MemOk) (a b : VReg) (sz : VSize) (rnd : RSel) (mk : MReg) :
    OutOk (execVfrsq a b sz rnd mk s) := by
  grind [execVfrsq, vecFlt1_memOk]

theorem execVfexp2_memOk {s : State} (h : s.MemOk) (a b : VReg) (sz : VSize) (rnd : RSel) (mk : MReg) :
    OutOk (execVfexp2 a b sz rnd mk s) := by
  grind [execVfexp2, vecFlt1_memOk]

theorem execVfred_memOk {s : State} (h : s.MemOk) (a b : VReg) (sz : VSize) (rnd : RSel) (mk : MReg) :
    OutOk (execVfred a b sz rnd mk s) := by
  grind [execVfred, State.countEv_memOk, finish_memOk, putLane0_memOk, ActOk, OutOk, Stop.MemOk, illegal]

theorem execVcvt_memOk {s : State} (h : s.MemOk) (a b : VReg) (imm : Word) (rnd : RSel) (mk : MReg) :
    OutOk (execVcvt a b imm rnd mk s) := by
  grind [execVcvt, finish_memOk, putV_memOk, State.flags_memOk, ActOk, Stop.MemOk, illegal]

/-! ### Vector memory (`Machine/VMemory`) -/

theorem scalarLoad_memOk {s : State} (h : s.MemOk) (a b : XReg) (sz : Size) (imm : Word) (na signed : Bool) (wit : Option Stamp) :
    ActOk State.MemOk (scalarLoad a b sz imm na signed wit s) := by
  grind [scalarLoad, loadNat_memOk, putX_memOk, putLate_memOk, = except_bind, ActOk]

theorem execLd_memOk {s : State} (h : s.MemOk) (a b : XReg) (sz : Size) (imm : Word) (na : Bool) :
    OutOk (execLd a b sz imm na s) := by
  grind [execLd, finish_memOk, scalarLoad_memOk]

theorem execLdx_memOk {s : State} (h : s.MemOk) (a b : XReg) (sz : Size) (imm : Word) (na : Bool) :
    OutOk (execLdx a b sz imm na s) := by
  grind [execLdx, finish_memOk, scalarLoad_memOk]

theorem execLdw_memOk {s : State} (h : s.MemOk) (a b c : XReg) (sz : Size) (imm : Word) (na : Bool) :
    OutOk (execLdw a b c sz imm na s) := by
  grind [execLdw, finish_memOk, witnessOf_memOk, scalarLoad_memOk, = except_bind, ActOk]

theorem execSt_memOk {s : State} (h : s.MemOk) (a b c : XReg) (sz : Size) (imm : Word) (sc : Option Scope) (na : Bool) :
    OutOk (execSt a b c sz imm sc na s) := by
  grind [execSt, State.advance_memOk, storeBytes_memOk, finish_memOk, = except_bind, ActOk]

theorem loadLanes_memOk {s : State} (h : s.MemOk) (a : VReg) (w : Nat) (addr : Nat → Word) (ls : List Nat) (v : Vec) :
    ActOk (·.2.MemOk) (loadLanes a w addr ls s v) := by
  induction ls generalizing s v with
  | nil => exact .ok h
  | cons i ls ih => grind [loadLanes, loadNat_memOk, = except_bind, ActOk]

theorem vecLoad_memOk {s : State} (h : s.MemOk) (a : VReg) (sz : VSize) (mk : MReg) (addr : Nat → Word) :
    OutOk (vecLoad a sz mk addr s) := by
  grind [vecLoad, finish_memOk, putV_memOk, putLate_memOk, loadLanes_memOk, = except_bind, ActOk]

theorem checkLanes_memOk {s : State} (h : s.MemOk) (w : Nat) (addr : Nat → Word) (ls : List Nat) :
    ActOk (·.2.MemOk) (checkLanes w addr ls s) := by
  induction ls generalizing s with
  | nil => exact .ok h
  | cons i ls ih => grind [checkLanes, storeCheck_memOk, = except_bind, ActOk]

theorem vecStore_memOk {s : State} (h : s.MemOk) (a : VReg) (sz : VSize) (mk : MReg) (addr : Nat → Word) (wit : Option XReg) :
    OutOk (vecStore a sz mk addr wit s) := by
  unfold vecStore
  simp only [except_bind]
  grind [State.advance_memOk, storeAll_memOk, State.storeWitness_memOk, finish_memOk, checkLanes_memOk, ActOk]

theorem execVld_memOk {s : State} (h : s.MemOk) (a : VReg) (b : XReg) (sz : VSize) (imm : Word) (mk : MReg) :
    OutOk (execVld a b sz imm mk s) := by
  grind [execVld, vecLoad_memOk]

theorem execVst_memOk {s : State} (h : s.MemOk) (a : VReg) (b c : XReg) (sz : VSize) (imm : Word) (mk : MReg) :
    OutOk (execVst a b c sz imm mk s) := by
  grind [execVst, vecStore_memOk]

theorem execVlds_memOk {s : State} (h : s.MemOk) (a : VReg) (b c : XReg) (sz : VSize) (imm : Word) (mk : MReg) :
    OutOk (execVlds a b c sz imm mk s) := by
  grind [execVlds, vecLoad_memOk]

theorem execVgath_memOk {s : State} (h : s.MemOk) (a : VReg) (b : XReg) (c : VReg) (sz : VSize) (imm : Word) (mk : MReg) :
    OutOk (execVgath a b c sz imm mk s) := by
  grind [execVgath, vecLoad_memOk]

theorem execVscat_memOk {s : State} (h : s.MemOk) (a : VReg) (b : XReg) (c : VReg) (sz : VSize) (imm : Word) (mk : MReg) :
    OutOk (execVscat a b c sz imm mk s) := by
  grind [execVscat, vecStore_memOk]

/-! ### Scratch buffers (`Machine/Scratch`) -/

theorem updBuf_memOk {s : State} (hs : s.MemOk) (cluster h : Nat) (f : Buf → Buf) :
    (updBuf s cluster h f).MemOk := by
  grind [updBuf, State.updCluster_memOk]

theorem freeBuf_memOk {s : State} (hs : s.MemOk) (cluster h : Nat) :
    (freeBuf s cluster h).MemOk := by
  grind [freeBuf, State.updCluster_memOk]

theorem needBuf_memOk (s : State) (h : Nat) (a : Word) :
    ActOk (fun _ => True) (needBuf s h a) := by
  grind [needBuf, ActOk, Stop.MemOk, trapAt]

theorem bankTicks_memOk {s : State} (h : s.MemOk) (banks : List Nat) (k : Nat) :
    (bankTicks s banks k).MemOk := by
  grind [bankTicks, State.onCx_memOk, State.countEv_memOk]

theorem bankTick_memOk {s : State} (h : s.MemOk) (off n k : Nat) :
    (bankTick s off n k).MemOk := by
  grind [bankTick, bankTicks_memOk]

theorem spRead_memOk {s : State} (hs : s.MemOk) (h : Nat) (off : Int) (n : Nat) (a : Word) :
    ActOk (·.2.MemOk) (spRead s h off n a) := by
  grind [spRead, needBuf_memOk, bankTick_memOk, = except_bind, ActOk, Stop.MemOk, trapAt]

theorem spWrite_memOk {s : State} (hs : s.MemOk) (h : Nat) (off : Int) (bs : List Byte) (a : Word) :
    ActOk State.MemOk (spWrite s h off bs a) := by
  grind [spWrite, updBuf_memOk, needBuf_memOk, bankTick_memOk, = except_bind, ActOk, Stop.MemOk, trapAt]

theorem handleOf_memOk (s : State) (r : XReg) :
    ActOk (fun _ => True) (handleOf s r) := by
  grind [handleOf, immBelow_memOk]

theorem execBalloc_memOk {s : State} (h : s.MemOk) (a b c : XReg) :
    OutOk (execBalloc a b c s) := by
  grind [execBalloc, State.updCluster_memOk, require_memOk, finish_memOk, putX_memOk, handleOf_memOk, = except_bind, ActOk]

theorem execBfree_memOk {s : State} (h : s.MemOk) (b : XReg) :
    OutOk (execBfree b s) := by
  grind [execBfree, State.advance_memOk, finish_memOk, freeBuf_memOk, needBuf_memOk, handleOf_memOk, = except_bind, ActOk]

theorem execBgive_memOk {s : State} (h : s.MemOk) (b c : XReg) :
    OutOk (execBgive b c s) := by
  unfold execBgive
  simp only [except_bind]
  grind [State.advance_memOk, finish_memOk, immBelow_memOk, updBuf_memOk, needBuf_memOk, handleOf_memOk, ActOk]

theorem exportBuf_memOk {s : State} (hs : s.MemOk) (cluster h exporter : Nat) :
    (exportBuf s cluster h exporter).MemOk := by
  grind [exportBuf, updBuf_memOk]

theorem doBexport_memOk {s : State} (h : s.MemOk) (b c : XReg) :
    ActOk State.MemOk (doBexport b c s) := by
  grind [doBexport, State.advance_memOk, updBuf_memOk, needBuf_memOk, handleOf_memOk, exportBuf_memOk, = except_bind, ActOk,
    Stop.MemOk, illegal, trapAt]

theorem execBexportStart_memOk {s : State} (h : s.MemOk) (b c : XReg) :
    OutOk (execBexportStart b c s) := by
  grind [execBexportStart, finish_memOk, doBexport_memOk]

theorem execBexportEnd_memOk {s : State} (h : s.MemOk) (b c : XReg) :
    OutOk (execBexportEnd b c s) := by
  grind [execBexportEnd, finish_memOk, doBexport_memOk]

theorem execSpld_memOk {s : State} (h : s.MemOk) (a : VReg) (b : XReg) (imm : Word) :
    OutOk (execSpld a b imm s) := by
  grind [execSpld, finish_memOk, putV_memOk, spRead_memOk, = except_bind, ActOk, Stop.MemOk, trapAt]

theorem execSpst_memOk {s : State} (h : s.MemOk) (a : VReg) (b : XReg) (imm : Word) :
    OutOk (execSpst a b imm s) := by
  grind [execSpst, State.advance_memOk, finish_memOk, spWrite_memOk, = except_bind, ActOk, Stop.MemOk, trapAt]

theorem execSpstat_memOk {s : State} (h : s.MemOk) (a b : XReg) (imm : Word) :
    OutOk (execSpstat a b imm s) := by
  unfold execSpstat
  simp only [except_bind]
  grind [finish_memOk, putX_memOk, immBelow_memOk, handleOf_memOk, ActOk]

/-! ### Matrix instructions and tiles (`Machine/Matrix`) -/

theorem descOf_memOk (s : State) (r : XReg) :
    ActOk (fun _ => True) (descOf s r) := by
  grind [descOf, require_memOk, = except_bind, ActOk]

theorem sliceBuf_memOk (s : State) (h : Nat) (a : Word) :
    ActOk (fun _ => True) (sliceBuf s h a) := by
  grind [sliceBuf, ActOk, Stop.MemOk, trapAt]

theorem updOp_memOk {s : State} (h : s.MemOk) (core id : Nat) (f : MatOp → MatOp) :
    (updOp s core id f).MemOk := h

theorem gangFail_memOk {s : State} (h : s.MemOk) (cluster : Nat) (p : GangPos) :
    (gangFail s cluster p).MemOk := by
  grind [gangFail, State.updCluster_memOk, updOp_memOk, foldl_memOk]

theorem gangDead_memOk {s : State} (h : s.MemOk) (cluster member : Nat) (p : GangPos) :
    (gangDead s cluster member p).2.MemOk := by
  grind [gangDead, State.updCluster_memOk]

theorem joinGang_memOk {s : State} (h : s.MemOk) (cluster member : Nat) (mask : BitVec 8) :
    (joinGang s cluster member mask).2.MemOk := by
  grind [joinGang, State.updCluster_memOk]

theorem execMgang_memOk {s : State} (h : s.MemOk) (imm : Word) :
    OutOk (execMgang imm s) := by
  unfold execMgang
  simp only [except_bind]
  grind [State.advance_memOk, State.onCx_memOk, State.updCore_memOk, require_memOk, leaveGang_memOk, finish_memOk, immBelow_memOk,
    joinGang_memOk, ActOk, Stop.MemOk]

theorem commitLines_memOk {s : State} (h : s.MemOk) (c : CtxId) (oid : Nat) (id : Option Nat) (ls : List (CrPlace × CrLine)) :
    (commitLines s c oid id ls).MemOk := by
  unfold commitLines
  grind [State.updCtx_memOk, State.pass_memOk, State.stampWrite_memOk, commitLine_memOk, foldl_memOk]

theorem checkElem_memOk {s : State} (h : s.MemOk) (c : CtxId) (w : Who) (va : Word) (n : Nat) :
    ChkOk (·.2.MemOk) (checkElem s c w va n) := by
  grind [checkElem, State.sealFrame_memOk, check_memOk, = except_bind, ChkOk]

theorem contributions_memOk {s : State} (h : s.MemOk) (o : MatOp) : ChkOk (·.2.MemOk) (contributions s o) := by
  unfold contributions
  refine foldl_keeps (P := ChkOk fun r : List (CrPlace × CrLine) × State => r.2.MemOk) (.ok h) _ fun acc e hacc => ?_
  refine hacc.bind fun r hr => ?_
  dsimp only
  split
  · exact .error
  · next heq =>
    have ht := (checkElem_memOk hr ..).of_eq heq
    split
    · exact .error
    · exact .ok ht

theorem matIssue_memOk {s : State} (h : s.MemOk) (kind : MatKind) (a : XReg) (b : Nat) (c : XReg) (depth keep : Nat) :
    ActOk State.MemOk (matIssue kind a b c depth keep s) := by
  have dead (p : Option GangPos) (cluster me : Nat) : (match p with
      | some p => gangDead s cluster me p
      | none => (false, s)).2.MemOk := by
    cases p with
    | none => exact h
    | some p => exact gangDead_memOk h ..
  refine (require_memOk ..).check fun _ => (require_memOk ..).check fun _ => ?_
  extract_lets -underBinder tiles aTiles operands
  have rest : ∀ da, ActOk State.MemOk (operands da) := fun da => by
    refine (descOf_memOk ..).check fun db => (require_memOk ..).check fun _ => (require_memOk ..).check fun _ =>
      ActOk.guard (.error (e := .trap ..) trivial) fun _ => ?_
    dsimp -zeta only
    extract_lets -underBinder withA
    have restA : ∀ k, ActOk State.MemOk (withA k) := fun k => by
      refine (sliceBuf_memOk ..).check fun bBuf => ?_
      extract_lets -underBinder sca scb withScale
      have restS : ∀ k, ActOk State.MemOk (withScale k) := fun k => by
        dsimp -zeta only [withScale]
        extract_lets -underBinder withBoth
        have restB : ∀ k, ActOk State.MemOk (withBoth k) := fun k =>
          ActOk.guard (.error trivial) fun _ => ActOk.guard (.error (e := .trap ..) trivial) fun _ => .ok
            (State.advance_memOk (State.updCore_memOk (State.onCx_memOk (State.onNet_memOk
              (foldl_memOk (dead ..) _ fun _ _ hu => updBuf_memOk hu ..) _) _) _ _))
        clear_value withBoth
        split
        · exact (sliceBuf_memOk ..).check fun _ => restB _
        · exact restB _
      clear_value withScale
      split
      · exact (sliceBuf_memOk ..).check fun _ => restS _
      · exact restS _
    clear_value withA
    split
    · exact (sliceBuf_memOk ..).check fun _ => restA _
    · exact restA _
  clear_value operands
  split
  · exact (require_memOk ..).check fun _ => rest _
  · refine (require_memOk ..).check fun _ => ?_
    split
    · exact (descOf_memOk ..).check fun d => (require_memOk ..).check fun _ => rest _
    · exact rest _

theorem execMma_memOk {s : State} (h : s.MemOk) (a b c : XReg) (imm : Word) :
    OutOk (execMma a b c imm s) := by
  grind [execMma, finish_memOk, immBelow_memOk, matIssue_memOk, = except_bind, ActOk]

theorem execMmas_memOk {s : State} (h : s.MemOk) (a b c : XReg) (imm : Word) :
    OutOk (execMmas a b c imm s) := by
  grind [execMmas, finish_memOk, immBelow_memOk, matIssue_memOk, = except_bind, ActOk]

theorem execMmat_memOk {s : State} (h : s.MemOk) (a : XReg) (b : TReg) (c : XReg) (imm : Word) :
    OutOk (execMmat a b c imm s) := by
  grind [execMmat, finish_memOk, immBelow_memOk, matIssue_memOk, = except_bind, ActOk]

theorem tileAligned_memOk (s : State) (b c : XReg) :
    ActOk (fun _ => True) (tileAligned s b c) := by
  grind [tileAligned, ActOk, Stop.MemOk, trapAt]

theorem tileDesc_memOk (s : State) (b c : XReg) : ActOk (fun _ => True) (tileDesc s b c) := by
  refine (require_memOk ..).check fun _ => (descOf_memOk ..).check fun d => (require_memOk ..).check fun _ =>
    (needBuf_memOk ..).check fun k => ?_
  split
  · exact .trap ..
  · exact .ok trivial

theorem loadRows_memOk {s : State} (h : s.MemOk) (a : TReg) (addr : Nat → Word) (rs : List Nat) (t : Tile) :
    ActOk (·.2.MemOk) (loadRows a addr rs s t) := by
  induction rs generalizing s t with
  | nil => exact .ok h
  | cons r rs ih => grind [loadRows, loadBytes_memOk, = except_bind, ActOk]

theorem checkRows_memOk {s : State} (h : s.MemOk) (addr : Nat → Word) (rs : List Nat) :
    ActOk (·.2.MemOk) (checkRows addr rs s) := by
  induction rs generalizing s with
  | nil => exact .ok h
  | cons r rs ih => grind [checkRows, storeCheck_memOk, = except_bind, ActOk]

theorem tileTicks_memOk {s : State} (h : s.MemOk) (d : Desc) (rs : List Nat) : (tileTicks d rs s).MemOk := by
  induction rs generalizing s with
  | nil => exact h
  | cons r rs ih => exact ih (bankTicks_memOk h _ _)

theorem execTld_memOk {s : State} (h : s.MemOk) (a : TReg) (b c : XReg) (imm : Word) : OutOk (execTld a b c imm s) := by
  refine finish_memOk h <| (immBelow_memOk ..).check fun _ => ?_
  split
  · exact (tileAligned_memOk ..).check fun _ => (loadRows_memOk h ..).bind fun r hr =>
      .ok (putLate_memOk _ (State.advance_memOk (State.setT_memOk hr ..)))
  · refine (tileDesc_memOk ..).check fun d => ?_
    dsimp only
    split
    · exact .trap ..
    · exact .ok (State.advance_memOk (State.setT_memOk (tileTicks_memOk h ..) ..))

theorem execTst_memOk {s : State} (h : s.MemOk) (a : TReg) (b c : XReg) (imm : Word) : OutOk (execTst a b c imm s) := by
  refine finish_memOk h <| (immBelow_memOk ..).check fun _ => .ite ?_ ?_
  · exact (tileAligned_memOk ..).check fun _ => (checkRows_memOk h ..).bind fun _ hr =>
      (storeAll_memOk hr ..).bind fun _ ht => .ok (State.advance_memOk ht)
  · exact (tileDesc_memOk ..).check fun _ => .ok (State.advance_memOk (updBuf_memOk (tileTicks_memOk h ..) ..))

theorem execTzero_memOk {s : State} (h : s.MemOk) (a : TReg) :
    OutOk (execTzero a s) := by
  grind [execTzero, State.setT_memOk, State.advance_memOk, OutOk]

theorem execMhint_memOk {s : State} (h : s.MemOk) (imm : Word) :
    OutOk (execMhint imm s) := by
  grind [execMhint, State.advance_memOk, State.updCore_memOk, OutOk]

theorem execMwait_memOk {s : State} (h : s.MemOk) (a : XReg) :
    OutOk (execMwait a s) := by
  grind [execMwait, State.advance_memOk, State.pendWitness_memOk, finish_memOk, ActOk, Stop.MemOk]

theorem awaitClear_memOk (s : State) (p : CrPlace) :
    ActOk (fun _ => True) (awaitClear s p) := by
  grind [awaitClear, ActOk, Stop.MemOk]

theorem awaitOps_memOk (s : State) (p : CrPlace) :
    ActOk (fun _ => True) (awaitOps s p) := by
  grind [awaitOps, ActOk, Stop.MemOk]

theorem crRead_memOk {s : State} (h : s.MemOk) (va : Word) (n : Nat) (wit : Option Stamp) :
    ActOk (·.2.MemOk) (crRead s va n wit) := by
  unfold crRead
  simp only [except_bind]
  grind [State.onCx_memOk, reachHome_memOk, State.sealFrame_memOk, State.check_memOk, State.heard_memOk, awaitClear_memOk, ActOk,
    Stop.MemOk, trapAt]

theorem execMstat_memOk {s : State} (h : s.MemOk) (a b c : XReg) (imm : Word) :
    OutOk (execMstat a b c imm s) := by
  unfold execMstat
  simp only [except_bind]
  grind [require_memOk, finish_memOk, putX_memOk, witnessOf_memOk, immBelow_memOk, crRead_memOk, ActOk]

theorem addFill_memOk {s : State} (h : s.MemOk) (c : CtxId) :
    (addFill s c).MemOk := by
  grind [addFill, State.updCtx_memOk, State.countEv_memOk]

/-! ### CR instructions (`Machine/CrInst`) -/

theorem rangeLimits_memOk (s : State) (va len : Word) :
    ActOk (fun _ => True) (rangeLimits s va len) := by
  grind [rangeLimits, ActOk, Stop.MemOk, illegal, trapAt]

theorem checkPages_memOk {s : State} (h : s.MemOk) (end_ fuel va : Nat) : ActOk State.MemOk (checkPages end_ fuel va s) := by
  induction fuel generalizing s va with
  | zero => exact .ok h
  | succ fuel ih =>
    rw [checkPages]
    split
    · exact .ok h
    · exact (Chk.act_memOk (checkElem_memOk h ..)).bind fun _ hr => ih (s := _) hr _

theorem awaitTurn_memOk (s : State) (evs : List (Option Nat)) :
    ActOk (fun _ => True) (awaitTurn s evs) := by
  grind [awaitTurn, ActOk, Stop.MemOk]

theorem crWitness_memOk {s : State} (h : s.MemOk) (r : XReg) :
    (crWitness s r).MemOk := by
  grind [crWitness, State.setX_memOk, State.pendWitness_memOk]

theorem clearLine_memOk {s : State} (h : s.MemOk) (p : CrPlace) :
    (clearLine s p).MemOk := by
  grind [clearLine, State.onCx_memOk, reachHome_memOk, capturePage_memOk, crClear_memOk, State.firingEvent_memOk, foldl_memOk]

theorem execCrclr_memOk {s : State} (h : s.MemOk) (a b c : XReg) : OutOk (execCrclr a b c s) := by
  refine finish_memOk h <| (rangeLimits_memOk ..).check fun _ => (checkPages_memOk h ..).bind fun t ht =>
    (ActOk.forM (awaitClear_memOk t) _).check fun _ => (ActOk.forM (awaitOps_memOk t) _).check fun _ => ?_
  have direct {u : State} (hu : u.MemOk) (ps : List CrPlace) :
      (crWitness ((ps.foldl clearLine u).stampNow u.cur) c).advance.MemOk :=
    State.advance_memOk (crWitness_memOk (State.stampNow_memOk (foldl_memOk hu _ fun _ _ hv => clearLine_memOk hv _) _) _)
  dsimp only
  split
  · refine (stagePut_memOk ht _).bind fun o ho => ?_
    split
    · exact .ok (State.advance_memOk (crWitness_memOk (ho.of_eq rfl) _))
    · exact (exposeAct_memOk ht).bind fun u hu => .ok (direct hu _)
  · exact .ok (direct ht _)

theorem execCrflush_memOk {s : State} (h : s.MemOk) (a b c : XReg) : OutOk (execCrflush a b c s) := by
  refine finish_memOk h <| (rangeLimits_memOk ..).check fun _ => (checkPages_memOk h ..).bind fun t ht =>
    (ActOk.forM (awaitClear_memOk t) _).check fun _ => ?_
  split
  · exact .error trivial
  · refine .ok (State.advance_memOk (crWitness_memOk (State.stampNow_memOk (foldl_memOk ht _ fun u p hu => ?_) _) _))
    split
    · exact hu
    · exact foldl_memOk hu _ fun _ _ hv => foldLine_memOk hv ..

theorem rawAlign_memOk (s : State) (va : Word) :
    ActOk (fun _ => True) (rawAlign s va) := by
  grind [rawAlign, Fail.stop_memOk, ActOk, Stop.MemOk, trapAt]

theorem execCrrd_memOk {s : State} (h : s.MemOk) (a : VReg) (b c : XReg) (raw : Bool) : OutOk (execCrrd a b c raw s) := by
  have sticky {t : State} (ht : t.MemOk) (q : Bool) (p : CrPlace) : (if q then crSticky t true p else t).MemOk := by
    split
    · exact crSticky_memOk ht ..
    · exact ht
  refine finish_memOk h <| (witnessOf_memOk ..).check fun _ => ?_
  dsimp only
  split
  · refine (rawAlign_memOk ..).check fun _ => (State.check_memOk h ..).bind fun r _ => ?_
    exact .ite (.trap ..) (.ite (.trap ..) ((crRead_memOk h ..).bind fun t ht => .ok (putV_memOk ht ..)))
  · exact (crRead_memOk h ..).bind fun t ht => .ok (putV_memOk (sticky ht ..) ..)

theorem execCradd_memOk {s : State} (h : s.MemOk) (a : VReg) (b c : XReg) : OutOk (execCradd a b c s) := by
  refine finish_memOk h <| (Chk.act_memOk (checkElem_memOk h ..)).bind fun r hr =>
    (awaitClear_memOk ..).check fun _ => (awaitOps_memOk ..).check fun _ => ?_
  have direct {u : State} (hu : u.MemOk) (evs ls) (p : Prop) [Decidable p] (w : Wait) : ActOk State.MemOk (do
      awaitTurn u evs
      if p then .error (.wait w none)
      .ok (crWitness ((commitLines u u.cur u.oid none ls).stampNow u.cur) c).advance) := by
    refine (awaitTurn_memOk ..).check fun _ => ?_
    split
    · exact .error trivial
    · exact .ok (State.advance_memOk (crWitness_memOk (State.stampNow_memOk (commitLines_memOk hu ..) _) _))
  split
  · refine (stagePut_memOk hr _).bind fun o ho => ?_
    split
    · exact .ok (State.advance_memOk (crWitness_memOk (ho.of_eq rfl) _))
    · exact (exposeAct_memOk hr).bind fun u hu => direct hu ..
  · exact direct hr ..

/-! ### Atomics, prefetch and clearing (`Machine/Atomic`) -/

theorem atomicCheck_memOk {s : State} (h : s.MemOk) (va : Word) (n : Nat) (hostOk : Bool) :
    ActOk (·.2.MemOk) (atomicCheck s va n hostOk) := by
  refine (State.check_memOk h va n .rw).bind fun r hr => (Chk.act_passes _).check fun _ => ?_
  split
  · exact .error trivial
  · exact .ok (State.sealLeaf_memOk hr ..)

theorem atomicLaunch_memOk {s : State} (h : s.MemOk) (va : Word) (l : Leaf) (kind : FlightKind) (dest : XReg) (sc : Scope) :
    ActOk State.MemOk (atomicLaunch s va l kind dest sc) :=
  (exposeAct_memOk h).bind fun _ ht => .ok (State.advance_memOk (recordEvent_memOk
    (State.countEv_memOk (State.pendResult_memOk (State.launch_memOk ht ..) ..) ..) ..))

theorem amo_memOk {s : State} (h : s.MemOk) (op : AmoOp) (sizes : List Size) (a b c : XReg) (sz : Size) (sc : Option Scope) :
    OutOk (amo op sizes a b c sz sc s) := by
  grind [amo, require_memOk, finish_memOk, atomicCheck_memOk, atomicLaunch_memOk, = except_bind, ActOk]

theorem execAmoadd_memOk {s : State} (h : s.MemOk) (a b c : XReg) (sz : Size) (sc : Option Scope) :
    OutOk (execAmoadd a b c sz sc s) := by
  grind [execAmoadd, amo_memOk]

theorem execAmoand_memOk {s : State} (h : s.MemOk) (a b c : XReg) (sz : Size) (sc : Option Scope) :
    OutOk (execAmoand a b c sz sc s) := by
  grind [execAmoand, amo_memOk]

theorem execAmoor_memOk {s : State} (h : s.MemOk) (a b c : XReg) (sz : Size) (sc : Option Scope) :
    OutOk (execAmoor a b c sz sc s) := by
  grind [execAmoor, amo_memOk]

theorem execAmoxor_memOk {s : State} (h : s.MemOk) (a b c : XReg) (sz : Size) (sc : Option Scope) :
    OutOk (execAmoxor a b c sz sc s) := by
  grind [execAmoxor, amo_memOk]

theorem execAmomin_memOk {s : State} (h : s.MemOk) (a b c : XReg) (sz : Size) (sc : Option Scope) :
    OutOk (execAmomin a b c sz sc s) := by
  grind [execAmomin, amo_memOk]

theorem execAmomax_memOk {s : State} (h : s.MemOk) (a b c : XReg) (sz : Size) (sc : Option Scope) :
    OutOk (execAmomax a b c sz sc s) := by
  grind [execAmomax, amo_memOk]

theorem execAmominu_memOk {s : State} (h : s.MemOk) (a b c : XReg) (sz : Size) (sc : Option Scope) :
    OutOk (execAmominu a b c sz sc s) := by
  grind [execAmominu, amo_memOk]

theorem execAmomaxu_memOk {s : State} (h : s.MemOk) (a b c : XReg) (sz : Size) (sc : Option Scope) :
    OutOk (execAmomaxu a b c sz sc s) := by
  grind [execAmomaxu, amo_memOk]

theorem execAmoswp_memOk {s : State} (h : s.MemOk) (a b c : XReg) (sz : Size) (sc : Option Scope) :
    OutOk (execAmoswp a b c sz sc s) := by
  grind [execAmoswp, amo_memOk]

theorem execAmocas_memOk {s : State} (h : s.MemOk) (a b c : XReg) (sz : Size) (sc : Option Scope) :
    OutOk (execAmocas a b c sz sc s) := by
  grind [execAmocas, amo_memOk]

theorem execAmofadd_memOk {s : State} (h : s.MemOk) (a b c : XReg) (sz : Size) (sc : Option Scope) :
    OutOk (execAmofadd a b c sz sc s) := by
  grind [execAmofadd, amo_memOk]

theorem execMxacc_memOk {s : State} (h : s.MemOk) (a : VReg) (b c : XReg) (sz : Size) (imm : Word) (sc : Option Scope) :
    OutOk (execMxacc a b c sz imm sc s) := by
  grind [execMxacc, require_memOk, finish_memOk, atomicCheck_memOk, atomicLaunch_memOk, = except_bind, ActOk]

theorem prefetchHome_memOk {s : State} (h : s.MemOk) (owner line : Nat) :
    OptOk State.MemOk (prefetchHome s owner line) := by
  grind [prefetchHome, reachHome_memOk, OptOk]

theorem prefetch_memOk {s : State} (h : s.MemOk) (va : Word) (sc : Scope) (na : Bool) : (prefetch s va sc na).MemOk := by
  unfold prefetch
  split
  · exact h
  · next l t heq =>
    have ht : t.MemOk := (check_memOk h ..).of_eq heq
    have home (o l) := prefetchHome_memOk ht o l
    have l1 (own line) : OptOk State.MemOk ((cachedGet t t.cur false false na own line none).map (·.2)) :=
      (cachedGet_memOk ht ..).map fun _ hr => hr
    have near (own line) : OptOk State.MemOk ((nearGet t t.cur false false own line none).map (·.2)) :=
      (nearGet_memOk ht ..).map fun _ hr => hr
    grind [State.sealFrame_memOk, OptOk]

theorem execPrf_memOk {s : State} (h : s.MemOk) (b : XReg) (imm : Word) (sc : Option Scope) (na : Bool) :
    OutOk (execPrf b imm sc na s) := by
  grind [execPrf, State.advance_memOk, require_memOk, finish_memOk, prefetch_memOk, = except_bind, ActOk]

theorem raiseFloors_memOk {s : State} (h : s.MemOk) (w : Stamp) :
    (raiseFloors s w).MemOk := h

theorem execWtest_memOk {s : State} (h : s.MemOk) (a b : XReg) :
    OutOk (execWtest a b s) := by
  grind [execWtest, finish_memOk, putX_memOk, witnessOf_memOk, = except_bind, ActOk]

theorem execWwait_memOk {s : State} (h : s.MemOk) (b : XReg) :
    OutOk (execWwait b s) := by
  grind [execWwait, State.advance_memOk, State.onCx_memOk, finish_memOk, pass_memOk, witnessOf_memOk, raiseFloors_memOk, =
    except_bind, ActOk, Stop.MemOk]

theorem execWfront_memOk {s : State} (h : s.MemOk) (a : XReg) :
    OutOk (execWfront a s) := by
  grind [execWfront, State.advance_memOk, State.pendWitness_memOk, OutOk]

theorem execPclr_memOk {s : State} (h : s.MemOk) (a b : XReg) (sc : Option Scope) : OutOk (execPclr a b sc s) := by
  have direct {t : State} (ht : t.MemOk) (f k v l c n w d x) :
      ((((t.onCx f).launch k v l c n w).pendWitness d c x).advance).MemOk :=
    State.advance_memOk (State.pendWitness_memOk (State.launch_memOk (State.onCx_memOk ht _) ..) ..)
  refine finish_memOk h <| (State.check_memOk h ..).bind fun r hr => .ite (.trap ..) ?_
  have sealed := State.sealFrame_memOk hr r.2.who r.1.entry r.1.pa
  dsimp only
  refine .ite ?_ (.ok (direct sealed ..))
  have put {t : State} (ht : t.MemOk) (st) := stagePut_memOk ht st
  split
  · refine (awaitOps_memOk ..).check fun _ => (put (State.onCx_memOk sealed _) _).bind fun o ho => ?_
    split
    · exact .ok (State.advance_memOk (State.setX_memOk (ho.of_eq rfl) ..))
    · exact (exposeAct_memOk sealed).bind fun t ht => .ok (direct ht ..)
  · refine (ActOk.ok trivial).check fun _ => (put (State.onCx_memOk sealed _) _).bind fun o ho => ?_
    split
    · exact .ok (State.advance_memOk (State.setX_memOk (ho.of_eq rfl) ..))
    · exact (exposeAct_memOk sealed).bind fun t ht => .ok (direct ht ..)

/-! ### Copies and landing objects (`Machine/Copy`) -/

theorem endpointOf_memOk (s : State) (r : XReg) :
    ActOk (fun _ => True) (endpointOf s r) := by
  grind [endpointOf, require_memOk, = except_bind, ActOk]

theorem updLanding_memOk {s : State} (h : s.MemOk) (core n : Nat) (f : Landing → Landing) :
    (updLanding s core n f).MemOk := h

theorem checkCounter_memOk {s : State} (h : s.MemOk) (c : CtxId) (w : Who) (va : Word) :
    ChkOk (·.2.MemOk) (checkCounter s c w va) := by
  grind [checkCounter, check_memOk, = except_bind, ChkOk]

theorem landCount_memOk {s : State} (h : s.MemOk) (core n : Nat) (wit : Word) :
    (landCount s core n wit).MemOk := by
  grind [landCount, State.ownerEvent_memOk, counterApply_memOk, updLanding_memOk, checkCounter_memOk, ChkOk]

theorem landRecord_memOk {s : State} (h : s.MemOk) (core n : Nat) (status : Nat) (wit : Word) :
    (landRecord s core n status wit).MemOk := by
  grind [landRecord, updLanding_memOk, landCount_memOk]

theorem execLndset_memOk {s : State} (h : s.MemOk) (a b c : XReg) : OutOk (execLndset a b c s) := by
  have needed (t : State) (hs : List Nat) : ActOk (fun _ => True) (hs.forM fun h => do
      let _ ← needBuf t h (handleAddr h)
      .ok ()) := ActOk.forM (fun i => (needBuf_memOk ..).check fun _ => .ok trivial) hs
  have sets {t : State} (ht : t.MemOk) (core : Nat) (hs : List Nat) (f : Buf → Buf) (g : CoreSt → CoreSt) :
      ((hs.foldl (fun s h => updBuf s s.clusterNo h f) t).updCore core g).advance.MemOk :=
    State.advance_memOk (State.updCore_memOk (foldl_memOk ht _ fun _ _ hu => updBuf_memOk hu ..) ..)
  refine finish_memOk h <| (immBelow_memOk ..).check fun n => (require_memOk ..).check fun _ => ?_
  split
  · exact .error trivial
  · dsimp only
    split
    · exact (ActOk.ok (P := State.MemOk) h).bind fun t ht => (needed t _).check fun _ => .ok (sets ht ..)
    · exact (Chk.act_memOk (checkCounter_memOk h ..)).bind fun _ hr =>
        (ActOk.ok (P := State.MemOk) (State.sealLeaf_memOk hr ..)).bind fun t ht => (needed t _).check fun _ => .ok (sets ht ..)

theorem needLanding_memOk (s : State) (r : XReg) :
    ActOk (fun _ => True) (needLanding s r) := by
  unfold needLanding
  simp only [except_bind]
  grind [immBelow_memOk, ActOk, Stop.MemOk, illegal, trapNow]

theorem landAnswer_memOk {s : State} (h : s.MemOk) (a c : XReg) (o : Landing) (handle : Nat) (f : Landing → Landing) :
    (landAnswer s a c o handle f).MemOk := h

theorem execLndwait_memOk {s : State} (h : s.MemOk) (a b c : XReg) :
    OutOk (execLndwait a b c s) := by
  grind [execLndwait, finish_memOk, updBuf_memOk, needLanding_memOk, landAnswer_memOk, = except_bind, ActOk, Stop.MemOk, illegal]

theorem doLndrel_memOk {s : State} (h : s.MemOk) (a b : XReg) :
    ActOk State.MemOk (doLndrel a b s) := by
  unfold doLndrel
  simp only [except_bind]
  grind [State.advance_memOk, State.updCore_memOk, require_memOk, updBuf_memOk, needBuf_memOk, updLanding_memOk,
    needLanding_memOk, ActOk, Stop.MemOk, foldl_memOk]

theorem execLndrelBuffer_memOk {s : State} (h : s.MemOk) (a b : XReg) :
    OutOk (execLndrelBuffer a b s) := by
  grind [execLndrelBuffer, finish_memOk, doLndrel_memOk]

theorem execLndrelDismantle_memOk {s : State} (h : s.MemOk) (a b : XReg) :
    OutOk (execLndrelDismantle a b s) := by
  grind [execLndrelDismantle, finish_memOk, doLndrel_memOk]

theorem copyIssue_memOk {s : State} (h : s.MemOk) (reduce multi : Bool) (a b c : XReg) (sc : Option Scope) (na : Bool) :
    ActOk State.MemOk (copyIssue reduce multi a b c sc na s) := by
  refine (endpointOf_memOk ..).check fun dst => (endpointOf_memOk ..).check fun src => (require_memOk ..).check fun _ =>
    (require_memOk ..).check fun _ => (require_memOk ..).check fun _ => (checkWitness_memOk _).check fun _ =>
    ActOk.guard (.error trivial) fun _ => ActOk.guard (.error trivial) fun _ => ActOk.guard (.error trivial) fun _ =>
    (ActOk.mapM (fun e => (needBuf_memOk ..).map fun _ _ => trivial) _).check fun bufs =>
    (ActOk.forM (fun q => ?_) _).check fun _ => (ActOk.forM (fun e => ActOk.forM (fun cl => ?_) _) _).check fun _ =>
    ActOk.guard (.error trivial) fun _ => ActOk.either (Q := State.MemOk) (exposeAct_memOk h) (.ok h) fun t ht =>
    .ok (State.advance_memOk (State.countEv_memOk (State.onCx_memOk (State.updCluster_memOk (State.onNet_memOk
      (foldl_memOk ht _ fun _ _ hu => updBuf_memOk hu ..) _) ..) _) ..))
  · split
    · exact .ok trivial
    · exact .error trivial
  · split
    · split
      · exact .ok trivial
      · exact .error trivial
    · exact .ok trivial

theorem execCpy_memOk {s : State} (h : s.MemOk) (a b c : XReg) (sc : Option Scope) (na : Bool) :
    OutOk (execCpy a b c sc na s) := by
  grind [execCpy, finish_memOk, copyIssue_memOk]

theorem execCpym_memOk {s : State} (h : s.MemOk) (a b c : XReg) (sc : Option Scope) (na : Bool) :
    OutOk (execCpym a b c sc na s) := by
  grind [execCpym, finish_memOk, copyIssue_memOk]

theorem execCpyr_memOk {s : State} (h : s.MemOk) (a b c : XReg) (sc : Option Scope) (na : Bool) :
    OutOk (execCpyr a b c sc na s) := by
  grind [execCpyr, finish_memOk, copyIssue_memOk]

theorem engineWriteCheck_memOk {s : State} (h : s.MemOk) (c : CtxId) (w : Who) (va : Word) :
    ChkOk (·.2.MemOk) (engineWriteCheck s c w va) := by
  grind [engineWriteCheck, check_memOk, = except_bind, ChkOk]

theorem engineCheckRow_memOk {s : State} (h : s.MemOk) (q : CopyOp) (write : Bool) (end_ fuel va : Nat) (ps : List CopyPage) :
    ChkOk (·.2.MemOk) (engineCheckRow s q write end_ fuel va ps) := by
  induction fuel generalizing s va ps with
  | zero => exact .ok h
  | succ fuel ih => grind [engineCheckRow, engineWriteCheck_memOk, check_memOk, = except_bind, ChkOk]

theorem engineCheck_memOk {s : State} (h : s.MemOk) (q : CopyOp) (e : Endpoint) (write : Bool) (ps : List CopyPage) :
    ChkOk (·.2.MemOk) (engineCheck s q e write ps) := by
  unfold engineCheck
  split
  · exact .ok h
  · exact ChkOk.foldlM (P := fun r : List CopyPage × State => r.2.MemOk) h _ fun _ _ hr => engineCheckRow_memOk hr ..

theorem engineLine_memOk {s : State} (h : s.MemOk) (q : CopyOp) (va : Word) (n : Nat) :
    ActOk (·.2.MemOk) (engineLine s q va n) := by
  have sealed {r : List Byte × State} (hr : r.2.MemOk) (w : Who) (e : Word) (pa : Nat) :
    ActOk (·.2.MemOk) (.ok (r.1, r.2.sealFrame w e pa)) := .ok (State.sealFrame_memOk hr ..)
  unfold engineLine
  dsimp only
  split
  · exact .error trivial
  · refine ActOk.check (.ok trivial) fun _ => ?_
    split
    · split
      · exact .error trivial
      · next heq => exact sealed (r := (_, _)) ((nearGet_memOk h ..).of_eq heq) ..
    · split
      · refine (ActOk.foldlM (P := fun r : List Byte × State => r.2.MemOk) h _ fun b i hb => ?_).bind fun r hr =>
          (ActOk.ok (P := (·.2.MemOk)) hr).bind fun _ hu => sealed hu ..
        exact (readBytes_memOk hb ..).bind fun _ hr => .ok hr
      · exact (readBytes_memOk h ..).bind fun r hr => sealed hr ..

theorem copyRead_memOk {s : State} (h : s.MemOk) (q : CopyOp) (e : Endpoint) (r off n : Nat) :
    ActOk (·.2.MemOk) (copyRead s q e r off n) := by
  unfold copyRead
  grind [engineLine_memOk, ActOk, Stop.MemOk, trapAt]

theorem updCopy_memOk {s : State} (h : s.MemOk) (cluster tag : Nat) (f : CopyOp → CopyOp) :
    (updCopy s cluster tag f).MemOk := h

theorem engineWrite_memOk {s : State} (h : s.MemOk) (q : CopyOp) (va : Word) (bs : List Byte) :
    ActOk State.MemOk (engineWrite s q va bs) := by
  grind [engineWrite, State.onNet_memOk, State.dropCopy_memOk, State.putCopy_memOk, capturePage_memOk, State.heldAlone_memOk,
    writeBack_memOk, nearGet_memOk, State.sealLeaf_memOk, updCopy_memOk, ActOk, OptOk, Stop.MemOk, foldl_memOk, trapAt]

theorem peerReader_memOk {s : State} (h : s.MemOk) (q : CopyOp) (on : Bool) :
    (peerReader s q on).MemOk := by
  grind [peerReader, updBuf_memOk, freeBuf_memOk]

theorem copySent_memOk {s : State} (h : s.MemOk) (cluster : Nat) (q : CopyOp) :
    (copySent s cluster q).MemOk := by
  grind [copySent, updCopy_memOk, peerReader_memOk]

theorem copyMove_memOk {s : State} (h : s.MemOk) (cluster : Nat) (q : CopyOp) : ActOk State.MemOk (copyMove s cluster q) := by
  have writes {t : State} (ht : t.MemOk) (va bs) (f : Buf → Buf) (g : CopyOp → CopyOp) (n : Nat) : ActOk State.MemOk (
      match q.dst.kind with
      | 0 => engineWrite t q va bs >>= fun s => .ok (updCopy s cluster q.tag fun q => q.moved n)
      | 1 => .ok (updBuf t cluster (spHandle q.dAddr) f) >>= fun s => .ok (updCopy s cluster q.tag fun q => q.moved n)
      | _ => .ok (updCopy t cluster q.tag g) >>= fun s => .ok (updCopy s cluster q.tag fun q => q.moved n)) := by
    split
    · exact (engineWrite_memOk ht ..).bind fun _ hu => .ok (updCopy_memOk hu ..)
    · exact .ok (updCopy_memOk (updBuf_memOk ht ..) ..)
    · exact .ok (updCopy_memOk (updCopy_memOk ht ..) ..)
  refine (copyRead_memOk h ..).bind fun r hr => ?_
  dsimp only
  have read {t : State} (ht : t.MemOk) (bs : List Byte) : ActOk (·.2.MemOk) (.ok (bs, t) : Act (List Byte × State)) := .ok ht
  split
  · exact (copyRead_memOk hr ..).bind fun _ hu => (read hu _).bind fun _ hv => writes hv ..
  · exact (read hr _).bind fun _ hv => writes hv ..

theorem copySend_memOk {s : State} (h : s.MemOk) (cluster : Nat) (q : CopyOp) :
    (copySend s cluster q).MemOk := by
  grind [copySend, State.onNet_memOk]

theorem copyWork_memOk {s : State} (h : s.MemOk) (cluster : Nat) (q : CopyOp) : OptOk State.MemOk (copyWork s cluster q) := by
  have checked : ChkOk (·.2.MemOk) ((engineCheck s q q.src false []).bind fun a => engineCheck a.2 q q.dst true a.1) :=
    (engineCheck_memOk h ..).bind fun _ hr => engineCheck_memOk hr ..
  have moved := copyMove_memOk h cluster q
  have upd {t : State} (ht : t.MemOk) (f) := updCopy_memOk ht cluster q.tag f
  unfold copyWork
  split
  · exact .intro (copySent_memOk h ..)
  · split
    · split
      · exact .intro (upd h _)
      · next heq => exact .intro (upd (checked.of_eq heq) _)
    · split
      · exact .intro (copySent_memOk (copySend_memOk h ..) ..)
      · split
        · next heq => exact .intro (moved.of_eq heq)
        · exact .intro (upd h _)
        · exact .nothing

theorem copyStart_memOk {s : State} (h : s.MemOk) (cluster : Nat) :
    (copyStart s cluster).MemOk := by
  grind [copyStart, State.updCluster_memOk, arbitrate_memOk, updCopy_memOk, peerReader_memOk]

theorem copyComplete_memOk {s : State} (h : s.MemOk) (cluster : Nat) (q : CopyOp) :
    (copyComplete s cluster q).MemOk := by
  grind [copyComplete, State.updCtx_memOk, State.updCluster_memOk, State.onNet_memOk, State.engineFault_memOk, deliverPriv_memOk,
    updBuf_memOk, landRecord_memOk, foldl_memOk]

theorem collectCopies_memOk {s : State} (h : s.MemOk) :
    (collectCopies s).MemOk := by
  grind [collectCopies, State.onCx_memOk, State.onNet_memOk]

theorem deliver_memOk {s : State} (h : s.MemOk) (i : Nat) :
    (deliver s i).MemOk := by
  grind [deliver, State.onNet_memOk, updBuf_memOk, updLanding_memOk, landCount_memOk, updCopy_memOk]

/-! ### Streams (`Machine/Streams`) -/

theorem streamVec_memOk {s : State} (h : s.MemOk) (b : Stream) (pos : Nat) :
    ActOk (·.2.MemOk) (streamVec s b pos) := by
  grind [streamVec, loadBytes_memOk, needBuf_memOk, spRead_memOk, = except_bind, = except_map, ActOk]

theorem updStream_memOk {s : State} (h : s.MemOk) (r : VReg) (f : Stream → Stream) :
    (updStream s r f).MemOk := h

theorem streamAhead_memOk {s : State} (h : s.MemOk) (r : VReg) :
    (streamAhead s r).MemOk := by
  grind [streamAhead, streamVec_memOk, updStream_memOk, ActOk]

theorem takeStream_memOk {s : State} (h : s.MemOk) (r : VReg) :
    ActOk State.MemOk (takeStream s r) := by
  grind [takeStream, State.setV_memOk, streamVec_memOk, updStream_memOk, streamAhead_memOk, = except_bind, ActOk]

theorem execSbind_memOk {s : State} (h : s.MemOk) (a : VReg) (b c : XReg) (na : Bool) :
    OutOk (execSbind a b c na s) := by
  unfold execSbind
  simp only [except_bind]
  grind [State.advance_memOk, State.onCx_memOk, require_memOk, finish_memOk, endpointOf_memOk, streamAhead_memOk, ActOk,
    Stop.MemOk, trapAt]

theorem execSunbind_memOk {s : State} (h : s.MemOk) (a : VReg) :
    OutOk (execSunbind a s) := by
  grind [execSunbind, State.advance_memOk, State.onCx_memOk, OutOk]

/-! ### Arms, counters, levels and barriers (`Machine/Sync`) -/

theorem deliveredMax_memOk {s : State} (h : s.MemOk) (sc : Scope) :
    ActOk (·.2.MemOk) (deliveredMax s sc) := by
  grind [deliveredMax, State.stampLeft_memOk, deliverPriv_memOk, ActOk, Stop.MemOk]

theorem checkTrigger_memOk {s : State} (h : s.MemOk) (w : Who) (va : Word) :
    ChkOk State.MemOk (checkTrigger s w va) := by
  grind [checkTrigger, checkCounter_memOk, ChkOk]

theorem Stop.held_memOk {e : Stop} (h : e.MemOk) : e.held.MemOk := by
  unfold Stop.held
  split
  · next t => cases t <;> exact h
  · exact h

theorem readRecord_memOk {s : State} (h : s.MemOk) (va : Word) (c : Option Word) (arm : Bool) :
    ActOk (·.2.MemOk) (readRecord s va c arm) := by
  refine (checkWitness_memOk _).check fun _ => ActOk.guard (.error trivial) fun _ =>
    ((loadWords_memOk h ..).mapError fun _ he => Stop.held_memOk he).bind fun r hr => (require_memOk ..).check fun _ =>
    ActOk.guard (require_memOk ..) fun _ => ActOk.guard (.error trivial) fun _ => ActOk.guard (.error trivial) fun _ => ?_
  split
  · exact (Chk.act_memOk (checkTrigger_memOk hr ..)).bind fun _ ht => .ok ht
  · exact .ok hr

/-- A request is staged, or made at once. -/
theorem stageRequest_memOk {s : State} (h : s.MemOk) (a : XReg) (e : Staged) {direct : State → Act State}
    (hd : ∀ t, t.MemOk → ActOk State.MemOk (direct t)) : ActOk State.MemOk (stageRequest s a e direct) := by
  unfold stageRequest
  split
  · refine (stagePut_memOk h _).bind fun o ho => ?_
    split
    · exact .ok (putX_memOk (ho.of_eq rfl) ..)
    · exact (exposeAct_memOk h).bind hd
  · exact hd s h

theorem execSpawn_memOk {s : State} (h : s.MemOk) (a b c : XReg) : OutOk (execSpawn a b c s) := by
  have spawns {t : State} (ht : t.MemOk) (va : Word) : ActOk State.MemOk (do
      let (r, s) ← readRecord t va (some (t.getX c)) false
      stageRequest s a (.spawn r va s.cx.pc) fun s => do
        let (wit, s) ← deliveredMax s (s.scope none)
        let (n, s) ← (spawnRecord s s.cur r va wit).act
        .ok (putX s a (BitVec.ofNat 64 n))) :=
    (readRecord_memOk ht ..).bind fun _ hu => stageRequest_memOk hu _ _ fun _ hv =>
      (deliveredMax_memOk hv _).bind fun _ hw => (Chk.act_memOk (spawnRecord_memOk hw ..)).bind fun _ hx => .ok (putX_memOk hx ..)
  refine finish_memOk h ?_
  dsimp only
  split
  · exact spawns h _
  · exact ((deliveredMax_memOk h _).map fun _ ht => ht).bind fun _ ht => spawns ht _

theorem execArm_memOk {s : State} (h : s.MemOk) (a b c : XReg) : OutOk (execArm a b c s) :=
  finish_memOk h <| (readRecord_memOk h ..).bind fun _ ht => stageRequest_memOk ht _ _ fun _ hu =>
    (Chk.act_memOk (armRecord_memOk hu ..)).bind fun _ hv => .ok (putX_memOk hv ..)

theorem execDisarm_memOk {s : State} (h : s.MemOk) (a b : XReg) : OutOk (execDisarm a b s) := by
  refine finish_memOk h <| (Chk.act_memOk (checkCounter_memOk h ..)).bind fun r hr => ?_
  dsimp only
  split
  · exact .error trivial
  · exact stageRequest_memOk (State.sealLeaf_memOk hr ..) _ _ fun _ ht => .ok (putX_memOk (disarmCounter_memOk ht ..) ..)

theorem execCntadd_memOk {s : State} (h : s.MemOk) (a b : XReg) (sc : Option Scope) : OutOk (execCntadd a b sc s) := by
  refine finish_memOk h <| (Chk.act_memOk (checkCounter_memOk h ..)).bind fun r hr => ?_
  have ht := State.sealLeaf_memOk hr r.2.who r.1
  have direct {u : State} (hu : u.MemOk) (k sc w) : (u.launch k (s.getX b) r.1 sc w true).advance.MemOk :=
    State.advance_memOk (State.launch_memOk hu ..)
  dsimp only
  split
  · refine (stagePut_memOk ht _).bind fun o ho => ?_
    split
    · exact .ok (State.advance_memOk (ho.of_eq rfl))
    · exact (exposeAct_memOk ht).bind fun u hu => .ok (direct hu ..)
  · exact .ok (direct ht ..)

theorem execCntrd_memOk {s : State} (h : s.MemOk) (a b c : XReg) : OutOk (execCntrd a b c s) := by
  refine finish_memOk h <| (State.check_memOk h ..).bind fun r hr => (Chk.act_passes _).check fun _ => ?_
  have hs := reachHome_memOk (State.sealFrame_memOk hr r.2.who r.1.entry r.1.pa)
  grind [State.heard_memOk, State.setX_memOk, State.advance_memOk, trapAt, = except_bind, ActOk, Stop.MemOk]

theorem levelIdx_memOk (s : State) (r : XReg) :
    ActOk (fun _ => True) (levelIdx s r) := by
  grind [levelIdx, immBelow_memOk]

theorem execLvopen_memOk {s : State} (h : s.MemOk) (a b c : XReg) (imm : Word) : OutOk (execLvopen a b c imm s) := by
  have answer {t : State} (ht : t.MemOk) (n : Nat) : ActOk State.MemOk (.ok (putX t a (BitVec.ofNat 64 n))) := .ok (putX_memOk ht ..)
  have opened {t : State} (ht : t.MemOk) (l f n) : (putX ((levelPut t t.cur l).onCx f) a n).MemOk :=
    putX_memOk (State.onCx_memOk (levelPut_memOk ht ..) _) ..
  refine finish_memOk h <| (immBelow_memOk ..).check fun _ => (levelIdx_memOk ..).check fun _ => (levelIdx_memOk ..).check fun _ =>
    (require_memOk ..).check fun _ => (Chk.act_memOk (levelGet_memOk h ..)).bind fun r hr => ?_
  dsimp only
  split
  · exact answer hr _
  · split
    · split
      · exact answer hr _
      · exact .ok (opened hr ..)
    · refine (Chk.act_memOk (levelGet_memOk hr ..)).bind fun p hp => ?_
      split
      · exact answer hp _
      · split
        · exact answer hp _
        · refine (Chk.act_memOk (levelAdd_memOk hp ..)).bind fun u hu => ?_
          split
          · exact .ok (opened hu ..)
          · exact answer hu _

theorem execLvwait_memOk {s : State} (h : s.MemOk) (a b c : XReg) : OutOk (execLvwait a b c s) := by
  have waits {t : State} (ht : t.MemOk) (i : Nat) : ActOk State.MemOk (do
      let (l, s) ← (levelGet t t.cur t.oid i).act
      if l.isOpen then .error (.wait (.level i) (some s))
      else
        let st := (if l.lostf then 2 else 0) + (if l.cancelled then 1 else 0)
        .ok ((s.setX a l.wit).setX c (BitVec.ofNat 64 st)).advance) := by
    refine (Chk.act_memOk (levelGet_memOk ht ..)).bind fun r hr => ?_
    dsimp only
    split
    · exact .error (e := .wait _ (some r.2)) hr
    · exact .ok (State.advance_memOk (State.setX_memOk (State.setX_memOk hr ..) ..))
  refine finish_memOk h <| (levelIdx_memOk ..).check fun i => ?_
  dsimp only
  split
  · exact ((Chk.act_memOk (levelDec_memOk h ..)).bind fun _ ht => .ok (State.onCx_memOk ht _)).bind fun _ hu => waits hu i
  · exact waits h i

theorem execLvstat_memOk {s : State} (h : s.MemOk) (a b c : XReg) : OutOk (execLvstat a b c s) := by
  have shows (i : Nat) : ActOk State.MemOk (do
      let (l, s) ← (levelGet s s.cur s.oid i).act
      .ok ((s.setX a l.shown).setX c l.wit).advance) :=
    (Chk.act_memOk (levelGet_memOk h ..)).bind fun _ hr => .ok (State.advance_memOk (State.setX_memOk (State.setX_memOk hr ..) ..))
  refine finish_memOk h ?_
  split
  · exact shows _
  · exact (levelIdx_memOk ..).check fun i => shows i

theorem announce_memOk {s : State} (h : s.MemOk) (a : XReg) (kind : AnnKind) : ActOk State.MemOk (announce s a kind) := by
  unfold announce
  split
  · exact .ok (putX_memOk h ..)
  · exact (exposeAct_memOk h).bind fun _ ht => (deliveredMax_memOk ht _).bind fun _ hu =>
      .error (recordEvent_memOk (State.updCore_memOk (State.onNet_memOk hu _) _ _) _ _)

theorem execLvcancel_memOk {s : State} (h : s.MemOk) (b : XReg) :
    OutOk (execLvcancel b s) := by
  grind [execLvcancel, finish_memOk, levelIdx_memOk, announce_memOk, = except_bind, ActOk]

theorem execSca_memOk {s : State} (h : s.MemOk) (a b : XReg) (imm : Word) :
    OutOk (execSca a b imm s) := by
  grind [execSca, finish_memOk, immBelow_memOk, announce_memOk, = except_bind, ActOk]

theorem setBarrier_memOk {s : State} (h : s.MemOk) (die n : Nat) (b : Barrier) :
    (setBarrier s die n b).MemOk := h

theorem needBarrier_memOk (s : State) (n : Nat) :
    ActOk (fun _ => True) (needBarrier s n) := by
  grind [needBarrier, ActOk, Stop.MemOk, trapNow]

theorem State.decide_memOk {s : State} (h : s.MemOk) (c : CtxId) (v : Word × Word) :
    (State.decide s c v).MemOk := by
  grind [State.decide, State.updCtx_memOk]

theorem timeOutWaiters_memOk {s : State} (h : s.MemOk) (die n : Nat) :
    (timeOutWaiters s die n).MemOk := by
  grind [timeOutWaiters, State.decide_memOk, foldl_memOk]

theorem execBarcfg_memOk {s : State} (h : s.MemOk) (a b c : XReg) : OutOk (execBarcfg a b c s) := by
  have timedOut {t : State} (ht : t.MemOk) (p : Bool) (die n) : (if p then timeOutWaiters t die n else t).MemOk := by
    split
    · exact timeOutWaiters_memOk ht ..
    · exact ht
  have configured {t : State} (ht : t.MemOk) (p : Prop) [Decidable p] (die d n k w v) : ActOk State.MemOk
      (if p then .ok (putX (t.updDie die d) a w) else .ok (putX (setBarrier t die n k) a v)) :=
    .ite (.ok (putX_memOk (State.updDie_memOk ht ..) ..)) (.ok (putX_memOk (setBarrier_memOk ht ..) ..))
  refine finish_memOk h <| (immBelow_memOk ..).check fun n => ActOk.guard (.trap ..) fun _ =>
    (loadWords_memOk h ..).bind fun r hr => (require_memOk ..).check fun _ => ?_
  dsimp only
  split
  · exact .guard (.trap ..) fun _ => configured (timedOut hr ..) ..
  · exact (ActOk.ok trivial).check fun _ => configured (timedOut hr ..) ..

theorem execBara_memOk {s : State} (h : s.MemOk) (imm : Word) :
    OutOk (execBara imm s) := by
  unfold execBara
  simp only [except_bind]
  grind [State.advance_memOk, finish_memOk, immBelow_memOk, setBarrier_memOk, needBarrier_memOk, ActOk, Stop.MemOk, trapNow]

theorem execBarw_memOk {s : State} (h : s.MemOk) (a : XReg) (imm : Word) :
    OutOk (execBarw a imm s) := by
  unfold execBarw
  simp only [except_bind]
  grind [finish_memOk, putX_memOk, immBelow_memOk, setBarrier_memOk, needBarrier_memOk, ActOk, Stop.MemOk]

theorem execHspawn_memOk {s : State} (h : s.MemOk) (a b : XReg) :
    OutOk (execHspawn a b s) := by
  grind [execHspawn, State.setCtx_memOk, State.updCore_memOk, finish_memOk, putX_memOk, ActOk, Stop.MemOk, trapAt]

theorem execHstop_memOk {s : State} (h : s.MemOk) :
    OutOk (execHstop s) := by
  grind [execHstop, State.advance_memOk, stopHelperOf_memOk, OutOk]

theorem execExpose_memOk {s : State} (h : s.MemOk) :
    OutOk (execExpose s) := by
  grind [execExpose, State.advance_memOk, exposeAct_memOk, finish_memOk, = except_bind, ActOk]

theorem execSelf_memOk {s : State} (h : s.MemOk) (a : XReg) (imm : Word) :
    OutOk (execSelf a imm s) := by
  grind [execSelf, finish_memOk, putX_memOk, immBelow_memOk, = except_bind, ActOk]

theorem execNrd_memOk {s : State} (h : s.MemOk) (a c : XReg) (imm : Word) :
    OutOk (execNrd a c imm s) := by
  grind [execNrd, State.setX_memOk, State.advance_memOk, finish_memOk, immBelow_memOk, = except_bind, ActOk]

theorem execNwait_memOk {s : State} (h : s.MemOk) (a b c : XReg) (imm : Word) :
    OutOk (execNwait a b c imm s) := by
  grind [execNwait, State.setX_memOk, State.advance_memOk, finish_memOk, immBelow_memOk, = except_bind, ActOk, Stop.MemOk]

theorem freeMonitor_memOk {s : State} (h : s.MemOk) :
    (freeMonitor s).MemOk := h

theorem execWaita_memOk {s : State} (h : s.MemOk) (a b c : XReg) :
    OutOk (execWaita a b c s) := by
  unfold execWaita
  simp only [except_bind]
  grind [State.updCore_memOk, State.check_memOk, loadNat_memOk, finish_memOk, putX_memOk, freeMonitor_memOk, ActOk, Stop.MemOk,
    trapAt]

/-! ### Firings, helpers and deques (`Machine/Firing`) -/

theorem slotImage_memOk {s : State} (h : s.MemOk) (c : CtxId) (oid slot : Nat) :
    ChkOk (·.2.MemOk) (slotImage s c oid slot) := by
  grind [slotImage, slotBytes_memOk, ChkOk]

theorem suspendOwner_memOk {s : State} (h : s.MemOk) (oid : Nat) :
    (suspendOwner s oid).MemOk := by
  grind [suspendOwner, State.updCtx_memOk, State.updOwner_memOk, foldl_memOk]

theorem stopOwner_memOk {s : State} (h : s.MemOk) (oid : Nat) :
    (stopOwner s oid).MemOk := by
  grind [stopOwner, State.updOwner_memOk, writeHome_memOk, suspendOwner_memOk]

theorem keepCopies_memOk {s : State} (h : s.MemOk) (c : CtxId) :
    (keepCopies s c).MemOk := h

theorem preemptCtx_memOk {s : State} (h : s.MemOk) (c : CtxId) (named : Option Nat) (suspd : Bool) :
    (preemptCtx s c named suspd).2.MemOk := by
  grind [preemptCtx, State.setCtx_memOk, deliverPriv_memOk, State.trace_memOk, State.firingEvent_memOk, pushOrPend_memOk,
    setSlotState_memOk, saveImage_memOk, freeCtx_memOk, releaseHolds_memOk, loseFiring_memOk, stopOwner_memOk, keepCopies_memOk]

theorem startFiring_memOk {s : State} (h : s.MemOk) (c : CtxId) (e : DequeEntry) :
    (startFiring s c e).MemOk := by
  grind [startFiring, State.setCtx_memOk, State.updCore_memOk, State.trace_memOk, passEvents_memOk]

theorem resumeSlot_memOk {s : State} (h : s.MemOk) (c : CtxId) (oid n : Nat) :
    OptOk State.MemOk (resumeSlot s c oid n) := by
  grind [resumeSlot, setSlotState_memOk, restoreCtx_memOk, slotImage_memOk, ChkOk, OptOk]

theorem beginEntry_memOk {s : State} (h : s.MemOk) (c : CtxId) (oid : Nat) (e : DequeEntry) :
    (beginEntry s c oid e).MemOk := by
  grind [beginEntry, State.setCtx_memOk, levelDrop_memOk, launchCancelled_memOk, startFiring_memOk, resumeSlot_memOk, OptOk]

theorem dispatch_memOk {s : State} (h : s.MemOk) (c : CtxId) :
    (dispatch s c).MemOk := by
  grind [dispatch, readSpilled_memOk, dequeTake_memOk, beginEntry_memOk]

theorem stealAsk_memOk {s : State} (h : s.MemOk) (core : Nat) :
    (stealAsk s core).MemOk := by
  grind [stealAsk, State.updCore_memOk, State.onNet_memOk, State.countEv_memOk, State.draw_memOk]

theorem stealAnswer_memOk {s : State} (h : s.MemOk) (i : Nat) :
    (stealAnswer s i).MemOk := by
  unfold stealAnswer
  grind [State.updCore_memOk, State.onNet_memOk, readSpilled_memOk, dequeTake_memOk, pushOrPend_memOk, beginEntry_memOk]

theorem retryPush_memOk {s : State} (h : s.MemOk) (core : Nat) : OptOk State.MemOk (retryPush s core) := by
  refine OptOk.findSome? (fun i => ?_) _
  dsimp only
  split
  · exact .nothing
  · next p _ =>
    have hl (oid l) := launchCancelled_memOk h ⟨core, 3⟩ oid l
    refine OptOk.map (Q := State.MemOk) ?_ fun t ht => ?_
    · grind [levelDrop_memOk, pushDeque_memOk, OptOk]
    · split
      · exact freeTrig_memOk (State.updCore_memOk ht ..) ..
      · exact State.updCore_memOk ht ..

theorem redispatch_memOk {s : State} (h : s.MemOk) (i : Nat) :
    (redispatch s i).MemOk := by
  grind [redispatch, State.onNet_memOk, State.draw_memOk, pushOrPend_memOk]

theorem judgeReplay_memOk {s : State} (h : s.MemOk) :
    (judgeReplay s).MemOk := by
  grind [judgeReplay, State.updOwner_memOk, State.ownerEvent_memOk, useEntry_memOk, stopOwner_memOk]

theorem endFiring_memOk {s : State} (h : s.MemOk) :
    (endFiring s).MemOk := by
  grind [endFiring, State.updOwner_memOk, State.trace_memOk, logAppend_memOk, freeCtx_memOk, judgeReplay_memOk]

theorem endRelease_memOk {s : State} (h : s.MemOk) :
    (endRelease s).MemOk := by
  grind [endRelease, State.onCx_memOk, stopHelperOf_memOk, releaseLane_memOk, leaveGang_memOk, releaseHolds_memOk]

theorem execEndf_memOk {s : State} (h : s.MemOk) : OutOk (execEndf s) := by
  have priv (c : CtxId) := deliverPriv_memOk h c .device
  have launched (c : CtxId) (oid launch : Nat) : (if (deliverPriv s c .device).cx.staged then
      launchCancelled (deliverPriv s c .device) c oid launch else (false, deliverPriv s c .device)).2.MemOk := by
    split
    · exact launchCancelled_memOk (priv c) ..
    · exact priv c
  refine finish_memOk h <| ActOk.guard (.error trivial) fun _ => ActOk.guard (.error (priv s.cur)) fun _ =>
    ActOk.either (Q := State.MemOk) (.ok (State.onCx_memOk (launched ..) _)) (exposeAct_memOk (launched ..)) fun t ht =>
    ActOk.guard (.error (endRelease_memOk ht)) fun _ =>
    (Chk.act_memOk (levelDec_memOk (State.stampLeft_memOk (deliverPriv_memOk (endRelease_memOk ht) ..) ..) ..)).bind fun _ hu =>
    .ok (endFiring_memOk hu)

theorem execYieldf_memOk {s : State} (h : s.MemOk) :
    OutOk (execYieldf s) := by
  grind [execYieldf, State.setPc_memOk, State.advance_memOk, pushOrPend_memOk, finish_memOk, pass_memOk, preemptCtx_memOk,
    dispatch_memOk, ActOk, Stop.MemOk]

/-! ### System instructions (`Machine/System`) -/

theorem crPriv_memOk (s : State) (n : Nat) :
    ActOk (fun _ => True) (crPriv s n) := by
  grind [crPriv, require_memOk, needS_memOk, needS0_memOk, = except_bind]

theorem execCrd_memOk {s : State} (h : s.MemOk) (a : XReg) (imm : Word) :
    OutOk (execCrd a imm s) := by
  grind [execCrd, finish_memOk, putX_memOk, crPriv_memOk, = except_bind, ActOk, Stop.MemOk, illegal]

theorem crStamped_memOk {s : State} (h : s.MemOk) (n : Nat) :
    (crStamped s n).MemOk := h

theorem crStore_memOk {s : State} (h : s.MemOk) (n : Nat) (w : Word) :
    OptOk State.MemOk (crStore s n w) := by
  unfold crStore
  grind [State.onCx_memOk, State.updDie_memOk, State.updOwner_memOk, State.onDev_memOk, OptOk]

theorem crWritePriv_memOk {s : State} (h : s.MemOk) (n : Nat) (w : Word) : OptOk State.MemOk (crWritePriv s n w) := by
  unfold crWritePriv
  split
  · exact crStore_memOk h ..
  · refine (crStore_memOk h ..).map fun t ht => ?_
    split
    · exact h
    · exact crStamped_memOk ht _

theorem execCwr_memOk {s : State} (h : s.MemOk) (a : XReg) (imm : Word) :
    OutOk (execCwr a imm s) := by
  grind [execCwr, State.advance_memOk, State.onCx_memOk, finish_memOk, crPriv_memOk, crWritePriv_memOk, = except_bind, ActOk,
    OptOk, Stop.MemOk, illegal]

theorem writeBackOwner_memOk {s : State} (h : s.MemOk) (oid : Nat) :
    (writeBackOwner s oid).MemOk := by
  grind [writeBackOwner, writeBack_memOk, foldLine_memOk, foldl_memOk]

theorem dropOwner_memOk {s : State} (h : s.MemOk) (oid : Nat) :
    (dropOwner s oid).MemOk := h

/-- The bytes of the owner's pages are put down again, each at its new place, in a memory that lists nothing (R327). -/
theorem installSeed_memOk (s : State) (oid : Nat) (seed : BitVec 128) : (installSeed s oid seed).MemOk :=
  foldl_wf (fun _ _ hm => memPut_wf _ _ hm) _ (m := []) rfl

theorem execSeedInstall_memOk {s : State} (h : s.MemOk) (a : XReg) : OutOk (execSeedInstall a s) := by
  refine finish_memOk h <| (needS_memOk s).check fun _ => ?_
  split
  · exact .error trivial
  · exact .ok (State.advance_memOk (State.onCx_memOk (installSeed_memOk ..) _))

theorem execTret_memOk {s : State} (h : s.MemOk) :
    OutOk (execTret s) := by
  grind [execTret, require_memOk, trapReturn_memOk, finish_memOk, = except_bind, ActOk, Stop.MemOk, trapNow]

theorem nameOwner_memOk (s : State) (oid : Nat) (tableOk : Bool) :
    ActOk (fun _ => True) (nameOwner s oid tableOk) := by
  grind [nameOwner, require_memOk, ActOk, Stop.MemOk, trapNow]

/-- The frames of an owner that is gone are cleared (R352). -/
theorem destroyOwner_memOk {s : State} (h : s.MemOk) (oid : Nat) (e : BitVec 512) : (destroyOwner s oid e).MemOk := by
  unfold destroyOwner
  dsimp only
  split
  · exact State.updOwner_memOk (State.onHome_memOk (s := { s with mem := _, home := _ })
      (foldl_wf (fun _ _ hm => memClear_wf _ _ hm) _ h) _) _ _
  · exact State.updOwner_memOk (State.onHome_memOk h _) _ _

theorem applyEntry_memOk {s : State} (h : s.MemOk) (oid : Nat) :
    (applyEntry s oid).MemOk := by
  grind [applyEntry, State.updCtx_memOk, State.updOwner_memOk, suspendOwner_memOk, destroyOwner_memOk, foldl_memOk]

theorem moveEmergency_memOk {s : State} (h : s.MemOk) (oid : Nat) :
    (moveEmergency s oid).MemOk := by
  grind [moveEmergency, State.updCtx_memOk, State.updOwner_memOk, slotAt_memOk, setSlotState_memOk, OptOk, foldl_memOk, State.MemOk]

theorem execTlbprobe_memOk {s : State} (h : s.MemOk) (a b c : XReg) :
    OutOk (execTlbprobe a b c s) := by
  unfold execTlbprobe
  simp only [except_bind]
  grind [require_memOk, needS_memOk, reachFor_memOk, finish_memOk, putPair_memOk, nameOwner_memOk, ActOk, foldl_memOk]

theorem invalidate_memOk {s : State} (h : s.MemOk) (n : Named) (sc : Scope) :
    (invalidate s n sc).MemOk := h

theorem State.setClass_memOk {s : State} (h : s.MemOk) (k : PageClass) (e : Option Word) :
    (State.setClass s k e).MemOk := h

/-- A page that becomes CR is cleared, and one that becomes REPL is copied to its replicas (R209). -/
theorem completeChange_memOk {s : State} (h : s.MemOk) (k : ClassChange) : (completeChange s k).MemOk := by
  have back {t : State} (ht : t.MemOk) (l : List Copy) : (l.foldl writeBack t).MemOk :=
    foldl_memOk ht l fun _ _ hu => writeBack_memOk hu _
  have cleared := State.setClass_memOk (State.onHome_memOk h fun h => { h with classChanges := h.classChanges.filter (· != k) })
    ⟨k.oid, k.level, k.vpage, k.newEntry⟩ (some k.newEntry)
  unfold completeChange
  dsimp only
  split
  · rw [State.MemOk]
    exact memClear_wf _ _ (State.onHome_memOk (back (back cleared _) _) _)
  · split
    · split
      · refine State.onHome_memOk ?_ _
        rw [State.MemOk]
        exact foldl_wf (fun _ _ hm => memCopy_wf _ _ _ hm) _ (State.onHome_memOk (back (back cleared _) _) _)
      · rw [State.MemOk]
        exact foldl_wf (fun _ _ hm => memCopy_wf _ _ _ hm) _ (State.onHome_memOk (back (back cleared _) _) _)
    · exact State.onHome_memOk (back (back cleared _) _) _

theorem beginChange_memOk {s : State} (h : s.MemOk) (k : PageClass) (old new : Word) :
    (beginChange s k old new).MemOk := by
  grind [beginChange, State.onHome_memOk, State.setClass_memOk, completeChange_memOk]

theorem settleClass_memOk {s : State} (h : s.MemOk) (k : PageClass) :
    (settleClass s k).MemOk := by
  grind [settleClass, State.onHome_memOk, State.setClass_memOk, beginChange_memOk]

theorem execTlbinv_memOk {s : State} (h : s.MemOk) (b c : XReg) (sc : Option Scope) : OutOk (execTlbinv b c sc s) := by
  have applied {t : State} (ht : t.MemOk) (l : List Nat) : (l.foldl applyEntry t).MemOk :=
    foldl_memOk ht _ fun _ _ hu => applyEntry_memOk hu ..
  have settled {t : State} (ht : t.MemOk) (n sc f) (l : List PageClass) : (l.foldl settleClass ((invalidate t n sc).onCx f)).MemOk :=
    foldl_memOk (State.onCx_memOk (invalidate_memOk ht ..) _) _ fun _ _ hu => settleClass_memOk hu ..
  have moved {t : State} (ht : t.MemOk) (oid : Nat) (p : Prop) [Decidable p] : (if p then moveEmergency t oid else t).MemOk := by
    split
    · exact moveEmergency_memOk ht _
    · exact ht
  refine finish_memOk h <| (needS_memOk s).check fun _ => (require_memOk ..).check fun _ =>
    ActOk.either (Q := fun _ => True) ?_ (nameOwner_memOk ..) fun _ _ => (require_memOk ..).check fun _ =>
    (exposeAct_memOk h).bind fun t ht => (deliveredMax_memOk ht ..).bind fun r hr => ?_
  · split
    · exact .ok trivial
    · exact .error trivial
  · dsimp only
    split
    · exact .error (e := .wait _ (some _)) hr
    · split
      · exact .ok (State.advance_memOk (settled hr ..))
      · split
        · exact .error (e := .wait _ (some _)) (moved (applied (settled hr ..) _) ..)
        · exact .ok (State.advance_memOk (moved (applied (settled hr ..) _) ..))

theorem loadMap_memOk {s : State} (h : s.MemOk) (die : Nat) (cores slices : List Nat) :
    (loadMap s die cores slices).MemOk := by
  grind [loadMap, State.updCore_memOk, State.updDie_memOk, State.onHome_memOk, State.mark_memOk, foldl_memOk]

theorem execPmapw_memOk {s : State} (h : s.MemOk) (a b : XReg) :
    OutOk (execPmapw a b s) := by
  grind [execPmapw, needS0_memOk, finish_memOk, putX_memOk, immBelow_memOk, loadMap_memOk, = except_bind, ActOk]

theorem execPmaprd_memOk {s : State} (h : s.MemOk) (a b c : XReg) :
    OutOk (execPmaprd a b c s) := by
  unfold execPmaprd
  simp only [except_bind]
  grind [needS_memOk, finish_memOk, putX_memOk, immBelow_memOk, ActOk]

theorem execTrcmark_memOk {s : State} (h : s.MemOk) (imm : Word) :
    OutOk (execTrcmark imm s) := by
  grind [execTrcmark, State.advance_memOk, State.trace_memOk, OutOk]

theorem closeTrace_memOk {s : State} (h : s.MemOk) (oid : Nat) (cut : Bool) (c : CtxId) :
    (closeTrace s oid cut c).MemOk := by
  grind [closeTrace, State.updOwner_memOk, State.trace_memOk]

theorem trcOwner_memOk (s : State) (b : XReg) :
    ActOk (fun _ => True) (trcOwner s b) := by
  unfold trcOwner
  simp only [except_bind]
  grind [require_memOk, needS_memOk, nameOwner_memOk, ActOk]

theorem readPairAt_memOk {s : State} (h : s.MemOk) (va : Word) :
    ActOk (·.2.2.MemOk) (readPairAt s va) := by
  grind [readPairAt, loadWords_memOk, = except_bind, ActOk]

theorem execTrcctlOpen_memOk {s : State} (h : s.MemOk) (a b c : XReg) : OutOk (execTrcctlOpen a b c s) := by
  refine finish_memOk h <| (trcOwner_memOk ..).check fun _ => (readPairAt_memOk h ..).bind fun r hr =>
    (require_memOk ..).check fun _ => ActOk.guard (.trap ..) fun _ => ?_
  split
  · exact .ok (putX_memOk hr ..)
  · exact .ok (putX_memOk (State.updOwner_memOk hr ..) ..)

theorem execTrcctlClose_memOk {s : State} (h : s.MemOk) (a b c : XReg) :
    OutOk (execTrcctlClose a b c s) := by
  unfold execTrcctlClose
  simp only [except_bind]
  grind [require_memOk, finish_memOk, putX_memOk, closeTrace_memOk, trcOwner_memOk, ActOk]

theorem grantParty_memOk (s : State) (c : XReg) :
    ActOk (fun _ => True) (grantParty s c) := by
  grind [grantParty, immBelow_memOk, = except_bind, ActOk]

theorem execTrcctlGrant_memOk {s : State} (h : s.MemOk) (a b c : XReg) :
    OutOk (execTrcctlGrant a b c s) := by
  unfold execTrcctlGrant
  simp only [except_bind]
  grind [State.updOwner_memOk, finish_memOk, putX_memOk, trcOwner_memOk, grantParty_memOk, ActOk, Stop.MemOk, trapNow]

theorem execTrcctlWithdraw_memOk {s : State} (h : s.MemOk) (a b c : XReg) :
    OutOk (execTrcctlWithdraw a b c s) := by
  unfold execTrcctlWithdraw
  simp only [except_bind]
  grind [State.updOwner_memOk, finish_memOk, putX_memOk, trcOwner_memOk, grantParty_memOk, ActOk, Stop.MemOk, trapNow]

theorem execTrcctlStatus_memOk {s : State} (h : s.MemOk) (a b c : XReg) :
    OutOk (execTrcctlStatus a b c s) := by
  grind [execTrcctlStatus, require_memOk, finish_memOk, putX_memOk, trcOwner_memOk, = except_bind, ActOk]

theorem execEvsel_memOk {s : State} (h : s.MemOk) (a b c : XReg) :
    OutOk (execEvsel a b c s) := by
  grind [execEvsel, State.updCore_memOk, require_memOk, finish_memOk, putX_memOk, immBelow_memOk, = except_bind, ActOk]

theorem execEvrd_memOk {s : State} (h : s.MemOk) (a b : XReg) :
    OutOk (execEvrd a b s) := by
  grind [execEvrd, finish_memOk, putX_memOk, immBelow_memOk, = except_bind, ActOk]

theorem openPass_memOk {s : State} (h : s.MemOk) (oid : Nat) (m : MPass) :
    OptOk State.MemOk (openPass s oid m) := by
  grind [openPass, State.updOwner_memOk, levelGet_memOk, levelPut_memOk, levelAdd_memOk, pushDeque_memOk, ChkOk, OptOk]

theorem startPass_memOk {s : State} (h : s.MemOk) (oid : Nat) (m : MPass) :
    (startPass s oid m).MemOk := by
  grind [startPass, State.updOwner_memOk, foldLine_memOk, openPass_memOk, OptOk, foldl_memOk]

theorem descWrite_memOk {s : State} (h : s.MemOk) (oid : Nat) (m : MPass) (off : Nat) (f : Word → Word) :
    (descWrite s oid m off f).MemOk := by
  grind [descWrite, partyWrite_memOk, homeRead_memOk, ChkOk]

theorem endRun_memOk {s : State} (h : s.MemOk) (oid : Nat) (m : MPass) :
    (endRun s oid m).MemOk := by
  grind [endRun, State.updOwner_memOk, counterApply_memOk, checkCounter_memOk, descWrite_memOk, ChkOk]

theorem restorePage_memOk {s : State} (h : s.MemOk) (c : CtxId) (oid from_ frame : Nat) : (restorePage s c oid from_ frame).MemOk :=
  foldl_memOk (.of_wf (memCopy_wf _ _ _ h)) _ fun _ _ ht => touchHome_memOk ht ..

theorem restoreCr_memOk {s : State} (h : s.MemOk) (oid : Nat) (m : MPass) :
    (restoreCr s oid m).MemOk := h

theorem endPass_memOk {s : State} (h : s.MemOk) (oid : Nat) :
    (endPass s oid).MemOk := by
  grind [endPass, check_memOk, writeBackOwner_memOk, dropOwner_memOk, startPass_memOk, descWrite_memOk, endRun_memOk,
    restorePage_memOk, restoreCr_memOk, ChkOk, foldl_memOk]

theorem execMpass_memOk {s : State} (h : s.MemOk) (a b : XReg) : OutOk (execMpass a b s) := by
  refine finish_memOk h <| (needS_memOk ..).check fun _ => ActOk.guard (.trap ..) fun _ =>
    (loadWords_memOk h ..).bind fun r hr => (require_memOk ..).check fun _ => ?_
  refine .ite (.ok (putX_memOk hr ..)) ?_
  · refine (loadWords_memOk hr ..).bind fun t ht => (require_memOk ..).check fun _ => (nameOwner_memOk ..).check fun _ => ?_
    dsimp only
    exact .ite (.ok (putX_memOk ht ..)) (.ok (putX_memOk (startPass_memOk (writeBackOwner_memOk ht ..) ..) ..))

theorem rplOwner_memOk (s : State) (b : XReg) :
    ActOk (fun _ => True) (rplOwner s b) := by
  unfold rplOwner
  simp only [except_bind]
  grind [require_memOk, needS_memOk, nameOwner_memOk, ActOk]

theorem rplStart_memOk {s : State} (h : s.MemOk) (mode : Nat) (a b c : XReg) :
    OutOk (rplStart mode a b c s) := by
  unfold rplStart
  simp only [except_bind]
  grind [State.updOwner_memOk, require_memOk, traceWrite_memOk, finish_memOk, putX_memOk, readPairAt_memOk, rplOwner_memOk, ActOk,
    ChkOk, Stop.MemOk, trapAt]

theorem execRplctlStop_memOk {s : State} (h : s.MemOk) (a b c : XReg) :
    OutOk (execRplctlStop a b c s) := by
  grind [execRplctlStop, State.updOwner_memOk, finish_memOk, putX_memOk, rplOwner_memOk, = except_bind, ActOk]

theorem execRplctlRecord_memOk {s : State} (h : s.MemOk) (a b c : XReg) :
    OutOk (execRplctlRecord a b c s) := by
  grind [execRplctlRecord, rplStart_memOk]

theorem execRplctlReplay_memOk {s : State} (h : s.MemOk) (a b c : XReg) :
    OutOk (execRplctlReplay a b c s) := by
  grind [execRplctlReplay, rplStart_memOk]

theorem execRplctlStatus_memOk {s : State} (h : s.MemOk) (a b c : XReg) :
    OutOk (execRplctlStatus a b c s) := by
  grind [execRplctlStatus, finish_memOk, putX_memOk, rplOwner_memOk, = except_bind, ActOk]

theorem namedSlot_memOk (s : State) (oid : Nat) (va : Word) :
    ActOk (fun _ => True) (namedSlot s oid va) := by
  grind [namedSlot, ActOk, Stop.MemOk, trapAt]

theorem execCtxsave_memOk {s : State} (h : s.MemOk) (a b c : XReg) : OutOk (execCtxsave a b c s) := by
  have status {t : State} (ht : t.MemOk) (v : Word) : ActOk State.MemOk (.ok (putX t a v)) := .ok (putX_memOk ht ..)
  refine finish_memOk h <| (needS_memOk ..).check fun _ => (require_memOk ..).check fun _ => (require_memOk ..).check fun _ =>
    (nameOwner_memOk ..).check fun _ => (namedSlot_memOk ..).check fun n => ?_
  refine .ite (status h _) (.ite (status h _) ?_)
  have saved := preemptCtx_memOk h ⟨(s.getX b).toNat % 4096, (s.getX b).toNat / 4096⟩ (some n) false
  generalize preemptCtx s _ (some n) false = r at saved
  obtain ⟨how, t⟩ := r
  cases how with
  | waits => exact .error saved
  | restarted => exact status saved _
  | slot _ => exact status saved _
  | emergency => exact status saved _
  | lost => exact status saved _

theorem execCtxload_memOk {s : State} (h : s.MemOk) (a b c : XReg) : OutOk (execCtxload a b c s) := by
  refine finish_memOk h <| (needS_memOk s).check fun _ => (require_memOk ..).check fun _ => (nameOwner_memOk ..).check fun _ =>
    (namedSlot_memOk ..).check fun n => (Chk.act_memOk (slotBytes_memOk h ..)).bind fun r hr => (require_memOk ..).check fun _ => ?_
  have status (v) : ActOk State.MemOk (.ok (putX r.2 a v)) := .ok (putX_memOk hr ..)
  dsimp only
  split
  · exact status _
  · split
    · exact status _
    · split
      · exact status _
      · split
        · exact .error trivial
        · exact .ok (putX_memOk (restoreCtx_memOk (setSlotState_memOk hr ..) ..) ..)

theorem execIdle_memOk {s : State} (h : s.MemOk) :
    OutOk (execIdle s) := by
  grind [execIdle, needS_memOk, finish_memOk, pass_memOk, = except_bind, ActOk, Stop.MemOk]

/-! ### Owners, quotas and attestation (`Machine/Owner`) -/

theorem execReseed_memOk {s : State} (h : s.MemOk) (a b c : XReg) :
    OutOk (execReseed a b c s) := by
  unfold execReseed
  simp only [except_bind]
  grind [require_memOk, needS_memOk, finish_memOk, putX_memOk, installSeed_memOk, nameOwner_memOk, readPairAt_memOk, ActOk,
    Stop.MemOk, trapAt]

theorem selectorOf_memOk (s : State) (b : XReg) (okCls okEntry : Nat → Bool) (sliced deep : Bool) :
    ActOk (fun _ => True) (selectorOf s b okCls okEntry sliced deep) := by
  grind [selectorOf, require_memOk, = except_bind, ActOk]

theorem execXq_memOk {s : State} (h : s.MemOk) (a b c : XReg) :
    OutOk (execXq a b c s) := by
  grind [execXq, finish_memOk, putX_memOk, selectorOf_memOk, = except_bind, ActOk]

theorem execXdraw_memOk {s : State} (h : s.MemOk) (a b c : XReg) :
    OutOk (execXdraw a b c s) := by
  grind [execXdraw, require_memOk, finish_memOk, putPair_memOk, nameOwner_memOk, = except_bind, ActOk]

theorem execDaccrd_memOk {s : State} (h : s.MemOk) (a b : XReg) :
    OutOk (execDaccrd a b s) := by
  grind [execDaccrd, require_memOk, finish_memOk, putPair_memOk, immBelow_memOk, = except_bind, ActOk]

theorem execDaccclr_memOk {s : State} (h : s.MemOk) (b : XReg) :
    OutOk (execDaccclr b s) := by
  grind [execDaccclr, State.advance_memOk, State.onCx_memOk, finish_memOk, immBelow_memOk, = except_bind, ActOk]

theorem entryAsked_memOk (s : State) (entry own : Nat) :
    ActOk (fun _ => True) (entryAsked s entry own) := by
  grind [entryAsked, ActOk, Stop.MemOk, trapNow]

theorem execUmrd_memOk {s : State} (h : s.MemOk) (a b : XReg) :
    OutOk (execUmrd a b s) := by
  grind [execUmrd, finish_memOk, putX_memOk, selectorOf_memOk, entryAsked_memOk, = except_bind, ActOk]

theorem orphanEntry_memOk {s : State} (h : s.MemOk) (die cls entry : Nat) :
    (orphanEntry s die cls entry).MemOk := by
  grind [orphanEntry, State.updCluster_memOk, State.onHome_memOk, foldl_memOk]

theorem installFloors_memOk {s : State} (h : s.MemOk) (die cls : Nat) (floors : List Floor) :
    (installFloors s die cls floors).MemOk := by
  grind [installFloors, State.updCluster_memOk, State.updDie_memOk, foldl_memOk]

theorem execQset_memOk {s : State} (h : s.MemOk) (a b c : XReg) :
    OutOk (execQset a b c s) := by
  unfold execQset
  simp only [except_bind]
  grind [State.updDie_memOk, require_memOk, needS0_memOk, finish_memOk, putX_memOk, nameOwner_memOk, selectorOf_memOk,
    orphanEntry_memOk, installFloors_memOk, ActOk]

theorem execQrd_memOk {s : State} (h : s.MemOk) (a b : XReg) :
    OutOk (execQrd a b s) := by
  grind [execQrd, finish_memOk, putX_memOk, selectorOf_memOk, entryAsked_memOk, = except_bind, ActOk]

theorem checkUnits_memOk {s : State} (h : s.MemOk) (vas : List Word) : ActOk State.MemOk (checkUnits vas s) := by
  induction vas generalizing s with
  | nil => exact .ok h
  | cons va vas ih => grind [checkUnits, State.check_memOk, trapAt, = except_bind, ActOk, Stop.MemOk]

theorem readUnits_memOk {s : State} (h : s.MemOk) (vas : List Word) : ActOk (·.2.MemOk) (readUnits vas s) := by
  induction vas generalizing s with
  | nil => exact .ok h
  | cons va vas ih => grind [readUnits, loadWords_memOk, = except_bind, ActOk]

theorem execMeasure_memOk {s : State} (h : s.MemOk) (a : VReg) (b c : XReg) : OutOk (execMeasure a b c s) :=
  finish_memOk h <| (needS_memOk ..).check fun _ => (require_memOk ..).check fun _ => (loadWords_memOk h ..).bind fun _ hr =>
    (checkUnits_memOk hr ..).bind fun _ ht => (readUnits_memOk ht ..).bind fun _ hu => .ok (putV_memOk (State.updOwner_memOk hu ..) ..)

theorem checkPieces_memOk {s : State} (h : s.MemOk) (ps : List (Word × List Byte)) :
    ActOk (·.2.MemOk) (checkPieces ps s) := by
  induction ps generalizing s with
  | nil => exact .ok h
  | cons p ps ih => grind [checkPieces, storeCheck_memOk, = except_bind, ActOk]

theorem execAttestReport_memOk {s : State} (h : s.MemOk) (a b c : XReg) (imm : Word) : OutOk (execAttestReport a b c imm s) :=
  finish_memOk h <| (require_memOk ..).check fun _ => ActOk.guard (.trap ..) fun _ => ActOk.guard (.trap ..) fun _ =>
    (loadWords_memOk h ..).bind fun _ hr => (checkPieces_memOk hr ..).bind fun _ ht => (storeAll_memOk ht ..).bind fun _ hu =>
      .ok (putX_memOk hu ..)

theorem execAttestDecapsulate_memOk {s : State} (h : s.MemOk) (a b c : XReg) :
    OutOk (execAttestDecapsulate a b c s) := by
  unfold execAttestDecapsulate
  simp only [except_bind]
  grind [loadWords_memOk, storeCheck_memOk, storeOne_memOk, finish_memOk, putX_memOk, ActOk, Stop.MemOk, trapAt]

/-! ### Failures (`Machine/Failure`) -/

theorem spoil_memOk {s : State} (h : s.MemOk) (line : Nat) (m : Mark) :
    (spoil s line m).MemOk := by
  grind [spoil, State.mark_memOk, homeWriteBack_memOk, State.dropLine_memOk, foldl_memOk]

theorem spoilAll_memOk {s : State} (h : s.MemOk) (lines : List Nat) (m : Mark) :
    (spoilAll s lines m).MemOk := by
  grind [spoilAll, spoil_memOk, foldl_memOk]

theorem spoilChannel_memOk {s : State} (h : s.MemOk) (key : Nat) :
    (spoilChannel s key).MemOk := by
  grind [spoilChannel, State.onHome_memOk, State.loseChannel_memOk, homeWriteBack_memOk, foldl_memOk]

theorem losePartials_memOk {s : State} (h : s.MemOk) (cluster : Nat) :
    (losePartials s cluster).MemOk := by
  grind [losePartials, State.onHome_memOk, spoilAll_memOk]

theorem endContext_memOk {s : State} (h : s.MemOk) (c : CtxId) (cause : Nat) :
    (endContext s c cause).MemOk := by
  grind [endContext, lossOf_memOk, preemptCtx_memOk]

theorem dropSlice_memOk {s : State} (h : s.MemOk) (core : Nat) :
    (dropSlice s core).MemOk := by
  grind [dropSlice, State.updCore_memOk, gangFail_memOk, foldl_memOk]

theorem failCore_memOk {s : State} (h : s.MemOk) (core cause : Nat) :
    (failCore s core cause).MemOk := by
  grind [failCore, State.updCore_memOk, State.onHome_memOk, State.ownerEvent_memOk, stopHelper_memOk, spoilAll_memOk,
    endContext_memOk, dropSlice_memOk]

theorem execCoreFail_memOk {s : State} (h : s.MemOk) (core : Nat) :
    OutOk (execCoreFail core s) := by
  grind [execCoreFail, failCore_memOk, OutOk]

theorem loseCopy_memOk {s : State} (h : s.MemOk) (q : CopyOp) :
    (loseCopy s q).MemOk := by
  grind [loseCopy, State.updCtx_memOk, State.onNet_memOk, landRecord_memOk, peerReader_memOk]

theorem losePeers_memOk {s : State} (h : s.MemOk) (cluster : Nat) :
    (losePeers s cluster).MemOk := by
  grind [losePeers, updCopy_memOk, foldl_memOk]

theorem failClusterWith_memOk {s : State} (h : s.MemOk) (cluster : Nat) (tags : Bool) :
    (failClusterWith s cluster tags).MemOk := by
  grind [failClusterWith, State.updCluster_memOk, State.updDie_memOk, State.onHome_memOk, State.ownerEvent_memOk, stopOwner_memOk,
    spoilAll_memOk, losePartials_memOk, failCore_memOk, loseCopy_memOk, losePeers_memOk, foldl_memOk]

theorem failCluster_memOk {s : State} (h : s.MemOk) (cluster : Nat) :
    (failCluster s cluster).MemOk := by
  grind [failCluster, failClusterWith_memOk]

theorem execClusterFail_memOk {s : State} (h : s.MemOk) (cluster : Nat) :
    OutOk (execClusterFail cluster s) := by
  grind [execClusterFail, failCluster_memOk, OutOk]

theorem execDieFail_memOk {s : State} (h : s.MemOk) (die : Nat) :
    OutOk (execDieFail die s) := by
  grind [execDieFail, State.updDie_memOk, State.onHome_memOk, State.onNet_memOk, State.ownerEvent_memOk, spoilAll_memOk,
    failCluster_memOk, OutOk, foldl_memOk]

theorem groupFault_memOk {s : State} (h : s.MemOk) (cluster : Nat) :
    (groupFault s cluster).MemOk := by
  grind [groupFault, State.updCluster_memOk, State.ownerEvent_memOk]

theorem execGroupFatalFault_memOk {s : State} (h : s.MemOk) (cluster : Nat) :
    OutOk (execGroupFatalFault cluster s) := by
  grind [execGroupFatalFault, groupFault_memOk, OutOk]

theorem execHomeSliceFail_memOk {s : State} (h : s.MemOk) (die slice : Nat) (tagsReadable : Bool) :
    OutOk (execHomeSliceFail die slice tagsReadable s) := by
  grind [execHomeSliceFail, State.updDie_memOk, State.onHome_memOk, spoilAll_memOk, spoilChannel_memOk, OutOk]

theorem execNearTierDataArraysFail_memOk {s : State} (h : s.MemOk) (cluster : Nat) :
    OutOk (execNearTierDataArraysFail cluster s) := by
  grind [execNearTierDataArraysFail, State.onHome_memOk, spoilAll_memOk, losePartials_memOk, OutOk]

theorem hwError_memOk {s : State} (h : s.MemOk) (c : CtxId) :
    (hwError s c).MemOk := by
  grind [hwError, State.updCtx_memOk]

theorem loseRecord_memOk {s : State} (h : s.MemOk) (core oid : Nat) (e : DequeEntry) :
    (loseRecord s core oid e).MemOk := by
  grind [loseRecord, State.ownerEvent_memOk, levelDrop_memOk, setSlotState_memOk]

theorem loseTrigger_memOk {s : State} (h : s.MemOk) (core i : Nat) :
    (loseTrigger s core i).MemOk := by
  grind [loseTrigger, State.updCore_memOk, State.onHome_memOk, freeTrig_memOk, loseRecord_memOk]

theorem loseTags_memOk {s : State} (h : s.MemOk) (at_ : CacheId) :
    (loseTags s at_).MemOk := by
  unfold loseTags
  grind [State.onHome_memOk, spoilAll_memOk, spoilChannel_memOk, failClusterWith_memOk]

theorem execUncorrectableError_memOk {s : State} (h : s.MemOk) (site : ErrSite) :
    OutOk (execUncorrectableError site s) := by
  unfold execUncorrectableError
  grind [State.updCore_memOk, State.onHome_memOk, State.dropCopy_memOk, State.ownerEvent_memOk, dequeTake_memOk, lossOf_memOk,
    updBuf_memOk, spoil_memOk, hwError_memOk, loseRecord_memOk, loseTrigger_memOk, loseTags_memOk, OutOk]

theorem failWire_memOk {s : State} (h : s.MemOk) (wire : Nat) :
    (failWire s wire).MemOk := by
  grind [failWire, State.onNet_memOk, State.onDev_memOk, State.ownerEvent_memOk]

theorem countCorrected_memOk {s : State} (h : s.MemOk) (u : CheckedUnit) :
    (countCorrected s u).MemOk := h

theorem execEdgeLinkFail_memOk {s : State} (h : s.MemOk) (wire : Nat) :
    OutOk (execEdgeLinkFail wire s) := by
  grind [execEdgeLinkFail, failWire_memOk, OutOk]

theorem execLinkCrcRetry_memOk {s : State} (h : s.MemOk) (wire : Nat) :
    OutOk (execLinkCrcRetry wire s) := by
  grind [execLinkCrcRetry, State.onDev_memOk, failWire_memOk, countCorrected_memOk, OutOk]

theorem traceCluster_memOk {s : State} (h : s.MemOk) (cluster kind : Nat) : (traceCluster s cluster kind).MemOk := by
  refine foldl_keeps (P := fun a : State × List Nat => a.1.MemOk) (b := (s, [])) h _ fun a c ha => ?_
  dsimp only
  split
  · exact ha
  · exact State.trace_memOk ha ..

theorem haltCluster_memOk {s : State} (h : s.MemOk) (cluster : Nat) :
    (haltCluster s cluster).MemOk := by
  grind [haltCluster, State.updCluster_memOk, traceCluster_memOk]

theorem crossTrigger_memOk {s : State} (h : s.MemOk) (cluster : Nat) :
    (crossTrigger s cluster).MemOk := by
  grind [crossTrigger, haltCluster_memOk, foldl_memOk]

theorem execCrossTriggerHalt_memOk {s : State} (h : s.MemOk) (cluster : Nat) :
    OutOk (execCrossTriggerHalt cluster s) := by
  grind [execCrossTriggerHalt, crossTrigger_memOk, OutOk]

theorem execHaltResume_memOk {s : State} (h : s.MemOk) (cluster : Nat) :
    OutOk (execHaltResume cluster s) := by
  grind [execHaltResume, State.updCluster_memOk, traceCluster_memOk, OutOk]

theorem execCrashDump_memOk {s : State} (h : s.MemOk) :
    OutOk (execCrashDump s) := by
  grind [execCrashDump, State.onDev_memOk, haltCluster_memOk, OutOk, foldl_memOk]

/-! ### Causes, waits and intervals (`Machine/Boundary`) -/

theorem leaveWait_memOk {s : State} (h : s.MemOk) :
    (leaveWait s).MemOk := by
  grind [leaveWait, State.advance_memOk, State.onCx_memOk, freeMonitor_memOk]

theorem takeHwerr_memOk {s : State} (h : s.MemOk) :
    (takeHwerr s).MemOk := by
  grind [takeHwerr, State.onCx_memOk, State.updCore_memOk, State.firingEvent_memOk, stopHelper_memOk, endContext_memOk,
    failCore_memOk]

theorem boundaryTrap_memOk {s : State} (h : s.MemOk) :
    (boundaryTrap s).MemOk := by
  grind [boundaryTrap, State.onCx_memOk, takeTrap_memOk, leaveWait_memOk, takeHwerr_memOk]

theorem execTrapEntry_memOk {s : State} (h : s.MemOk) (c : CtxId) :
    OutOk (execTrapEntry c s) := by
  grind [execTrapEntry, State.asCtx_memOk, boundaryTrap_memOk, OutOk]

theorem deadlineReached_memOk {s : State} (h : s.MemOk) (c : CtxId) :
    (deadlineReached s c).MemOk := by
  grind [deadlineReached, State.updCtx_memOk]

theorem execTdlineDeadline_memOk {s : State} (h : s.MemOk) (c : CtxId) :
    OutOk (execTdlineDeadline c s) := by
  grind [execTdlineDeadline, deadlineReached_memOk, OutOk]

theorem release_memOk {s : State} (h : s.MemOk) (c : CtxId) :
    (release s c).MemOk := by
  grind [release, State.updCtx_memOk]

theorem releaseIf_memOk {s : State} (h : s.MemOk) (c : CtxId) (p : Wait → Bool) :
    (releaseIf s c p).MemOk := by
  grind [releaseIf, release_memOk]

theorem endWait_memOk {s : State} (h : s.MemOk) (c : CtxId) : (endWait s c).MemOk := by
  unfold endWait
  cases (s.ctxOf c).wait with
  | none => exact releaseIf_memOk h ..
  | some w =>
    cases w with
    | entry n =>
      dsimp only
      split
      · exact h
      · exact (resumeSlot_memOk h ..).getD h
    | address => exact h
    | copyQueue => exact h
    | _ => exact releaseIf_memOk h ..

theorem execInstrWaitEnd_memOk {s : State} (h : s.MemOk) (c : CtxId) :
    OutOk (execInstrWaitEnd c s) := by
  grind [execInstrWaitEnd, endWait_memOk, OutOk]

theorem pollWait_memOk {s : State} (h : s.MemOk) (c : CtxId) :
    (pollWait s c).MemOk := by
  grind [pollWait, releaseIf_memOk]

theorem execWaitaPoll_memOk {s : State} (h : s.MemOk) (c : CtxId) :
    OutOk (execWaitaPoll c s) := by
  grind [execWaitaPoll, pollWait_memOk, OutOk]

theorem wakeWait_memOk {s : State} (h : s.MemOk) (c : CtxId) :
    (wakeWait s c).MemOk := by
  grind [wakeWait, releaseIf_memOk]

theorem execWaitaWake_memOk {s : State} (h : s.MemOk) (c : CtxId) :
    OutOk (execWaitaWake c s) := by
  grind [execWaitaWake, wakeWait_memOk, OutOk]

theorem enqueueWait_memOk {s : State} (h : s.MemOk) (c : CtxId) :
    (enqueueWait s c).MemOk := by
  grind [enqueueWait, releaseIf_memOk]

theorem execCopyEnqueue_memOk {s : State} (h : s.MemOk) (c : CtxId) :
    OutOk (execCopyEnqueue c s) := by
  grind [execCopyEnqueue, enqueueWait_memOk, OutOk]

theorem barrierExpires_memOk {s : State} (h : s.MemOk) (die bar : Nat) :
    (barrierExpires s die bar).MemOk := by
  grind [barrierExpires, setBarrier_memOk]

theorem execBarrierTimeout_memOk {s : State} (h : s.MemOk) (die bar : Nat) :
    OutOk (execBarrierTimeout die bar s) := by
  grind [execBarrierTimeout, barrierExpires_memOk, OutOk]

theorem preempted_memOk {s : State} (h : s.MemOk) (c : CtxId) :
    (preempted s c).MemOk := by
  grind [preempted, preemptCtx_memOk]

theorem execPreemption_memOk {s : State} (h : s.MemOk) (c : CtxId) :
    OutOk (execPreemption c s) := by
  grind [execPreemption, preempted_memOk, OutOk]

theorem resumeSuspended_memOk {s : State} (h : s.MemOk) (oid slot : Nat) :
    (resumeSuspended s oid slot).MemOk := by
  grind [resumeSuspended, resumeSlot_memOk, OptOk.getD]

theorem execSuspendedResume_memOk {s : State} (h : s.MemOk) (oid slot : Nat) :
    OutOk (execSuspendedResume oid slot s) := by
  grind [execSuspendedResume, resumeSuspended_memOk, OutOk]

theorem execFiringDispatch_memOk {s : State} (h : s.MemOk) (c : CtxId) :
    OutOk (execFiringDispatch c s) := by
  grind [execFiringDispatch, dispatch_memOk, OutOk]

theorem execStealRequest_memOk {s : State} (h : s.MemOk) (core : Nat) :
    OutOk (execStealRequest core s) := by
  grind [execStealRequest, stealAsk_memOk, OutOk]

theorem execStealReply_memOk {s : State} (h : s.MemOk) (i : Nat) :
    OutOk (execStealReply i s) := by
  grind [execStealReply, stealAnswer_memOk, OutOk]

theorem execFiringRedispatch_memOk {s : State} (h : s.MemOk) (i : Nat) :
    OutOk (execFiringRedispatch i s) := by
  grind [execFiringRedispatch, redispatch_memOk, OutOk]

theorem execDequePushRetry_memOk {s : State} (h : s.MemOk) (core : Nat) :
    OutOk (execDequePushRetry core s) := by
  grind [execDequePushRetry, retryPush_memOk, OutOk, OptOk.getD]

theorem fireArrives_memOk {s : State} (h : s.MemOk) (i : Nat) :
    (fireArrives s i).MemOk := by
  grind [fireArrives, State.onHome_memOk, freeTrig_memOk, firePush_memOk]

theorem execTriggerFirePush_memOk {s : State} (h : s.MemOk) (i : Nat) :
    OutOk (execTriggerFirePush i s) := by
  grind [execTriggerFirePush, fireArrives_memOk, OutOk]

/-! ### Engines of cores and clusters (`Machine/Engines`) -/

theorem rampFill_memOk {s : State} (h : s.MemOk) (core : Nat) (c : CtxId) :
    (rampFill s core c).MemOk := by
  grind [rampFill, State.updCore_memOk, addFill_memOk]

theorem beginOp_memOk {s : State} (h : s.MemOk) (core : Nat) (o : MatOp) (a : MatOperand) :
    (beginOp s core o a).MemOk := by
  grind [beginOp, updOp_memOk, rampFill_memOk]

theorem startOp_memOk {s : State} (h : s.MemOk) (core : Nat) :
    (startOp s core).MemOk := by
  grind [startOp, gangFail_memOk, beginOp_memOk, foldl_memOk]

theorem execMatrixOpStart_memOk {s : State} (h : s.MemOk) (core : Nat) :
    OutOk (execMatrixOpStart core s) := by
  grind [execMatrixOpStart, startOp_memOk, OutOk]

theorem gangExpires_memOk {s : State} (h : s.MemOk) (core : Nat) :
    (gangExpires s core).MemOk := by
  grind [gangExpires, gangFail_memOk]

theorem execGangTimeout_memOk {s : State} (h : s.MemOk) (core : Nat) :
    OutOk (execGangTimeout core s) := by
  grind [execGangTimeout, gangExpires_memOk, OutOk]

theorem handOn_memOk {s : State} (h : s.MemOk) (core : Nat) (o : MatOp) (gang : Bool) :
    (handOn s core o gang).MemOk := by
  grind [handOn, updBuf_memOk, freeBuf_memOk, exportBuf_memOk, foldl_memOk]

theorem leaveSlice_memOk {s : State} (h : s.MemOk) (core : Nat) (o : MatOp) (fault : Option (Cause × Option Word)) :
    (leaveSlice s core o fault).MemOk := by
  unfold leaveSlice
  grind [State.updCore_memOk, State.countEv_memOk, State.engineFault_memOk, addFill_memOk, handOn_memOk]

/-- What the contributions of an operation leave. -/
theorem contribute_memOk {s t : State} (h : s.MemOk) (o : MatOp)
    (ht : contribute s o = .exposed t ∨ contribute s o = .done t) : t.MemOk := by
  unfold contribute at ht
  split at ht
  · simp at ht
  · next heq =>
    have hc := (contributions_memOk h o).of_eq heq
    dsimp only at ht hc
    split at ht
    · split at ht
      · obtain ht | ht := ht <;> cases ht
        exact State.switchTo_memOk (State.onCx_memOk (State.switchTo_memOk hc _) _) _
      · obtain ht | ht := ht <;> cases ht
        exact State.switchTo_memOk (expose_memOk (State.switchTo_memOk h _)) _
    · split at ht
      · simp at ht
      · obtain ht | ht := ht <;> cases ht
        exact commitLines_memOk hc ..

theorem completeOp_memOk {s : State} (h : s.MemOk) (core : Nat) : (completeOp s core).MemOk := by
  have leave {t : State} (ht : t.MemOk) (o f) := leaveSlice_memOk ht core o f
  unfold completeOp
  split
  · exact h
  · split
    · exact h
    · next o _ =>
      split
      · exact h
      · split
        · exact leave h ..
        · split
          · exact leave h ..
          · split
            · exact h
            · exact leave h ..
            · next heq => exact contribute_memOk h o (.inl heq)
            · next heq => exact leave (contribute_memOk h o (.inr heq)) ..

theorem execMatrixOpComplete_memOk {s : State} (h : s.MemOk) (core : Nat) :
    OutOk (execMatrixOpComplete core s) := by
  grind [execMatrixOpComplete, completeOp_memOk, OutOk]

theorem rampDown_memOk {s : State} (h : s.MemOk) (core : Nat) :
    (rampDown s core).MemOk := by
  grind [rampDown, State.updCore_memOk]

theorem execSliceRampDown_memOk {s : State} (h : s.MemOk) (core : Nat) :
    OutOk (execSliceRampDown core s) := by
  grind [execSliceRampDown, rampDown_memOk, OutOk]

theorem holdEnds_memOk {s : State} (h : s.MemOk) (core : Nat) :
    (holdEnds s core).MemOk := by
  grind [holdEnds, State.updCore_memOk]

theorem execMhintHoldEnd_memOk {s : State} (h : s.MemOk) (core : Nat) :
    OutOk (execMhintHoldEnd core s) := by
  grind [execMhintHoldEnd, holdEnds_memOk, OutOk]

theorem laneCleared_memOk {s : State} (h : s.MemOk) (core : Nat) :
    (laneCleared s core).MemOk := by
  grind [laneCleared, State.updCore_memOk]

theorem execLaneStoreClear_memOk {s : State} (h : s.MemOk) (core : Nat) :
    OutOk (execLaneStoreClear core s) := by
  grind [execLaneStoreClear, laneCleared_memOk, OutOk]

theorem copyBegins_memOk {s : State} (h : s.MemOk) (cluster : Nat) :
    (copyBegins s cluster).MemOk := by
  grind [copyBegins, copyStart_memOk]

theorem execCopyStart_memOk {s : State} (h : s.MemOk) (cluster : Nat) :
    OutOk (execCopyStart cluster s) := by
  grind [execCopyStart, copyBegins_memOk, OutOk]

theorem copyGoes_memOk {s : State} (h : s.MemOk) (cluster tag : Nat) :
    (copyGoes s cluster tag).MemOk := by
  grind [copyGoes, copyWork_memOk, copyComplete_memOk, OptOk.getD]

theorem execCopyComplete_memOk {s : State} (h : s.MemOk) (cluster tag : Nat) :
    OutOk (execCopyComplete cluster tag s) := by
  grind [execCopyComplete, copyGoes_memOk, OutOk]

theorem execInboundDelivery_memOk {s : State} (h : s.MemOk) (i : Nat) :
    OutOk (execInboundDelivery i s) := by
  grind [execInboundDelivery, deliver_memOk, OutOk]

theorem present_memOk {s : State} (h : s.MemOk) (w : Nat) (a : Announce) :
    (present s w a).MemOk := by
  grind [present, State.updCore_memOk, State.onNet_memOk, State.countEv_memOk, State.decide_memOk]

theorem announcing_memOk {s : State} (h : s.MemOk) (core : Nat) :
    (announcing s core).MemOk := by
  grind [announcing, present_memOk, foldl_memOk]

theorem execAnnouncePresent_memOk {s : State} (h : s.MemOk) (core : Nat) :
    OutOk (execAnnouncePresent core s) := by
  grind [execAnnouncePresent, announcing_memOk, OutOk]

theorem applyCancel_memOk {s : State} (h : s.MemOk) (c : CtxId) (oid top : Nat) :
    (applyCancel s c oid top).MemOk := by
  grind [applyCancel, levelGet_memOk, levelPut_memOk, disarmCounter_memOk, ChkOk, foldl_memOk]

theorem applyAnnounce_memOk {s : State} (h : s.MemOk) (a : Announce) :
    (applyAnnounce s a).MemOk := by
  grind [applyAnnounce, State.updOwner_memOk, lineEvent_memOk, applyCancel_memOk]

theorem noticeChanges_memOk (s : State) {t : State} (ht : t.MemOk) :
    (noticeChanges s t).MemOk := by
  grind [noticeChanges, State.updCtx_memOk, foldl_memOk]

theorem wakeNotified_memOk {s : State} (h : s.MemOk) :
    (wakeNotified s).MemOk := by
  grind [wakeNotified, State.decide_memOk, foldl_memOk]

theorem applyWindow_memOk {s : State} (h : s.MemOk) :
    (applyWindow s).MemOk := by
  grind [applyWindow, State.onNet_memOk, applyAnnounce_memOk, noticeChanges_memOk, wakeNotified_memOk, foldl_memOk]

theorem execGauzeWindowApply_memOk {s : State} (h : s.MemOk) :
    OutOk (execGauzeWindowApply s) := by
  grind [execGauzeWindowApply, applyWindow_memOk, OutOk]

/-! ### Engines of the homes (`Machine/Homes`) -/

theorem applyNow_memOk {s : State} (h : s.MemOk) (f : Flight) :
    (applyNow s f).MemOk := by
  grind [applyNow, State.stampLeft_memOk, touchHome_memOk, deliverPriv_memOk, applyFlight_memOk, commitApplies_memOk,
    requestsApply_memOk]

theorem grantAt_memOk {s : State} (h : s.MemOk) (q : Nat × Nat) :
    (grantAt s q).MemOk := by
  grind [grantAt, opportunity_memOk, applyNow_memOk]

theorem homeStep_memOk {s : State} (h : s.MemOk) (id : Nat) :
    (homeStep s id).MemOk := by
  grind [homeStep, applyNow_memOk, grantAt_memOk]

theorem execHomeApply_memOk {s : State} (h : s.MemOk) (id : Nat) :
    OutOk (execHomeApply id s) := by
  grind [execHomeApply, homeStep_memOk, OutOk]

theorem execCounterMessageApply_memOk {s : State} (h : s.MemOk) (id : Nat) :
    OutOk (execCounterMessageApply id s) := by
  grind [execCounterMessageApply, homeStep_memOk, OutOk]

theorem witnessArrives_memOk {s : State} (h : s.MemOk) (c : CtxId) (r : XReg) :
    (witnessArrives s c r).MemOk := by
  grind [witnessArrives, State.updCtx_memOk, deliverPend_memOk]

theorem execWitnessDelivered_memOk {s : State} (h : s.MemOk) (c : CtxId) (r : XReg) :
    OutOk (execWitnessDelivered c r s) := by
  grind [execWitnessDelivered, witnessArrives_memOk, OutOk]

theorem dropPend_memOk {s : State} (h : s.MemOk) (f : Flight) :
    (dropPend s f).MemOk := by
  grind [dropPend, State.updCtx_memOk]

theorem dropFlights_memOk {s : State} (h : s.MemOk) (fs : List Flight) :
    (dropFlights s fs).MemOk := by
  grind [dropFlights, State.onNet_memOk, dropPend_memOk, foldl_memOk]

theorem copyMeets_memOk {s : State} (h : s.MemOk) (f : Flight) (how : CopyOp → CopyOp) :
    (copyMeets s f how).MemOk := h

theorem refusalArrives_memOk {s : State} (h : s.MemOk) (id : Nat) :
    (refusalArrives s id).MemOk := by
  grind [refusalArrives, State.engineFault_memOk, dropFlights_memOk, copyMeets_memOk]

theorem execRefusalReport_memOk {s : State} (h : s.MemOk) (id : Nat) :
    OutOk (execRefusalReport id s) := by
  grind [execRefusalReport, refusalArrives_memOk, OutOk]

theorem lossArrives_memOk {s : State} (h : s.MemOk) (id : Nat) :
    (lossArrives s id).MemOk := by
  grind [lossArrives, State.updCtx_memOk, State.onNet_memOk, dropFlights_memOk, copyMeets_memOk]

theorem execLostReport_memOk {s : State} (h : s.MemOk) (id : Nat) :
    OutOk (execLostReport id s) := by
  grind [execLostReport, lossArrives_memOk, OutOk]

theorem keepExpiry_memOk {s : State} (h : s.MemOk) (c : Copy) :
    (keepExpiry s c).MemOk := h

theorem leaseEnds_memOk {s : State} (h : s.MemOk) (a : CacheId) (line : Nat) :
    (leaseEnds s a line).MemOk := by
  unfold leaseEnds
  grind [State.dropCopy_memOk, keepExpiry_memOk]

theorem execLeaseExpiry_memOk {s : State} (h : s.MemOk) (at_ : CacheId) (line : Nat) :
    OutOk (execLeaseExpiry at_ line s) := by
  grind [execLeaseExpiry, leaseEnds_memOk, OutOk]

theorem writesBack_memOk {s : State} (h : s.MemOk) (a : CacheId) (line : Nat) :
    (writesBack s a line).MemOk := by
  grind [writesBack, writeBack_memOk]

theorem execDirtyWriteback_memOk {s : State} (h : s.MemOk) (at_ : CacheId) (line : Nat) :
    OutOk (execDirtyWriteback at_ line s) := by
  grind [execDirtyWriteback, writesBack_memOk, OutOk]

theorem partialFolds_memOk {s : State} (h : s.MemOk) (die line : Nat) :
    (partialFolds s die line).MemOk := by
  grind [partialFolds, foldLine_memOk]

theorem execCrFold_memOk {s : State} (h : s.MemOk) (die line : Nat) :
    OutOk (execCrFold die line s) := by
  grind [execCrFold, partialFolds_memOk, OutOk]

theorem sequencerTakes_memOk {s : State} (h : s.MemOk) (id : Nat) :
    (sequencerTakes s id).MemOk := by
  grind [sequencerTakes, State.refuse_memOk, sequence_memOk, commitApplies_memOk]

theorem execReplSequence_memOk {s : State} (h : s.MemOk) (id : Nat) :
    OutOk (execReplSequence id s) := by
  grind [execReplSequence, sequencerTakes_memOk, OutOk]

theorem execReplReplicaApply_memOk {s : State} (h : s.MemOk) (die : Nat) :
    OutOk (execReplReplicaApply die s) := by
  grind [execReplReplicaApply, replicaApply_memOk, OutOk]

theorem markReplicas_memOk {s : State} (h : s.MemOk) :
    (markReplicas s).MemOk := by
  grind [markReplicas, State.updDie_memOk, foldl_memOk]

theorem execReplMark_memOk {s : State} (h : s.MemOk) :
    OutOk (execReplMark s) := by
  grind [execReplMark, markReplicas_memOk, OutOk]

theorem classChanged_memOk {s : State} (h : s.MemOk) (i : Nat) :
    (classChanged s i).MemOk := by
  grind [classChanged, completeChange_memOk]

theorem execClassChangeComplete_memOk {s : State} (h : s.MemOk) (i : Nat) :
    OutOk (execClassChangeComplete i s) := by
  grind [execClassChangeComplete, classChanged_memOk, OutOk]

theorem quotaEnds_memOk {s : State} (h : s.MemOk) (far : Bool) (die slice : Nat) :
    (quotaEnds s far die slice).MemOk := by
  grind [quotaEnds, State.updCluster_memOk, State.updDie_memOk]

theorem execQuotaInterval_memOk {s : State} (h : s.MemOk) (far : Bool) (die slice : Nat) :
    OutOk (execQuotaInterval far die slice s) := by
  grind [execQuotaInterval, quotaEnds_memOk, OutOk]

theorem endIntervals_memOk {s : State} (h : s.MemOk) :
    (endIntervals s).MemOk := h

theorem execMpassPassEnd_memOk {s : State} (h : s.MemOk) (oid : Nat) :
    OutOk (execMpassPassEnd oid s) := by
  grind [execMpassPassEnd, endPass_memOk, OutOk]

theorem noteHolds_memOk {s : State} (h : s.MemOk) :
    (noteHolds s).MemOk := by
  grind [noteHolds, State.MemOk]

theorem holdExpires_memOk {s : State} (h : s.MemOk) (id : Nat) : (holdExpires s id).MemOk := by
  unfold holdExpires
  split
  · exact h
  · split
    · exact h
    · next hold _ _ late _ =>
      generalize late + BitVec.ofNat 48 (2 ^ 20) = t
      split
      · exact h
      · dsimp only
        split
        · exact noteDiffer_memOk (State.updOwner_memOk h _ _) ..
        · exact State.updOwner_memOk h _ _

theorem execReplayHoldTimeout_memOk {s : State} (h : s.MemOk) (id : Nat) :
    OutOk (execReplayHoldTimeout id s) := by
  grind [execReplayHoldTimeout, holdExpires_memOk, OutOk]

/-! ### Boot and the world outside (`Machine/World`) -/

theorem State.answers_memOk {s : State} (h : s.MemOk) (a : Answer) :
    (State.answers s a).MemOk := h

theorem inCheck_memOk {s : State} (h : s.MemOk) (q : Inbound) (oid : Nat) (va : Word) :
    (inCheck s q oid va).2.MemOk := by
  grind [inCheck, walkFrom_memOk, State.noteClass_memOk]

theorem inLeaves_memOk {s : State} (h : s.MemOk) (q : Inbound) (oid : Nat) (va : Word) (ps : List (Nat × Nat)) :
    (inLeaves q oid va ps s).2.MemOk := by
  induction ps generalizing s with
  | nil => exact h
  | cons p ps ih => grind [inLeaves, inCheck_memOk]

theorem inProceeds_memOk {s : State} (h : s.MemOk) (q : Inbound) (oid : Nat) (ps : List InPiece) :
    (inProceeds s q oid ps).MemOk := by
  grind [inProceeds, State.pass_memOk, foldl_memOk]

theorem inSeals_memOk {s : State} (h : s.MemOk) (q : Inbound) (oid : Nat) (ps : List InPiece) :
    (inSeals s q oid ps).MemOk := by
  grind [inSeals, State.sealFrame_memOk, foldl_memOk]

theorem inRead_memOk {s : State} (h : s.MemOk) (src oid : Nat) (va : Word) (p : InPiece) : (inRead s src oid va p).2.MemOk := by
  unfold inRead
  dsimp only
  split
  · exact foldl_keeps (P := fun a : List Byte × State => a.2.MemOk) (b := ([], s)) h _ fun a i ha => crReadElem_memOk ha ..
  · exact touchHome_memOk h ..

theorem inWrite_memOk {s : State} (h : s.MemOk) (src oid : Nat) (l : Leaf) (bs : List Byte) :
    (inWrite s src oid l bs).MemOk := by
  grind [inWrite, State.onNet_memOk, writeHome_memOk, sequence_memOk]

theorem State.inStamp_memOk {s : State} (h : s.MemOk) (src : Nat) :
    (State.inStamp s src).MemOk := h

theorem inRefused_memOk {s : State} (h : s.MemOk) (q : Inbound) (pa : Nat) :
    (inRefused s q pa).MemOk := by
  grind [inRefused, State.ownerEvent_memOk, State.answers_memOk]

theorem inAtomic_memOk {s : State} (h : s.MemOk) (q : Inbound) (l : Leaf) (va : Word) :
    (inAtomic s q l va).MemOk := by
  grind [inAtomic, writeHome_memOk, State.answers_memOk, State.inStamp_memOk]

theorem inOrder_memOk (s : State) {t : State} (ht : t.MemOk) (q : Inbound) (ps : List InPiece) :
    OptOk State.MemOk (inOrder s q ps t) := by
  grind [inOrder, OptOk]

theorem countWrite_memOk {s : State} (h : s.MemOk) (q : Inbound) :
    OptOk State.MemOk (countWrite s q) := by
  grind [countWrite, counterApply_memOk, State.answers_memOk, inCheck_memOk, inProceeds_memOk, inSeals_memOk, State.inStamp_memOk,
    inRefused_memOk, inOrder_memOk, OptOk]

theorem inUnit_memOk {s : State} (h : s.MemOk) (w : InWork) :
    (inUnit s w).MemOk := by
  grind [inUnit, State.onDev_memOk, State.answers_memOk, inRead_memOk, inWrite_memOk, State.inStamp_memOk, inRefused_memOk]

theorem inBegins_memOk {s : State} (h : s.MemOk) (q : Inbound) (oid : Nat) (va : Word) (ps : List InPiece) :
    (inBegins s q oid va ps).MemOk := by
  grind [inBegins, State.onDev_memOk, inSeals_memOk, inUnit_memOk]

theorem inTry_memOk {s : State} (h : s.MemOk) (q : Inbound) : OptOk State.MemOk (inTry s q) := by
  have aborts {t : State} (ht : t.MemOk) : OptOk State.MemOk (some (t.answers .abort)) := .intro (State.answers_memOk ht _)
  unfold inTry
  split
  · exact aborts h
  · next a _ =>
    dsimp only
    split
    · exact countWrite_memOk h q
    · split
      · exact aborts h
      · split
        · next heq => exact aborts ((congrArg (·.2.MemOk) heq).mp (inLeaves_memOk h ..))
        · next ps t heq =>
          have ht : t.MemOk := (congrArg (·.2.MemOk) heq).mp (inLeaves_memOk h ..)
          have hu := inProceeds_memOk ht q a.oid ps
          split
          · split
            · exact aborts ht
            · refine inOrder_memOk s ?_ q ps
              split
              · exact State.answers_memOk hu _
              · exact inBegins_memOk hu ..
          · split
            · exact aborts ht
            · refine inOrder_memOk s ?_ q ps
              split
              · exact inRefused_memOk hu ..
              · exact inBegins_memOk hu ..
          · split
            · split
              · exact aborts ht
              · refine inOrder_memOk s ?_ q _
                split
                · exact inRefused_memOk hu ..
                · exact inAtomic_memOk (inSeals_memOk hu ..) ..
            · exact aborts ht

theorem inbound_memOk {s : State} (h : s.MemOk) (q : Inbound) :
    (inbound s q).MemOk := by
  grind [inbound, State.onDev_memOk, inTry_memOk, OptOk.getD]

theorem inGoes_memOk {s : State} (h : s.MemOk) : OptOk State.MemOk (inGoes s) :=
  OptOk.findSome? (fun _ => (inTry_memOk h _).map fun _ ht => State.onDev_memOk ht _) _

theorem execInboundRequest_memOk {s : State} (h : s.MemOk) (q : Inbound) :
    OutOk (execInboundRequest q s) := by
  grind [execInboundRequest, inbound_memOk, OutOk]

theorem execApertureCounterWrite_memOk {s : State} (h : s.MemOk) (q : Inbound) :
    OutOk (execApertureCounterWrite q s) := by
  grind [execApertureCounterWrite, inbound_memOk, OutOk]

theorem execQreset_memOk {s : State} (h : s.MemOk) (w : Word) :
    OutOk (execQreset w s) := by
  grind [execQreset, State.onDev_memOk, closeTrace_memOk, OutOk]

theorem execMbox_memOk {s : State} (h : s.MemOk) (w : Word) :
    OutOk (execMbox w s) := by
  grind [execMbox, State.onDev_memOk, OutOk, State.MemOk]

theorem execHostCtrlWrite_memOk {s : State} (h : s.MemOk) (_off : Nat) (_w : Word) :
    OutOk (execHostCtrlWrite _off _w s) := by
  grind [execHostCtrlWrite, OutOk]

/-- A reset leaves of memory the windows (R424). -/
theorem resetPackage_memOk {s : State} (h : s.MemOk) (powered : Bool) : (resetPackage s powered).MemOk := by
  rw [State.MemOk, resetPackage]
  exact filter_wf _ h

theorem execFunctionLevelReset_memOk {s : State} (h : s.MemOk) :
    OutOk (execFunctionLevelReset s) := by
  grind [execFunctionLevelReset, resetPackage_memOk, OutOk]

theorem execNvmeDmaWrite_memOk {s : State} (h : s.MemOk) (sram : Bool) (addr : Nat) (data : List Byte) :
    OutOk (execNvmeDmaWrite sram addr data s) := by
  grind [execNvmeDmaWrite, State.pass_memOk, writeHome_memOk, OutOk, foldl_memOk, State.MemOk]

theorem loadMaps_memOk {s : State} (h : s.MemOk) :
    (loadMaps s).MemOk := by
  grind [loadMaps, loadMap_memOk, foldl_memOk]

/-- The device kernel writes the images of the maps and the owner table (R428). -/
theorem kernelStarts_memOk {s : State} (h : s.MemOk) : (kernelStarts s).MemOk := by
  have images := foldl_wf (f := fun m d => memWrite m (s.dieSt d).pmapbase.toNat recordImage)
    (fun _ _ hm => memWrite_wf _ _ hm) (List.range 9) h
  have written := memWrite_wf (Config.ownerTablePa.toNat + 7) [0x80] (memClear_wf Config.ownerTablePa.toNat (64 * 256) images)
  rw [State.MemOk, kernelStarts]
  dsimp only
  exact written ..

theorem bootDoes_memOk {s : State} (h : s.MemOk) (step : Nat) : (bootDoes s step).MemOk := by
  unfold bootDoes
  split
  · exact State.onDev_memOk h _
  · exact .of_wf (filter_wf _ h)
  · exact kernelStarts_memOk h
  · exact h

theorem bootStep_memOk {s : State} (h : s.MemOk) :
    (bootStep s).MemOk := by
  grind [bootStep, State.onDev_memOk, State.ownerEvent_memOk, bootDoes_memOk, State.MemOk]

theorem execBoot_memOk {s : State} (h : s.MemOk) (fail : BitVec 8) :
    OutOk (execBoot fail s) := by
  grind [execBoot, State.onDev_memOk, bootStep_memOk, OutOk]

theorem execSupplySag_memOk {s : State} (h : s.MemOk) (cluster : Nat) :
    OutOk (execSupplySag cluster s) := by
  grind [execSupplySag, State.updCluster_memOk, OutOk]

theorem execSupplyRestore_memOk {s : State} (h : s.MemOk) (cluster : Nat) :
    OutOk (execSupplyRestore cluster s) := by
  grind [execSupplyRestore, State.updCluster_memOk, OutOk]

theorem execPowerLimitAdjust_memOk {s : State} (h : s.MemOk) (watts : Nat) (clocks : List (Nat × Nat)) :
    OutOk (execPowerLimitAdjust watts clocks s) := by
  grind [execPowerLimitAdjust, State.updCluster_memOk, State.onDev_memOk, OutOk, foldl_memOk]

theorem execThermalThrottle_memOk {s : State} (h : s.MemOk) (die : Nat) :
    OutOk (execThermalThrottle die s) := by
  grind [execThermalThrottle, State.updCluster_memOk, State.updDie_memOk, OutOk, foldl_memOk]

theorem execThermalShutdown_memOk {s : State} (h : s.MemOk) (_die : Nat) :
    OutOk (execThermalShutdown _die s) := by
  grind [execThermalShutdown, resetPackage_memOk, OutOk]

/-! ### What issues (`Machine/Issue`) -/

theorem fetchWord_memOk {s : State} (h : s.MemOk) (va : Word) :
    ActOk (·.2.MemOk) (fetchWord s va) := by
  grind [fetchWord, State.sealFrame_memOk, State.check_memOk, readBytes_memOk, = except_bind, ActOk]

theorem fetchChain_memOk {s : State} (h : s.MemOk) (fuel : Nat) (va : Word) (c : Chain) (ws : List Half) :
    ActOk (·.2.MemOk) (fetchChain fuel s va c ws) := by
  induction fuel generalizing s va c ws with
  | zero => exact .error trivial
  | succ fuel ih =>
    rw [fetchChain]
    refine (fetchWord_memOk h va).bind fun r hr => ?_
    dsimp only
    split
    · exact .error trivial
    · exact ih (State.onCx_memOk hr _) ..
    · split
      · exact .error trivial
      · exact .ok (State.onCx_memOk hr _)

theorem fetch_memOk {s : State} (h : s.MemOk) :
    ActOk (·.2.MemOk) (fetch s) := by
  grind [fetch, fetchChain_memOk]

theorem takeStreams_memOk {s : State} (h : s.MemOk) (rs : List VReg) : ActOk State.MemOk (takeStreams rs s) := by
  induction rs generalizing s with
  | nil => exact .ok h
  | cons r rs ih => grind [takeStreams, takeStream_memOk, = except_bind, ActOk]

theorem State.begins_memOk {s : State} (h : s.MemOk) (i : Instr) (u : Uses) :
    (State.begins s i u).MemOk := h

theorem unstreamed_memOk {s : State} (h : s.MemOk) :
    (unstreamed s).MemOk := h

theorem blockedEnds_memOk {s : State} (h : s.MemOk) (i : Instr) {e : Stop} (he : e.MemOk) {o : Out} (ho : OutOk o) :
    OutOk (blockedEnds i s e o) := by
  have hf : OutOk (finish s (.error e)) := finish_memOk h (.error he)
  unfold blockedEnds
  grind

theorem countStep_memOk (s : State) {t : State} (ht : t.MemOk) (branch : Bool) :
    (countStep s t branch).MemOk := by
  grind [countStep, State.countEv_memOk]

theorem settle_memOk (s : State) {t : State} (ht : t.MemOk) (branch : Bool) :
    (settle branch s t).MemOk := by
  grind [settle, State.onCx_memOk, State.updCtx_memOk, State.updCore_memOk, State.updOwner_memOk, State.countEv_memOk,
    countStep_memOk]

/-! ### Every instruction (`Machine/Dispatch`) -/

/-- Every instruction. -/
theorem exec_memOk {s : State} (h : s.MemOk) (i : Instr) : OutOk (exec i s) := by
  cases i with
  | nop => exact execNop_memOk h
  | mov => exact execMov_memOk h ..
  | li => exact execLi_memOk h ..
  | lih => exact execLih_memOk h ..
  | add => exact execAdd_memOk h ..
  | sub => exact execSub_memOk h ..
  | mul => exact execMul_memOk h ..
  | mulh => exact execMulh_memOk h ..
  | mulhu => exact execMulhu_memOk h ..
  | div => exact execDiv_memOk h ..
  | divu => exact execDivu_memOk h ..
  | rem => exact execRem_memOk h ..
  | remu => exact execRemu_memOk h ..
  | and => exact execAnd_memOk h ..
  | or => exact execOr_memOk h ..
  | xor => exact execXor_memOk h ..
  | shl => exact execShl_memOk h ..
  | shr => exact execShr_memOk h ..
  | sra => exact execSra_memOk h ..
  | rotl => exact execRotl_memOk h ..
  | min => exact execMin_memOk h ..
  | max => exact execMax_memOk h ..
  | minu => exact execMinu_memOk h ..
  | maxu => exact execMaxu_memOk h ..
  | seq => exact execSeq_memOk h ..
  | slt => exact execSlt_memOk h ..
  | sltu => exact execSltu_memOk h ..
  | addi => exact execAddi_memOk h ..
  | andi => exact execAndi_memOk h ..
  | ori => exact execOri_memOk h ..
  | shli => exact execShli_memOk h ..
  | shri => exact execShri_memOk h ..
  | srai => exact execSrai_memOk h ..
  | slti => exact execSlti_memOk h ..
  | clz => exact execClz_memOk h ..
  | popc => exact execPopc_memOk h ..
  | sel => exact execSel_memOk h ..
  | ld => exact execLd_memOk h ..
  | ldx => exact execLdx_memOk h ..
  | st => exact execSt_memOk h ..
  | ldw => exact execLdw_memOk h ..
  | wmax => exact execWmax_memOk h ..
  | br => exact execBr_memOk h ..
  | bz => exact execBz_memOk h ..
  | bnz => exact execBnz_memOk h ..
  | bltz => exact execBltz_memOk h ..
  | bgez => exact execBgez_memOk h ..
  | call => exact execCall_memOk h ..
  | callr => exact execCallr_memOk h ..
  | jr => exact execJr_memOk h ..
  | jtab => exact execJtab_memOk h ..
  | bany => exact execBany_memOk h ..
  | bnone => exact execBnone_memOk h ..
  | ball => exact execBall_memOk h ..
  | mrd => exact execMrd_memOk h ..
  | mwr => exact execMwr_memOk h ..
  | time => exact execTime_memOk h ..
  | brk => exact execBrk_memOk h ..
  | sys => exact execSys_memOk h ..
  | vmov => exact execVmov_memOk h ..
  | vbcast => exact execVbcast_memOk h ..
  | vext => exact execVext_memOk h ..
  | vins => exact execVins_memOk h ..
  | vld => exact execVld_memOk h ..
  | vst => exact execVst_memOk h ..
  | vlds => exact execVlds_memOk h ..
  | vgath => exact execVgath_memOk h ..
  | vscat => exact execVscat_memOk h ..
  | vlsr => exact execVlsr_memOk h ..
  | vlsw => exact execVlsw_memOk h ..
  | vperm => exact execVperm_memOk h ..
  | vrot => exact execVrot_memOk h ..
  | vadd => exact execVadd_memOk h ..
  | vsub => exact execVsub_memOk h ..
  | vmul => exact execVmul_memOk h ..
  | vmulh => exact execVmulh_memOk h ..
  | vmin => exact execVmin_memOk h ..
  | vmax => exact execVmax_memOk h ..
  | vand => exact execVand_memOk h ..
  | vor => exact execVor_memOk h ..
  | vxor => exact execVxor_memOk h ..
  | vshl => exact execVshl_memOk h ..
  | vshr => exact execVshr_memOk h ..
  | vsra => exact execVsra_memOk h ..
  | vcmp => exact execVcmp_memOk h ..
  | vsel => exact execVsel_memOk h ..
  | vdot4 => exact execVdot4_memOk h ..
  | vmac => exact execVmac_memOk h ..
  | vrshr => exact execVrshr_memOk h ..
  | vclamp => exact execVclamp_memOk h ..
  | vfadd => exact execVfadd_memOk h ..
  | vfsub => exact execVfsub_memOk h ..
  | vfmul => exact execVfmul_memOk h ..
  | vfma => exact execVfma_memOk h ..
  | vfmin => exact execVfmin_memOk h ..
  | vfmax => exact execVfmax_memOk h ..
  | vfrcp => exact execVfrcp_memOk h ..
  | vfrsq => exact execVfrsq_memOk h ..
  | vfexp2 => exact execVfexp2_memOk h ..
  | vcvt => exact execVcvt_memOk h ..
  | vredadd => exact execVredadd_memOk h ..
  | vredmax => exact execVredmax_memOk h ..
  | vfred => exact execVfred_memOk h ..
  | mlog => exact execMlog_memOk h ..
  | mgang => exact execMgang_memOk h ..
  | mma => exact execMma_memOk h ..
  | mmas => exact execMmas_memOk h ..
  | mmat => exact execMmat_memOk h ..
  | tld => exact execTld_memOk h ..
  | tst => exact execTst_memOk h ..
  | tzero => exact execTzero_memOk h ..
  | mhint => exact execMhint_memOk h ..
  | mwait => exact execMwait_memOk h ..
  | mstat => exact execMstat_memOk h ..
  | crclr => exact execCrclr_memOk h ..
  | crflush => exact execCrflush_memOk h ..
  | crrd => exact execCrrd_memOk h ..
  | cradd => exact execCradd_memOk h ..
  | amoadd => exact execAmoadd_memOk h ..
  | amoand => exact execAmoand_memOk h ..
  | amoor => exact execAmoor_memOk h ..
  | amoxor => exact execAmoxor_memOk h ..
  | amomin => exact execAmomin_memOk h ..
  | amomax => exact execAmomax_memOk h ..
  | amominu => exact execAmominu_memOk h ..
  | amomaxu => exact execAmomaxu_memOk h ..
  | amoswp => exact execAmoswp_memOk h ..
  | amocas => exact execAmocas_memOk h ..
  | amofadd => exact execAmofadd_memOk h ..
  | mxacc => exact execMxacc_memOk h ..
  | prf => exact execPrf_memOk h ..
  | wtest => exact execWtest_memOk h ..
  | wwait => exact execWwait_memOk h ..
  | wfront => exact execWfront_memOk h ..
  | sca => exact execSca_memOk h ..
  | nrd => exact execNrd_memOk h ..
  | nwait => exact execNwait_memOk h ..
  | pclr => exact execPclr_memOk h ..
  | balloc => exact execBalloc_memOk h ..
  | bfree => exact execBfree_memOk h ..
  | bgive => exact execBgive_memOk h ..
  | bexportStart => exact execBexportStart_memOk h ..
  | bexportEnd => exact execBexportEnd_memOk h ..
  | spld => exact execSpld_memOk h ..
  | spst => exact execSpst_memOk h ..
  | cpy => exact execCpy_memOk h ..
  | cpym => exact execCpym_memOk h ..
  | cpyr => exact execCpyr_memOk h ..
  | sbind => exact execSbind_memOk h ..
  | sunbind => exact execSunbind_memOk h ..
  | lndset => exact execLndset_memOk h ..
  | lndwait => exact execLndwait_memOk h ..
  | lndrelBuffer => exact execLndrelBuffer_memOk h ..
  | lndrelDismantle => exact execLndrelDismantle_memOk h ..
  | waita => exact execWaita_memOk h ..
  | spstat => exact execSpstat_memOk h ..
  | spawn => exact execSpawn_memOk h ..
  | endf => exact execEndf_memOk h
  | arm => exact execArm_memOk h ..
  | disarm => exact execDisarm_memOk h ..
  | cntadd => exact execCntadd_memOk h ..
  | cntrd => exact execCntrd_memOk h ..
  | lvopen => exact execLvopen_memOk h ..
  | lvwait => exact execLvwait_memOk h ..
  | lvcancel => exact execLvcancel_memOk h ..
  | lvstat => exact execLvstat_memOk h ..
  | bara => exact execBara_memOk h ..
  | barw => exact execBarw_memOk h ..
  | barcfg => exact execBarcfg_memOk h ..
  | hspawn => exact execHspawn_memOk h ..
  | hstop => exact execHstop_memOk h
  | expose => exact execExpose_memOk h
  | yieldf => exact execYieldf_memOk h
  | self => exact execSelf_memOk h ..
  | crd => exact execCrd_memOk h ..
  | cwr => exact execCwr_memOk h ..
  | seedInstall => exact execSeedInstall_memOk h ..
  | tret => exact execTret_memOk h
  | tlbinv => exact execTlbinv_memOk h ..
  | tlbprobe => exact execTlbprobe_memOk h ..
  | pmapw => exact execPmapw_memOk h ..
  | pmaprd => exact execPmaprd_memOk h ..
  | trcmark => exact execTrcmark_memOk h ..
  | trcctlOpen => exact execTrcctlOpen_memOk h ..
  | trcctlClose => exact execTrcctlClose_memOk h ..
  | trcctlGrant => exact execTrcctlGrant_memOk h ..
  | trcctlWithdraw => exact execTrcctlWithdraw_memOk h ..
  | trcctlStatus => exact execTrcctlStatus_memOk h ..
  | mpass => exact execMpass_memOk h ..
  | evsel => exact execEvsel_memOk h ..
  | evrd => exact execEvrd_memOk h ..
  | rplctlStop a b c => exact execRplctlStop_memOk h a b c
  | rplctlRecord => exact execRplctlRecord_memOk h ..
  | rplctlReplay => exact execRplctlReplay_memOk h ..
  | rplctlStatus a b c => exact execRplctlStatus_memOk h a b c
  | ctxsave => exact execCtxsave_memOk h ..
  | ctxload => exact execCtxload_memOk h ..
  | idle => exact execIdle_memOk h
  | reseed => exact execReseed_memOk h ..
  | xq => exact execXq_memOk h ..
  | xdraw => exact execXdraw_memOk h ..
  | daccrd => exact execDaccrd_memOk h ..
  | daccclr => exact execDaccclr_memOk h ..
  | umrd => exact execUmrd_memOk h ..
  | qset => exact execQset_memOk h ..
  | qrd => exact execQrd_memOk h ..
  | measure => exact execMeasure_memOk h ..
  | attestReport => exact execAttestReport_memOk h ..
  | attestDecapsulate => exact execAttestDecapsulate_memOk h ..
  | trapEntry => exact execTrapEntry_memOk h ..
  | tdlineDeadline => exact execTdlineDeadline_memOk h ..
  | leaseExpiry => exact execLeaseExpiry_memOk h ..
  | homeApply => exact execHomeApply_memOk h ..
  | witnessDelivered => exact execWitnessDelivered_memOk h ..
  | refusalReport => exact execRefusalReport_memOk h ..
  | lostReport => exact execLostReport_memOk h ..
  | dirtyWriteback => exact execDirtyWriteback_memOk h ..
  | crFold => exact execCrFold_memOk h ..
  | replSequence => exact execReplSequence_memOk h ..
  | replReplicaApply => exact execReplReplicaApply_memOk h ..
  | replMark => exact execReplMark_memOk h
  | classChangeComplete => exact execClassChangeComplete_memOk h ..
  | announcePresent => exact execAnnouncePresent_memOk h ..
  | gauzeWindowApply => exact execGauzeWindowApply_memOk h
  | matrixOpStart => exact execMatrixOpStart_memOk h ..
  | matrixOpComplete => exact execMatrixOpComplete_memOk h ..
  | gangTimeout => exact execGangTimeout_memOk h ..
  | sliceRampDown => exact execSliceRampDown_memOk h ..
  | laneStoreClear => exact execLaneStoreClear_memOk h ..
  | copyEnqueue => exact execCopyEnqueue_memOk h ..
  | copyStart => exact execCopyStart_memOk h ..
  | copyComplete => exact execCopyComplete_memOk h ..
  | inboundDelivery => exact execInboundDelivery_memOk h ..
  | counterMessageApply => exact execCounterMessageApply_memOk h ..
  | triggerFirePush => exact execTriggerFirePush_memOk h ..
  | dequePushRetry => exact execDequePushRetry_memOk h ..
  | firingDispatch => exact execFiringDispatch_memOk h ..
  | stealRequest => exact execStealRequest_memOk h ..
  | stealReply => exact execStealReply_memOk h ..
  | firingRedispatch => exact execFiringRedispatch_memOk h ..
  | preemption => exact execPreemption_memOk h ..
  | suspendedResume => exact execSuspendedResume_memOk h ..
  | waitaPoll => exact execWaitaPoll_memOk h ..
  | waitaWake => exact execWaitaWake_memOk h ..
  | instrWaitEnd => exact execInstrWaitEnd_memOk h ..
  | barrierTimeout => exact execBarrierTimeout_memOk h ..
  | quotaInterval => exact execQuotaInterval_memOk h ..
  | mpassPassEnd => exact execMpassPassEnd_memOk h ..
  | replayHoldTimeout => exact execReplayHoldTimeout_memOk h ..
  | uncorrectableError => exact execUncorrectableError_memOk h ..
  | linkCrcRetry => exact execLinkCrcRetry_memOk h ..
  | edgeLinkFail => exact execEdgeLinkFail_memOk h ..
  | coreFail => exact execCoreFail_memOk h ..
  | clusterFail => exact execClusterFail_memOk h ..
  | dieFail => exact execDieFail_memOk h ..
  | groupFatalFault => exact execGroupFatalFault_memOk h ..
  | crossTriggerHalt => exact execCrossTriggerHalt_memOk h ..
  | haltResume => exact execHaltResume_memOk h ..
  | crashDump => exact execCrashDump_memOk h
  | inboundRequest => exact execInboundRequest_memOk h ..
  | apertureCounterWrite => exact execApertureCounterWrite_memOk h ..
  | qreset => exact execQreset_memOk h ..
  | mbox => exact execMbox_memOk h ..
  | hostCtrlWrite off w => exact execHostCtrlWrite_memOk h off w
  | functionLevelReset => exact execFunctionLevelReset_memOk h
  | nvmeDmaWrite => exact execNvmeDmaWrite_memOk h ..
  | boot => exact execBoot_memOk h ..
  | supplySag => exact execSupplySag_memOk h ..
  | supplyRestore => exact execSupplyRestore_memOk h ..
  | powerLimitAdjust => exact execPowerLimitAdjust_memOk h ..
  | thermalThrottle => exact execThermalThrottle_memOk h ..
  | thermalShutdown die => exact execThermalShutdown_memOk h die
  | homeSliceFail => exact execHomeSliceFail_memOk h ..
  | nearTierDataArraysFail => exact execNearTierDataArraysFail_memOk h ..
  | mhintHoldEnd => exact execMhintHoldEnd_memOk h ..

/-! ### What happens beside the instruction (`Machine/Aside`) -/

theorem setAside_memOk {s : State} (h : s.MemOk) :
    (setAside s).MemOk := by
  grind [setAside, State.onCx_memOk]

theorem asideRun_memOk {s : State} (h : s.MemOk) :
    (asideRun s).MemOk := by
  grind [asideRun, State.onCx_memOk, State.countEv_memOk, State.engineFault_memOk, State.begins_memOk, exec_memOk, OutOk]

theorem asideGoes_memOk {s : State} (h : s.MemOk) (c : CtxId) :
    (asideGoes s c).MemOk := by
  grind [asideGoes, State.asCtx_memOk, asideRun_memOk]

theorem setsAsideAt_memOk {s : State} (h : s.MemOk) (c : CtxId) :
    (setsAsideAt s c).MemOk := by
  grind [setsAsideAt, State.asCtx_memOk, setAside_memOk]

/-! ### What is ready (`Machine/Ready`) -/

theorem samples_memOk {s : State} (h : s.MemOk) (c : CtxId) (va : Word) (n : Nat) :
    (samples s c va n).MemOk := by
  grind [samples, State.asCtx_memOk, State.readAhead_memOk]

theorem vectorAhead_memOk {s : State} (h : s.MemOk) (c : CtxId) (r : VReg) :
    (vectorAhead s c r).MemOk := by
  grind [vectorAhead, State.asCtx_memOk, streamAhead_memOk]

theorem lags_memOk {s : State} (h : s.MemOk) (c : CtxId) :
    (lags s c).MemOk := by
  grind [lags, State.updCtx_memOk]

theorem sysStore_memOk {s : State} (h : s.MemOk) (pa : Nat) (data : List Byte) : (sysStore s pa data).MemOk := by
  refine foldl_memOk h _ fun t p ht => ?_
  dsimp only
  split
  · exact ht.write _ _
  · split
    · exact ht
    · exact writeHome_memOk (State.pass_memOk ht ..) ..

theorem sysPush_memOk {s : State} (h : s.MemOk) (core oid : Nat) (record : BitVec 512) (addr : Word) :
    (sysPush s core oid record addr).MemOk := by
  grind [sysPush, State.updOwner_memOk, levelAdd_memOk, levelDrop_memOk, pushDeque_memOk, ChkOk, OptOk]

/-- Everything in a list that may happen keeps the form of memory. -/
def AllKeep (l : List Happening) : Prop := ∀ f ∈ l, ∀ t : State, t.MemOk → (f t).MemOk

theorem AllKeep.nil : AllKeep [] := fun _ hf => absurd hf List.not_mem_nil

theorem AllKeep.one {f : Happening} (h : ∀ t : State, t.MemOk → (f t).MemOk) : AllKeep [f] := fun g hg => by
  rwa [List.mem_singleton.1 hg]

theorem AllKeep.append {l m : List Happening} (hl : AllKeep l) (hm : AllKeep m) : AllKeep (l ++ m) := fun f hf =>
  (List.mem_append.1 hf).elim (hl f) (hm f)

theorem AllKeep.map {α : Type} {l : List α} {f : α → Happening} (h : ∀ a (t : State), t.MemOk → (f a t).MemOk) :
    AllKeep (l.map f) := fun g hg => by
  obtain ⟨a, -, rfl⟩ := List.mem_map.1 hg
  exact h a

theorem AllKeep.flatten {α : Type} {l : List α} {f : α → List Happening} (h : ∀ a, AllKeep (f a)) : AllKeep (l.map f).flatten :=
  fun g hg => by
    obtain ⟨m, hm, hg⟩ := List.mem_flatten.1 hg
    obtain ⟨a, -, rfl⟩ := List.mem_map.1 hm
    exact h a g hg

theorem AllKeep.either {c : Prop} [Decidable c] {l m : List Happening} (hl : AllKeep l) (hm : AllKeep m) :
    AllKeep (if c then l else m) := by
  split
  · exact hl
  · exact hm

/-- What may happen on a condition. -/
theorem AllKeep.onlyIf {c : Prop} [Decidable c] {f : Happening} (h : ∀ t : State, t.MemOk → (f t).MemOk) :
    AllKeep (if c then [f] else []) := .either (.one h) .nil

theorem readyCtx_keep (s : State) (c : CtxId) : AllKeep (readyCtx s c) := by
  have next : AllKeep (match pendingCause s (s.ctxOf c) with
      | some .preempt => if (preemptCtx s c none true).1 == .waits then [] else [fun s => preempted s c]
      | some _ => [fun s => s.asCtx c boundaryTrap]
      | none =>
        match (s.ctxOf c).wait with
        | none => if c == s.cur then [] else [fun s => s.switchTo c]
        | some w =>
          (if waitOver s c w then [fun s => enqueueWait (wakeWait (pollWait (endWait s c) c) c) c] else []) ++
          (if (asideOf (s.switchTo c)).isSome then [fun s => setsAsideAt s c] else [])) := by
    split
    · exact .either .nil (.one fun _ ht => preempted_memOk ht ..)
    · exact .one fun _ ht => State.asCtx_memOk ht _ fun _ hu => boundaryTrap_memOk hu
    · split
      · exact .either .nil (.one fun _ ht => State.switchTo_memOk ht _)
      · exact .append (.onlyIf fun _ ht => enqueueWait_memOk (wakeWait_memOk (pollWait_memOk (endWait_memOk ht _) _) _) _)
          (.onlyIf fun _ ht => setsAsideAt_memOk ht _)
  exact .either .nil (.append (.append (.map fun _ _ ht => witnessArrives_memOk ht ..) (.onlyIf fun _ ht => asideGoes_memOk ht _)) next)

theorem readyFlight_keep (s : State) (f : Flight) : AllKeep (readyFlight s f) := by
  have applies {c : Prop} [Decidable c] : AllKeep (if c then [fun s => homeStep s f.id] else []) :=
    .onlyIf fun _ ht => homeStep_memOk ht _
  unfold readyFlight
  split
  · exact .one fun _ ht => refusalArrives_memOk ht _
  · split
    · exact .one fun _ ht => lossArrives_memOk ht _
    · split
      · exact applies
      · exact .either (.one fun _ ht => sequencerTakes_memOk ht _) applies

theorem readyCore_keep (s : State) (core : Nat) (k : CoreSt) : AllKeep (readyCore s core k) :=
  .append (.append (.append (.append (.append (.append (.append
    (.onlyIf fun _ ht => gangExpires_memOk (startOp_memOk ht _) _)
    (.onlyIf fun _ ht => completeOp_memOk ht _))
    (.onlyIf fun _ ht => rampDown_memOk (holdEnds_memOk ht _) _))
    (.onlyIf fun _ ht => laneCleared_memOk ht _))
    (.onlyIf fun _ ht => announcing_memOk ht _))
    (.onlyIf fun _ ht => (retryPush_memOk ht _).getD ht))
    (.map fun _ _ ht => dispatch_memOk ht _))
    (.onlyIf fun _ ht => stealAsk_memOk ht _)

theorem readyCluster_keep (s : State) (cluster : Nat) (k : ClusterSt) : AllKeep (readyCluster s cluster k) :=
  .append (.onlyIf fun _ ht => copyBegins_memOk ht _) (.map fun _ _ ht => copyGoes_memOk ht ..)

theorem readyDie_keep (s : State) (die : Nat) (d : DieSt) : AllKeep (readyDie s die d) :=
  .map fun _ _ ht => barrierExpires_memOk ht ..

theorem readyOwner_keep (s : State) (oid : Nat) (o : OwnerSt) : AllKeep (readyOwner s oid o) :=
  .append (.onlyIf fun _ ht => endPass_memOk ht _) (.either (.map fun _ _ ht => resumeSuspended_memOk ht ..) .nil)

theorem readyHolds_keep (s : State) : AllKeep (readyHolds s) := .map fun _ _ ht => holdExpires_memOk ht _

/-- Whatever may happen next. -/
theorem ready_keep (s : State) : AllKeep (ready s) :=
  .append (.append (.append (.append (.append (.append (.append (.append (.append (.append (.append (.append (.append (.append (.append
    (.append (.append (.append
    (.onlyIf fun _ ht => bootStep_memOk ht)
    (.flatten fun p => readyCtx_keep s p.1))
    (.map fun _ _ ht => ghostGoes_memOk ht _))
    (.flatten (readyFlight_keep s)))
    (.either (.onlyIf fun _ ht => markReplicas_memOk ht) (.map fun _ _ ht => replicaApply_memOk ht _)))
    (.flatten fun k => readyCore_keep s k.1 k.2))
    (.flatten fun k => readyCluster_keep s k.1 k.2))
    (.flatten fun d => readyDie_keep s d.1 d.2))
    (.flatten fun o => readyOwner_keep s o.1 o.2))
    (.map fun _ _ ht => deliver_memOk ht _))
    (.map fun _ _ ht => fireArrives_memOk ht _))
    (.map fun _ _ ht => stealAnswer_memOk ht _))
    (.map fun _ _ ht => redispatch_memOk ht _))
    (.map fun _ _ ht => classChanged_memOk ht _))
    (.map fun _ _ ht => partialFolds_memOk ht ..))
    (.map fun _ _ ht => inUnit_memOk ht _))
    (.onlyIf fun _ ht => (inGoes_memOk ht).getD ht))
    (.map fun _ _ ht => leaseEnds_memOk ht ..))
    (readyHolds_keep s)

theorem internalStep_memOk {s : State} (h : s.MemOk) : (internalStep s).MemOk := by
  have keep := ready_keep s
  unfold internalStep
  split
  · exact h
  · next heq => exact keep _ (heq ▸ List.mem_singleton_self _) s h
  · next f t _ heq =>
    rw [heq] at keep
    have chosen : Config.choice s.tick % (t.length + 1) < (f :: t).length := Nat.mod_lt _ (Nat.succ_pos _)
    rw [List.getD_eq_getElem _ _ chosen]
    exact keep _ (List.getElem_mem _) s h

theorem passTime_memOk {s : State} (h : s.MemOk) :
    (passTime s).MemOk := by
  grind [passTime, noteHolds_memOk, State.MemOk]

/-! ### The step (`Machine/Step`) -/

theorem onNext_memOk {o : Host.Outcome State Fault Refusal} (h : OutOk o) {f : State → State}
    (hf : ∀ t, t.MemOk → (f t).MemOk) : OutOk (onNext o f) := by
  cases o with
  | next s => exact .next (hf s (h.of_eq rfl))
  | fault r => exact .fault
  | refused r => exact .refused

theorem takeTurn_memOk {s : State} (h : s.MemOk) (t : Turn) :
    OutOk (takeTurn t s) := by
  unfold takeTurn
  grind [State.switchTo_memOk, State.updCluster_memOk, State.onDev_memOk, countCorrected_memOk, State.answers_memOk, exec_memOk,
    asideGoes_memOk, setsAsideAt_memOk, samples_memOk, vectorAhead_memOk, lags_memOk, sysStore_memOk, sysPush_memOk, OutOk]

theorem heldBack_memOk {s : State} (h : s.MemOk) {o : Host.Outcome State Fault Refusal} (ho : OutOk o) :
    OutOk (heldBack s o) := by
  unfold heldBack
  split
  · split
    · exact finish_memOk h (.error trivial)
    · exact ho
  · exact ho

/-- What issue leaves: an outcome, or an instruction and the state in which it runs. -/
def Issued.MemOk (i : Issued) : Prop :=
  match i with
  | .stop o => OutOk o
  | .run _ t => t.MemOk
  | .blocked _ t e => t.MemOk ∧ e.MemOk

/-! ### What issues (`Machine/Issue`) -/

theorem issue_memOk {s : State} (h : s.MemOk) : (issue s).MemOk := by
  have ends {t : State} (ht : t.MemOk) (w : Wait) : OutOk (finish t (.error (.wait w none))) := finish_memOk ht (.error trivial)
  have h0 := State.onCx_memOk h fun k => { k with trapped := false, since := s.now, firstId := s.net.nextId }
  unfold issue
  dsimp only
  split
  · next heq => exact finish_memOk h0 (.error ((fetch_memOk h0).of_error heq))
  · next i t heq =>
    have ht : t.MemOk := (fetch_memOk h0).of_eq heq
    split
    · exact OutOk.next (helperStop_memOk ht)
    · split
      · exact ends ht _
      · split
        · exact ends ht _
        · split
          · exact ends ht _
          · have hb := State.begins_memOk ht (selectForm i t) (usesOf (selectForm i t))
            split
            · exact ⟨hb, trivial⟩
            · split
              · next heq => exact ⟨hb, (takeStreams_memOk hb _).of_error heq⟩
              · next heq => exact (takeStreams_memOk hb _).of_eq heq

/-! ### The step (`Machine/Step`) -/

theorem runInstr_memOk {s : State} (h : s.MemOk) : OutOk (runInstr s) := by
  have settled (b : Bool) (t : State) (ht : t.MemOk) := settle_memOk s ht b
  have issued := issue_memOk h
  unfold runInstr
  split
  · exact finish_memOk h (.error trivial)
  · split
    · next heq => rw [heq] at issued; exact onNext_memOk (heldBack_memOk h issued) (settled _)
    · next heq => rw [heq] at issued; exact onNext_memOk (heldBack_memOk issued (exec_memOk issued _)) (settled _)
    · next heq =>
      rw [heq] at issued
      obtain ⟨ht, he⟩ := issued
      exact onNext_memOk (heldBack_memOk ht (blockedEnds_memOk ht _ he (exec_memOk (unstreamed_memOk ht) _))) (settled _)

theorem proceed_memOk {s : State} (h : s.MemOk) : OutOk (proceed s) := by
  have internal := internalStep_memOk h
  unfold proceed
  split
  · split
    · split
      · exact .next internal
      · exact .next (preempted_memOk h _)
    · exact .next (boundaryTrap_memOk h)
    · split
      · split
        · exact .next (setAside_memOk h)
        · exact .next internal
      · exact runInstr_memOk (collectCopies_memOk h)
  · exact .next internal

theorem act_memOk {s : State} (h : s.MemOk) : OutOk (act s) := by
  have planned (p : List Turn) : { s with plan := p }.MemOk := h
  unfold act
  split
  · exact .fault
  · split
    · exact .next (groupFault_memOk h _)
    · split
      · exact .next (applyWindow_memOk h)
      · split
        · exact .next (endIntervals_memOk h)
        · split
          · exact takeTurn_memOk (planned _) _
          · split
            · exact .fault
            · exact proceed_memOk h

theorem step_memOk {s : State} (h : s.MemOk) : OutOk (step s) := onNext_memOk (act_memOk h) fun _ ht => passTime_memOk ht

end Sys2Proof.Machine

open Sys2Proof.Machine in
/-- Settles O47, by one lemma for each function that gives a state: what it is given with its memory in canonical form, it leaves so.
Only `memWrite`, `memPut`, `memClear`, `memCopy` and the filter of a reset touch the list itself. -/
theorem stepKeepsMemoryForm : Obligations.StepKeepsMemoryForm := by
  unfold Obligations.StepKeepsMemoryForm
  intro s t hs ht
  exact (step_memOk hs).of_eq ht

end

section
/-! The lane store (R17, R140), where the table of cores does not stand in rising order. -/

namespace Sys2Proof.Machine

open Claim

/-- A package in which context 0 of core 0 runs and holds the lane store, and core 1 stands before core 0 in the table of cores. -/
def heldOutOfOrder : State :=
  { State.reset with cores := [(1, {}), (0, { laneHolder := some 0 })] }

theorem heldOutOfOrder_holds : (heldOutOfOrder.coreSt heldOutOfOrder.coreNo).laneHolder = some heldOutOfOrder.cur.which := rfl

/-- The lane store that it holds has no poisoned chunk. -/
theorem heldOutOfOrder_lanePoison : (heldOutOfOrder.coreSt heldOutOfOrder.coreNo).lanePoison = [] := rfl

/-- VLSR of the context that holds the lane store leaves the table of cores as it is. -/
theorem execVlsr_heldOutOfOrder_cores {t : State} (h : exec (.vlsr 0 0 .s32 0) heldOutOfOrder = .next t) :
    t.cores.length = 2 := by
  have stays : ∃ u, exec (.vlsr 0 0 .s32 0) heldOutOfOrder = .next u ∧ u.cores.length = 2 := ⟨_, rfl, rfl⟩
  obtain ⟨u, hu, two⟩ := stays
  cases hu.symm.trans h
  exact two

/-- An update of core 0 puts it a second time into the table, before core 1. -/
theorem updCore_heldOutOfOrder_cores (f : CoreSt → CoreSt) :
    (heldOutOfOrder.updCore heldOutOfOrder.coreNo f).cores.length = 3 := rfl

end Sys2Proof.Machine

open Sys2Proof Machine Claim in
/-- Refutes O12: `heldOutOfOrder`. What VLSR of the holder leaves is said there of the state after an update of its core, which a table
that does not stand in rising order takes as one more entry; VLSR itself changes no core. -/
theorem not_laneStore : ¬ Obligations.LaneStore := by
  unfold Obligations.LaneStore
  intro h
  obtain ⟨reads, -⟩ := h heldOutOfOrder 0 0 .s32 0 (.inl heldOutOfOrder_holds)
  obtain ⟨t, ht, w, hw, -⟩ := reads fun i _ _ => by simp [heldOutOfOrder_lanePoison]
  have three := congrArg (fun u => u.cores.length) hw.rest
  rw [execVlsr_heldOutOfOrder_cores ht] at three
  exact absurd three (by rw [updCore_heldOutOfOrder_cores]; decide)
end

section

/-! What the engines hold and wait for: the deques, the pushes that wait, the buffers, the copies, and what is on its way. One rule for
each function that an engine calls: which of them it leaves as they were. -/

namespace Sys2Proof.Machine

open Sys2Proof

/-- What the engines hold and wait for: the deques and the pushes that wait at the cores, the buffers and the queued copies of the
clusters, the fires at the homes, and the deliveries, steals and records to dispatch again that are on their way. -/
@[ext] structure Units where
  deques : Nat → List DequeEntry
  pends : Nat → List PendPush
  bufs : Nat → Tab Buf
  copies : Nat → List (Nat × CtxId)
  fires : List Fire
  inbound : List Delivery
  steals : List Steal
  redispatch : List Redispatch

/-- The units of a state. -/
def State.units (s : State) : Units where
  deques n := (s.coreSt n).deque
  pends n := (s.coreSt n).pendPush
  bufs n := (s.clusterSt n).bufs
  copies n := (s.clusterSt n).copyQ.map fun q => (q.tag, q.ctx)
  fires := s.home.fires
  inbound := s.net.inbound
  steals := s.net.steals
  redispatch := s.net.redispatch

theorem State.updCore_units (s : State) (n : Nat) (f : CoreSt → CoreSt) (hd : (f (s.coreSt n)).deque = (s.coreSt n).deque)
    (hp : (f (s.coreSt n)).pendPush = (s.coreSt n).pendPush) : (s.updCore n f).units = s.units := by
  have deques (k : Nat) : ((s.updCore n f).coreSt k).deque = (s.coreSt k).deque := by
    rw [State.coreSt_updCore]
    split
    · next h => rw [hd, h]
    · rfl
  have pends (k : Nat) : ((s.updCore n f).coreSt k).pendPush = (s.coreSt k).pendPush := by
    rw [State.coreSt_updCore]
    split
    · next h => rw [hp, h]
    · rfl
  simp only [State.units, deques, pends]
  rfl

theorem State.updCluster_units (s : State) (n : Nat) (f : ClusterSt → ClusterSt)
    (hb : (f (s.clusterSt n)).bufs = (s.clusterSt n).bufs)
    (hq : ((f (s.clusterSt n)).copyQ.map fun q => (q.tag, q.ctx)) = (s.clusterSt n).copyQ.map fun q => (q.tag, q.ctx)) :
    (s.updCluster n f).units = s.units := by
  have bufs (k : Nat) : ((s.updCluster n f).clusterSt k).bufs = (s.clusterSt k).bufs := by
    rw [State.clusterSt_updCluster]
    split
    · next h => rw [hb, h]
    · rfl
  have copies (k : Nat) : (((s.updCluster n f).clusterSt k).copyQ.map fun q => (q.tag, q.ctx)) =
      (s.clusterSt k).copyQ.map fun q => (q.tag, q.ctx) := by
    rw [State.clusterSt_updCluster]
    split
    · next h => rw [hq, h]
    · rfl
  simp only [State.units, bufs, copies]
  rfl

/-- A fold of steps that leave the units alone. -/
theorem foldl_units {α : Type} {f : State → α → State} (hf : ∀ s a, (f s a).units = s.units) (s : State) (l : List α) :
    (l.foldl f s).units = s.units := by
  induction l generalizing s with
  | nil => rfl
  | cons a l ih => exact (ih _).trans (hf s a)

/-- A change of the copies that keeps the tag and the context of each. -/
theorem State.onCopies_units (s : State) (cluster : Nat) (p : CopyOp → Bool) (f : CopyOp → CopyOp)
    (hf : ∀ q, (f q).tag = q.tag ∧ (f q).ctx = q.ctx) : (s.onCopies cluster p f).units = s.units := by
  refine State.updCluster_units s cluster _ rfl ?_
  simp only [lupd, List.map_map]
  refine List.map_congr_left fun q _ => ?_
  simp only [Function.comp_apply]
  split
  · rw [(hf q).1, (hf q).2]
  · rfl

theorem Chk.act_units {s : State} {α : Type} {c : Chk (α × State)} (h : ChkOk (·.2.units = s.units) c) :
    ChkOk (·.2.units = s.units) c.act := by
  cases c with
  | ok r => exact .ok (h.of_eq rfl)
  | error f => exact .error

theorem State.units_of_eq {s t : State} (hc : t.cores = s.cores) (hl : t.clusters = s.clusters) (hh : t.home = s.home)
    (hn : t.net = s.net) : t.units = s.units := by
  unfold State.units State.coreSt State.clusterSt
  rw [hc, hl, hh, hn]

/-- The units are as they were, but for the fires at the homes. -/
def State.SameButFires (s t : State) : Prop := t.units = { s.units with fires := t.home.fires }

namespace State.SameButFires

theorem refl (s : State) : s.SameButFires s := rfl

theorem of_units {s t u : State} (h : s.SameButFires t) (e : u.units = t.units) : s.SameButFires u := by
  have fires : u.home.fires = t.home.fires := congrArg Units.fires e
  rw [SameButFires, e, fires]
  exact h

theorem trans {s t u : State} (h : s.SameButFires t) (k : t.SameButFires u) : s.SameButFires u := by
  rw [SameButFires] at h k ⊢
  rw [k, h]

theorem onHome {s t : State} (h : s.SameButFires t) (f : HomeSt → HomeSt) : s.SameButFires (t.onHome f) :=
  trans h (rfl : (t.onHome f).units = { t.units with fires := (t.onHome f).home.fires })

end State.SameButFires

/-- The units are as they were, but for the deque of one core. -/
def State.SameButDeque (core : Nat) (s t : State) : Prop :=
  t.units = { s.units with deques := fun n => if core = n then (t.coreSt core).deque else (s.coreSt n).deque }

namespace State.SameButDeque

theorem refl {core : Nat} (s : State) : s.SameButDeque core s := by
  refine Units.ext (funext fun n => ?_) rfl rfl rfl rfl rfl rfl rfl
  show _ = if core = n then (s.coreSt core).deque else (s.coreSt n).deque
  split
  · next h => rw [h]; rfl
  · rfl

theorem of_units {core : Nat} {s t u : State} (h : s.SameButDeque core t) (e : u.units = t.units) : s.SameButDeque core u := by
  have deque : (u.coreSt core).deque = (t.coreSt core).deque := congrFun (congrArg Units.deques e) core
  rw [SameButDeque, e, deque]
  exact h

theorem other {core n : Nat} {s t : State} (h : s.SameButDeque core t) (hn : core ≠ n) :
    (t.coreSt n).deque = (s.coreSt n).deque := by
  have := congrFun (congrArg Units.deques h) n
  simpa [State.units, hn] using this

theorem trans {core : Nat} {s t u : State} (h : s.SameButDeque core t) (k : t.SameButDeque core u) : s.SameButDeque core u := by
  have others : (fun n => if core = n then (u.coreSt core).deque else (t.coreSt n).deque) =
      fun n => if core = n then (u.coreSt core).deque else (s.coreSt n).deque := by
    funext n
    split
    · rfl
    · next hn => exact h.other hn
  rw [SameButDeque] at h k ⊢
  rw [k, others, h]

end State.SameButDeque

/-- An entry stands in a deque, in the core or spilled to memory. -/
def Listed (e : DequeEntry) (d : List DequeEntry) : Prop := ∃ x ∈ d, { x with spill := e.spill } = e

theorem Listed.set {e x : DequeEntry} {d : List DequeEntry} {i : Nat} {p : Option Nat} (h : Listed e d) (hx : d[i]? = some x) :
    Listed e (d.set i { x with spill := p }) := by
  obtain ⟨y, hy, same⟩ := h
  obtain ⟨j, hj, rfl⟩ := List.getElem_of_mem hy
  obtain ⟨hi, rfl⟩ := List.getElem?_eq_some_iff.1 hx
  by_cases hij : i = j
  · subst hij
    exact ⟨_, List.mem_set (by simpa using hi) _, same⟩
  · exact ⟨d[j], List.mem_iff_getElem.2 ⟨j, by simpa using hj, by rw [List.getElem_set_ne hij]⟩, same⟩

@[simp] theorem State.onCx_units (s : State) (f : Ctx → Ctx) : (s.onCx f).units = s.units := rfl

@[simp] theorem State.setCtx_units (s : State) (c : CtxId) (k : Ctx) : (s.setCtx c k).units = s.units := by
  unfold State.setCtx
  split <;> rfl

@[simp] theorem State.updCtx_units (s : State) (c : CtxId) (f : Ctx → Ctx) : (s.updCtx c f).units = s.units := by
  unfold State.updCtx
  split
  · rfl
  · split <;> rfl

@[simp] theorem State.updDie_units (s : State) (n : Nat) (f : DieSt → DieSt) : (s.updDie n f).units = s.units := rfl

@[simp] theorem State.updOwner_units (s : State) (n : Nat) (f : OwnerSt → OwnerSt) : (s.updOwner n f).units = s.units := rfl

theorem State.onHome_units (s : State) (f : HomeSt → HomeSt) (hf : (f s.home).fires = s.home.fires) :
    (s.onHome f).units = s.units := by
  simp only [State.units, State.onHome, hf]
  rfl

theorem State.onNet_units (s : State) (f : NetSt → NetSt) (hi : (f s.net).inbound = s.net.inbound)
    (hs : (f s.net).steals = s.net.steals) (hr : (f s.net).redispatch = s.net.redispatch) : (s.onNet f).units = s.units := by
  simp only [State.units, State.onNet, hi, hs, hr]
  rfl

@[simp] theorem State.sysEvent_units (s : State) (e : SysEvent) : (s.sysEvent e).units = s.units := by
  unfold State.sysEvent
  split <;> exact State.units_of_eq rfl rfl rfl rfl

@[simp] theorem State.countEv_units (s : State) (c : CtxId) (code n oid launch : Nat) :
    (s.countEv c code n oid launch).units = s.units := by
  unfold State.countEv
  split
  · rfl
  · exact State.updCore_units _ _ _ rfl rfl

theorem State.response_units (s : State) (idx : Nat) :
    (State.response s idx).units = s.units := by
  grind [State.response, State.onCx_units, ChkOk, OptOk]

theorem State.draw_units (s : State) (oid cls idx : Nat) :
    (State.draw s oid cls idx).2.units = s.units := by
  grind [State.draw, State.updOwner_units]

@[simp] theorem State.pass_units (s : State) (oid : Nat) (path : List (Nat × Nat)) : (s.pass oid path).units = s.units := rfl

theorem State.travel_units (s : State) (c : CtxId) (oid key : Nat) :
    (State.travel s c oid key).units = s.units := by
  grind [State.travel, State.pass_units, = except_map, ChkOk, OptOk]

theorem State.dropCopy_units (s : State) (a : CacheId) (line : Nat) :
    (State.dropCopy s a line).units = s.units := by
  grind [State.dropCopy, State.onHome_units]

theorem State.putCopy_units (s : State) (c : Copy) :
    (State.putCopy s c).units = s.units := by
  grind [State.putCopy, State.onHome_units]

@[simp] theorem State.stampWrite_units (s : State) (c : CtxId) (id : Option Nat) (t : Stamp) :
    (s.stampWrite c id t).units = s.units := (State.updCtx_units _ _ _).trans (State.onNet_units _ _ rfl rfl rfl)

@[simp] theorem touchHome_units (s : State) (c : CtxId) (oid owner line : Nat) (write paid : Bool) :
    (touchHome s c oid owner line write paid).units = s.units :=
  State.updCore_units s c.core
    (fun k => { k with perf := ((homeTouched s c oid owner line write paid).coreSt c.core).perf }) rfl rfl

theorem reachFor_units (s : State) (c : CtxId) (oid owner line : Nat) (arrived : Option Bool) :
    (reachFor s c oid owner line arrived).units = s.units := by
  grind [reachFor, State.pass_units, State.travel_units, touchHome_units, = except_map, ChkOk, OptOk]

theorem State.sealFrame_units (s : State) (w : Who) (e : Word) (pa : Nat) :
    (State.sealFrame s w e pa).units = s.units := by
  grind [State.sealFrame, State.onHome_units]

theorem tlbFill_units (s : State) (payer : Nat) (es : List TlbEntry) (cap idx : Nat) (e : TlbEntry) :
    (tlbFill s payer es cap idx e).2.units = s.units := by
  grind [tlbFill, State.draw_units]

theorem walkFrom_units (s : State) (c : CtxId) (oid payer : Nat) (va : Word) (level table : Nat) :
    (walkFrom s c oid payer va level table).2.units = s.units := by
  induction level generalizing s table with
  | zero =>
    unfold walkFrom
    grind [reachFor_units]
  | succ n ih =>
    unfold walkFrom
    grind [reachFor_units, State.updDie_units, tlbFill_units]

theorem tlb1Fill_units (s : State) (core : Nat) (e : TlbEntry) :
    (tlb1Fill s core e).units = s.units := by
  grind [tlb1Fill, State.updCore_units]

theorem State.noteClass_units (s : State) (oid level vpage : Nat) (e : Word) :
    (State.noteClass s oid level vpage e).units = s.units := by
  grind [State.noteClass, State.onHome_units]

theorem tlbTried_units (s : State) (c : CtxId) (oid payer : Nat) (va : Word) :
    (tlbTried s c oid payer va).2.units = s.units := by
  grind [tlbTried, State.updCluster_units, State.countEv_units, tlbFill_units, walkFrom_units, tlb1Fill_units,
    State.noteClass_units]

theorem tlbTranslate_units (s : State) (c : CtxId) (oid payer : Nat) (va : Word) :
    ChkOk (·.2.units = s.units) (tlbTranslate s c oid payer va) := by
  grind [tlbTranslate, tlbTried_units, ChkOk]

theorem State.walked_units (s : State) (c : CtxId) (oid : Nat) (va : Word) :
    (State.walked s c oid va).units = s.units := by
  grind [State.walked, tlbTried_units]

theorem translate_units (s : State) (c : CtxId) (oid : Nat) (va : Word) (payer : Nat) :
    ChkOk (·.2.units = s.units) (translate s c oid va payer) := by
  grind [translate, tlbTranslate_units, = except_map, ChkOk]

theorem check_units (s : State) (c : CtxId) (w : Who) (va : Word) (n : Nat) (k : Kind) (payer : Nat) :
    ChkOk (·.2.units = s.units) (check s c w va n k payer) := by
  grind [check, translate_units, ChkOk]

@[simp] theorem capturePage_units (s : State) (c : CtxId) (pa : Nat) : (capturePage s c pa).units = s.units := by
  unfold capturePage
  dsimp only
  split
  · rfl
  · split
    · rfl
    · split
      · next heq =>
        have ht := (check_units ..).of_eq heq
        dsimp only at ht
        split
        · exact ht
        · exact (State.updOwner_units ..).trans ((State.sealFrame_units ..).trans ht)
      · rfl

@[simp] theorem writeHome_units (s : State) (c : CtxId) (owner pa : Nat) (bs : List Byte) (oid : Nat) :
    (writeHome s c owner pa bs oid).units = s.units := (touchHome_units ..).trans (capturePage_units s c pa)

theorem State.engineFault_units (s : State) (c : CtxId) (cause : Cause) (addr : Option Word) (val : Word) (issue : Nat) :
    (State.engineFault s c cause addr val issue).units = s.units := by
  grind [State.engineFault, State.updCtx_units, ChkOk, OptOk]

theorem State.heldAlone_units (s : State) (h : CtxId) (line : Nat) :
    (State.heldAlone s h line).units = s.units := by
  grind [State.heldAlone, State.onHome_units]

theorem homeWriteBack_units (s : State) (c : Copy) : (homeWriteBack s c).units = s.units := by
  unfold homeWriteBack
  split
  · split
    · split
      · exact State.onCopies_units _ _ _ _ fun _ => ⟨rfl, rfl⟩
      · exact State.engineFault_units ..
    · rfl
  · have home (w o k a bs i) : (writeHome (s.travel w o k) w c.owner a bs i).units = s.units :=
      (writeHome_units ..).trans (State.travel_units ..)
    have stamped (t : State) (n p i) : (t.onCopies n p fun q => q.stamped i).units = t.units :=
      State.onCopies_units _ _ _ _ fun _ => ⟨rfl, rfl⟩
    dsimp only
    split
    · split
      · exact (stamped ..).trans ((State.heldAlone_units ..).trans (home ..))
      · exact (State.stampWrite_units ..).trans ((stamped ..).trans ((State.heldAlone_units ..).trans (home ..)))
    · exact home ..

theorem backHome_units (s : State) (c : Copy) : (backHome s c).units = s.units := by
  unfold backHome
  dsimp only
  split
  · exact (State.dropCopy_units ..).trans (homeWriteBack_units s c)
  · exact (State.putCopy_units ..).trans (homeWriteBack_units s c)

theorem throughTo_units (s : State) (c n : Copy) :
    (throughTo s c n).units = s.units := by
  grind [throughTo, State.putCopy_units]

theorem evictNear_units (s : State) (cluster line : Nat) :
    (evictNear s cluster line).units = s.units := by
  grind [evictNear, State.onHome_units, backHome_units, throughTo_units, foldl_units]

theorem makeRoom_units (s : State) (cluster set p owner line : Nat) :
    (makeRoom s cluster set p owner line).units = s.units := by
  grind [makeRoom, State.onHome_units, State.draw_units, evictNear_units]

theorem fillNear_units (s : State) (cluster owner line : Nat) (data : LineData) :
    (fillNear s cluster owner line data).units = s.units := by
  grind [fillNear, State.onHome_units, State.putCopy_units, makeRoom_units]

theorem writeBack_units (s : State) (c : Copy) :
    (writeBack s c).units = s.units := by
  grind [writeBack, State.putCopy_units, backHome_units, throughTo_units, fillNear_units]

theorem monitorNear_units (s : State) (cluster owner line : Nat) :
    (monitorNear s cluster owner line).units = s.units := by
  grind [monitorNear, State.updCluster_units]

theorem fillL1_units (s : State) (a : CacheId) (c : Copy) :
    (fillL1 s a c).units = s.units := by
  grind [fillL1, State.dropCopy_units, State.putCopy_units, writeBack_units]

theorem State.heard_units (s : State) (own : Bool) (idx : Nat) :
    (State.heard s own idx).units = s.units := by
  grind [State.heard, State.response_units]

theorem nearGet_units (s : State) (c : CtxId) (own engine : Bool) (owner line : Nat) (wit : Option Stamp) (arrived : Bool)
    (oid : Nat) :
    OptOk (·.2.units = s.units) (nearGet s c own engine owner line wit arrived oid) := by
  grind [nearGet, State.countEv_units, State.pass_units, reachFor_units, fillNear_units, monitorNear_units, State.heard_units,
    OptOk]

theorem cachedGet_units (s : State) (c : CtxId) (own inst : Bool) (na : Bool) (owner line : Nat) (wit : Option Stamp)
    (arrived : Bool) :
    OptOk (·.2.units = s.units) (cachedGet s c own inst na owner line wit arrived) := by
  grind [cachedGet, State.updCore_units, State.countEv_units, fillL1_units, nearGet_units, OptOk]

theorem deliverPriv_units (s : State) (c : CtxId) (sc : Scope) :
    (deliverPriv s c sc).units = s.units := by
  unfold deliverPriv
  grind [writeBack_units, foldl_units, ChkOk, OptOk]

theorem State.dropLine_units (s : State) (line : Nat) :
    (State.dropLine s line).units = s.units := by
  grind [State.dropLine, State.onHome_units]

theorem crSticky_units (s : State) (own : Bool) (p : CrPlace) :
    (crSticky s own p).units = s.units := by
  grind [crSticky, State.onCx_units, State.onHome_units]

theorem crReadElem_units (s : State) (c : CtxId) (own : Bool) (p : CrPlace) (i : Nat) (base : Option CrLine)
    (arrived : Option Bool) (oid : Nat) :
    (crReadElem s c own p i base arrived oid).2.units = s.units := by
  grind [crReadElem, reachFor_units, crSticky_units]

theorem readBytes_units (s : State) (c : CtxId) (own inst na : Bool) (l : Leaf) (va : Word) (n : Nat) (wit : Option Stamp)
    (arrived : Option Bool) (oid : Nat) :
    ChkOk (·.2.units = s.units) (readBytes s c own inst na l va n wit arrived oid) := by
  grind [readBytes, reachFor_units, State.heard_units, cachedGet_units, crReadElem_units, trapAt, ChkOk, OptOk]

theorem partyRead_units (s : State) (c : CtxId) (w : Who) (va : Word) (n : Nat) (wit : Option Stamp) (payer : Nat) :
    ChkOk (·.2.units = s.units) (partyRead s c w va n wit payer) :=
  (Chk.act_units (check_units ..)).bind fun _ hr => (readBytes_units ..).bind fun _ ht =>
    .ok ((State.sealFrame_units ..).trans (ht.trans hr))

theorem homePut_units (s : State) (c : CtxId) (l : Leaf) (bs : List Byte) :
    (homePut s c l bs).units = s.units := by
  grind [homePut, State.onHome_units, State.onNet_units, writeHome_units]

theorem partyWrite_units (s : State) (c : CtxId) (w : Who) (va : Word) (bs : List Byte) :
    ChkOk (·.units = s.units) (partyWrite s c w va bs) :=
  (check_units ..).bind fun _ hr => .either .error (.either .error (.either .error
    (.ok ((State.sealFrame_units ..).trans ((homePut_units ..).trans hr)))))

theorem traceWrite_units (s : State) (c : CtxId) (opener : Nat) (va : Word) (bs : List Byte) :
    ChkOk (·.units = s.units) (traceWrite s c opener va bs) := by
  refine (check_units ..).bind fun r hr => ?_
  dsimp only
  split
  · exact .error
  · split
    · exact .error
    · split
      · exact .error
      · exact .ok ((State.sealFrame_units ..).trans hr)

theorem State.trace_units (s : State) (oid kind payload : Nat) (c : CtxId) :
    (State.trace s oid kind payload c).units = s.units := by
  grind [State.trace, State.updOwner_units, traceWrite_units, ChkOk]

theorem State.ownerEvent_units (s : State) (kind oid : Nat) (fid : BitVec 32) (core index addr : Nat) :
    (State.ownerEvent s kind oid fid core index addr).units = s.units := by
  grind [State.ownerEvent, State.sysEvent_units]

theorem logRead_units (s : State) (oid off n : Nat) :
    ChkOk (·.2.units = s.units) (logRead s oid off n) := by
  grind [logRead, partyRead_units]

theorem logAppend_units (s : State) (oid : Nat) (e : LogEntry) : (logAppend s oid e).units = s.units := by
  have put (t : State) (c o va bs) : (match traceWrite t c o va bs with
      | .ok s => s
      | .error _ => t).units = t.units := by
    split
    · next heq => exact (traceWrite_units ..).of_eq heq
    · rfl
  unfold logAppend
  dsimp only
  split
  · rfl
  · split
    · exact State.sysEvent_units ..
    · exact (put ..).trans (put s ..)

theorem useEntry_units (s : State) (oid i : Nat) :
    (useEntry s oid i).units = s.units := by
  grind [useEntry, State.updOwner_units, logRead_units, ChkOk]

theorem noteDiffer_units (s : State) (oid fid idx : Nat) :
    (noteDiffer s oid fid idx).units = s.units := by
  grind [noteDiffer, State.updOwner_units]

theorem newFid_units (s : State) (oid kind key idx : Nat) : (newFid s oid kind key idx).2.units = s.units := by
  have differs (t : State) (p : Prop) [Decidable p] (fid idx : Nat) : (if p then noteDiffer t oid fid idx else t).units = t.units := by
    split
    · exact noteDiffer_units ..
    · rfl
  unfold newFid
  dsimp only
  split
  · split
    · exact (differs ..).trans (useEntry_units ..)
    · exact differs ..
  · exact logAppend_units ..

theorem levelGet_units (s : State) (c : CtxId) (oid idx : Nat) :
    ChkOk (·.2.units = s.units) (levelGet s c oid idx) := by
  grind [levelGet, reachFor_units, State.sealFrame_units, translate_units, State.heard_units, = except_bind, ChkOk]

theorem levelPut_units (s : State) (c : CtxId) (l : Level) :
    (levelPut s c l).units = s.units := by
  grind [levelPut, writeHome_units]

theorem levelDec_units (c : CtxId) (oid fuel : Nat) (s : State) (idx : Nat) (wit : Word) (lost : Bool) :
    ChkOk (·.units = s.units) (levelDec c oid fuel s idx wit lost) := by
  induction fuel generalizing s c idx wit lost with
  | zero => exact .ok rfl
  | succ fuel ih =>
    refine (levelGet_units s c oid idx).bind fun r hr => ?_
    dsimp only
    split
    · split
      · exact .ok ((levelPut_units ..).trans hr)
      · exact (ih ..).mono fun t ht => ht.trans ((levelPut_units ..).trans hr)
    · exact .ok ((levelPut_units ..).trans hr)

theorem levelDrop_units (s : State) (c : CtxId) (oid idx : Nat) (wit : Word) (lost : Bool) :
    (levelDrop s c oid idx wit lost).units = s.units := by
  grind [levelDrop, State.walked_units, levelDec_units, ChkOk]

theorem launchCancelled_units (s : State) (c : CtxId) (oid idx : Nat) :
    (launchCancelled s c oid idx).2.units = s.units := by
  grind [launchCancelled, State.walked_units, levelGet_units, ChkOk]

theorem State.setDeque_units (s : State) (core : Nat) (d : List DequeEntry) : s.SameButDeque core (s.setDeque core d) := by
  refine Units.ext ?_ ?_ rfl rfl rfl rfl rfl rfl
  · funext n
    by_cases h : core = n
    · subst h
      simp [State.units]
    · simp [State.units, State.setDeque, State.coreSt_updCore, h]
  · funext n
    simp only [State.units, State.setDeque, State.coreSt_updCore]
    split
    · next h => rw [h]
    · rfl

@[simp] theorem State.setDeque_deque (s : State) (core : Nat) (d : List DequeEntry) : ((s.setDeque core d).coreSt core).deque = d := by
  simp [State.setDeque]

/-- Spilling writes entries of the deque to memory, and each stays in the deque. -/
theorem spillOldest_units {core n : Nat} {s u : State} (h : spillOldest core n s = some u) :
    s.SameButDeque core u ∧ ∀ e, Listed e (s.coreSt core).deque → Listed e (u.coreSt core).deque := by
  induction n generalizing s with
  | zero =>
    obtain rfl : s = u := Option.some.inj h
    exact ⟨.refl _, fun _ he => he⟩
  | succ n ih =>
    unfold spillOldest at h
    generalize List.range 1024 = places at h
    dsimp only at h
    split at h
    · split at h
      · cases h
        exact ⟨.refl _, fun _ he => he⟩
      · next i p _ _ _ e he =>
        split at h
        · cases h
        · next t ht =>
          have units := (partyWrite_units ..).of_eq ht
          obtain ⟨same, kept⟩ := ih h
          refine ⟨(((State.SameButDeque.refl s).of_units units).trans (State.setDeque_units ..)).trans same, fun f hf => kept f ?_⟩
          rw [State.setDeque_deque]
          exact hf.set he
    · cases h
      exact ⟨.refl _, fun _ he => he⟩

theorem wakeOnPush_units (s : State) (core oid : Nat) :
    (wakeOnPush s core oid).units = s.units := by
  grind [wakeOnPush, State.updCtx_units, State.updCore_units]

/-- A push that succeeds puts the entry into the deque and changes no other unit. -/
theorem pushDeque_units {s u : State} {core oid : Nat} {e : DequeEntry} {old : Bool} (h : pushDeque s core oid e old = some u) :
    s.SameButDeque core u ∧ Listed e (u.coreSt core).deque := by
  have listed (p : Prop) [Decidable p] (d : List DequeEntry) : Listed e (if p then e :: d else d ++ [e]) := by
    split
    · exact ⟨e, List.mem_cons_self, rfl⟩
    · exact ⟨e, by simp, rfl⟩
  unfold pushDeque at h
  dsimp only at h
  split at h
  · cases h
  · obtain ⟨t, ht, rfl⟩ := Option.map_eq_some_iff.1 h
    have spilled : s.SameButDeque core t ∧ Listed e (t.coreSt core).deque := by
      have set := State.setDeque_units s core (if old = true then e :: (s.coreSt core).deque else (s.coreSt core).deque ++ [e])
      have here := listed (old = true) (s.coreSt core).deque
      rw [← State.setDeque_deque s core (if old = true then _ else _)] at here
      split at ht
      · obtain ⟨same, kept⟩ := spillOldest_units ht
        exact ⟨set.trans same, kept e here⟩
      · split at ht
        · obtain ⟨same, kept⟩ := spillOldest_units ht
          exact ⟨set.trans same, kept e here⟩
        · cases ht
          exact ⟨set, here⟩
    obtain ⟨same, here⟩ := spilled
    have woken := wakeOnPush_units t core oid
    exact ⟨same.of_units woken, by rw [show ((wakeOnPush t core oid).coreSt core).deque = (t.coreSt core).deque from
      congrFun (congrArg Units.deques woken) core]; exact here⟩

/-- A counter that reaches its threshold leaves the units alone, but for the fires at the homes. -/
theorem triggerCheck_units (s : State) (c : CtxId) (owner pa : Nat) : s.SameButFires (triggerCheck s c owner pa) := by
  have fired (l : List Nat) (k g : Nat) (e : BitVec 32 → Fire) {t : State} (ht : s.SameButFires t) : s.SameButFires (l.foldl (fun s _ =>
      let (f, s) := newFid s k 2 g 0
      s.onHome fun h => { h with fires := h.fires ++ [e f] }) t) := by
    induction l generalizing t with
    | nil => exact ht
    | cons a l ih => exact ih ((ht.of_units (newFid_units ..)).onHome _)
  unfold triggerCheck
  split
  · exact .refl s
  · dsimp only
    split
    · exact .refl s
    · split
      · exact .refl s
      · have home (bs i) := (State.SameButFires.refl s).of_units (writeHome_units s c owner pa bs i)
        split
        · exact fired _ _ pa _ (home ..)
        · exact ((fired _ _ pa _ (home ..)).onHome _).of_units (State.updCore_units _ _ _ rfl rfl)

theorem counterApply_units (s : State) (c : CtxId) (owner pa : Nat) (amount wit : Word) :
    s.SameButFires (counterApply s c owner pa amount wit) := by
  refine State.SameButFires.trans ?_ (triggerCheck_units ..)
  exact ((State.SameButFires.refl s).of_units (writeHome_units ..)).onHome _

theorem slotWrite_units (s : State) (c : CtxId) (w : Who) (va : Word) (bs : List Byte) :
    OptOk (·.units = s.units) (slotWrite s c w va bs) := by
  grind [slotWrite, State.sealFrame_units, check_units, State.dropLine_units, homePut_units, foldl_units, ChkOk, OptOk]

theorem setSlotState_units (s : State) (c : CtxId) (oid slot st : Nat) : (setSlotState s c oid slot st).units = s.units := by
  have tried (va : Word) (pa : Nat) (w : Who) (bs : List Byte) : ((if slot < 8192 then slotWrite s c w va bs
      else some (writeHome s ⟨c.core, 3⟩ oid pa bs)).getD s).units = s.units := by
    split
    · exact (slotWrite_units ..).getD (P := fun t : State => t.units = s.units) rfl
    · exact writeHome_units ..
  unfold setSlotState
  dsimp only
  split
  · exact (State.updOwner_units ..).trans (tried ..)
  · exact tried ..

theorem passEvents_units (s : State) (core oid launch : Nat) :
    (passEvents s core oid launch).units = s.units := by
  grind [passEvents, State.updCore_units, State.updOwner_units]

theorem restoreCtx_units (s : State) (c : CtxId) (slot : Nat) (img : Nat → Nat → Nat) :
    (restoreCtx s c slot img).units = s.units := by
  grind [restoreCtx, State.setCtx_units, State.updCore_units, State.updOwner_units, passEvents_units]

theorem slotBytes_units (s : State) (c : CtxId) (w : Who) (va : Word) : ChkOk (·.2.units = s.units) (slotBytes s c w va) := by
  refine (check_units ..).bind fun r hr => (check_units ..).bind fun t ht => ?_
  have sealed := (State.sealFrame_units (t.2.sealFrame w r.1.entry r.1.pa) w t.1.entry t.1.pa).trans
    ((State.sealFrame_units t.2 w r.1.entry r.1.pa).trans (ht.trans hr))
  exact .either .error (.ok ((foldl_units (fun _ _ => reachFor_units ..) _ _).trans sealed))

theorem updLanding_units (s : State) (core n : Nat) (f : Landing → Landing) : (updLanding s core n f).units = s.units :=
  State.updCore_units _ _ _ rfl rfl

theorem checkCounter_units (s : State) (c : CtxId) (w : Who) (va : Word) :
    ChkOk (·.2.units = s.units) (checkCounter s c w va) := by
  grind [checkCounter, check_units, = except_bind, ChkOk]

theorem landCount_units (s : State) (core n : Nat) (wit : Word) : s.SameButFires (landCount s core n wit) := by
  have bad (t : State) (ht : t.units = s.units) (o : Landing) (k a : Nat) (f : Landing → Landing) :
      s.SameButFires ((updLanding t core n f).ownerEvent k o.oid 0 core 0 a) :=
    (State.SameButFires.refl s).of_units ((State.ownerEvent_units ..).trans ((updLanding_units ..).trans ht))
  unfold landCount
  split
  · exact .refl s
  · split
    · exact .refl s
    · dsimp only
      split
      · exact bad s rfl ..
      · next heq =>
        have ht := (checkCounter_units ..).of_eq heq
        split
        · exact bad _ ht ..
        · exact ((State.SameButFires.refl s).of_units ht).trans (counterApply_units ..)

theorem slotImage_units (s : State) (c : CtxId) (oid slot : Nat) : ChkOk (·.2.units = s.units) (slotImage s c oid slot) := by
  unfold slotImage
  split
  · exact slotBytes_units ..
  · dsimp only
    split
    · exact .error
    · exact .ok rfl

theorem startFiring_units (s : State) (c : CtxId) (e : DequeEntry) :
    (startFiring s c e).units = s.units := by
  grind [startFiring, State.setCtx_units, State.updCore_units, State.trace_units, passEvents_units]

theorem resumeSlot_units (s : State) (c : CtxId) (oid n : Nat) :
    OptOk (·.units = s.units) (resumeSlot s c oid n) := by
  grind [resumeSlot, setSlotState_units, restoreCtx_units, slotImage_units, ChkOk, OptOk]

end Sys2Proof.Machine

end

section
/-! The engines of cores and clusters (O57). -/

namespace Sys2Proof.Machine

open Sys2Proof Claim

/-! ### Contexts -/

theorem parkedGet_parkedSet (l : List (CtxId × Ctx)) (c d : CtxId) (k : Ctx) :
    parkedGet (parkedSet l c k) d = if c = d then k else parkedGet l d := by
  induction l with
  | nil => rfl
  | cons p l ih =>
    obtain ⟨b, j⟩ := p
    by_cases hb : b = c
    · subst hb
      rw [parkedSet, if_pos rfl]
      by_cases h : b = d <;> simp [parkedGet, h]
    · rw [parkedSet, if_neg hb, parkedGet, parkedGet, ih]
      by_cases h : b = d
      · subst h
        rw [if_pos rfl, if_pos rfl, if_neg fun h => hb h.symm]
      · rw [if_neg h, if_neg h]

@[simp] theorem State.onNet_coreSt (s : State) (f : NetSt → NetSt) (n : Nat) : (s.onNet f).coreSt n = s.coreSt n := rfl

@[simp] theorem State.onNet_ctxOf (s : State) (f : NetSt → NetSt) (c : CtxId) : (s.onNet f).ctxOf c = s.ctxOf c := rfl

@[simp] theorem State.updCore_ctxOf (s : State) (n : Nat) (f : CoreSt → CoreSt) (c : CtxId) : (s.updCore n f).ctxOf c = s.ctxOf c := rfl

@[simp] theorem State.ctxOf_setCtx_same (s : State) (c : CtxId) (k : Ctx) : (s.setCtx c k).ctxOf c = k := by
  unfold State.setCtx
  split
  · next h => simp [State.ctxOf, h]
  · next h => simp [State.ctxOf, h, parkedGet_parkedSet]

/-- A context of a core that can run is changed. -/
theorem State.ctxOf_updCtx_same (s : State) {c : CtxId} (hc : c.which < 3) (f : Ctx → Ctx) :
    (s.updCtx c f).ctxOf c = f (s.ctxOf c) := by
  unfold State.updCtx
  split
  · next h => simp [State.ctxOf, h]
  · next h =>
    rw [if_neg (by omega)]
    simp [State.ctxOf, h, parkedGet_parkedSet]

/-- What happens to a context leaves the rest of the package alone. -/
theorem State.updCtx_eq (s : State) (c : CtxId) (f : Ctx → Ctx) :
    s.updCtx c f = { s with cx := (s.updCtx c f).cx, parked := (s.updCtx c f).parked } := by
  unfold State.updCtx
  split
  · rfl
  · split <;> rfl

@[simp] theorem State.updCtx_mem (s : State) (c : CtxId) (f : Ctx → Ctx) : (s.updCtx c f).mem = s.mem := by rw [updCtx_eq]

@[simp] theorem State.updCtx_net (s : State) (c : CtxId) (f : Ctx → Ctx) : (s.updCtx c f).net = s.net := by rw [updCtx_eq]

@[simp] theorem State.updCtx_home (s : State) (c : CtxId) (f : Ctx → Ctx) : (s.updCtx c f).home = s.home := by rw [updCtx_eq]

@[simp] theorem State.updCtx_cores (s : State) (c : CtxId) (f : Ctx → Ctx) : (s.updCtx c f).cores = s.cores := by rw [updCtx_eq]

@[simp] theorem State.updCtx_owners (s : State) (c : CtxId) (f : Ctx → Ctx) : (s.updCtx c f).owners = s.owners := by rw [updCtx_eq]

@[simp] theorem State.updCtx_coreSt (s : State) (c : CtxId) (f : Ctx → Ctx) (n : Nat) : (s.updCtx c f).coreSt n = s.coreSt n := by
  rw [updCtx_eq]; rfl

@[simp] theorem State.updCtx_ownerSt (s : State) (c : CtxId) (f : Ctx → Ctx) (n : Nat) :
    (s.updCtx c f).ownerSt n = s.ownerSt n := by rw [updCtx_eq]; rfl

/-- An event of a core is counted at that core, and nowhere else. -/
theorem State.countEv_eq (s : State) (c : CtxId) (code n oid launch : Nat) : s.countEv c code n oid launch = s ∨
    ∃ f : Vector Perf 4 → Vector Perf 4, s.countEv c code n oid launch = s.updCore c.core fun k => { k with perf := f k.perf } := by
  unfold State.countEv
  split
  · exact .inl rfl
  · exact .inr ⟨_, rfl⟩

@[simp] theorem State.countEv_mem (s : State) (c : CtxId) (code n oid launch : Nat) :
    (s.countEv c code n oid launch).mem = s.mem := by
  obtain h | ⟨f, h⟩ := s.countEv_eq c code n oid launch <;> rw [h]; rfl

@[simp] theorem State.countEv_home (s : State) (c : CtxId) (code n oid launch : Nat) :
    (s.countEv c code n oid launch).home = s.home := by
  obtain h | ⟨f, h⟩ := s.countEv_eq c code n oid launch <;> rw [h]; rfl

@[simp] theorem State.countEv_ctxOf (s : State) (c d : CtxId) (code n oid launch : Nat) :
    (s.countEv c code n oid launch).ctxOf d = s.ctxOf d := by
  obtain h | ⟨f, h⟩ := s.countEv_eq c code n oid launch <;> rw [h]; rfl

/-- A core has after the count what it had, but for its counters. -/
theorem State.countEv_coreSt (s : State) (c : CtxId) (code n oid launch k : Nat) :
    (s.countEv c code n oid launch).coreSt k = { s.coreSt k with perf := ((s.countEv c code n oid launch).coreSt k).perf } := by
  obtain h | ⟨f, h⟩ := s.countEv_eq c code n oid launch
  · rw [h]
  · rw [h, State.coreSt_updCore]
    split
    · next hk => rw [hk]
    · rfl

@[simp] theorem State.countEv_annQueue (s : State) (c : CtxId) (code n oid launch core : Nat) :
    ((s.countEv c code n oid launch).coreSt core).annQueue = (s.coreSt core).annQueue := by rw [countEv_coreSt]

@[simp] theorem State.countEv_slice (s : State) (c : CtxId) (code n oid launch core : Nat) :
    ((s.countEv c code n oid launch).coreSt core).slice = (s.coreSt core).slice := by rw [countEv_coreSt]

@[simp] theorem State.countEv_rampIdle (s : State) (c : CtxId) (code n oid launch core : Nat) :
    ((s.countEv c code n oid launch).coreSt core).rampIdle = (s.coreSt core).rampIdle := by rw [countEv_coreSt]

/-! ### Announcements (R216, R321) -/

/-- Outside replay an announcement joins no other. -/
theorem annGroup_alone {s : State} {a : Announce} (h : (s.ownerSt a.oid).rpl.mode = 0) : annGroup s a = some [a] := by
  have plain : ((s.ownerSt a.oid).rpl.mode != 2 || (s.ownerSt a.oid).rpl.released.contains a.id) = true := by simp [h]
  exact if_pos plain

theorem announcing_alone {s : State} {core : Nat} {a : Announce} {rest : List Announce} (hf : (s.coreSt core).failed = false)
    (hq : (s.coreSt core).annQueue = a :: rest) (hc : a.core = core) (hm : (s.ownerSt a.oid).rpl.mode = 0) :
    announcing s core = present s (annWindow s core) a := by
  have window (ahead : Nat → Nat) : [a].foldl (fun m b =>
      let v := annWindow s b.core
      if ahead m < ahead v then v else m) (annWindow s core) = annWindow s core := by simp [hc]
  unfold announcing
  rw [if_neg (by simp [hf]), hq]
  simp only [annGroup_alone hm]
  exact congrArg (fun w => present s w a) (window _)

/-- Whoever waits for a decision goes on with it. -/
theorem State.decide_ctxOf (s : State) {c : CtxId} (hc : c.which < 3) (v : Word × Word) :
    ((s.decide c v).ctxOf c).wait = none ∧ ((s.decide c v).ctxOf c).verdict = some v := by
  rw [State.decide, State.ctxOf_updCtx_same s hc]
  exact ⟨rfl, rfl⟩

/-- What is presented leaves the queue of its core and joins its window; who waits for the window goes on. -/
theorem present_leaves (s : State) (w : Nat) (a : Announce) (hw : a.ctx.which < 3) :
    let t := present s w a
    (t.coreSt a.core).annQueue = (s.coreSt a.core).annQueue.filter (fun b => b.id != a.id) ∧
    t.net.announced = s.net.announced ++ [{ a with window := w }] ∧ t.mem = s.mem ∧
    ((s.ctxOf a.ctx).wait = some (.window a.id) → (t.ctxOf a.ctx).wait = none ∧
      (t.ctxOf a.ctx).verdict = some (BitVec.ofNat 64 ((64 * w + 384) % 2 ^ 48), 0)) := by
  unfold present
  dsimp only
  generalize BitVec.ofNat 64 ((64 * w + 384) % 2 ^ 48) = time
  split
  · exact ⟨by simp [State.decide], by simp [State.decide, countEv_net], by simp [State.decide], fun _ => State.decide_ctxOf _ hw _⟩
  · next hwait =>
    refine ⟨by simp, by simp [countEv_net], by simp, fun h => absurd ?_ hwait⟩
    simpa using h

/-- Only what contexts are differs. -/
def State.OnlyContexts (s t : State) : Prop := t = { s with cx := t.cx, parked := t.parked }

namespace State.OnlyContexts

theorem refl (s : State) : s.OnlyContexts s := rfl

theorem updCtx {s t : State} (h : s.OnlyContexts t) (c : CtxId) (f : Ctx → Ctx) : s.OnlyContexts (t.updCtx c f) := by
  rw [OnlyContexts] at h ⊢
  rw [State.updCtx_eq]
  exact congrArg (fun u : State => { u with cx := (t.updCtx c f).cx, parked := (t.updCtx c f).parked }) h

theorem trans {s t u : State} (h : s.OnlyContexts t) (k : t.OnlyContexts u) : s.OnlyContexts u := by
  rw [OnlyContexts] at h k ⊢
  exact k.trans (congrArg (fun v : State => { v with cx := u.cx, parked := u.parked }) h)

theorem foldl {α : Type} {f : State → α → State} (hf : ∀ (s : State) a, s.OnlyContexts (f s a)) (s : State) (l : List α) :
    s.OnlyContexts (l.foldl f s) := by
  induction l generalizing s with
  | nil => exact .refl s
  | cons a l ih => exact (hf s a).trans (ih _)

theorem mem {s t : State} (h : s.OnlyContexts t) : t.mem = s.mem := by rw [h]

theorem net {s t : State} (h : s.OnlyContexts t) : t.net = s.net := by rw [h]

theorem ownerSt {s t : State} (h : s.OnlyContexts t) (o : Nat) : t.ownerSt o = s.ownerSt o := by
  rw [h]; rfl

end State.OnlyContexts

theorem noticeChanges_onlyContexts (s t : State) : t.OnlyContexts (noticeChanges s t) :=
  .foldl (fun u p => by
    dsimp only
    split
    · exact (State.OnlyContexts.refl u).updCtx _ _
    · exact .refl u) t _

theorem wakeNotified_onlyContexts (s : State) : s.OnlyContexts (wakeNotified s) :=
  .foldl (fun u p => by
    dsimp only
    split
    · split
      · exact (State.OnlyContexts.refl u).updCtx _ _
      · exact .refl u
    · exact .refl u) s _

/-- Where nothing is recorded and nothing replayed, an event at a line leaves no trace. -/
theorem lineEvent_plain {s : State} {oid : Nat} (h : (s.ownerSt oid).rpl.mode = 0) (line kind fid idx : Nat) :
    lineEvent s oid line kind fid idx = s := by
  unfold lineEvent
  dsimp only
  rw [h, if_neg (by decide), if_neg (by decide)]

theorem toList_setIfInBounds {α : Type} {n : Nat} (v : Vector α n) (i : Nat) (a : α) :
    (v.setIfInBounds i a).toList = v.toList.set i a := by
  simp [Vector.setIfInBounds, Vector.toList]

/-- A word of the notification area after an announcement (R216, R321). -/
def announcedWord (op : Nat) (old v : Word) : Word :=
  match op with
  | 0 => v
  | 1 => old + v
  | 2 => old ||| v
  | _ => old &&& v

theorem applyAnnounce_word {s : State} {a : Announce} {word op : Nat} {v : Word} (hk : a.kind = .word word op v)
    (hm : (s.ownerSt a.oid).rpl.mode = 0) :
    let t := applyAnnounce s a
    t.mem = s.mem ∧ t.net = s.net ∧ (t.ownerSt a.oid).notif.toList =
      (s.ownerSt a.oid).notif.toList.set word (announcedWord op ((s.ownerSt a.oid).notif.toList.getD word 0) v) := by
  unfold applyAnnounce
  rw [lineEvent_plain hm]
  dsimp only
  rw [hk]
  refine ⟨rfl, rfl, ?_⟩
  simp only [State.ownerSt_updOwner_same, List.getD_eq_getElem?_getD]
  exact toList_setIfInBounds _ _ _

/-- An announcement of a word that is alone in its window. -/
theorem applyWindow_one {s : State} {w : Nat} {a : Announce} (hw : dueWindow s = some w)
    (ha : s.net.announced.filter (fun (a : Announce) => a.window == w) = [a]) :
    applyWindow s = wakeNotified (noticeChanges s (applyAnnounce
      (s.onNet fun t => { t with announced := t.announced.filter fun a => a.window != w }) a)) := by
  simp only [applyWindow, hw, ha, List.mergeSort_singleton, List.foldl_cons, List.foldl_nil]

theorem applyWindow_word {s : State} {w word op : Nat} {a : Announce} {v : Word} (hw : dueWindow s = some w)
    (ha : s.net.announced.filter (fun (a : Announce) => a.window == w) = [a]) (hk : a.kind = .word word op v)
    (hm : (s.ownerSt a.oid).rpl.mode = 0) :
    let t := applyWindow s
    t.mem = s.mem ∧ (∀ x ∈ t.net.announced, x.window ≠ w) ∧ (t.ownerSt a.oid).notif.toList =
      (s.ownerSt a.oid).notif.toList.set word (announcedWord op ((s.ownerSt a.oid).notif.toList.getD word 0) v) := by
  rw [applyWindow_one hw ha]
  have rest := (noticeChanges_onlyContexts s (applyAnnounce
    (s.onNet fun t => { t with announced := t.announced.filter fun a => a.window != w }) a)).trans (wakeNotified_onlyContexts _)
  obtain ⟨mem, net, word⟩ := applyAnnounce_word
    (s := s.onNet fun t => { t with announced := t.announced.filter fun a => a.window != w }) hk hm
  refine ⟨rest.mem.trans mem, fun x hx => ?_, by rw [rest.ownerSt]; exact word⟩
  rw [rest.net, net] at hx
  simpa using (List.mem_filter.1 hx).2

/-! ### Matrix operations (R156, R157, R165, R177) -/

@[simp] theorem addFill_mem (s : State) (c : CtxId) : (addFill s c).mem = s.mem := by simp [addFill]

@[simp] theorem addFill_home (s : State) (c : CtxId) : (addFill s c).home = s.home := by simp [addFill]

@[simp] theorem addFill_slice (s : State) (c : CtxId) (core : Nat) : ((addFill s c).coreSt core).slice = (s.coreSt core).slice := by
  simp [addFill]

@[simp] theorem ite_addFill_mem (p : Prop) [Decidable p] (s : State) (c : CtxId) :
    (if p then addFill s c else s).mem = s.mem := by split <;> simp

@[simp] theorem ite_addFill_home (p : Prop) [Decidable p] (s : State) (c : CtxId) :
    (if p then addFill s c else s).home = s.home := by split <;> simp

@[simp] theorem ite_addFill_slice (p : Prop) [Decidable p] (s : State) (c : CtxId) (core : Nat) :
    ((if p then addFill s c else s).coreSt core).slice = (s.coreSt core).slice := by split <;> simp

theorem rampFill_mem (s : State) (core : Nat) (c : CtxId) : (rampFill s core c).mem = s.mem := ite_addFill_mem ..

theorem rampFill_core (s : State) (core : Nat) (c : CtxId) :
    ((rampFill s core c).coreSt core).slice = (s.coreSt core).slice ∧ ((rampFill s core c).coreSt core).rampIdle = false := by
  simp [rampFill]

theorem updOp_slice (s : State) (core id : Nat) (f : MatOp → MatOp) :
    ((updOp s core id f).coreSt core).slice = lupd (fun o => o.id == id) f (s.coreSt core).slice := by
  simp [updOp]

/-- What a change of the operations with a number leaves of them. -/
theorem mem_lupd_id {l : List MatOp} {id : Nat} {f : MatOp → MatOp} {x : MatOp}
    (hx : x ∈ lupd (fun o => o.id == id) f l) (hid : x.id = id) : ∃ o ∈ l, x = f o := by
  obtain ⟨o, ho, rfl⟩ := List.mem_map.1 hx
  refine ⟨o, ho, ?_⟩
  split at hid
  · next h => rw [if_pos h]
  · next h => exact absurd (by simpa using hid) h

/-- An operation of no gang starts. -/
theorem startOp_solo {s : State} {core : Nat} {o : MatOp} (hr : engineRuns s core = true) (hu : unstarted s core = some o)
    (hp : o.position = none) : startOp s core = beginOp s core o o.a := by
  simp [startOp, hr, hu, hp]

theorem beginOp_starts (s : State) (core : Nat) (o : MatOp) (a : MatOperand) :
    let t := beginOp s core o a
    t.mem = s.mem ∧ (∀ x ∈ (t.coreSt core).slice, x.id = o.id → x.started = true) ∧ (t.coreSt core).rampIdle = false := by
  obtain ⟨slice, idle⟩ := rampFill_core (updOp s core o.id fun o => { o with started := true, a := a }) core o.ctx
  refine ⟨rampFill_mem .., fun x hx hid => ?_, idle⟩
  rw [beginOp, slice, updOp_slice] at hx
  obtain ⟨y, -, rfl⟩ := mem_lupd_id hx hid
  rfl

/-- The buffers of an operation that leaves pass on, and nothing but the buffers of its cluster. -/
theorem handOn_eq (s : State) (core : Nat) (o : MatOp) (gang : Bool) :
    handOn s core o gang = { s with clusters := (handOn s core o gang).clusters } := by
  unfold handOn
  dsimp only
  refine foldl_keeps (P := fun t : State => t = { s with clusters := t.clusters }) rfl _ fun t h ht => ?_
  have upd (c : Nat) (f : ClusterSt → ClusterSt) : t.updCluster c f = { s with clusters := (t.updCluster c f).clusters } := by
    rw [State.updCluster, ht]
  have passed (cl n : Nat) (u : State) (hu : u = if n = holdFree then freeBuf t cl h.1
      else if n = holdExport then exportBuf t cl h.1 (indexOf core)
      else updBuf t cl h.1 (fun b => { b with holder := n })) : u = { s with clusters := u.clusters } := by
    subst hu
    split
    · exact upd ..
    · split
      · unfold exportBuf updBuf
        exact upd ..
      · unfold updBuf
        exact upd ..
  split
  · exact ht
  · exact passed _ _ _ rfl

@[simp] theorem handOn_mem (s : State) (core : Nat) (o : MatOp) (gang : Bool) : (handOn s core o gang).mem = s.mem := by rw [handOn_eq]

@[simp] theorem handOn_home (s : State) (core : Nat) (o : MatOp) (gang : Bool) : (handOn s core o gang).home = s.home := by
  rw [handOn_eq]

@[simp] theorem handOn_coreSt (s : State) (core : Nat) (o : MatOp) (gang : Bool) (n : Nat) :
    (handOn s core o gang).coreSt n = s.coreSt n := by rw [handOn_eq]; rfl

@[simp] theorem handOn_ctxOf (s : State) (core : Nat) (o : MatOp) (gang : Bool) (c : CtxId) :
    (handOn s core o gang).ctxOf c = s.ctxOf c := by rw [handOn_eq]; rfl

/-- An operation leaves its slice, with the fault that it met. -/
theorem leaveSlice_leaves (s : State) (core : Nat) (o : MatOp) (fault : Option (Cause × Option Word)) :
    let t := leaveSlice s core o fault
    t.mem = s.mem ∧ t.home = s.home ∧ (t.coreSt core).slice = (s.coreSt core).slice.filter (fun (x : MatOp) => x.id != o.id) := by
  cases fault with
  | none => simp [leaveSlice]
  | some z => simp [leaveSlice, State.engineFault]

/-- The fault of an operation is pending at the context that issued it. -/
theorem leaveSlice_faults (s : State) (core : Nat) {o : MatOp} (z : Cause × Option Word) (hc : o.ctx.which < 3) :
    ((leaveSlice s core o (some z)).ctxOf o.ctx).engFaults =
      (s.ctxOf o.ctx).engFaults ++ [⟨z.1, some (z.2.getD 0), o.pc, o.id⟩] := by
  unfold leaveSlice
  dsimp only
  rw [State.countEv_ctxOf]
  split
  · simp [addFill, State.engineFault, State.ctxOf_updCtx_same _ hc]
  · simp [State.engineFault, State.ctxOf_updCtx_same _ hc]

theorem completeOp_done {s u : State} {core : Nat} {o : MatOp} (hr : engineRuns s core = true)
    (hh : (s.coreSt core).slice.head? = some o) (hs : o.started = true) (hd : o.discard = false) (hf : opFault o = none)
    (hc : contribute s o = .done u) : completeOp s core = leaveSlice u core o none := by
  simp [completeOp, hr, hh, hs, hd, hf, hc]

theorem completeOp_faults {s : State} {core : Nat} {o : MatOp} {z : Cause × Option Word} (hr : engineRuns s core = true)
    (hh : (s.coreSt core).slice.head? = some o) (hs : o.started = true) (hd : o.discard = false)
    (hz : opFault o = some z ∨ opFault o = none ∧ contribute s o = .fault z) : completeOp s core = leaveSlice s core o (some z) := by
  obtain hf | ⟨hf, hc⟩ := hz
  · simp [completeOp, hr, hh, hs, hd, hf]
  · simp [completeOp, hr, hh, hs, hd, hf, hc]

/-! A position of a gang that some member has not met in time (R165). -/

theorem memberCores_nodup (cl : Nat) (mask : BitVec 8) : (memberCores cl mask).Nodup :=
  (List.Nodup.filter _ List.nodup_range).map fun i j h => by unfold coreAt at h; omega

/-- What a member does with its operation at a position that fails. -/
def gangFailAt (p : GangPos) (s : State) (c : Nat) : State :=
  match positionOp s c p with
  | some o => updOp s c o.id fun o => { o with started := true, gangFault := true }
  | none => s

theorem gangFailAt_mem (p : GangPos) (s : State) (c : Nat) : (gangFailAt p s c).mem = s.mem := by
  unfold gangFailAt
  split <;> rfl

theorem gangFailAt_other (p : GangPos) (s : State) {c d : Nat} (h : c ≠ d) : (gangFailAt p s c).coreSt d = s.coreSt d := by
  unfold gangFailAt
  split
  · rw [updOp, State.coreSt_updCore, if_neg h]
  · rfl

theorem gangFailAt_met {p : GangPos} {s : State} {c : Nat} {o x : MatOp} (ho : positionOp s c p = some o)
    (hx : x ∈ ((gangFailAt p s c).coreSt c).slice) (hid : x.id = o.id) : x.started = true ∧ x.gangFault = true := by
  unfold gangFailAt at hx
  simp only [ho, updOp_slice] at hx
  obtain ⟨y, -, rfl⟩ := mem_lupd_id hx hid
  exact ⟨rfl, rfl⟩

theorem gangFailAll_mem (p : GangPos) (l : List Nat) (s : State) : (l.foldl (gangFailAt p) s).mem = s.mem := by
  induction l generalizing s with
  | nil => rfl
  | cons c l ih => exact (ih _).trans (gangFailAt_mem p s c)

theorem gangFailAll_other (p : GangPos) {l : List Nat} {d : Nat} (h : d ∉ l) (s : State) :
    (l.foldl (gangFailAt p) s).coreSt d = s.coreSt d := by
  induction l generalizing s with
  | nil => rfl
  | cons c l ih =>
    rw [List.mem_cons, not_or] at h
    exact (ih h.2 _).trans (gangFailAt_other p s fun e => h.1 e.symm)

/-- The operation of every member that has met the position is marked. -/
theorem gangFailAll_met {p : GangPos} {l : List Nat} (hl : l.Nodup) {s : State} {core : Nat} {o x : MatOp} (hc : core ∈ l)
    (ho : positionOp s core p = some o) (hx : x ∈ ((l.foldl (gangFailAt p) s).coreSt core).slice) (hid : x.id = o.id) :
    x.started = true ∧ x.gangFault = true := by
  induction l generalizing s with
  | nil => exact absurd hc List.not_mem_nil
  | cons c l ih =>
    obtain ⟨hcl, hl⟩ := List.nodup_cons.1 hl
    rw [List.foldl_cons] at hx
    by_cases h : c = core
    · subst h
      rw [gangFailAll_other p hcl] at hx
      exact gangFailAt_met ho hx hid
    · refine ih hl ((List.mem_cons.1 hc).resolve_left fun e => h e.symm) ?_ hx
      rw [positionOp, gangFailAt_other p s h]
      exact ho

theorem gangFail_met {s : State} {cl core : Nat} {p : GangPos} {o : MatOp} (hc : core ∈ memberCores cl p.mask)
    (ho : positionOp s core p = some o) :
    let t := gangFail s cl p
    t.mem = s.mem ∧ ∀ x ∈ (t.coreSt core).slice, x.id = o.id → x.started = true ∧ x.gangFault = true := by
  have met : core ∈ (memberCores cl p.mask).filter fun c => (positionOp s c p).isSome := List.mem_filter.2 ⟨hc, by simp [ho]⟩
  exact ⟨gangFailAll_mem p _ s, fun x hx hid => gangFailAll_met ((memberCores_nodup cl p.mask).filter _) met ho hx hid⟩

theorem gangExpires_fails {s : State} {core : Nat} {p : GangPos} {o : MatOp}
    (hf : (s.coreSt core).slice.find? (fun (x : MatOp) => !x.started && x.position.isSome) = some o) (hp : o.position = some p)
    (hc : core ∈ memberCores (clusterOf core) p.mask) (ho : positionOp s core p = some o)
    (hn : ∃ c ∈ memberCores (clusterOf core) p.mask, positionOp s c p = none)
    (ht : atOrPast s.now (o.issuedAt + 65536) = true) : gangExpires s core = gangFail s (clusterOf core) p := by
  have late : ((memberCores (clusterOf core) p.mask).filterMap fun c => positionOp s c p).any
      (fun q => atOrPast s.now (q.issuedAt + 65536)) = true := List.any_eq_true.2 ⟨o, List.mem_filterMap.2 ⟨core, hc, ho⟩, ht⟩
  have few : ((memberCores (clusterOf core) p.mask).filterMap fun c => positionOp s c p).length ≠
      (memberCores (clusterOf core) p.mask).length := by
    obtain ⟨c, hc, hnone⟩ := hn
    refine Nat.ne_of_lt (List.length_filterMap_lt_length_iff_exists.2 ⟨c, hc, hnone⟩)
  unfold gangExpires
  rw [hf]
  dsimp only
  rw [hp]
  dsimp only
  rw [if_pos]
  rw [late, Bool.and_true]
  exact bne_iff_ne.2 few

/-! ### Ramps and holds (R177), the lane store (R17) -/

theorem rampDown_idle {s : State} {core : Nat} (hs : (s.coreSt core).slice.all (fun (x : MatOp) => !x.started) = true)
    (hh : (s.coreSt core).hold = none) (ht : atOrPast s.now ((s.coreSt core).lastDone + cyclesNs s (clusterOf core) 256) = true) :
    rampDown s core = s.updCore core fun k => { k with rampIdle := true } := by
  simp [rampDown, hs, hh, ht]

theorem holdEnds_over {s : State} {core : Nat} {x y : Stamp} (hh : (s.coreSt core).hold = some (x, y))
    (ht : atOrPast s.now y = true) : holdEnds s core = s.updCore core fun k => { k with hold := none } := by
  simp [holdEnds, hh, ht]

theorem laneCleared_clears {s : State} {core : Nat} (hc : (s.coreSt core).laneClearing = true) :
    laneCleared s core = s.updCore core fun k => { k with laneClearing := false, lane := [], lanePoison := [] } := by
  simp [laneCleared, hc]

/-! ### Copies (R249, R252) -/

/-- An arbiter changes nothing but the counters of draws. -/
theorem arbitrate_eq (s : State) (tab : List Share) (cls idx : Nat) (rs : List Request) :
    (arbitrate s tab cls idx rs).2 = { s with owners := (arbitrate s tab cls idx rs).2.owners } := by
  unfold arbitrate
  dsimp only
  repeat' split
  all_goals rfl

theorem pickIndex_one (val : BitVec 128) : pickIndex val 1 = 0 := by
  unfold pickIndex
  have := (val.setWidth 64).isLt
  omega

/-- Of a single weight or request the first is picked. -/
theorem picked_one (val : BitVec 128) (w : Nat) : (pickWeight val [w]).getD (pickIndex val 1) = 0 := by
  rw [pickIndex_one]
  unfold pickWeight pickFrom pickFrom
  dsimp only
  repeat' split
  all_goals rfl

/-- A request that waits alone is granted. -/
theorem arbitrate_one (s : State) (tab : List Share) (cls idx : Nat) (r : Request) :
    (arbitrate s tab cls idx [r]).1 = some (r.id, []) := by
  have olds : oldestEach [r] [] = [r] := rfl
  unfold arbitrate
  rw [olds]
  dsimp only
  split
  · next found =>
    obtain rfl := List.mem_singleton.1 (List.mem_of_find?_eq_some found)
    rfl
  · cases pickWeight (s.draw r.oid cls idx).1 (shareWeights tab) with
    | none => simp [insertByOid, picked_one]
    | some i =>
      cases h : shareEntry tab r.oid == i with
      | true => simp [h]
      | false => simp [h, insertByOid, picked_one]

theorem updBuf_copyQ (s : State) (cluster h : Nat) (f : Buf → Buf) (n : Nat) :
    ((updBuf s cluster h f).clusterSt n).copyQ = (s.clusterSt n).copyQ := by
  rw [updBuf, State.clusterSt_updCluster]
  split
  · next hn =>
    subst hn
    split <;> rfl
  · rfl

theorem freeBuf_copyQ (s : State) (cluster h n : Nat) : ((freeBuf s cluster h).clusterSt n).copyQ = (s.clusterSt n).copyQ := by
  rw [freeBuf, State.clusterSt_updCluster]
  split
  · next hn => rw [hn]
  · rfl

/-- A copy that begins or ends to read a peer's buffer leaves the memory and the queues of copies alone. -/
theorem peerReader_keeps (s : State) (q : CopyOp) (on : Bool) :
    (peerReader s q on).mem = s.mem ∧ ∀ n, ((peerReader s q on).clusterSt n).copyQ = (s.clusterSt n).copyQ := by
  unfold peerReader
  split
  · exact ⟨rfl, fun _ => rfl⟩
  · dsimp only
    split
    · split
      · exact ⟨rfl, fun n => (freeBuf_copyQ ..).trans (updBuf_copyQ ..)⟩
      · exact ⟨rfl, updBuf_copyQ _ _ _ _⟩
    · exact ⟨rfl, updBuf_copyQ _ _ _ _⟩

/-- A change of the copies with a number, in their cluster. -/
theorem updCopy_copyQ (s : State) (cluster tag : Nat) (f : CopyOp → CopyOp) :
    ((updCopy s cluster tag f).clusterSt cluster).copyQ = lupd (fun q => q.tag == tag) f (s.clusterSt cluster).copyQ := by
  simp [updCopy, State.onCopies]

/-- Every copy of a cluster with this number has started. -/
def Began (s : State) (cluster tag : Nat) : Prop := ∀ x ∈ (s.clusterSt cluster).copyQ, x.tag = tag → x.started = true

theorem Began.updCopy {s : State} {cluster tag : Nat} (h : Began s cluster tag) {f : CopyOp → CopyOp}
    (ht : ∀ q, (f q).tag = q.tag) (hs : ∀ q, (f q).started = q.started) : Began (updCopy s cluster tag f) cluster tag := by
  intro x hx htag
  rw [updCopy_copyQ] at hx
  obtain ⟨q, hq, rfl⟩ := List.mem_map.1 hx
  split at htag
  · next hp => rw [if_pos hp, hs]; exact h q hq (by rw [← ht q]; exact htag)
  · next hp => rw [if_neg hp]; exact h q hq htag

theorem began_started (s : State) (cluster tag : Nat) :
    Began (Machine.updCopy s cluster tag fun q => { q with started := true }) cluster tag := by
  intro x hx htag
  rw [updCopy_copyQ] at hx
  obtain ⟨q, -, rfl⟩ := List.mem_map.1 hx
  split at htag
  · next hp => rw [if_pos hp]
  · next hp => exact absurd (by simpa using htag) hp

/-- The copy that waits alone to start starts. -/
theorem copyBegins_starts {s : State} {cl : Nat} {q : CopyOp} (hh : (s.clusterSt cl).halted = false)
    (hf : (s.clusterSt cl).failed = false) (hq : (s.clusterSt cl).copyQ.filter (fun (x : CopyOp) => !x.started) = [q]) :
    (copyBegins s cl).mem = s.mem ∧ Began (copyBegins s cl) cl q.tag := by
  have begins : copyBegins s cl = copyStart s cl := by simp [copyBegins, hh, hf]
  have asks : copyRequests s cl = [⟨q.oid, q.age, q.tag⟩] := by simp [copyRequests, hq]
  have granted := arbitrate_one s (lget [] (s.dieSt (cl / 32)).share 4) 4 cl ⟨q.oid, q.age, q.tag⟩
  have same := arbitrate_eq s (lget [] (s.dieSt (cl / 32)).share 4) 4 cl [⟨q.oid, q.age, q.tag⟩]
  rw [begins]
  unfold copyStart
  rw [asks]
  generalize arbitrate s (lget [] (s.dieSt (cl / 32)).share 4) 4 cl [⟨q.oid, q.age, q.tag⟩] = r at granted same
  obtain ⟨g, t⟩ := r
  obtain rfl : g = some (q.tag, []) := granted
  have mem : t.mem = s.mem := (congrArg State.mem same :)
  dsimp only
  split
  · exact ⟨mem, began_started _ _ _⟩
  · split
    · split
      · obtain ⟨kept, queue⟩ := peerReader_keeps (Machine.updCopy _ cl q.tag fun q => { q with started := true }) _ true
        exact ⟨kept.trans mem, fun x hx => began_started _ cl q.tag x (queue cl ▸ hx)⟩
      · exact ⟨mem, (began_started _ _ _).updCopy (fun _ => rfl) fun _ => rfl⟩
    · exact ⟨mem, began_started _ _ _⟩

/-- A copy under way does its work. -/
theorem copyGoes_works {s u : State} {cl : Nat} {q : CopyOp}
    (hq : (s.clusterSt cl).copyQ.find? (fun (x : CopyOp) => x.tag == q.tag) = some q)
    (hs : q.started = true) (hn : q.sent = false) (hh : (s.clusterSt cl).halted = false) (hw : copyWork s cl q = some u) :
    copyGoes s cl q.tag = u := by
  simp [copyGoes, hq, hs, hn, hh, hw]

theorem copyGoes_completes {s : State} {cl : Nat} {q : CopyOp}
    (hq : (s.clusterSt cl).copyQ.find? (fun (x : CopyOp) => x.tag == q.tag) = some q)
    (hs : q.started = true) (hn : q.sent = true) (hd : copyDone s cl q = true) : copyGoes s cl q.tag = copyComplete s cl q := by
  simp [copyGoes, hq, hs, hn, hd]

/-- Where the queue of a cluster lists the same copies for the same contexts, so does the first of a number. -/
theorem first_of_copies {l m : List CopyOp} (h : (m.map fun q => (q.tag, q.ctx)) = l.map fun q => (q.tag, q.ctx)) {q : CopyOp}
    (hq : l.find? (fun x => x.tag == q.tag) = some q) :
    ((m.find? fun x => x.tag == q.tag).getD q).tag = q.tag ∧ ((m.find? fun x => x.tag == q.tag).getD q).ctx = q.ctx := by
  have found (l : List CopyOp) : (l.map fun q => (q.tag, q.ctx)).find? (fun x => x.1 == q.tag) =
      (l.find? fun x => x.tag == q.tag).map fun q => (q.tag, q.ctx) := List.find?_map ..
  have same := (found m).symm.trans ((congrArg _ h).trans (found l))
  rw [hq] at same
  obtain ⟨x, hx, e⟩ := Option.map_eq_some_iff.1 same
  rw [hx]
  exact ⟨congrArg Prod.fst e, congrArg Prod.snd e⟩

/-- The end of a copy: its context no longer counts it, and its cluster no longer lists it. -/
theorem copy_ends (s : State) (cl : Nat) {q : CopyOp} (hc : q.ctx.which < 3) (p : Bool) (f : NetSt → NetSt) (w : Ctx → Word) :
    let u := s.updCtx q.ctx fun k => { k with copies := k.copies.filter (· != q.tag), copyWit := w k }
    let t := (if p then u.onNet f else u).updCluster cl fun k => { k with copyQ := k.copyQ.filter (·.tag != q.tag) }
    (∀ x ∈ (t.clusterSt cl).copyQ, x.tag ≠ q.tag) ∧ q.tag ∉ (t.ctxOf q.ctx).copies := by
  intro u t
  have ctx : t.ctxOf q.ctx = u.ctxOf q.ctx := by cases p <;> rfl
  constructor
  · intro x hx
    simp only [t, State.clusterSt_updCluster_same, List.mem_filter] at hx
    simpa using hx.2
  · rw [ctx, State.ctxOf_updCtx_same _ hc]
    simp

theorem copyComplete_ends {s : State} {cl : Nat} {q : CopyOp}
    (hq : (s.clusterSt cl).copyQ.find? (fun (x : CopyOp) => x.tag == q.tag) = some q) (hc : q.ctx.which < 3) :
    (∀ x ∈ ((copyComplete s cl q).clusterSt cl).copyQ, x.tag ≠ q.tag) ∧ q.tag ∉ ((copyComplete s cl q).ctxOf q.ctx).copies := by
  unfold copyComplete
  extract_lets delivered listed stamped released landed faulted uncounted recorded
  have units : delivered.units = s.units := by
    dsimp only [delivered]
    split
    · exact deliverPriv_units ..
    · rfl
  have same : listed.tag = q.tag ∧ listed.ctx = q.ctx := first_of_copies (congrFun (congrArg Units.copies units) cl) hq
  have same : stamped.tag = q.tag ∧ stamped.ctx = q.ctx := by
    dsimp only [stamped]
    split
    · exact same
    · exact same
  obtain ⟨tag, ctx⟩ := same
  rw [← tag, ← ctx]
  exact copy_ends faulted cl (ctx ▸ hc) stamped.kept _ _

/-! ### Deliveries to landing objects (R252, R255) -/

/-- A value put into a table under a key is found there. -/
theorem tfind_tset_same {α : Type} (t : Tab α) (k : Nat) (a : α) : tfind (tset t k a) k = some a := by
  have mapped : (tset t k a).map (fun p => (p.1, some p.2)) = tset (t.map fun p => (p.1, some p.2)) k (some a) := by
    induction t with
    | nil => rfl
    | cons p t ih =>
      obtain ⟨j, b⟩ := p
      simp only [List.map_cons, tset]
      split
      · rfl
      · split
        · rfl
        · rw [List.map_cons, ih]
  rw [tfind, mapped, tget_tset, if_pos rfl]

theorem bufOf_updBuf_same (s : State) (cluster h : Nat) (f : Buf → Buf) :
    bufOf (updBuf s cluster h f) cluster h = (bufOf s cluster h).map f := by
  unfold bufOf updBuf
  rw [State.clusterSt_updCluster_same]
  split
  · next b hb => rw [tfind_tset_same, hb]; rfl
  · next hb => rw [hb]; rfl

/-- What lies in a buffer is one of the units. -/
theorem bufOf_of_units {s t : State} (h : t.units.bufs = s.units.bufs) (cluster n : Nat) : bufOf t cluster n = bufOf s cluster n :=
  congrArg (tfind · n) (congrFun h cluster)

theorem State.SameButFires.inbound {s t : State} (h : s.SameButFires t) : t.units.inbound = s.units.inbound := by
  rw [State.SameButFires] at h
  rw [h]

theorem State.SameButFires.bufs {s t : State} (h : s.SameButFires t) : t.units.bufs = s.units.bufs := by
  rw [State.SameButFires] at h
  rw [h]

/-- A delivery that lands leaves the network and writes its rows into the buffer of its landing object. -/
theorem deliver_lands {s : State} {n core slot h : Nat} {d : Delivery} {l : Landing} (hd : s.net.inbound[n]? = some d)
    (ha : arrival s d = .lands core l slot h) :
    (deliver s n).net.inbound = dropAt s.net.inbound n ∧ bufOf (deliver s n) d.cluster h =
      (bufOf s d.cluster h).map fun b => d.rows.foldl (fun b (r : Nat × List Byte) => bufWrite b r.1 r.2) b := by
  have counted {t u : State} (p : Bool) (n w) (ht : t.units = u.units) :
      let v := if p = true then landCount t core n w else t
      v.units.inbound = u.units.inbound ∧ v.units.bufs = u.units.bufs := by
    cases p with
    | false => exact ⟨congrArg Units.inbound ht, congrArg Units.bufs ht⟩
    | true => exact ⟨(landCount_units t core n w).inbound.trans (congrArg Units.inbound ht),
        (landCount_units t core n w).bufs.trans (congrArg Units.bufs ht)⟩
  simp only [deliver, hd, ha]
  obtain ⟨inbound, bufs⟩ := counted _ l.n d.wit (updLanding_units _ core l.n _)
  exact ⟨inbound, (bufOf_of_units bufs ..).trans (bufOf_updBuf_same ..)⟩

/-! ### Fires and pushes that wait (R278, R279) -/

/-- A push that finds room does not wait. -/
theorem pushOrPend_of_room {s u : State} {core oid : Nat} {e : DequeEntry} {old : Bool} (trig : Option Nat)
    (h : pushDeque s core oid e old = some u) : pushOrPend s core oid e old trig = u := by
  simp only [pushOrPend, h]

theorem firePush_starts {s u : State} {f : Fire} (hc : (launchCancelled s ⟨f.core, 3⟩ f.oid (recLaunch f.record)).1 = false)
    (hp : pushDeque (launchCancelled s ⟨f.core, 3⟩ f.oid (recLaunch f.record)).2 (pushTarget s f.core f.oid) f.oid
      { record := f.record, addr := f.addr, startWit := f.wit, fid := f.fid } false = some u) : firePush s f false = u := by
  simp only [firePush, hc, Bool.false_eq_true, if_false]
  exact pushOrPend_of_room _ hp

theorem freeTrig_units (s : State) (core idx : Nat) : (freeTrig s core idx).units = s.units := by
  unfold freeTrig
  dsimp only
  split
  · rfl
  · exact State.updCore_units _ _ _ rfl rfl

/-- A fire whose level is not cancelled puts its record into the deque of its target. -/
theorem fireArrives_pushes {s u : State} {n : Nat} {f : Fire} (hf : s.home.fires[n]? = some f) (hr : recRearm f.record = false) :
    let g := s.onHome fun t => { t with fires := dropAt t.fires n }
    let fired := launchCancelled g ⟨f.core, 3⟩ f.oid (recLaunch f.record)
    let target := pushTarget g f.core f.oid
    let e : DequeEntry := { record := f.record, addr := f.addr, startWit := f.wit, fid := f.fid }
    fired.1 = false → pushDeque fired.2 target f.oid e false = some u →
      (fireArrives s n).home.fires = dropAt s.home.fires n ∧ Listed e ((fireArrives s n).coreSt target).deque := by
  intro g fired target e hc hp
  have freed : (fireArrives s n).units = u.units := by
    simp only [fireArrives, hf, hr]
    rw [freeTrig_units, firePush_starts hc hp]
  obtain ⟨same, listed⟩ := pushDeque_units hp
  constructor
  · calc (fireArrives s n).home.fires = u.home.fires := congrArg Units.fires freed
      _ = fired.2.home.fires := congrArg Units.fires same
      _ = g.home.fires := congrArg Units.fires (launchCancelled_units ..)
  · rw [show ((fireArrives s n).coreSt target).deque = (u.coreSt target).deque from congrFun (congrArg Units.deques freed) target]
    exact listed

theorem Listed.spelt {e : DequeEntry} {d : List DequeEntry} (h : Listed e d) :
    ∃ x ∈ d, x.record = e.record ∧ x.addr = e.addr ∧ x.startWit = e.startWit ∧ x.fid = e.fid ∧ x.retry = e.retry := by
  obtain ⟨x, hx, same⟩ := h
  refine ⟨x, hx, ?_⟩
  rw [← same]
  exact ⟨rfl, rfl, rfl, rfl, rfl⟩

/-- The one push that waits at a core is made when there is room for it. -/
theorem retryPush_pushes {s u : State} {core : Nat} {e : DequeEntry} (hp : (s.coreSt core).pendPush = [⟨e, none⟩])
    (hu : pushDeque s core (recOwner e.record) e true = some u) :
    retryPush s core = some (u.updCore core fun k => { k with pendPush := [] }) := by
  have pend : (u.coreSt core).pendPush = [⟨e, none⟩] :=
    (congrFun (congrArg Units.pends (pushDeque_units hu).1) core).trans hp
  have range : List.range 1 = [0] := rfl
  simp [retryPush, hp, range, hu, State.updCore, pend, dropAt]

theorem retryPush_lists {s u : State} {core : Nat} {e : DequeEntry} (hp : (s.coreSt core).pendPush = [⟨e, none⟩])
    (hu : pushDeque s core (recOwner e.record) e true = some u) :
    (((retryPush s core).getD s).coreSt core).pendPush = [] ∧ Listed e (((retryPush s core).getD s).coreSt core).deque := by
  rw [retryPush_pushes hp hu, Option.getD_some, State.coreSt_updCore_same]
  exact ⟨rfl, (pushDeque_units hu).2⟩

/-! ### What translation and traces leave of the contexts -/

/-- What the contexts hold: the one that acts, and the others. -/
def State.ctxParts (s : State) : CtxId × Ctx × List (CtxId × Ctx) := (s.cur, s.cx, s.parked)

theorem State.ctxOf_of_ctxParts {s t : State} (h : t.ctxParts = s.ctxParts) (c : CtxId) : t.ctxOf c = s.ctxOf c := by
  rw [ctxParts, ctxParts] at h
  injection h with cur rest
  injection rest with cx parked
  rw [ctxOf, ctxOf, cur, cx, parked]

theorem foldl_ctxParts {α : Type} {f : State → α → State} (hf : ∀ s a, (f s a).ctxParts = s.ctxParts) (s : State) (l : List α) :
    (l.foldl f s).ctxParts = s.ctxParts := by
  induction l generalizing s with
  | nil => rfl
  | cons a l ih => exact (ih _).trans (hf s a)

theorem State.countEv_ctxParts (s : State) (c : CtxId) (code n oid launch : Nat) :
    (s.countEv c code n oid launch).ctxParts = s.ctxParts := by
  unfold State.countEv
  split <;> rfl

theorem touchHome_ctxParts (s : State) (c : CtxId) (oid owner line : Nat) (write paid : Bool) :
    (touchHome s c oid owner line write paid).ctxParts = s.ctxParts := rfl

theorem State.pass_ctxParts (s : State) (oid : Nat) (path : List (Nat × Nat)) : (s.pass oid path).ctxParts = s.ctxParts := rfl

theorem reachFor_ctxParts (s : State) (c : CtxId) (oid owner line : Nat) (arrived : Option Bool) :
    (reachFor s c oid owner line arrived).ctxParts = s.ctxParts := by
  unfold reachFor
  split
  · rfl
  · split <;> rfl

theorem tlbFill_ctxParts (s : State) (payer : Nat) (es : List TlbEntry) (cap idx : Nat) (e : TlbEntry) :
    (tlbFill s payer es cap idx e).2.ctxParts = s.ctxParts := by
  unfold tlbFill
  dsimp only
  split
  · rfl
  · split <;> rfl

theorem State.noteClass_ctxParts (s : State) (oid level vpage : Nat) (e : Word) :
    (s.noteClass oid level vpage e).ctxParts = s.ctxParts := by
  unfold State.noteClass
  split <;> rfl

theorem State.sealFrame_ctxParts (s : State) (w : Who) (e : Word) (pa : Nat) : (s.sealFrame w e pa).ctxParts = s.ctxParts := by
  unfold State.sealFrame
  split <;> rfl

theorem walkFrom_ctxParts (s : State) (c : CtxId) (oid payer : Nat) (va : Word) (level table : Nat) :
    (walkFrom s c oid payer va level table).2.ctxParts = s.ctxParts := by
  induction level generalizing s table with
  | zero =>
    unfold walkFrom
    grind [reachFor_ctxParts]
  | succ n ih =>
    have walkCache (t : State) (d w) : (t.updDie d w).ctxParts = t.ctxParts := rfl
    unfold walkFrom
    grind [reachFor_ctxParts, tlbFill_ctxParts]

theorem tlbTried_ctxParts (s : State) (c : CtxId) (oid payer : Nat) (va : Word) : (tlbTried s c oid payer va).2.ctxParts = s.ctxParts := by
  have tlb1 (t : State) (n e) : (tlb1Fill t n e).ctxParts = t.ctxParts := rfl
  have tlb2 (t : State) (n f) : (t.updCluster n f).ctxParts = t.ctxParts := rfl
  grind [tlbTried, State.countEv_ctxParts, walkFrom_ctxParts, tlbFill_ctxParts, State.noteClass_ctxParts]

theorem check_ctxParts (s : State) (c : CtxId) (w : Who) (va : Word) (n : Nat) (k : Kind) (payer : Nat) :
    ChkOk (·.2.ctxParts = s.ctxParts) (check s c w va n k payer) := by
  have tried := tlbTried_ctxParts s c w.oid payer va
  grind [check, translate, = except_map, tlbTranslate, ChkOk]

theorem traceWrite_ctxParts (s : State) (c : CtxId) (opener : Nat) (va : Word) (bs : List Byte) :
    ChkOk (·.ctxParts = s.ctxParts) (traceWrite s c opener va bs) := by
  have written (t : State) (oid p m w e pa) : ({ t.pass oid p with mem := m }.sealFrame w e pa).ctxParts = t.ctxParts :=
    State.sealFrame_ctxParts ..
  refine (check_ctxParts ..).bind fun r hr => ?_
  dsimp only
  exact .either .error (.either .error (.either .error (.ok ((written ..).trans hr))))

theorem State.trace_ctxParts (s : State) (oid kind payload : Nat) (c : CtxId) : (s.trace oid kind payload c).ctxParts = s.ctxParts := by
  unfold State.trace
  dsimp only
  split
  · rfl
  · split
    · rfl
    · split
      · rfl
      · split
        · rfl
        · next heq => exact ((traceWrite_ctxParts ..).of_eq heq :)

theorem passEvents_ctxParts (s : State) (core oid launch : Nat) : (passEvents s core oid launch).ctxParts = s.ctxParts := by
  unfold passEvents
  split
  · rfl
  · split <;> rfl

/-! ### Records that start, are stolen and are dispatched again (R281, R284, R285, R291) -/

theorem pickEntry_one (e : DequeEntry) : pickEntry [e] true = some 0 := by
  have range : List.range 1 = [0] := rfl
  simp [pickEntry, topPrio, range]

/-- Where no entry lies in memory, none is brought back. -/
theorem moveBack_none_spilled {s : State} {core : Nat} (h : ∀ x ∈ (s.coreSt core).deque, x.spill = none) (n : Nat) :
    moveBack core n s = s := by
  cases n with
  | zero => rfl
  | succ n =>
    have none_spilled : (List.range (s.coreSt core).deque.length).filter
        (fun i => ((s.coreSt core).deque[i]?).any (·.spill.isSome)) = [] := by
      refine List.filter_eq_nil_iff.2 fun i hi => ?_
      rw [List.mem_range] at hi
      simp [List.getElem?_eq_getElem hi, h _ (List.getElem_mem hi)]
    simp only [moveBack, none_spilled, List.getLast?_nil]

theorem mem_of_mem_dropAt {α : Type} {l : List α} {i : Nat} {a : α} (h : a ∈ dropAt l i) : a ∈ l := List.mem_of_mem_eraseIdx h

/-- Where no entry lies in memory, taking one is only that. -/
theorem dequeTake_none_spilled {s : State} {core : Nat} (h : ∀ x ∈ (s.coreSt core).deque, x.spill = none) (i : Nat) :
    dequeTake s core i = s.setDeque core (dropAt (s.coreSt core).deque i) := by
  simp only [dequeTake]
  rw [moveBack_none_spilled, ite_self]
  intro x hx
  rw [State.setDeque_deque] at hx
  exact h x (mem_of_mem_dropAt hx)

theorem readSpilled_none (s : State) (core : Nat) {e : DequeEntry} (h : e.spill = none) : readSpilled s core e = (e, s) := by
  simp only [readSpilled, h]

/-- The context of a firing that starts: x1 and x2, the entry point and the identity of the firing, and zeros. -/
def startCtx (s : State) (e : DequeEntry) : Ctx :=
  let r := e.record
  let oid := recOwner r
  { x := ((Vector.replicate 32 (0 : Word)).set 1 (recArg r)).set 2 e.addr
    pc := recEntry r, life := .running, crs := { cmode := oid == 0 }
    fir :=
      { oid := BitVec.ofNat 8 oid, isSealed := (s.ownerSt oid).isSealed, retry := e.retry, recov := recRec r
        prio := recPrio r, launch := BitVec.ofNat 12 (recLaunch r), fid := e.fid, record := r, recAddr := e.addr
        startWit := e.startWit } }

theorem startFiring_ctxOf (s : State) (c : CtxId) (e : DequeEntry) : (startFiring s c e).ctxOf c = startCtx s e := by
  unfold startFiring
  dsimp only
  rw [State.ctxOf_of_ctxParts (passEvents_ctxParts ..), State.ctxOf_of_ctxParts (State.trace_ctxParts ..), State.ctxOf_setCtx_same]
  rfl

theorem Ctx.getX_blank (r : XReg) : ({} : Ctx).getX r = 0 := by
  unfold Ctx.getX
  split
  · rfl
  · exact Vector.getElem_replicate ..

/-- The registers of a firing that starts (R281). -/
theorem startCtx_getX (s : State) (e : DequeEntry) (r : XReg) :
    (startCtx s e).getX r = if r = 2 then e.addr else if r = 1 then recArg e.record else 0 := by
  have read : (startCtx s e).getX r = ((({} : Ctx).setX 1 (recArg e.record)).setX 2 e.addr).getX r := rfl
  rw [read, Ctx.getX_setX, Ctx.getX_setX, Ctx.getX_blank]
  simp

theorem beginEntry_starts {s : State} {c : CtxId} {oid : Nat} {e : DequeEntry} (hr : e.resume = none)
    (hg : (launchCancelled s ⟨c.core, 3⟩ oid (recLaunch e.record)).1 = false) :
    beginEntry s c oid e = startFiring (launchCancelled s ⟨c.core, 3⟩ oid (recLaunch e.record)).2 c e := by
  simp only [beginEntry, hr, hg, Bool.false_eq_true, if_false]

/-- A context begins the one entry of its core's deque. -/
theorem dispatch_begins {s : State} {c : CtxId} {e : DequeEntry} (hc : canDispatch s c = true) (hd : (s.coreSt c.core).deque = [e])
    (hs : e.spill = none) : dispatch s c = beginEntry (dequeTake s c.core 0) c (s.coreOwner c.core) e := by
  simp only [dispatch, hc, Bool.not_true, Bool.false_eq_true, if_false, hd, pickEntry_one, List.getElem?_cons_zero,
    readSpilled_none s c.core hs]

theorem dispatch_deque {s : State} {core : Nat} {e : DequeEntry} (hd : (s.coreSt core).deque = [e]) (hs : e.spill = none) :
    ((dequeTake s core 0).coreSt core).deque = [] := by
  rw [dequeTake_none_spilled (by simp [hd, hs]), State.setDeque_deque, hd]
  rfl

theorem pickIndex_lt (val : BitVec 128) {n : Nat} (hn : 0 < n) : pickIndex val n < n := by
  rw [pickIndex, Nat.div_lt_iff_lt_mul (by decide), Nat.mul_comm]
  exact Nat.mul_lt_mul_of_pos_left (val.setWidth 64).isLt hn

/-- An idle core asks one of the other cores of its owner, drawn at random (R284). -/
theorem stealAsk_asks {s : State} {core : Nat} (hc : canSteal s core = true)
    (ho : (s.coresOf (s.coreOwner core)).filter (· != core) ≠ []) (hn : (s.coreSt core).stealFails < 64) :
    ∃ v ∈ s.coresOf (s.coreOwner core), v ≠ core ∧ (stealAsk s core).net.steals = s.net.steals ++ [⟨core, v⟩] := by
  have asked := pickIndex_lt (s.draw (s.coreOwner core) 9 core).1 (List.length_pos_of_ne_nil ho)
  have among := List.getElem_mem asked
  rw [List.mem_filter] at among
  refine ⟨_, among.1, by simpa using among.2, ?_⟩
  have few : ¬ 64 + ((s.coresOf (s.coreOwner core)).filter (· != core)).length ≤ (s.coreSt core).stealFails := by omega
  simp only [stealAsk, hc, Bool.not_true, Bool.false_eq_true, if_false, List.isEmpty_eq_false_iff.2 ho, few, decide_false, Bool.or_false,
    hn, if_true, List.getElem?_eq_getElem asked]
  exact congrArg Units.steals (State.countEv_units ..)

/-- A push leaves the deques of the other cores, and what is on its way. -/
theorem pushOrPend_elsewhere (s : State) (core oid : Nat) (e : DequeEntry) (old : Bool) (trig : Option Nat) :
    let t := pushOrPend s core oid e old trig
    (∀ n, core ≠ n → (t.coreSt n).deque = (s.coreSt n).deque) ∧ t.net.steals = s.net.steals ∧
      t.net.redispatch = s.net.redispatch := by
  intro t
  dsimp only [t, pushOrPend]
  split
  · next u hu =>
    obtain ⟨same, -⟩ := pushDeque_units hu
    exact ⟨fun n hn => same.other hn, congrArg Units.steals same, congrArg Units.redispatch same⟩
  · refine ⟨fun n hn => ?_, rfl, rfl⟩
    rw [State.coreSt_updCore, if_neg hn]

/-- A pushed entry stands in the deque or waits for room. -/
theorem pushOrPend_lists (s : State) (core oid : Nat) (e : DequeEntry) (old : Bool) (trig : Option Nat) :
    let t := pushOrPend s core oid e old trig
    Listed e (t.coreSt core).deque ∨ ⟨e, trig⟩ ∈ (t.coreSt core).pendPush := by
  intro t
  dsimp only [t, pushOrPend]
  split
  · next u hu => exact .inl (pushDeque_units hu).2
  · rw [State.coreSt_updCore_same]
    exact .inr (by simp)

theorem beginEntry_units (s : State) (c : CtxId) (oid : Nat) (e : DequeEntry) : (beginEntry s c oid e).units = s.units := by
  unfold beginEntry
  split
  · split
    · next heq => exact (resumeSlot_units ..).of_eq heq
    · exact State.setCtx_units ..
  · have gone := launchCancelled_units s ⟨c.core, 3⟩ oid (recLaunch e.record)
    dsimp only
    split
    · exact (levelDrop_units ..).trans gone
    · exact (startFiring_units ..).trans gone

/-- A record that its core could not run is pushed to a live core of its owner. -/
theorem redispatch_pushes {s : State} {n : Nat} {r : Redispatch} (hr : s.net.redispatch[n]? = some r) :
    (redispatch s n).net.redispatch = dropAt s.net.redispatch n ∧ ∃ x,
      Listed r.entry ((redispatch s n).coreSt x).deque ∨ ⟨r.entry, none⟩ ∈ ((redispatch s n).coreSt x).pendPush := by
  have pushed (t : State) (x : Nat) (ht : t.net.redispatch = dropAt s.net.redispatch n) :
      let u := pushOrPend t x r.oid r.entry true none
      u.net.redispatch = dropAt s.net.redispatch n ∧
        ∃ x, Listed r.entry (u.coreSt x).deque ∨ ⟨r.entry, none⟩ ∈ (u.coreSt x).pendPush :=
    ⟨(pushOrPend_elsewhere t x ..).2.2.trans ht, x, pushOrPend_lists ..⟩
  simp only [redispatch, hr]
  split
  · exact pushed _ _ rfl
  · exact pushed _ _ rfl

/-- A steal that is answered: it is no longer under way, and the deque of its victim is `d`. -/
def Answered (n victim : Nat) (d : List DequeEntry) (s t : State) : Prop :=
  t.net.steals = dropAt s.net.steals n ∧ (t.coreSt victim).deque = d

namespace Answered

variable {n victim : Nat} {d : List DequeEntry} {s t : State}

theorem of_units (h : Answered n victim d s t) {u : State} (e : u.units = t.units) : Answered n victim d s u :=
  ⟨(congrArg Units.steals e).trans h.1, (congrFun (congrArg Units.deques e) victim).trans h.2⟩

theorem pushOrPend (h : Answered n victim d s t) {thief : Nat} (hv : thief ≠ victim) (oid : Nat) (e : DequeEntry) (old : Bool)
    (trig : Option Nat) : Answered n victim d s (pushOrPend t thief oid e old trig) := by
  obtain ⟨deque, steals, -⟩ := pushOrPend_elsewhere t thief oid e old trig
  exact ⟨steals.trans h.1, (deque victim hv).trans h.2⟩

end Answered

/-- What becomes of an entry that a core has stolen: a free context begins it, or it enters the core's deque. -/
def stolen (s : State) (thief oid : Nat) (e : DequeEntry) : State :=
  match [0, 1].find? fun w => (s.ctxOf ⟨thief, w⟩).life == .free with
  | some w => if coreOpen s thief && !resumesFirst s thief then beginEntry s ⟨thief, w⟩ oid e else pushOrPend s thief oid e false none
  | none => pushOrPend s thief oid e false none

theorem Answered.stolen {n victim : Nat} {d : List DequeEntry} {s t : State} (h : Answered n victim d s t) {thief : Nat}
    (hv : thief ≠ victim) (oid : Nat) (e : DequeEntry) : Answered n victim d s (stolen t thief oid e) := by
  unfold Machine.stolen
  split
  · split
    · exact h.of_units (beginEntry_units ..)
    · exact h.pushOrPend hv ..
  · exact h.pushOrPend hv ..

/-- A steal that is answered takes the entry out of the victim's deque. -/
theorem stealAnswer_takes {s : State} {n j : Nat} {y : Steal} {e : DequeEntry} (hy : s.net.steals[n]? = some y) (hv : y.thief ≠ y.victim)
    (ho : s.coreOwner y.victim = s.coreOwner y.thief) (hm : 1 < (s.coreSt y.victim).deque.length ∨ hasFree s y.victim = false)
    (hp : pickEntry (s.coreSt y.victim).deque false = some j) (he : (s.coreSt y.victim).deque[j]? = some e)
    (hs : ∀ x ∈ (s.coreSt y.victim).deque, x.spill = none) :
    Answered n y.victim (dropAt (s.coreSt y.victim).deque j) s (stealAnswer s n) := by
  have granted : (s.coreOwner y.victim != s.coreOwner y.thief ||
      decide ((s.coreSt y.victim).deque.length ≤ 1) && hasFree s y.victim) = false := by
    obtain hm | hm := hm
    · simp [ho, hm]
    · simp [ho, hm]
  obtain ⟨gone, hgone⟩ : ∃ g, g = s.onNet fun t => { t with steals := dropAt t.steals n } := ⟨_, rfl⟩
  have deque : (gone.coreSt y.victim).deque = (s.coreSt y.victim).deque := by rw [hgone]; rfl
  have granted : (gone.coreOwner y.victim != gone.coreOwner y.thief ||
      decide ((s.coreSt y.victim).deque.length ≤ 1) && hasFree gone y.victim) = false := by rw [hgone]; exact granted
  have given : stealAnswer s n = stolen ((dequeTake gone y.victim j).updCore y.thief fun k => { k with stealFails := 0 }) y.thief
      (gone.coreOwner y.thief) e := by
    simp only [stealAnswer, hy, ← hgone, deque, granted, Bool.false_eq_true, if_false, hp, he, Option.bind_some, Option.map_some,
      readSpilled_none gone y.victim (hs e (List.mem_of_getElem? he))]
    rfl
  have taken : Answered n y.victim (dropAt (s.coreSt y.victim).deque j) s (dequeTake gone y.victim j) := by
    rw [dequeTake_none_spilled (deque ▸ hs), deque, hgone]
    exact ⟨rfl, State.setDeque_deque ..⟩
  rw [given]
  exact (taken.of_units (State.updCore_units _ _ _ rfl rfl)).stolen hv ..

/-! ### The clauses of the statement that join several rules -/

/-- What presenting an announcement of a core leaves. -/
theorem announcing_presents {s : State} {core : Nat} {a : Announce} {rest : List Announce} (hf : (s.coreSt core).failed = false)
    (hq : (s.coreSt core).annQueue = a :: rest) (hc : a.core = core) (hr : ∀ b ∈ rest, b.id ≠ a.id)
    (hm : (s.ownerSt a.oid).rpl.mode = 0) (hw : a.ctx.which < 3) :
    let t := announcing s core
    (t.coreSt core).annQueue = rest ∧ t.net.announced = s.net.announced ++ [{ a with window := annWindow s core }] ∧ t.mem = s.mem ∧
    ((s.ctxOf a.ctx).wait = some (.window a.id) → (t.ctxOf a.ctx).wait = none ∧
      (t.ctxOf a.ctx).verdict = some (BitVec.ofNat 64 ((64 * annWindow s core + 384) % 2 ^ 48), 0)) := by
  have others : (a :: rest).filter (fun b => b.id != a.id) = rest := by
    rw [List.filter_cons_of_neg (by simp), List.filter_eq_self]
    exact fun b hb => by simpa using hr b hb
  subst hc
  rw [announcing_alone hf hq rfl hm]
  obtain ⟨queue, joined⟩ := present_leaves s (annWindow s a.core) a hw
  rw [hq, others] at queue
  exact ⟨queue, joined⟩

theorem contributed_leaves {s u : State} {core : Nat} {o : MatOp} (hr : engineRuns s core = true)
    (hh : (s.coreSt core).slice.head? = some o) (hs : o.started = true) (hd : o.discard = false) (hf : opFault o = none)
    (hc : contribute s o = .done u) :
    let t := completeOp s core
    (t.coreSt core).slice = (u.coreSt core).slice.filter (fun (x : MatOp) => x.id != o.id) ∧ t.mem = u.mem ∧
      t.home.partials = u.home.partials := by
  rw [completeOp_done hr hh hs hd hf hc]
  obtain ⟨mem, home, slice⟩ := leaveSlice_leaves u core o none
  exact ⟨slice, mem, congrArg HomeSt.partials home⟩

theorem faulted_leaves {s : State} {core : Nat} {o : MatOp} {z : Cause × Option Word} (hr : engineRuns s core = true)
    (hh : (s.coreSt core).slice.head? = some o) (hs : o.started = true) (hd : o.discard = false)
    (hz : opFault o = some z ∨ opFault o = none ∧ contribute s o = .fault z) (hc : o.ctx.which < 3) :
    let t := completeOp s core
    t.mem = s.mem ∧ (t.coreSt core).slice = (s.coreSt core).slice.filter (fun (x : MatOp) => x.id != o.id) ∧
      (t.ctxOf o.ctx).engFaults = (s.ctxOf o.ctx).engFaults ++ [⟨z.1, some (z.2.getD 0), o.pc, o.id⟩] := by
  rw [completeOp_faults hr hh hs hd hz]
  obtain ⟨mem, -, slice⟩ := leaveSlice_leaves s core o (some z)
  exact ⟨mem, slice, leaveSlice_faults s core z hc⟩

/-- What a context that starts a record holds (R281). -/
theorem dispatch_holds {s : State} {c : CtxId} {e : DequeEntry} (hc : canDispatch s c = true) (hd : (s.coreSt c.core).deque = [e])
    (hr : e.resume = none) (hs : e.spill = none)
    (hg : (launchCancelled (dequeTake s c.core 0) ⟨c.core, 3⟩ (s.coreOwner c.core) (recLaunch e.record)).1 = false) :
    ∃ t, (dispatch s c).ctxOf c = startCtx t e ∧ ((dispatch s c).coreSt c.core).deque = [] := by
  have started : dispatch s c = startFiring (launchCancelled (dequeTake s c.core 0) ⟨c.core, 3⟩ (s.coreOwner c.core)
      (recLaunch e.record)).2 c e := (dispatch_begins hc hd hs).trans (beginEntry_starts hr hg)
  refine ⟨_, by rw [started]; exact startFiring_ctxOf .., ?_⟩
  calc ((dispatch s c).coreSt c.core).deque
      = ((dequeTake s c.core 0).coreSt c.core).deque := by
        rw [started]
        exact congrFun (congrArg Units.deques ((startFiring_units ..).trans (launchCancelled_units ..))) c.core
    _ = [] := dispatch_deque hd hs

end Sys2Proof.Machine

open Sys2Proof Machine Claim in
/-- Settles O57, one rule for each engine. -/
theorem enginesAct : Obligations.EnginesAct := by
  unfold Obligations.EnginesAct
  intro s u core cl n w j word op c o p a v q d l slot h f e y r z rest me k runs onSlice old g b started fired i
  refine ⟨?present, ?apply, ?start, ?complete, ?gang, ?ramp, ?hold, ?clear, ?copyStart, ?copyEnd, ?land, ?fire, ?retry, ?dispatch, ?ask,
    ?answer, ?redispatch⟩
  case present =>
    intro hf hq hc hr hm hw
    exact ⟨_, rfl, announcing_presents hf hq hc hr hm hw⟩
  case apply =>
    intro hw ha hk _ _ hm
    obtain ⟨mem, left, word⟩ := applyWindow_word hw ha hk hm
    exact ⟨_, rfl, mem, left, word⟩
  case start =>
    intro hr hu hp
    exact ⟨_, rfl, by rw [startOp_solo hr hu hp]; exact beginOp_starts s core o o.a⟩
  case complete =>
    intro hr hh hs hd
    exact ⟨fun hf hc => ⟨_, rfl, contributed_leaves hr hh hs hd hf hc⟩, fun hz hc => ⟨_, rfl, faulted_leaves hr hh hs hd hz hc⟩⟩
  case gang =>
    intro hf hp hc ho hn ht
    exact ⟨_, rfl, by rw [gangExpires_fails hf hp hc ho hn ht]; exact gangFail_met hc ho⟩
  case ramp => exact fun hs hh ht => ⟨_, rfl, rampDown_idle hs hh ht⟩
  case hold => exact fun x y hh ht => ⟨_, rfl, holdEnds_over hh ht⟩
  case clear => exact fun hc => ⟨_, rfl, laneCleared_clears hc⟩
  case copyStart => exact fun hh hf hq _ => ⟨_, rfl, copyBegins_starts hh hf hq⟩
  case copyEnd =>
    intro hq hs
    exact ⟨fun hn hh hw => congrArg _ (copyGoes_works hq hs hn hh hw),
      fun hn hd hc => ⟨_, rfl, by rw [copyGoes_completes hq hs hn hd]; exact copyComplete_ends hq hc⟩⟩
  case land => exact fun hd ha => ⟨_, rfl, deliver_lands hd ha⟩
  case fire =>
    intro hf hc hr hu
    obtain ⟨left, listed⟩ := fireArrives_pushes hf hr hc hu
    obtain ⟨x, hx, record, addr, wit, fid, -⟩ := listed.spelt
    exact ⟨_, rfl, left, x, hx, record, addr, wit, fid⟩
  case retry =>
    intro hp hu
    obtain ⟨left, listed⟩ := retryPush_lists hp hu
    obtain ⟨x, hx, record, addr, -, fid, -⟩ := listed.spelt
    exact ⟨_, rfl, left, x, hx, record, addr, fid⟩
  case dispatch =>
    intro hc hd hr hs hg
    obtain ⟨t, ctx, deque⟩ := dispatch_holds hc hd hr hs hg
    refine ⟨_, rfl, ?_⟩
    dsimp only
    rw [ctx]
    exact ⟨rfl, rfl, startCtx_getX .., startCtx_getX .., fun r h1 h2 => by rw [startCtx_getX, if_neg h2, if_neg h1],
      rfl, rfl, rfl, rfl, deque⟩
  case ask => exact fun hc ho hn => ⟨_, rfl, stealAsk_asks hc ho hn⟩
  case answer => exact fun hy hv ho hm hp he hs => ⟨_, rfl, stealAnswer_takes hy hv ho hm hp he hs⟩
  case redispatch =>
    intro hr
    obtain ⟨left, x, listed | waits⟩ := redispatch_pushes hr
    · obtain ⟨y, hy, record, -, -, fid, retry⟩ := listed.spelt
      exact ⟨_, rfl, left, x, .inl ⟨y, hy, record, fid, retry⟩⟩
    · exact ⟨_, rfl, left, x, .inr waits⟩

end

section
/-! The encoder and the decoder agree (O46, R34 to R56). -/

namespace Sys2Proof.Chains

/-! ### Words and payloads -/

@[simp] theorem opcodeOf_mkWord (op : BitVec 6) (p : BitVec 10) : opcodeOf (mkWord op p) = op :=
  BitVec.extractLsb'_append_eq_left
@[simp] theorem payloadOf_mkWord (op : BitVec 6) (p : BitVec 10) : payloadOf (mkWord op p) = p :=
  BitVec.setWidth_append_eq_right

/-- A field of a base word lies in its payload. -/
theorem setWidth_mkWord {w : Nat} (h : w ≤ 10) (op : BitVec 6) (p : BitVec 10) : (mkWord op p).setWidth w = p.setWidth w := by
  conv_rhs => rw [← payloadOf_mkWord op p, payloadOf, BitVec.setWidth_setWidth_of_le _ h]
theorem extractLsb'_mkWord (op : BitVec 6) (p : BitVec 10) : (mkWord op p).extractLsb' 5 5 = p.extractLsb' 5 5 := by
  conv_rhs => rw [← payloadOf_mkWord op p]
  ext i hi
  simp [payloadOf]; omega

/-- The bits of an RGX payload (R38). -/
theorem getLsbD_rgxPayload (f : Fields) (i : Nat) : (rgxPayload f).getLsbD i =
    if i < 2 then f.size.getLsbD i else if i = 2 then f.b.getLsbD 5 else if i = 3 then f.a.getLsbD 5
    else if i = 4 then f.c.getLsbD 5 else decide (i - 5 < 5) && f.c.getLsbD (i - 5) := by
  show BitVec.getLsbD (f.c.setWidth 5 ++ f.c.extractLsb' 5 1 ++ f.a.extractLsb' 5 1 ++ f.b.extractLsb' 5 1 ++ f.size) i = _
  simp only [BitVec.getLsbD_append, BitVec.getLsbD_extractLsb', BitVec.getLsbD_setWidth]
  grind

/-- Equal bits are equal as words of one bit. -/
theorem extractLsb'_one {n m j k : Nat} {x : BitVec n} {y : BitVec m} (h : x.getLsbD j = y.getLsbD k) :
    x.extractLsb' j 1 = y.extractLsb' k 1 := by
  ext i hi
  obtain rfl : i = 0 := by omega
  rw [BitVec.getElem_extractLsb', BitVec.getElem_extractLsb']
  exact h

theorem rgxPayload_a (f : Fields) : (rgxPayload f).extractLsb' 3 1 = f.a.extractLsb' 5 1 :=
  extractLsb'_one (getLsbD_rgxPayload f 3)
theorem rgxPayload_b (f : Fields) : (rgxPayload f).extractLsb' 2 1 = f.b.extractLsb' 5 1 :=
  extractLsb'_one (getLsbD_rgxPayload f 2)
theorem rgxPayload_c_high (f : Fields) : (rgxPayload f).extractLsb' 4 1 = f.c.extractLsb' 5 1 :=
  extractLsb'_one (getLsbD_rgxPayload f 4)
theorem rgxPayload_c_low (f : Fields) : (rgxPayload f).extractLsb' 5 5 = f.c.setWidth 5 := by
  ext i hi
  rw [BitVec.getElem_extractLsb', getLsbD_rgxPayload, if_neg (by omega), if_neg (by omega), if_neg (by omega),
    if_neg (by omega), Nat.add_sub_cancel_left, BitVec.getElem_setWidth, decide_eq_true hi, Bool.true_and]
theorem rgxPayload_size (f : Fields) : (rgxPayload f).setWidth 2 = f.size := by
  ext i hi
  rw [BitVec.getElem_setWidth, getLsbD_rgxPayload, if_pos hi, BitVec.getLsbD_eq_getElem hi]

/-- A register number is its bit 5 over its low bits. -/
theorem high_or_low (r : BitVec 6) : ((r.extractLsb' 5 1).setWidth 6 <<< 5) ||| (r.setWidth 5).setWidth 6 = r := by
  revert r; decide

/-- RGX carries nothing where the registers lie below 32, the c operand is 0 and the size is code 0. -/
theorem rgxPayload_eq_zero (f : Fields) :
    rgxPayload f = 0 ↔ f.c = 0 ∧ f.size = 0 ∧ f.a.msb = false ∧ f.b.msb = false := by
  constructor
  · intro h
    have low : ∀ r : BitVec 6, r.extractLsb' 5 1 = 0 → r.msb = false := by decide
    have zero : ∀ r : BitVec 6, r.extractLsb' 5 1 = 0 → r.setWidth 5 = 0 → r = 0 := by decide
    exact ⟨zero _ (by rw [← rgxPayload_c_high, h]; rfl) (by rw [← rgxPayload_c_low, h]; rfl),
      by rw [← rgxPayload_size, h]; rfl, low _ (by rw [← rgxPayload_a, h]; rfl), low _ (by rw [← rgxPayload_b, h]; rfl)⟩
  · rintro ⟨hc, hs, ha, hb⟩
    refine BitVec.eq_of_getLsbD_eq fun i _ => ?_
    rw [BitVec.msb_eq_getLsbD_last] at ha hb
    rw [getLsbD_rgxPayload, hc, hs, ha, hb]
    simp

/-! ### Scanning a chain -/

/-- Whether the chain of some fields has an RGX word, and a PGX word (R41, R53). -/
def rgxNeeded (s : Shape) (f : Fields) : Bool := s.three || rgxPayload f != 0
def pgxNeeded (page : Nat) (f : Fields) : Bool := page != 0 || f.mod != 0

/-- What the scan of R41 is to leave of the words of some fields. -/
def chainOf (page op : Nat) (s : Shape) (f : Fields) : Chain where
  imxCount := imxNeeded s f.imm
  imx := (f.imm.extractLsb' s.form.width (10 * imxNeeded s f.imm)).setWidth 40
  rgx := if rgxNeeded s f then some (rgxPayload f) else none
  pgx := if pgxNeeded page f then some (BitVec.ofNat 4 page ++ f.mod) else none
  base := mkWord (BitVec.ofNat 6 op) (basePayload s f)

/-- The IMX words of an operand give, behind the bits that stood before, the bits of the operand above the base word's field. -/
theorem scanWords_imxWords (w : Nat) (imm : Word) (rest : List Half) : ∀ (k : Nat) (c : Chain), c.rgx = none → c.pgx = none →
    c.imxCount + k ≤ 4 → scanWords c (imxWords w imm k ++ rest) =
      scanWords { c with imxCount := c.imxCount + k, imx := (c.imx <<< (10 * k)) ||| (imm.extractLsb' w (10 * k)).setWidth 40 } rest
  | 0, c, _, _, _ => by simp [imxWords]
  | k + 1, c, hr, hp, hk => by
    let d : Chain := { c with
      imxCount := c.imxCount + 1, imx := (c.imx <<< 10) ||| (imm.extractLsb' (w + 10 * k) 10).setWidth 40 }
    have step : scanWord c (mkWord 0x3c (imm.extractLsb' (w + 10 * k) 10)) = .ok (.more d) := by
      have room : ¬ 4 ≤ c.imxCount := by omega
      simp [scanWord, Chain.prefixes, hr, hp, room, d]
    have bits : (d.imx <<< (10 * k)) ||| (imm.extractLsb' w (10 * k)).setWidth 40 =
        (c.imx <<< (10 * (k + 1))) ||| (imm.extractLsb' w (10 * (k + 1))).setWidth 40 := by
      ext i hi
      simp [d]
      grind
    rw [imxWords, List.cons_append, scanWords, step]
    simp only
    rw [scanWords_imxWords w imm rest k d hr hp (by simp only [d]; omega), bits]
    simp only [d, Nat.add_assoc, Nat.add_comm 1 k]

/-- An RGX word, where there is one. -/
theorem scanWords_rgx (c : Chain) (b : Bool) (p : BitVec 10) (rest : List Half) (hr : c.rgx = none) (hp : c.pgx = none)
    (room : c.imxCount + b.toNat ≤ 4) :
    scanWords c ((if b then [mkWord 0x3d p] else []) ++ rest) = scanWords { c with rgx := if b then some p else none } rest := by
  cases b with
  | false => rw [← hr]; rfl
  | true =>
    have room : ¬ 4 ≤ c.imxCount := by simp only [Bool.toNat_true] at room; omega
    have step : scanWord c (mkWord 0x3d p) = .ok (.more { c with rgx := some p }) := by
      simp [scanWord, Chain.prefixes, hr, hp, room]
    simp only [if_true, List.singleton_append, scanWords, step]

/-- A PGX word, where there is one. -/
theorem scanWords_pgx (c : Chain) (b : Bool) (p : BitVec 10) (rest : List Half) (hp : c.pgx = none)
    (room : c.imxCount + c.rgx.isSome.toNat + b.toNat ≤ 4) :
    scanWords c ((if b then [mkWord 0x3e p] else []) ++ rest) = scanWords { c with pgx := if b then some p else none } rest := by
  cases b with
  | false => rw [← hp]; rfl
  | true =>
    have room : ¬ 4 ≤ c.imxCount + c.rgx.isSome.toNat := by simp only [Bool.toNat_true] at room; omega
    have step : scanWord c (mkWord 0x3e p) = .ok (.more { c with pgx := some p }) := by
      simp [scanWord, Chain.prefixes, hp, room]
    simp only [if_true, List.singleton_append, scanWords, step]

/-- The base word ends the chain. -/
theorem scanWords_base (c : Chain) {op : Nat} (h : op < 0x3c) (p : BitVec 10) (rest : List Half) :
    scanWords c (mkWord (BitVec.ofNat 6 op) p :: rest) = .ok ({ c with base := mkWord (BitVec.ofNat 6 op) p }, rest) := by
  have hn : (BitVec.ofNat 6 op).toNat = op := by rw [BitVec.toNat_ofNat]; omega
  have legal : BitVec.ofNat 6 op ≠ 0x3f := fun k => by
    have := congrArg BitVec.toNat k
    rw [hn] at this
    exact absurd this (by show op ≠ 63; omega)
  have step : scanWord c (mkWord (BitVec.ofNat 6 op) p) = .ok (.last { c with base := mkWord (BitVec.ofNat 6 op) p }) := by
    rw [scanWord, opcodeOf_mkWord, if_neg legal, hn, if_pos h]
  rw [scanWords, step]

/-- The scan reads the words of some fields, where they are at most four beside the base word. -/
theorem scanWords_emit {page op : Nat} {s : Shape} {f : Fields} (rest : List Half) (hop : op < 0x3c)
    (room : imxNeeded s f.imm ≤ imxRoom (rgxNeeded s f) (pgxNeeded page f)) :
    scanWords {} (emit page op s f ++ rest) = .ok (chainOf page op s f, rest) := by
  have hr : (rgxNeeded s f).toNat ≤ 1 := Bool.toNat_le _
  have hp : (pgxNeeded page f).toNat ≤ 1 := Bool.toNat_le _
  have fits : imxNeeded s f.imm + (rgxNeeded s f).toNat + (pgxNeeded page f).toNat ≤ 4 := by
    rw [imxRoom] at room; omega
  have words : emit page op s f ++ rest = imxWords s.form.width f.imm (imxNeeded s f.imm) ++
      ((if rgxNeeded s f then [mkWord 0x3d (rgxPayload f)] else []) ++
      ((if pgxNeeded page f then [mkWord 0x3e (BitVec.ofNat 4 page ++ f.mod)] else []) ++
      (mkWord (BitVec.ofNat 6 op) (basePayload s f) :: rest))) := by
    simp only [emit, List.append_assoc, List.singleton_append]; rfl
  have isSome : (if rgxNeeded s f then some (rgxPayload f) else none).isSome = rgxNeeded s f := by
    cases rgxNeeded s f <;> rfl
  rw [words, scanWords_imxWords _ _ _ _ _ rfl rfl (by show 0 + _ ≤ 4; omega),
    scanWords_rgx _ _ _ _ rfl rfl (by show 0 + _ + _ ≤ 4; omega),
    scanWords_pgx _ _ _ _ rfl (by simp only [isSome]; omega), scanWords_base _ hop]
  simp [chainOf]

/-! ### Reading the fields back -/

/-- What the tables of R61 to R68 have in common: only form A names a second register, forms J and N name none, the two- and
three-operand forms name one, and the field that must be 0 is that of form N. -/
abbrev Regular (s : Shape) : Prop :=
  (s.form = .a ∨ s.b = .none) ∧ (s.form = .j ∨ s.form = .n → s.a = .none) ∧ (s.three = true → s.a ≠ .none) ∧
    (s.imm = .mustBeZero → s.form = .n)

set_option maxRecDepth 10000 in
theorem shapeOf_regular : ∀ page < 8, ∀ op < 0x3c, (shapeOf page op).all (fun s => decide (Regular s)) = true := by
  decide

/-- The operand of some fields fits the base word and the IMX words that the other prefixes leave room for. -/
def ImmFits (page : Nat) (s : Shape) (f : Fields) : Prop :=
  match s.imm with
  | .signed => fitsSigned (s.form.width + 10 * imxRoom (rgxNeeded s f) (pgxNeeded page f)) f.imm = true
  | .zero => fitsZero (s.form.width + 10 * imxRoom (rgxNeeded s f) (pgxNeeded page f)) f.imm = true
  | .field => fitsZero s.form.width f.imm = true
  | _ => f.imm = 0

/-- Fields that a chain can carry: each legal in its shape. -/
structure Legal (page op : Nat) (s : Shape) (f : Fields) : Prop where
  page_lt : page < 8
  op_lt : op < 0x3c
  shape : shapeOf page op = some s
  modifier : modOk s.mod f.mod = true
  size : sizeOk s.size f.size = true
  a : fldOk s.a f.a = true
  b : fldOk s.b f.b = true
  c : fldOk s.c f.c = true
  imm : ImmFits page s f

theorem imxRoom_le (r p : Bool) : imxRoom r p ≤ 4 := Nat.le_trans (Nat.sub_le _ _) (Nat.sub_le _ _)

/-- Of the numbers of IMX words, the first that fits, where one up to `n` does. -/
theorem first_fits (fits : Nat → Bool) {n : Nat} (hn : n ≤ 4) (h : fits n = true) :
    let k := if fits 0 then 0 else if fits 1 then 1 else if fits 2 then 2 else if fits 3 then 3 else 4
    k ≤ n ∧ fits k = true := by
  have cases : n = 0 ∨ n = 1 ∨ n = 2 ∨ n = 3 ∨ n = 4 := by omega
  dsimp only
  split_ifs with h0 h1 h2 h3
  all_goals rcases cases with rfl | rfl | rfl | rfl | rfl <;> simp_all

theorem fitsZero_zero (n : Nat) : fitsZero n 0 = true := by simp [fitsZero]
theorem fitsSigned_zero (n : Nat) : fitsSigned n 0 = true := by
  simp [fitsSigned, BitVec.signExtend_eq_setWidth_of_msb_false]

/-- An operand of 0 fits everywhere. -/
theorem ImmFits.of_zero {page : Nat} {s : Shape} {f : Fields} (h : f.imm = 0) : ImmFits page s f := by
  unfold ImmFits
  split
  · rw [h]; exact fitsSigned_zero _
  · rw [h]; exact fitsZero_zero _
  · rw [h]; exact fitsZero_zero _
  · exact h

/-- The operand fits the base word with `k` IMX words, signed or zero-extended as the shape says. -/
def fitsWith (s : Shape) (imm : Word) (k : Nat) : Bool :=
  if s.imm == .signed then fitsSigned (10 * k + s.form.width) imm else fitsZero (10 * k + s.form.width) imm

/-- The encoder takes the fewest IMX words that fit (R53), where the shape takes any. -/
theorem imxNeeded_of_uses {s : Shape} (imm : Word) (h : s.usesImx = true) : imxNeeded s imm =
    if fitsWith s imm 0 then 0 else if fitsWith s imm 1 then 1 else if fitsWith s imm 2 then 2 else if fitsWith s imm 3 then 3
    else 4 := by
  rw [imxNeeded, h]; rfl
theorem imxNeeded_of_not_uses {s : Shape} (imm : Word) (h : s.usesImx = false) : imxNeeded s imm = 0 := by
  rw [imxNeeded, h]; rfl

theorem ImmFits.fitsWith_room {page : Nat} {s : Shape} {f : Fields} (h : ImmFits page s f) (hu : s.usesImx = true) :
    fitsWith s f.imm (imxRoom (rgxNeeded s f) (pgxNeeded page f)) = true := by
  unfold ImmFits at h
  rw [Nat.add_comm] at h
  cases hs : s.imm <;> simp [Shape.usesImx, hs] at hu h <;> simp only [fitsWith, hs]
  case signed => exact h
  case zero => exact h
  case ignored => rw [h]; exact fitsZero_zero _

/-- An operand that fits takes no more IMX words than there is room for (R41, R53), and fits with those. -/
theorem ImmFits.imxNeeded_le_room {page : Nat} {s : Shape} {f : Fields} (h : ImmFits page s f) :
    imxNeeded s f.imm ≤ imxRoom (rgxNeeded s f) (pgxNeeded page f) := by
  cases hu : s.usesImx with
  | false => rw [imxNeeded_of_not_uses _ hu]; exact Nat.zero_le _
  | true => rw [imxNeeded_of_uses _ hu]; exact (first_fits _ (imxRoom_le _ _) (h.fitsWith_room hu)).1
theorem ImmFits.fitsWith_imxNeeded {page : Nat} {s : Shape} {f : Fields} (h : ImmFits page s f) (hu : s.usesImx = true) :
    fitsWith s f.imm (imxNeeded s f.imm) = true := by
  rw [imxNeeded_of_uses _ hu]; exact (first_fits _ (imxRoom_le _ _) (h.fitsWith_room hu)).2

theorem form_width_le (s : Shape) : s.form.width ≤ 10 := by cases s.form <;> decide

/-- The base word's immediate field holds the low bits of the operand (R35). -/
theorem base_imm (op : BitVec 6) (s : Shape) (f : Fields) :
    (mkWord op (basePayload s f)).setWidth s.form.width = f.imm.setWidth s.form.width := by
  rw [setWidth_mkWord (form_width_le s), basePayload]
  cases s.form with
  | a => exact Subsingleton.elim (α := BitVec 0) _ _
  | i => exact BitVec.setWidth_append_eq_right
  | b => exact BitVec.setWidth_append_eq_right
  | j => exact BitVec.setWidth_eq _
  | n => exact BitVec.setWidth_eq _

/-- The bits above the base word's field and those in it make up the low bits of the operand (R36). -/
theorem imx_or_base (imm : Word) {w k : Nat} (hk : k ≤ 4) :
    (((imm.extractLsb' w (10 * k)).setWidth 40).setWidth 64 <<< w) ||| ((imm.setWidth w).setWidth 64) =
      (imm.setWidth (10 * k + w)).setWidth 64 := by
  ext i hi
  simp
  grind

/-- The operand of the chain is the one that was laid out (R36). -/
theorem chainOf_operand {page : Nat} (op : Nat) {s : Shape} {f : Fields} (h : ImmFits page s f) :
    (chainOf page op s f).operand s = f.imm := by
  have four : imxNeeded s f.imm ≤ 4 := Nat.le_trans h.imxNeeded_le_room (imxRoom_le _ _)
  have bits : 10 * imxNeeded s f.imm + s.form.width ≤ 64 := by have := form_width_le s; omega
  have raw := imx_or_base f.imm (w := s.form.width) four
  have fits := h.fitsWith_imxNeeded
  simp only [Chain.operand, chainOf, base_imm, raw]
  unfold ImmFits at h
  cases hs : s.imm <;> simp only [hs] at h ⊢
  case none => exact h.symm
  case ignored => exact h.symm
  case mustBeZero => simp [h]
  case signed =>
    have := fits (by simp [Shape.usesImx, hs])
    simpa [fitsWith, hs, fitsSigned, BitVec.setWidth_setWidth_of_le _ bits] using this
  case zero =>
    have := fits (by simp [Shape.usesImx, hs])
    simpa [fitsWith, hs, fitsZero] using this
  case field =>
    have none : 10 * imxNeeded s f.imm + s.form.width = s.form.width := by
      rw [imxNeeded_of_not_uses _ (by simp [Shape.usesImx, hs])]; omega
    rw [none]
    simpa [fitsZero] using h

theorem eq_zero_of_fldOk_none {r : BitVec 6} (h : fldOk .none r = true) : r = 0 := by simpa [fldOk] using h

theorem Legal.regular {page op : Nat} {s : Shape} {f : Fields} (h : Legal page op s f) : Regular s := by
  simpa only [h.shape, Option.all_some, decide_eq_true_eq] using shapeOf_regular page h.page_lt op h.op_lt

/-- Only form A has room for a second register, and forms J and N for none (R35). -/
theorem Legal.b_eq_zero {page op : Nat} {s : Shape} {f : Fields} (h : Legal page op s f) (hf : s.form ≠ .a) : f.b = 0 := by
  obtain ⟨second, -, -, -⟩ := h.regular
  exact eq_zero_of_fldOk_none (second.resolve_left hf ▸ h.b)
theorem Legal.a_eq_zero {page op : Nat} {s : Shape} {f : Fields} (h : Legal page op s f) (hf : s.form = .j ∨ s.form = .n) :
    f.a = 0 := by
  obtain ⟨-, first, -, -⟩ := h.regular
  exact eq_zero_of_fldOk_none (first hf ▸ h.a)

/-- The base word's register fields (R35). -/
theorem base_a (op : BitVec 6) {s : Shape} (f : Fields) (h : ¬(s.form = .j ∨ s.form = .n)) :
    (mkWord op (basePayload s f)).extractLsb' 5 5 = f.a.setWidth 5 := by
  rw [extractLsb'_mkWord, basePayload]
  cases hs : s.form <;> simp only [hs, not_or] at h
  case a => exact BitVec.extractLsb'_append_eq_left
  case i => exact BitVec.extractLsb'_append_eq_left
  case b => exact BitVec.extractLsb'_append_eq_left
  case j => exact absurd trivial h.1
  case n => exact absurd trivial h.2
theorem base_b (op : BitVec 6) {s : Shape} (f : Fields) (h : s.form = .a) :
    (mkWord op (basePayload s f)).setWidth 5 = f.b.setWidth 5 := by
  rw [setWidth_mkWord (by decide), basePayload, h]
  exact BitVec.setWidth_append_eq_right

theorem getD_rgx (s : Shape) (f : Fields) : (if rgxNeeded s f then some (rgxPayload f) else none).getD 0 = rgxPayload f := by
  split
  · rfl
  · next h =>
    simp only [rgxNeeded, Bool.or_eq_true, bne_iff_ne, not_or, not_not] at h
    exact h.2.symm
theorem getD_pgx (page : Nat) (f : Fields) :
    (if pgxNeeded page f then some (BitVec.ofNat 4 page ++ f.mod) else none).getD 0 = BitVec.ofNat 4 page ++ f.mod := by
  split
  · rfl
  · next h =>
    simp only [pgxNeeded, Bool.or_eq_true, bne_iff_ne, not_or, not_not] at h
    rw [h.1, h.2]; rfl

/-- The decoder reads the fields that were laid out (R35, R36, R38, R39). -/
theorem chainOf_fields {page op : Nat} {s : Shape} {f : Fields} (h : Legal page op s f) :
    (chainOf page op s f).fields s = f := by
  have two : (s.three && (chainOf page op s f).rgx.isNone) = false := by
    cases h3 : s.three <;> simp [chainOf, rgxNeeded, h3]
  have modifier : (BitVec.ofNat 4 page ++ f.mod).setWidth 6 = f.mod := BitVec.setWidth_append_eq_right
  have none5 : ((0 : BitVec 6).extractLsb' 5 1).setWidth 6 <<< 5 = 0 := by decide
  simp only [Chain.fields, chainOf_operand op h.imm, two, Bool.false_eq_true, if_false]
  simp only [chainOf, getD_rgx, getD_pgx, rgxPayload_a, rgxPayload_b, rgxPayload_c_high, rgxPayload_c_low, rgxPayload_size,
    high_or_low, modifier]
  congr 1
  · split
    · next hf => rw [h.a_eq_zero (by simpa using hf), none5]
    · next hf => rw [base_a _ _ (by simpa using hf), high_or_low]
  · split
    · next hf => rw [base_b _ _ hf, high_or_low]
    · next hf => rw [h.b_eq_zero hf, none5]

theorem chainOf_page {page : Nat} (op : Nat) (s : Shape) (f : Fields) (h : page < 8) : (chainOf page op s f).page = page := by
  simp only [Chain.page, chainOf, getD_pgx]
  have := BitVec.extractLsb'_append_eq_left (a := BitVec.ofNat 4 page) (b := f.mod)
  rw [this, BitVec.toNat_ofNat]; omega

/-- RGX stands only where the shape has a register, a c operand or a size for it (R41). -/
theorem Legal.usesRgx {page op : Nat} {s : Shape} {f : Fields} (h : Legal page op s f) (hr : rgxNeeded s f = true) :
    s.usesRgx = true := by
  by_contra no
  simp only [Shape.usesRgx, Bool.or_eq_true, bne_iff_ne, not_or, not_not] at no
  obtain ⟨⟨⟨ha, hb⟩, hc⟩, hs⟩ := no
  have size : f.size = 0 := by simpa [sizeOk, hs] using h.size
  have payload : rgxPayload f = 0 := by
    have a : f.a = 0 := eq_zero_of_fldOk_none (ha ▸ h.a)
    have b : f.b = 0 := eq_zero_of_fldOk_none (hb ▸ h.b)
    have c : f.c = 0 := eq_zero_of_fldOk_none (hc ▸ h.c)
    rw [rgxPayload_eq_zero, a, b]
    exact ⟨c, size, rfl, rfl⟩
  rw [rgxNeeded, payload, Bool.or_eq_true] at hr
  obtain ⟨-, -, three, -⟩ := h.regular
  exact three (hr.resolve_right (by decide)) ha

/-- PGX stands only on pages 1 to 7 or where the shape has a modifier (R41). -/
theorem Legal.usesPgx {page op : Nat} {s : Shape} {f : Fields} (h : Legal page op s f) (hp : pgxNeeded page f = true) :
    s.usesPgx page = true := by
  rw [Shape.usesPgx, Bool.or_eq_true, bne_iff_ne (a := s.mod)]
  rw [pgxNeeded, Bool.or_eq_true, bne_iff_ne (a := f.mod)] at hp
  exact hp.imp_right fun hm none => hm (by simpa [modOk, none] using h.modifier)

/-- The checks pass for legal fields, and the instruction is the one that their page and opcode name. -/
theorem chainOf_decode {page op : Nat} {s : Shape} {f : Fields} {i : Instr} (h : Legal page op s f)
    (hi : instrOf page op f = some i) : (chainOf page op s f).decode = .ok i := by
  have hop : (opcodeOf (chainOf page op s f).base).toNat = op := by
    have := h.op_lt
    rw [chainOf, opcodeOf_mkWord, BitVec.toNat_ofNat]; omega
  have imx : ((chainOf page op s f).imxCount != 0 && !s.usesImx) = false := by
    cases hu : s.usesImx with
    | true => simp
    | false => simp [chainOf, imxNeeded_of_not_uses _ hu]
  have rgx : ((chainOf page op s f).rgx.isSome && !s.usesRgx) = false := by
    cases hr : rgxNeeded s f <;> simp [chainOf, hr, h.usesRgx]
  have pgx : ((chainOf page op s f).pgx.isSome && !s.usesPgx page) = false := by
    cases hp : pgxNeeded page f <;> simp [chainOf, hp, h.usesPgx]
  have zero : (s.imm == .mustBeZero && payloadOf (chainOf page op s f).base != 0) = false := by
    by_cases hm : s.imm = .mustBeZero
    · have imm := h.imm
      simp only [ImmFits, hm] at imm
      obtain ⟨-, -, -, form⟩ := h.regular
      simp [chainOf, basePayload, form hm, imm]
    · simp [hm]
  rw [Chain.decode]
  simp only [chainOf_page op s f h.page_lt, hop, h.shape, chainOf_fields h, imx, rgx, pgx, zero, h.modifier, h.size, h.a, h.b,
    h.c, hi, Nat.not_le.2 h.page_lt, if_false, Bool.not_true, Bool.and_self, Bool.false_eq_true]

/-- The words of legal fields decode to the instruction that their page and opcode name. -/
theorem decodeWords_emit {page op : Nat} {s : Shape} {f : Fields} {i : Instr} (h : Legal page op s f)
    (hi : instrOf page op f = some i) (rest : List Half) : decodeWords (emit page op s f ++ rest) = .ok (i, rest) := by
  rw [decodeWords, scanWords_emit rest h.op_lt h.imm.imxNeeded_le_room]
  simp only [chainOf_decode h hi]

/-! ### Every well-formed instruction -/

/-- Each instruction's fields are legal, and the decoder's table gives it back. -/
theorem fieldsReadBack (i : Instr) : Laws.FieldsReadBack.Statement i :=
  open Laws.FieldsReadBack in
  i.casesOn
    nop mov li lih add sub mul mulh mulhu div divu rem remu and or xor shl shr sra rotl min max minu maxu seq slt sltu
    addi andi ori shli shri srai slti clz popc sel ld ldx st ldw wmax br bz bnz bltz bgez call callr jr jtab bany bnone
    ball mrd mwr time brk sys vmov vbcast vext vins vld vst vlds vgath vscat vlsr vlsw vperm vrot vadd vsub vmul vmulh
    vmin vmax vand vor vxor vshl vshr vsra vcmp vsel vdot4 vmac vrshr vclamp vfadd vfsub vfmul vfma vfmin vfmax vfrcp
    vfrsq vfexp2 vcvt vredadd vredmax vfred mlog mgang mma mmas mmat tld tst tzero mhint mwait mstat crclr crflush crrd
    cradd amoadd amoand amoor amoxor amomin amomax amominu amomaxu amoswp amocas amofadd mxacc prf wtest wwait wfront sca
    nrd nwait pclr balloc bfree bgive bexportStart bexportEnd spld spst cpy cpym cpyr sbind sunbind lndset lndwait
    lndrelBuffer lndrelDismantle waita spstat spawn endf arm disarm cntadd cntrd lvopen lvwait lvcancel lvstat bara barw
    barcfg hspawn hstop expose yieldf self crd cwr seedInstall tret tlbinv tlbprobe pmapw pmaprd trcmark trcctlOpen
    trcctlClose trcctlGrant trcctlWithdraw trcctlStatus mpass evsel evrd rplctlStop rplctlRecord rplctlReplay rplctlStatus
    ctxsave ctxload idle reseed xq xdraw daccrd daccclr umrd qset qrd measure attestReport attestDecapsulate trapEntry
    tdlineDeadline leaseExpiry homeApply witnessDelivered refusalReport lostReport dirtyWriteback crFold replSequence
    replReplicaApply replMark classChangeComplete announcePresent gauzeWindowApply matrixOpStart matrixOpComplete
    gangTimeout sliceRampDown laneStoreClear copyEnqueue copyStart copyComplete inboundDelivery counterMessageApply
    triggerFirePush dequePushRetry firingDispatch stealRequest stealReply firingRedispatch preemption suspendedResume
    waitaPoll waitaWake instrWaitEnd barrierTimeout quotaInterval mpassPassEnd replayHoldTimeout uncorrectableError
    linkCrcRetry edgeLinkFail coreFail clusterFail dieFail groupFatalFault crossTriggerHalt haltResume crashDump
    inboundRequest apertureCounterWrite qreset mbox hostCtrlWrite functionLevelReset nvmeDmaWrite boot supplySag
    supplyRestore powerLimitAdjust thermalThrottle thermalShutdown homeSliceFail nearTierDataArraysFail mhintHoldEnd

@[simp] theorem msb_x (r : XReg) : (r.setWidth 6).msb = false := by revert r; decide
@[simp] theorem msb_m (r : MReg) : (r.setWidth 6).msb = false := by revert r; decide
@[simp] theorem x_ne_zero (r : XReg) : (r.setWidth 6 != 0#6) = (r != 0#5) := by revert r; decide
@[simp] theorem size_ne_zero (sz : Size) : (sz.code != 0#2) = (sz != .d) := by cases sz <;> rfl
@[simp] theorem vsize_ne_zero (sz : VSize) : (sz.code != 0#2) = (sz != .s32) := by cases sz <;> rfl
@[simp] theorem naBit_ne_zero (na : Bool) : (naBit na != 0#6) = na := by cases na <;> rfl
@[simp] theorem scope_na_ne_zero (sc : Option Scope) (na : Bool) : (scopeBits sc ||| naBit na != 0#6) = (sc.isSome || na) := by
  rcases sc with _ | ⟨⟨⟩⟩ <;> cases na <;> rfl

/-- When a chain needs RGX (R38, R47). -/
theorem rgxNeeded_eq (s : Shape) (f : Fields) :
    rgxNeeded s f = (s.three || (f.c != 0 || f.size != 0 || f.a.msb || f.b.msb)) := by
  have h := rgxPayload_eq_zero f
  rw [rgxNeeded, Bool.eq_iff_iff]
  simp only [Bool.or_eq_true, bne_iff_ne, ne_eq, h, not_and_or, Bool.not_eq_false, or_assoc]

/-- The operand of a well-formed instruction fits the words that its chain has room for. -/
def OperandFits (i : Instr) : Prop :=
  i.wf = true → ∀ page op f s, i.fields = some (page, op, f) → shapeOf page op = some s → ImmFits page s f

section
variable {i : Instr} {page op : Nat} {f : Fields} {s : Shape} {r p : Bool}

theorem OperandFits.of_fields (hf : i.fields = some (page, op, f)) (hs : shapeOf page op = some s)
    (h : i.wf = true → ImmFits page s f) : OperandFits i := by
  intro hw page' op' f' s' hf' hs'
  rw [hf] at hf'
  obtain ⟨rfl, rfl, rfl⟩ : page = page' ∧ op = op' ∧ f = f' := by simpa using hf'
  rw [hs] at hs'
  cases hs'
  exact h hw

/-- An instruction with no operand, or an event. -/
theorem OperandFits.of_no_imm (h : i.fields.elim 0 (fun x => x.2.2.imm) = 0) : OperandFits i := by
  intro _ page op f s hf _
  rw [hf] at h
  exact .of_zero h

/-- An instruction with a signed operand, with a zero-extended one, and with a bare field (R36). -/
theorem OperandFits.of_signed (hf : i.fields = some (page, op, f)) (hs : shapeOf page op = some s) (himm : s.imm = .signed)
    (h : i.wf = true → fitsSigned (s.form.width + 10 * imxRoom r p) f.imm = true) (hr : rgxNeeded s f = r)
    (hp : pgxNeeded page f = p) : OperandFits i :=
  .of_fields hf hs fun hw => by subst hr hp; simpa only [ImmFits, himm] using h hw
theorem OperandFits.of_zero_extended (hf : i.fields = some (page, op, f)) (hs : shapeOf page op = some s) (himm : s.imm = .zero)
    (h : i.wf = true → fitsZero (s.form.width + 10 * imxRoom r p) f.imm = true) (hr : rgxNeeded s f = r)
    (hp : pgxNeeded page f = p) : OperandFits i :=
  .of_fields hf hs fun hw => by subst hr hp; simpa only [ImmFits, himm] using h hw
theorem OperandFits.of_field (hf : i.fields = some (page, op, f)) (hs : shapeOf page op = some s) (himm : s.imm = .field)
    (h : i.wf = true → fitsZero s.form.width f.imm = true) : OperandFits i :=
  .of_fields hf hs fun hw => by simpa only [ImmFits, himm] using h hw

end

/-- What `Instr.wf` asks of each operand is that it fits. -/
theorem operandFits (i : Instr) : OperandFits i := by
  cases i
  case li | lih | andi | ori | bz | bnz | bltz | bgez | addi | shli | shri | srai | slti | ld | ldx | st | ldw | br | call |
    bany | bnone | ball | vld | vst | vlds | vgath | vscat | prf | spld | spst =>
    exact .of_signed rfl rfl rfl (fun h => h) (by simp [rgxNeeded_eq]) (by simp [pgxNeeded])
  case jtab | brk | sys | vext | vins | vrot | vcmp | vdot4 | vcvt | mlog | mgang | mhint | trcmark | mma | mmas | mmat | tld |
    tst | mstat | nrd | nwait | lvopen | mxacc | sca | spstat | self | crd =>
    exact .of_zero_extended rfl rfl rfl (fun h => h) (by simp [rgxNeeded_eq]) (by simp [pgxNeeded])
  case bara | barw => exact .of_field rfl rfl rfl fun h => h
  case cwr | attestReport =>
    exact .of_zero_extended rfl rfl rfl (fun h => (Bool.and_eq_true_iff.1 h).1) (by simp [rgxNeeded_eq]) (by simp [pgxNeeded])
  case seedInstall => exact .of_zero_extended (r := false) (p := true) rfl rfl rfl (fun _ => rfl) (by simp [rgxNeeded_eq]) rfl
  case attestDecapsulate c =>
    exact .of_zero_extended (r := c != 0) (p := true) rfl rfl rfl (fun _ => by cases c != 0 <;> rfl) (by simp [rgxNeeded_eq]) rfl
  all_goals exact .of_no_imm rfl

theorem legal {i : Instr} (hw : i.wf = true) {page op : Nat} {f : Fields} (hf : i.fields = some (page, op, f)) :
    ∃ s, Legal page op s f ∧ instrOf page op f = some i.firstRow := by
  obtain ⟨hpage, hop, s, hs, hmod, hsize, ha, hb, hc, -, hi⟩ := fieldsReadBack i hw page op f hf
  exact ⟨s, ⟨hpage, hop, hs, hmod, hsize, ha, hb, hc, operandFits i hw page op f s hf hs⟩, hi⟩

theorem encode_eq_emit {i : Instr} {page op : Nat} {f : Fields} {s : Shape} (hf : i.fields = some (page, op, f))
    (hs : shapeOf page op = some s) : encode i = emit page op s f := by
  simp only [encode, hf, hs]

end Sys2Proof.Chains

open Sys2Proof Chains in
/-- Settles O46: the scan reads the words of legal fields back, and the fields of every well-formed instruction are legal. -/
theorem roundTrip : Obligations.RoundTrip := by
  unfold Obligations.RoundTrip
  intro i rest hw hf
  obtain ⟨⟨page, op, f⟩, hf⟩ := Option.ne_none_iff_exists'.1 hf
  obtain ⟨s, legal, hi⟩ := legal hw hf
  rw [encode_eq_emit hf legal.shape]
  exact decodeWords_emit legal hi rest
end

section
/-! A step runs the decoded instruction (O44): the fetch follows the decoder word by word, and the issue and the step each have one
rule for what the statement names. -/

namespace Sys2Proof

/-! ### The scan of one more word -/

theorem scanWord_ne_truncated (c : Chain) (w : Half) : scanWord c w ≠ .error .truncated := by
  unfold scanWord
  dsimp only
  split_ifs <;> simp

theorem Chain.decode_ne_truncated (c : Chain) : c.decode ≠ .error .truncated := by
  unfold Chain.decode
  dsimp only
  split
  · simp
  · split
    · simp
    · split_ifs <;> try simp
      split <;> simp

/-- At most four words come before the base word (R41). -/
theorem scanWord_more {c d : Chain} {w : Half} (h : scanWord c w = .ok (.more d)) :
    c.prefixes < 4 ∧ d.prefixes = c.prefixes + 1 := by
  unfold scanWord at h
  dsimp only at h
  -- what remains is an IMX, an RGX and a PGX word, each where it may stand
  split_ifs at h <;> cases h
  all_goals simp_all [Chain.prefixes]

/-- The decoder, from where a scan stands. -/
def decodeFrom (c : Chain) (ws : List Half) : Except DecodeError (Instr × List Half) :=
  match scanWords c ws with
  | .error e => .error e
  | .ok (d, rest) =>
    match d.decode with
    | .error e => .error e
    | .ok i => .ok (i, rest)

theorem decodeWords_eq_decodeFrom (ws : List Half) : decodeWords ws = decodeFrom {} ws := rfl

theorem decodeFrom_nil (c : Chain) : decodeFrom c [] = .error .truncated := rfl

theorem decodeFrom_more {c d : Chain} {w : Half} (h : scanWord c w = .ok (.more d)) (ws : List Half) :
    decodeFrom c (w :: ws) = decodeFrom d ws := by
  rw [decodeFrom, scanWords, h]; rfl
theorem decodeFrom_last {c d : Chain} {w : Half} {i : Instr} (h : scanWord c w = .ok (.last d)) (hd : d.decode = .ok i)
    (ws : List Half) : decodeFrom c (w :: ws) = .ok (i, ws) := by
  rw [decodeFrom, scanWords, h]; simp only [hd]
theorem decodeFrom_last_error {c d : Chain} {w : Half} {e : DecodeError} (h : scanWord c w = .ok (.last d))
    (hd : d.decode = .error e) (ws : List Half) : decodeFrom c (w :: ws) = .error e := by
  rw [decodeFrom, scanWords, h]; simp only [hd]
theorem decodeFrom_error {c : Chain} {w : Half} {e : DecodeError} (h : scanWord c w = .error e) (ws : List Half) :
    decodeFrom c (w :: ws) = .error e := by
  rw [decodeFrom, scanWords, h]

namespace Machine

open Claim

/-! ### Fetching (R41, R43, R45) -/

/-- The state in which a chain stands after one more word. -/
def State.fetched (s : State) (va : Word) (ns : List Half) (w : Half) : State :=
  s.onCx fun k => { k with npc := va + 2, chain := chainWord (ns ++ [w]) }

section
variable {s u : State} {va : Word} {c d : Chain} {ns : List Half} {w : Half} {e : DecodeError} {i : Instr} (fuel : Nat)

theorem fetchChain_more (hw : fetchWord s va = .ok (w, u)) (h : scanWord c w = .ok (.more d)) :
    fetchChain (fuel + 1) s va c ns = fetchChain fuel (u.fetched va ns w) (va + 2) d (ns ++ [w]) := by
  simp only [fetchChain, hw, bind, Except.bind, h]; rfl
theorem fetchChain_last (hw : fetchWord s va = .ok (w, u)) (h : scanWord c w = .ok (.last d)) (hd : d.decode = .ok i) :
    fetchChain (fuel + 1) s va c ns = .ok (i, u.fetched va ns w) := by
  simp only [fetchChain, hw, bind, Except.bind, h, hd]; rfl
theorem fetchChain_last_error (hw : fetchWord s va = .ok (w, u)) (h : scanWord c w = .ok (.last d)) (hd : d.decode = .error e) :
    fetchChain (fuel + 1) s va c ns = .error (.trap .illegal none (some (chainWord (ns ++ [w])))) := by
  simp only [fetchChain, hw, bind, Except.bind, h, hd]; rfl
theorem fetchChain_error (hw : fetchWord s va = .ok (w, u)) (h : scanWord c w = .error e) :
    fetchChain (fuel + 1) s va c ns = .error (.trap .illegal none (some (chainWord (ns ++ [w])))) := by
  simp only [fetchChain, hw, bind, Except.bind, h]; rfl

end

/-- The fetch gives the instruction that the words decode to, with the state after the last of them. -/
theorem fetchChain_decodes {i : Instr} {t : State} : ∀ (ws : List Half) (fuel : Nat) (s : State) (va : Word) (c : Chain)
    (ns : List Half), c.prefixes ≤ 4 → 5 ≤ fuel + c.prefixes → Fetched s va ns ws t → decodeFrom c ws = .ok (i, []) →
    fetchChain fuel s va c ns = .ok (i, t)
  | [], _, _, _, c, _, _, _, _, h => by rw [decodeFrom_nil] at h; cases h
  | w :: ws, fuel, s, va, c, ns, h4, hfuel, ⟨u, hw, hf⟩, h => by
    obtain ⟨fuel, rfl⟩ : ∃ n, fuel = n + 1 := ⟨fuel - 1, by omega⟩
    rcases hc : scanWord c w with e | ⟨d | d⟩
    · rw [decodeFrom_error hc] at h; cases h
    · obtain ⟨few, more⟩ := scanWord_more hc
      rw [decodeFrom_more hc] at h
      rw [fetchChain_more fuel hw hc]
      exact fetchChain_decodes ws fuel _ _ d _ (by omega) (by omega) hf h
    · rcases hd : d.decode with e | j
      · rw [decodeFrom_last_error hc hd] at h; cases h
      · rw [decodeFrom_last hc hd] at h
        cases h
        rw [fetchChain_last fuel hw hc hd]
        exact congrArg (fun t => Except.ok (i, t)) hf.symm

/-- The fetch raises ILLEGAL with the chain up to the word at which the words cease to decode (R43). -/
theorem fetchChain_refuses {w : Half} {t : State} {e : DecodeError} (he : e ≠ .truncated) : ∀ (ws : List Half) (fuel : Nat)
    (s : State) (va : Word) (c : Chain) (ns : List Half), c.prefixes ≤ 4 → 5 ≤ fuel + c.prefixes →
    Fetched s va ns (ws ++ [w]) t → decodeFrom c ws = .error .truncated → decodeFrom c (ws ++ [w]) = .error e →
    fetchChain fuel s va c ns = .error (.trap .illegal none (some (chainWord (ns ++ (ws ++ [w])))))
  | [], fuel, s, va, c, ns, h4, hfuel, ⟨u, hw, _⟩, _, h => by
    obtain ⟨fuel, rfl⟩ : ∃ n, fuel = n + 1 := ⟨fuel - 1, by omega⟩
    rcases hc : scanWord c w with e | ⟨d | d⟩
    · exact fetchChain_error fuel hw hc
    · rw [List.nil_append, decodeFrom_more hc] at h
      cases h
      exact absurd rfl he
    · rcases hd : d.decode with e | j
      · exact fetchChain_last_error fuel hw hc hd
      · rw [List.nil_append, decodeFrom_last hc hd] at h; cases h
  | v :: ws, fuel, s, va, c, ns, h4, hfuel, ⟨u, hw, hf⟩, ht, h => by
    obtain ⟨fuel, rfl⟩ : ∃ n, fuel = n + 1 := ⟨fuel - 1, by omega⟩
    rcases hc : scanWord c v with e | ⟨d | d⟩
    · rw [decodeFrom_error hc] at ht
      cases ht
      exact absurd hc (scanWord_ne_truncated c v)
    · obtain ⟨few, more⟩ := scanWord_more hc
      rw [decodeFrom_more hc] at ht
      rw [List.cons_append, decodeFrom_more hc] at h
      rw [fetchChain_more fuel hw hc, List.cons_append, List.append_cons ns v (ws ++ [w])]
      exact fetchChain_refuses he ws fuel _ _ d _ (by omega) (by omega) hf ht h
    · rcases hd : d.decode with e | j
      · rw [decodeFrom_last_error hc hd] at ht
        cases ht
        exact absurd hd d.decode_ne_truncated
      · rw [decodeFrom_last hc hd] at ht; cases ht

/-- A frame that becomes sealed is all that a fetch from a sealed page leaves beyond a read (R350). -/
theorem sealFrame_reads (s : State) (w : Who) (e : Word) (pa : Nat) : Reads s (s.sealFrame w e pa) := by
  unfold State.sealFrame
  split
  · exact ⟨rfl, rfl, rfl, rfl, fun _ => rfl, fun _ => rfl, fun _ => rfl⟩
  · exact .refl s

/-- A word of an SM page comes from the line at its home (R45). -/
theorem fetchWord_atHome {s : State} {va : Word} {l : Leaf} (r : Reaches s va 2 .x l) (a : AtHome s l 2) :
    ∃ t, fetchWord s va = .ok (BitVec.ofNat 16 (leNat (seen s l.pa 2)), t) ∧ Reads s t := by
  obtain ⟨hc, hp, hm, -⟩ := a
  have hl : inLink l.pa = false := by
    rw [inWindow, Bool.or_eq_false_iff] at hp; exact hp.2
  have read : readBytes s s.cur true true false l va 2 none = .ok (seen s l.pa 2, reachHome s s.cur l.owner l.line) := by
    simp only [readBytes, behindPort, hc, hm, hp, hl, seen, reachHome]
    simp [clsSm, clsPriv, clsRo, State.heard]
  refine ⟨(reachHome s s.cur l.owner l.line).sealFrame (reachHome s s.cur l.owner l.line).who l.entry l.pa, ?_,
    (reachHome_reads _ _ _ _ _).trans (sealFrame_reads _ _ _ _)⟩
  simp only [fetchWord, r.check, read, bind, Except.bind]

/-! ### Issue (R196, R203, R260, R293) -/

/-- The state in which a context fetches. -/
def State.opened (s : State) : State := s.onCx fun k => { k with trapped := false, since := s.now, firstId := s.net.nextId }

/-- The fetch gives an instruction that the context executes, nothing set aside stands in its way, and its scalar operands stand. -/
structure Ready (s : State) (j : Instr) (u : State) : Prop where
  fetched : ∃ i, fetch s.opened = .ok (i, u) ∧ selectForm i u = j
  executes : u.cur.which ≠ 2 ∨ helperRuns j = true
  passes : passesAll u.cx.aside j = true
  arrived : ∀ x ∈ (usesOf j).xs, ∀ p ∈ u.cx.pend, p.reg ≠ x
  stands : lateUse u (usesOf j) (tileOf j) = none

section
variable {s u v : State} {i j : Instr}

/-- A helper that executes the instruction does not stop at it. -/
theorem helper_goes (h : u.cur.which ≠ 2 ∨ helperRuns j = true) : (u.cur.which = 2 && !helperRuns j) = false := by
  rcases h with h | h <;> simp [h]

/-- No register that an instruction reads is pending. -/
theorem find_pending {xs : List XReg} {ps : List Pend} (h : ∀ x ∈ xs, ∀ p ∈ ps, p.reg ≠ x) :
    (xs.find? fun r => ps.any fun p => p.reg == r) = none :=
  List.find?_eq_none.2 fun x hx => by simpa using h x hx

/-- Whether a register among several is bound. -/
theorem none_bound {rs : List VReg} (h : ∀ x ∈ rs, boundTo s x = none) : (rs.any fun r => (boundTo s r).isSome) = false :=
  List.any_eq_false.2 fun x hx => by simp [h x hx]
theorem some_bound {rs : List VReg} (h : ∃ x ∈ rs, boundTo s x ≠ none) : (rs.any fun r => (boundTo s r).isSome) = true := by
  obtain ⟨x, hx, hb⟩ := h
  exact List.any_eq_true.2 ⟨x, hx, Option.isSome_iff_ne_none.2 hb⟩

/-- An instruction that may not pass one set aside waits. -/
theorem issue_waits (hf : fetch s.opened = .ok (i, u)) (hh : u.cur.which ≠ 2 ∨ helperRuns (selectForm i u) = true)
    (hp : passesAll u.cx.aside (selectForm i u) = false) : issue s = .stop (finish u (.error (.wait .aside none))) := by
  rw [State.opened] at hf
  simp only [issue, hf, helper_goes hh, hp]
  rfl

/-- An instruction that writes no bound register runs once its streams have given their vectors. -/
theorem Ready.issue_runs (h : Ready s j u) (hw : ∀ x ∈ (usesOf j).vw, boundTo (u.begins j (usesOf j)) x = none)
    (hs : takeStreams (usesOf j).vs.eraseDups (u.begins j (usesOf j)) = .ok v) : issue s = .run j v := by
  obtain ⟨i, hf, rfl⟩ := h.fetched
  rw [State.opened] at hf
  simp only [issue, hf, helper_goes h.executes, h.passes, find_pending h.arrived, h.stands, none_bound hw, hs]
  rfl

/-- A bound register that it writes stands against an instruction. -/
theorem Ready.issue_blocked (h : Ready s j u) (hw : ∃ x ∈ (usesOf j).vw, boundTo (u.begins j (usesOf j)) x ≠ none) :
    issue s = .blocked j (u.begins j (usesOf j)) (.trap .illegal none (some (u.begins j (usesOf j)).cx.chain)) := by
  obtain ⟨i, hf, rfl⟩ := h.fetched
  rw [State.opened] at hf
  simp only [issue, hf, helper_goes h.executes, h.passes, find_pending h.arrived, h.stands, some_bound hw]
  rfl

end

/-! ### The step -/

/-- The step of a package with power, no event due and no turn planned, whose running context waits for nothing, is the next
instruction of that context and the passing of time. -/
theorem step_eq_runInstr {s : State} (hpow : s.powered = true) (hfat : ∀ c ∈ s.clusters, c.2.fatal = false)
    (hwin : dueWindow s = none) (hquo : quotaDue s = false) (hplan : s.plan = []) (hboot : s.bootst.toNat < 256)
    (hlife : s.cx.life = .running) (heng : engineRuns s s.cur.core = true) (hcause : pendingCause s s.cx = none)
    (hwait : s.cx.wait = none) : step s = onNext (runInstr (collectCopies s)) passTime := by
  have none_fatal : (s.clusters.find? fun c => c.2.fatal) = none := List.find?_eq_none.2 fun c h => by simp [hfat c h]
  have goes : proceed s = runInstr (collectCopies s) := by
    simp only [proceed, hlife, heng, hcause, hwait]; rfl
  rw [step, act, none_fatal, hwin, hquo, hplan, hpow]
  simp only [Nat.not_le.2 hboot, goes]
  rfl

/-- A context that has set aside nothing that would write memory, or that has no trap to take, issues its next instruction (log
entry 37). -/
theorem trap_not_held {s : State} (h : s.cx.holdsWrites = true → s.cx.preempt = false ∧ trapWaits s s.cx = false) :
    (s.cx.holdsWrites && (s.cx.preempt || trapWaits s s.cx)) = false := by
  cases hw : s.cx.holdsWrites with
  | false => rfl
  | true => obtain ⟨hp, ht⟩ := h hw; rw [hp, ht]; rfl

/-- Nothing is held back where no instruction set aside is to write memory, or where no trap is taken (log entry 37). -/
theorem heldBack_eq {k : State} {out : Host.Outcome State Fault Refusal}
    (h : ∀ t, out = .next t → k.cx.holdsWrites = false ∨ t.cx.trapped = false) : heldBack k out = out := by
  unfold heldBack
  split
  · next t => rcases h t rfl with h | h <;> simp [h]
  · rfl

end Machine
end Sys2Proof

open Sys2Proof Machine Claim in
/-- Settles O44, by the rules for the fetch, the issue and the step. -/
theorem stepRuns : Obligations.StepRuns := by
  unfold Obligations.StepRuns
  intro s u v i ws w l e r o j b steps
  refine ⟨?fetches, ?refuses, ?runs, fun k out => heldBack_eq, fetchWord_atHome⟩
  case fetches =>
    intro hf hd
    exact fetchChain_decodes ws 8 o _ {} [] (by decide) (by decide) hf hd
  case refuses =>
    intro hf ht hd he
    exact fetchChain_refuses he ws 8 o _ {} [] (by decide) (by decide) hf ht hd
  case runs =>
    intro hpow hfat hwin hquo hplan hboot hlife heng hcause hwait hheld hf hh
    have hstep := step_eq_runInstr hpow hfat hwin hquo hplan hboot hlife heng hcause hwait
    rw [runInstr, trap_not_held hheld] at hstep
    refine ⟨fun hp => ?waits, fun hp hx hl => ?ready⟩
    case waits => rw [issue_waits hf hh hp] at hstep; exact hstep
    case ready =>
      have ready : Ready r j u := ⟨⟨i, hf, rfl⟩, hh, hp, hx, hl⟩
      refine ⟨fun hw hs => ?run, fun hw => ?blocked⟩
      case run => rw [ready.issue_runs hw hs] at hstep; exact hstep
      case blocked => rw [ready.issue_blocked hw] at hstep; exact hstep
end

section
/-! The spec's example words (O45). -/

/-- Settles O45: each example is decoded. -/
theorem decodeWords : Obligations.DecodeWords := by
  unfold Obligations.DecodeWords
  exact ⟨rfl, rfl, rfl, rfl, rfl, rfl, rfl, rfl, rfl, rfl, rfl, rfl, rfl, rfl⟩
end

section

/-! What the engines leave of the state while they work for a context: which context runs, the registers and control registers it runs
with, and which pass each measurement run is in. One rule for each function that a write-back, a level, a counter or a save calls. -/

namespace Sys2Proof.Machine

open Sys2Proof

/-- The context that moves, its scalar and control registers and where its next instruction lies, and the pass of each owner's
measurement run. -/
@[ext] structure Standing where
  cur : CtxId
  x : Vector Word 32
  crs : Crs
  npc : Word
  passes : Nat → Option Nat

/-- The standing of a state. -/
def State.standing (s : State) : Standing where
  cur := s.cur
  x := s.cx.x
  crs := s.cx.crs
  npc := s.cx.npc
  passes o := (s.ownerSt o).mpass.map (·.pass)

/-! ### Updates -/

theorem State.standing_of_eq {s t : State} (hcur : t.cur = s.cur) (hcx : t.cx = s.cx) (ho : t.owners = s.owners) :
    t.standing = s.standing := by
  unfold State.standing State.ownerSt
  rw [hcur, hcx, ho]

theorem State.onCx_standing (s : State) (f : Ctx → Ctx) (hx : (f s.cx).x = s.cx.x) (hr : (f s.cx).crs = s.cx.crs)
    (hn : (f s.cx).npc = s.cx.npc) : (s.onCx f).standing = s.standing := by
  simp only [State.standing, State.onCx_cx, hx, hr, hn]
  rfl

/-- A change of any context that keeps its registers and where it stands. -/
theorem State.updCtx_standing (s : State) (c : CtxId) (f : Ctx → Ctx) (hf : ∀ k, (f k).x = k.x ∧ (f k).crs = k.crs ∧ (f k).npc = k.npc) :
    (s.updCtx c f).standing = s.standing := by
  obtain ⟨hx, hr, hn⟩ := hf s.cx
  unfold State.updCtx
  split
  · exact State.onCx_standing s f hx hr hn
  · split <;> rfl

@[simp] theorem State.updCore_standing (s : State) (n : Nat) (f : CoreSt → CoreSt) : (s.updCore n f).standing = s.standing := rfl

@[simp] theorem State.updCluster_standing (s : State) (n : Nat) (f : ClusterSt → ClusterSt) :
    (s.updCluster n f).standing = s.standing := rfl

@[simp] theorem State.updDie_standing (s : State) (n : Nat) (f : DieSt → DieSt) : (s.updDie n f).standing = s.standing := rfl

@[simp] theorem State.onHome_standing (s : State) (f : HomeSt → HomeSt) : (s.onHome f).standing = s.standing := rfl

@[simp] theorem State.onNet_standing (s : State) (f : NetSt → NetSt) : (s.onNet f).standing = s.standing := rfl

/-- A change of an owner that keeps the pass of its run. -/
theorem State.updOwner_standing (s : State) (n : Nat) (f : OwnerSt → OwnerSt)
    (hf : ((f (s.ownerSt n)).mpass.map fun m => m.pass) = (s.ownerSt n).mpass.map fun m => m.pass) :
    (s.updOwner n f).standing = s.standing := by
  have passes (o : Nat) : ((s.updOwner n f).ownerSt o).mpass.map (·.pass) = (s.ownerSt o).mpass.map (·.pass) := by
    rw [State.ownerSt_updOwner]
    split
    · next h => rw [hf, h]
    · rfl
  simp only [State.standing, passes]
  rfl

/-- A fold of steps that leave the standing alone. -/
theorem foldl_standing {α : Type} {f : State → α → State} (hf : ∀ s a, (f s a).standing = s.standing) (s : State) (l : List α) :
    (l.foldl f s).standing = s.standing := by
  induction l generalizing s with
  | nil => rfl
  | cons a l ih => exact (ih _).trans (hf s a)

theorem Chk.act_standing {s : State} {α : Type} {c : Chk (α × State)} (h : ChkOk (·.2.standing = s.standing) c) :
    ChkOk (·.2.standing = s.standing) c.act := by
  cases c with
  | ok r => exact .ok (h.of_eq rfl)
  | error f => exact .error

theorem State.sysEvent_standing (s : State) (e : SysEvent) : (s.sysEvent e).standing = s.standing := by
  unfold State.sysEvent
  split <;> exact State.standing_of_eq rfl rfl rfl

theorem State.firingEvent_standing (s : State) (c : CtxId) (kind cause index addr : Nat) :
    (s.firingEvent c kind cause index addr).standing = s.standing := State.sysEvent_standing ..

theorem State.countEv_standing (s : State) (c : CtxId) (code n oid launch : Nat) :
    (s.countEv c code n oid launch).standing = s.standing := by
  unfold State.countEv
  split <;> rfl

theorem State.heard_standing (s : State) (own : Bool) (idx : Nat) : (s.heard own idx).standing = s.standing := by
  unfold State.heard State.response
  split
  · exact State.onCx_standing s _ rfl rfl rfl
  · rfl

theorem State.draw_standing (s : State) (oid cls idx : Nat) : (s.draw oid cls idx).2.standing = s.standing :=
  State.updOwner_standing s oid _ rfl

/-- Owners that take the counters of others' draws stay in their passes. -/
theorem draws_passes (s : State) (g : Nat → Tab Word) (os : List Nat) (o : Nat) :
    (tget {} (os.foldl (fun t o => tset t o { tget {} t o with ctr := g o }) s.owners) o).mpass.map (·.pass) =
      (s.ownerSt o).mpass.map (·.pass) := by
  obtain ⟨ctr, h⟩ := Claim.owners_ctr g os s.owners o
  rw [h]
  rfl

theorem State.pass_standing (s : State) (oid : Nat) (path : List (Nat × Nat)) : (s.pass oid path).standing = s.standing :=
  Standing.ext rfl rfl rfl rfl (funext fun o => draws_passes s _ _ o)

theorem State.travel_standing (s : State) (c : CtxId) (oid key : Nat) : (s.travel c oid key).standing = s.standing :=
  State.pass_standing ..

theorem State.putCopy_standing (s : State) (c : Copy) : (s.putCopy c).standing = s.standing := rfl

theorem State.dropCopy_standing (s : State) (a : CacheId) (line : Nat) : (s.dropCopy a line).standing = s.standing := rfl

theorem State.stampWrite_standing (s : State) (c : CtxId) (id : Option Nat) (t : Stamp) :
    (s.stampWrite c id t).standing = s.standing := by
  unfold State.stampWrite
  exact State.updCtx_standing _ c _ fun _ => ⟨rfl, rfl, rfl⟩

theorem State.stampLeft_standing (s : State) (c : CtxId) (mark : Nat) (sc : Scope) :
    (s.stampLeft c mark sc).standing = s.standing :=
  foldl_standing (fun s _ => State.stampWrite_standing s ..) s _

theorem State.engineFault_standing (s : State) (c : CtxId) (cause : Cause) (addr : Option Word) (val : Word) (issue : Nat) :
    (s.engineFault c cause addr val issue).standing = s.standing :=
  State.updCtx_standing s c _ fun _ => ⟨rfl, rfl, rfl⟩

theorem State.dropLine_standing (s : State) (line : Nat) : (s.dropLine line).standing = s.standing := rfl

theorem State.sealFrame_standing (s : State) (w : Who) (e : Word) (pa : Nat) : (s.sealFrame w e pa).standing = s.standing := by
  unfold State.sealFrame
  split <;> rfl

/-! ### Homes and translation -/

theorem touchHome_standing (s : State) (c : CtxId) (oid owner line : Nat) (write paid : Bool) :
    (touchHome s c oid owner line write paid).standing = s.standing :=
  Standing.ext rfl rfl rfl rfl (funext fun o => draws_passes s _ _ o)

theorem reachFor_standing (s : State) (c : CtxId) (oid owner line : Nat) (arrived : Option Bool) :
    (reachFor s c oid owner line arrived).standing = s.standing := by
  unfold reachFor
  refine (touchHome_standing ..).trans ?_
  grind [State.pass_standing, State.travel_standing]

theorem tlbFill_standing (s : State) (payer : Nat) (es : List TlbEntry) (cap idx : Nat) (e : TlbEntry) :
    (tlbFill s payer es cap idx e).2.standing = s.standing := by
  grind [tlbFill, State.draw_standing]

theorem walkFrom_standing (s : State) (c : CtxId) (oid payer : Nat) (va : Word) (level table : Nat) :
    (walkFrom s c oid payer va level table).2.standing = s.standing := by
  induction level generalizing s table with
  | zero =>
    unfold walkFrom
    grind [reachFor_standing]
  | succ n ih =>
    unfold walkFrom
    grind [reachFor_standing, State.updDie_standing, tlbFill_standing]

theorem State.noteClass_standing (s : State) (oid level vpage : Nat) (e : Word) :
    (s.noteClass oid level vpage e).standing = s.standing := by
  grind [State.noteClass, State.onHome_standing]

theorem tlb1Fill_standing (s : State) (core : Nat) (e : TlbEntry) : (tlb1Fill s core e).standing = s.standing := rfl

theorem tlbTried_standing (s : State) (c : CtxId) (oid payer : Nat) (va : Word) :
    (tlbTried s c oid payer va).2.standing = s.standing := by
  grind [tlbTried, State.updCluster_standing, State.countEv_standing, tlbFill_standing, walkFrom_standing, tlb1Fill_standing,
    State.noteClass_standing]

theorem tlbTranslate_standing (s : State) (c : CtxId) (oid payer : Nat) (va : Word) :
    ChkOk (·.2.standing = s.standing) (tlbTranslate s c oid payer va) := by
  grind [tlbTranslate, tlbTried_standing, ChkOk]

theorem State.walked_standing (s : State) (c : CtxId) (oid : Nat) (va : Word) : (s.walked c oid va).standing = s.standing := by
  grind [State.walked, tlbTried_standing]

theorem translate_standing (s : State) (c : CtxId) (oid : Nat) (va : Word) (payer : Nat) :
    ChkOk (·.2.standing = s.standing) (translate s c oid va payer) := by
  grind [translate, tlbTranslate_standing, = except_map, ChkOk]

theorem check_standing (s : State) (c : CtxId) (w : Who) (va : Word) (n : Nat) (k : Kind) (payer : Nat) :
    ChkOk (·.2.standing = s.standing) (check s c w va n k payer) := by
  grind [check, translate_standing, ChkOk]

/-- A page that is captured joins the run's write set; the run stays in its pass. -/
theorem capturePage_standing (s : State) (c : CtxId) (pa : Nat) : (capturePage s c pa).standing = s.standing := by
  unfold capturePage
  dsimp only
  split
  · rfl
  · next m hm =>
    have put (t : State) (q : MPass) (ht : t.standing = s.standing) (hq : q.pass = m.pass) :
        (t.updOwner (s.ctxOf c).fir.oid.toNat fun o => { o with mpass := some q }).standing = s.standing := by
      refine (State.updOwner_standing t _ _ ?_).trans ht
      have pass := congrFun (congrArg Standing.passes ht) (s.ctxOf c).fir.oid.toNat
      simp only [State.standing, hm, Option.map_some] at pass
      simp only [pass, hq, Option.map_some]
    split
    · rfl
    · split
      · next heq =>
        have ht := (check_standing ..).of_eq heq
        dsimp only at ht
        split
        · exact put _ _ ht rfl
        · exact put _ _ ((State.sealFrame_standing ..).trans ht) rfl
      · exact put _ _ rfl rfl

theorem writeHome_standing (s : State) (c : CtxId) (owner pa : Nat) (bs : List Byte) (oid : Nat) :
    (writeHome s c owner pa bs oid).standing = s.standing := (touchHome_standing ..).trans (capturePage_standing s c pa)

/-! ### Caches and write-backs -/

theorem State.heldAlone_standing (s : State) (h : CtxId) (line : Nat) : (s.heldAlone h line).standing = s.standing := rfl

theorem State.onCopies_standing (s : State) (cluster : Nat) (p : CopyOp → Bool) (f : CopyOp → CopyOp) :
    (s.onCopies cluster p f).standing = s.standing := rfl

theorem homeWriteBack_standing (s : State) (c : Copy) : (homeWriteBack s c).standing = s.standing := by
  unfold homeWriteBack
  split
  · split
    · split
      · rfl
      · exact State.engineFault_standing ..
    · rfl
  · have home (w o k a bs i) : (writeHome (s.travel w o k) w c.owner a bs i).standing = s.standing :=
      (writeHome_standing ..).trans (State.travel_standing ..)
    dsimp only
    split
    · split
      · exact (State.onCopies_standing ..).trans ((State.heldAlone_standing ..).trans (home ..))
      · exact (State.stampWrite_standing ..).trans ((State.onCopies_standing ..).trans ((State.heldAlone_standing ..).trans (home ..)))
    · exact home ..

theorem backHome_standing (s : State) (c : Copy) : (backHome s c).standing = s.standing := by
  unfold backHome
  dsimp only
  split <;> exact homeWriteBack_standing s c

theorem throughTo_standing (s : State) (c n : Copy) : (throughTo s c n).standing = s.standing := rfl

theorem evictNear_standing (s : State) (cluster line : Nat) : (evictNear s cluster line).standing = s.standing := by
  grind [evictNear, State.onHome_standing, backHome_standing, throughTo_standing, foldl_standing]

theorem makeRoom_standing (s : State) (cluster set p owner line : Nat) :
    (makeRoom s cluster set p owner line).standing = s.standing := by
  grind [makeRoom, State.onHome_standing, State.draw_standing, evictNear_standing]

theorem fillNear_standing (s : State) (cluster owner line : Nat) (data : LineData) :
    (fillNear s cluster owner line data).standing = s.standing := by
  grind [fillNear, State.onHome_standing, State.putCopy_standing, makeRoom_standing]

theorem writeBack_standing (s : State) (c : Copy) : (writeBack s c).standing = s.standing := by
  grind [writeBack, State.putCopy_standing, backHome_standing, throughTo_standing, fillNear_standing]

theorem deliverPriv_standing (s : State) (c : CtxId) (sc : Scope) : (deliverPriv s c sc).standing = s.standing := by
  unfold deliverPriv
  grind [writeBack_standing, foldl_standing]

theorem monitorNear_standing (s : State) (cluster owner line : Nat) : (monitorNear s cluster owner line).standing = s.standing := by
  grind [monitorNear, State.updCluster_standing]

theorem fillL1_standing (s : State) (a : CacheId) (c : Copy) : (fillL1 s a c).standing = s.standing := by
  grind [fillL1, State.dropCopy_standing, State.putCopy_standing, writeBack_standing]

theorem nearGet_standing (s : State) (c : CtxId) (own engine : Bool) (owner line : Nat) (wit : Option Stamp) (arrived : Bool)
    (oid : Nat) : OptOk (·.2.standing = s.standing) (nearGet s c own engine owner line wit arrived oid) := by
  grind [nearGet, State.countEv_standing, State.pass_standing, reachFor_standing, fillNear_standing, monitorNear_standing,
    State.heard_standing, OptOk]

theorem cachedGet_standing (s : State) (c : CtxId) (own inst na : Bool) (owner line : Nat) (wit : Option Stamp) (arrived : Bool) :
    OptOk (·.2.standing = s.standing) (cachedGet s c own inst na owner line wit arrived) := by
  grind [cachedGet, State.updCore_standing, State.countEv_standing, fillL1_standing, nearGet_standing, OptOk]

theorem crSticky_standing (s : State) (own : Bool) (p : CrPlace) : (crSticky s own p).standing = s.standing := by
  unfold crSticky
  grind [State.onCx_standing, State.onHome_standing]

theorem crReadElem_standing (s : State) (c : CtxId) (own : Bool) (p : CrPlace) (i : Nat) (base : Option CrLine)
    (arrived : Option Bool) (oid : Nat) : (crReadElem s c own p i base arrived oid).2.standing = s.standing := by
  grind [crReadElem, reachFor_standing, crSticky_standing]

theorem readBytes_standing (s : State) (c : CtxId) (own inst na : Bool) (l : Leaf) (va : Word) (n : Nat) (wit : Option Stamp)
    (arrived : Option Bool) (oid : Nat) :
    ChkOk (·.2.standing = s.standing) (readBytes s c own inst na l va n wit arrived oid) := by
  grind [readBytes, reachFor_standing, State.heard_standing, cachedGet_standing, crReadElem_standing, trapAt, ChkOk, OptOk]

/-! ### Reads and writes of the Langor, traces and logs -/

theorem partyRead_standing (s : State) (c : CtxId) (w : Who) (va : Word) (n : Nat) (wit : Option Stamp) (payer : Nat) :
    ChkOk (·.2.standing = s.standing) (partyRead s c w va n wit payer) :=
  (Chk.act_standing (check_standing ..)).bind fun _ hr => (readBytes_standing ..).bind fun _ ht =>
    .ok ((State.sealFrame_standing ..).trans (ht.trans hr))

theorem homePut_standing (s : State) (c : CtxId) (l : Leaf) (bs : List Byte) : (homePut s c l bs).standing = s.standing := by
  grind [homePut, State.onHome_standing, State.onNet_standing, writeHome_standing]

theorem partyWrite_standing (s : State) (c : CtxId) (w : Who) (va : Word) (bs : List Byte) :
    ChkOk (·.standing = s.standing) (partyWrite s c w va bs) :=
  (check_standing ..).bind fun _ hr => .either .error (.either .error (.either .error
    (.ok ((State.sealFrame_standing ..).trans ((homePut_standing ..).trans hr)))))

theorem traceWrite_standing (s : State) (c : CtxId) (opener : Nat) (va : Word) (bs : List Byte) :
    ChkOk (·.standing = s.standing) (traceWrite s c opener va bs) := by
  refine (check_standing ..).bind fun r hr => ?_
  dsimp only
  split
  · exact .error
  · split
    · exact .error
    · split
      · exact .error
      · exact .ok ((State.sealFrame_standing ..).trans ((State.pass_standing r.2 ..).trans hr))

theorem State.trace_standing (s : State) (oid kind payload : Nat) (c : CtxId) :
    (s.trace oid kind payload c).standing = s.standing := by
  grind [State.trace, State.updOwner_standing, traceWrite_standing, ChkOk]

theorem logRead_standing (s : State) (oid off n : Nat) : ChkOk (·.2.standing = s.standing) (logRead s oid off n) := by
  grind [logRead, partyRead_standing]

theorem logAppend_standing (s : State) (oid : Nat) (e : LogEntry) : (logAppend s oid e).standing = s.standing := by
  have put (t : State) (c o va bs) : (match traceWrite t c o va bs with
      | .ok s => s
      | .error _ => t).standing = t.standing := by
    split
    · next heq => exact (traceWrite_standing ..).of_eq heq
    · rfl
  unfold logAppend
  dsimp only
  split
  · rfl
  · split
    · exact (State.sysEvent_standing ..).trans (State.updOwner_standing s oid _ rfl)
    · exact (State.updOwner_standing _ oid _ rfl).trans ((put ..).trans (put s ..))

theorem useEntry_standing (s : State) (oid i : Nat) : (useEntry s oid i).standing = s.standing := by
  grind [useEntry, State.updOwner_standing, logRead_standing, ChkOk]

theorem noteDiffer_standing (s : State) (oid fid idx : Nat) : (noteDiffer s oid fid idx).standing = s.standing := by
  refine State.updOwner_standing s oid _ ?_
  dsimp only
  split <;> rfl

theorem newFid_standing (s : State) (oid kind key idx : Nat) : (newFid s oid kind key idx).2.standing = s.standing := by
  have fresh : (s.updOwner oid fun o => { o with nextFid := o.nextFid + 1 }).standing = s.standing :=
    State.updOwner_standing s oid _ rfl
  unfold newFid
  grind [logAppend_standing, useEntry_standing, noteDiffer_standing]

theorem lineEvent_standing (s : State) (oid line kind fid idx : Nat) :
    (lineEvent s oid line kind fid idx).standing = s.standing := by
  grind [lineEvent, logAppend_standing, useEntry_standing, noteDiffer_standing]

theorem crFold_standing (s : State) (die : Nat) (p : CrPlace) : (crFold s die p).standing = s.standing := by
  unfold crFold
  split
  · rfl
  · exact State.pass_standing s ..

theorem foldLine_standing (s : State) (die : Nat) (p : CrPlace) : (foldLine s die p).standing = s.standing := by
  grind [foldLine, crFold_standing, lineEvent_standing]

/-! ### Levels, deques, triggers and counters -/

theorem levelGet_standing (s : State) (c : CtxId) (oid idx : Nat) : ChkOk (·.2.standing = s.standing) (levelGet s c oid idx) := by
  grind [levelGet, reachFor_standing, State.sealFrame_standing, translate_standing, State.heard_standing, = except_bind, ChkOk]

theorem levelPut_standing (s : State) (c : CtxId) (l : Level) : (levelPut s c l).standing = s.standing := writeHome_standing ..

theorem levelAdd_standing (s : State) (c : CtxId) (oid idx : Nat) : ChkOk (·.2.standing = s.standing) (levelAdd s c oid idx) := by
  grind [levelAdd, levelRise, levelGet_standing, levelPut_standing, = except_bind, ChkOk]

theorem levelDec_standing (c : CtxId) (oid fuel : Nat) (s : State) (idx : Nat) (wit : Word) (lost : Bool) :
    ChkOk (·.standing = s.standing) (levelDec c oid fuel s idx wit lost) := by
  induction fuel generalizing s c idx wit lost with
  | zero => exact .ok rfl
  | succ fuel ih =>
    refine (levelGet_standing s c oid idx).bind fun r hr => ?_
    dsimp only
    split
    · split
      · exact .ok ((levelPut_standing ..).trans hr)
      · exact (ih ..).mono fun t ht => ht.trans ((levelPut_standing ..).trans hr)
    · exact .ok ((levelPut_standing ..).trans hr)

theorem levelDrop_standing (s : State) (c : CtxId) (oid idx : Nat) (wit : Word) (lost : Bool) :
    (levelDrop s c oid idx wit lost).standing = s.standing := by
  grind [levelDrop, State.walked_standing, levelDec_standing, ChkOk]

theorem spillOldest_standing (core n : Nat) (s : State) : OptOk (·.standing = s.standing) (spillOldest core n s) := by
  induction n generalizing s with
  | zero => exact .intro rfl
  | succ n ih =>
    unfold spillOldest
    generalize List.range 1024 = places
    grind [partyWrite_standing, State.setDeque, State.updCore_standing, ChkOk, OptOk]

theorem wakeOnPush_standing (s : State) (core oid : Nat) : (wakeOnPush s core oid).standing = s.standing := by
  have woken (t : State) (c : CtxId) : (t.updCtx c fun k =>
      if k.wait = some (.idle false) then { k with wait := some (.idle true) } else k).standing = t.standing :=
    State.updCtx_standing t c _ fun k => by split <;> exact ⟨rfl, rfl, rfl⟩
  grind [wakeOnPush, State.updCore_standing]

theorem pushDeque_standing (s : State) (core oid : Nat) (e : DequeEntry) (old : Bool) :
    OptOk (·.standing = s.standing) (pushDeque s core oid e old) := by
  have spilt (n : Nat) (d : List DequeEntry) : OptOk (·.standing = s.standing) (spillOldest core n (s.setDeque core d)) :=
    spillOldest_standing core n (s.setDeque core d)
  unfold pushDeque
  dsimp only
  split
  · exact .nothing
  · refine OptOk.map (Q := (·.standing = s.standing)) ?_ fun t ht => (wakeOnPush_standing t core oid).trans ht
    split
    · exact spilt ..
    · split
      · exact spilt ..
      · exact .intro rfl

theorem triggerCheck_standing (s : State) (c : CtxId) (owner pa : Nat) : (triggerCheck s c owner pa).standing = s.standing := by
  unfold triggerCheck
  grind [newFid_standing, writeHome_standing, State.onHome_standing, State.updCore_standing, foldl_standing]

theorem counterApply_standing (s : State) (c : CtxId) (owner pa : Nat) (amount wit : Word) :
    (counterApply s c owner pa amount wit).standing = s.standing := by
  grind [counterApply, triggerCheck_standing, writeHome_standing, State.onHome_standing]

theorem checkCounter_standing (s : State) (c : CtxId) (w : Who) (va : Word) :
    ChkOk (·.2.standing = s.standing) (checkCounter s c w va) := by
  grind [checkCounter, check_standing, = except_bind, ChkOk]

end Sys2Proof.Machine

end

section

/-! Control registers and privilege (O48, R59, R76 to R86, R356, R358): their fields as CRD shows them and as CWR keeps them, the
privilege of each, and one rule for each way in which CRD and CWR end. -/

namespace Sys2Proof.Machine

open Sys2Proof Claim

/-! ### Fields (R79 to R86) -/

/-- The lowest bits of a word as a number. -/
theorem fieldN_low (w : Word) (n : Nat) : fieldN w n 0 = (w.setWidth (n + 1)).toNat := by
  simp [fieldN, BitVec.toNat_setWidth]

theorem toNat_append_eq_add {n m : Nat} (x : BitVec n) (y : BitVec m) : (x ++ y).toNat = x.toNat * 2 ^ m + y.toNat := by
  rw [BitVec.toNat_append, ← Nat.shiftLeft_add_eq_or_of_lt y.isLt, Nat.shiftLeft_eq]

/-- A bit of a register as a number. -/
def bitAt (b : Bool) (k : Nat) : Nat := if b then 2 ^ k else 0

theorem toNat_ofBool_mul (b : Bool) (k : Nat) : (BitVec.ofBool b).toNat * 2 ^ k = bitAt b k := by
  cases b <;> simp [bitAt]

/-- OWNER (R83). -/
theorem ownerWord_eq (k : Ctx) : ownerWord k = BitVec.ofNat 64 (bitAt k.fir.isSealed 8 + k.fir.oid.toNat) := by
  refine BitVec.eq_of_toNat_eq ?_
  have := k.fir.oid.isLt
  rw [ownerWord, toNat_append_eq_add, toNat_append_eq_add, BitVec.toNat_ofNat]
  cases k.fir.isSealed <;> simp [bitAt] <;> omega

/-- FIRING (R83). -/
theorem firingWord_eq (k : Ctx) (which : Nat) : firingWord k which =
    BitVec.ofNat 64 (k.fir.retry.toNat * 2 ^ 62 + bitAt k.fir.recov 61 + bitAt k.fir.exposed 60 + k.fir.prio.toNat * 2 ^ 58 +
      bitAt (which == 1) 57 + k.fir.launch.toNat * 2 ^ 32 + k.fir.fid.toNat) := by
  refine BitVec.eq_of_toNat_eq ?_
  have hr := k.fir.retry.isLt
  have hp := k.fir.prio.isLt
  have hl := k.fir.launch.isLt
  have hf := k.fir.fid.isLt
  have bit (b : Bool) : (BitVec.ofBool b).toNat ≤ 1 := by cases b <;> decide
  have h1 := bit k.fir.recov
  have h2 := bit k.fir.exposed
  have h3 := bit (which == 1)
  simp only [firingWord, toNat_append_eq_add, ← toNat_ofBool_mul, BitVec.toNat_ofNat, BitVec.ofNat_eq_ofNat]
  omega

/-- TSTAT (R84). -/
theorem tstatWord_eq (r : Crs) :
    tstatWord r = BitVec.ofNat 64 (bitAt r.cmode 2 + bitAt r.pmode 1 + bitAt r.inh 0) := by
  unfold tstatWord
  cases r.cmode <;> cases r.pmode <;> cases r.inh <;> rfl

/-- The deadline keeps its armed bit and its time (R85). -/
theorem tdline_kept (w : Word) : keepBits w 63 63 ||| keepBits w 47 0 = w &&& 0x8000FFFFFFFFFFFF := by
  rw [keepBits, keepBits, ← BitVec.and_or_distrib_left]
  rfl

/-- A value that a register holds between two bounds (R86). -/
theorem clampW_low (w : Word) (n lo hi : Nat) :
    clampW (fieldN w n 0) lo hi = BitVec.ofNat 64 (max lo (min hi (w.setWidth (n + 1)).toNat)) := by
  rw [fieldN_low]
  rfl

/-! ### Privilege (R59, R78) -/

section
variable {s : State}

theorem needS_ok (h : s.cx.crs.cmode = true) : needS s = .ok () := by rw [needS, h]; rfl
theorem needS_traps (h : s.cx.crs.cmode = false) : needS s = trapNow .priv := by rw [needS, h]; rfl
theorem needS0_ok (h : s.cx.crs.cmode = true) (ho : s.cx.fir.oid = 0) : needS0 s = .ok () := by rw [needS0, h, ho]; rfl
theorem needS0_traps (h : s.cx.crs.cmode = false ∨ s.cx.fir.oid ≠ 0) : needS0 s = trapNow .priv := by
  have lacks : (s.cx.crs.cmode && s.cx.fir.oid == 0) = false := by
    rcases h with h | h
    · rw [h, Bool.false_and]
    · rw [beq_eq_false_iff_ne.2 h, Bool.and_false]
  rw [needS0, lacks]
  rfl

theorem crPriv_user {n : Nat} (h : n < 17) : crPriv s n = .ok () := by
  have listed : crListed n = true := by simp [crListed, h]
  have low : n < 0x40 := by omega
  rw [crPriv, listed, if_pos low]
  rfl

/-- A number between SEED.LO and PMAPBASE needs S mode, of owner 0 where R78 says so. -/
theorem crPriv_privileged {n : Nat} (hlo : 0x40 ≤ n) (hhi : n ≤ 0x48) :
    crPriv s n = if crNeedsS0 n then needS0 s else needS s := by
  have listed : crListed n = true := by simp [crListed, hlo, hhi]
  have high : ¬ n < 0x40 := by omega
  rw [crPriv, listed, if_neg high]
  rfl

theorem crPriv_unlisted {n : Nat} (hlo : 17 ≤ n) (h : n < 0x40 ∨ 0x48 < n) : crPriv s n = illegal s := by
  have unlisted : crListed n = false := by
    simp only [crListed, Bool.or_eq_false_iff, Bool.and_eq_false_iff, decide_eq_false_iff_not]
    omega
  rw [crPriv, unlisted]
  rfl

theorem crPriv_traps {n : Nat} (hlo : 0x40 ≤ n) (hhi : n ≤ 0x48) (hs : s.cx.crs.cmode = false) : crPriv s n = trapNow .priv := by
  rw [crPriv_privileged hlo hhi, needS0_traps (.inl hs), needS_traps hs, ite_self]

theorem trcOwner_traps (h : s.cx.crs.cmode = false) (b : XReg) : trcOwner s b = trapNow .priv := by
  rw [trcOwner, needS_traps h]; rfl
theorem rplOwner_traps (h : s.cx.crs.cmode = false) (b : XReg) : rplOwner s b = trapNow .priv := by
  rw [rplOwner, needS_traps h]; rfl

/-- A privilege that an instruction lacks is its trap, and nothing that would come after it happens. -/
theorem finish_lacks {α : Type} {x : Act α} (h : x = trapNow .priv) (f : α → Act State) : Traps (finish s (x >>= f)) s .priv none none := by
  rw [h]
  exact finish_trap s .priv none none

end

/-! ### CRD and CWR (R76, R77, R358) -/

section
variable {s u : State} {a : XReg} {n : Nat} {w : Word}

theorem crd_reads {imm : Word} (hp : crPriv s imm.toNat = .ok ()) (hv : crReadReg s imm.toNat = some w) :
    Completes (exec (.crd a imm) s) fun t => WritesX s t a w := by
  refine ⟨putX s a w, ?_, putX_writes s a w⟩
  show execCrd a imm s = _
  rw [execCrd, hp, hv]
  rfl

theorem crd_user (hn : n < 17) (hv : (userCrs s.cx s.cur)[n]? = some w) :
    Completes (exec (.crd a (BitVec.ofNat 64 n)) s) fun t => WritesX s t a w := by
  have number : (BitVec.ofNat 64 n).toNat = n := by rw [BitVec.toNat_ofNat]; omega
  refine crd_reads ?_ ?_ <;> rw [number]
  · exact crPriv_user hn
  · rw [crReadReg, if_pos hn, hv]

/-- CWR to a user register changes the control registers as its field map says, and a write to TDLINE takes back a TIMER that is
pending (R79 to R85). -/
theorem cwr_user (a : XReg) (hn : n < 17) {q : Crs} (hq : crWriteUser s.cx.crs n (s.getX a) = q) :
    Completes (exec (.cwr a (BitVec.ofNat 64 n)) s) fun t =>
      t = { s with cx := { s.cx with pc := s.cx.npc, crs := q, timerPend := s.cx.timerPend && decide (n ≠ 16) } } := by
  have number : (BitVec.ofNat 64 n).toNat = n := by rw [BitVec.toNat_ofNat]; omega
  have other : (n != 0x10) = decide (n ≠ 16) := by simp [bne, BEq.beq]
  subst hq
  refine ⟨_, ?_, rfl⟩
  show execCwr a (BitVec.ofNat 64 n) s = _
  simp only [execCwr, number, crPriv_user hn, bind, Except.bind, if_pos hn, other]
  rfl

/-- What a write to a register of the device, of a die or of an owner leaves at its stamp (R77): `u` has the new value. -/
theorem crStamped_advance (n : Nat) (hcx : u.cx = s.cx) (hcur : u.cur = s.cur) (hnow : u.now = s.now)
    (hw : u.dev.crWrites = s.dev.crWrites) : (crStamped u n).advance =
      { u with
        cx := { s.cx with pc := s.cx.npc }
        dev := { u.dev with crWrites := ⟨n, crPlaceNo s n, s.now, s.coreNo⟩ ::
          s.dev.crWrites.filter fun w => !(w.reg == n && w.at_ == crPlaceNo s n) } } := by
  have place : crPlaceNo u n = crPlaceNo s n := by simp only [crPlaceNo, State.dieNo, State.oid, hcur, hcx]
  have entry : (⟨n, crPlaceNo u n, u.now, u.coreNo⟩ : CrWrite) = ⟨n, crPlaceNo s n, s.now, s.coreNo⟩ := by
    rw [place, hnow, State.coreNo, hcur]; rfl
  dsimp only [crStamped]
  rw [entry, place, hw, ← hcx]
  rfl

/-- CWR to such a register: a write at the same stamp from a higher core number stands (R77). -/
theorem cwr_stamps (a : XReg) (hp : crPriv s n = .ok ()) (hn : 17 ≤ n ∧ n ≤ 0x48 ∧ n ≠ 0x42)
    (hu : crStore s n (s.getX a) = some u) (hcx : u.cx = s.cx) (hcur : u.cur = s.cur) (hnow : u.now = s.now)
    (hw : u.dev.crWrites = s.dev.crWrites) :
    (crBeaten s n = true → Completes (exec (.cwr a (BitVec.ofNat 64 n)) s) fun t => OnlyPc s t s.cx.npc) ∧
    (crBeaten s n = false → Completes (exec (.cwr a (BitVec.ofNat 64 n)) s) fun t =>
      t = { u with
        cx := { s.cx with pc := s.cx.npc }
        dev := { u.dev with crWrites := ⟨n, crPlaceNo s n, s.now, s.coreNo⟩ ::
          s.dev.crWrites.filter fun w => !(w.reg == n && w.at_ == crPlaceNo s n) } }) := by
  obtain ⟨hlo, hhi, hseed⟩ := hn
  have number : (BitVec.ofNat 64 n).toNat = n := by rw [BitVec.toNat_ofNat]; omega
  have written : exec (.cwr a (BitVec.ofNat 64 n)) s = .next (if crBeaten s n then s else crStamped u n).advance := by
    show execCwr a (BitVec.ofNat 64 n) s = _
    simp only [execCwr, number, hp, bind, Except.bind, if_neg (Nat.not_lt.2 hlo), crWritePriv, if_neg hseed, hu, Option.map_some]
    rfl
  rw [written]
  refine ⟨fun hb => ⟨_, rfl, ?_⟩, fun hb => ⟨_, rfl, ?_⟩⟩ <;> rw [hb]
  · rfl
  · exact crStamped_advance n hcx hcur hnow hw

/-- CWR to SEED.LO, which the context keeps (log entry 48). -/
theorem cwr_seedLo (a : XReg) (hs : s.cx.crs.cmode = true) : exec (.cwr a 0x42) s =
    .next { s with cx := { s.cx with pc := s.cx.npc, crs := { s.cx.crs with seedLo := some (s.getX a) } } } := by
  show execCwr a 0x42 s = _
  have mode : crPriv s (0x42 : Word).toNat = .ok () := needS_ok hs
  simp only [execCwr, mode]
  rfl

/-- A number that R78 does not list (R358; log entry 16). -/
theorem cr_unlisted {imm : Word} (hp : crPriv s imm.toNat = illegal s) :
    Traps (exec (.crd a imm) s) s .illegal none (some s.cx.chain) ∧ Traps (exec (.cwr a imm) s) s .illegal none (some s.cx.chain) := by
  constructor
  · show Traps (execCrd a imm s) ..
    rw [execCrd, hp]
    exact finish_trap ..
  · show Traps (execCwr a imm s) ..
    simp only [execCwr, hp]
    exact finish_trap ..

end

/-! ### Installing a seed (R86, R327) -/

theorem writeBackOwner_standing (s : State) (oid : Nat) : (writeBackOwner s oid).standing = s.standing := by
  unfold writeBackOwner
  grind [foldl_standing, writeBack_standing, foldLine_standing]

/-- The context that installs a seed keeps its registers. -/
theorem installSeed_standing (s : State) (oid : Nat) (seed : BitVec 128) : (installSeed s oid seed).standing = s.standing := by
  have own : ((dropOwner (writeBackOwner s oid) oid).updOwner oid fun o => { o with seed := seed, ctr := [] }).standing = s.standing :=
    (State.updOwner_standing _ oid _ rfl).trans (writeBackOwner_standing s oid)
  exact own

theorem installSeed_owner (s : State) (oid : Nat) (seed : BitVec 128) :
    ((installSeed s oid seed).ownerSt oid).seed = seed ∧ ((installSeed s oid seed).ownerSt oid).ctr = [] := by
  have own : (installSeed s oid seed).ownerSt oid = { (dropOwner (writeBackOwner s oid) oid).ownerSt oid with seed := seed, ctr := [] } :=
    State.ownerSt_updOwner_same (dropOwner (writeBackOwner s oid) oid) oid fun o => { o with seed := seed, ctr := [] }
  rw [own]
  exact ⟨rfl, rfl⟩

theorem seedInstall_waits {s : State} (a : XReg) (hs : s.cx.crs.cmode = true) (hb : ownerBusy s s.oid = true) :
    Waits (exec (.seedInstall a) s) s .walks := by
  show Waits (execSeedInstall a s) ..
  rw [execSeedInstall, needS_ok hs, hb]
  exact finish_wait s .walks

theorem seedInstall_installs {s : State} (a : XReg) (hs : s.cx.crs.cmode = true) (hb : ownerBusy s s.oid = false) :
    ∃ t, exec (.seedInstall a) s = .next t ∧ (t.ownerSt s.oid).seed = s.getX a ++ (s.cx.crs.seedLo.getD 0) ∧
      (t.ownerSt s.oid).ctr = [] ∧ t.cx.crs = { s.cx.crs with seedLo := none } ∧ t.cx.pc = s.cx.npc ∧ t.cx.x = s.cx.x := by
  have installed : exec (.seedInstall a) s = .next ((installSeed s s.oid (s.getX a ++ s.cx.crs.seedLo.getD 0)).onCx
      fun k => { k with crs := { k.crs with seedLo := none } }).advance := by
    show execSeedInstall a s = _
    rw [execSeedInstall, needS_ok hs, hb]
    rfl
  have same := installSeed_standing s s.oid (s.getX a ++ s.cx.crs.seedLo.getD 0)
  obtain ⟨seed, ctr⟩ := installSeed_owner s s.oid (s.getX a ++ s.cx.crs.seedLo.getD 0)
  generalize installSeed s s.oid (s.getX a ++ s.cx.crs.seedLo.getD 0) = u at installed same seed ctr
  have crs : u.cx.crs = s.cx.crs := congrArg Standing.crs same
  refine ⟨_, installed, seed, ctr, ?_, congrArg Standing.npc same, congrArg Standing.x same⟩
  show { u.cx.crs with seedLo := none } = _
  rw [crs]

/-! ### What lacks its privilege (R59, R78) -/

/-- The instructions of owner 0 alone. -/
def ofOwnerZero (a b c : XReg) : List Instr :=
  [Instr.pmapw a b, .qset a b c] ++ [0x40, 0x41, 0x44, 0x47, 0x48].flatMap fun n => [Instr.crd a n, .cwr a n]

theorem crPriv_ofOwnerZero {s : State} {n : Nat} (h : needS0 s = trapNow .priv) (hn : n ∈ [0x40, 0x41, 0x44, 0x47, 0x48]) :
    crPriv s n = trapNow .priv := by
  have range : 0x40 ≤ n ∧ n ≤ 0x48 ∧ crNeedsS0 n = true := by
    simp only [List.mem_cons, List.not_mem_nil, or_false] at hn
    rcases hn with rfl | rfl | rfl | rfl | rfl <;> decide
  obtain ⟨hlo, hhi, zero⟩ := range
  rw [crPriv_privileged hlo hhi, zero, if_pos rfl, h]

theorem ofOwnerZero_lacks {s : State} (h : needS0 s = trapNow .priv) {a b c : XReg} {i : Instr} (hi : i ∈ ofOwnerZero a b c) :
    Traps (exec i s) s .priv none none := by
  rcases List.mem_append.1 hi with hi | hi
  · simp only [List.mem_cons, List.not_mem_nil, or_false] at hi
    rcases hi with rfl | rfl <;> exact finish_lacks h _
  · obtain ⟨n, hn, hi⟩ := List.mem_flatMap.1 hi
    have number : (n : Word).toNat ∈ [0x40, 0x41, 0x44, 0x47, 0x48] := by
      simp only [List.mem_cons, List.not_mem_nil, or_false] at hn ⊢
      rcases hn with rfl | rfl | rfl | rfl | rfl <;> decide
    simp only [List.mem_cons, List.not_mem_nil, or_false] at hi
    rcases hi with rfl | rfl <;> exact finish_lacks (crPriv_ofOwnerZero h number) _

/-- The instructions of S mode, those of its control registers among them. -/
def ofSMode (a b c : XReg) (v : VReg) (sc : Option Scope) (n : Word) : List Instr :=
  [Instr.crd a n, .cwr a n, .seedInstall a, .tlbinv b c sc, .tlbprobe a b c, .pmaprd a b c, .trcctlOpen a b c,
    .trcctlClose a b c, .trcctlGrant a b c, .trcctlWithdraw a b c, .trcctlStatus a b c, .mpass a b, .rplctlStop a b c,
    .rplctlRecord a b c, .rplctlReplay a b c, .rplctlStatus a b c, .ctxsave a b c, .ctxload a b c, .idle, .reseed a b c,
    .measure v b c]

theorem ofSMode_lacks {s : State} (h : s.cx.crs.cmode = false) {a b c : XReg} {v : VReg} {sc : Option Scope} {n : Word}
    (hlo : 0x40 ≤ n.toNat) (hhi : n.toNat ≤ 0x48) : ∀ i ∈ ofSMode a b c v sc n, Traps (exec i s) s .priv none none := by
  have inS {f : Unit → Act State} : Traps (finish s (needS s >>= f)) s .priv none none := finish_lacks (needS_traps h) f
  have inCr {f : Unit → Act State} : Traps (finish s (crPriv s n.toNat >>= f)) s .priv none none :=
    finish_lacks (crPriv_traps hlo hhi h) f
  have inTrc {f : Nat → Act State} : Traps (finish s (trcOwner s b >>= f)) s .priv none none := finish_lacks (trcOwner_traps h b) f
  have inRpl {f : Nat → Act State} : Traps (finish s (rplOwner s b >>= f)) s .priv none none := finish_lacks (rplOwner_traps h b) f
  simp only [ofSMode, List.forall_mem_cons, List.not_mem_nil, false_imp_iff, implies_true, and_true]
  exact ⟨inCr, inCr, inS, inS, inS, inS, inTrc, inTrc, inTrc, inTrc, inTrc, inS, inRpl, inRpl, inRpl, inRpl, inS, inS, inS, inS, inS⟩

end Sys2Proof.Machine

open Sys2Proof Machine Claim in
/-- Settles O48, by the fields of each register, its privilege, and the rules of CRD, CWR and the installation of a seed. -/
theorem controlRegisters : Obligations.ControlRegisters := by
  unfold Obligations.ControlRegisters
  refine ⟨fun s a n => ?registers, fun s a b c v sc n i => ⟨fun hs hlo hhi hi => ?inU, fun ho hi => ?owner⟩⟩
  case registers =>
    intro r w o f bit crd cwr gives puts stamped sets dev own
    have user {n : Nat} {v : Word} (hn : n < 17) (hv : (userCrs s.cx s.cur)[n]? = some v) : gives n v := crd_user hn hv
    have put {n : Nat} {q : Crs} (hn : n < 17) (hq : crWriteUser s.cx.crs n (s.getX a) = q) : puts n q := cwr_user a hn hq
    have stamps {n : Nat} {u : State} {p : Act Unit} (hp : p = .ok ()) (hpriv : crPriv s n = p) (hn : 17 ≤ n ∧ n ≤ 0x48 ∧ n ≠ 0x42)
        (hu : crStore s n w = some u) (hcx : u.cx = s.cx) (hcur : u.cur = s.cur) (hnow : u.now = s.now)
        (hw : u.dev.crWrites = s.dev.crWrites) : sets n u :=
      cwr_stamps a (hpriv.trans hp) hn hu hcx hcur hnow hw
    refine ⟨?reads, ?writes, fun hs => ?inS, fun hs ho => ?inS0, fun hlo h hn => ?unlisted⟩
    case reads =>
      exact ⟨user (by decide) rfl, user (by decide) rfl, user (by decide) rfl, user (by decide) rfl, user (by decide) rfl,
        user (by decide) (congrArg some (ownerWord_eq s.cx)), user (by decide) (congrArg some (firingWord_eq s.cx s.cur.which)),
        user (by decide) rfl, user (by decide) rfl, user (by decide) rfl, user (by decide) rfl, user (by decide) rfl,
        user (by decide) rfl, user (by decide) rfl, user (by decide) (congrArg some (tstatWord_eq s.cx.crs)),
        user (by decide) rfl, user (by decide) rfl⟩
    case writes =>
      have low (q : Crs) : (if fieldN w 2 0 ≤ 4 then q else r) = if (w.setWidth 3).toNat ≤ 4 then q else r := by
        rw [fieldN_low]
      exact ⟨put (by decide) rfl, put (by decide) (low _), put (by decide) rfl, put (by decide) rfl, put (by decide) rfl,
        put (by decide) rfl, put (by decide) rfl, put (by decide) rfl, put (by decide) rfl, put (by decide) rfl,
        put (by decide) rfl, put (by decide) rfl, put (by decide) rfl, put (by decide) (low _), put (by decide) rfl,
        put (by decide) rfl, put (by decide) (congrArg (fun t => { r with tdline := t }) (tdline_kept w))⟩
    case inS =>
      have ok := needS_ok hs
      have armed : (s.cx.timerPend && decide (0x42 ≠ 16)) = s.cx.timerPend := Bool.and_true _
      exact ⟨crd_reads ok rfl, crd_reads ok rfl, crd_reads ok rfl, crd_reads ok rfl, ⟨_, cwr_seedLo a hs, by rw [armed]⟩,
        stamps ok rfl (by decide) rfl rfl rfl rfl rfl, stamps ok rfl (by decide) rfl rfl rfl rfl rfl,
        seedInstall_waits a hs, seedInstall_installs a hs⟩
    case inS0 =>
      have ok := needS0_ok hs ho
      refine ⟨crd_reads ok rfl, crd_reads ok rfl, crd_reads ok rfl, crd_reads ok rfl, crd_reads ok rfl,
        fun l hl => stamps ok rfl (by decide) ?leaseL1 rfl rfl rfl rfl, stamps ok rfl (by decide) ?leaseNear rfl rfl rfl rfl,
        stamps ok rfl (by decide) ?umint rfl rfl rfl rfl, stamps ok rfl (by decide) rfl rfl rfl rfl rfl,
        stamps ok rfl (by decide) rfl rfl rfl rfl rfl⟩
      case leaseL1 => rw [hl, ← clampW_low w 20]; rfl
      case leaseNear => rw [← clampW_low w 20]; rfl
      case umint => rw [← clampW_low w 4]; rfl
    case unlisted =>
      have number : (BitVec.ofNat 64 n).toNat = n := by rw [BitVec.toNat_ofNat]; omega
      exact cr_unlisted (number.symm ▸ crPriv_unlisted hlo h)
  case inU =>
    rcases List.mem_append.1 hi with hi | hi
    · exact ofSMode_lacks hs hlo hhi i hi
    · exact ofOwnerZero_lacks (needS0_traps (.inl hs)) hi
  case owner => exact ofOwnerZero_lacks (needS0_traps (.inr ho)) hi
end

section

/-! What comes to a context between instructions, and what time brings (O58). -/

namespace Sys2Proof.Machine

open Sys2Proof Claim

/-! ### Saves and losses leave the context that moves (R384, R388, R391) -/

theorem State.cur_of_standing {s t : State} (h : t.standing = s.standing) : t.cur = s.cur := congrArg Standing.cur h

theorem slotWrite_standing (s : State) (c : CtxId) (w : Who) (va : Word) (bs : List Byte) :
    OptOk (·.standing = s.standing) (slotWrite s c w va bs) := by
  grind [slotWrite, State.sealFrame_standing, check_standing, State.dropLine_standing, homePut_standing, foldl_standing, ChkOk, OptOk]

theorem slotAt_standing (s : State) (c : CtxId) (w : Who) (va : Word) (ps : List (Nat × List Byte)) :
    OptOk (·.standing = s.standing) (slotAt s c w va ps) := by
  refine foldl_keeps (P := OptOk fun t : State => t.standing = s.standing) (OptOk.intro rfl) ps fun o p ho => ?_
  exact ho.bind fun t ht => ht ▸ slotWrite_standing t c w _ p.2

theorem slotAtPhys_standing (s : State) (c : CtxId) (oid pa : Nat) (ps : List (Nat × List Byte)) :
    OptOk (·.standing = s.standing) (slotAtPhys s c oid pa ps) := by
  grind [slotAtPhys, State.onHome_standing, writeHome_standing, OptOk, foldl_standing]

theorem setSlotState_standing (s : State) (c : CtxId) (oid slot st : Nat) : (setSlotState s c oid slot st).standing = s.standing := by
  have tried (va : Word) (pa : Nat) (w : Who) (bs : List Byte) : ((if slot < 8192 then slotWrite s c w va bs
      else some (writeHome s ⟨c.core, 3⟩ oid pa bs)).getD s).standing = s.standing := by
    split
    · exact (slotWrite_standing ..).getD (P := fun t : State => t.standing = s.standing) rfl
    · exact writeHome_standing ..
  unfold setSlotState
  dsimp only
  split
  · exact (State.updOwner_standing _ oid _ rfl).trans (tried ..)
  · exact tried ..

theorem keepBeside_standing (s : State) (k : Ctx) (oid slot : Nat) : (keepBeside s k oid slot).standing = s.standing :=
  State.updOwner_standing s oid _ rfl

theorem saveImage_standing (s : State) (c : CtxId) (named : Option Nat) (state cause : Nat) (suspd : Bool) :
    (saveImage s c named state cause suspd).2.standing = s.standing := by
  unfold saveImage
  extract_lets -underBinder k oid lane flags used pick w spoilt tried
  have slot : OptOk (·.2.standing = s.standing) tried := by
    dsimp only [tried]
    split
    · exact .nothing
    · exact (slotAt_standing ..).map fun _ ht =>
        (State.updOwner_standing _ oid _ rfl).trans ((keepBeside_standing ..).trans ht)
  clear_value tried pick
  split
  · exact slot.of_eq rfl
  · extract_lets -underBinder pa busy failed
    have lost (a : Nat) : (failed a).2.standing = s.standing := by
      dsimp only [failed]
      cases pick with
      | none => rfl
      | some i => exact setSlotState_standing s c oid i 4
    clear_value failed pa busy
    split
    · exact lost _
    · split
      · exact lost _
      · split
        · exact lost _
        · next heq =>
          exact (State.firingEvent_standing ..).trans ((keepBeside_standing ..).trans ((slotAtPhys_standing ..).of_eq heq))

theorem State.setCtx_cur (s : State) (c : CtxId) (k : Ctx) : (s.setCtx c k).cur = s.cur := by
  unfold State.setCtx
  split <;> rfl

theorem State.updCtx_cur (s : State) (c : CtxId) (f : Ctx → Ctx) : (s.updCtx c f).cur = s.cur := by rw [State.updCtx_eq]

theorem freeCtx_cur (s : State) (c heir : CtxId) : (freeCtx s c heir).cur = s.cur := by
  grind [freeCtx, orphan, closeGang, stopHelperOf, stopHelper, releaseLane, State.setCtx_cur, State.updCtx_cur, State.updCore_cur,
    State.updCluster_cur, State.onHome_cur, State.onNet_cur]

theorem leaveGang_cur (s : State) (c : CtxId) : (leaveGang s c).cur = s.cur := by
  grind [leaveGang, closeGang, State.updCtx_cur, State.updCore_cur, State.updCluster_cur]

theorem releaseHolds_cur (s : State) (c : CtxId) : (releaseHolds s c).cur = s.cur :=
  (State.updCtx_cur ..).trans (State.cur_of_standing (foldl_standing (fun s _ => levelDrop_standing s ..) s _))

theorem ghostGoes_cur (s : State) (g : CtxId) : (ghostGoes s g).cur = s.cur := by
  have dropped (t : State) (c o i w l p) : ({ levelDrop t c o i w l with parked := p } : State).cur = t.cur :=
    State.cur_of_standing (levelDrop_standing t c o i w l)
  unfold ghostGoes
  split
  · rfl
  · exact (dropped ..).trans (State.cur_of_standing ((State.stampLeft_standing ..).trans (deliverPriv_standing ..)))

theorem loseFiring_cur (s : State) (c : CtxId) (cause : Nat) : (loseFiring s c cause).cur = s.cur := by
  have held (o p) : (releaseHolds (s.trace o 6 p c) c).cur = s.cur :=
    (releaseHolds_cur ..).trans (State.cur_of_standing (State.trace_standing ..))
  have told (t : State) (k i) : (t.firingEvent c 1 k i 0).cur = t.cur := State.cur_of_standing (State.firingEvent_standing ..)
  unfold loseFiring
  grind [ghostGoes_cur, State.setCtx_cur, freeCtx_cur, leaveGang_cur, State.updOwner_cur]

theorem trapLost_cur (s : State) (kind : Nat) (c : Cause) : (trapLost s kind c).cur = s.cur := by
  unfold trapLost
  dsimp only
  rw [State.updCluster_cur, loseFiring_cur]
  exact State.cur_of_standing ((State.firingEvent_standing ..).trans (saveImage_standing ..))

/-- A trap, with a handler or without, is taken in the context that moves (R382, R384). -/
theorem takeTrap_cur (s : State) (c : Cause) (impr : Bool) (addr val : Option Word) (resume : Word) :
    (takeTrap s c impr addr val resume).cur = s.cur := by
  have noted : (s.noteFault c).cur = s.cur := by
    unfold State.noteFault
    split <;> rfl
  unfold takeTrap
  dsimp only
  split
  · exact trapLost_cur ..
  · split
    · exact trapLost_cur ..
    · exact (State.cur_of_standing (State.trace_standing ..)).trans noted

/-! ### Traps between instructions (R382, R383) -/

theorem State.switchTo_cur_self (s : State) : s.switchTo s.cur = s := if_pos rfl

/-- What the context that moves does, it does where it stands. -/
theorem State.asCtx_here {s : State} {f : State → State} (hf : (f s).cur = s.cur) : s.asCtx s.cur f = f s := by
  have back : (f s).switchTo s.cur = f s := hf ▸ State.switchTo_cur_self (f s)
  rw [State.asCtx, State.switchTo_cur_self]
  exact back

/-- A context that waits for nothing has no wait to give up. -/
theorem leaveWait_idle {s : State} (hw : s.cx.wait = none) (hk : s.cx.woke = none) : leaveWait s = s := by
  have idle (k : Ctx) (hw : k.wait = none) (hk : k.woke = none) : { k with wait := none, woke := none } = k := by
    cases k
    cases hw
    cases hk
    rfl
  have nothing : s.cx.wait.or s.cx.woke = none := by rw [hw, hk]; rfl
  unfold leaveWait
  rw [nothing]
  exact congrArg (fun k => { s with cx := k }) (idle s.cx hw hk)

section
variable {s u : State} {cause : Cause} {impr : Bool} {addr val : Option Word}

/-- The context that moves takes the trap that is pending at its boundary. -/
theorem trapEntry_takes (hh : haltedAt s s.cur.core = false) {k : Ctx} {pc : Word}
    (hb : boundaryTrap s = takeTrap { s with cx := k } cause impr addr val pc) :
    exec (.trapEntry s.cur) s = .next (takeTrap { s with cx := k } cause impr addr val pc) := by
  have here : (boundaryTrap s).cur = s.cur := by rw [hb]; exact takeTrap_cur ..
  show Host.Outcome.next (if haltedAt s s.cur.core then s else s.asCtx s.cur boundaryTrap) = _
  rw [hh, State.asCtx_here here, hb]
  rfl

variable (hw : s.cx.wait = none) (hk : s.cx.woke = none)
include hw hk

theorem boundaryTrap_lost {kind : Nat} {va : Word} {ls : List (Nat × Word)} (hp : pendingCause s s.cx = some .lost)
    (hl : s.cx.lostPend = (kind, va) :: ls) : boundaryTrap s =
      takeTrap { s with cx := { s.cx with lostPend := ls } } .lost false (some va) (some (BitVec.ofNat 64 kind)) s.cx.pc := by
  simp only [boundaryTrap, hp, hl, leaveWait_idle hw hk]
  rfl

theorem boundaryTrap_engine {e : EngFault} {es : List EngFault} (hp : pendingCause s s.cx = some .engine)
    (hf : firstFault s.cx.engFaults = some (e, es)) : boundaryTrap s =
      takeTrap { s with cx := { s.cx with engFaults := es } } e.cause true (some (e.addr.getD 0)) (some e.val) s.cx.pc := by
  simp only [boundaryTrap, hp, hf, leaveWait_idle hw hk]
  rfl

theorem boundaryTrap_timer (hp : pendingCause s s.cx = some .timer) : boundaryTrap s =
    takeTrap { s with cx := { s.cx with
      timerPend := false, crs := { s.cx.crs with tdline := s.cx.crs.tdline &&& ~~~(BitVec.twoPow 64 63) } } }
      .timer false none none s.cx.pc := by
  simp only [boundaryTrap, hp, leaveWait_idle hw hk]
  rfl

theorem boundaryTrap_notice (hp : pendingCause s s.cx = some .notice) : boundaryTrap s =
    takeTrap { s with cx := { s.cx with noticeSet := 0 } } .notice false none (some s.cx.noticeSet) s.cx.pc := by
  simp only [boundaryTrap, hp, leaveWait_idle hw hk]
  rfl

end

/-! ### Deadlines, pre-emption and resuming (R85, R386, R391) -/

section
variable {s u : State} {c : CtxId}

theorem deadlineReached_pends (hc : c.which < 3) (hl : (s.ctxOf c).life = .running) (hd : timerDue s (s.ctxOf c) = true) :
    ((deadlineReached s c).ctxOf c).timerPend = true ∧ (deadlineReached s c).mem = s.mem := by
  have reached : deadlineReached s c = s.updCtx c fun k => { k with timerPend := true } := by simp [deadlineReached, hl, hd]
  rw [reached, State.ctxOf_updCtx_same s hc]
  exact ⟨rfl, State.updCtx_mem ..⟩

theorem preempted_saves {sv : Saved} (hc : c.which < 2) (hh : haltedAt s c.core = false)
    (hp : pendingCause s (s.ctxOf c) = some .preempt) (hs : preemptCtx s c none true = (sv, u)) : preempted s c = u := by
  simp [preempted, hc, hh, hp, hs]

theorem resumeSuspended_resumes {oid slot : Nat}
    (hf : (suspdSlots s oid).find? (fun (p : Nat × CtxId) => p.1 == slot) = some (slot, c)) (hv : (s.ownerSt oid).valid = true)
    (hs : (s.ownerSt oid).susp = false) (ho : coreOpen s c.core = true) (hown : s.coreOwner c.core = oid)
    (hl : (s.ctxOf c).life = .free) (hr : resumeSlot s c oid slot = some u) : resumeSuspended s oid slot = u := by
  simp [resumeSuspended, hf, hv, hs, ho, hown, hl, hr]

/-! ### The end of a wait (R249, R300 to R303) -/

theorem release_leaves {w : Wait} (hc : c.which < 3) (hw : (s.ctxOf c).wait = some w) :
    ((release s c).ctxOf c).wait = none ∧ ((release s c).ctxOf c).woke = some w ∧ ((release s c).ctxOf c).x = (s.ctxOf c).x ∧
      ((release s c).ctxOf c).pc = (s.ctxOf c).pc ∧ (release s c).mem = s.mem := by
  rw [release, State.ctxOf_updCtx_same s hc]
  exact ⟨rfl, hw, rfl, rfl, State.updCtx_mem ..⟩

theorem releaseIf_eq {w : Wait} {p : Wait → Bool} (hh : haltedAt s c.core = false) (hw : (s.ctxOf c).wait = some w) (hp : p w = true)
    (ho : waitOver s c w = true) : releaseIf s c p = release s c := by
  simp [releaseIf, hw, hh, hp, ho]

/-- A wait that no event of its own ends is over when what it waits for has come. -/
theorem endWait_releases {w : Wait} (hw : (s.ctxOf c).wait = some w) (he : ∀ n, w ≠ .entry n) (ha : ∀ a v p, w ≠ .address a v p)
    (hq : w ≠ .copyQueue) : endWait s c = releaseIf s c fun _ => true := by
  unfold endWait
  rw [hw]
  cases w with
  | entry n => exact absurd rfl (he n)
  | address a v p => exact absurd rfl (ha a v p)
  | copyQueue => exact absurd rfl hq
  | _ => rfl

end

/-! ### Barriers (R296) -/

theorem barrierExpires_ends {s : State} {die n : Nat} {b : Barrier} {x : Stamp} (hb : tfind (s.dieSt die).barriers n = some b)
    (hs : b.started = some x) (ht : atOrPast s.now (x + BitVec.ofNat 48 b.timeout) = true) :
    (barrierExpires s die n).mem = s.mem ∧ tfind ((barrierExpires s die n).dieSt die).barriers n =
      some { b with g := !b.g, arrived := [], started := none, timedOut := true } := by
  have ended : barrierExpires s die n = setBarrier s die n (b.ended true) := by simp only [barrierExpires, hb, hs, ht, if_true]
  rw [ended, setBarrier, State.dieSt_updDie_same, tfind_tset_same]
  exact ⟨rfl, rfl⟩

/-! ### Quotas (R341) -/

theorem argmax_mem {f : Nat → Nat} {l : List Nat} {a : Nat} (h : argmax f l = some a) : a ∈ l := by
  induction l generalizing a with
  | nil => cases h
  | cons b l ih =>
    rw [argmax] at h
    split at h
    · cases h
      exact List.mem_cons_self
    · next c hc =>
      split at h <;> cases h
      · exact List.mem_cons_self
      · exact List.mem_cons_of_mem _ (ih hc)

/-- The ways of a slice, in its partitions and free. -/
def Quotas.total (q : Quotas) : Nat := (q.parts.map fun (p : Part) => p.quota).sum + q.free

/-- Ways have moved between the partitions: their number and the counts are as they were. -/
structure Quotas.Moved (q r : Quotas) : Prop where
  total : r.total = q.total
  hits : r.parts.map (fun (p : Part) => p.hits) = q.parts.map fun (p : Part) => p.hits
  done : r.done = q.done

theorem Quotas.Moved.trans {q r t : Quotas} (h : q.Moved r) (k : r.Moved t) : q.Moved t :=
  ⟨k.total.trans h.total, k.hits.trans h.hits, k.done.trans h.done⟩

/-- A change of one partition that keeps its counts. -/
theorem map_hits_modify (l : List Part) (i : Nat) (f : Nat → Nat) :
    (l.modify i fun p => { p with quota := f p.quota }).map (fun (p : Part) => p.hits) = l.map fun (p : Part) => p.hits := by
  induction l generalizing i with
  | nil => cases i <;> rfl
  | cons p l ih => cases i <;> simp [ih]

theorem sum_quota_grown {l : List Part} {g : Nat} (hg : g < l.length) :
    ((l.modify g fun p => { p with quota := p.quota + 1 }).map fun (p : Part) => p.quota).sum =
      (l.map fun (p : Part) => p.quota).sum + 1 := by
  induction l generalizing g with
  | nil => cases hg
  | cons p l ih =>
    cases g with
    | zero => simp; omega
    | succ g => simp [ih (Nat.lt_of_succ_lt_succ hg)]; omega

theorem sum_quota_shrunk {l : List Part} {i : Nat} (hi : 0 < (lget ⟨0, []⟩ l i).quota) :
    ((l.modify i fun p => { p with quota := p.quota - 1 }).map fun (p : Part) => p.quota).sum + 1 =
      (l.map fun (p : Part) => p.quota).sum := by
  induction l generalizing i with
  | nil => simp [lget] at hi
  | cons p l ih =>
    cases i with
    | zero => simp [lget] at hi ⊢; omega
    | succ i =>
      have := ih (i := i) (by simpa [lget] using hi)
      simp; omega

/-- A partition of the slice gains a free way. -/
theorem Quotas.Moved.fromFree (q : Quotas) {g : Nat} (hg : g < q.parts.length) (hf : q.free ≠ 0) :
    q.Moved { q with parts := q.parts.modify g fun p => { p with quota := p.quota + 1 }, free := q.free - 1 } where
  total := by
    show (_ : List Nat).sum + (q.free - 1) = _
    rw [sum_quota_grown hg, Quotas.total]
    omega
  hits := map_hits_modify q.parts g (· + 1)
  done := rfl

/-- A partition of the slice gains a way of another. -/
theorem Quotas.Moved.fromOther (q : Quotas) {g l : Nat} (hg : g < q.parts.length) (hl : 0 < (q.part l).quota) :
    q.Moved { q with parts := (q.parts.modify l fun p => { p with quota := p.quota - 1 }).modify g fun p =>
      { p with quota := p.quota + 1 } } where
  total := by
    show (_ : List Nat).sum + q.free = _
    rw [sum_quota_grown (by rwa [List.length_modify]), sum_quota_shrunk hl]
    rfl
  hits := (map_hits_modify _ g (· + 1)).trans (map_hits_modify q.parts l (· - 1))
  done := rfl

theorem moveWays_moved (floors : List Floor) (ways fuel : Nat) (q : Quotas) (gained lost : List Nat) :
    q.Moved (moveWays floors ways fuel q gained lost) := by
  induction fuel generalizing q gained lost with
  | zero => exact ⟨rfl, rfl, rfl⟩
  | succ fuel ih =>
    have still : q.Moved q := ⟨rfl, rfl, rfl⟩
    unfold moveWays
    extract_lets is quota gain lose floor gainer losers most loser grown up
    have present (g : Nat) (hg : gainer = some g) : g < q.parts.length :=
      List.mem_range.1 (List.mem_filter.1 (argmax_mem hg)).1
    have spare (l : Nat) (hl : loser = some l) : 0 < (q.part l).quota := by
      have kept := (List.mem_filter.1 (argmax_mem hl)).2
      simp only [Bool.and_eq_true, decide_eq_true_eq] at kept
      exact Nat.zero_lt_of_lt kept.1.1
    clear_value gainer loser gain lose up
    split
    · exact still
    · next g =>
      split
      · next free =>
        split
        · exact still
        · exact (Quotas.Moved.fromFree q (present g rfl) (by simpa using free)).trans (ih ..)
      · split
        · exact still
        · next l =>
          split
          · exact still
          · exact (Quotas.Moved.fromOther q (present g rfl) (spare l rfl)).trans (ih ..)

/-- The end of an interval conserves the ways and halves every count (R341). -/
theorem interval_halves (q : Quotas) (floors : List Floor) (ways : Nat) : (q.interval floors ways).total = q.total ∧
    (q.interval floors ways).parts.map (fun (p : Part) => p.hits) = q.parts.map fun (p : Part) => p.hits.map (· / 2) := by
  have moved := moveWays_moved floors ways 64 q (List.replicate q.parts.length 0) (List.replicate q.parts.length 0)
  dsimp only [Quotas.interval]
  generalize moveWays floors ways 64 q (List.replicate q.parts.length 0) (List.replicate q.parts.length 0) = r at moved ⊢
  constructor
  · rw [← moved.total]
    simp [Quotas.total, Function.comp_def]
  · have halved := congrArg (List.map (List.map (· / 2))) moved.hits
    simpa [Function.comp_def] using halved

/-- A slice that is behind meets the end of one interval. -/
theorem catchUp_one {q : Quotas} {intervals : Nat} (floors : List Floor) (ways : Nat) (h : q.done < intervals) :
    q.catchUp floors ways intervals 1 = { q.interval floors ways with done := q.done + 1 } := by
  have one : min (intervals - q.done) 1 = 1 := by omega
  have next : (if 1 < intervals - q.done then q.done + 1 else intervals) = q.done + 1 := by split <;> omega
  simp [Quotas.catchUp, one, next]

/-! ### Measurement runs (R367) -/

theorem passes_updOwner (s : State) (oid : Nat) (m : Option MPass) :
    (s.updOwner oid fun o => { o with mpass := m }).standing.passes oid = m.map (·.pass) := by
  simp [State.standing, State.ownerSt_updOwner_same]

theorem openPass_standing (s : State) (oid : Nat) (m : MPass) : OptOk (·.standing = s.standing) (openPass s oid m) := by
  have fid (t : State) : (t.updOwner oid fun o => { o with nextFid := o.nextFid + 1 }).standing = t.standing :=
    State.updOwner_standing t oid _ rfl
  unfold openPass
  grind [levelGet_standing, levelAdd_standing, levelPut_standing, pushDeque_standing, ChkOk, OptOk]

theorem startPass_passes (s : State) (oid : Nat) (m : MPass) : (startPass s oid m).standing.passes oid = some m.pass := by
  unfold startPass
  dsimp only
  split
  · next heq =>
    rw [(openPass_standing ..).of_eq heq]
    exact passes_updOwner ..
  · exact passes_updOwner ..

theorem endRun_passes (s : State) (oid : Nat) (m : MPass) : (endRun s oid m).standing.passes oid = none := by
  have ended (t : State) : (t.updOwner oid fun o => { o with mpass := none }).standing.passes oid = none := passes_updOwner t oid none
  unfold endRun
  dsimp only
  split
  · next heq =>
    have checked := (checkCounter_standing ..).of_eq heq
    dsimp only at checked
    split
    · rw [checked]
      exact ended _
    · rw [counterApply_standing, checked]
      exact ended _
  · exact ended _

/-- A pass is followed by the next, or by none where the run is over. -/
theorem endPass_advances {s : State} {oid n : Nat} {m : MPass} (hm : (s.ownerSt oid).mpass = some m)
    (hn : (endPass s oid).standing.passes oid = some n) : n = m.pass + 1 := by
  unfold endPass at hn
  split at hn
  · next absent => rw [hm] at absent; cases absent
  · next q hq =>
    obtain rfl : m = q := Option.some.inj (hm.symm.trans hq)
    extract_lets count t next u bad v w last at hn
    have pass : next.pass = m.pass := by
      dsimp only [next]
      split
      · rfl
      · split <;> rfl
    clear_value next t
    split at hn
    · rw [startPass_passes] at hn
      rw [← Option.some.inj hn, ← pass]
    · rw [endRun_passes] at hn
      cases hn

/-! ### Replay (R413) -/

theorem noteDiffer_notes (s : State) (oid fid ev : Nat) :
    ((noteDiffer s oid fid ev).ownerSt oid).rpl.released = (s.ownerSt oid).rpl.released ∧
      ∃ i, tfind ((noteDiffer s oid fid ev).ownerSt oid).rpl.differ fid = some i ∧
        (tfind (s.ownerSt oid).rpl.differ fid = none → i = ev) := by
  rw [noteDiffer, State.ownerSt_updOwner_same]
  split
  · next h =>
    obtain ⟨i, hi⟩ := Option.isSome_iff_exists.1 h
    exact ⟨rfl, i, hi, fun absent => by rw [absent] at hi; cases hi⟩
  · exact ⟨rfl, ev, tfind_tset_same .., fun _ => rfl⟩

/-- What is released is held no more, and only the firing of its event differs. -/
theorem holdExpires_releases {s : State} {n : Nat} {h : Held} {x : Stamp} (hf : (heldNow s).find? (fun (h : Held) => h.id == n) = some h)
    (hx : tfind (s.ownerSt h.oid).rpl.holds n = some x) (ht : atOrPast s.now (x + BitVec.ofNat 48 (2 ^ 20)) = true) :
    (holdExpires s n).mem = s.mem ∧
      ((holdExpires s n).ownerSt h.oid).rpl.released = n :: (s.ownerSt h.oid).rpl.released ∧
      (∀ fid ev, h.event = some (fid, ev) → ∃ i, tfind ((holdExpires s n).ownerSt h.oid).rpl.differ fid = some i ∧
        (tfind (s.ownerSt h.oid).rpl.differ fid = none → i = ev)) ∧
      (h.event = none → ((holdExpires s n).ownerSt h.oid).rpl.differ = (s.ownerSt h.oid).rpl.differ) := by
  let u := s.updOwner h.oid fun o => { o with rpl := { o.rpl with released := n :: o.rpl.released } }
  have own : (u.ownerSt h.oid).rpl = { (s.ownerSt h.oid).rpl with released := n :: (s.ownerSt h.oid).rpl.released } := by
    dsimp only [u]
    rw [State.ownerSt_updOwner_same]
  have expires : holdExpires s n = match h.event with
      | some (fid, ev) => noteDiffer u h.oid fid ev
      | none => u := by
    simp only [holdExpires, hf, hx, ht]
    rfl
  rw [expires]
  cases he : h.event with
  | none =>
    have same : (u.ownerSt h.oid).rpl.differ = (s.ownerSt h.oid).rpl.differ := by rw [own]
    exact ⟨rfl, congrArg Replay.released own, fun _ _ => nofun, fun _ => same⟩
  | some e =>
    obtain ⟨released, differ⟩ := noteDiffer_notes u h.oid e.1 e.2
    rw [own] at released differ
    refine ⟨rfl, released, fun fid ev e => ?_, nofun⟩
    cases e
    exact differ

end Sys2Proof.Machine

open Sys2Proof Machine Claim in
/-- Settles O58: each trap at a boundary, the release of a wait, and what the end of a barrier, an interval, a pass and a hold does. -/
theorem contextsAct : Obligations.ContextsAct := by
  unfold Obligations.ContextsAct
  intro s u c w sv b x oid slot die n m h q k' e es kind va ls k r takes released total halves
  refine ⟨fun hh hw hk => ?traps, ?elsewhere, ?deadline, ?preemption, ?resuming, fun hc hh hw => ?waits, ?barrier, ?near, ?far, ?pass,
    ?held⟩
  case traps =>
    exact ⟨fun hp hl => trapEntry_takes hh (boundaryTrap_lost hw hk hp hl),
      fun hp hf => trapEntry_takes hh (boundaryTrap_engine hw hk hp hf),
      fun hp => trapEntry_takes hh (boundaryTrap_timer hw hk hp),
      fun hp => trapEntry_takes hh (boundaryTrap_notice hw hk hp)⟩
  case elsewhere =>
    intro _ hh
    show Host.Outcome.next (if haltedAt s c.core then s else s.asCtx c boundaryTrap) = _
    rw [hh]
    rfl
  case deadline => exact fun hc hl hd => ⟨_, rfl, deadlineReached_pends hc hl hd⟩
  case preemption => exact fun hc hh hp hs => congrArg Host.Outcome.next (preempted_saves hc hh hp hs)
  case resuming => exact fun hf hv hs ho hown hl hr => congrArg Host.Outcome.next (resumeSuspended_resumes hf hv hs ho hown hl hr)
  case waits =>
    have goes {t : State} {p : Wait → Bool} (ht : t = releaseIf s c p) (hp : p w = true) (ho : waitOver s c w = true) :
        released (.next t) := by
      rw [ht, releaseIf_eq hh hw hp ho]
      exact ⟨_, rfl, release_leaves hc hw⟩
    refine ⟨?_, ?_, fun hq ho => goes rfl (by rw [hq]; rfl) ho, fun ho he ha hq => goes (endWait_releases hw he ha hq) rfl ho⟩
    · rintro ⟨a, v, rfl⟩
      exact goes rfl rfl rfl
    · rintro ⟨a, v, rfl⟩
      exact goes rfl rfl rfl
  case barrier => exact fun hb hs ht => ⟨_, rfl, barrierExpires_ends hb hs ht⟩
  case near =>
    intro hk hd
    have met : quotaEnds s false die n = s.updCluster (die * 32 + n) fun c =>
        { c with quotas := { k'.quotas.interval (floorsOf s die 5) 24 with done := k'.quotas.done + 1 } } := by
      simp only [quotaEnds, hk, catchUp_one _ _ hd]
      rfl
    refine ⟨_, congrArg Host.Outcome.next met, rfl, ?_⟩
    rw [State.clusterSt_updCluster_same]
    exact ⟨(interval_halves k'.quotas _ 24).1, (interval_halves k'.quotas _ 24).2, rfl⟩
  case far =>
    intro hq hd
    have met : quotaEnds s true die n = s.updDie die fun d =>
        { d with farQuotas := tset d.farQuotas n { q.interval (floorsOf s die 6) 16 with done := q.done + 1 } } := by
      simp only [quotaEnds, hq, catchUp_one _ _ hd]
      rfl
    refine ⟨_, congrArg Host.Outcome.next met, rfl, { q.interval (floorsOf s die 6) 16 with done := q.done + 1 }, ?found, ?halved⟩
    case found =>
      rw [State.dieSt_updDie_same]
      exact tfind_tset_same ..
    case halved => exact ⟨(interval_halves q _ 16).1, (interval_halves q _ 16).2, rfl⟩
  case pass =>
    intro hm hover
    have ends : exec (.mpassPassEnd oid) s = .next (endPass s oid) := by
      show Host.Outcome.next (if passOver s oid then endPass s oid else s) = _
      rw [hover]
      rfl
    refine ⟨_, ends, fun m' hm' => endPass_advances hm ?_⟩
    exact congrArg (Option.map fun (m : MPass) => m.pass) hm'
  case held => exact fun hf hx ht => ⟨_, rfl, holdExpires_releases hf hx ht⟩
end

section

/-! Floating-point values that a format holds exactly (O18): a pattern is the encoding of its decoded value, and rounding a
number equal to that value gives the pattern back (R94, R97, R98). -/

namespace Sys2Proof.Machine

/-! ### Exact dyadic numbers -/

/-- The rational number that a dyadic stands for. -/
def Dy.val (d : Dy) : ℚ := d.n * 2 ^ d.e

theorem zpow_two_toNat_sub {e q : Int} (h : q ≤ e) : (2 : ℚ) ^ (e - q).toNat * 2 ^ q = 2 ^ e := by
  rw [← zpow_natCast, Int.toNat_of_nonneg (sub_nonneg.2 h), ← zpow_add₀ two_ne_zero, sub_add_cancel]

theorem Dy.add_val (a b : Dy) : (a.add b).val = a.val + b.val := by
  simp only [Dy.val, Dy.add]
  push_cast
  rw [add_mul, mul_assoc, mul_assoc, zpow_two_toNat_sub (min_le_left ..), zpow_two_toNat_sub (min_le_right ..)]

theorem Dy.mul_val (a b : Dy) : (a.mul b).val = a.val * b.val := by
  simp only [Dy.val, Dy.mul]
  push_cast
  rw [zpow_add₀ two_ne_zero, mul_mul_mul_comm]

theorem dyOf_val (u : Bool) (n : Nat) (h : Int) : (dyOf u n h).val = (if u then -1 else 1) * (n : ℚ) * 2 ^ h := by
  cases u <;> simp [Dy.val, dyOf]

@[simp] theorem dyOf_natAbs (u : Bool) (n : Nat) (h : Int) : (dyOf u n h).n.natAbs = n := by
  cases u <;> simp [dyOf]

theorem dyOf_neg_iff (u : Bool) {n : Nat} (h : Int) (hn : n ≠ 0) : (dyOf u n h).n < 0 ↔ u := by
  cases u <;> simp [dyOf, Nat.pos_of_ne_zero hn]

theorem Dy.val_neg_iff (d : Dy) : d.val < 0 ↔ d.n < 0 := by
  rw [Dy.val, ← not_le, mul_nonneg_iff_of_pos_right (zpow_pos two_pos _), Int.cast_nonneg_iff, not_le]

theorem Dy.val_eq_zero_iff (d : Dy) : d.val = 0 ↔ d.n = 0 := by
  rw [Dy.val, mul_eq_zero_iff_right (zpow_ne_zero _ two_ne_zero), Int.cast_eq_zero]

theorem Dy.abs_val (d : Dy) : |d.val| = d.n.natAbs * 2 ^ d.e := by
  rw [Dy.val, abs_mul, abs_of_pos (zpow_pos (two_pos (α := ℚ)) _), Nat.cast_natAbs, Int.cast_abs]

/-- Two equal multiples of powers of two: the one with the lower exponent is the other, shifted. -/
theorem eq_mul_of_scaled_eq {a b : Nat} {i j : Int} (h : (a : ℚ) * 2 ^ i = b * 2 ^ j) (hij : i ≤ j) :
    a = b * 2 ^ (j - i).toNat := by
  rw [← zpow_two_toNat_sub hij, ← mul_assoc] at h
  exact_mod_cast mul_right_cancel₀ (zpow_ne_zero i two_ne_zero) h

theorem ne_zero_of_scaled_eq {a b : Nat} {i j : Int} (h : (a : ℚ) * 2 ^ i = b * 2 ^ j) (hb : b ≠ 0) : a ≠ 0 := by
  rintro rfl
  simp [hb, zpow_ne_zero] at h

/-! ### Bit lengths -/

theorem bitLen_le_iff {m k : Nat} : bitLen m ≤ k ↔ m < 2 ^ k := by
  unfold bitLen
  split
  case isTrue hm => simp [hm]
  case isFalse hm => rw [Nat.succ_le_iff, Nat.log2_lt hm]

theorem bitLen_eq_size (m : Nat) : bitLen m = m.size := eq_of_forall_ge_iff fun _ => bitLen_le_iff.trans Nat.size_le.symm

theorem bitLen_mul_two_pow {m : Nat} (hm : m ≠ 0) (k : Nat) : bitLen (m * 2 ^ k) = bitLen m + k := by
  rw [bitLen_eq_size, bitLen_eq_size, ← Nat.shiftLeft_eq, Nat.size_shiftLeft hm]

/-- The exponent just above a number's leading bit does not depend on how the number is scaled. -/
theorem add_bitLen_of_scaled_eq {a b : Nat} {i j : Int} (h : (a : ℚ) * 2 ^ i = b * 2 ^ j) (hb : b ≠ 0) :
    i + bitLen a = j + bitLen b := by
  rcases le_total i j with hij | hji
  · rw [eq_mul_of_scaled_eq h hij, bitLen_mul_two_pow hb]
    omega
  · rw [eq_mul_of_scaled_eq h.symm hji, bitLen_mul_two_pow (ne_zero_of_scaled_eq h hb)]
    omega

/-! ### Rounding to a grid that holds the number (R98) -/

theorem roundsUp_exact (mode : RMode) (neg : Bool) (q sh : Nat) : roundsUp mode neg q 0 sh false = false := by
  have half : (0 == 2 ^ (sh - 1)) = false := beq_false_of_ne (Nat.two_pow_pos _).ne
  cases mode <;> simp [roundsUp, half]

theorem roundTo_exact (mode : RMode) (neg : Bool) {m n : Nat} {e q : Int} (h : (m : ℚ) * 2 ^ e = n * 2 ^ q) :
    roundTo mode neg m e q false = (n, false) := by
  unfold roundTo
  split
  case isTrue hq => simp [← eq_mul_of_scaled_eq h.symm hq, roundsUp_exact]
  case isFalse hq =>
    have shifted := eq_mul_of_scaled_eq h (le_of_not_ge hq)
    have quotient : m / 2 ^ (q - e).toNat = n := by rw [shifted, Nat.mul_div_cancel _ (Nat.two_pow_pos _)]
    have rest : m % 2 ^ (q - e).toNat = 0 := by rw [shifted, Nat.mul_mod_left]
    simp [quotient, rest, roundsUp_exact]

/-! ### The formats with infinities (R94) -/

/-- A format of R94: the topmost exponent is that of the infinities and the NaNs, and every significand below it is in use. -/
structure FFmt.Ieee (g : FFmt) : Prop where
  hasInf : g.hasInf = true
  two_le_ew : 2 ≤ g.ew
  maxM : g.maxM = 2 ^ (g.fw + 1) - 1
  maxQ : g.maxQ = (2 ^ g.ew : Nat) - 2 - g.bias - g.fw

theorem fp32_ieee : fp32.Ieee := ⟨rfl, by decide, by decide, by decide⟩
theorem bf16_ieee : bf16.Ieee := ⟨rfl, by decide, by decide, by decide⟩

/-- The pattern of (−1)^neg · n · 2^h, where `h` is the exponent that the format gives that number. -/
def FFmt.finBits (g : FFmt) (neg : Bool) (n : Nat) (h : Int) : Nat :=
  g.sign neg + (if n < 2 ^ g.fw then n else ((h + g.fw + g.bias).toNat <<< g.fw) + (n - 2 ^ g.fw))

/-- `n` · 2^`h` is a number of the format, and `h` is the exponent of its last bit there. -/
structure FFmt.Holds (g : FFmt) (n : Nat) (h : Int) : Prop where
  lt : n < 2 ^ (g.fw + 1)
  le_maxQ : h ≤ g.maxQ
  exponent : max (h + bitLen n - (g.fw + 1 : Nat)) (1 - (g.bias : Int) - g.fw) = h

theorem FFmt.fields_sum (g : FFmt) {c : Nat} (hc : c < 2 ^ g.width) :
    g.sign (c.testBit (g.ew + g.fw)) + (((c >>> g.fw) % 2 ^ g.ew) <<< g.fw + c % 2 ^ g.fw) = c := by
  have top : c / 2 ^ g.fw / 2 ^ g.ew < 2 := by
    rw [Nat.div_div_eq_div_mul, ← pow_add, Nat.div_lt_iff_lt_mul (Nat.two_pow_pos _), ← pow_succ']
    rwa [FFmt.width, show 1 + g.ew + g.fw = g.fw + g.ew + 1 by omega] at hc
  have sign : g.sign (c.testBit (g.ew + g.fw)) = 2 ^ g.fw * (2 ^ g.ew * (c / 2 ^ g.fw / 2 ^ g.ew)) := by
    rw [FFmt.sign, Nat.testBit_eq_decide_div_mod_eq, add_comm g.ew, pow_add, ← Nat.div_div_eq_div_mul, Nat.mod_eq_of_lt top]
    interval_cases c / 2 ^ g.fw / 2 ^ g.ew <;> simp
  rw [sign, Nat.shiftRight_eq_div_pow, Nat.shiftLeft_eq, mul_comm (_ % _), ← add_assoc, ← mul_add, Nat.div_add_mod,
    Nat.div_add_mod]

theorem FFmt.decode_infBits {g : FFmt} (hg : g.Ieee) (neg : Bool) : g.decode (g.infBits neg) = .inf neg := by
  have hew : 2 ^ 2 ≤ 2 ^ g.ew := Nat.pow_le_pow_right two_pos hg.two_le_ew
  have bits : g.infBits neg = 2 ^ g.fw * (2 ^ g.ew * neg.toNat + (2 ^ g.ew - 1)) := by
    rw [FFmt.infBits, FFmt.sign, Nat.shiftLeft_eq, pow_add]
    cases neg <;> simp <;> ring
  have upper : g.infBits neg / 2 ^ g.fw = 2 ^ g.ew * neg.toNat + (2 ^ g.ew - 1) := by
    rw [bits, Nat.mul_div_cancel_left _ (Nat.two_pow_pos _)]
  have sign : (g.infBits neg).testBit (g.ew + g.fw) = neg := by
    rw [Nat.testBit_eq_decide_div_mod_eq, add_comm g.ew, pow_add, ← Nat.div_div_eq_div_mul, upper,
      Nat.mul_add_div (by omega), Nat.div_eq_of_lt (by omega : 2 ^ g.ew - 1 < 2 ^ g.ew)]
    cases neg <;> rfl
  have exponent : (g.infBits neg >>> g.fw) % 2 ^ g.ew = 2 ^ g.ew - 1 := by
    rw [Nat.shiftRight_eq_div_pow, upper, Nat.mul_add_mod, Nat.mod_eq_of_lt (by omega)]
  have fraction : g.infBits neg % 2 ^ g.fw = 0 := by rw [bits, Nat.mul_mod_right]
  have finite : 2 ^ g.ew - 1 ≠ 0 := by omega
  simp [FFmt.decode, sign, exponent, fraction, finite, hg.hasInf]

/-- Every pattern of a number is the encoding of that number. -/
theorem FFmt.decode_fin {g : FFmt} (hg : g.Ieee) {c n : Nat} {u : Bool} {h : Int} (hc : c < 2 ^ g.width)
    (hd : g.decode c = .fin u n h) : g.Holds n h ∧ g.finBits u n h = c := by
  have sum := g.fields_sum hc
  have hew : 2 ^ 2 ≤ 2 ^ g.ew := Nat.pow_le_pow_right two_pos hg.two_le_ew
  have ex_lt := Nat.mod_lt (c >>> g.fw) (Nat.two_pow_pos g.ew)
  have fr_lt := Nat.mod_lt c (Nat.two_pow_pos g.fw)
  have maxQ := hg.maxQ
  simp only [FFmt.decode, hg.hasInf, Bool.true_and, Bool.not_true, Bool.and_false, Bool.false_and, beq_iff_eq,
    Bool.false_eq_true, if_false] at hd
  generalize (c >>> g.fw) % 2 ^ g.ew = ex at hd sum ex_lt
  generalize c % 2 ^ g.fw = fr at hd sum fr_lt
  split at hd
  case isTrue subnormal =>
    obtain ⟨rfl, rfl, rfl⟩ := FVal.fin.inj hd
    have short : bitLen fr ≤ g.fw := bitLen_le_iff.2 fr_lt
    refine ⟨⟨fr_lt.trans (Nat.pow_lt_pow_succ one_lt_two), by omega, by omega⟩, ?_⟩
    rw [subnormal, Nat.zero_shiftLeft, zero_add] at sum
    rw [FFmt.finBits, if_pos fr_lt, sum]
  case isFalse normal =>
    split at hd
    case isTrue special => split at hd <;> cases hd
    case isFalse finite =>
      obtain ⟨rfl, rfl, rfl⟩ := FVal.fin.inj hd
      have leading : 2 ^ g.fw ≤ 2 ^ g.fw + fr := Nat.le_add_right ..
      have lt : 2 ^ g.fw + fr < 2 ^ (g.fw + 1) := by rw [pow_succ]; omega
      have full : bitLen (2 ^ g.fw + fr) = g.fw + 1 :=
        le_antisymm (bitLen_le_iff.2 lt) (not_le.1 fun h => (bitLen_le_iff.1 h).not_ge leading)
      have field : ((ex : Int) - g.bias - g.fw + g.fw + g.bias).toNat = ex := by omega
      refine ⟨⟨lt, by omega, by omega⟩, ?_⟩
      rw [FFmt.finBits, if_neg leading.not_gt, field, Nat.add_sub_cancel_left, sum]

/-- A number that the format holds rounds to its own pattern, in every mode and with no flag (R97, R98). -/
theorem FFmt.round_exact {g : FFmt} (hg : g.Ieee) (mode : RMode) (neg : Bool) {m n : Nat} {e h : Int} (hh : g.Holds n h)
    (hn : n ≠ 0) (heq : (m : ℚ) * 2 ^ e = n * 2 ^ h) : g.round mode neg m e false = .bits (g.finBits neg n h) 0 := by
  obtain ⟨lt, le_maxQ, exponent⟩ := hh
  have hm : m ≠ 0 := ne_zero_of_scaled_eq heq hn
  have grid : max (e + (bitLen m : Int) - (g.fw + 1 : Nat)) (1 - (g.bias : Int) - g.fw) = h := by
    rw [add_bitLen_of_scaled_eq heq hn, exponent]
  have inRange : ¬(g.maxQ < h ∨ h = g.maxQ ∧ g.maxM < n) := by
    have := hg.maxM
    omega
  simp only [FFmt.round, grid, roundTo_exact mode neg heq]
  simp [hm, lt.ne, inRange, FFmt.finBits]

/-- A dyadic that equals the number of a pattern rounds to that pattern with no flag. -/
theorem FFmt.roundDy_exact {g : FFmt} (hg : g.Ieee) (mode : RMode) (zeroNeg : Bool) {d : Dy} {c n : Nat} {u : Bool} {h : Int}
    (hc : c < 2 ^ g.width) (hd : g.decode c = .fin u n h) (hn : n ≠ 0) (heq : (dyOf u n h).val = d.val) :
    g.roundDy mode d zeroNeg = (c, 0) := by
  obtain ⟨holds, bits⟩ := FFmt.decode_fin hg hc hd
  have magnitude : (d.n.natAbs : ℚ) * 2 ^ d.e = n * 2 ^ h := by
    rw [← d.abs_val, ← heq, Dy.abs_val, dyOf_natAbs]
    rfl
  have nonzero : d.n ≠ 0 := by
    rw [Ne, ← Dy.val_eq_zero_iff, ← heq, Dy.val_eq_zero_iff, ← Int.natAbs_eq_zero, dyOf_natAbs]
    exact hn
  have sign : decide (d.n < 0) = u := by
    rw [Bool.eq_iff_iff, decide_eq_true_iff, ← Dy.val_neg_iff, ← heq, Dy.val_neg_iff, dyOf_neg_iff u h hn]
  rw [FFmt.roundDy, if_neg nonzero, sign, FFmt.round_exact hg mode u holds hn magnitude, bits]
  rfl

/-! ### NaN operands (R96) -/

theorem nvOf_one (x : FVal) : nvOf [x] = if x = .nan true then 16 else 0 := by
  simp [nvOf, flagNV]

theorem nvOf_two (x y : FVal) : nvOf [x, y] = if x = .nan true ∨ y = .nan true then 16 else 0 := by
  simp [nvOf, flagNV]

theorem FVal.isNan_iff {x : FVal} : x.isNan ↔ ∃ signalling, x = .nan signalling := by
  cases x <;> simp [FVal.isNan]

theorem FFmt.add_nan (g : FFmt) (mode : RMode) {x y : FVal} (h : x.isNan ∨ y.isNan) : g.add mode x y = (g.nan, nvOf [x, y]) := by
  obtain ⟨s, rfl⟩ | ⟨s, rfl⟩ := h.imp FVal.isNan_iff.1 FVal.isNan_iff.1
  · rfl
  · cases x <;> rfl

theorem FFmt.mul_nan (g : FFmt) (mode : RMode) {x y : FVal} (h : x.isNan ∨ y.isNan) : g.mul mode x y = (g.nan, nvOf [x, y]) := by
  obtain ⟨s, rfl⟩ | ⟨s, rfl⟩ := h.imp FVal.isNan_iff.1 FVal.isNan_iff.1
  · rfl
  · cases x <;> rfl

end Sys2Proof.Machine

open Sys2Proof Machine in
/-- Settles O18: the special operands by the cases of each operation, and an exact sum or product by `FFmt.roundDy_exact`. -/
theorem floatValues : Obligations.FloatValues := by
  unfold Obligations.FloatValues
  intro g hg m a b _ _ x y nv
  have ieee : g.Ieee := by
    rcases hg with rfl | rfl
    · exact fp32_ieee
    · exact bf16_ieee
  refine ⟨fun h => ?nan, fun h => ?nanAlone, fun p q hx hy hpq => ?infMinusInf, fun p q e hx hy => ?zeroTimesInf,
    fun p k e hx hk => ?rcpZero, fun k e hx hk => ?rsqNegative, fun p k e q l f c u n h hx hy hc hd hn => ?exact⟩
  case nan =>
    rw [show nv = nvOf [x, y] from (nvOf_two x y).symm]
    exact ⟨g.add_nan m h, g.mul_nan m h⟩
  case nanAlone =>
    obtain ⟨s, hx⟩ := FVal.isNan_iff.1 h
    rw [← nvOf_one, hx]
    exact ⟨rfl, rfl, rfl⟩
  case infMinusInf => rw [hx, hy]; exact if_neg hpq
  case zeroTimesInf => rw [hx, hy]; exact ⟨rfl, rfl⟩
  case rcpZero => rw [hx, hk]; exact ⟨FFmt.decode_infBits ieee p, rfl⟩
  case rsqNegative => rw [hx]; exact if_neg hk
  case exact =>
    rw [hx, hy, ← dyOf_val, ← dyOf_val, ← dyOf_val, ← Dy.add_val, ← Dy.mul_val]
    exact ⟨FFmt.roundDy_exact ieee m _ hc hd hn, FFmt.roundDy_exact ieee m _ hc hd hn⟩
end

section
/-! The scalar instructions of page 0 (R124 to R134, R228): integers of the model as bit vectors, the endings of an instruction, division,
and where branches and jumps go. -/

namespace Sys2Proof.Machine

open Claim

/-! ### Integers and bit vectors -/

theorem ofInt_toInt_setWidth {n w : Nat} (x : BitVec n) (h : w ≤ n) : BitVec.ofInt w x.toInt = x.setWidth w := by
  refine BitVec.eq_of_toInt_eq ?_
  rw [BitVec.toInt_ofInt, BitVec.toInt_setWidth, BitVec.toInt_eq_toNat_bmod,
    Int.bmod_bmod_of_dvd (by exact_mod_cast Nat.pow_dvd_pow 2 h)]

theorem emod_mul_self_ediv (z : Int) {a : Int} (h : 0 < a) : z % (a * a) / a = z / a % a := by
  rw [Int.emod_def, Int.emod_def, Int.mul_assoc, Int.sub_mul_ediv_left _ _ h.ne', Int.ediv_ediv_of_nonneg h.le]

theorem ofInt_ediv_two_pow (z : Int) (w : Nat) : BitVec.ofInt w (z / 2 ^ w) = (BitVec.ofInt (2 * w) z).extractLsb' w w := by
  have hw : (0 : Int) < 2 ^ w := by positivity
  have e : (2 : Int) ^ (2 * w) = 2 ^ w * 2 ^ w := by rw [Nat.two_mul, pow_add]
  refine BitVec.eq_of_toNat_eq (Int.ofNat_inj.1 ?_)
  rw [BitVec.extractLsb'_toNat, BitVec.toNat_ofInt, BitVec.toNat_ofInt, Nat.shiftRight_eq_div_pow]
  push_cast
  rw [Int.toNat_of_nonneg (Int.emod_nonneg _ hw.ne'), Int.toNat_of_nonneg (Int.emod_nonneg _ (by positivity)), e,
    emod_mul_self_ediv _ hw, Int.emod_emod]

theorem ofInt_mulh {w : Nat} (x y : BitVec w) : BitVec.ofInt w ((x.toInt * y.toInt).fdiv (2 ^ w)) =
    (x.signExtend (2 * w) * y.signExtend (2 * w)).extractLsb' w w := by
  rw [Int.fdiv_eq_ediv_of_nonneg _ (by positivity), ofInt_ediv_two_pow, BitVec.ofInt_mul]
  rfl

theorem ofNat_mulhu {w : Nat} (x y : BitVec w) : BitVec.ofNat w (x.toNat * y.toNat / 2 ^ w) =
    (x.setWidth (2 * w) * y.setWidth (2 * w)).extractLsb' w w := by
  have hx : x.toNat < 2 ^ (2 * w) := x.isLt.trans_le (Nat.pow_le_pow_right (by omega) (by omega))
  have hy : y.toNat < 2 ^ (2 * w) := y.isLt.trans_le (Nat.pow_le_pow_right (by omega) (by omega))
  have h : x.toNat * y.toNat < 2 ^ (2 * w) := by
    rw [Nat.two_mul, pow_add]; exact Nat.mul_lt_mul'' x.isLt y.isLt
  refine BitVec.eq_of_toNat_eq ?_
  rw [BitVec.extractLsb'_toNat, BitVec.toNat_mul, BitVec.toNat_setWidth_of_le (by omega), BitVec.toNat_setWidth_of_le (by omega),
    Nat.mod_eq_of_lt h, Nat.shiftRight_eq_div_pow, BitVec.toNat_ofNat]

theorem ofInt_fdiv_two_pow {w : Nat} (x : BitVec w) (k : Nat) : BitVec.ofInt w (x.toInt.fdiv (2 ^ k)) = x.sshiftRight k := by
  rw [BitVec.sshiftRight_eq, Int.shiftRight_eq_div_pow, Int.fdiv_eq_ediv_of_nonneg _ (by positivity)]
  push_cast
  rfl

theorem ofNat_mul_two_pow {w : Nat} (x : BitVec w) (k : Nat) : BitVec.ofNat w (x.toNat * 2 ^ k) = x <<< k := by
  refine BitVec.eq_of_toNat_eq ?_
  rw [BitVec.toNat_ofNat, BitVec.toNat_shiftLeft, Nat.shiftLeft_eq]

theorem ofNat_div_two_pow {w : Nat} (x : BitVec w) (k : Nat) : BitVec.ofNat w (x.toNat / 2 ^ k) = x >>> k := by
  refine BitVec.eq_of_toNat_eq ?_
  rw [BitVec.toNat_ofNat, BitVec.toNat_ushiftRight, Nat.shiftRight_eq_div_pow,
    Nat.mod_eq_of_lt ((Nat.div_le_self _ _).trans_lt x.isLt)]

theorem ofNat_rotlW {w : Nat} (x : BitVec w) {k : Nat} (hk : k < w) : BitVec.ofNat w (rotlW x.toNat w k) = x.rotateLeft k := by
  have e : 2 ^ w = 2 ^ k * 2 ^ (w - k) := by rw [← pow_add]; congr 1; omega
  have hhigh : x.toNat / 2 ^ (w - k) < 2 ^ k := Nat.div_lt_of_lt_mul (by rw [Nat.mul_comm, ← e]; exact x.isLt)
  have hlow : x.toNat * 2 ^ k % 2 ^ w = 2 ^ k * (x.toNat % 2 ^ (w - k)) := by
    rw [e, Nat.mul_comm x.toNat, Nat.mul_mod_mul_left]
  have hr : rotlW x.toNat w k = (x.rotateLeft k).toNat := by
    rw [BitVec.toNat_rotateLeft, Nat.mod_eq_of_lt hk, Nat.shiftLeft_eq, Nat.shiftRight_eq_div_pow, rotlW, hlow,
      Nat.two_pow_add_eq_or_of_lt hhigh]
  rw [hr, BitVec.ofNat_toNat, BitVec.setWidth_eq]

theorem ofInt_min {w : Nat} (x y : BitVec w) :
    BitVec.ofInt w (if x.toInt ≤ y.toInt then x.toInt else y.toInt) = if x.slt y then x else y := by
  rcases lt_trichotomy x.toInt y.toInt with h | h | h
  · simp [BitVec.slt_iff_toInt_lt, h, h.le]
  · simp [BitVec.toInt_inj.1 h]
  · simp [BitVec.slt_iff_toInt_lt, h.not_gt, h.not_ge]

theorem ofInt_max {w : Nat} (x y : BitVec w) :
    BitVec.ofInt w (if x.toInt ≤ y.toInt then y.toInt else x.toInt) = if x.slt y then y else x := by
  rcases lt_trichotomy x.toInt y.toInt with h | h | h
  · simp [BitVec.slt_iff_toInt_lt, h, h.le]
  · simp [BitVec.toInt_inj.1 h]
  · simp [BitVec.slt_iff_toInt_lt, h.not_gt, h.not_ge]

theorem ofNat_min {w : Nat} (x y : BitVec w) :
    BitVec.ofNat w (if x.toNat ≤ y.toNat then x.toNat else y.toNat) = if x.ult y then x else y := by
  rcases lt_trichotomy x.toNat y.toNat with h | h | h
  · simp [BitVec.ult_iff_lt, BitVec.lt_def, h, h.le]
  · simp [BitVec.toNat_inj.1 h]
  · simp [BitVec.ult_iff_lt, BitVec.lt_def, h.not_gt, h.not_ge]

theorem ofNat_max {w : Nat} (x y : BitVec w) :
    BitVec.ofNat w (if x.toNat ≤ y.toNat then y.toNat else x.toNat) = if x.ult y then y else x := by
  rcases lt_trichotomy x.toNat y.toNat with h | h | h
  · simp [BitVec.ult_iff_lt, BitVec.lt_def, h, h.le]
  · simp [BitVec.toNat_inj.1 h]
  · simp [BitVec.ult_iff_lt, BitVec.lt_def, h.not_gt, h.not_ge]

theorem getLsbD_of_bitLen_le {w i : Nat} {x : BitVec w} (h : bitLen x.toNat ≤ i) : x.getLsbD i = false :=
  Nat.testBit_lt_two_pow (bitLen_le_iff.1 h)

theorem getLsbD_bitLen_pred {w : Nat} {x : BitVec w} (h : 0 < bitLen x.toNat) : x.getLsbD (bitLen x.toNat - 1) = true := by
  have h0 : x.toNat ≠ 0 := fun e => by simp [bitLen, e] at h
  rw [bitLen, if_neg h0]
  exact Nat.testBit_log2 h0

theorem countP_range_eq_card (p : Nat → Bool) (w : Nat) :
    (List.range w).countP p = (Finset.univ.filter fun i : Fin w => p i.val = true).card := by
  rw [← Finset.card_map Fin.valEmbedding, List.countP_eq_length_filter]
  have h : (Finset.univ.filter fun i : Fin w => p i.val = true).map Fin.valEmbedding = (Finset.range w).filter fun i => p i = true := by
    ext i
    simp only [Finset.mem_map, Finset.mem_filter, Finset.mem_univ, true_and, Fin.valEmbedding_apply, Finset.mem_range]
    exact ⟨fun ⟨j, hj, e⟩ => e ▸ ⟨j.isLt, hj⟩, fun ⟨hi, hp⟩ => ⟨⟨i, hi⟩, hp, rfl⟩⟩
  rw [h, Finset.card_def, Finset.filter_val, Finset.range_val, Multiset.range, Multiset.filter_coe, Multiset.coe_card]
  congr 2
  funext i
  exact Bool.decide_eq_true.symm

/-! ### Endings -/

theorem putX_completes (s : State) (d : XReg) {w v : Word} (h : w = v) :
    Completes (.next (putX s d w)) fun t => WritesX s t d v := ⟨_, rfl, h ▸ putX_writes s d w⟩

theorem signedOp_completes {s : State} {d l r : XReg} {sz : Size} {f : Int → Int → Int} {v : BitVec (Size.bits sz)}
    (h : BitVec.ofInt (Size.bits sz) (f (low sz (s.getX l)).toInt (low sz (s.getX r)).toInt) = v) :
    Completes (signedOp f d l r sz s) fun t => WritesX s t d (widen sz v) :=
  putX_completes s d (congrArg (widen sz) h)

theorem unsignedOp_completes {s : State} {d l r : XReg} {sz : Size} {f : Nat → Nat → Nat} {v : BitVec (Size.bits sz)}
    (h : BitVec.ofNat (Size.bits sz) (f (low sz (s.getX l)).toNat (low sz (s.getX r)).toNat) = v) :
    Completes (unsignedOp f d l r sz s) fun t => WritesX s t d (widen sz v) :=
  putX_completes s d (congrArg (widen sz) ((BitVec.ofInt_natCast _ _).trans h))

theorem immBelow_traps {s : State} {imm : Word} {n : Nat} (h : n ≤ imm.toNat) (f : Nat → Act State) :
    Traps (finish s (immBelow s imm n >>= f)) s .illegal none (some s.cx.chain) := by
  rw [immBelow, if_neg (by omega)]
  exact finish_trap s .illegal none (some s.cx.chain)

theorem immBelow_finishes {s : State} {imm : Word} {n : Nat} (h : imm.toNat < n) (f : Nat → Act State) :
    finish s (immBelow s imm n >>= f) = finish s (f imm.toNat) := by
  rw [immBelow, if_pos h]; rfl

theorem immBelow_completes {s : State} {imm : Word} {n : Nat} (h : imm.toNat < n) {f : Nat → State} {p : State → Prop}
    (hp : p (f imm.toNat)) : Completes (finish s (immBelow s imm n >>= fun k => .ok (f k))) p :=
  ⟨_, immBelow_finishes h _, hp⟩

theorem Size.bits_le (sz : Size) : Size.bits sz ≤ 64 := by cases sz <;> decide
theorem Size.bits_pos (sz : Size) : 0 < Size.bits sz := by cases sz <;> decide

theorem advance_onlyPc (s : State) : OnlyPc s s.advance s.cx.npc := rfl

theorem widen_ofInt_neg_one (sz : Size) : widen sz (BitVec.ofInt _ (-1)) = BitVec.allOnes 64 := by cases sz <;> rfl
theorem widen_zero (sz : Size) : widen sz 0 = 0 := by cases sz <;> rfl

/-! ### Division (R126) -/

section
variable {w : Nat} {a b : Int}

theorem divRem_zero (signed : Bool) (a : Int) : divRem w signed a 0 = (-1, a) := rfl

theorem divRem_corner (ha : a = -(2 ^ (w - 1))) (hb : b = -1) : divRem w true a b = (a, 0) := by
  rw [divRem, hb, if_neg (by decide), if_pos (by simp [ha])]

theorem divRem_signed (hb : b ≠ 0) (h : ¬(a = -(2 ^ (w - 1)) ∧ b = -1)) : divRem w true a b = (a.tdiv b, a.tmod b) := by
  have hn : ¬((true && decide (a = -(2 ^ (w - 1))) && decide (b = -1)) = true) := by simpa using h
  rw [divRem, if_neg hb, if_neg hn, Int.tmod_def, Int.mul_comm]

theorem divRem_unsigned {m n : Nat} (hn : n ≠ 0) : divRem w false (m : Int) n = (((m / n : Nat) : Int), ((m % n : Nat) : Int)) := by
  rw [divRem, if_neg (by omega), if_neg (by simp), ← Int.ofNat_tdiv, Nat.mod_eq_sub_div_mul, Nat.cast_sub (Nat.div_mul_le_self m n),
    Nat.cast_mul]

section
variable {s : State} {d l r : XReg} {sz : Size} {q : Int}

theorem div_completes (h : (divRem (Size.bits sz) true (low sz (s.getX l)).toInt (low sz (s.getX r)).toInt).1 = q) :
    Completes (exec (.div d l r sz) s) fun t => WritesX s t d (widen sz (BitVec.ofInt _ q)) := by
  show Completes (execDiv d l r sz s) _
  exact signedOp_completes (congrArg _ h)

theorem rem_completes (h : (divRem (Size.bits sz) true (low sz (s.getX l)).toInt (low sz (s.getX r)).toInt).2 = q) :
    Completes (exec (.rem d l r sz) s) fun t => WritesX s t d (widen sz (BitVec.ofInt _ q)) := by
  show Completes (execRem d l r sz s) _
  exact signedOp_completes (congrArg _ h)

theorem divu_completes (h : (divRem (Size.bits sz) false (low sz (s.getX l)).toNat (low sz (s.getX r)).toNat).1 = q) :
    Completes (exec (.divu d l r sz) s) fun t => WritesX s t d (widen sz (BitVec.ofInt _ q)) :=
  putX_completes s d (congrArg (fun z => widen sz (BitVec.ofInt _ z)) h)

theorem remu_completes (h : (divRem (Size.bits sz) false (low sz (s.getX l)).toNat (low sz (s.getX r)).toNat).2 = q) :
    Completes (exec (.remu d l r sz) s) fun t => WritesX s t d (widen sz (BitVec.ofInt _ q)) :=
  putX_completes s d (congrArg (fun z => widen sz (BitVec.ofInt _ z)) h)

end

theorem tmod_natAbs_lt (hb : b ≠ 0) : (a.tmod b).natAbs < b.natAbs := by
  rw [Int.natAbs_tmod]
  exact Nat.mod_lt _ (Int.natAbs_pos.2 hb)

theorem tmod_nonpos (ha : a ≤ 0) : a.tmod b ≤ 0 := by
  have := Int.tmod_nonneg b (Int.neg_nonneg.2 ha)
  rw [Int.neg_tmod] at this
  omega

end

/-! ### Branches and jumps (R130, R131, R133, R411) -/

theorem State.foldSig_cur (s : State) (h : Word) : s.foldSig s.cur h = s.onCx fun k => { k with sig := rotl64 k.sig 13 ^^^ h } := by
  rw [State.foldSig, State.updCtx, if_pos rfl]

theorem branchIf_goes (s : State) (disp : Word) {p taken : Bool} (h : p = taken) :
    Completes (branchIf s p disp) fun t => t = { s with cx := { s.cx with
      pc := if taken then s.cx.pc + 2 * disp else s.cx.npc
      sig := rotl64 s.cx.sig 13 ^^^ (s.cx.pc ||| (if taken then 1 else 0)) } } := by
  subst h
  refine ⟨_, rfl, ?_⟩
  rw [State.foldSig_cur]
  cases p <;> rfl

theorem low_eq_zero_iff (m : Word) (n : Nat) : m.toNat % 2 ^ n = 0 ↔ ∀ i < n, m.getLsbD i = false := by
  refine ⟨fun h i hi => ?_, fun h => Nat.eq_of_testBit_eq fun i => ?_⟩
  · have := Nat.testBit_mod_two_pow m.toNat n i
    rw [h] at this
    simpa [hi, ← BitVec.testBit_toNat] using this.symm
  · rw [Nat.testBit_mod_two_pow, Nat.zero_testBit]
    by_cases hi : i < n
    · simpa [hi, ← BitVec.testBit_toNat] using h i hi
    · simp [hi]

theorem low_eq_ones_iff (m : Word) (n : Nat) : m.toNat % 2 ^ n = 2 ^ n - 1 ↔ ∀ i < n, m.getLsbD i = true := by
  refine ⟨fun h i hi => ?_, fun h => Nat.eq_of_testBit_eq fun i => ?_⟩
  · have := Nat.testBit_mod_two_pow m.toNat n i
    rw [h, Nat.testBit_two_pow_sub_one] at this
    simpa [hi, ← BitVec.testBit_toNat] using this.symm
  · rw [Nat.testBit_mod_two_pow, Nat.testBit_two_pow_sub_one]
    by_cases hi : i < n
    · simpa [hi, ← BitVec.testBit_toNat] using h i hi
    · simp [hi]

theorem jumpTo_goes {s : State} {dest : Word} (h : dest.getLsbD 0 = false) (link : Bool) :
    jumpTo s dest link = .next ((if link then (s.foldSig s.cur (s.cx.pc ^^^ rotl64 dest 32)).setX 31 s.cx.npc
      else s.foldSig s.cur (s.cx.pc ^^^ rotl64 dest 32)).setPc dest) := by
  rw [jumpTo, h]; rfl

theorem jumpTo_traps {s : State} {dest : Word} (h : dest.getLsbD 0 = true) (link : Bool) :
    Traps (jumpTo s dest link) s .align (some dest) none := by
  rw [jumpTo, h]; exact finish_trap s .align (some dest) none

/-- What CALL and CALLR leave: x31 holds the address of the next instruction, and the context goes on at `dest` (R131). -/
theorem setX31_links (s : State) (dest : Word) : let t := (s.setX 31 s.cx.npc).setPc dest
    t.getX 31 = s.cx.npc ∧ t.cx.pc = dest ∧ (∀ q, q ≠ 31 → t.getX q = s.getX q) ∧
    t = { s with cx := { s.cx with x := t.cx.x, pend := t.cx.pend, pc := t.cx.pc, known := t.cx.known, late := t.cx.late } } := by
  have h (q : XReg) : ((s.setX 31 s.cx.npc).setPc dest).getX q = if q = 31 ∧ (31 : XReg) ≠ 0 then s.cx.npc else s.getX q :=
    Ctx.getX_setX s.cx 31 q s.cx.npc
  exact ⟨(h 31).trans (if_pos ⟨rfl, by decide⟩), rfl, fun q hq => (h q).trans (if_neg fun e => hq e.1), rfl⟩

end Sys2Proof.Machine

open Sys2Proof Sys2Proof.Machine Sys2Proof.Claim

/-- Settles O2: sums and products of integers are those of bit vectors, and the upper half is a quotient by 2^w. -/
theorem sumsAndProducts : Obligations.SumsAndProducts := by
  unfold Obligations.SumsAndProducts
  refine ⟨fun s d l r sz imm => ⟨?add, ?sub, ?mul, ?addi⟩, fun s d l r sz => ⟨?mulh, ?mulhu⟩⟩
  case add =>
    show Completes (execAdd d l r sz s) _
    exact signedOp_completes (by rw [BitVec.ofInt_add, BitVec.ofInt_toInt, BitVec.ofInt_toInt])
  case sub =>
    show Completes (execSub d l r sz s) _
    exact signedOp_completes (by
      rw [Int.sub_eq_add_neg, BitVec.ofInt_add, BitVec.ofInt_neg, BitVec.ofInt_toInt, BitVec.ofInt_toInt, BitVec.sub_eq_add_neg])
  case mul =>
    show Completes (execMul d l r sz s) _
    exact signedOp_completes (by rw [BitVec.ofInt_mul, BitVec.ofInt_toInt, BitVec.ofInt_toInt])
  case addi =>
    refine putX_completes s d (congrArg (widen sz) ?_)
    rw [BitVec.ofInt_add, sval, BitVec.ofInt_toInt, ofInt_toInt_setWidth imm (Size.bits_le sz)]
    rfl
  case mulh =>
    show Completes (execMulh d l r sz s) _
    exact signedOp_completes (ofInt_mulh _ _)
  case mulhu =>
    show Completes (execMulhu d l r sz s) _
    exact unsignedOp_completes (ofNat_mulhu _ _)

/-- Settles O1, by the rules for the endings of an instruction that writes a register. -/
theorem movesAndLogic : Obligations.MovesAndLogic := by
  unfold Obligations.MovesAndLogic
  refine ⟨fun s d l r imm => ⟨⟨_, rfl, advance_onlyPc s⟩, putX_completes s d rfl, putX_completes s d rfl, putX_completes s d ?lih,
    putX_completes s d rfl, putX_completes s d rfl, putX_completes s d rfl, putX_completes s d rfl, putX_completes s d rfl,
    putX_completes s d ?sel⟩, fun s d m => ⟨putX_completes s d rfl, ⟨_, rfl, putM_writes_quiet s m (s.getX d)⟩, putX_completes s d ?time⟩⟩
  case lih =>
    rw [BitVec.append_def, BitVec.shiftLeftZeroExtend_eq, BitVec.setWidth'_eq]
  case sel => by_cases h : s.getX d = 0 <;> simp [h]
  case time => exact BitVec.eq_of_toNat_eq (by simp)

/-- Settles O3, by the cases of the model's division: a zero divisor, the most negative number by −1, and the truncated quotient. -/
theorem division : Obligations.Division := by
  unfold Obligations.Division
  intro s d l r sz w a b
  refine ⟨fun hb => ?zero, fun ha hb => ?corner, fun hb h => ?signed, fun hb => ?unsigned⟩
  case zero =>
    have hi : b.toInt = 0 := by rw [hb]; exact BitVec.toInt_zero
    have hn : b.toNat = 0 := by rw [hb]; exact BitVec.toNat_zero
    have ha : widen sz (BitVec.ofInt w (a.toNat : Int)) = widen sz a := by
      rw [BitVec.ofInt_natCast, BitVec.ofNat_toNat, BitVec.setWidth_eq]
    rw [← widen_ofInt_neg_one sz]
    refine ⟨div_completes ?_, divu_completes ?_, ?_, ?_⟩
    · rw [show (low sz (s.getX r)).toInt = 0 from hi, divRem_zero]
    · rw [show (low sz (s.getX r)).toNat = 0 from hn, Nat.cast_zero, divRem_zero]
    · rw [← BitVec.ofInt_toInt (x := a)]
      exact rem_completes (by rw [show (low sz (s.getX r)).toInt = 0 from hi, divRem_zero])
    · rw [← ha]
      exact remu_completes (by rw [show (low sz (s.getX r)).toNat = 0 from hn, Nat.cast_zero, divRem_zero])
  case corner =>
    have e : divRem w true a.toInt b.toInt = (a.toInt, 0) := divRem_corner ha hb
    refine ⟨?_, ?_⟩
    · rw [← BitVec.ofInt_toInt (x := a)]
      exact div_completes (congrArg Prod.fst e)
    · rw [← widen_zero sz]
      exact rem_completes (congrArg Prod.snd e)
  case signed =>
    have hi : b.toInt ≠ 0 := fun e => hb (BitVec.toInt_inj.1 (e.trans BitVec.toInt_zero.symm))
    have e : divRem w true a.toInt b.toInt = (a.toInt.tdiv b.toInt, a.toInt.tmod b.toInt) := divRem_signed hi h
    exact ⟨a.toInt.tdiv b.toInt, a.toInt.tmod b.toInt, (Int.tdiv_mul_add_tmod _ _).symm, tmod_natAbs_lt hi,
      fun ha => Int.tmod_nonneg _ ha, tmod_nonpos, div_completes (congrArg Prod.fst e), rem_completes (congrArg Prod.snd e)⟩
  case unsigned =>
    have hn : b.toNat ≠ 0 := fun e => hb (BitVec.toNat_inj.1 (e.trans BitVec.toNat_zero.symm))
    have e : divRem w false a.toNat b.toNat = (((a.toNat / b.toNat : Nat) : Int), ((a.toNat % b.toNat : Nat) : Int)) := divRem_unsigned hn
    refine ⟨a.toNat / b.toNat, a.toNat % b.toNat, (Nat.div_add_mod' _ _).symm, Nat.mod_lt _ (by omega), ?_, ?_⟩
    · rw [← BitVec.ofInt_natCast]
      exact divu_completes (congrArg Prod.fst e)
    · rw [← BitVec.ofInt_natCast]
      exact remu_completes (congrArg Prod.snd e)

/-- Settles O4: multiples and quotients by powers of two are shifts, and an immediate amount is checked first. -/
theorem shifts : Obligations.Shifts := by
  unfold Obligations.Shifts
  intro s d l r sz imm w n k
  have hn : n < w := Nat.mod_lt _ (Size.bits_pos sz)
  have shift {f : Nat → Word} {v : BitVec w} (hk : k < w) (h : f k = widen sz v) :
      Completes (shiftImm s d sz imm f) fun t => WritesX s t d (widen sz v) := by
    exact immBelow_completes hk (h ▸ putX_writes s d (f k))
  refine ⟨?shl, ?shr, ?sra, ?rotl, fun hk => ⟨?shli, ?shri, ?srai⟩, fun hk => ⟨immBelow_traps hk _, immBelow_traps hk _, immBelow_traps hk _⟩⟩
  case shl =>
    show Completes (execShl d l r sz s) _
    exact unsignedOp_completes (ofNat_mul_two_pow _ n)
  case shr =>
    show Completes (execShr d l r sz s) _
    exact unsignedOp_completes (ofNat_div_two_pow _ n)
  case sra => exact putX_completes s d (congrArg (widen sz) (ofInt_fdiv_two_pow (low sz (s.getX l)) n))
  case rotl =>
    show Completes (execRotl d l r sz s) _
    exact unsignedOp_completes (ofNat_rotlW _ hn)
  case shli => exact shift hk (congrArg (widen sz) ((BitVec.ofInt_natCast _ _).trans (ofNat_mul_two_pow (low sz (s.getX d)) k)))
  case shri => exact shift hk (congrArg (widen sz) ((BitVec.ofInt_natCast _ _).trans (ofNat_div_two_pow (low sz (s.getX d)) k)))
  case srai => exact shift hk (congrArg (widen sz) (ofInt_fdiv_two_pow (low sz (s.getX d)) k))

/-- Settles O5: an order of integers is that of bit vectors, and the length of a number tells its leading zeros. -/
theorem comparesAndCounts : Obligations.ComparesAndCounts := by
  unfold Obligations.ComparesAndCounts
  refine ⟨fun s d l r sz imm => ?_, fun s d l sz => ⟨?clz, putX_completes s d ?popc⟩⟩
  · intro a b
    have flag_eq (p : Bool) : bool01 p = flag (p = true) := rfl
    refine ⟨?min, ?max, ?minu, ?maxu, ?seq, ?slt, ?sltu, ?slti⟩
    case min =>
      show Completes (execMin d l r sz s) _
      exact signedOp_completes (ofInt_min _ _)
    case max =>
      show Completes (execMax d l r sz s) _
      exact signedOp_completes (ofInt_max _ _)
    case minu =>
      show Completes (execMinu d l r sz s) _
      exact unsignedOp_completes (ofNat_min _ _)
    case maxu =>
      show Completes (execMaxu d l r sz s) _
      exact unsignedOp_completes (ofNat_max _ _)
    case seq =>
      refine putX_completes s d ?_
      simp [bool01, flag, ← BitVec.toNat_inj, uval, a, b, low]
    case slt => exact putX_completes s d rfl
    case sltu => exact putX_completes s d rfl
    case slti =>
      refine putX_completes s d ?_
      simp [bool01, flag, sval, low]
  case clz =>
    have hlow : (s.getX l).toNat % 2 ^ Size.bits sz = (low sz (s.getX l)).toNat := (BitVec.toNat_setWidth _ _).symm
    have hlen : bitLen (low sz (s.getX l)).toNat ≤ Size.bits sz := bitLen_le_iff.2 (low sz (s.getX l)).isLt
    refine ⟨clzW (s.getX l).toNat (Size.bits sz), ?_⟩
    rw [clzW, hlow]
    refine ⟨by omega, fun i hi => getLsbD_of_bitLen_le (by omega), fun h => ?_, putX_completes s d (by rw [clzW, hlow])⟩
    rw [show Size.bits sz - 1 - (Size.bits sz - bitLen (low sz (s.getX l)).toNat) = bitLen (low sz (s.getX l)).toNat - 1 by omega]
    exact getLsbD_bitLen_pred (by omega)
  case popc =>
    refine congrArg (BitVec.ofNat 64) ((countP_range_eq_card _ _).trans (congrArg Finset.card (Finset.filter_congr fun i _ => ?_)))
    rw [low, BitVec.getLsbD_setWidth, decide_eq_true i.isLt, Bool.true_and]

/-- Settles O7, by the rule for a branch and the decision of each. -/
theorem branches : Obligations.Branches := by
  unfold Obligations.Branches
  intro s a m sz disp target goes bits
  refine ⟨⟨_, rfl, rfl⟩, ?bz, ?bnz, branchIf_goes s disp rfl, branchIf_goes s disp rfl, branchIf_goes s disp ?bany,
    branchIf_goes s disp ?bnone, branchIf_goes s disp ?ball⟩
  case bz => exact branchIf_goes s disp rfl
  case bnz => exact branchIf_goes s disp (by simp [bne, BEq.beq])
  case bany =>
    rw [Bool.eq_iff_iff, bne_iff_ne, ne_eq, maskLow, low_eq_zero_iff]
    simp [bits, VSize.lanes]
  case bnone =>
    rw [Bool.eq_iff_iff, beq_iff_eq, maskLow, low_eq_zero_iff]
    simp [bits, VSize.lanes]
  case ball =>
    rw [Bool.eq_iff_iff, beq_iff_eq, maskLow, low_eq_ones_iff]
    simp [bits, VSize.lanes]

/-- Settles O8, by the rules for a jump to an even and to an odd target. -/
theorem callsAndJumps : Obligations.CallsAndJumps := by
  unfold Obligations.CallsAndJumps
  intro s a disp
  refine ⟨⟨_, rfl, setX31_links s _⟩, fun h => ⟨⟨_, jumpTo_goes h true, ?callr⟩, _, jumpTo_goes h false, ?jr⟩,
    fun h => ⟨jumpTo_traps h true, jumpTo_traps h false⟩⟩
  case callr =>
    rw [State.foldSig_cur]
    exact setX31_links (s.onCx fun k => { k with sig := rotl64 k.sig 13 ^^^ (s.cx.pc ^^^ rotl64 (s.getX a) 32) }) (s.getX a)
  case jr =>
    rw [State.foldSig_cur]
    exact ⟨rfl, rfl⟩

end

section
/-! Lanes and masks (R71, R72, R135): what the writes of single lanes and bits leave, and the endings of the instructions that
write them. -/

namespace Sys2Proof.Machine

open Claim

/-! ### One lane -/

theorem getLsbD_setLane (v : Vec) (w i x : Nat) {k : Nat} (hk : k < 512) : (setLane v w i x).getLsbD k =
    if w * i ≤ k ∧ k < w * i + w then x.testBit (k - w * i) else v.getLsbD k := by
  rw [setLane]
  simp only [BitVec.getLsbD_or, BitVec.getLsbD_and, BitVec.getLsbD_not, BitVec.getLsbD_shiftLeft, BitVec.getLsbD_ofNat,
    Nat.testBit_two_pow_sub_one, Nat.testBit_mod_two_pow]
  by_cases hlo : w * i ≤ k
  · by_cases hhi : k < w * i + w
    · have h1 : k - w * i < w := by omega
      have h2 : k - w * i < 512 := by omega
      simp [hk, hlo, hhi, h1, h2, Nat.not_lt.2 hlo]
    · have h1 : ¬k - w * i < w := by omega
      simp [hk, hhi, h1]
  · simp [hk, hlo, Nat.lt_of_not_le hlo]

theorem lane_fits {w i : Nat} (h : i < 512 / w) : w * i + w ≤ 512 := by
  calc w * i + w = w * (i + 1) := (Nat.mul_succ w i).symm
    _ ≤ w * (512 / w) := Nat.mul_le_mul_left w h
    _ ≤ 512 := Nat.mul_div_le 512 w

theorem lane_apart {w i j b : Nat} (hb : b < w) : (w * i ≤ w * j + b ∧ w * j + b < w * i + w) ↔ j = i := by
  constructor
  · rintro ⟨h1, h2⟩
    have hi : i < j + 1 := Nat.lt_of_mul_lt_mul_left (a := w) (by rw [Nat.mul_succ]; omega)
    have hj : j < i + 1 := Nat.lt_of_mul_lt_mul_left (a := w) (by rw [Nat.mul_succ]; omega)
    omega
  · rintro rfl
    omega

/-- A lane after a write to any. -/
theorem extractLsb'_setLane (v : Vec) {w i j : Nat} (x : Nat) (hj : j < 512 / w) :
    (setLane v w i x).extractLsb' (w * j) w = if j = i then BitVec.ofNat w x else v.extractLsb' (w * j) w := by
  have hf := lane_fits hj
  refine BitVec.eq_of_getLsbD_eq fun b hb => ?_
  rw [BitVec.getLsbD_extractLsb', decide_eq_true hb, Bool.true_and, getLsbD_setLane v w i x (by omega)]
  simp only [lane_apart hb]
  split
  · subst_vars
    rw [Nat.add_sub_cancel_left, BitVec.getLsbD_ofNat, decide_eq_true hb, Bool.true_and]
  · rw [BitVec.getLsbD_extractLsb', decide_eq_true hb, Bool.true_and]

theorem lane_setLane (v : Vec) {w i j x : Nat} (hx : x < 2 ^ w) (hj : j < 512 / w) :
    lane (setLane v w i x) w j = if j = i then x else lane v w j := by
  rw [lane, extractLsb'_setLane v x hj]
  split
  · exact Nat.mod_eq_of_lt hx
  · rfl

@[simp] theorem ofNat_lane (v : Vec) (w i : Nat) : BitVec.ofNat w (lane v w i) = v.extractLsb' (w * i) w := by
  rw [lane, BitVec.ofNat_toNat, BitVec.setWidth_eq]

@[simp] theorem ofNat_pat (z : Int) (w : Nat) : BitVec.ofNat w (pat z w) = BitVec.ofInt w z := by
  rw [pat, BitVec.ofNat_toNat, BitVec.setWidth_eq]

/-! ### The lanes of a register -/

/-- The lanes that a fold has written, each with its own value. -/
theorem foldl_lanes (w : Nat) (f : Nat → Nat) {j : Nat} (hj : j < 512 / w) : ∀ (ls : List Nat) (v : Vec),
    (ls.foldl (fun v i => setLane v w i (f i)) v).extractLsb' (w * j) w =
      if j ∈ ls then BitVec.ofNat w (f j) else v.extractLsb' (w * j) w
  | [], _ => rfl
  | i :: ls, v => by
    rw [List.foldl_cons, foldl_lanes w f hj ls, extractLsb'_setLane _ _ hj]
    by_cases h : j ∈ ls
    · rw [if_pos h, if_pos (List.mem_cons_of_mem i h)]
    · by_cases e : j = i
      · rw [if_neg h, if_pos e, if_pos (e ▸ List.mem_cons_self), e]
      · rw [if_neg h, if_neg e, if_neg (by simp [e, h])]

/-- A fold over a register and the flags beside it. -/
theorem foldl_beside (put : Vec → Nat → Vec) (fl : Nat → Nat) : ∀ (ls : List Nat) (a : Vec × Nat),
    ls.foldl (fun a i => (put a.1 i, a.2 ||| fl i)) a = (ls.foldl put a.1, ls.foldl (fun a i => a ||| fl i) a.2)
  | [], _ => rfl
  | i :: ls, a => by rw [List.foldl_cons, foldl_beside put fl ls, List.foldl_cons, List.foldl_cons]

theorem foldl_setLane (w : Nat) (f : Nat → Nat × Nat) {j : Nat} (hj : j < 512 / w) (ls : List Nat) (a : Vec × Nat) :
    (ls.foldl (fun a i => (setLane a.1 w i (f i).1, a.2 ||| (f i).2)) a).1.extractLsb' (w * j) w =
      if j ∈ ls then BitVec.ofNat w (f j).1 else a.1.extractLsb' (w * j) w := by
  rw [foldl_beside (fun v i => setLane v w i (f i).1) fun i => (f i).2]
  exact foldl_lanes w (fun i => (f i).1) hj ls a.1

/-- The flags that instructions count as numbers, and as FSTAT gains them (R135). -/
theorem ofNat_foldl_or (fl : Nat → Nat) : ∀ (ls : List Nat) (a : Nat),
    BitVec.ofNat 64 (ls.foldl (fun a i => a ||| fl i) a) = ls.foldl (fun a i => a ||| BitVec.ofNat 64 (fl i)) (BitVec.ofNat 64 a)
  | [], _ => rfl
  | i :: ls, a => by rw [List.foldl_cons, List.foldl_cons, ofNat_foldl_or fl ls, BitVec.ofNat_or]

theorem foldl_or_lt {fl : Nat → Nat} (hf : ∀ i, fl i < 64) : ∀ (ls : List Nat) {a : Nat}, a < 64 → ls.foldl (fun a i => a ||| fl i) a < 64
  | [], _, ha => ha
  | i :: ls, _, ha => foldl_or_lt hf ls (Nat.or_lt_two_pow (n := 6) ha (hf i))

theorem raised_eq {fl : Nat → Nat} (hf : ∀ i, fl i < 64) (s : State) (n : Nat) (mk : MReg) :
    BitVec.ofNat 64 ((s.active n mk).foldl (fun a i => a ||| fl i) 0 % 64) = raised s n mk fl := by
  rw [Nat.mod_eq_of_lt (foldl_or_lt hf _ (by decide)), ofNat_foldl_or]
  rfl

theorem raised_zero (s : State) (n : Nat) (mk : MReg) : raised s n mk (fun _ => 0) = 0 := by
  rw [← raised_eq (fun _ => by decide)]
  have h (ls : List Nat) : ls.foldl (fun a _ => a ||| 0) 0 = 0 := by induction ls <;> simp_all
  rw [h]; rfl

theorem foldl_flags (put : Vec → Nat → Vec) (fl : Nat → Nat) (ls : List Nat) (a : Vec × Nat) :
    (ls.foldl (fun a i => (put a.1 i, a.2 ||| fl i)) a).2 = ls.foldl (fun a i => a ||| fl i) a.2 := by
  rw [foldl_beside]

theorem mem_active {s : State} {n i : Nat} {mk : MReg} : i ∈ s.active n mk ↔ i < n ∧ on s mk i = true := by
  rw [State.active, List.mem_filter, List.mem_range]; rfl

/-- The lanes of a register in which the active ones of a size have been written. -/
theorem writeLanes_active (s : State) (old : Vec) (w : Nat) (mk : MReg) (f : Nat → Nat × Nat) {j : Nat} (hj : j < 512 / w) :
    (writeLanes old w (s.active (512 / w) mk) f).1.extractLsb' (w * j) w =
      if on s mk j then BitVec.ofNat w (f j).1 else old.extractLsb' (w * j) w := by
  rw [writeLanes, foldl_setLane w f hj]
  simp only [mem_active, hj, true_and]

/-- The ending of an instruction that writes the active lanes of a vector register. -/
theorem laneOp_writes {s : State} {d : VReg} {sz : VSize} {mk : MReg} {f : Nat → Nat × Nat} {val : Nat → BitVec (VSize.bits sz)}
    {fl : Nat → Nat} (hv : ∀ i, BitVec.ofNat (VSize.bits sz) (f i).1 = val i) (hf : ∀ i, (f i).2 = fl i) (hfl : ∀ i, fl i < 64) :
    WritesLanes s (laneOp s d sz mk f) d sz mk val fl := by
  refine ⟨(writeLanes (s.getV d) (VSize.bits sz) (s.activeOf sz mk) f).1, ?_, fun i hi => ?_⟩
  · rw [← raised_eq hfl, ← funext hf, ← foldl_flags (fun v i => setLane v (VSize.bits sz) i (f i).1) _ _ (s.getV d, 0)]
    exact putV_writes s d _ _
  · rw [← hv]
    exact writeLanes_active s _ _ mk f hi

/-- The same without flags. -/
theorem laneOp_writes_quiet {s : State} {d : VReg} {sz : VSize} {mk : MReg} {f : Nat → Nat} {val : Nat → BitVec (VSize.bits sz)}
    (hv : ∀ i, BitVec.ofNat (VSize.bits sz) (f i) = val i) :
    WritesLanes s (laneOp s d sz mk fun i => (f i, 0)) d sz mk val fun _ => 0 :=
  laneOp_writes hv (fun _ => rfl) fun _ => by decide

/-- The ending of a reduction. -/
theorem putLane0_writes (s : State) (d : VReg) {sz : VSize} {w : Nat} (hw : w = VSize.bits sz) {r : Nat × Nat}
    {val : BitVec (VSize.bits sz)} {fl : Nat} (hv : BitVec.ofNat (VSize.bits sz) r.1 = val) (hf : r.2 = fl) (hfl : fl < 64) :
    WritesLane0 s (putLane0 s d w r) d sz val fl := by
  subst hw
  refine ⟨setLane (s.getV d) (VSize.bits sz) 0 r.1, ?_, fun i hi => ?_⟩
  · rw [← Nat.mod_eq_of_lt hfl, ← hf]
    exact putV_writes s d _ r.2
  · rw [← hv]
    exact extractLsb'_setLane (s.getV d) r.1 hi

/-! ### The bits of a mask -/

theorem foldl_maskBits (f : Nat → Bool) {j : Nat} (hj : j < 64) : ∀ (ls : List Nat) (m : Word),
    (ls.foldl (fun m i => if f i then m ||| BitVec.twoPow 64 i else m &&& ~~~(BitVec.twoPow 64 i)) m).getLsbD j =
      if j ∈ ls then f j else m.getLsbD j
  | [], _ => rfl
  | i :: ls, m => by
    rw [List.foldl_cons, foldl_maskBits f hj ls]
    by_cases h : j ∈ ls
    · rw [if_pos h, if_pos (List.mem_cons_of_mem i h)]
    · rw [if_neg h]
      by_cases e : j = i
      · subst e
        rw [if_pos List.mem_cons_self]
        cases hf : f j <;> simp [hj]
      · rw [if_neg (List.not_mem_cons_of_ne_of_not_mem e h)]
        cases hf : f i <;> simp [hj, e]

theorem maskWrite_getLsbD (s : State) (old : Word) (n : Nat) (mk : MReg) (f : Nat → Bool) {i : Nat} (hi : i < 64) :
    (maskWrite old n (s.active n mk) f).getLsbD i = (decide (i < n) && if on s mk i then f i else old.getLsbD i) := by
  rw [maskWrite, foldl_maskBits f hi]
  simp only [mem_active, BitVec.getLsbD_and, BitVec.getLsbD_ofNat, Nat.testBit_two_pow_sub_one, hi, decide_true, Bool.true_and]
  by_cases h : i < n <;> by_cases ho : on s mk i = true <;> simp [h, ho]

/-- The endings of an instruction that writes the active bits of a mask register, with the flags of its lanes and with none. -/
theorem putM_bits {s : State} {d : MReg} {sz : VSize} {mk : MReg} {f val : Nat → Bool} {fl : Nat → Nat} (hv : ∀ i, f i = val i)
    (hfl : ∀ i, fl i < 64) : WritesBits s ((putM s d (maskWrite (s.getM d) (VSize.lanes sz) (s.activeOf sz mk) f)).flags
      ((s.activeOf sz mk).foldl (fun a i => a ||| fl i) 0)) d (512 / VSize.bits sz) mk val fl := by
  refine ⟨maskWrite (s.getM d) (VSize.lanes sz) (s.activeOf sz mk) f, ?_, fun i hi => ?_⟩
  · rw [← raised_eq hfl]
    exact putM_writes s d _ _
  · rw [← hv]
    exact maskWrite_getLsbD s _ _ mk f hi

theorem putM_bits_quiet {s : State} {d : MReg} {sz : VSize} {mk : MReg} {f val : Nat → Bool} (hv : ∀ i, f i = val i) :
    WritesBits s (putM s d (maskWrite (s.getM d) (VSize.lanes sz) (s.activeOf sz mk) f)) d (512 / VSize.bits sz) mk val fun _ => 0 := by
  refine ⟨maskWrite (s.getM d) (VSize.lanes sz) (s.activeOf sz mk) f, ?_, fun i hi => ?_⟩
  · rw [raised_zero]
    exact putM_writes_quiet s d _
  · rw [← hv]
    exact maskWrite_getLsbD s _ _ mk f hi

/-! ### Wrapped and clamped integers (R93, R123) -/

theorem clampS_fst (z : Int) (w : Nat) : (clampS z w).1 = max (-(2 ^ (w - 1))) (min (2 ^ (w - 1) - 1) z) := by
  have h : (0 : Int) < 2 ^ (w - 1) := by positivity
  simp only [clampS]
  split
  · simp only; omega
  · split <;> (simp only; omega)

theorem clampS_snd (z : Int) (w : Nat) : (clampS z w).2 = true ↔ ¬(-(2 ^ (w - 1)) ≤ z ∧ z ≤ 2 ^ (w - 1) - 1) := by
  simp only [clampS]
  split
  · simp only [true_iff]; omega
  · split
    · simp only [true_iff]; omega
    · simp only [Bool.false_eq_true, false_iff, not_not]; omega

theorem satOr_fst (sat : Bool) (w : Nat) (z : Int) : BitVec.ofNat w (satOr sat w z).1 = narrow sat w z := by
  cases sat
  · exact ofNat_pat z w
  · exact (ofNat_pat _ w).trans (congrArg (BitVec.ofInt w) (clampS_fst z w))

theorem satOr_snd (sat : Bool) (w : Nat) (z : Int) : (satOr sat w z).2 = satFlag sat w z := by
  cases sat
  · rfl
  · simp only [satOr, satFlag, if_true, clampS_snd, flagSAT, true_and]

theorem satFlag_lt (sat : Bool) (w : Nat) (z : Int) : satFlag sat w z < 64 := by
  rw [satFlag]; split <;> decide

/-- The ending of a lane operation that gives an exact integer, wrapped or clamped. -/
theorem satOr_writes {s : State} {d : VReg} {sz : VSize} {sat : Bool} {mk : MReg} {f z : Nat → Int} (h : ∀ i, f i = z i) :
    WritesLanes s (laneOp s d sz mk fun i => satOr sat (VSize.bits sz) (f i)) d sz mk
      (fun i => narrow sat (VSize.bits sz) (z i)) fun i => satFlag sat (VSize.bits sz) (z i) :=
  laneOp_writes (fun i => (satOr_fst ..).trans (by rw [h])) (fun i => (satOr_snd ..).trans (by rw [h])) fun _ => satFlag_lt ..

theorem vecInt_exact {f : Nat → Int → Int → Int} {s : State} {d l r : VReg} {sz : VSize} {sat : Bool} {mk : MReg} {z : Nat → Int}
    (h : ∀ i, f (VSize.bits sz) (el sz (s.getV l) i).toInt (el sz (s.getV r) i).toInt = z i) :
    Completes (vecInt f d l r sz sat mk s) fun t => WritesLanes s t d sz mk
      (fun i => narrow sat (VSize.bits sz) (z i)) fun i => satFlag sat (VSize.bits sz) (z i) :=
  ⟨_, rfl, satOr_writes h⟩

theorem vecInt_plain {f : Nat → Int → Int → Int} {s : State} {d l r : VReg} {sz : VSize} {mk : MReg}
    {val : Nat → BitVec (VSize.bits sz)}
    (h : ∀ i, BitVec.ofInt _ (f (VSize.bits sz) (el sz (s.getV l) i).toInt (el sz (s.getV r) i).toInt) = val i) :
    Completes (vecInt f d l r sz false mk s) fun t => WritesLanes s t d sz mk val fun _ => 0 :=
  ⟨_, rfl, laneOp_writes_quiet fun i => (ofNat_pat _ _).trans (h i)⟩

theorem vecNat_plain {f : Nat → Nat → Nat → Nat} {s : State} {d l r : VReg} {sz : VSize} {mk : MReg}
    {val : Nat → BitVec (VSize.bits sz)}
    (h : ∀ i, BitVec.ofNat _ (f (VSize.bits sz) (el sz (s.getV l) i).toNat (el sz (s.getV r) i).toNat) = val i) :
    Completes (vecNat f d l r sz mk s) fun t => WritesLanes s t d sz mk val fun _ => 0 :=
  ⟨_, rfl, laneOp_writes_quiet fun i => (BitVec.eq_of_toNat_eq (by simp [lane, el])).trans (h i)⟩

theorem laneShift_toInt {w : Nat} (y : BitVec w) : laneShift w y.toInt = y.toNat % w := by
  rw [laneShift, pat, BitVec.ofInt_toInt]

/-! ### Compares (R143) -/

theorem toNat_beq {w : Nat} (x y : BitVec w) : (x.toNat == y.toNat) = (x == y) := by
  rw [Bool.eq_iff_iff, beq_iff_eq, beq_iff_eq, BitVec.toNat_inj]

theorem fLess_fin (a b : Bool) (m n : Nat) (e g : Int) :
    fLess (.fin a m e) (.fin b n g) = decide ((dyOf a m e).val < (dyOf b n g).val) := by
  have h : (Dy.mk (-(dyOf b n g).n) g).val = -(dyOf b n g).val := by simp [Dy.val, dyOf]
  rw [fLess, decide_eq_decide, ← Dy.val_neg_iff, Dy.add_val, h, ← sub_eq_add_neg, sub_neg]

/-- Of two values that are no NaN, one is less than the other or they are equal. -/
theorem fLess_or_fEq {x y : FVal} (h : (x.isNan || y.isNan) = false) : (fLess x y || fEq x y) = !fLess y x := by
  have asymm : fLess x y = true → fLess y x = false := by
    cases x <;> cases y
    case fin.fin => simp only [fLess_fin, decide_eq_true_eq, decide_eq_false_iff_not]; exact fun h => h.not_gt
    all_goals simp_all [fLess, FVal.isNan]
  rw [fEq]
  cases hx : fLess x y
  · rfl
  · rw [asymm hx]; rfl

theorem nvOf_pair (x y : FVal) : nvOf [x, y] = if (x == .nan true || y == .nan true) = true then 16 else 0 := by
  rw [nvOf_two]; simp

section
variable {s : State} {d : MReg} {l r : VReg} {sz : VSize} {mk : MReg} {c : Nat} {p : Nat → Bool}

theorem vcmp_int (hc : c < 6) (h : ∀ i, intCmp c (VSize.bits sz) (s.getV l) (s.getV r) i = p i) :
    Completes (exec (.vcmp d l r sz (BitVec.ofNat 64 c) mk) s) fun t => WritesBits s t d (512 / VSize.bits sz) mk p fun _ => 0 := by
  have number : (BitVec.ofNat 64 c).toNat = c := by rw [BitVec.toNat_ofNat]; omega
  show Completes (execVcmp d l r sz _ mk s) _
  rw [execVcmp, immBelow_finishes (by omega), number]
  simp only [if_pos hc]
  exact ⟨_, rfl, putM_bits_quiet h⟩

theorem vcmp_float {g : FFmt} {nv : Nat → Bool} (hlo : 6 ≤ c) (hhi : c < 10) (hg : vfFmt sz = some g)
    (h : ∀ i, fltCmp c (g.decode (el sz (s.getV l) i).toNat) (g.decode (el sz (s.getV r) i).toNat) = (p i, if nv i then 16 else 0)) :
    Completes (exec (.vcmp d l r sz (BitVec.ofNat 64 c) mk) s) fun t =>
      WritesBits s t d (512 / VSize.bits sz) mk p fun i => if nv i then 16 else 0 := by
  have number : (BitVec.ofNat 64 c).toNat = c := by rw [BitVec.toNat_ofNat]; omega
  show Completes (execVcmp d l r sz _ mk s) _
  rw [execVcmp, immBelow_finishes (by omega), number]
  simp only [if_neg (Nat.not_lt.2 hlo), hg]
  have hf (i : Nat) : (fltCmp c (g.decode (lane (s.getV l) (VSize.bits sz) i)) (g.decode (lane (s.getV r) (VSize.bits sz) i))).2 =
      if nv i then 16 else 0 := congrArg Prod.snd (h i)
  simp only [hf]
  exact ⟨_, rfl, putM_bits (fun i => congrArg Prod.fst (h i)) fun i => by split <;> decide⟩

theorem vcmp_traps {imm : Word} (h : 10 ≤ imm.toNat ∨ (sz = .s8 ∧ 6 ≤ imm.toNat)) :
    Traps (exec (.vcmp d l r sz imm mk) s) s .illegal none (some s.cx.chain) := by
  show Traps (execVcmp d l r sz imm mk s) s .illegal none (some s.cx.chain)
  rw [execVcmp]
  by_cases hc : 10 ≤ imm.toNat
  · exact immBelow_traps hc _
  · obtain ⟨rfl, h6⟩ := h.resolve_left hc
    rw [immBelow_finishes (by omega)]
    simp only [if_neg (Nat.not_lt.2 h6), vfFmt]
    exact finish_trap s .illegal none (some s.cx.chain)

end

/-! ### Rounded shifts (R98, R99, R145) -/

theorem ofInt_clamp {w : Nat} (a lo hi : BitVec w) : BitVec.ofInt w (min (max a.toInt lo.toInt) hi.toInt) =
    let raised := if a.slt lo then lo else a
    if hi.slt raised then hi else raised := by
  have hmax : max a.toInt lo.toInt = (if a.slt lo then lo else a).toInt := by
    simp only [BitVec.slt_iff_toInt_lt, apply_ite BitVec.toInt]; split <;> omega
  rw [hmax]
  simp only
  generalize (if a.slt lo then lo else a) = raised
  have hmin : min raised.toInt hi.toInt = (if hi.slt raised then hi else raised).toInt := by
    simp only [BitVec.slt_iff_toInt_lt, apply_ite BitVec.toInt]; split <;> omega
  rw [hmin, BitVec.ofInt_toInt]

/-- The magnitude of a number shifted right by `k` places in a mode. -/
theorem roundTo_shifted (m : RMode) (neg : Bool) (x : Nat) {k : Nat} (hk : 0 < k) : (roundTo m neg x (-(k : Int)) 0 false).1 =
    if roundsUp m neg (x / 2 ^ k) (x % 2 ^ k) k false then x / 2 ^ k + 1 else x / 2 ^ k := by
  rw [roundTo, if_neg (by omega)]
  simp

/-- What a mode decides of `q` units and `r` of 2^k of one (R98). -/
theorem roundsUp_cases (m : RMode) (neg : Bool) (q r : Nat) {k : Nat} (hk : 0 < k) :
    let up := roundsUp m neg q r k false
    match m with
    | .rne => if up then 2 ^ k ≤ 2 * r ∧ (2 ^ k = 2 * r → q % 2 = 1) else 2 * r ≤ 2 ^ k ∧ (2 ^ k = 2 * r → q % 2 = 0)
    | .rna => if up then 2 ^ k ≤ 2 * r else 2 * r < 2 ^ k
    | .rtz => up = false
    | .rdn => up = true ↔ neg = true ∧ r ≠ 0
    | .rup => up = true ↔ neg = false ∧ r ≠ 0 := by
  have hH : 2 ^ k = 2 * 2 ^ (k - 1) := by rw [← pow_succ']; congr 1; omega
  have h0 : (k != 0) = true := by simp; omega
  cases m <;> simp only [roundsUp, h0, Bool.true_and, Bool.and_false, Bool.or_false, Bool.not_false, Bool.and_true]
  case rne =>
    split <;> rename_i h <;> simp only [Bool.or_eq_true, Bool.and_eq_true, decide_eq_true_eq, beq_iff_eq] at h <;> omega
  case rna =>
    split <;> rename_i h <;> simp only [Bool.or_eq_true, decide_eq_true_eq, beq_iff_eq] at h <;> omega
  case rdn => simp
  case rup => simp

theorem roundInteger_rounds (m : RMode) (z : Int) (k : Nat) : Rounds m z k (roundInteger m ⟨z, -(k : Int)⟩) := by
  rcases Nat.eq_zero_or_pos k with rfl | hk
  · have h : roundInteger m ⟨z, -((0 : Nat) : Int)⟩ = z := by
      have h0 : roundsUp m (decide (z < 0)) z.natAbs 0 0 false = false := by cases m <;> simp [roundsUp]
      simp only [roundInteger, roundTo, Nat.cast_zero, neg_zero, le_refl, if_true, sub_self, Int.toNat_zero, pow_zero, Nat.mul_one, h0]
      simp only [Bool.false_eq_true, if_false]; split <;> omega
    rw [h]
    cases m <;> simp [Rounds]
  · have hx := Nat.div_add_mod z.natAbs (2 ^ k)
    have hr := Nat.mod_lt z.natAbs (Nat.two_pow_pos k)
    have herr := roundsUp_cases m (decide (z < 0)) (z.natAbs / 2 ^ k) (z.natAbs % 2 ^ k) hk
    simp only [roundInteger, roundTo_shifted m _ _ hk]
    generalize z.natAbs / 2 ^ k = q at *
    generalize z.natAbs % 2 ^ k = r at *
    generalize hup : roundsUp m (decide (z < 0)) q r k false = up at *
    have hq : ((2 ^ k * q : Nat) : Int) = q * 2 ^ k := by push_cast; ring
    have hn : ((q + 1 : Nat) : Int) * 2 ^ k = q * 2 ^ k + 2 ^ k := by push_cast; ring
    have hP : ((2 ^ k : Nat) : Int) = 2 ^ k := by push_cast; rfl
    have hd : (if z < 0 then -(((if up then q + 1 else q : Nat)) : Int) else ((if up then q + 1 else q : Nat) : Int)) * 2 ^ k - z =
        (if z < 0 then -1 else 1) * (if up then 2 ^ k - (r : Int) else -r) := by
      cases up <;> by_cases hz : z < 0 <;> simp only [hz, if_true, if_false, Bool.false_eq_true, neg_mul, hn] <;> omega
    simp only [Rounds, hd]
    -- for each mode, direction and sign, what the mode decides is linear in `r` and 2^k
    cases m <;> cases up <;> by_cases hz : z < 0 <;>
      simp only [hz, if_true, if_false, Bool.false_eq_true, decide_true, decide_false, Bool.true_eq_false,
        eq_self, true_iff, false_iff, true_and, false_and] at herr ⊢ <;> omega

/-! ### Reductions and mask logic (R152, R153) -/

theorem foldl_max (f : Nat → Int) : ∀ (ls : List Nat) (a : Int), let g := ls.foldl (fun m i => max m (f i)) a
    a ≤ g ∧ (∀ i ∈ ls, f i ≤ g) ∧ (g = a ∨ ∃ i ∈ ls, f i = g)
  | [], a => ⟨le_rfl, by simp, .inl rfl⟩
  | j :: ls, a => by
    obtain ⟨ha, hf, hg⟩ := foldl_max f ls (max a (f j))
    refine ⟨(le_max_left _ _).trans ha, fun i hi => ?_, ?_⟩
    · rcases List.mem_cons.1 hi with rfl | hi
      · exact (le_max_right _ _).trans ha
      · exact hf i hi
    · rcases hg with hg | ⟨i, hi, hg⟩
      · rcases max_choice a (f j) with h | h
        · exact .inl (hg.trans h)
        · exact .inr ⟨j, List.mem_cons_self, (hg.trans h).symm⟩
      · exact .inr ⟨i, List.mem_cons_of_mem j hi, hg⟩

theorem mlog_completes {s : State} {m a b : MReg} {sz : VSize} {mk : MReg} {c : Nat} {p : Bool → Bool → Bool} (hc : c < 5)
    (h : ∀ x y, mlogBit c x y = p x y) : Completes (exec (.mlog m a b sz (BitVec.ofNat 64 c) mk) s) fun t =>
      WritesBits s t m (512 / VSize.bits sz) mk (fun i => p ((s.getM a).getLsbD i) ((s.getM b).getLsbD i)) fun _ => 0 := by
  have number : (BitVec.ofNat 64 c).toNat = c := by rw [BitVec.toNat_ofNat]; omega
  show Completes (execMlog m a b sz _ mk s) _
  exact immBelow_completes (by omega) (putM_bits_quiet fun i => by rw [number, h])

end Sys2Proof.Machine

open Sys2Proof Sys2Proof.Machine Sys2Proof.Claim

/-- Settles O11, by the lanes of a register after a fold of writes. -/
theorem laneMoves : Obligations.LaneMoves := by
  unfold Obligations.LaneMoves
  intro s d l r x sz mk imm n k none_
  refine ⟨⟨_, rfl, laneOp_writes_quiet fun i => ofNat_lane ..⟩, ⟨_, rfl, laneOp_writes_quiet fun i => ?bcast⟩,
    ⟨_, rfl, laneOp_writes_quiet fun i => ofNat_lane ..⟩, ⟨_, rfl, _, putV_writes_quiet s d _, fun i hi => ?sel⟩,
    fun hk => ⟨?rot, ?ext, ?ins⟩, fun hk => ⟨immBelow_traps hk _, immBelow_traps hk _, immBelow_traps hk _⟩⟩
  case bcast => rw [uval, BitVec.ofNat_toNat, BitVec.setWidth_eq]
  case sel =>
    have every : i ∈ List.range (VSize.lanes sz) := List.mem_range.2 hi
    rw [el, writeLanes, foldl_setLane _ _ hi, if_pos every, apply_ite (BitVec.ofNat _), ofNat_lane, ofNat_lane]
    rfl
  case rot =>
    show Completes (execVrot d l sz imm mk s) _
    exact immBelow_completes hk (laneOp_writes_quiet fun i => ofNat_lane ..)
  case ext =>
    show Completes (execVext x l sz imm mk s) _
    refine immBelow_completes hk ?_
    cases ho : (s.getM mk).getLsbD imm.toNat
    · rw [if_neg (show ¬on s mk k = true by simp [on, k, ho])]
      exact advance_onlyPc s
    · rw [if_pos (show on s mk k = true from ho), if_pos rfl, sextW, BitVec.signExtend_eq]
      exact putX_writes s x _
  case ins =>
    show Completes (execVins d x sz imm mk s) _
    refine immBelow_completes hk ?_
    cases ho : (s.getM mk).getLsbD imm.toNat
    · rw [if_neg (show ¬on s mk k = true by simp [on, k, ho])]
      exact advance_onlyPc s
    · rw [if_pos (show on s mk k = true from ho)]
      refine ⟨_, putV_writes_quiet s d _, fun i hi => ?_⟩
      rw [el, extractLsb'_setLane _ _ hi, uval, BitVec.ofNat_toNat, BitVec.setWidth_eq]
      rfl

/-- Settles O13: each lane is the operation on the bit vectors of its operands. -/
theorem laneIntegers : Obligations.LaneIntegers := by
  unfold Obligations.LaneIntegers
  intro s d l r sz sat mk w x y k exact plain
  refine ⟨?add, ?sub, ?mul, ?shl, ?mulh, ?min, ?max, ?and, ?or, ?xor, ?shr, ?sra⟩
  case add =>
    show Completes (execVadd d l r sz sat mk s) _
    exact vecInt_exact fun i => rfl
  case sub =>
    show Completes (execVsub d l r sz sat mk s) _
    exact vecInt_exact fun i => rfl
  case mul =>
    show Completes (execVmul d l r sz sat mk s) _
    exact vecInt_exact fun i => rfl
  case shl =>
    show Completes (execVshl d l r sz sat mk s) _
    exact vecInt_exact fun i => by rw [laneShift_toInt]
  case mulh =>
    show Completes (execVmulh d l r sz mk s) _
    exact vecInt_plain fun i => ofInt_mulh ..
  case min =>
    show Completes (execVmin d l r sz mk s) _
    exact vecInt_plain fun i => ofInt_min ..
  case max =>
    show Completes (execVmax d l r sz mk s) _
    exact vecInt_plain fun i => ofInt_max ..
  case and =>
    show Completes (execVand d l r sz mk s) _
    exact vecNat_plain fun i => by rw [← BitVec.toNat_and, BitVec.ofNat_toNat, BitVec.setWidth_eq]
  case or =>
    show Completes (execVor d l r sz mk s) _
    exact vecNat_plain fun i => by rw [← BitVec.toNat_or, BitVec.ofNat_toNat, BitVec.setWidth_eq]
  case xor =>
    show Completes (execVxor d l r sz mk s) _
    exact vecNat_plain fun i => by rw [← BitVec.toNat_xor, BitVec.ofNat_toNat, BitVec.setWidth_eq]
  case shr =>
    show Completes (execVshr d l r sz mk s) _
    exact vecNat_plain fun i => ofNat_div_two_pow ..
  case sra =>
    show Completes (execVsra d l r sz mk s) _
    exact vecInt_plain fun i => by rw [laneShift_toInt]; exact ofInt_fdiv_two_pow ..

/-- Settles O14, by the rules for the integer and the float codes; of numbers that are no NaN, one is less or they are equal. -/
theorem laneCompares : Obligations.LaneCompares := by
  unfold Obligations.LaneCompares
  intro s d l r sz mk n x y is never
  refine ⟨vcmp_int (by decide) fun i => ?eq, vcmp_int (by decide) fun i => ?ne, vcmp_int (by decide) fun i => rfl,
    vcmp_int (by decide) fun i => rfl, vcmp_int (by decide) fun i => rfl, vcmp_int (by decide) fun i => rfl, fun g hg => ?float,
    fun c hc => vcmp_traps hc⟩
  case eq => exact toNat_beq ..
  case ne => exact congrArg not (toNat_beq ..)
  case float =>
    have hv : vfFmt sz = some g := by rcases hg with ⟨rfl, rfl⟩ | ⟨rfl, rfl⟩ <;> rfl
    intro a b anyNan signalling
    refine ⟨vcmp_float (by decide) (by decide) hv fun i => Prod.ext (Bool.and_assoc ..).symm (nvOf_pair ..),
      vcmp_float (by decide) (by decide) hv fun i => rfl, vcmp_float (by decide) (by decide) hv fun i => Prod.ext ?_ rfl,
      vcmp_float (by decide) (by decide) hv fun i => Prod.ext rfl (nvOf_pair ..)⟩
    show (!anyNan i && (fLess (a i) (b i) || fEq (a i) (b i))) = (!anyNan i && !fLess (b i) (a i))
    cases h : anyNan i
    · rw [fLess_or_fEq h]
    · rfl

/-- Settles O15: the sums are formed before they are narrowed, and a shift rounds as `roundInteger_rounds` says. -/
theorem accumulate : Obligations.Accumulate := by
  unfold Obligations.Accumulate
  intro s d l r sz sat rnd mk imm w byte term dot mac
  refine ⟨fun hi => ?dot4, fun hi => immBelow_traps hi _, ⟨_, rfl, satOr_writes fun i => rfl⟩,
    ⟨fun i => roundInteger (s.rmode rnd) ⟨(el sz (s.getV l) i).toInt, -(((el sz (s.getV r) i).toNat % w : Nat) : Int)⟩,
      fun i => roundInteger_rounds .., _, rfl, laneOp_writes_quiet fun i => ofNat_pat ..⟩, _, rfl, laneOp_writes_quiet fun i => ?clamp⟩
  case dot4 =>
    show Completes (execVdot4 d l r imm sat mk s) _
    exact immBelow_completes hi (satOr_writes (sz := .s32) fun i => rfl)
  case clamp => exact (ofNat_pat ..).trans (ofInt_clamp ..)

/-- Settles O16, by the endings of a reduction and of a write of mask bits, and the greatest number of a fold. -/
theorem reductionsAndMaskLogic : Obligations.ReductionsAndMaskLogic := by
  unfold Obligations.ReductionsAndMaskLogic
  intro s d l m a b sz sat mk w n sum is
  refine ⟨⟨_, rfl, putLane0_writes s d rfl (satOr_fst ..) (satOr_snd ..) (satFlag_lt ..)⟩, ?max, mlog_completes (by decide) fun x y => rfl,
    mlog_completes (by decide) fun x y => rfl, mlog_completes (by decide) (by decide), mlog_completes (by decide) fun x y => rfl,
    mlog_completes (by decide) fun x y => rfl, fun c hc => immBelow_traps hc _⟩
  case max =>
    obtain ⟨hlow, hall, hone⟩ := foldl_max (laneS (s.getV l) w) (s.activeOf sz mk) (-(2 ^ (w - 1)))
    refine ⟨_, fun i hi ho => hall i (mem_active.2 ⟨hi, ho⟩), ?_, _, rfl, putLane0_writes s d rfl (ofNat_pat ..) rfl (by decide)⟩
    rcases hone with hone | ⟨i, hi, hg⟩
    · by_cases hact : ∃ i < n, on s mk i = true
      · obtain ⟨i, hi, ho⟩ := hact
        exact .inl ⟨i, hi, ho, le_antisymm (hall i (mem_active.2 ⟨hi, ho⟩)) (hone.trans_le (BitVec.le_toInt (el sz (s.getV l) i)))⟩
      · exact .inr ⟨fun i hi => Bool.eq_false_iff.2 fun ho => hact ⟨i, hi, ho⟩, hone⟩
    · exact .inl ⟨i, (mem_active.1 hi).1, (mem_active.1 hi).2, hg⟩

end

section
/-! Lane floating point and conversions (R147 to R152, R366): the flags of every operation are FSTAT flags, and every conversion gives a
pattern of its format. -/

namespace Sys2Proof.Machine

open Claim

/-! ### Flags (R79, R97) -/

theorem nvOf_lt (vs : List FVal) : nvOf vs < 64 := by
  rw [nvOf]; split <;> decide

/-- The flags of a result that are FSTAT flags (R79). -/
def Rounded.flags : Rounded → Nat
  | .bits _ fl => fl
  | .infinite _ => flagOF + flagNX

theorem FFmt.finish_flags (f : FFmt) (r : Rounded) : (f.finish r).2 = r.flags := by cases r <;> rfl

theorem quiet_lt (b : Nat) : (b, 0).2 < 64 := Nat.zero_lt_succ _
theorem flagNV_lt (b : Nat) : (b, flagNV).2 < 64 := by show flagNV < 64; decide
theorem flagDZ_lt (b : Nat) : (b, flagDZ).2 < 64 := by show flagDZ < 64; decide

theorem ite_lt {α : Type} {f : α → Nat} {c : Prop} [Decidable c] {x y : α} {n : Nat} (hx : f x < n) (hy : f y < n) :
    f (if c then x else y) < n := by split <;> assumption

theorem FFmt.round_flags_lt (f : FFmt) (mode : RMode) (neg : Bool) (m : Nat) (e : Int) (sticky : Bool) :
    (f.round mode neg m e sticky).flags < 64 := by
  have sum (p q : Bool) : (if p then flagNX else 0) + (if q then flagUF else 0) < 64 := by cases p <;> cases q <;> decide
  have overflow : flagOF + flagNX < 64 := by decide
  dsimp only [FFmt.round]
  exact ite_lt (f := Rounded.flags) (Nat.zero_lt_succ _) (ite_lt (ite_lt overflow overflow) (sum ..))

theorem FFmt.finish_flags_lt (f : FFmt) (mode : RMode) (neg : Bool) (m : Nat) (e : Int) (sticky : Bool) :
    (f.finish (f.round mode neg m e sticky)).2 < 64 := by
  rw [f.finish_flags]; exact f.round_flags_lt ..

theorem FFmt.roundDy_flags_lt (f : FFmt) (mode : RMode) (d : Dy) (zeroNeg : Bool) : (f.roundDy mode d zeroNeg).2 < 64 :=
  f.finish_flags_lt ..

theorem FFmt.add_flags_lt (f : FFmt) (mode : RMode) (x y : FVal) : (f.add mode x y).2 < 64 := by
  unfold FFmt.add
  split
  case h_1 => exact nvOf_lt _
  case h_2 => exact nvOf_lt _
  case h_3 => exact ite_lt (f := Prod.snd) (quiet_lt _) (flagNV_lt _)
  case h_4 => exact quiet_lt _
  case h_5 => exact quiet_lt _
  case h_6 => exact f.roundDy_flags_lt ..

theorem FFmt.mul_flags_lt (f : FFmt) (mode : RMode) (x y : FVal) : (f.mul mode x y).2 < 64 := by
  unfold FFmt.mul
  split
  case h_1 => exact nvOf_lt _
  case h_2 => exact nvOf_lt _
  case h_3 => exact quiet_lt _
  case h_4 => exact ite_lt (f := Prod.snd) (flagNV_lt _) (quiet_lt _)
  case h_5 => exact ite_lt (f := Prod.snd) (flagNV_lt _) (quiet_lt _)
  case h_6 => exact f.roundDy_flags_lt ..

theorem FFmt.infPlus_flags_lt (f : FFmt) (neg : Bool) (z : FVal) : (FFmt.fma.infPlus f neg z).2 < 64 := by
  unfold FFmt.fma.infPlus
  split
  · exact ite_lt (f := Prod.snd) (quiet_lt _) (flagNV_lt _)
  · exact quiet_lt _

theorem FFmt.fma_flags_lt (f : FFmt) (mode : RMode) (x y z : FVal) : (f.fma mode x y z).2 < 64 := by
  unfold FFmt.fma
  refine ite_lt (f := Prod.snd) (flagNV_lt _) ?_
  split
  case h_1 => exact nvOf_lt _
  case h_2 => exact nvOf_lt _
  case h_3 => exact nvOf_lt _
  case h_4 => exact f.roundDy_flags_lt ..
  case h_5 => exact quiet_lt _
  case h_6 => exact f.infPlus_flags_lt ..
  case h_7 => exact f.infPlus_flags_lt ..
  case h_8 => exact f.infPlus_flags_lt ..

theorem FFmt.minmax_flags_lt (f : FFmt) (isMax : Bool) (a b : Nat) : (f.minmax isMax a b).2 < 64 :=
  ite_lt (f := Prod.snd) (nvOf_lt _) (ite_lt (nvOf_lt _) (ite_lt (nvOf_lt _) (nvOf_lt _)))

theorem FFmt.rcp_flags_lt (f : FFmt) (mode : RMode) (x : FVal) : (f.rcp mode x).2 < 64 := by
  cases x with
  | nan _ => exact nvOf_lt _
  | inf _ => exact quiet_lt _
  | fin a m e => exact ite_lt (f := Prod.snd) (flagDZ_lt _) (f.finish_flags_lt ..)

theorem FFmt.rsq_flags_lt (f : FFmt) (mode : RMode) (x : FVal) : (f.rsq mode x).2 < 64 := by
  cases x with
  | nan _ => exact nvOf_lt _
  | inf _ => exact ite_lt (f := Prod.snd) (flagNV_lt _) (quiet_lt _)
  | fin a m e => exact ite_lt (f := Prod.snd) (flagDZ_lt _) (ite_lt (flagNV_lt _) (f.finish_flags_lt ..))

theorem FFmt.exp2_flags_lt (f : FFmt) (mode : RMode) (x : FVal) : (f.exp2 mode x).2 < 64 := by
  cases x with
  | nan _ => exact nvOf_lt _
  | inf _ => exact ite_lt (f := Prod.snd) (quiet_lt _) (quiet_lt _)
  | fin a m e =>
    exact ite_lt (f := Prod.snd) (f.finish_flags_lt ..) (ite_lt (ite_lt (f.finish_flags_lt ..) (f.finish_flags_lt ..))
      (ite_lt (f.finish_flags_lt ..) (f.finish_flags_lt ..)))

theorem foldl_add_flags_lt (g : FFmt) (m : RMode) : ∀ (ys : List Nat) {a : Nat × Nat}, a.2 < 64 → (ys.foldl (fun a y =>
    let r := g.add m (g.decode a.1) (g.decode y); (r.1, a.2 ||| r.2)) a).2 < 64
  | [], _, h => h
  | _ :: ys, _, h => foldl_add_flags_lt g m ys (Nat.or_lt_two_pow (n := 6) h (g.add_flags_lt ..))

theorem fredSum_flags_lt (g : FFmt) (m : RMode) (xs : List Nat) : (fredSum g m xs).2 < 64 := by
  unfold fredSum
  split
  · exact quiet_lt _
  · exact ite_lt (f := Prod.snd) (flagNV_lt _) (quiet_lt _)
  · exact foldl_add_flags_lt g m _ (quiet_lt _)

/-! ### The float instructions -/

section
variable {s : State} {d : VReg} {sz : VSize} {mk : MReg} {g : FFmt}

theorem vfFmt_width (h : vfFmt sz = some g) : g.width = VSize.bits sz := by
  cases sz <;> cases h <;> rfl

theorem vecFlt_completes (hg : vfFmt sz = some g) {f : FFmt → Nat → Nat × Nat} {r : Nat → Nat × Nat} (h : ∀ i, f g i = r i)
    (hfl : ∀ i, (r i).2 < 64) : Completes (vecFlt s d sz mk f) fun t => ∃ u,
      WritesLanes s u d sz mk (fun i => BitVec.ofNat _ (r i).1) (fun i => (r i).2) ∧
      t = u.countEv s.cur 14 ((List.range (512 / VSize.bits sz)).filter (on s mk)).length := by
  rw [vecFlt, hg]
  exact ⟨_, rfl, _, laneOp_writes (fun i => by rw [h]) (fun i => by rw [h]) hfl, rfl⟩

theorem vecFlt2_completes (hg : vfFmt sz = some g) {op : FFmt → RMode → FVal → FVal → Nat × Nat} {l r : VReg} {rnd : RSel}
    (hfl : ∀ x y, (op g (s.rmode rnd) x y).2 < 64) :
    let res := fun i => op g (s.rmode rnd) (g.decode (el sz (s.getV l) i).toNat) (g.decode (el sz (s.getV r) i).toNat)
    Completes (vecFlt2 op d l r sz rnd mk s) fun t => ∃ u,
      WritesLanes s u d sz mk (fun i => BitVec.ofNat _ (res i).1) (fun i => (res i).2) ∧
      t = u.countEv s.cur 14 ((List.range (512 / VSize.bits sz)).filter (on s mk)).length :=
  vecFlt_completes hg (fun i => by rw [fltLane, vfFmt_width hg]; rfl) fun i => hfl ..

theorem vecFlt1_completes (hg : vfFmt sz = some g) {op : FFmt → RMode → FVal → Nat × Nat} {l : VReg} {rnd : RSel}
    (hfl : ∀ x, (op g (s.rmode rnd) x).2 < 64) :
    let res := fun i => op g (s.rmode rnd) (g.decode (el sz (s.getV l) i).toNat)
    Completes (vecFlt1 op d l sz rnd mk s) fun t => ∃ u,
      WritesLanes s u d sz mk (fun i => BitVec.ofNat _ (res i).1) (fun i => (res i).2) ∧
      t = u.countEv s.cur 14 ((List.range (512 / VSize.bits sz)).filter (on s mk)).length :=
  vecFlt_completes hg (fun i => by rw [vfFmt_width hg]; rfl) fun i => hfl _

end

/-! ### The patterns that conversions give (R94, R100, R108, R150) -/

/-- The conversions' formats: the largest finite number has an exponent field, and a pattern of either sign fits the width, as does
the NaN. -/
structure FFmt.Sound (g : FFmt) : Prop where
  field : (g.maxQ + g.fw + g.bias).toNat < 2 ^ g.ew
  max_lt : ∀ neg, g.maxBits neg < 2 ^ g.width
  nan_lt : g.nan < 2 ^ g.width

theorem cvFmt_sound : ∀ code < 12, ∀ g, cvFmt code = some (.float g) → g.Sound := by
  intro code hc g hg
  interval_cases code <;> cases hg <;> exact ⟨by decide, by decide, by decide⟩

theorem FFmt.two_pow_width (g : FFmt) : 2 ^ g.width = 2 ^ (g.ew + g.fw) + 2 ^ (g.ew + g.fw) := by
  rw [FFmt.width, Nat.add_assoc, Nat.add_comm, pow_succ]; omega

theorem FFmt.sign_le (g : FFmt) (neg : Bool) : g.sign neg ≤ 2 ^ (g.ew + g.fw) := by
  rw [FFmt.sign]; split <;> simp

theorem FFmt.field_lt (g : FFmt) {k n : Nat} (hk : k < 2 ^ g.ew) (hn : n < 2 ^ g.fw) : (k <<< g.fw) + n < 2 ^ (g.ew + g.fw) := by
  rw [Nat.shiftLeft_eq, pow_add]
  calc k * 2 ^ g.fw + n < (k + 1) * 2 ^ g.fw := by rw [Nat.succ_mul]; omega
    _ ≤ 2 ^ g.ew * 2 ^ g.fw := Nat.mul_le_mul_right _ hk

theorem FFmt.infBits_lt (g : FFmt) (neg : Bool) : g.infBits neg < 2 ^ g.width := by
  have hs := g.sign_le neg
  have hf := g.field_lt (k := 2 ^ g.ew - 1) (n := 0) (Nat.sub_lt (Nat.two_pow_pos _) one_pos) (Nat.two_pow_pos _)
  rw [g.two_pow_width, FFmt.infBits]
  omega

/-- A number of `p` bits or fewer above the grid rounds to 2^p units at most. -/
theorem roundTo_le (mode : RMode) (neg : Bool) {m p : Nat} {e q : Int} (sticky : Bool) (h : e + bitLen m ≤ q + p) :
    (roundTo mode neg m e q sticky).1 ≤ 2 ^ p := by
  have hm : m < 2 ^ bitLen m := bitLen_le_iff.1 le_rfl
  have step {n : Nat} (up : Bool) (hn : n < 2 ^ p) : (if up then n + 1 else n) ≤ 2 ^ p := by split <;> omega
  rw [roundTo]
  split
  · refine step _ ?_
    calc m * 2 ^ (e - q).toNat < 2 ^ bitLen m * 2 ^ (e - q).toNat := Nat.mul_lt_mul_of_pos_right hm (Nat.two_pow_pos _)
      _ = 2 ^ (bitLen m + (e - q).toNat) := (pow_add ..).symm
      _ ≤ 2 ^ p := Nat.pow_le_pow_right (by omega) (by omega)
  · refine step _ (Nat.div_lt_of_lt_mul ?_)
    calc m < 2 ^ bitLen m := hm
      _ ≤ 2 ^ ((q - e).toNat + p) := Nat.pow_le_pow_right (by omega) (by omega)
      _ = 2 ^ (q - e).toNat * 2 ^ p := pow_add ..

/-- The bits of a result, where it has not overflowed, lie below `n`. -/
def Rounded.Below (n : Nat) : Rounded → Prop
  | .bits b _ => b < n
  | .infinite _ => True

theorem FFmt.round_below {g : FFmt} (hg : g.Sound) (mode : RMode) (neg : Bool) (m : Nat) (e : Int) :
    (g.round mode neg m e false).Below (2 ^ g.width) := by
  have hs := g.sign_le neg
  have hw := g.two_pow_width
  have hpos := Nat.two_pow_pos (g.ew + g.fw)
  dsimp only [FFmt.round]
  have hn : (roundTo mode neg m e (max (e + bitLen m - (g.fw + 1 : Nat)) (1 - (g.bias : Int) - g.fw)) false).1 ≤ 2 ^ (g.fw + 1) :=
    roundTo_le mode neg false (by omega)
  generalize roundTo mode neg m e (max (e + bitLen m - (g.fw + 1 : Nat)) (1 - (g.bias : Int) - g.fw)) false = n0 at *
  generalize max (e + bitLen m - (g.fw + 1 : Nat)) (1 - (g.bias : Int) - g.fw) = q at *
  have hr : (if n0.1 = 2 ^ (g.fw + 1) then (2 ^ g.fw, q + 1) else (n0.1, q)).1 < 2 ^ (g.fw + 1) := by
    have := Nat.pow_lt_pow_right one_lt_two (Nat.lt_succ_self g.fw)
    split <;> simp only <;> omega
  generalize (if n0.1 = 2 ^ (g.fw + 1) then (2 ^ g.fw, q + 1) else (n0.1, q)) = r at *
  split
  · show g.sign neg < _
    omega
  · split
    · split
      · trivial
      · exact hg.max_lt neg
    · rename_i inRange
      have hq : (r.2 + g.fw + g.bias).toNat < 2 ^ g.ew := by
        have := hg.field
        simp only [Bool.or_eq_true, decide_eq_true_eq, not_or, not_lt] at inRange
        omega
      have hfw : 2 ^ g.fw ≤ 2 ^ (g.ew + g.fw) := Nat.pow_le_pow_right (by omega) (by omega)
      have hf := g.field_lt (n := r.1 - 2 ^ g.fw) hq (by rw [pow_succ] at hr; omega)
      show g.sign neg + (if r.1 < 2 ^ g.fw then r.1 else _) < _
      split <;> omega

/-- A conversion gives a pattern of its destination's width, and FSTAT flags. -/
def CvFmt.Gives (dst : CvFmt) (o : Option (Nat × Nat)) : Prop := ∀ r ∈ o, r.1 < 2 ^ dst.width ∧ r.2 < 64

section
variable {dst : CvFmt}

theorem CvFmt.gives_none : dst.Gives none := fun _ h => by cases h
theorem CvFmt.gives_some {b fl : Nat} (hb : b < 2 ^ dst.width) (hf : fl < 64) : dst.Gives (some (b, fl)) :=
  fun _ h => by cases h; exact ⟨hb, hf⟩
theorem CvFmt.gives_ite {c : Prop} [Decidable c] {o p : Option (Nat × Nat)} (ho : dst.Gives o) (hp : dst.Gives p) :
    dst.Gives (if c then o else p) := by split <;> assumption

end

theorem toFloat_gives {g : FFmt} (hg : g.Sound) (sat : Bool) (mode : RMode) (x : FVal) :
    (CvFmt.float g).Gives (convert.toFloat sat mode g x) := by
  have overflow : flagOF + flagNX < 64 := by decide
  cases x with
  | nan s => exact CvFmt.gives_ite (CvFmt.gives_some hg.nan_lt (by split <;> decide)) CvFmt.gives_none
  | inf neg =>
    exact CvFmt.gives_ite (CvFmt.gives_some (g.infBits_lt neg) (by decide)) (CvFmt.gives_ite
      (CvFmt.gives_some (hg.max_lt neg) (by decide)) (CvFmt.gives_ite (CvFmt.gives_some hg.nan_lt (by decide)) CvFmt.gives_none))
  | fin neg m e =>
    have below := FFmt.round_below hg mode neg m e
    have flags := g.round_flags_lt mode neg m e false
    rw [convert.toFloat]
    cases hr : g.round mode neg m e false with rw [hr] at below flags
    | bits b fl => exact CvFmt.gives_some below flags
    | infinite n =>
      exact CvFmt.gives_ite (CvFmt.gives_some (g.infBits_lt n) overflow) (CvFmt.gives_ite
        (CvFmt.gives_some (hg.max_lt n) overflow) (CvFmt.gives_ite (CvFmt.gives_some hg.nan_lt overflow) CvFmt.gives_none))

theorem pat_lt (z : Int) (w : Nat) : pat z w < 2 ^ w := BitVec.isLt _

theorem convert_gives {src dst : CvFmt} (hd : ∀ g, dst = .float g → g.Sound) (sat : Bool) (mode : RMode) (b : Nat) :
    dst.Gives (convert src dst sat mode b) := by
  have flag (p : Prop) [Decidable p] {k n : Nat} (hk : k < 64) (hn : n < 64) : (if p then k else n) < 64 := by split <;> assumption
  cases src with
  | int w sg =>
    cases dst with
    | int w' sg' => exact CvFmt.gives_ite (CvFmt.gives_some (pat_lt ..) (flag _ (by decide) (by decide))) (CvFmt.gives_some (pat_lt ..) (by decide))
    | float g => rw [convert]; exact toFloat_gives (hd g rfl) _ _ _
  | float f =>
    cases dst with
    | int w' sg' =>
      rw [convert]
      dsimp only
      split
      · exact CvFmt.gives_some (Nat.two_pow_pos _) (by decide)
      · exact CvFmt.gives_some (pat_lt ..) (by decide)
      · exact CvFmt.gives_ite (CvFmt.gives_some (pat_lt ..) (by decide)) (CvFmt.gives_ite (CvFmt.gives_some (pat_lt ..) (by decide))
          (CvFmt.gives_some (pat_lt ..) (flag _ (by decide) (by decide))))
    | float g => exact toFloat_gives (hd g rfl) _ _ _

/-! ### Control words (R150) -/

theorem cvFmt_lt {code : Nat} {f : CvFmt} (h : cvFmt code = some f) : code < 12 := by
  by_contra hc
  have : cvFmt code = none := by
    unfold cvFmt
    split
    case h_13 => rfl
    all_goals omega
  simp [this] at h

theorem satAllowed_iff : ∀ a < 12, ∀ b < 12, ∀ src ∈ cvFmt a, ∀ dst ∈ cvFmt b, satAllowed src dst =
    decide ((a < 6 ∧ b < 6 ∧ dst.width < src.width) ∨ b = 9 ∨ b = 11) := by decide

/-- What R150 asks of a control word whose format codes are listed. -/
def CvtLegal (c : Nat) (src dst : CvFmt) (sat : Bool) : Prop :=
  c < 4096 ∧ c % 16 ≠ c / 16 % 16 ∧ c / 512 % 8 < max src.width dst.width / min src.width dst.width ∧
    (sat = true → (c % 16 < 6 ∧ c / 16 % 16 < 6 ∧ dst.width < src.width) ∨ c / 16 % 16 = 9 ∨ c / 16 % 16 = 11)

section
variable {imm : Word} {src dst : CvFmt}

theorem cvtCtl_eq (hs : cvFmt (imm.toNat % 16) = some src) (hd : cvFmt (imm.toNat / 16 % 16) = some dst) : cvtCtl imm =
    if (4096 ≤ imm.toNat || imm.toNat % 16 == imm.toNat / 16 % 16 || (imm.getLsbD 8 && !satAllowed src dst) ||
      max src.width dst.width / min src.width dst.width ≤ imm.toNat / 512 % 8) = true then none
    else some ⟨src, dst, imm.getLsbD 8, imm.toNat / 512 % 8⟩ := by
  rw [cvtCtl, hs, hd]; rfl

theorem cvtExcluded_iff (hs : cvFmt (imm.toNat % 16) = some src) (hd : cvFmt (imm.toNat / 16 % 16) = some dst) :
    (4096 ≤ imm.toNat || imm.toNat % 16 == imm.toNat / 16 % 16 || (imm.getLsbD 8 && !satAllowed src dst) ||
      max src.width dst.width / min src.width dst.width ≤ imm.toNat / 512 % 8) = true ↔
    ¬CvtLegal imm.toNat src dst (imm.getLsbD 8) := by
  rw [satAllowed_iff _ (cvFmt_lt hs) _ (cvFmt_lt hd) src hs dst hd]
  simp only [CvtLegal, Bool.or_eq_true, decide_eq_true_eq, beq_iff_eq, Bool.and_eq_true, Bool.not_eq_true', decide_eq_false_iff_not,
    not_and_or, not_lt, ne_eq, not_not, Classical.not_imp]
  tauto

theorem cvtCtl_legal (hs : cvFmt (imm.toNat % 16) = some src) (hd : cvFmt (imm.toNat / 16 % 16) = some dst)
    (h : CvtLegal imm.toNat src dst (imm.getLsbD 8)) : cvtCtl imm = some ⟨src, dst, imm.getLsbD 8, imm.toNat / 512 % 8⟩ := by
  rw [cvtCtl_eq hs hd, if_neg fun k => (cvtExcluded_iff hs hd).1 k h]

theorem cvtCtl_excluded (hs : cvFmt (imm.toNat % 16) = some src) (hd : cvFmt (imm.toNat / 16 % 16) = some dst)
    (h : ¬CvtLegal imm.toNat src dst (imm.getLsbD 8)) : cvtCtl imm = none := by
  rw [cvtCtl_eq hs hd, if_pos ((cvtExcluded_iff hs hd).2 h)]

theorem cvtCtl_unlisted (h : cvFmt (imm.toNat % 16) = none ∨ cvFmt (imm.toNat / 16 % 16) = none) : cvtCtl imm = none := by
  rw [cvtCtl]
  rcases h with h | h
  · rw [h]
  · rw [h]; cases cvFmt (imm.toNat % 16) <;> rfl

end

/-! ### The elements of a conversion (R151) -/

section
variable {α β : Type} (g : Nat → Option β) (step : α → Nat → β → α)

theorem foldl_bind_some (d : β) : ∀ (ls : List Nat) (a : α), (∀ i ∈ ls, g i ≠ none) →
    ls.foldl (fun o i => o.bind fun a => (g i).map (step a i)) (some a) = some (ls.foldl (fun a i => step a i ((g i).getD d)) a)
  | [], _, _ => rfl
  | i :: ls, a, h => by
    obtain ⟨r, hr⟩ := Option.ne_none_iff_exists'.1 (h i List.mem_cons_self)
    have := foldl_bind_some d ls (step a i r) fun j hj => h j (List.mem_cons_of_mem i hj)
    simpa only [List.foldl_cons, Option.bind_some, hr, Option.map_some, Option.getD_some] using this

theorem foldl_bind_none : ∀ (ls : List Nat) (o : Option α), (o = none ∨ ∃ i ∈ ls, g i = none) →
    ls.foldl (fun o i => o.bind fun a => (g i).map (step a i)) o = none
  | [], _, h => by simpa using h
  | i :: ls, o, h => by
    refine foldl_bind_none ls _ ?_
    rcases h with rfl | ⟨j, hj, hn⟩
    · exact .inl rfl
    · rcases List.mem_cons.1 hj with rfl | hj
      · exact .inl (by cases o <;> simp [hn])
      · exact .inr ⟨j, hj, hn⟩

end

/-- The conversion of element `i` of a legal control word (R151). -/
def CvtCtl.conv (c : CvtCtl) (m : RMode) (v : Vec) (i : Nat) : Option (Nat × Nat) :=
  convert c.src c.dst c.sat m (lane v c.src.width
    (if c.src.width < c.dst.width then c.part * (512 / max c.src.width c.dst.width) + i else i))
/-- The first destination element that a legal control word names (R151). -/
def CvtCtl.first (c : CvtCtl) : Nat := if c.dst.width < c.src.width then c.part * (512 / max c.src.width c.dst.width) else 0

theorem CvtCtl.first_add (c : CvtCtl) (i : Nat) :
    (if c.dst.width < c.src.width then c.part * (512 / max c.src.width c.dst.width) + i else i) = c.first + i := by
  rw [CvtCtl.first]; split <;> omega

section
variable (c : CvtCtl) (m : RMode) (v old : Vec) (act : List Nat)

theorem cvtElems_eq : cvtElems c m v old act = act.foldl (fun o i => o.bind fun a => (c.conv m v i).map fun r =>
    (setLane a.1 c.dst.width (c.first + i) r.1, a.2 ||| r.2)) (some (old, 0)) := by
  simp only [cvtElems, CvtCtl.first_add]
  rfl

/-- The destination with its active elements converted, and their flags, where each has a conversion. -/
theorem cvtElems_some (h : ∀ i ∈ act, c.conv m v i ≠ none) : cvtElems c m v old act = some (act.foldl (fun a i =>
    (setLane a.1 c.dst.width (c.first + i) ((c.conv m v i).getD (0, 0)).1, a.2 ||| ((c.conv m v i).getD (0, 0)).2)) (old, 0)) := by
  rw [cvtElems_eq]
  exact foldl_bind_some _ _ _ act (old, 0) h

theorem cvtElems_none (h : ∃ i ∈ act, c.conv m v i = none) : cvtElems c m v old act = none := by
  rw [cvtElems_eq]
  exact foldl_bind_none _ _ act _ (.inr h)

end

/-- The destination's elements after the active ones have been converted (R151). -/
theorem converted_lane (c : CvtCtl) (s : State) (old : Vec) (n : Nat) (mk : MReg) {r : Nat → Nat × Nat} {j : Nat}
    (hr : ∀ i, (r i).1 < 2 ^ c.dst.width) (hj : j < 512 / c.dst.width) :
    lane ((s.active n mk).foldl (fun a i => (setLane a.1 c.dst.width (c.first + i) (r i).1, a.2 ||| (r i).2)) (old, 0)).1 c.dst.width j =
      if c.first ≤ j ∧ j < c.first + n ∧ on s mk (j - c.first) then (r (j - c.first)).1 else lane old c.dst.width j := by
  have shifted : (s.active n mk).foldl (fun a i => (setLane a.1 c.dst.width (c.first + i) (r i).1, a.2 ||| (r i).2)) (old, 0) =
      ((s.active n mk).map (c.first + ·)).foldl (fun a k => (setLane a.1 c.dst.width k (r (k - c.first)).1, a.2 ||| (r (k - c.first)).2))
        (old, 0) := by
    rw [List.foldl_map]; simp only [Nat.add_sub_cancel_left]
  have mem : j ∈ (s.active n mk).map (c.first + ·) ↔ c.first ≤ j ∧ j < c.first + n ∧ on s mk (j - c.first) = true := by
    simp only [List.mem_map, mem_active]
    constructor
    · rintro ⟨i, ⟨hi, ho⟩, rfl⟩
      exact ⟨by omega, by omega, by rwa [Nat.add_sub_cancel_left]⟩
    · rintro ⟨h1, h2, ho⟩
      exact ⟨j - c.first, ⟨by omega, ho⟩, by omega⟩
  rw [shifted, lane, foldl_setLane c.dst.width (fun k => r (k - c.first)) hj]
  simp only [mem]
  split
  · exact Nat.mod_eq_of_lt (hr _)
  · rfl

section
variable {s : State} {d l : VReg} {imm : Word} {rnd : RSel} {mk : MReg} {k : CvtCtl}

theorem execVcvt_converts {v : Vec} {fl : Nat} (hk : cvtCtl imm = some k) (he : cvtElems k (s.rmode rnd) (s.getV l) (s.getV d)
    (s.active (512 / max k.src.width k.dst.width) mk) = some (v, fl)) :
    execVcvt d l imm rnd mk s = finish s (.ok ((putV s d v).flags fl)) := by
  rw [execVcvt, hk]; simp only [he]

theorem execVcvt_unlisted (hk : cvtCtl imm = none) : execVcvt d l imm rnd mk s = finish s (illegal s) := by
  rw [execVcvt, hk]

theorem execVcvt_unconverted (hk : cvtCtl imm = some k) (he : cvtElems k (s.rmode rnd) (s.getV l) (s.getV d)
    (s.active (512 / max k.src.width k.dst.width) mk) = none) : execVcvt d l imm rnd mk s = finish s (illegal s) := by
  rw [execVcvt, hk]; simp only [he]

end

end Sys2Proof.Machine

open Sys2Proof Sys2Proof.Machine Sys2Proof.Claim

/-- Settles O17: each lane is one operation of its format, and the flags of every operation are FSTAT flags. -/
theorem laneFloats : Obligations.LaneFloats := by
  unfold Obligations.LaneFloats
  intro s d l r sz rnd mk n m act
  refine ⟨fun g hg => ?_, fun hs i hi => ?_⟩
  · have hv : vfFmt sz = some g := by rcases hg with ⟨rfl, rfl⟩ | ⟨rfl, rfl⟩ <;> rfl
    intro bits num lanes
    refine ⟨?add, ?sub, ?mul, ?fma, ?min, ?max, ?rcp, ?rsq, ?exp2, ?red⟩
    case add =>
      show Completes (execVfadd d l r sz rnd mk s) _
      exact vecFlt2_completes hv fun x y => g.add_flags_lt ..
    case sub =>
      show Completes (execVfsub d l r sz rnd mk s) _
      exact vecFlt2_completes hv fun x y => g.add_flags_lt ..
    case mul =>
      show Completes (execVfmul d l r sz rnd mk s) _
      exact vecFlt2_completes hv fun x y => g.mul_flags_lt ..
    case fma =>
      show Completes (execVfma d l r sz rnd mk s) _
      exact vecFlt_completes hv (fun i => by rw [vfFmt_width hv]; rfl) fun i => g.fma_flags_lt ..
    case min =>
      show Completes (execVfmin d l r sz mk s) _
      exact vecFlt_completes hv (fun i => by rw [vfFmt_width hv]; rfl) fun i => g.minmax_flags_lt ..
    case max =>
      show Completes (execVfmax d l r sz mk s) _
      exact vecFlt_completes hv (fun i => by rw [vfFmt_width hv]; rfl) fun i => g.minmax_flags_lt ..
    case rcp =>
      show Completes (execVfrcp d l sz rnd mk s) _
      exact vecFlt1_completes hv fun x => g.rcp_flags_lt ..
    case rsq =>
      show Completes (execVfrsq d l sz rnd mk s) _
      exact vecFlt1_completes hv fun x => g.rsq_flags_lt ..
    case exp2 =>
      show Completes (execVfexp2 d l sz rnd mk s) _
      exact vecFlt1_completes hv fun x => g.exp2_flags_lt ..
    case red =>
      show Completes (execVfred d l sz rnd mk s) _
      have hsum : fredSum g m ((s.activeOf sz mk).map (lane (s.getV l) g.width)) = fredSum g m (act.map (bits l)) := by
        rw [vfFmt_width hv]; rfl
      rw [execVfred, hv]
      exact ⟨_, rfl, _, putLane0_writes s d (vfFmt_width hv) (congrArg (BitVec.ofNat _ ·.1) hsum) (congrArg Prod.snd hsum)
        (fredSum_flags_lt ..), rfl⟩
  · subst hs
    simp only [List.mem_cons, List.not_mem_nil, or_false] at hi
    rcases hi with rfl | rfl | rfl | rfl | rfl | rfl | rfl | rfl | rfl | rfl <;> exact finish_trap s .illegal none (some s.cx.chain)

/-- Settles O19, by the control words that are legal, and a fold of the active elements that fails where one of them does. -/
theorem conversions : Obligations.Conversions := by
  unfold Obligations.Conversions
  intro s d l imm rnd mk c sat part
  have traps {o : Out} (h : o = finish s (illegal s)) : Traps o s .illegal none (some s.cx.chain) :=
    h ▸ finish_trap s .illegal none (some s.cx.chain)
  refine ⟨fun src dst hsrc hdst => ?_, fun h => traps ?unlisted⟩
  case unlisted =>
    exact execVcvt_unlisted (cvtCtl_unlisted h)
  intro wf wt n legal si first conv
  let k : CvtCtl := ⟨src, dst, sat, part⟩
  refine ⟨fun hl hc => ?completes, fun h => traps ?illegal⟩
  case completes =>
    have gives (i : Nat) : ((conv i).getD (0, 0)).1 < 2 ^ wt ∧ ((conv i).getD (0, 0)).2 < 64 := by
      cases hi : conv i with
      | none => exact ⟨Nat.two_pow_pos _, by decide⟩
      | some r => exact convert_gives (fun g hg => cvFmt_sound _ (cvFmt_lt hdst) g (hg ▸ hdst)) sat (s.rmode rnd) _ r hi
    have runs := execVcvt_converts (rnd := rnd) (d := d) (cvtCtl_legal hsrc hdst hl)
      (cvtElems_some k (s.rmode rnd) (s.getV l) (s.getV d) (s.active n mk) fun i hi => hc i (mem_active.1 hi).1 (mem_active.1 hi).2)
    refine ⟨_, runs, _, ?writes, fun j hj => converted_lane k s (s.getV d) n mk (fun i => (gives i).1) hj⟩
    rw [← raised_eq (fun i => (gives i).2),
      ← foldl_flags (fun v i => setLane v wt (k.first + i) ((conv i).getD (0, 0)).1) _ _ (s.getV d, 0)]
    exact putV_writes s d _ _
  case illegal =>
    by_cases hl : legal
    · obtain ⟨i, hi, ho, hn⟩ := h.resolve_left (not_not.2 hl)
      exact execVcvt_unconverted (cvtCtl_legal hsrc hdst hl)
        (cvtElems_none k (s.rmode rnd) (s.getV l) (s.getV d) (s.active n mk) ⟨i, mem_active.2 ⟨hi, ho⟩, hn⟩)
    · exact execVcvt_unlisted (cvtCtl_excluded hsrc hdst hl)

end

section
/-! A vector store with no active lane, where a refusal of its own place and issue is recorded already (R138, R196). -/

namespace Sys2Proof.Machine

/-- The context at reset with a refusal recorded of an access from its place and its issue, and no lane of mask 1 active. -/
def refusedStore : State :=
  State.reset.onCx fun k => { k with engFaults := [{ cause := .poison, addr := some 0, val := k.pc, issue := k.firstId }] }

theorem refusedStore_refused : refusedStore.storeRefused = true := rfl

/-- No lane of it is active. -/
theorem refusedStore_inactive : (List.range (512 / VSize.bits .s32)).filter (Claim.on refusedStore 1) = [] := rfl

/-- Its VST with no active lane leaves no register pending. -/
theorem execVst_refusedStore : ∃ t, exec (.vst 0 0 1 .s32 0 1) refusedStore = .next t ∧ t.cx.pend = [] := ⟨_, rfl, rfl⟩

end Sys2Proof.Machine

open Sys2Proof Sys2Proof.Machine Sys2Proof.Claim

/-- Refutes O24: `refusedStore`. The statement makes the witness register of VST wait in every state; the model leaves it alone where
a refusal of the place and issue of the instruction stands among the context's engine faults. -/
theorem not_vectorStores : ¬ Obligations.VectorStores := by
  unfold Obligations.VectorStores
  intro h
  obtain ⟨stores, -⟩ := h refusedStore 0 0 0 1 .s32 0 1 fun _ => ⟨0, 0, 0, 0⟩
  rw [refusedStore_inactive] at stores
  obtain ⟨t, ht, sends⟩ := stores rfl fun j hj => absurd hj List.not_mem_nil
  obtain ⟨u, hu, none⟩ := execVst_refusedStore
  obtain rfl : u = t := Host.Outcome.next.inj (hu.symm.trans ht)
  have waits : u.cx.pend = waitsFor refusedStore 1 refusedStore.net.nextId (refusedStore.scope Option.none) false := by rw [sends]; rfl
  rw [none] at waits
  exact absurd waits (by decide)

end

section
/-! What a load of the running context reads (R138, R188, R200, R203, R221): the checks that it passes or fails, and the bytes at hand
in each class of page. -/

namespace Sys2Proof.Machine

open Claim

section
variable {s t : State} {va : Word} {n : Nat} {k : Kind} {l : Leaf} {cause : Cause} {val : Option Word} {bs : List Byte}

/-! ### Checks (R221) -/

theorem translate_of_holds (h : Holds s va l) : translate s s.cur s.who.oid va = .ok (l, s) := by
  obtain ⟨hlow, hheld⟩ := h
  obtain ⟨e, he, rfl⟩ := Option.map_eq_some_iff.1 hheld
  have held : tlbLookup (s.coreSt s.cur.core).tlb1 s.who.oid va = some e := he
  simp only [translate, tlbTranslate, tlbTried, if_neg (show ¬va.toNat ≥ 2 ^ 56 by omega), held]
  rfl

theorem translate_high (h : 2 ^ 56 ≤ va.toNat) : translate s s.cur s.who.oid va = .error ⟨.xlate, some va, some 0⟩ := by
  simp only [translate, tlbTranslate, tlbTried, if_pos (show va.toNat ≥ 2 ^ 56 from h)]
  rfl

/-- An access that fails a check traps with its cause, and the address is in TADDR. -/
theorem check_of_fails (hn : 0 < n) (h : Fails s va n k cause val) : s.check va n k = .error (.trap cause (some va) val) := by
  have aligned (h : va.toNat % n = 0) : (n != 0 && va.toNat % n != 0) = false := by simp [h]
  rw [State.check, Machine.check]
  rcases h with ⟨h, rfl, rfl⟩ | ⟨ha, high, rfl, rfl⟩ | ⟨ha, rfl, l, held, h⟩
  · rw [if_pos (by simp [h, hn.ne'])]; rfl
  · simp only [aligned ha, translate_high high]; rfl
  · simp only [aligned ha, translate_of_holds held]
    rcases h with ⟨hs, rfl⟩ | ⟨hs, hp, rfl⟩ | ⟨hs, hp, ⟨hc, rfl⟩ | ⟨hc, hw, hf, hanchor, rfl⟩⟩
    · simp only [hs]; rfl
    · simp only [hs, hp]; rfl
    · simp only [hs, hp]
      by_cases h5 : 5 ≤ l.cls.toNat
      · simp only [decide_eq_true h5]; rfl
      · obtain ⟨hw, hsm⟩ := hc.resolve_left h5
        have hsm : (l.cls != 2) = true := by simpa [clsSm] using hsm
        simp only [decide_eq_false h5, hw, hsm]; rfl
    · have hanchor : (entryAnchor l.entry != 0) = true := by simpa using hanchor
      simp only [hs, hp, hc, hw, hf, hanchor]; rfl

/-! ### What a read leaves of what was read ahead -/

/-- What the context has read ahead, and when its operands stood, are as they were (R203). -/
structure SameAhead (s t : State) : Prop where
  early : t.cx.early = s.cx.early
  ready : t.cx.ready = s.cx.ready
  tick : t.tick = s.tick

theorem SameAhead.refl (s : State) : SameAhead s s := ⟨rfl, rfl, rfl⟩
theorem SameAhead.trans {s t u : State} (h : SameAhead s t) (k : SameAhead t u) : SameAhead s u :=
  ⟨k.early.trans h.early, k.ready.trans h.ready, k.tick.trans h.tick⟩
theorem SameAhead.of_reads (h : Reads s t) (he : t.cx.early = s.cx.early) : SameAhead s t :=
  ⟨he, (congrArg Ctx.ready h.context :), (congrArg State.tick h.package :)⟩

theorem SameAhead.bytes (h : SameAhead s t) (va : Word) (n : Nat) (wit : Option Stamp) (bs : List Byte) :
    aheadBytes t.cx va n wit bs t.tick = aheadBytes s.cx va n wit bs s.tick := by
  simp only [aheadBytes, Ctx.sampled, h.early, h.ready, h.tick]

theorem aheadLine_other (h : l.cls ≠ clsCr) (wit : Option Stamp) : aheadLine s l va n wit = none := by
  have : (l.cls == clsCr) = false := by simpa using h
  rw [aheadLine, this]; rfl

/-- What a read of bytes of a page leaves: a read, with the context's own reads ahead and the sealed frames as they were. -/
structure ReadsBytes (s t : State) : Prop where
  reads : Reads s t
  ahead : SameAhead s t
  tags : t.home.sealTags = s.home.sealTags

theorem ReadsBytes.refl (s : State) : ReadsBytes s s := ⟨.refl s, .refl s, rfl⟩

theorem reachFor_reads (s : State) (c : CtxId) (oid owner line : Nat) (arrived : Option Bool) :
    Reads s (reachFor s c oid owner line arrived) := by
  unfold reachFor
  refine Reads.trans ?_ (touchHome_reads ..)
  repeat' split
  · exact .refl s
  · exact pass_reads ..
  · exact pass_reads ..

/-- An access to a line at its home, and its response. -/
theorem reachFor_readsBytes (s : State) (c : CtxId) (oid owner line idx : Nat) (arrived : Option Bool) :
    ReadsBytes s ((reachFor s c oid owner line arrived).heard true idx) :=
  have reads := (reachFor_reads s c oid owner line arrived).trans (heard_reads _ true idx)
  { reads := reads
    ahead := .of_reads reads (by show (reachFor s c oid owner line arrived).cx.early = _; rw [reachFor_cx])
    tags := by
      show (reachFor s c oid owner line arrived).home.sealTags = _
      unfold reachFor touchHome
      repeat' split
      all_goals rfl }

/-- A load reads what is at hand, or what it has read ahead. -/
theorem readNow_eq (hc : l.cls ≠ clsCr) {wit : Option Stamp} {na : Bool} (hr : readBytes s s.cur true false na l va n wit = .ok (bs, t))
    (ht : ReadsBytes s t) : readNow s na l va n wit =
      .ok (aheadBytes s.cx va n wit bs s.tick, t.onCx (·.dropEarly l.pa n)) := by
  have : (l.cls == clsCr) = false := by simpa using hc
  simp only [readNow, aheadLine_other hc, hr, bind, Except.bind, this, ht.ahead.bytes]
  rfl

/-! ### The bytes at hand -/

theorem readBytes_sm (hc : l.cls = clsSm) (hp : inWindow l.pa = false) (hm : marked s l.owner l.line = false) (wit : Option Stamp)
    (na : Bool) : readBytes s s.cur true false na l va n wit =
      .ok (seen s l.pa n, (reachHome s s.cur l.owner l.line).heard true (placeIdx s l.owner l.pa)) := by
  have hl : inLink l.pa = false := by rw [inWindow, Bool.or_eq_false_iff] at hp; exact hp.2
  simp only [readBytes, behindPort, hc, hm, hp, hl, seen, reachHome]
  rfl

theorem readBytes_repl (hc : l.cls = clsRepl) (hm : marked s l.owner (replicaPa l.pa s.dieNo / 128) = false) (na : Bool) :
    readBytes s s.cur true false na l va n none = .ok (
      if s.cx.staged then overlayStaged s.cx.staging l.pa (memRead s.mem (replicaPa l.pa s.dieNo) n)
        else memRead s.mem (replicaPa l.pa s.dieNo) n,
      (reachHome s s.cur l.owner (replicaPa l.pa s.dieNo / 128)).heard true
        (homeSlice s l.owner (replicaPa l.pa s.dieNo / 128))) := by
  have hm : marked s l.owner (replicaPa l.pa (dieOf s.cur.core) / 128) = false := hm
  simp only [readBytes, hc, Option.filter_none, hm, reachHome]
  rfl

theorem readBytes_cached (hc : l.cls = clsPriv ∨ l.cls = clsRo) (hm : marked s l.owner l.line = false) {wit : Option Stamp}
    {c : Copy} (hk : presentCopy s (.l1 s.coreNo) l.line wit = some c) (na : Bool) :
    readBytes s s.cur true false na l va n wit = .ok (lineBytes c.data (l.pa % 128) n, s) := by
  have hk : presentCopy s (.l1 s.cur.core) l.line wit = some c := hk
  have get : cachedGet s s.cur true false na l.owner l.line wit false = some (c.data, s) := by
    simp only [cachedGet, hm, Bool.false_eq_true, if_false, hk]
  have cls : (l.cls == clsPriv || l.cls == clsRo) = true := by simpa using hc
  simp only [readBytes, cls, Option.isSome_none, get]
  rfl

theorem readBytes_marked (hc : l.cls = clsPriv ∨ l.cls = clsRo ∨ l.cls = clsSm) (hm : marked s l.owner l.line = true)
    (wit : Option Stamp) (na : Bool) : readBytes s s.cur true false na l va n wit = trapAt .poison va := by
  rcases hc with h | h | h <;> simp only [readBytes, cachedGet, h, hm] <;> rfl

/-- An access is not in the way of the context's own before it where those on their way are loads of the same instruction (R138). -/
theorem busyWith_none (hc : l.cls ≠ clsCr) (hr : l.cls = clsRepl → ownRepl s s.cur l.pa n = none) (ha : AsideClear s l.pa n)
    (hf : ∀ f ∈ s.net.flight, f.ctx = s.cur → overlaps f.pa f.len l.pa n = true → f.isLoad = true ∧ f.first = s.cx.firstId) :
    busyWith s s.cur l va n = none := by
  have hcx : s.ctxOf s.cur = s.cx := if_pos rfl
  have hn : (s.net.flight.find? fun f => f.ctx == s.cur && overlaps f.pa f.len l.pa n &&
      !(f.isLoad && f.first == s.cx.firstId)) = none := by
    refine List.find?_eq_none.2 fun f h k => ?_
    simp only [Bool.and_eq_true, beq_iff_eq] at k
    obtain ⟨⟨own, touches⟩, other⟩ := k
    obtain ⟨load, first⟩ := hf f h own touches
    simp [load, first] at other
  have hcr : (l.cls == clsCr) = false := by simpa using hc
  simp only [busyWith, hcr, hcx, hn, ha, Bool.false_eq_true, if_false]
  split
  · rename_i repl
    rw [hr (by simpa using repl)]; rfl
  · rfl

/-- An access in its turn has none of the context's own before it. -/
theorem busyWith_inTurn (hc : l.cls ≠ clsCr) (hr : l.cls = clsRepl → ownRepl s s.cur l.pa n = none) (h : InTurn s l.pa n) :
    busyWith s s.cur l va n = none :=
  busyWith_none hc hr h.2 fun f hf own touches => absurd (List.find?_eq_none.1 h.1 f hf) (by simp [own, touches])

/-- The bytes that a page shows are those at hand of a load. -/
theorem readBytes_of_shows (h : Shows s l n none bs) (na : Bool) : l.cls ≠ clsCr ∧ busyWith s s.cur l va n = none ∧
    ∃ t, readBytes s s.cur true false na l va n none = .ok (bs, t) ∧ ReadsBytes s t := by
  rcases h with ⟨⟨hc, hp, hm, turn⟩, rfl⟩ | ⟨hc, turn, hm, c, hk, rfl⟩ | ⟨hc, hm, turn, own, -, rfl⟩
  · refine ⟨by rw [hc]; decide, busyWith_inTurn (by rw [hc]; decide) (fun k => absurd (hc.symm.trans k) (by decide)) turn,
      _, readBytes_sm hc hp hm none na, reachFor_readsBytes ..⟩
  · have hcr : l.cls ≠ clsCr := by rcases hc with h | h <;> rw [h] <;> decide
    have hrepl : l.cls ≠ clsRepl := by rcases hc with h | h <;> rw [h] <;> decide
    exact ⟨hcr, busyWith_inTurn hcr (fun k => absurd k hrepl) turn, _, readBytes_cached hc hm hk na, .refl s⟩
  · have hcr : l.cls ≠ clsCr := by rw [hc]; decide
    exact ⟨hcr, busyWith_inTurn hcr (fun _ => own) turn, _, readBytes_repl hc hm na, reachFor_readsBytes ..⟩

/-! ### Loads of what is at hand -/

section
variable {wit : Option Stamp} {na : Bool} {d : Option Dest} {r : List Byte × Nat} {e : Stop}

/-- What a load leaves after it has read: the seal of a free frame, and when it took effect. -/
def State.loaded (t : State) (l : Leaf) (tick : Nat) : State :=
  (t.sealFrame t.who l.entry l.pa).onCx fun k => { k with wrote := max k.wrote tick }

theorem loaded_reads (t : State) (l : Leaf) (tick : Nat) : Reads t (t.loaded l tick) :=
  (sealFrame_reads t t.who l.entry l.pa).trans ⟨rfl, rfl, rfl, rfl, fun _ => rfl, fun _ => rfl, fun _ => rfl⟩

theorem State.loaded_unsealed (t : State) (hu : entrySealed l.entry = false) (tick : Nat) :
    t.loaded l tick = t.onCx fun k => { k with wrote := max k.wrote tick } := by
  simp only [State.loaded, State.sealFrame, hu, Bool.false_eq_true, if_false]

theorem forgets_reads (t : State) (pa n : Nat) : Reads t (t.onCx (·.dropEarly pa n)) :=
  ⟨rfl, rfl, rfl, rfl, fun _ => rfl, fun _ => rfl, fun _ => rfl⟩

/-- A load that is not to take effect later. -/
theorem loadBytes_now (hk : s.check va n .r = .ok (l, s)) (hb : busyWith s s.cur l va n = none)
    (hr : readNow s na l va n wit = .ok (r, t)) (hd : (d.filter fun _ => s.cx.lag) = none) :
    loadBytes s va n wit na d = .ok (r.1, t.loaded l r.2) := by
  simp only [loadBytes, hk, bind, Except.bind, hb, hr, hd]
  rfl

/-- A load that is to take effect later. -/
theorem loadBytes_later {d : Dest} (hk : s.check va n .r = .ok (l, s)) (hb : busyWith s s.cur l va n = none)
    (hr : readNow s na l va n wit = .ok (r, t)) (hlag : s.cx.lag = true) (hu : entrySealed l.entry = false) :
    loadBytes s va n wit na (some d) =
      .ok (r.1, (s.onCx fun k => { k.dropEarly l.pa n with wrote := max k.wrote s.tick }).linger va l n wit na d) := by
  simp only [loadBytes, hk, bind, Except.bind, hb, hr, hlag, Option.filter, if_true, State.sealFrame, hu, Bool.false_eq_true, if_false]

theorem loadBytes_stops (hk : s.check va n .r = .ok (l, s)) (hb : busyWith s s.cur l va n = none)
    (hr : readNow s na l va n wit = .error e) : loadBytes s va n wit na d = .error e := by
  simp only [loadBytes, hk, bind, Except.bind, hb, hr]

theorem loadBytes_fails (hn : 0 < n) (h : Fails s va n .r cause val) :
    loadBytes s va n wit na d = .error (.trap cause (some va) val) := by
  rw [loadBytes, check_of_fails hn h]; rfl

/-- A load of a page that shows its bytes. -/
theorem loadBytes_shown (hr : Reaches s va n .r l) (hs : Shows s l n none bs) :
    ∃ t, loadBytes s va n none na = .ok (ahead s va n none bs, t) ∧ Reads s t := by
  obtain ⟨hc, hb, t, ht, leaves⟩ := readBytes_of_shows (va := va) hs na
  exact ⟨_, loadBytes_now hr.check hb (readNow_eq hc ht leaves) rfl, leaves.reads.trans ((forgets_reads ..).trans (loaded_reads ..))⟩

/-- A load of a marked line of a page that is read at its home or through the caches. -/
theorem loadBytes_marked (hr : Reaches s va n .r l) (hc : l.cls = clsPriv ∨ l.cls = clsRo ∨ l.cls = clsSm) (turn : InTurn s l.pa n)
    (hm : marked s l.owner l.line = true) : loadBytes s va n wit na d = .error (.trap .poison (some va) none) := by
  have hcr : l.cls ≠ clsCr := by rcases hc with h | h | h <;> rw [h] <;> decide
  have hrepl : l.cls ≠ clsRepl := by rcases hc with h | h | h <;> rw [h] <;> decide
  refine loadBytes_stops hr.check (busyWith_inTurn hcr (fun k => absurd k hrepl) turn) ?_
  rw [readNow, aheadLine_other hcr, readBytes_marked hc hm]
  rfl

end

end

end Sys2Proof.Machine
end

section
/-! JTAB (R132, R411): the entry that it reads from a page of each class, and where it goes. -/

namespace Sys2Proof.Machine

open Claim

/-! ### An element of a CR page (R173, R188) -/

/-- What a read of CR memory leaves: the scalar registers, the path signature and memory, and what is on its way but for its places
in the queues. -/
structure ReadsCr (s t : State) : Prop where
  x : t.cx.x = s.cx.x
  sig : t.cx.sig = s.cx.sig
  cur : t.cur = s.cur
  mem : t.mem = s.mem
  queues : QueuesPass s t

theorem ReadsCr.of_reads {s t : State} (h : Reads s t) : ReadsCr s t where
  x := (congrArg Ctx.x h.context :)
  sig := (congrArg Ctx.sig h.context :)
  cur := (congrArg State.cur h.package :)
  mem := (congrArg State.mem h.package :)
  queues := ⟨(congrArg State.net h.package :), h.flights⟩

theorem ReadsCr.trans {s t u : State} (h : ReadsCr s t) (k : ReadsCr t u) : ReadsCr s u where
  x := k.x.trans h.x
  sig := k.sig.trans h.sig
  cur := k.cur.trans h.cur
  mem := k.mem.trans h.mem
  queues := ⟨by rw [k.queues.1, h.queues.1], k.queues.2.trans h.queues.2⟩

section
variable {s t : State} {p : CrPlace} {l : Leaf} {va : Word}

theorem crSticky_readsCr (own : Bool) : ReadsCr s (crSticky s own p) := by
  unfold crSticky
  split <;> exact ⟨rfl, rfl, rfl, rfl, rfl, rfl⟩

/-- The sticky overflow bit is none of what was read ahead. -/
theorem crSticky_ahead (own : Bool) : SameAhead s (crSticky s own p) := by
  unfold crSticky
  split <;> exact ⟨rfl, rfl, rfl⟩

/-- An element of a CR line and its response. -/
theorem crReadElem_reads (i : Nat) (base : Option CrLine) : ∃ u,
    crReadElem s s.cur true p i base = (((lget {} (crOver s p (base.getD (crCombined s p))).elems i).value p).1, u) ∧
      ∀ idx, ReadsCr s (u.heard true idx) ∧ SameAhead s (u.heard true idx) := by
  have sticky (o : Bool) : ReadsCr s (if o then crSticky s true p else s) ∧ SameAhead s (if o then crSticky s true p else s) := by
    cases o with
    | true => exact ⟨crSticky_readsCr true, crSticky_ahead true⟩
    | false => exact ⟨.of_reads (.refl s), .refl s⟩
  obtain ⟨keeps, ahead⟩ := sticky ((lget {} (crOver s p (base.getD (crCombined s p))).elems i).value p).2
  refine ⟨_, rfl, fun idx => ?_⟩
  have reach := reachFor_readsBytes (if ((lget {} (crOver s p (base.getD (crCombined s p))).elems i).value p).2 then crSticky s true p else s)
    s.cur (s.ctxOf s.cur).fir.oid.toNat p.owner p.line idx none
  exact ⟨keeps.trans (.of_reads reach.reads), ahead.trans reach.ahead⟩

theorem busyWith_cr (hc : l.cls = clsCr) (h : ownClear s s.cur (crPlace l va) = none) : busyWith s s.cur l va 4 = none := by
  simp only [busyWith, hc, h]; rfl

theorem aheadLine_cr (hc : l.cls = clsCr) : aheadLine s l va 4 none = s.cx.sampledCr (crPlace l va).key := by
  rw [aheadLine, hc]; rfl

theorem readBytes_cr (hc : l.cls = clsCr) (na : Bool) : readBytes s s.cur true false na l va 4 none =
    if crMarked s (crPlace l va) then trapAt .poison va else
      let r := crReadElem s s.cur true (crPlace l va) (crElem va)
      .ok (leBytes 4 r.1, r.2.heard true (placeIdx r.2 (crPlace l va).owner (crPlace l va).key)) := by
  simp only [readBytes, hc, if_true]; rfl

theorem readNow_cr_marked (hc : l.cls = clsCr) (hm : crMarked s (crPlace l va) = true) (na : Bool) :
    readNow s na l va 4 none = trapAt .poison va := by
  rw [readNow, aheadLine_cr hc]
  cases s.cx.sampledCr (crPlace l va).key with
  | some r => simp only [hm, if_true]
  | none => rw [readBytes_cr hc, if_pos hm]; rfl

theorem readNow_cr (hc : l.cls = clsCr) (hm : crMarked s (crPlace l va) = false) (na : Bool) :
    ∃ tick t, readNow s na l va 4 none = .ok ((crBytesOf s l va, tick), t) ∧ ReadsCr s t := by
  have unmarked : ¬crMarked s (crPlace l va) = true := by simp [hm]
  rw [readNow, aheadLine_cr hc, crBytesOf]
  cases s.cx.sampledCr (crPlace l va).key with
  | some r =>
    obtain ⟨u, hu, leaves⟩ := crReadElem_reads (s := s) (p := crPlace l va) (crElem va) (some r.1)
    refine ⟨r.2, _, ?_, (leaves (placeIdx s (crPlace l va).owner (crPlace l va).key)).1⟩
    simp only [if_neg unmarked, hu]
    rfl
  | none =>
    obtain ⟨u, hu, leaves⟩ := crReadElem_reads (s := s) (p := crPlace l va) (crElem va) none
    obtain ⟨keeps, same⟩ := leaves (placeIdx u (crPlace l va).owner (crPlace l va).key)
    have forgets (t : State) (pa n : Nat) : ReadsCr t (t.onCx (·.dropEarly pa n)) := ⟨rfl, rfl, rfl, rfl, rfl, rfl⟩
    refine ⟨(aheadBytes s.cx va 4 none (leBytes 4 ((lget {} (crView s (crPlace l va)).elems (crElem va)).value (crPlace l va)).1) s.tick).2,
      _, ?_, keeps.trans (forgets _ (crPlace l va).key 4)⟩
    rw [readBytes_cr hc, if_neg unmarked]
    simp only [hu, hc, bind, Except.bind, same.bytes]
    rfl

/-- A load of an element of a CR page. -/
theorem loadBytes_cr (hr : Reaches s va 4 .r l) (hc : l.cls = clsCr) (turn : ownClear s s.cur (crPlace l va) = none)
    (hm : crMarked s (crPlace l va) = false) :
    ∃ t, loadBytes s va 4 none false = .ok (crBytesOf s l va, t) ∧ ReadsCr s t := by
  obtain ⟨tick, t, ht, leaves⟩ := readNow_cr hc hm false
  exact ⟨_, loadBytes_now hr.check (busyWith_cr hc turn) ht rfl, leaves.trans (.of_reads (loaded_reads ..))⟩

theorem loadBytes_cr_marked (hr : Reaches s va 4 .r l) (hc : l.cls = clsCr) (turn : ownClear s s.cur (crPlace l va) = none)
    (hm : crMarked s (crPlace l va) = true) : loadBytes s va 4 none false = .error (.trap .poison (some va) none) :=
  loadBytes_stops hr.check (busyWith_cr hc turn) (readNow_cr_marked hc hm false)

end

/-! ### Where JTAB goes -/

section
variable {s t : State} {a b : XReg} {len : Word} {bs : List Byte}

/-- The address of the entry that JTAB reads, and where an entry leads (R132). -/
def jtabEntry (s : State) (a b : XReg) : Word := s.getX b + 4 * s.getX a
def jtabDest (s : State) (b : XReg) (bs : List Byte) : Word := s.getX b + (BitVec.ofNat 32 (leNat bs)).signExtend 64

theorem execJtab_illegal (h : len.toNat = 0 ∨ 2 ^ 32 ≤ len.toNat) : execJtab a b len s = finish s (illegal s) := by
  have : (len = 0 || 2 ^ 32 ≤ len.toNat : Bool) = true := by
    simpa [← BitVec.toNat_inj] using h
  rw [execJtab, if_pos this]

theorem jtab_legal (hlo : 0 < len.toNat) (hhi : len.toNat < 2 ^ 32) : ¬(decide (len = 0) || decide (2 ^ 32 ≤ len.toNat)) = true := by
  simp [← BitVec.toNat_inj]; omega

/-- An index beyond the table falls through. -/
theorem execJtab_falls (hlo : 0 < len.toNat) (hhi : len.toNat < 2 ^ 32) (hi : len.toNat ≤ (s.getX a).toNat) :
    execJtab a b len s = .next (s.foldSig s.cur (s.cx.pc ^^^ rotl64 s.cx.npc 32)).advance := by
  rw [execJtab, if_neg (jtab_legal hlo hhi)]
  simp only [hi, if_true]

section
variable (hlo : 0 < len.toNat) (hhi : len.toNat < 2 ^ 32) (hi : (s.getX a).toNat < len.toNat)
include hlo hhi hi

/-- An index of the table reads its entry, and goes where it leads. -/
theorem execJtab_reads : execJtab a b len s = finish s (loadBytes s (jtabEntry s a b) 4 none false >>= fun r =>
    if (jtabDest s b r.1).getLsbD 0 then trapAt .align (jtabDest s b r.1)
    else .ok ((r.2.foldSig r.2.cur (s.cx.pc ^^^ rotl64 (jtabDest s b r.1) 32)).setPc (jtabDest s b r.1))) := by
  rw [execJtab, if_neg (jtab_legal hlo hhi)]
  simp only [Nat.not_le.2 hi, if_false, loadNat, jtabEntry]
  cases loadBytes s (s.getX b + 4 * s.getX a) 4 none false <;> rfl

theorem jtab_stops {cause : Cause} {addr val : Option Word}
    (h : loadBytes s (jtabEntry s a b) 4 none false = .error (.trap cause addr val)) : Traps (execJtab a b len s) s cause addr val := by
  rw [execJtab_reads hlo hhi hi, h]
  exact finish_trap ..

theorem jtab_odd (h : loadBytes s (jtabEntry s a b) 4 none false = .ok (bs, t)) (odd : (jtabDest s b bs).getLsbD 0 = true) :
    Traps (execJtab a b len s) s .align (some (jtabDest s b bs)) none := by
  rw [execJtab_reads hlo hhi hi, h]
  simp only [bind, Except.bind, odd, if_true]
  exact finish_trap ..

theorem jtab_even (h : loadBytes s (jtabEntry s a b) 4 none false = .ok (bs, t)) (even : (jtabDest s b bs).getLsbD 0 = false)
    (hsig : t.cx.sig = s.cx.sig) : execJtab a b len s = .next { t with cx := { t.cx with
      pc := jtabDest s b bs
      sig := rotl64 s.cx.sig 13 ^^^ (s.cx.pc ^^^ rotl64 (jtabDest s b bs) 32) } } := by
  rw [execJtab_reads hlo hhi hi, h]
  simp only [bind, Except.bind, even, Bool.false_eq_true, if_false, State.foldSig_cur, ← hsig]
  rfl

end

end

end Sys2Proof.Machine

open Sys2Proof Sys2Proof.Machine Sys2Proof.Claim

/-- Settles O25, by what the load of the entry gives in each class of page, and where the entry leads. -/
theorem jumpTable : Obligations.JumpTable := by
  unfold Obligations.JumpTable
  intro s a b len l bs va go destOf sig
  refine ⟨fun h => ?illegal, fun hlo hhi => ⟨fun hi => ?falls, fun hi => ⟨fun cause val h => ?fails, fun hr =>
    ⟨fun hc turn hm => ?marked, fun hc turn => ⟨fun hm => ?crMarked, fun hm => ?cr⟩, fun hs => ?shown⟩⟩⟩⟩
  case illegal =>
    show Traps (execJtab a b len s) _ _ _ _
    rw [execJtab_illegal h]
    exact finish_trap ..
  case falls =>
    refine ⟨_, execJtab_falls hlo hhi hi, ?_⟩
    rw [State.foldSig_cur]; rfl
  case fails => exact jtab_stops hlo hhi hi (loadBytes_fails (by decide) h)
  case marked => exact jtab_stops hlo hhi hi (loadBytes_marked hr hc turn hm)
  case crMarked => exact jtab_stops hlo hhi hi (loadBytes_cr_marked hr hc turn hm)
  case cr =>
    obtain ⟨t, ht, leaves⟩ := loadBytes_cr hr hc turn hm
    exact ⟨fun odd => jtab_odd hlo hhi hi ht odd, fun even => ⟨_, jtab_even hlo hhi hi ht even leaves.sig, rfl, rfl, leaves.x, leaves.mem,
      leaves.queues⟩⟩
  case shown =>
    obtain ⟨t, ht, leaves⟩ := loadBytes_shown (na := false) hr hs
    exact ⟨fun even => ⟨_, jtab_even hlo hhi hi ht even (congrArg Ctx.sig leaves.context :), t, leaves, rfl⟩,
      fun odd => jtab_odd hlo hhi hi ht odd⟩

end

section
/-! Vector loads (R138, R139, R203): each lane is a load of its own, which takes effect at once or, where the context's loads are to,
later. -/

namespace Sys2Proof.Machine

open Claim

/-! ### What a load gives (R202, R203) -/

section
variable {s : State} {va : Word} {n : Nat} {hand bs : List Byte}

theorem overlayBytes_length (pa : Nat) (bs : List Byte) (spa : Nat) (data : List Byte) :
    (overlayBytes pa bs spa data).length = bs.length := by rw [overlayBytes, List.length_mapIdx]

/-- Bytes laid over as many of the same address. -/
theorem overlayBytes_whole {bs data : List Byte} (h : data.length = bs.length) : overlayBytes 0 bs 0 data = data := by
  refine List.ext_getElem (by rw [overlayBytes_length, h]) fun i h1 h2 => ?_
  simp [overlayBytes, List.getElem?_eq_getElem h2]

theorem overlayStaged_length (pa : Nat) : ∀ (st : List Staged) (bs : List Byte), (overlayStaged st pa bs).length = bs.length
  | [], _ => rfl
  | e :: st, bs => by
    rw [overlayStaged, List.foldl_cons]
    refine (overlayStaged_length pa st _).trans ?_
    split
    · exact overlayBytes_length ..
    · exact overlayBytes_length ..
    · rfl

theorem seen_length (s : State) (pa n : Nat) : (seen s pa n).length = n := by
  rw [seen]
  split
  · rw [overlayStaged_length, memRead_length]
  · exact memRead_length ..

/-- A load of one unit gives what is at hand, or what the context has read ahead of it. -/
theorem ahead_gives (hpos : 0 < n) (h8 : n ≤ 8) (hl : hand.length = n) : Gives s va n hand (ahead s va n none hand) := by
  have unit : unitOf n = n := if_pos h8
  have one : n / max 1 n = 1 := by rw [Nat.max_eq_right hpos, Nat.div_self hpos]
  have zero : va + BitVec.ofNat 64 (n * 0) = va := by simp
  have gives : ahead s va n none hand = hand ∨
      ∃ e ∈ s.cx.early, e.va = va ∧ e.bytes.length = n ∧ s.cx.ready ≤ e.tick ∧ ahead s va n none hand = e.bytes := by
    by_cases he : s.cx.early = []
    · exact .inl (by rw [ahead, aheadBytes_none _ _ _ _ _ _ he])
    · have he : s.cx.early.isEmpty = false := by simpa using he
      simp only [ahead, aheadBytes, he, Option.isSome_none, Bool.or_self, Bool.false_eq_true, if_false, unit, one,
        List.range_one, List.foldl_cons, List.foldl_nil, zero]
      cases hs : s.cx.sampled va n with
      | none => exact .inl rfl
      | some e =>
        have found := List.find?_some hs
        simp only [Bool.and_eq_true, beq_iff_eq, decide_eq_true_eq] at found
        obtain ⟨⟨hva, hlen⟩, hready⟩ := found
        exact .inr ⟨e, List.mem_of_find?_eq_some hs, hva, hlen, hready, overlayBytes_whole (hlen.trans hl.symm)⟩
  have whole {b : List Byte} (h : b.length = n) : (b.drop (n * 0)).take n = b := by simp [← h]
  refine ⟨?_, fun i hi => ?_⟩
  · rcases gives with h | ⟨e, -, -, hlen, -, h⟩
    · rw [h]
    · rw [h, hlen, hl]
  · rw [unit, Nat.div_self hpos] at hi
    obtain rfl : i = 0 := by omega
    rw [unit, zero]
    rcases gives with h | ⟨e, he, hva, hlen, hready, h⟩
    · exact .inl (by rw [h])
    · exact .inr ⟨e, he, hva, hlen, hready, by rw [h]; exact whole hlen⟩

end

/-! ### Loads that take effect later (R203) -/

/-- A state in which more loads of the running context are on their way, each to a register of its own. -/
def State.lingers (s : State) (fs : List Flight) (ls : List LateLoad) : State :=
  { s with
    cx := { s.cx with late := s.cx.late ++ ls }
    net := { s.net with flight := s.net.flight ++ fs, nextId := s.net.nextId + fs.length } }

theorem State.lingers_nil (s : State) : s.lingers [] [] = s := by
  simp only [State.lingers, List.append_nil, List.length_nil, Nat.add_zero]

theorem State.lingers_lingers (s : State) (fs gs : List Flight) (ls ms : List LateLoad) :
    (s.lingers fs ls).lingers gs ms = s.lingers (fs ++ gs) (ls ++ ms) := by
  simp only [State.lingers, List.append_assoc, List.length_append, Nat.add_assoc]

/-- What some loads of one instruction leave, when it began in `s`: `u` is what their reads leave, and `fs` are on their way. -/
structure LoadsLanes (s u : State) (fs : List Flight) (ls : List LateLoad) : Prop where
  reads : Reads s u
  tags : u.home.sealTags = s.home.sealTags
  early : ∀ e ∈ u.cx.early, e ∈ s.cx.early
  own : ∀ f ∈ fs, f.isLoad = true ∧ f.ctx = s.cur ∧ f.first = s.cx.firstId
  now : s.cx.lag = false → fs = [] ∧ ls = []

theorem LoadsLanes.refl (s : State) : LoadsLanes s s [] [] :=
  ⟨.refl s, rfl, fun _ h => h, fun _ h => absurd h List.not_mem_nil, fun _ => ⟨rfl, rfl⟩⟩

theorem LoadsLanes.loads {s u : State} {fs : List Flight} {ls : List LateLoad} (h : LoadsLanes s u fs ls) : Loads s (u.lingers fs ls) :=
  ⟨u, fs, ls, h.reads, rfl, fun f hf => ⟨(h.own f hf).1, (h.own f hf).2.1⟩, h.now⟩

/-- One unit that is to be read later is one load more on its way. -/
theorem linger_one (s : State) (va : Word) (l : Leaf) {n : Nat} (hpos : 0 < n) (h8 : n ≤ 8) (wit : Option Stamp) (na : Bool) (d : Dest) :
    ∃ f x, s.linger va l n wit na d = s.lingers [f] [x] ∧ f.isLoad = true ∧ f.ctx = s.cur ∧ f.first = s.cx.firstId := by
  have unit : unitOf n = n := if_pos h8
  have one : n / max 1 n = 1 := by rw [Nat.max_eq_right hpos, Nat.div_self hpos]
  simp only [State.linger, unit, one, List.range_one, List.foldl_cons, List.foldl_nil]
  exact ⟨_, _, rfl, rfl, rfl, rfl⟩

section
variable {s u : State} {fs : List Flight} {ls : List LateLoad} {va : Word} {n : Nat} {l : Leaf}

theorem lingers_reaches (h : Reaches u va n .r l) : Reaches (u.lingers fs ls) va n .r l :=
  ⟨h.page, h.aligned, h.unsealed, h.allowed, h.known, h.window, h.anchor⟩

/-- The loads of one instruction are not in each other's way. -/
theorem LoadsLanes.busyWith (h : LoadsLanes s u fs ls) (ha : AtHome s l n) :
    busyWith (u.lingers fs ls) (u.lingers fs ls).cur l va n = none := by
  obtain ⟨hc, -, -, own, aside⟩ := AtHome.mono h.reads ha
  have cur : u.cur = s.cur := (congrArg State.cur h.reads.package :)
  have first : u.cx.firstId = s.cx.firstId := (congrArg Ctx.firstId h.reads.context :)
  refine busyWith_none (by rw [hc]; decide) (fun k => absurd (hc.symm.trans k) (by decide)) aside fun f hf mine touches => ?_
  rcases List.mem_append.1 hf with hf | hf
  · exact absurd (List.find?_eq_none.1 own f hf) (by simp [show f.ctx = u.cur from mine, touches])
  · obtain ⟨load, -, hfirst⟩ := h.own f hf
    exact ⟨load, hfirst.trans first.symm⟩

theorem seen_of_reads (h : Reads s u) (pa n : Nat) : seen u pa n = seen s pa n := by
  obtain ⟨-, -, -, -, -, -, -, -, -, -, mem, staged, staging, -⟩ := h.kept
  simp only [seen, mem, staged, staging]

/-- What a lane may have read ahead, it may have read ahead before the instruction began. -/
theorem LoadsLanes.gives (h : LoadsLanes s u fs ls) {hand bs : List Byte} (g : Gives (u.lingers fs ls) va n hand bs) :
    Gives s va n hand bs := by
  have ready : u.cx.ready = s.cx.ready := (congrArg Ctx.ready h.reads.context :)
  refine ⟨g.1, fun i hi => (g.2 i hi).imp_right ?_⟩
  rintro ⟨e, he, hva, hlen, hready, hb⟩
  exact ⟨e, h.early e he, hva, hlen, ready ▸ hready, hb⟩

/-- What a lane needs of the state in which it is loaded, and what it reads there. -/
structure LaneReads (s w : State) (va : Word) (n : Nat) (l : Leaf) (t : State) : Prop where
  checks : w.check va n .r = .ok (l, w)
  free : Machine.busyWith w w.cur l va n = none
  reads : readNow w false l va n none = .ok (aheadBytes w.cx va n none (seen w l.pa n) w.tick, t.onCx (·.dropEarly l.pa n))
  leaves : ReadsBytes w t
  gives : Gives s va n (seen s l.pa n) (ahead w va n none (seen w l.pa n))

theorem LoadsLanes.laneReads (h : LoadsLanes s u fs ls) (hr : Reaches s va n .r l) (ha : AtHome s l n) (hpos : 0 < n) (h8 : n ≤ 8) :
    ∃ t, LaneReads s (u.lingers fs ls) va n l t := by
  let w := u.lingers fs ls
  obtain ⟨hc, hp, hm, -⟩ := AtHome.mono h.reads ha
  have hcr : l.cls ≠ clsCr := by rw [hc]; decide
  have leaves := reachFor_readsBytes w w.cur (w.ctxOf w.cur).fir.oid.toNat l.owner l.line (placeIdx w l.owner l.pa) none
  have same : seen w l.pa n = seen s l.pa n := seen_of_reads h.reads l.pa n
  exact ⟨_, Reaches.check (lingers_reaches (Reaches.mono h.reads h.tags hr)), h.busyWith ha,
    readNow_eq hcr (readBytes_sm (s := w) hc hp hm none false) leaves, leaves,
    same ▸ h.gives (ahead_gives hpos h8 (seen_length w l.pa n))⟩

theorem dropEarly_early (k : Ctx) (pa n : Nat) : ∀ e ∈ (k.dropEarly pa n).early, e ∈ k.early := fun _ he => (List.mem_filter.1 he).1

/-- A lane of a load that takes effect at once. -/
theorem LoadsLanes.lane_now {t : State} (h : LoadsLanes s u [] []) (r : LaneReads s u va n l t) (hu : entrySealed l.entry = false)
    (hlag : s.cx.lag = false) (d : Dest) :
    ∃ v, loadBytes u va n none false (some d) = .ok (ahead u va n none (seen u l.pa n), v) ∧ LoadsLanes s v [] [] := by
  have lag : u.cx.lag = s.cx.lag := (congrArg Ctx.lag h.reads.context :)
  have loads := loadBytes_now (d := some d) r.checks r.free r.reads (by rw [lag, hlag]; rfl)
  rw [State.loaded_unsealed _ hu] at loads
  refine ⟨_, loads, h.reads.trans (r.leaves.reads.trans ((forgets_reads t l.pa n).trans ?wrote)), r.leaves.tags.trans h.tags,
    fun e he => h.early e (r.leaves.ahead.early ▸ dropEarly_early _ _ _ e he), h.own, h.now⟩
  case wrote => exact ⟨rfl, rfl, rfl, rfl, fun _ => rfl, fun _ => rfl, fun _ => rfl⟩

/-- A lane of a load that takes effect later. -/
theorem LoadsLanes.lane_later {t : State} (h : LoadsLanes s u fs ls) (r : LaneReads s (u.lingers fs ls) va n l t)
    (hu : entrySealed l.entry = false) (hlag : s.cx.lag = true) (hpos : 0 < n) (h8 : n ≤ 8) (d : Dest) :
    ∃ v gs ms, loadBytes (u.lingers fs ls) va n none false (some d) =
      .ok (ahead (u.lingers fs ls) va n none (seen (u.lingers fs ls) l.pa n), v.lingers gs ms) ∧ LoadsLanes s v gs ms := by
  have lag : u.cx.lag = s.cx.lag := (congrArg Ctx.lag h.reads.context :)
  have cur : u.cur = s.cur := (congrArg State.cur h.reads.package :)
  have first : u.cx.firstId = s.cx.firstId := (congrArg Ctx.firstId h.reads.context :)
  have loads := loadBytes_later (d := d) r.checks r.free r.reads (lag.trans hlag) hu
  let v := u.onCx fun k => { k.dropEarly l.pa n with wrote := max k.wrote u.tick }
  obtain ⟨f, x, hf, load, hctx, hfirst⟩ := linger_one (v.lingers fs ls) va l hpos h8 none false d
  rw [State.lingers_lingers] at hf
  refine ⟨v, fs ++ [f], ls ++ [x], by rw [← hf]; exact loads, h.reads.trans (ahead_reads ..), h.tags,
    fun e he => h.early e (dropEarly_early _ _ _ e he), fun g hg => ?own, fun k => absurd (hlag.symm.trans k) (by decide)⟩
  case own =>
    rcases List.mem_append.1 hg with hg | hg
    · exact h.own g hg
    · obtain rfl := List.mem_singleton.1 hg
      exact ⟨load, hctx.trans cur, hfirst.trans first⟩

/-- One lane of a vector load from its home. -/
theorem LoadsLanes.lane (h : LoadsLanes s u fs ls) (hr : Reaches s va n .r l) (ha : AtHome s l n) (hu : entrySealed l.entry = false)
    (hpos : 0 < n) (h8 : n ≤ 8) (d : Dest) : ∃ bs v gs ms,
      loadBytes (u.lingers fs ls) va n none false (some d) = .ok (bs, v.lingers gs ms) ∧ Gives s va n (seen s l.pa n) bs ∧ LoadsLanes s v gs ms := by
  obtain ⟨t, r⟩ := h.laneReads hr ha hpos h8
  cases hlag : s.cx.lag with
  | false =>
    obtain ⟨rfl, rfl⟩ := h.now hlag
    have gives := r.gives
    rw [State.lingers_nil] at r gives ⊢
    obtain ⟨v, loads, h⟩ := h.lane_now r hu hlag d
    exact ⟨_, v, [], [], v.lingers_nil.symm ▸ loads, gives, h⟩
  | true =>
    obtain ⟨v, gs, ms, loads, h⟩ := h.lane_later r hu hlag hpos h8 d
    exact ⟨_, v, gs, ms, loads, r.gives, h⟩

/-- The lanes of a vector load from their homes, in turn. -/
theorem LoadsLanes.lanes {a : VReg} {w : Nat} {addr : Nat → Word} {page : Nat → Leaf} (hpos : 0 < w / 8) (h8 : w / 8 ≤ 8) :
    ∀ (is : List Nat) {u : State} {fs : List Flight} {ls : List LateLoad} (old : Vec), is.Nodup → LoadsLanes s u fs ls →
      (∀ i ∈ is, Reaches s (addr i) (w / 8) .r (page i) ∧ AtHome s (page i) (w / 8) ∧ entrySealed (page i).entry = false) →
      ∃ (val : Nat → List Byte) (v : State) (gs : List Flight) (ms : List LateLoad),
        loadLanes a w addr is (u.lingers fs ls) old =
          .ok (is.foldl (fun v i => setLane v w i (leNat (val i))) old, v.lingers gs ms) ∧
        (∀ i ∈ is, Gives s (addr i) (w / 8) (seen s (page i).pa (w / 8)) (val i)) ∧ LoadsLanes s v gs ms
  | [], u, fs, ls, old, _, h, _ => ⟨fun _ => [], u, fs, ls, rfl, fun _ hi => absurd hi List.not_mem_nil, h⟩
  | i :: is, u, fs, ls, old, nodup, h, pages => by
    obtain ⟨fresh, nodup⟩ := List.nodup_cons.1 nodup
    obtain ⟨hr, ha, hu⟩ := pages i List.mem_cons_self
    obtain ⟨bs, v, gs, ms, load, gives, h⟩ := h.lane hr ha hu hpos h8 (.v a (i * (w / 8)) (w / 8))
    obtain ⟨val, v', gs', ms', loads, givesAll, h'⟩ := LoadsLanes.lanes (a := a) hpos h8 is (setLane old w i (leNat bs)) nodup h
      fun j hj => pages j (List.mem_cons_of_mem i hj)
    let all : Nat → List Byte := Function.update val i bs
    have here : all i = bs := Function.update_self ..
    have others : ∀ j ∈ is, all j = val j := fun j hj => Function.update_of_ne (fun e : j = i => fresh (e ▸ hj)) ..
    refine ⟨all, v', gs', ms', ?_, fun j hj => ?_, h'⟩
    · have fold : is.foldl (fun v j => setLane v w j (leNat (all j))) (setLane old w i (leNat bs)) =
          is.foldl (fun v j => setLane v w j (leNat (val j))) (setLane old w i (leNat bs)) :=
        List.foldl_ext _ _ _ fun v j hj => by rw [others j hj]
      simp only [loadLanes, loadNat, load, bind, Except.bind, loads, List.foldl_cons, here, fold]
    · rcases List.mem_cons.1 hj with rfl | hj
      · rw [here]; exact gives
      · rw [others j hj]; exact givesAll j hj

end

/-! ### Vector loads -/

theorem putLate_writes (u : State) (a : VReg) (w : Vec) : WritesV u (putLate u (putV u a w)) a w 0 where
  value := (putV_writes_quiet u a w).value
  others := (putV_writes_quiet u a w).others
  flags := (putV_writes_quiet u a w).flags
  late _ h := (List.mem_filter.1 h).1
  stays x h hx := List.mem_filter.2 ⟨h, by simp [(putV_writes_quiet u a w).stays x h hx]⟩
  next := rfl
  rest := rfl

theorem bits_div_eight (sz : VSize) : 0 < VSize.bits sz / 8 ∧ VSize.bits sz / 8 ≤ 8 := by cases sz <;> decide

/-- A vector load of the active lanes from their homes. -/
theorem vecLoad_loads {s : State} {a : VReg} {sz : VSize} {mk : MReg} {addr : Nat → Word} {page : Nat → Leaf}
    (pages : ∀ j < 512 / VSize.bits sz, on s mk j → Reaches s (addr j) (VSize.bits sz / 8) .r (page j) ∧
      AtHome s (page j) (VSize.bits sz / 8) ∧ entrySealed (page j).entry = false) :
    ∃ val : Nat → List Byte,
      (∀ j < 512 / VSize.bits sz, on s mk j →
        Gives s (addr j) (VSize.bits sz / 8) (seen s (page j).pa (VSize.bits sz / 8)) (val j)) ∧
      Completes (vecLoad a sz mk addr s) fun t => ∃ u, Loads s u ∧
        WritesLanes u t a sz mk (fun j => BitVec.ofNat _ (leNat (val j))) fun _ => 0 := by
  obtain ⟨hpos, h8⟩ := bits_div_eight sz
  obtain ⟨val, v, fs, ls, loads, gives, h⟩ := LoadsLanes.lanes (a := a) hpos h8 (s.activeOf sz mk) (s.getV a)
    (List.nodup_range.filter _) (.refl s) fun i hi => pages i (mem_active.1 hi).1 (mem_active.1 hi).2
  rw [State.lingers_nil] at loads
  refine ⟨val, fun j hj ho => gives j (mem_active.2 ⟨hj, ho⟩), _, by rw [vecLoad, loads]; rfl, v.lingers fs ls, h.loads, ?_⟩
  have hget : (v.lingers fs ls).getV a = s.getV a := congrArg (·.get a.toFin) (congrArg Ctx.v h.reads.context :)
  have hm : (v.lingers fs ls).getM mk = s.getM mk := by
    have masks : v.cx.m = s.cx.m := (congrArg Ctx.m h.reads.context :)
    show v.cx.getM mk = s.cx.getM mk
    rw [Ctx.getM, Ctx.getM, masks]
  refine ⟨_, raised_zero .. ▸ putLate_writes (v.lingers fs ls) a _, fun i hi => ?_⟩
  rw [on, hm, hget, el, foldl_lanes (VSize.bits sz) (fun i => leNat (val i)) hi]
  simp only [State.activeOf, VSize.lanes, mem_active, hi, true_and]
  rfl

/-- The address of a lane of VGATH (R139). -/
theorem indexAddr_eq (base : Word) (v : Vec) (sz : VSize) (j : Nat) : indexAddr base v (VSize.bits sz) j =
    base + (el sz v j).signExtend 64 * BitVec.ofNat 64 (VSize.bits sz / 8) := by
  rw [indexAddr, BitVec.ofInt_mul, BitVec.ofInt_natCast]
  rfl

end Sys2Proof.Machine

open Sys2Proof Sys2Proof.Machine Sys2Proof.Claim

/-- Settles O23, by induction on the active lanes: each load leaves what the next one needs. -/
theorem vectorLoads : Obligations.VectorLoads := by
  unfold Obligations.VectorLoads
  intro s a ix b c sz imm mk l n base loads
  refine ⟨fun h => vecLoad_loads h, fun h => vecLoad_loads h, fun h => ?gath⟩
  case gath =>
    have lanes : exec (.vgath a b ix sz imm mk) s =
        vecLoad a sz mk (fun j => base + (el sz (s.getV ix) j).signExtend 64 * BitVec.ofNat 64 n) s :=
      congrArg (vecLoad a sz mk · s) (funext fun j => indexAddr_eq base (s.getV ix) sz j)
    rw [lanes]
    exact vecLoad_loads h

end

section
/-! WMAX (R192, R194, R227): what the merge of two witnesses is. -/

namespace Sys2Proof.Machine

/-- A witness is well-formed (R192). -/
theorem witMalformed_eq_false {w : Word} : witMalformed w = false ↔ w.extractLsb' 48 12 = 0 ∧ (w.extractLsb' 60 3).toNat ≤ 4 := by
  simp only [witMalformed, Bool.or_eq_false_iff, bne_eq_false_iff_eq, decide_eq_false_iff_not, Nat.not_le]
  exact and_congr_right fun _ => Nat.lt_succ_iff

theorem checkWitness_ok {w : Word} (h : witMalformed w = false) : checkWitness w = .ok () := if_neg (by simp [h])
theorem checkWitness_error {w : Word} (h : witMalformed w = true) : checkWitness w = trapNow .witmal := if_pos h

/-- A live witness is the sum of its bit 63, its scope and its stamp (R191). -/
theorem live_witness_toNat (sc : BitVec 3) (st : Stamp) :
    ((1 : BitVec 1) ++ sc ++ (0 : BitVec 12) ++ st : Word) = BitVec.ofNat 64 (2 ^ 63 + sc.toNat * 2 ^ 60 + st.toNat) := by
  apply BitVec.eq_of_toNat_eq
  have := sc.isLt
  have := st.isLt
  simp only [BitVec.toNat_append, BitVec.toNat_ofNat, show (1 : BitVec 1).toNat = 1 from rfl, show (0 : BitVec 12).toNat = 0 from rfl]
  rw [← Nat.shiftLeft_add_eq_or_of_lt (by omega), ← Nat.shiftLeft_add_eq_or_of_lt (by omega), ← Nat.shiftLeft_add_eq_or_of_lt (by omega)]
  simp only [Nat.shiftLeft_eq]
  omega

/-- The merge of two live witnesses has the lesser scope and the later stamp (R194). -/
theorem witnessMax_live {a b : Word} (ha : a.getLsbD 63 = true) (hb : b.getLsbD 63 = true) : witnessMax a b =
    BitVec.ofNat 64 (2 ^ 63 + min (a.extractLsb' 60 3).toNat (b.extractLsb' 60 3).toNat * 2 ^ 60 +
      (laterOf (a.setWidth 48) (b.setWidth 48)).toNat) := by
  simp only [witnessMax, ha, hb, Bool.not_true, Bool.false_and, Bool.false_eq_true, if_false, live_witness_toNat]
  rw [apply_ite BitVec.toNat, Nat.min_def]

end Sys2Proof.Machine

open Sys2Proof Sys2Proof.Machine Sys2Proof.Claim

/-- Settles O6, by which of the two witnesses are live. -/
theorem witnessMerge : Obligations.WitnessMerge := by
  unfold Obligations.WitnessMerge
  intro s d l r a b ok live gap
  refine ⟨fun ha hb => ?merges, fun h => ?malformed⟩
  case merges =>
    have runs (w : Word) (h : witnessMax a b = w) : Completes (exec (.wmax d l r) s) fun t => WritesX s t d w := by
      refine ⟨putX s d w, ?_, putX_writes s d w⟩
      show execWmax d l r s = _
      rw [execWmax, checkWitness_ok (witMalformed_eq_false.2 ha), checkWitness_ok (witMalformed_eq_false.2 hb), ← h]
      rfl
    refine ⟨fun na nb => runs _ ?_, fun na lb => runs _ ?_, fun la nb => runs _ ?_, fun la lb => runs _ ?_⟩
    · simp only [witnessMax, Bool.not_eq_true _ ▸ na, Bool.not_eq_true _ ▸ nb]; rfl
    · simp only [witnessMax, Bool.not_eq_true _ ▸ na, show b.getLsbD 63 = true from lb]; rfl
    · simp only [witnessMax, show a.getLsbD 63 = true from la, Bool.not_eq_true _ ▸ nb]; rfl
    · rw [witnessMax_live la lb, laterOf]
      simp only [after, Bool.and_eq_true, decide_eq_true_eq]
      rfl
  case malformed =>
    show Traps (execWmax d l r s) _ _ _ _
    have stops : execWmax d l r s = finish s (.error (.trap .witmal none none)) := by
      by_cases ha : witMalformed a = true
      · rw [execWmax, checkWitness_error ha]; rfl
      · have hb : witMalformed b = true := by
          refine of_not_not fun hb => h ⟨witMalformed_eq_false.1 (eq_false_of_ne_true ha), witMalformed_eq_false.1 (eq_false_of_ne_true hb)⟩
        rw [execWmax, checkWitness_ok (eq_false_of_ne_true ha), checkWitness_error hb]; rfl
    rw [stops]
    exact finish_trap ..

end

section
/-! Stores (R189, R196, R215, R225): what the checks, the launch and the witness register of a store leave. -/

namespace Sys2Proof.Machine

open Claim

section
variable {s : State} {va : Word} {n : Nat} {l : Leaf}

/-! ### What stands before a store is made -/

theorem leBytes_toNat (n : Nat) (w : Word) : leBytes n w.toNat = (List.range n).map fun i => w.extractLsb' (8 * i) 8 := by
  suffices h : ∀ n k, leBytes n (w.toNat / 256 ^ k) = (List.range n).map fun i => w.extractLsb' (8 * (k + i)) 8 by
    have := h n 0
    simpa using this
  intro n
  induction n with
  | zero => exact fun _ => rfl
  | succ n ih =>
    intro k
    have first : BitVec.ofNat 8 (w.toNat / 256 ^ k) = w.extractLsb' (8 * (k + 0)) 8 := by
      rw [BitVec.extractLsb', Nat.add_zero, Nat.shiftRight_eq_div_pow, Nat.pow_mul]
    have rest := ih (k + 1)
    rw [Nat.pow_succ, ← Nat.div_div_eq_div_mul] at rest
    rw [leBytes, List.range_succ_eq_map, List.map_cons, List.map_map, first, rest]
    exact congrArg _ (List.map_congr_left fun i _ => by rw [Function.comp_apply, Nat.add_assoc, Nat.add_comm 1])

/-- The state in which a store whose checks have passed is made: a free frame is sealed, and what was read ahead of the bytes is
forgotten. -/
def State.stored (s : State) (l : Leaf) (n : Nat) : State := (s.sealLeaf s.who l).onCx (·.dropEarly l.pa n)

theorem State.sealLeaf_eq (s : State) (w : Who) (l : Leaf) :
    s.sealLeaf w l = { s with home := { s.home with sealTags := (s.sealLeaf w l).home.sealTags } } := by
  unfold State.sealLeaf State.sealFrame
  split
  · rfl
  · split <;> rfl

theorem State.stored_eq (s : State) (l : Leaf) (n : Nat) : s.stored l n =
    { s with cx := s.cx.dropEarly l.pa n, home := { s.home with sealTags := (s.stored l n).home.sealTags } } := by
  rw [State.stored, State.sealLeaf_eq]; rfl

/-- The route of an access depends only on the wires and the seeds that spread the lines. -/
theorem portsTo_congr {s t : State} (hd : t.dev = s.dev) (a b : Nat) : portsTo t a b = portsTo s a b := by
  suffices h : ∀ n a, portsOn t b n a = portsOn s b n a from h 9 a
  intro n
  induction n with
  | zero => exact fun _ => rfl
  | succ n ih => intro a; simp only [portsOn, portTo, hd, ih]

theorem pathTo_congr {s t : State} (hd : t.dev = s.dev) (ho : t.owners = s.owners) (c : CtxId) (owner pa : Nat) :
    pathTo t c owner pa = pathTo s c owner pa := by
  simp only [pathTo, homePath, portsTo_congr hd, sliceKey, homeSlice, State.ownerSt, ho]

/-- Two states that an access of the running context leaves in the same way. -/
structure SameLaunch (s t : State) : Prop where
  place : t.cur = s.cur
  dev : t.dev = s.dev
  owners : t.owners = s.owners
  time : t.tick = s.tick ∧ t.now = s.now
  context : t.cx.firstId = s.cx.firstId ∧ t.cx.pc = s.cx.pc ∧ t.cx.evIdx = s.cx.evIdx ∧ t.cx.fir.oid = s.cx.fir.oid

theorem flightOf_congr {t : State} (h : SameLaunch s t) (id : Nat) (kind : FlightKind) (va : Word) (l : Leaf) (sc : Scope) (e : Bool) :
    flightOf t id kind va l sc e = flightOf s id kind va l sc e := by
  obtain ⟨hc, hd, ho, ⟨ht, hn⟩, hf, hp, he, hi⟩ := h
  simp only [flightOf, State.oid, hc, hd, ht, hn, hf, hp, he, hi, pathTo_congr hd ho, portsTo_congr hd]

/-- An access that is no load joins the flights, and what was read ahead of its bytes is forgotten (R189, R203). -/
theorem launch_eq {kind : FlightKind} (hk : ∀ e lv n na near, kind ≠ .load e lv n na near) (va : Word) (l : Leaf) (sc : Scope) (e : Bool) :
    s.launch kind va l sc 0 e = { s with
      cx := s.cx.dropEarly l.pa kind.len
      net := { s.net with flight := s.net.flight ++ [flightOf s s.net.nextId kind va l sc e], nextId := s.net.nextId + 1 } } := by
  cases kind with
  | load e lv n na near => exact absurd rfl (hk e lv n na near)
  | pclr cls crp => cases crp <;> rfl
  | _ => rfl

/-! ### One store -/

section
variable {bs : List Byte} {sc : Scope} {na : Bool}

theorem storeCheck_ok (h : Reaches s va n .w l) (hro : l.cls ≠ clsRo) (hcr : l.cls ≠ clsCr) :
    storeCheck s va n = .ok (l, s.sealLeaf s.who l) := by
  simp only [storeCheck, h.check, bind, Except.bind, beq_eq_false_iff_ne.2 hro, beq_eq_false_iff_ne.2 hcr, Bool.false_eq_true, if_false]

/-- No access of the context to the bytes comes before a store of a page that is neither PRIV nor staged, or none is on its way
(R203). -/
theorem awaits_none (ha : AsideClear s l.pa n) (hn : bs.length = n)
    (h : ownFlight s s.cur l.pa n = none ∨ (l.cls ≠ clsPriv ∧ s.cx.staged = false)) :
    Put.awaits (s.sealLeaf s.who l) ⟨va, l, bs⟩ = none := by
  subst hn
  rw [State.sealLeaf_eq]
  show (if (s.cx.aside.any fun a => a.touch.any fun t => overlaps t.1 t.2 l.pa bs.length) = true then some Wait.aside
    else ((ownFlight s s.cur l.pa bs.length).filter fun _ => l.cls == clsPriv || s.cx.staged).map Flight.awaited) = none
  rw [if_neg (by rw [ha]; decide)]
  rcases h with h | ⟨hp, hs⟩
  · rw [h]; rfl
  · simp [beq_eq_false_iff_ne.2 hp, hs]

/-- A store that is not staged is made (R225). -/
theorem storeOne_made (hn : bs.length = n) (ha : Put.awaits (s.sealLeaf s.who l) ⟨va, l, bs⟩ = none)
    (h : l.cls = clsPriv ∨ s.cx.staged = false) :
    storeOne (s.sealLeaf s.who l) va l bs sc na = .ok (putBytes (s.stored l n) va l bs sc na) := by
  subst hn
  have direct : ((s.stored l bs.length).cx.staged && !([(⟨va, l, bs⟩ : Put)].filterMap Put.staged).isEmpty) = false := by
    have staged : (s.stored l bs.length).cx.staged = s.cx.staged := by rw [State.stored_eq]; rfl
    rcases h with h | h
    · simp [Put.staged, h]
    · simp [staged, h]
  simp only [State.stored] at direct
  simp only [storeOne, storeAll, List.findSome?_cons, ha, List.findSome?_nil, List.foldl_cons, List.foldl_nil, direct,
    Bool.false_eq_true, if_false, State.stored]

/-- A store of an SM or REPL page inside an unexposed recoverable firing is staged where the staging has room (R215, R292). -/
theorem storeOne_staged (hn : bs.length = n) (ha : Put.awaits (s.sealLeaf s.who l) ⟨va, l, bs⟩ = none)
    (hc : l.cls ≠ clsPriv) (hs : s.cx.staged = true) {st : List Staged}
    (hst : st = s.cx.staging ++ [Staged.store va l.pa l.cls l.owner bs])
    (room : stagingNeed (s.stored l n) st [] ≤ stagingLimit)
    (backed : stagingNeed (s.stored l n) st [] ≤ stagingNeed (s.stored l n) s.cx.staging [] ∨
      backingOk (s.stored l n) (stagingNeed (s.stored l n) st []) = true) :
    storeOne (s.sealLeaf s.who l) va l bs sc na = .ok ((s.stored l n).onCx fun k => { k with staging := st }) := by
  subst hn
  have staged : (s.stored l bs.length).cx.staged = true := by rw [State.stored_eq]; exact hs
  have staging : (s.stored l bs.length).cx.staging = s.cx.staging := by rw [State.stored_eq]; rfl
  have entry : [(⟨va, l, bs⟩ : Put)].filterMap Put.staged = [Staged.store va l.pa l.cls l.owner bs] := by
    simp [Put.staged, hc]
  have put : stagePut (s.stored l bs.length) st = .ok (some ((s.stored l bs.length).onCx fun k => { k with staging := st })) := by
    have open_ : (decide (stagingNeed (s.stored l bs.length) s.cx.staging [] < stagingNeed (s.stored l bs.length) st []) &&
        !backingOk (s.stored l bs.length) (stagingNeed (s.stored l bs.length) st [])) = false := by
      rcases backed with h | h
      · simp [Nat.not_lt.2 h]
      · simp [h]
    simp only [stagePut, staging, if_neg (Nat.not_lt.2 room), open_, Bool.false_eq_true, if_false]
  simp only [State.stored] at staged staging put
  simp only [storeOne, storeAll, List.findSome?_cons, ha, List.findSome?_nil, List.foldl_cons, List.foldl_nil, entry, staged,
    List.isEmpty_cons, Bool.not_false, Bool.and_true, if_true, addStaged, staging, ← hst, put, bind, Except.bind, State.stored]
  simp [Put.staged, hc]

end

/-- ST whose checks have passed ends with its witness register (R196, R198, R226). -/
theorem execSt_ends {a b c : XReg} {sz : Size} {imm : Word} {sc : Option Scope} {na : Bool} {t : State}
    (h : Reaches s (s.getX b + imm) (Size.bits sz / 8) .w l) (hro : l.cls ≠ clsRo) (hcr : l.cls ≠ clsCr)
    (ht : storeOne (s.sealLeaf s.who l) (s.getX b + imm) l
      ((List.range (Size.bits sz / 8)).map fun i => (s.getX a).extractLsb' (8 * i) 8) (s.scope sc) na = .ok t) :
    exec (.st a b c sz imm sc na) s = .next (if l.cls == clsPriv && t.storeRefused then t
      else t.storeWitness c (s.scope sc) (l.cls != clsPriv)).advance := by
  show execSt a b c sz imm sc na s = _
  simp only [execSt, storeBytes, State.addr, leBytes_toNat, List.length_map, List.length_range, storeCheck_ok h hro hcr, bind, Except.bind, ht]
  rfl

/-! ### A store to a PRIV line that the L1 holds (R197, R203, R206) -/

theorem findCopy_at {a : CacheId} {line : Nat} {k : Copy} (h : findCopy s a line = some k) : k.at_ = a ∧ k.line = line := by
  have := List.find?_some h
  simpa using this

theorem findCopy_putCopy (s : State) (k : Copy) : findCopy (s.putCopy k) k.at_ k.line = some k := by
  have others : (s.home.copies.filter fun d => !(d.at_ == k.at_ && d.line == k.line)).find? (fun c => c.at_ == k.at_ && c.line == k.line) = none :=
    List.find?_eq_none.2 fun d hd => by
      simpa only [Bool.not_eq_true, Bool.not_eq_true'] using (List.mem_filter.1 hd).2
  simp only [findCopy, State.putCopy, State.onHome, List.find?_append, others]
  simp

/-- A dirty copy stays where a line comes to be held by one context alone (R206). -/
theorem findCopy_heldAlone {a : CacheId} {line : Nat} {k : Copy} (h : findCopy s a line = some k) (hd : k.dirty = true) (c : CtxId) (m : Nat) :
    findCopy (s.heldAlone c m) a line = some k := by
  obtain ⟨hk, before, rest, hl, hb⟩ := List.find?_eq_some_iff_append.1 h
  simp only [findCopy, State.heldAlone, State.onHome]
  rw [hl, List.filter_append, List.find?_append, List.find?_eq_none.2 fun d hd => by
    simpa only [Bool.not_eq_true, Bool.not_eq_true'] using hb d (List.mem_filter.1 hd).1, List.filter_cons_of_pos (by simp [hd])]
  simp only [List.find?_cons, hk, Option.none_or]

/-- A PRIV line's copy in the running context's L1 as a store of the context leaves it (R197, R206). -/
def Copy.written (k : Copy) (c : CtxId) (va : Word) (pa : Nat) (bs : List Byte) : Copy :=
  { k with
    data := linePut k.data (pa % 128) bs
    dirty := true
    holder := some c
    va := va - BitVec.ofNat 64 (pa % 128)
    engine := false }

/-- The state after a store into the copy of the running context's L1. -/
def State.privStored (s : State) (va : Word) (pa : Nat) (bs : List Byte) (k : Copy) : State :=
  ((s.putCopy (k.written s.cur va pa bs)).heldAlone s.cur (pa / 128)).stampWrite s.cur (some s.net.nextId) k.fill

theorem putBytes_present {bs : List Byte} {sc : Scope} {na : Bool} {k : Copy} (hc : l.cls = clsPriv) (hlag : s.cx.lag = false)
    (hm : marked s l.owner l.line = false) (hk : presentCopy s (.l1 s.coreNo) l.line none = some k) :
    putBytes s va l bs sc na = s.privStored va l.pa bs k := by
  have hk' : presentCopy s (.l1 s.cur.core) (l.pa / 128) none = some k := hk
  have hm' : marked s l.owner (l.pa / 128) = false := hm
  simp only [putBytes, hc, hlag, beq_self_eq_true, Bool.and_false, Bool.false_eq_true, if_false, if_true, privStore, hm', hk']
  rfl

theorem privStored_findCopy {bs : List Byte} {a : CacheId} {line : Nat} {k : Copy} (h : findCopy s a line = some k) :
    findCopy (s.privStored va l.pa bs k) a line = some (k.written s.cur va l.pa bs) := by
  obtain ⟨rfl, rfl⟩ := findCopy_at h
  show findCopy (State.updCtx _ _ _) _ _ = _
  simp only [findCopy, State.updCtx_home]
  exact findCopy_heldAlone (findCopy_putCopy s (k.written s.cur va l.pa bs)) rfl s.cur (l.pa / 128)

/-- What a store into a copy leaves: every register and all of memory (R203). -/
theorem privStored_leaves (s : State) (va : Word) (pa : Nat) (bs : List Byte) (k : Copy) :
    (s.privStored va pa bs k).cx = { s.cx with runMax := (s.privStored va pa bs k).cx.runMax, pend := (s.privStored va pa bs k).cx.pend } ∧
    (s.privStored va pa bs k).mem = s.mem ∧ (s.privStored va pa bs k).net.nextId = s.net.nextId ∧
    (s.privStored va pa bs k).clusters = s.clusters := by
  have here : s.privStored va pa bs k = (((s.putCopy (k.written s.cur va pa bs)).heldAlone s.cur (pa / 128)).onNet _).onCx _ := if_pos rfl
  rw [here]
  exact ⟨rfl, rfl, rfl, rfl⟩

/-- A store to a PRIV page ends with its witness register pending, or with none where it was refused (R196, R226). -/
theorem priv_ends (u : State) (b : Bool) (r : XReg) (sc : Scope) : ∃ p,
    (if b && u.storeRefused then u else u.pendWitness r sc u.cx.staged).advance = { u with cx := { u.cx with pend := p, pc := u.cx.npc } } := by
  split
  · exact ⟨u.cx.pend, rfl⟩
  · by_cases h : r = 0
    · exact ⟨u.cx.pend, by rw [State.pendWitness, if_pos h]; rfl⟩
    · exact ⟨_, by rw [State.pendWitness, if_neg h]; rfl⟩

/-! ### A store on its way (R189, R196) -/

section
variable {kind : FlightKind} {sc : Scope}

theorem flightOf_stored (s : State) (l : Leaf) (n : Nat) (kind : FlightKind) (va : Word) (k : Leaf) (sc : Scope) (e : Bool) :
    flightOf (s.stored l n) (s.stored l n).net.nextId kind va k sc e = flightOf s s.net.nextId kind va k sc e := by
  rw [State.stored_eq]
  exact flightOf_congr ⟨rfl, rfl, rfl, ⟨rfl, rfl⟩, rfl, rfl, rfl, rfl⟩ ..

/-- An access that leaves with no witness register. -/
theorem launch_sends (hk : ∀ e lv n na near, kind ≠ .load e lv n na near) :
    Sends s ((s.stored l n).launch kind va l sc 0 false).advance [flightOf s s.net.nextId kind va l sc false] s.cx.pend := by
  rw [launch_eq hk, flightOf_stored, State.stored_eq]
  rfl

/-- An access that leaves, and a register that waits for its witness. -/
theorem launch_sends_witness (hk : ∀ e lv n na near, kind ≠ .load e lv n na near) (r : XReg) (null : Bool) :
    Sends s (((s.stored l n).launch kind va l sc 0 false).pendWitness r sc null).advance
      [flightOf s s.net.nextId kind va l sc false] (waitsFor s r (s.net.nextId + 1) sc null) := by
  by_cases h : r = 0
  · rw [State.pendWitness, waitsFor, if_pos h, if_pos h]
    exact launch_sends hk
  · rw [State.pendWitness, waitsFor, if_neg h, if_neg h, launch_eq hk, flightOf_stored, State.stored_eq]
    simp only [Sends, State.advance, State.setPc, State.onCx, Ctx.dropEarly, List.length_singleton]

end

end
end Sys2Proof.Machine

open Sys2Proof Sys2Proof.Machine Sys2Proof.Claim

/-- Settles O22, by the class of the page and whether the firing's stores are staged. -/
theorem stores : Obligations.Stores := by
  unfold Obligations.Stores
  intro s a b c sz imm sc na l va n bs st r go reaches clear
  have len : bs.length = n := by rw [List.length_map, List.length_range]
  have ends {t : State} (hro : l.cls ≠ clsRo) (hcr : l.cls ≠ clsCr) (ht : storeOne (s.sealLeaf s.who l) va l bs (s.scope sc) na = .ok t) :=
    execSt_ends (c := c) reaches hro hcr ht
  have shared (hc : l.cls = clsSm ∨ l.cls = clsRepl) : l.cls ≠ clsPriv ∧ l.cls ≠ clsRo ∧ l.cls ≠ clsCr := by
    rcases hc with h | h <;> rw [h] <;> decide
  have priv (hc : l.cls = clsPriv) : l.cls ≠ clsRo ∧ l.cls ≠ clsCr := by rw [hc]; decide
  refine ⟨fun hc hs => ?sent, fun hc hs turn room backed => ?staged, fun hc turn lag => ?later, fun k hc turn lag hm hk => ?now⟩
  case sent =>
    obtain ⟨hp, hro, hcr⟩ := shared hc
    have made := storeOne_made (sc := s.scope sc) (na := na) len (awaits_none (va := va) clear len (.inr ⟨hp, hs⟩)) (.inr hs)
    refine ⟨_, ends hro hcr made, ?_⟩
    have put : putBytes (s.stored l n) va l bs (s.scope sc) na =
        (s.stored l n).launch (if l.cls = clsSm then .store bs else .repl bs) va l (s.scope sc) 0 false := by
      rcases hc with h | h
      · simp only [putBytes, h]; rfl
      · simp only [putBytes, h]; rfl
    have staged : ((s.stored l n).launch (if l.cls = clsSm then .store bs else .repl bs) va l (s.scope sc) 0 false).cx.staged = false := by
      rw [launch_eq (by split <;> simp), State.stored_eq]; exact hs
    rw [put, beq_eq_false_iff_ne.2 hp, Bool.false_and, if_neg Bool.false_ne_true, State.storeWitness, staged]
    exact launch_sends_witness (by split <;> simp) c false
  case staged =>
    obtain ⟨hp, hro, hcr⟩ := shared hc
    have made := storeOne_staged (sc := s.scope sc) (na := na) len (awaits_none (va := va) clear len (.inl turn.1)) hp hs rfl room backed
    refine ⟨_, ends hro hcr made, (s.stored l n).onCx fun k => { k with staging := st }, ?_, ?_⟩
    · have staged : ((s.stored l n).onCx fun k => { k with staging := st }).cx.staged = true := by rw [State.stored_eq]; exact hs
      rw [beq_eq_false_iff_ne.2 hp, Bool.false_and, if_neg Bool.false_ne_true, State.storeWitness, staged, bne_iff_ne.2 hp]
      exact putX_writes ..
    · rw [State.stored_eq]; rfl
  case later =>
    obtain ⟨hro, hcr⟩ := priv hc
    have made := storeOne_made (sc := s.scope sc) (na := na) len (awaits_none (va := va) clear len (.inl turn.1)) (.inl hc)
    refine ⟨_, ends hro hcr made, ?_⟩
    have put : putBytes (s.stored l n) va l bs (s.scope sc) na = (s.stored l n).launch (.priv bs na) va l (s.scope sc) 0 false := by
      have lag' : (s.stored l n).cx.lag = true := by rw [State.stored_eq]; exact lag
      simp only [putBytes, hc, lag', beq_self_eq_true, Bool.and_self, if_true]
    have kept : ((s.stored l n).launch (.priv bs na) va l (s.scope sc) 0 false).storeRefused = s.storeRefused ∧
        ((s.stored l n).launch (.priv bs na) va l (s.scope sc) 0 false).cx.staged = s.cx.staged := by
      rw [launch_eq (kind := .priv bs na) (by simp), State.stored_eq]; exact ⟨rfl, rfl⟩
    rw [put, kept.1, hc, beq_self_eq_true, Bool.true_and]
    cases s.storeRefused with
    | true => exact launch_sends (kind := .priv bs na) (by simp)
    | false =>
      rw [State.storeWitness, kept.2, bne_self_eq_false, Bool.and_false]
      exact launch_sends_witness (kind := .priv bs na) (by simp) c s.cx.staged
  case now =>
    obtain ⟨hro, hcr⟩ := priv hc
    have made := storeOne_made (sc := s.scope sc) (na := na) len (awaits_none (va := va) clear len (.inl turn.1)) (.inl hc)
    have at_home : presentCopy (s.stored l n) (.l1 (s.stored l n).coreNo) l.line none = some k := by rw [State.stored_eq]; exact hk
    have put := putBytes_present (va := va) (bs := bs) (sc := s.scope sc) (na := na) hc (s := s.stored l n)
      (by rw [State.stored_eq]; exact lag) (by rw [State.stored_eq]; exact hm) at_home
    rw [put] at made
    obtain ⟨cx, mem, next, clusters⟩ := privStored_leaves (s.stored l n) va l.pa bs k
    have found := privStored_findCopy (va := va) (l := l) (bs := bs) (Option.filter_eq_some_iff.1 at_home).1
    obtain ⟨p, after⟩ := priv_ends ((s.stored l n).privStored va l.pa bs k) (l.cls == clsPriv) c (s.scope sc)
    refine ⟨_, ends hro hcr made, ?_⟩
    rw [hc] at after ⊢
    rw [State.storeWitness, bne_self_eq_false, Bool.and_false, if_neg Bool.false_ne_true, after]
    have kept : ((s.stored l n).privStored va l.pa bs k).cx = { s.cx with
        early := (s.stored l n).cx.early
        runMax := ((s.stored l n).privStored va l.pa bs k).cx.runMax
        pend := ((s.stored l n).privStored va l.pa bs k).cx.pend } := by
      rw [cx, State.stored_eq]; rfl
    have here : (s.stored l n).cur = s.cur := by rw [State.stored_eq]
    rw [State.coreNo, here] at found
    refine ⟨⟨k.written s.cur va l.pa bs, found, rfl, rfl, rfl⟩, ?_⟩
    refine ⟨(congrArg Ctx.x kept :), (congrArg Ctx.v kept :), (congrArg Ctx.m kept :), (congrArg Ctx.t kept :), (congrArg Ctx.crs kept :),
      (congrArg Ctx.npc kept :), ?_, ?_, ?_⟩
    · exact mem.trans (by rw [State.stored_eq])
    · exact next.trans (by rw [State.stored_eq])
    · exact clusters.trans (by rw [State.stored_eq])

end

section
/-! Atomics (R214, R229 to R233, R409, R411): their checks, and what leaves for the home. -/

namespace Sys2Proof.Machine

open Claim

section
variable {s : State} {va : Word} {n : Nat} {l : Leaf} {kind : FlightKind} {d : XReg} {sc : Scope}

/-! ### Exposing a firing, counting and recording -/

/-- The context of a firing that is exposed if it was not (R290). -/
def Ctx.exposing (k : Ctx) (early : List Sample) : Ctx :=
  { k with early := early, fir := { k.fir with exposed := k.fir.exposed || k.staged } }

/-- A firing that has staged nothing goes on exposed at once (R290). -/
theorem exposeAct_empty (h : s.cx.staged = true → s.cx.staging = []) : ∃ early, exposeAct s =
    .ok (s.onCx (·.exposing early)) := by
  cases hs : s.cx.staged with
  | false =>
    refine ⟨s.cx.early, ?_⟩
    simp only [exposeAct, expose, hs, Bool.false_and, Bool.false_eq_true, if_false, State.onCx, Ctx.exposing, Bool.or_false]
  | true =>
    have empty := h hs
    have committed : commitStaging s = s.onCx fun k => { k with staging := [], early := [] } := by
      simp only [commitStaging, empty]; rfl
    refine ⟨[], ?_⟩
    simp only [exposeAct, expose, hs, empty, committed, List.isEmpty_nil, Bool.not_true, Bool.and_false, Bool.false_eq_true, if_false,
      if_true, State.onCx, Ctx.exposing, Bool.or_true]

theorem State.countEv_cores (s : State) (c : CtxId) (code n oid launch : Nat) :
    s.countEv c code n oid launch = { s with cores := (s.countEv c code n oid launch).cores } := by
  obtain h | ⟨f, h⟩ := s.countEv_eq c code n oid launch <;> rw [h]; rfl

/-- A recorded event of the running context folds into its path signature and takes an index (R409, R411). -/
theorem recordEvent_cur (s : State) (kind : Nat) : recordEvent s s.cur kind = s.onCx fun k =>
    { k with sig := rotl64 k.sig 13 ^^^ BitVec.ofNat 64 (kind * 2 ^ 56 + k.evIdx), evIdx := (k.evIdx + 1) % 2 ^ 32 } := by
  simp only [recordEvent, State.ctxOf, if_true, State.foldSig_cur, State.updCtx, State.onCx]

theorem pendResult_eq (s : State) (r : XReg) (id : Nat) : s.pendResult r id = s.onCx fun k =>
    { k with pend := if r = 0 then k.pend else k.pend.filter (fun p => p.reg != r) ++
      [{ reg := r, mark := id + 1, stamp := none, scope := .core, result := some id }] } := by
  rw [State.pendResult]
  split <;> rfl

/-! ### The launch -/

theorem atomicCheck_ok {hostOk : Bool} (h : Reaches s va n .rw l) (hc : l.cls = clsSm) (hh : inHost l.pa = true → hostOk = true) :
    atomicCheck s va n hostOk = .ok (l, s.sealLeaf s.who l) := by
  have host : (inHost l.pa && !hostOk) = false := by
    cases hp : inHost l.pa with
    | false => rfl
    | true => rw [hh hp]; rfl
  simp only [atomicCheck, h.check, bind, Except.bind, needSm, hc, beq_self_eq_true, if_true, Chk.act, host, Bool.false_eq_true, if_false]

theorem atomicCheck_align {hostOk : Bool} (hn : n ≠ 0) (h : va.toNat % n ≠ 0) :
    atomicCheck s va n hostOk = .error (.trap .align (some va) none) := by
  have unaligned : (n != 0 && va.toNat % n != 0) = true := by simp [hn, h]
  simp only [atomicCheck, State.check, Machine.check, unaligned, if_true]
  rfl

/-- What an atomic leaves that is on its way (R230, R409, R411): its flight, its register pending, its firing exposed, its event
recorded. -/
def AtomicSent (s : State) (va : Word) (l : Leaf) (kind : FlightKind) (d : XReg) (sc : Scope) (t : State) : Prop :=
  t = { s with
    cx := { s.cx with
      pc := s.cx.npc
      early := t.cx.early
      fir := { s.cx.fir with exposed := s.cx.fir.exposed || s.cx.staged }
      sig := rotl64 s.cx.sig 13 ^^^ BitVec.ofNat 64 (3 * 2 ^ 56 + s.cx.evIdx)
      evIdx := (s.cx.evIdx + 1) % 2 ^ 32
      pend := if d = 0 then s.cx.pend else s.cx.pend.filter (fun p => p.reg != d) ++
        [{ reg := d, mark := s.net.nextId + 1, stamp := none, scope := .core, result := some s.net.nextId }] }
    net := { s.net with
      flight := s.net.flight ++ [flightOf s s.net.nextId kind va l sc true], nextId := s.net.nextId + 1 }
    cores := t.cores
    home := { s.home with sealTags := t.home.sealTags } } ∧
  ∀ k, t.coreSt k = { s.coreSt k with perf := (t.coreSt k).perf }

/-- What is counted and recorded once the flight of an atomic has left. -/
theorem atomicSent_of_launched {u : State} {early : List Sample} {tags : Tab Nat} (hu : u = { s with
      cx := { s.cx with
        early := early
        fir := { s.cx.fir with exposed := s.cx.fir.exposed || s.cx.staged }
        pend := if d = 0 then s.cx.pend else s.cx.pend.filter (fun p => p.reg != d) ++
          [{ reg := d, mark := s.net.nextId + 1, stamp := none, scope := .core, result := some s.net.nextId }] }
      net := { s.net with
        flight := s.net.flight ++ [flightOf s s.net.nextId kind va l sc true], nextId := s.net.nextId + 1 }
      home := { s.home with sealTags := tags } }) :
    AtomicSent s va l kind d sc (recordEvent (u.countEv u.cur 15 1) (u.countEv u.cur 15 1).cur 3).advance := by
  rw [recordEvent_cur]
  refine ⟨?_, fun k => ?_⟩
  · rw [State.countEv_cores]
    generalize (State.countEv ..).cores = cores
    rw [hu]
    rfl
  · refine (State.countEv_coreSt ..).trans ?_
    have cores : u.cores = s.cores := by rw [hu]
    rw [State.coreSt, cores]
    rfl

theorem atomicLaunch_eq {u w : State} (hu : exposeAct s = .ok u) (hw : w = (u.launch kind va l sc 0 true).pendResult d u.net.nextId) :
    atomicLaunch s va l kind d sc = .ok (recordEvent (w.countEv w.cur 15 1) (w.countEv w.cur 15 1).cur 3).advance := by
  rw [pendResult_eq] at hw
  have cur : w.cur = (u.launch kind va l sc 0 true).cur := by rw [hw]; rfl
  rw [cur, hw, ← pendResult_eq]
  simp only [atomicLaunch, hu, bind, Except.bind]

theorem atomicLaunch_sent (hk : ∀ e lv n na near, kind ≠ .load e lv n na near) (h : s.cx.staged = true → s.cx.staging = []) :
    ∃ t, atomicLaunch (s.sealLeaf s.who l) va l kind d sc = .ok t ∧ AtomicSent s va l kind d sc t := by
  obtain ⟨early, exposed⟩ := exposeAct_empty (s := s.sealLeaf s.who l) (by rw [State.sealLeaf_eq]; exact h)
  refine ⟨_, atomicLaunch_eq exposed rfl, ?_⟩
  refine atomicSent_of_launched (early := (Ctx.dropEarly { s.cx with early := early } l.pa kind.len).early)
    (tags := (s.sealLeaf s.who l).home.sealTags) ?_
  have same : SameLaunch s ((s.sealLeaf s.who l).onCx (·.exposing early)) := by
    rw [State.sealLeaf_eq]; exact ⟨rfl, rfl, rfl, ⟨rfl, rfl⟩, rfl, rfl, rfl, rfl⟩
  rw [pendResult_eq, launch_eq hk, flightOf_congr same, State.sealLeaf_eq]
  rfl

/-! ### The instructions -/

section
variable {a b c : XReg} {sz : Size} {o : Option Scope} {op : AmoOp} {sizes : List Size}

theorem amo_illegal (h : sz ∉ sizes) : amo op sizes a b c sz o s = finish s (illegal s) := by
  have no : sizes.contains sz = false := by simpa using h
  simp only [amo, require, no, Bool.false_eq_true, if_false, bind, Except.bind, illegal]

theorem amo_align (h : sz ∈ sizes) (hv : (s.getX b).toNat % (Size.bits sz / 8) ≠ 0) :
    amo op sizes a b c sz o s = finish s (.error (.trap .align (some (s.getX b)) none)) := by
  have yes : sizes.contains sz = true := by simpa using h
  simp only [amo, require, yes, if_true, bind, Except.bind, atomicCheck_align (by cases sz <;> decide) hv]

theorem amo_sent (h : sz ∈ sizes) (hr : Reaches s (s.getX b) (Size.bits sz / 8) .rw l) (hc : l.cls = clsSm)
    (he : s.cx.staged = true → s.cx.staging = []) (hh : inHost l.pa = true → op = .add ∨ op = .swp ∨ op = .cas) :
    Completes (amo op sizes a b c sz o s) (AtomicSent s (s.getX b) l (.atomic op sz (s.getX c) (s.getX a)) a (s.scope o)) := by
  have yes : sizes.contains sz = true := by simpa using h
  obtain ⟨t, launched, sent⟩ := atomicLaunch_sent (va := s.getX b) (l := l) (kind := .atomic op sz (s.getX c) (s.getX a)) (d := a)
    (sc := s.scope o) (by simp) he
  refine ⟨t, ?_, sent⟩
  have hostOk : inHost l.pa = true → (op == .add || op == .swp || op == .cas) = true := fun k => by
    rcases hh k with e | e | e <;> rw [e] <;> rfl
  simp only [amo, require, yes, if_true, bind, Except.bind, atomicCheck_ok hr hc hostOk, launched]
  rfl

/-- Each atomic is one of the mould, with the sizes that its entry lists (R229, R231, R232). -/
theorem exec_amo {i : Instr} (h : (i, op) ∈ [(Instr.amoadd a b c sz o, AmoOp.add), (.amoand a b c sz o, .and), (.amoor a b c sz o, .or),
      (.amoxor a b c sz o, .xor), (.amomin a b c sz o, .min), (.amomax a b c sz o, .max), (.amominu a b c sz o, .minu),
      (.amomaxu a b c sz o, .maxu), (.amoswp a b c sz o, .swp), (.amocas a b c sz o, .cas), (.amofadd a b c sz o, .fadd)]) :
    exec i s = amo op (if op = .fadd then [Size.w, .h] else [.d, .w]) a b c sz o s := by
  simp only [List.mem_cons, Prod.mk.injEq, List.not_mem_nil, or_false] at h
  rcases h with ⟨rfl, rfl⟩ | ⟨rfl, rfl⟩ | ⟨rfl, rfl⟩ | ⟨rfl, rfl⟩ | ⟨rfl, rfl⟩ | ⟨rfl, rfl⟩ | ⟨rfl, rfl⟩ | ⟨rfl, rfl⟩ | ⟨rfl, rfl⟩ |
    ⟨rfl, rfl⟩ | ⟨rfl, rfl⟩ <;> rfl

theorem execMxacc_illegal {v : VReg} {imm : Word} (h : imm.toNat < 6 ∨ 8 < imm.toNat ∨ sz ≠ .w) :
    execMxacc v b c sz imm o s = finish s (illegal s) := by
  have no : (sz == .w && decide (6 ≤ imm.toNat) && decide (imm.toNat ≤ 8)) = false := by
    rcases h with h | h | h
    · simp [Nat.not_le.2 h]
    · simp [Nat.not_le.2 h]
    · simp [h]
  simp only [execMxacc, require, no, Bool.false_eq_true, if_false, bind, Except.bind, illegal]

theorem execMxacc_sent {v : VReg} {imm : Word} (hlo : 6 ≤ imm.toNat) (hhi : imm.toNat ≤ 8) (hr : Reaches s (s.getX b) 64 .rw l)
    (hc : l.cls = clsSm) (he : s.cx.staged = true → s.cx.staging = []) (hh : inHost l.pa = false) :
    Completes (execMxacc v b c .w imm o s) (AtomicSent s (s.getX b) l (.mxacc (s.getV v) imm.toNat) c (s.scope o)) := by
  have yes : (Size.w == .w && decide (6 ≤ imm.toNat) && decide (imm.toNat ≤ 8)) = true := by simp [hlo, hhi]
  obtain ⟨t, launched, sent⟩ := atomicLaunch_sent (va := s.getX b) (l := l) (kind := .mxacc (s.getV v) imm.toNat) (d := c)
    (sc := s.scope o) (by simp) he
  refine ⟨t, ?_, sent⟩
  simp only [execMxacc, require, yes, if_true, bind, Except.bind, atomicCheck_ok (hostOk := false) hr hc (fun k => by rw [hh] at k; cases k),
    launched]
  rfl

end

end
end Sys2Proof.Machine

open Sys2Proof Sys2Proof.Machine Sys2Proof.Claim

/-- Settles O26, by the mould of the atomics: its checks, and then its launch. -/
theorem atomics : Obligations.Atomics := by
  unfold Obligations.Atomics
  intro s a b c v sz imm sc l i op va sends ready
  refine ⟨fun hi => ?_, fun hlo hhi hr hready hh => ?_, fun h => ?_⟩
  · rw [exec_amo hi]
    refine ⟨fun hs => ?_, fun hs hv => ?_, fun hs hr hready hh => ?_⟩
    · rw [amo_illegal hs]; exact finish_trap ..
    · rw [amo_align hs hv]; exact finish_trap ..
    · exact amo_sent hs hr hready.1 hready.2 hh
  · exact execMxacc_sent hlo hhi hr hready.1 hready.2 hh
  · show Traps (execMxacc v b c sz imm sc s) _ _ _ _
    rw [execMxacc_illegal h]; exact finish_trap ..

end

section
/-! Announcements and notification words (R216, R313, R321, R322): what an announcement leaves when it joins its core's queue. -/

namespace Sys2Proof.Machine

open Claim

section
variable {s t u : State} {a b c : XReg} {imm : Word} {n : Nat}

/-! ### Writes that count as delivered (R196, R197, R269) -/

/-- Nothing differs but the running maximum and the pending registers of the running context, and the witnesses of what is on its
way. -/
def State.OnlyStamps (s t : State) : Prop := t = { s with
  cx := { s.cx with runMax := t.cx.runMax, pend := t.cx.pend }
  net := { s.net with flight := t.net.flight } }

theorem State.OnlyStamps.trans (h : s.OnlyStamps t) (k : t.OnlyStamps u) : s.OnlyStamps u := by
  unfold State.OnlyStamps at *
  rw [k, h]

theorem State.stampWrite_onlyStamps (s : State) (id : Option Nat) (x : Stamp) : s.OnlyStamps (s.stampWrite s.cur id x) := by
  rw [State.stampWrite, State.updCtx, if_pos (show s.cur = (s.onNet _).cur from rfl)]
  rfl

theorem State.stampLeft_onlyStamps (s : State) (mark : Nat) (sc : Scope) : s.OnlyStamps (s.stampLeft s.cur mark sc) := by
  suffices h : ∀ (fs : List Flight) (t : State), s.OnlyStamps t →
      s.OnlyStamps (fs.foldl (fun r f => r.stampWrite s.cur (some f.id) r.now) t) from h _ s rfl
  intro fs
  induction fs with
  | nil => exact fun _ h => h
  | cons f fs ih =>
    intro t h
    have cur : t.cur = s.cur := by rw [h]
    exact ih _ (h.trans (cur ▸ t.stampWrite_onlyStamps (some f.id) t.now))

/-- Where a context holds no dirty copy, nothing of it is left to deliver (R197). -/
theorem deliverPriv_clean {o : CtxId} (h : ∀ k ∈ s.home.copies, k.dirty = true → k.holder ≠ some o) (sc : Scope) :
    deliverPriv s o sc = s := by
  have none_mine : ∀ p : Copy → Bool, (s.home.copies.filter fun k => k.dirty && k.holder == some o && p k) = [] := fun p =>
    List.filter_eq_nil_iff.2 fun k hk => by
      cases hd : k.dirty with
      | false => simp
      | true => simp [h k hk hd]
  cases sc <;> simp only [deliverPriv, none_mine, List.foldl_nil]

theorem deliveredMax_delivered {sc : Scope} (h : Delivered s sc) :
    deliveredMax s sc = .ok (mkWit sc (Counted s sc).cx.runMax, Counted s sc) := by
  rw [deliveredMax, if_pos h.1, deliverPriv_clean h.2]
  rfl

/-! ### Joining the queue (R216) -/

/-- An announcement of the running firing that has joined its core's queue and waits for its window. -/
def Joined (s : State) (kind : AnnKind) (t : State) : Prop := ∃ e : Announce,
  (t.coreSt s.coreNo).annQueue = (s.coreSt s.coreNo).annQueue ++ [e] ∧ e.id = s.net.nextId ∧ e.core = s.coreNo ∧ e.oid = s.oid ∧
  e.kind = kind ∧ e.wit = mkWit .device (Counted s .device).cx.runMax ∧ e.ctx = s.cur ∧
  t.cx = { (Counted s .device).cx with
    wait := some (.window s.net.nextId)
    sig := rotl64 s.cx.sig 13 ^^^ BitVec.ofNat 64 (6 * 2 ^ 56 + s.cx.evIdx)
    evIdx := (s.cx.evIdx + 1) % 2 ^ 32 } ∧
  t = { Counted s .device with cx := t.cx, net := { (Counted s .device).net with nextId := s.net.nextId + 1 }, cores := t.cores }

theorem announce_joins (hv : s.cx.verdict = none) (hs : s.cx.staged = false) (hd : Delivered s .device) (a : XReg) (kind : AnnKind) :
    Completes (finish s (announce s a kind)) (Joined s kind) := by
  have exposed : exposeAct s = .ok s := by simp only [exposeAct, expose, hs, Bool.false_and, Bool.false_eq_true, if_false]
  have only : s.OnlyStamps (Counted s .device) := s.stampLeft_onlyStamps ..
  simp only [announce, hv, exposed, deliveredMax_delivered hd, bind, Except.bind]
  rw [recordEvent_cur]
  unfold Joined
  generalize Counted s .device = v at only ⊢
  have cur : v.cur = s.cur := by rw [only]
  have core : v.coreNo = s.coreNo := congrArg CtxId.core cur
  have next : v.net.nextId = s.net.nextId := by rw [only]
  have cores : v.cores = s.cores := by rw [only]
  have oid : v.oid = s.oid := by rw [only]; rfl
  have sig : v.cx.sig = s.cx.sig := by rw [only]
  have ev : v.cx.evIdx = s.cx.evIdx := by rw [only]
  refine ⟨_, rfl, ⟨v.net.nextId, 0, v.coreNo, v.oid, kind, mkWit .device v.cx.runMax, v.cur, v.cx.fir.fid, v.cx.evIdx, v.now⟩, ?queue, next,
    core, oid, rfl, rfl, cur, ?context, ?rest⟩
  case queue =>
    simp only [Option.getD_some, State.onCx, State.onNet, State.updCore, State.coreSt, tget_tset, core, cores, if_true]
  case context => simp only [next, sig, ev, Option.getD_some, State.onCx, State.onNet, State.updCore]
  case rest => simp only [next, Option.getD_some, State.onCx, State.onNet, State.updCore]

/-! ### Two registers, and the word of the notification area -/

/-- Two scalar registers written in turn (R356). -/
theorem setX_setX_writes (s : State) (a c : XReg) (v w : Word) : WritesPair s ((s.setX a v).setX c w).advance a c v w := by
  have same : ((s.setX a v).setX c w).advance = putX (putX s a v) c w := by
    by_cases h : c = 0
    · simp only [putX, State.setX, Ctx.setX, h, if_true, State.advance, State.setPc]
    · simp only [putX, State.setX, Ctx.setX, h, if_false, State.advance, State.setPc]
      rfl
  exact ⟨putX s a v, putX_writes .., same ▸ putX_writes ..⟩

theorem notifWord_eq (s : State) (k : Nat) : notifWord s k =
    ((s.ownerSt s.oid).notif.toList.getD k 0, (s.ownerSt s.oid).notifWit.toList.getD k 0) := by
  simp only [notifWord, List.getD_eq_getElem?_getD]

theorem immBelow_ok (h : imm.toNat < n) : immBelow s imm n = .ok imm.toNat := if_pos h
theorem immBelow_error (h : n ≤ imm.toNat) : immBelow s imm n = illegal s := if_neg (Nat.not_lt.2 h)

theorem execSca_ok (h : imm.toNat < 256) :
    execSca a b imm s = finish s (announce s a (.word (imm.toNat % 64) (imm.toNat / 64) (s.getX b))) := by
  rw [execSca, immBelow_ok h]; rfl

theorem execLvcancel_ok (h : (s.getX b).toNat < 4096) :
    execLvcancel b s = finish s (announce s 0 (.cancel (s.getX b).toNat)) := by
  rw [execLvcancel, levelIdx, immBelow_ok h]; rfl

theorem execNwait_ok (h : imm.toNat < 64) : execNwait a b c imm s =
    finish s (if (s.cx.verdict.getD (notifWord s imm.toNat)).1 = s.getX b then .error (.wait (.notify imm.toNat (s.getX b)) none)
      else .ok ((s.setX a (s.cx.verdict.getD (notifWord s imm.toNat)).1).setX c (s.cx.verdict.getD (notifWord s imm.toNat)).2).advance) := by
  rw [execNwait, immBelow_ok h]; rfl

end
end Sys2Proof.Machine

open Sys2Proof Sys2Proof.Machine Sys2Proof.Claim

/-- Settles O42, by whether an event has decided the instruction that waits. -/
theorem announcements : Obligations.Announcements := by
  unfold Obligations.Announcements
  intro s a b c k op core word wit now_ sent joins
  have imm (hk : k < 64) (hop : op < 4) : (BitVec.ofNat 64 (op * 64 + k)).toNat = op * 64 + k := by
    rw [BitVec.toNat_ofNat]; omega
  have sca (hk : k < 64) (hop : op < 4) : exec (.sca a b (BitVec.ofNat 64 (op * 64 + k))) s =
      finish s (announce s a (.word k op (s.getX b))) := by
    have := execSca_ok (s := s) (a := a) (b := b) (imm := BitVec.ofNat 64 (op * 64 + k)) (by rw [imm hk hop]; omega)
    rwa [imm hk hop, show (op * 64 + k) % 64 = k by omega, show (op * 64 + k) / 64 = op by omega] at this
  have low (hk : k < 64) : (BitVec.ofNat 64 k).toNat = k := by rw [BitVec.toNat_ofNat]; omega
  have word_eq : notifWord s k = (word, wit) := notifWord_eq s k
  have wait (hk : k < 64) : exec (.nwait a b c (BitVec.ofNat 64 k)) s = finish s (if now_.1 = s.getX b
      then .error (.wait (.notify k (s.getX b)) none) else .ok ((s.setX a now_.1).setX c now_.2).advance) := by
    have := execNwait_ok (s := s) (a := a) (b := b) (c := c) (imm := BitVec.ofNat 64 k) (by rw [low hk]; exact hk)
    rwa [low hk, word_eq] at this
  refine ⟨fun hv hs hd => ⟨fun hk hop => ?_, fun hb => ?_⟩, fun v hv => ⟨fun hk hop => ?_, fun hb => ?_⟩, fun i hi => ?_,
    fun hk => ⟨?_, fun hne => ?_, fun he => ?_⟩, fun i hi => ⟨?_, ?_⟩⟩
  · rw [sca hk hop]; exact announce_joins hv hs hd a (.word k op (s.getX b))
  · show joins (execLvcancel b s) _
    rw [execLvcancel_ok hb]; exact announce_joins hv hs hd 0 (.cancel (s.getX b).toNat)
  · rw [sca hk hop, announce, hv]; exact ⟨_, rfl, putX_writes ..⟩
  · show Completes (execLvcancel b s) _
    rw [execLvcancel_ok hb, announce, hv]; exact ⟨_, rfl, rfl⟩
  · show Traps (execSca a b i s) _ _ _ _
    rw [execSca, immBelow_error hi]; exact finish_trap ..
  · show Completes (execNrd a c _ s) _
    rw [execNrd, immBelow_ok (by rw [low hk]; exact hk), low hk]
    exact ⟨_, rfl, word_eq ▸ setX_setX_writes s a c (notifWord s k).1 (notifWord s k).2⟩
  · rw [wait hk, if_neg hne]; exact ⟨_, rfl, setX_setX_writes ..⟩
  · rw [wait hk, if_pos he]; exact finish_wait ..
  · show Traps (execNrd a c i s) _ _ _ _
    rw [execNrd, immBelow_error hi]; exact finish_trap ..
  · show Traps (execNwait a b c i s) _ _ _ _
    rw [execNwait, immBelow_error hi]; exact finish_trap ..

end

section
/-! What homes, the sequencer and replicas do with an access that has reached them (R195, R203, R205, R210, R212, R226, R229 to R233,
R239, R284, R309, R396). -/

namespace Sys2Proof.Machine

open Claim

/-! ### The grant of an access that waits alone (R334) -/

theorem State.draw_reads (s : State) (oid cls idx : Nat) : Reads s (s.draw oid cls idx).2 where
  context := rfl
  package := rfl
  flights := rfl
  home := rfl
  owners o := by
    have h : (s.draw oid cls idx).2.ownerSt o = _ := State.ownerSt_updOwner ..
    rw [h]
    split
    · next h => rw [h]
    · rfl
  dies _ := rfl
  cores _ := rfl

theorem arbitrate_reads (s : State) (tab : List Share) (cls idx : Nat) (rs : List Request) : Reads s (arbitrate s tab cls idx rs).2 := by
  unfold arbitrate
  dsimp only
  split
  · exact .refl s
  · split
    · exact .refl s
    · have first := s.draw_reads
      split
      · exact first ..
      · split
        · exact (first ..).trans (State.draw_reads ..)
        · exact (first ..).trans (State.draw_reads ..)

/-- Requests that are all one request are that request to the arbiter. -/
theorem oldestEach_alike {rs : List Request} {r : Request} (hr : ∀ q ∈ rs, q = r) (hne : rs ≠ []) : oldestEach rs [] = [r] := by
  have seen : ∀ qs : List Request, (∀ q ∈ qs, q = r) → oldestEach qs [r.oid] = [] := by
    intro qs
    induction qs with
    | nil => exact fun _ => rfl
    | cons q qs ih =>
      intro h
      rw [h q (.head _), oldestEach, if_pos (by simp)]
      exact ih fun q hq => h q (.tail _ hq)
  cases rs with
  | nil => exact absurd rfl hne
  | cons q qs =>
    rw [hr q (.head _), oldestEach, if_neg (by simp), seen qs fun q hq => hr q (.tail _ hq)]

theorem arbitrate_alike (s : State) (tab : List Share) (cls idx : Nat) {rs : List Request} {r : Request} (hr : ∀ q ∈ rs, q = r)
    (hne : rs ≠ []) : (arbitrate s tab cls idx rs).1 = some (r.id, []) := by
  have same : arbitrate s tab cls idx rs = arbitrate s tab cls idx [r] := by
    simp only [arbitrate, oldestEach_alike hr hne, show oldestEach [r] [] = [r] from rfl]
  rw [same, arbitrate_one]

section
variable {s t u : State} {f g : Flight} {q : Nat × Nat}

theorem lupd_none {α : Type} (h : α → α) (l : List α) : lupd (fun _ => false) h l = l := by simp [lupd]

/-- The flight of a number after the flights of that number have changed. -/
theorem find_lupd_id {h : Flight → Flight} (hid : ∀ g, (h g).id = g.id) {l : List Flight} {i : Nat} (hf : l.find? (fun g => g.id == i) = some f) :
    (lupd (fun g => g.id == i) h l).find? (fun g => g.id == i) = some (h f) := by
  have keeps : (fun g : Flight => g.id == i) ∘ (fun g => if (g.id == i) = true then h g else g) = fun g => g.id == i := by
    funext g
    simp only [Function.comp_apply]
    split
    · rw [hid]
    · rfl
  rw [lupd, List.find?_map, keeps, hf, Option.map_some, if_pos (List.find?_some hf)]

/-- Of a queue at which one flight alone waits, that flight is granted. -/
theorem opportunity_alone {here : List Flight} (h : ∀ g ∈ here, g = f) (hne : here ≠ []) : ∃ t, Reads s t ∧ t.net = s.net ∧ t.home = s.home ∧
    opportunity s q here none = (some (f.id, []),
      t.onNet fun n => { n with flight := lupd (fun (g : Flight) => g.id == f.id) (·.granted t q) n.flight }) := by
  have one : ∀ r ∈ here.map (fun g => (⟨g.oid, g.age, g.id⟩ : Request)) ++ (none : Option Request).toList, r = ⟨f.oid, f.age, f.id⟩ := by
    intro r hr
    obtain ⟨g, hg, rfl⟩ := List.mem_map.1 (by simpa using hr)
    rw [h g hg]
  have some_ : here.map (fun g => (⟨g.oid, g.age, g.id⟩ : Request)) ++ (none : Option Request).toList ≠ [] := by simpa using hne
  obtain ⟨first, rest, rfl⟩ := List.exists_cons_of_ne_nil hne
  simp only [opportunity]
  generalize ((first.path.head?).getD q).2 = idx
  generalize lget [] (s.dieSt (queueDie q)).share q.1 = tab
  generalize (first :: rest).map (fun g => (⟨g.oid, g.age, g.id⟩ : Request)) ++ (none : Option Request).toList = rs at one some_ ⊢
  have won := arbitrate_alike s tab q.1 idx one some_
  have passes := arbitrate_reads s tab q.1 idx rs
  have same := arbitrate_eq s tab q.1 idx rs
  generalize arbitrate s tab q.1 idx rs = drawn at won passes same ⊢
  obtain ⟨o, t⟩ := drawn
  obtain rfl : o = some (f.id, []) := won
  refine ⟨t, passes, (congrArg State.net same :), (congrArg State.home same :), ?_⟩
  simp only [List.contains_nil, lupd_none]
  rfl

/-- A flight that has reached its home, or its line's channel, as a step finds it there: `t` is `s` after the grant that it took, and
`g` the flight after it (R334, R340). -/
structure Arrived (s t : State) (f g : Flight) : Prop where
  reads : Reads s t
  copies : t.home.copies = s.home.copies
  same : sameButPlace g = sameButPlace f
  here : t.net.flight.find? (fun h => h.id == f.id) = some g
  others : ∀ h ∈ t.net.flight, h.id ≠ f.id → h ∈ s.net.flight

/-- The flights that a granted flight's number names go on. -/
def State.goesOn (t : State) (f : Flight) (q : Nat × Nat) : State :=
  t.onNet fun n => { n with flight := lupd (fun (g : Flight) => g.id == f.id) (·.granted t q) n.flight }

theorem goesOn_reads (t : State) (f : Flight) (q : Nat × Nat) : Reads t (t.goesOn f q) where
  context := rfl
  package := rfl
  flights := lupd_sameButPlace _ _ (granted_same t q) _
  home := rfl
  owners _ := rfl
  dies _ := rfl
  cores _ := rfl

theorem granted_arrived (h : Reads s t) (net : t.net = s.net) (home : t.home = s.home)
    (found : s.net.flight.find? (fun g => g.id == f.id) = some f) : Arrived s (t.goesOn f q) f (f.granted t q) where
  reads := h.trans (goesOn_reads t f q)
  copies := congrArg HomeSt.copies home
  same := granted_same t q f
  here := find_lupd_id (h := (·.granted t q)) (fun _ => rfl) (net ▸ found)
  others g hg hid := by
    obtain ⟨k, hk, rfl⟩ := List.mem_map.1 (show g ∈ lupd _ _ t.net.flight from hg)
    rw [net] at hk
    split at hid
    · next h => exact absurd (show k.id = f.id by simpa using h) hid
    · next h => rwa [if_neg h]

theorem sliceKey_same (h : Reads s t) (owner line : Nat) : sliceKey t owner line = sliceKey s owner line := by
  have seed : (t.ownerSt owner).seed = (s.ownerSt owner).seed := by rw [h.owners]
  simp only [sliceKey, homeSlice, seed]

/-- The marks of lines are after a read what they were. -/
theorem marked_same (h : Reads s t) (owner line : Nat) : marked t owner line = marked s owner line := by
  obtain ⟨-, -, -, -, -, hm, hl, hd, hk, -⟩ := h.kept
  simp only [marked, sliceKey_same h, hm, hl, hd, hk]

theorem fetches_congr (h : Reads s t) (home : t.home = s.home) (f : Flight) : fetches t f = fetches s f := by
  simp only [fetches, sliceKey_same h, findCopy, home]

/-- A flight waits at the queue that it has reached. -/
theorem waitsAt_reached (hp : f.path = [q]) (ha : mayApply s f = true) : waitsAt s q (mayApply s) f = true := by
  have onWay : f.state == .onWay := by
    simp only [mayApply, applicable, Bool.and_eq_true] at ha
    tauto
  rw [waitsAt, onWay, hp, ha]
  simp [sameQueue]

/-- A grant at a queue at which one flight alone waits. -/
theorem grantAt_alone (found : s.net.flight.find? (fun g => g.id == f.id) = some f) (hp : f.path = [q])
    (alone : ∀ g ∈ s.net.flight, g ≠ f → waitsAt s q (mayApply s) g = false) (ha : mayApply s f = true) :
    ∃ t, Reads s t ∧ t.net = s.net ∧ t.home = s.home ∧ grantAt s q =
      if (f.granted t q).path.isEmpty && 2 ≤ q.1 then applyNow (t.goesOn f q) (f.granted t q) else t.goesOn f q := by
  have only : ∀ g ∈ waiting s q (mayApply s), g = f := fun g hg => by
    obtain ⟨hg, hw⟩ := List.mem_filter.1 (List.mem_mergeSort.1 hg)
    by_contra hne
    exact absurd hw (by simp [alone g hg hne])
  have some_ : waiting s q (mayApply s) ≠ [] := List.ne_nil_of_mem
    (List.mem_mergeSort.2 (List.mem_filter.2 ⟨List.mem_of_find?_eq_some found, waitsAt_reached hp ha⟩))
  obtain ⟨t, reads, net, home, passes⟩ := opportunity_alone (s := s) (q := q) only some_
  refine ⟨t, reads, net, home, ?_⟩
  have here := (granted_arrived (q := q) reads net home found).here
  rw [grantAt, passes]
  show (match (t.goesOn f q).net.flight.find? (fun g => g.id == f.id) with | some g => _ | none => _) = _
  rw [here]
  rfl

/-- A flight that waits at a queue goes on by a grant there. -/
theorem homeStep_queue (found : s.net.flight.find? (fun g => g.id == f.id) = some f) (hp : f.path = [q]) (ha : mayApply s f = true) :
    homeStep s f.id = grantAt s q := by
  rw [homeStep, found]
  dsimp only
  rw [hp]
  exact if_pos (waitsAt_reached hp ha)

/-- A flight that has reached its home, or waits alone for its grant there or at its line's channel, takes effect (R203, R334). -/
theorem homeStep_applies (found : s.net.flight.find? (fun g => g.id == f.id) = some f)
    (sole : ∀ q ∈ f.path, (f.path = [q] ∧ ∀ g ∈ s.net.flight, g ≠ f → waitsAt s q (mayApply s) g = false) ∧
      (q.1 = 3 ∨ q.1 = 2 ∧ fetches s f = false)) (ha : mayApply s f = true) :
    ∃ t g, Arrived s t f g ∧ homeStep s f.id = applyNow t g := by
  cases hp : f.path with
  | nil =>
    refine ⟨s, f, ⟨.refl s, rfl, rfl, found, fun g hg _ => hg⟩, ?_⟩
    rw [homeStep, found]
    dsimp only
    rw [hp]
    exact if_pos ha
  | cons q rest =>
    obtain ⟨⟨path, alone⟩, at_⟩ := sole q (hp ▸ .head _)
    obtain ⟨t, reads, net, home, grant⟩ := grantAt_alone found path alone ha
    refine ⟨t.goesOn f q, f.granted t q, granted_arrived reads net home found, ?_⟩
    rw [homeStep_queue found path ha, grant, if_pos]
    obtain three | ⟨two, held⟩ := at_
    · simp [Flight.granted, path, three]
    · simp [Flight.granted, path, two, fetches_congr reads home, held]

/-- A line that its home does not hold is asked of its channel (R340). -/
theorem homeStep_fetches (found : s.net.flight.find? (fun g => g.id == f.id) = some f) (hp : f.path = [q])
    (alone : ∀ g ∈ s.net.flight, g ≠ f → waitsAt s q (mayApply s) g = false) (ha : mayApply s f = true) (hf : fetches s f = true)
    (two : q.1 = 2) : ∃ t, Reads s t ∧ t.net = s.net ∧ homeStep s f.id = t.goesOn f q ∧
      f.granted t q = { f with path := [(3, sliceKey s f.owner (f.pa / 128))], age := 0, came := t.tick, fetched := f.fetched } := by
  obtain ⟨t, reads, net, home, grant⟩ := grantAt_alone found hp alone ha
  have granted : f.granted t q =
      { f with path := [(3, sliceKey s f.owner (f.pa / 128))], age := 0, came := t.tick, fetched := f.fetched } := by
    simp [Flight.granted, hp, two, fetches_congr reads home, hf, sliceKey_same reads]
  refine ⟨t, reads, net, ?_, granted⟩
  rw [homeStep_queue found hp ha, grant, granted]
  rfl

/-! ### What a flight that takes effect finds -/

theorem find_of_places {l m : List Flight} {i : Nat} (h : l.map sameButPlace = m.map sameButPlace)
    (found : m.find? (fun g => g.id == i) = some g) : ∃ k, l.find? (fun g => g.id == i) = some k ∧ sameButPlace k = sameButPlace g := by
  have first : ∀ n : List Flight, (n.map sameButPlace).find? (fun g => g.id == i) = (n.find? fun g => g.id == i).map sameButPlace :=
    fun n => List.find?_map ..
  have here := first l
  rw [h, first, found] at here
  exact Option.map_eq_some_iff.1 here.symm

/-- The writes that left the package before are delivered: nothing is left to count (R197, R269). -/
theorem stampLeft_none {c : CtxId} {mark : Nat} {sc : Scope}
    (h : ∀ g ∈ s.net.flight, g.ctx = c → g.isLoad = false → g.id < mark → g.left sc = false) : s.stampLeft c mark sc = s := by
  rw [State.stampLeft, List.filter_eq_nil_iff.2, List.foldl_nil]
  intro g hg
  simp only [Bool.and_eq_true, beq_iff_eq, decide_eq_true_eq, Bool.not_eq_true', not_and, Bool.not_eq_true]
  exact fun ⟨⟨a, b⟩, c⟩ => h g hg a c b

/-- A flight that is no commit takes effect where only places, tags and counters have changed since it came (R203, R340). -/
theorem applyNow_arrived (h : Arrived s t f g)
    (clean : f.earlier = true → (∀ q ∈ s.home.copies, q.dirty = true → q.holder ≠ some f.ctx) ∧
      ∀ g ∈ s.net.flight, g.ctx = f.ctx → g.isLoad = false → g.id < f.id → g.left f.scope = false)
    (hk : ∀ es ks b, f.kind ≠ .commit es ks b ∧ f.kind ≠ .requests es) :
    ∃ u k, Reads s u ∧ sameButPlace k = sameButPlace f ∧ applyNow t g = applyFlight u k := by
  have id : g.id = f.id := (congrArg Flight.id h.same :)
  have ctx : g.ctx = f.ctx := (congrArg Flight.ctx h.same :)
  have scope : g.scope = f.scope := (congrArg Flight.scope h.same :)
  have earlier : g.earlier = f.earlier := (congrArg Flight.earlier h.same :)
  have settled : (if g.earlier then (deliverPriv t g.ctx g.scope).stampLeft g.ctx g.id g.scope else t) = t := by
    split
    · next he =>
      obtain ⟨copies, left⟩ := clean (earlier ▸ he)
      rw [deliverPriv_clean (by rw [h.copies, ctx]; exact copies), stampLeft_none]
      intro k hk own load before
      rw [scope]
      exact left k (h.others k hk (by omega)) (own.trans ctx) load (by omega)
    · rfl
  simp only [applyNow, settled]
  obtain ⟨u, hu, reads⟩ : ∃ u, (if g.fetched && !g.isLoad then touchHome t g.ctx g.oid g.owner (g.pa / 128) false true else t) = u ∧
      Reads t u := by
    split
    · exact ⟨_, rfl, touchHome_reads ..⟩
    · exact ⟨_, rfl, .refl t⟩
  obtain ⟨k, found, same⟩ := find_of_places reads.flights h.here
  rw [hu, id, found]
  have kind : k.kind = f.kind := (congrArg Flight.kind (same.trans h.same) :)
  refine ⟨u, k, h.reads.trans reads, same.trans h.same, ?_⟩
  dsimp only
  split
  · next es ks b e => exact absurd (kind ▸ e) (hk es ks b).1
  · next es e => exact absurd (kind ▸ e) (hk es [] false).2
  · rfl

/-! ### The access is done (R195, R203, R343) -/

/-- What an access leaves that is done: it is on its way no more, and nothing else of memory and the homes changes. -/
theorem done_gone (v : State) (k : Flight) : (v.done k).mem = v.mem ∧ (v.done k).home = v.home ∧ ∀ g ∈ (v.done k).net.flight, g.id ≠ k.id := by
  unfold State.done
  dsimp only
  generalize hw : (if k.ctx.which = 3 then _ else v) = w
  generalize (if forSequencer k = true then replicaPa k.pa v.dev.seqDie else k.pa) = pa
  generalize (if inHbm pa = true then _ else _) = path
  generalize placeFor w (dieOf k.ctx.core) k.owner pa = idx
  have before : w.mem = v.mem ∧ w.home = v.home := by subst hw; split <;> exact ⟨rfl, rfl⟩
  have stamped : (w.stampWrite k.ctx (some k.id) (homeStamp w k)).mem = w.mem ∧
      (w.stampWrite k.ctx (some k.id) (homeStamp w k)).home = w.home := by simp [State.stampWrite, State.onNet]
  generalize w.stampWrite k.ctx (some k.id) (homeStamp w k) = x at stamped ⊢
  have answered : ∀ y : State, (y.responseTo k.ctx idx).mem = y.mem ∧ (y.responseTo k.ctx idx).home = y.home ∧
      (y.responseTo k.ctx idx).net = y.net := fun y => by unfold State.responseTo; split <;> simp
  obtain ⟨mem, home, net⟩ := answered ((x.landFlight k.id).pass k.oid path)
  refine ⟨mem.trans (stamped.1.trans before.1), home.trans (stamped.2.trans before.2), fun g hg => ?_⟩
  rw [net] at hg
  obtain ⟨h, hh, same⟩ := List.mem_map.1 (pass_flights (x.landFlight k.id) k.oid path ▸ List.mem_map_of_mem (f := sameButPlace) hg)
  rw [← show h.id = g.id from (congrArg Flight.id same :)]
  simpa using (List.mem_filter.1 hh).2

/-- A stamp that a write of a context has taken (R195). -/
theorem stampWrite_context (v : State) {c : CtxId} (hc : c.which < 3) (id : Option Nat) (x : Stamp) :
    (v.stampWrite c id x).ctxOf c = { v.ctxOf c with
      runMax := mergeStamp (v.ctxOf c).runMax x
      pend := lupd (fun (p : Pend) => id.all (· < p.mark)) (fun p => { p with stamp := mergeStamp p.stamp x }) (v.ctxOf c).pend } := by
  rw [State.stampWrite, State.ctxOf_updCtx_same _ hc]
  rfl

theorem pass_ctxOf (v : State) (oid : Nat) (path : List (Nat × Nat)) (c : CtxId) : (v.pass oid path).ctxOf c = v.ctxOf c := rfl
theorem landFlight_ctxOf (v : State) (id : Nat) (c : CtxId) : (v.landFlight id).ctxOf c = v.ctxOf c := rfl

/-- What an access leaves of its context when it is done: its stamp is in the running maximum (R195). -/
theorem done_context (v : State) {k : Flight} (hc : k.ctx.which < 3) : let c := (v.done k).ctxOf k.ctx
    c.x = (v.ctxOf k.ctx).x ∧ c.runMax = mergeStamp (v.ctxOf k.ctx).runMax (homeStamp v k) ∧
    ∀ p ∈ c.pend, ∃ q ∈ (v.ctxOf k.ctx).pend, p.result = q.result ∧ p.value = q.value := by
  have three : k.ctx.which ≠ 3 := by omega
  unfold State.done
  dsimp only
  rw [if_neg three, State.responseTo, if_neg three, State.ctxOf_updCtx_same _ hc, pass_ctxOf, landFlight_ctxOf,
    stampWrite_context v hc]
  refine ⟨rfl, rfl, fun p hp => ?_⟩
  obtain ⟨q, hq, rfl⟩ := List.mem_map.1 hp
  exact ⟨q, hq, by split <;> exact ⟨rfl, rfl⟩⟩

/-! ### Bytes at the home (R205, R229 to R233, R239, R309) -/

/-- What a read leaves it leaves whatever memory holds. -/
theorem reads_withMem (h : Reads s t) (m : List Host.Cell) : Reads { s with mem := m } { t with mem := m } where
  context := h.context
  package := (congrArg (fun x : State => { x with mem := m }) h.package :)
  flights := h.flights
  home := h.home
  owners := h.owners
  dies := h.dies
  cores := h.cores

/-- While nothing is measured, a write at the home captures no page (R367), and reaches its line. -/
theorem writeHome_reads (h : Reads s t) (hm : ∀ o, (s.ownerSt o).mpass = none) (c : CtxId) (owner pa : Nat) (bs : List Byte) (oid : Nat) :
    Reads { s with mem := memWrite s.mem pa bs } (writeHome t c owner pa bs oid) := by
  have captured : capturePage t c pa = t := by
    have idle : (t.ownerSt (t.ctxOf c).fir.oid.toNat).mpass = none := by rw [h.owners]; exact hm _
    simp only [capturePage, idle]
  have mem : t.mem = s.mem := (congrArg State.mem h.package :)
  rw [writeHome, captured, mem]
  exact (reads_withMem h _).trans (touchHome_reads ..)

/-- What an access that is about to be done has changed of memory, time and its context: memory only. -/
structure Wrote (s v : State) (f : Flight) (m : List Host.Cell) : Prop where
  mem : v.mem = m
  now : v.now = s.now
  x : (v.ctxOf f.ctx).x = (s.ctxOf f.ctx).x
  runMax : (v.ctxOf f.ctx).runMax = (s.ctxOf f.ctx).runMax

theorem wrote_of_reads {m : List Host.Cell} (h : Reads { s with mem := m } t) (f : Flight) : Wrote s t f m := by
  have cur : t.cur = s.cur := (congrArg State.cur h.package :)
  have parked : t.parked = s.parked := (congrArg State.parked h.package :)
  refine ⟨(congrArg State.mem h.package :), (congrArg State.now h.package :), ?_, ?_⟩
  · rw [State.ctxOf, State.ctxOf, cur, parked]
    split
    · exact (congrArg Ctx.x h.context :)
    · rfl
  · rw [State.ctxOf, State.ctxOf, cur, parked]
    split
    · exact (congrArg Ctx.runMax h.context :)
    · rfl

/-- What an access leaves that has taken effect: memory as it writes it, the access on its way no more, and its stamp in the running
maximum of its context. -/
def Lands (s t : State) (f : Flight) (m : List Host.Cell) : Prop := t.mem = m ∧ (∀ g ∈ t.net.flight, g.id ≠ f.id) ∧
  (t.ctxOf f.ctx).x = (s.ctxOf f.ctx).x ∧ (t.ctxOf f.ctx).runMax = mergeStamp (s.ctxOf f.ctx).runMax (homeStamp s f)

theorem Wrote.lands {k : Flight} {m : List Host.Cell} (h : Wrote s t f m) (same : sameButPlace k = sameButPlace f) (hc : f.ctx.which < 3) :
    Lands s (t.done k) f m := by
  have id : k.id = f.id := (congrArg Flight.id same :)
  have ctx : k.ctx = f.ctx := (congrArg Flight.ctx same :)
  have stamp : homeStamp t k = homeStamp s f := by
    rw [homeStamp, homeStamp, h.now, show k.pa = f.pa from (congrArg Flight.pa same :), show k.scope = f.scope from (congrArg Flight.scope same :)]
  obtain ⟨mem, -, gone⟩ := done_gone t k
  obtain ⟨x, runMax, -⟩ := done_context t (ctx ▸ hc)
  rw [ctx] at x runMax
  exact ⟨mem.trans h.mem, id ▸ gone, x.trans h.x, by rw [runMax, h.runMax, stamp]⟩

/-- An access that a register waits for. -/
theorem Wrote.answer {m : List Host.Cell} (h : Wrote s t f m) (hc : f.ctx.which < 3) (id : Nat) (v : Word) :
    Wrote s (t.answer f.ctx id v) f m where
  mem := by rw [State.answer, State.updCtx_mem, h.mem]
  now := by rw [State.answer, State.updCtx_eq]; exact h.now
  x := by rw [State.answer, State.ctxOf_updCtx_same _ hc]; exact h.x
  runMax := by rw [State.answer, State.ctxOf_updCtx_same _ hc]; exact h.runMax

/-- The register that waits for an access that is done has its answer ready (R230). -/
theorem answer_done {k : Flight} (hc : k.ctx.which < 3) (v : Word) : ∀ p ∈ (((t.answer k.ctx k.id v).done k).ctxOf k.ctx).pend,
    p.result = some k.id → p.value = some v := by
  intro p hp hr
  obtain ⟨q, hq, result, value⟩ := (done_context (t.answer k.ctx k.id v) hc).2.2 p hp
  rw [State.answer, State.ctxOf_updCtx_same _ hc] at hq
  obtain ⟨r, -, rfl⟩ := List.mem_map.1 hq
  rw [value]
  rw [result] at hr
  split at hr
  · next h => rw [if_pos h]
  · next h => exact absurd (by simpa using hr) h

/-! ### The kinds of access, one by one -/

/-- Neither a mark nor a linked device turns an access away (R226, R419). -/
structure Served (s : State) (f : Flight) : Prop where
  unmarked : marked s f.owner (f.pa / 128) = false
  near : inWindow f.pa = true → Config.farAnswer s.tick ≠ 1 ∧ Config.farAnswer s.tick ≠ 2

theorem Served.later (h : Served s f) (hr : Reads s t) (same : sameButPlace g = sameButPlace f) : Served t g := by
  have pa : g.pa = f.pa := (congrArg Flight.pa same :)
  have owner : g.owner = f.owner := (congrArg Flight.owner same :)
  have tick : t.tick = s.tick := (congrArg State.tick hr.package :)
  exact ⟨by rw [marked_same hr, pa, owner]; exact h.unmarked, by rw [pa, tick]; exact h.near⟩

/-- What an access that is served does is what its kind says. -/
theorem Served.not_far (h : Served s f) (b : Bool) : (inWindow f.pa && b && decide (Config.farAnswer s.tick = 1)) = false ∧
    (inLink f.pa && b && decide (Config.farAnswer s.tick = 2)) = false := by
  cases hw : inWindow f.pa with
  | false =>
    have link : inLink f.pa = false := by rw [inWindow, Bool.or_eq_false_iff] at hw; exact hw.2
    simp [link]
  | true =>
    obtain ⟨denied, refused⟩ := h.near hw
    simp [denied, refused]

theorem applyFlight_store {bs : List Byte} (h : Served s f) (hk : f.kind = .store bs) :
    applyFlight s f = (writeHome s f.ctx f.owner f.pa bs f.oid).done f := by
  simp only [applyFlight, hk, h.unmarked, (h.not_far _).1, (h.not_far _).2, Bool.false_and, Bool.false_eq_true, if_false]

theorem applyFlight_atomic {op : AmoOp} {sz : Size} {x e : Word} (h : Served s f) (hk : f.kind = .atomic op sz x e) :
    applyFlight s f =
      let old := leNat (memRead s.mem f.pa (Size.bits sz / 8))
      ((lineEvent (writeHome s f.ctx f.owner f.pa (leBytes (Size.bits sz / 8) (amoNew op (Size.bits sz) old x e)) f.oid) f.oid (f.pa / 128) 3
        (s.ctxOf f.ctx).fir.fid.toNat f.ev).answer f.ctx f.id
        (if op = .fadd then BitVec.ofNat 64 old else sextW old (Size.bits sz))).done f := by
  simp only [applyFlight, hk, h.unmarked, (h.not_far _).1, (h.not_far _).2, Bool.false_and, Bool.false_eq_true, if_false]

theorem applyFlight_mxacc {xs : Vec} {fmt : Nat} (h : Served s f) (hk : f.kind = .mxacc xs fmt) :
    applyFlight s f =
      let m := mxAccumulate (Config.mxZeroNeg s.tick) fmt (memRead s.mem f.pa 64) xs
      ((lineEvent (writeHome s f.ctx f.owner f.pa m.1 f.oid) f.oid (f.pa / 128) 3 (s.ctxOf f.ctx).fir.fid.toNat f.ev).answer f.ctx f.id
        (BitVec.ofNat 64 (m.2.1 + if m.2.2 then 256 else 0))).done f := by
  simp only [applyFlight, hk, h.unmarked, (h.not_far _).1, (h.not_far _).2, Bool.false_and, Bool.false_eq_true, if_false]

theorem applyFlight_count {n : Word} {b : Bool} (h : Served s f) (hk : f.kind = .count n b) :
    applyFlight s f = (counterApply s f.ctx f.owner f.pa n f.wit).done f := by
  simp only [applyFlight, hk, h.unmarked, (h.not_far _).1, (h.not_far _).2, Bool.false_and, Bool.false_eq_true, if_false]

theorem applyFlight_pclr (hk : f.kind = .pclr clsSm none) : applyFlight s f =
    ((writeHome s f.ctx f.owner f.pa (List.replicate 128 0) f.oid).unmark f.owner [f.pa / 128]).done f := by
  simp only [applyFlight, hk, Bool.and_false, Bool.not_true, Bool.false_and, Bool.false_eq_true, if_false]
  rfl

/-- A marked line refuses an access that neither reads nor clears it (R226, R396). -/
theorem applyFlight_refused (hm : marked s f.owner (f.pa / 128) = true) (hl : f.isLoad = false) (hc : ∀ c q, f.kind ≠ .pclr c q)
    (hp : ∀ d na, f.kind ≠ .priv d na) (hs : ∀ n, f.kind ≠ .count n true) : applyFlight s f = s.refuse f := by
  unfold applyFlight
  cases hk : f.kind with
  | load => simp [Flight.isLoad, hk] at hl
  | pclr c q => exact absurd hk (hc c q)
  | priv d na => exact absurd hk (hp d na)
  | count n b =>
    cases b with
    | true => exact absurd hk (hs n)
    | false => simp [hm]
  | store => simp [hm]
  | repl => simp [hm]
  | atomic => simp [hm]
  | mxacc => simp [hm]
  | commit => simp [hm]
  | requests => simp [hm]

/-- A counter message that a staging held is not made at a marked line, and a system event tells (R396). -/
theorem applyFlight_dropped {n : Word} (hm : marked s f.owner (f.pa / 128) = true) (hk : f.kind = .count n true) : applyFlight s f =
    (s.asCtx f.ctx fun s => s.firingEvent s.cur 8 0 0 (f.pa / 128 * 128)).landFlight f.id := by
  simp only [applyFlight, hk, hm, Bool.true_and, if_true]

theorem refuse_refuses (s : State) (f : Flight) : (s.refuse f).mem = s.mem ∧
    ∀ g ∈ (s.refuse f).net.flight, g.id = f.id → g.state = .refused := by
  refine ⟨rfl, fun g hg hid => ?_⟩
  obtain ⟨h, -, rfl⟩ := List.mem_map.1 (show g ∈ lupd _ _ s.net.flight from hg)
  split at hid
  · next same => rw [if_pos same]
  · next other => exact absurd hid (by simpa using fun e => other (by simp [e]))

theorem switchTo_mem (s : State) (c : CtxId) : (s.switchTo c).mem = s.mem := by
  unfold State.switchTo
  split <;> rfl

theorem sysEvent_mem (s : State) (e : SysEvent) : (s.sysEvent e).mem = s.mem := by
  unfold State.sysEvent
  split <;> rfl

theorem dropped_gone (s : State) (f : Flight) (addr : Nat) :
    let t := (s.asCtx f.ctx fun s => s.firingEvent s.cur 8 0 0 addr).landFlight f.id
    t.mem = s.mem ∧ ∀ g ∈ t.net.flight, g.id ≠ f.id := by
  refine ⟨?_, fun g hg => by simpa using (List.mem_filter.1 hg).2⟩
  show (State.asCtx s f.ctx _).mem = s.mem
  rw [State.asCtx, switchTo_mem, State.firingEvent, sysEvent_mem, switchTo_mem]

/-- A home adds to a counter that no trigger watches (R283, R309). -/
theorem counterApply_unwatched {c : CtxId} {owner pa : Nat} (n wit : Word)
    (hw : ∀ w ∈ (writeHome s c owner pa (leBytes 8 ((leNat (memRead s.mem pa 8) + n.toNat) % 2 ^ 64))).home.watches, w.pa ≠ pa) :
    counterApply s c owner pa n wit =
      (writeHome s c owner pa (leBytes 8 ((leNat (memRead s.mem pa 8) + n.toNat) % 2 ^ 64))).onHome fun h =>
        { h with watches := lupd (fun (w : Watch) => w.pa == pa) (fun w => { w with wit := witnessMax w.wit wit }) h.watches } := by
  rw [counterApply]
  generalize writeHome s c owner pa _ = v at hw ⊢
  rw [triggerCheck, List.find?_eq_none.2]
  intro w hmem
  obtain ⟨x, hx, rfl⟩ := List.mem_map.1 (show w ∈ lupd _ _ v.home.watches from hmem)
  split
  · next h => exact absurd (by simpa using h) (hw x hx)
  · next h => exact h

/-! ### What takes effect, and how -/

section
variable {k : Flight} {m : List Host.Cell} (hr : Reads s u) (same : sameButPlace k = sameButPlace f)
  (idle : ∀ o, (s.ownerSt o).mpass = none) (hc : f.ctx.which < 3)
include hr same idle

/-- Bytes that an access writes at its home. -/
theorem written_reads (bs : List Byte) : Reads { s with mem := memWrite s.mem f.pa bs } (writeHome u k.ctx k.owner k.pa bs k.oid) := by
  rw [show k.pa = f.pa from (congrArg Flight.pa same :)]
  exact writeHome_reads hr idle ..

include hc

theorem store_lands {bs : List Byte} (hs : Served s f) (hk : f.kind = .store bs) :
    Lands s (applyFlight u k) f (memWrite s.mem f.pa bs) := by
  rw [applyFlight_store (hs.later hr same) ((congrArg Flight.kind same :).trans hk)]
  exact (wrote_of_reads (written_reads hr same idle bs) f).lands same hc

/-- An access whose answer a register waits for. -/
theorem answered_lands (bs : List Byte) (plain : (s.ownerSt f.oid).rpl.mode = 0) (line fid ev : Nat) (v : Word) :
    let t := ((lineEvent (writeHome u k.ctx k.owner k.pa bs k.oid) k.oid line 3 fid ev).answer k.ctx k.id v).done k
    Lands s t f (memWrite s.mem f.pa bs) ∧ ∀ p ∈ (t.ctxOf f.ctx).pend, p.result = some f.id → p.value = some v := by
  have written := written_reads hr same idle bs
  have ctx : k.ctx = f.ctx := (congrArg Flight.ctx same :)
  have id : k.id = f.id := (congrArg Flight.id same :)
  have oid : k.oid = f.oid := (congrArg Flight.oid same :)
  dsimp only
  rw [lineEvent_plain (by rw [written.owners, oid]; exact plain)]
  have answer := answer_done (t := writeHome u k.ctx k.owner k.pa bs k.oid) (k := k) (ctx ▸ hc) v
  have wrote := (wrote_of_reads written f).answer hc k.id v
  rw [ctx, id] at *
  exact ⟨wrote.lands same hc, answer⟩

theorem atomic_lands {op : AmoOp} {sz : Size} {x e : Word} (plain : (s.ownerSt f.oid).rpl.mode = 0) (hs : Served s f)
    (hk : f.kind = .atomic op sz x e) : let t := applyFlight u k
    let old := leNat (memRead s.mem f.pa (Size.bits sz / 8))
    Lands s t f (memWrite s.mem f.pa (leBytes (Size.bits sz / 8) (amoNew op (Size.bits sz) old x e))) ∧
    ∀ p ∈ (t.ctxOf f.ctx).pend, p.result = some f.id →
      p.value = some (if op = .fadd then BitVec.ofNat 64 old else widen sz (BitVec.ofNat (Size.bits sz) old)) := by
  have mem : u.mem = s.mem := (congrArg State.mem hr.package :)
  dsimp only
  rw [applyFlight_atomic (hs.later hr same) ((congrArg Flight.kind same :).trans hk), mem, show k.pa = f.pa from (congrArg Flight.pa same :)]
  dsimp only
  rw [sextW, BitVec.ofInt_natCast]
  have landed := answered_lands hr same idle hc
  rw [show k.pa = f.pa from (congrArg Flight.pa same :)] at landed
  exact landed _ plain _ _ _ _

theorem mxacc_lands {xs : Vec} {fmt : Nat} (plain : (s.ownerSt f.oid).rpl.mode = 0) (hs : Served s f) (hk : f.kind = .mxacc xs fmt) :
    let t := applyFlight u k
    let m := mxAccumulate (Config.mxZeroNeg s.tick) fmt (memRead s.mem f.pa 64) xs
    Lands s t f (memWrite s.mem f.pa m.1) ∧ ∀ p ∈ (t.ctxOf f.ctx).pend, p.result = some f.id →
      p.value = some (BitVec.ofNat 64 (m.2.1 + if m.2.2 then 256 else 0)) := by
  have mem : u.mem = s.mem := (congrArg State.mem hr.package :)
  have tick : u.tick = s.tick := (congrArg State.tick hr.package :)
  dsimp only
  rw [applyFlight_mxacc (hs.later hr same) ((congrArg Flight.kind same :).trans hk), mem, tick, show k.pa = f.pa from (congrArg Flight.pa same :)]
  have landed := answered_lands hr same idle hc
  rw [show k.pa = f.pa from (congrArg Flight.pa same :)] at landed
  exact landed _ plain _ _ _ _

theorem count_lands {n : Word} {b : Bool} (hw : ∀ w ∈ s.home.watches, w.pa ≠ f.pa) (hs : Served s f) (hk : f.kind = .count n b) :
    Lands s (applyFlight u k) f (memWrite s.mem f.pa (leBytes 8 ((leNat (memRead s.mem f.pa 8) + n.toNat) % 2 ^ 64))) := by
  have mem : u.mem = s.mem := (congrArg State.mem hr.package :)
  have pa : k.pa = f.pa := (congrArg Flight.pa same :)
  have written := writeHome_reads hr idle k.ctx k.owner f.pa (leBytes 8 ((leNat (memRead s.mem f.pa 8) + n.toNat) % 2 ^ 64))
    (u.ctxOf k.ctx).fir.oid.toNat
  have watches := (congrArg HomeSt.watches written.home :)
  rw [applyFlight_count (hs.later hr same) ((congrArg Flight.kind same :).trans hk), pa, counterApply_unwatched, mem]
  · have wrote := wrote_of_reads written f
    exact Wrote.lands ⟨wrote.mem, wrote.now, wrote.x, wrote.runMax⟩ same hc
  · rw [mem, watches]
    exact hw

omit hr same idle hc in
theorem unmark_wrote {v : State} (h : Wrote s v f m) (owner : Nat) (lines : List Nat) : Wrote s (v.unmark owner lines) f m :=
  ⟨h.mem, h.now, h.x, h.runMax⟩

theorem pclr_lands (hk : f.kind = .pclr clsSm none) : let t := applyFlight u k
    Lands s t f (memWrite s.mem f.pa (List.replicate 128 0)) ∧ ∀ m ∈ t.home.marks, m.1 ≠ f.pa / 128 := by
  have wrote := wrote_of_reads (written_reads hr same idle (List.replicate 128 0)) f
  have pa : k.pa = f.pa := (congrArg Flight.pa same :)
  dsimp only
  rw [applyFlight_pclr (f := k) ((congrArg Flight.kind same :).trans hk)]
  refine ⟨(unmark_wrote wrote _ _).lands same hc, fun m hm => ?_⟩
  rw [(done_gone _ k).2.1, pa] at hm
  simpa using (List.mem_filter.1 hm).2

end

/-! ### The sequencer and the replicas (R210, R212) -/

theorem sequence_takes (s : State) (f : Flight) (stores : List (Nat × List Byte)) (clear : Bool) : let t := sequence s f stores clear
    t.mem = s.mem ∧ (∀ g ∈ t.net.flight, g.id ≠ f.id) ∧ t.home.replLog = s.home.replLog ++
      stores.map fun w => ⟨f.id, f.first, f.ctx, s.now, w.1, f.owner, w.2, replicaDies s, clear⟩ := by
  obtain ⟨mem, home, gone⟩ := done_gone (s.onHome fun h =>
    { h with replLog := h.replLog ++ stores.map fun w => ⟨f.id, f.first, f.ctx, s.now, w.1, f.owner, w.2, replicaDies s, clear⟩ }) f
  exact ⟨mem, gone, congrArg HomeSt.replLog home⟩

theorem sequencerTakes_pclr {c : BitVec 3} {q : Option CrPlace} (found : s.net.flight.find? (fun g => g.id == f.id) = some f)
    (ha : mayStamp s f = true) (hk : f.kind = .pclr c q) :
    sequencerTakes s f.id = sequence s f [(f.pa, List.replicate 128 0)] true := by
  simp only [sequencerTakes, found, ha, hk, Bool.not_true, Bool.false_eq_true, if_false]

theorem sequencerTakes_repl {bs : List Byte} (found : s.net.flight.find? (fun g => g.id == f.id) = some f)
    (ha : mayStamp s f = true) (hk : f.kind = .repl bs) :
    sequencerTakes s f.id = if marked s f.owner (replicaPa f.pa s.dev.seqDie / 128) then s.refuse f
      else sequence s f [(f.pa, bs)] false := by
  simp only [sequencerTakes, found, ha, hk, Bool.not_true, Bool.false_eq_true, if_false]

theorem mem_of_mem_byCore {r : ReplStore} : ∀ {rs : List ReplStore}, r ∈ byCore rs → r ∈ rs := by
  intro rs
  induction rs with
  | nil => exact id
  | cons q rs ih =>
    intro h
    rcases List.mem_append.1 h with h | h
    · exact .tail _ (ih ((List.takeWhile_prefix _).subset h))
    · rcases List.mem_cons.1 h with rfl | h
      · exact .head _
      · exact .tail _ (ih ((List.dropWhile_suffix _).subset h))

/-- A line that is not marked is not after marks of lines are cleared (R239, R396). -/
theorem unmark_unmarked (v : State) (owner : Nat) (lines : List Nat) {o line : Nat} (h : marked v o line = false) :
    marked (v.unmark owner lines) o line = false := by
  have key : sliceKey (v.unmark owner lines) o line = sliceKey v o line := rfl
  rw [marked, Bool.or_eq_false_iff] at h ⊢
  refine ⟨?_, ?_⟩
  · rw [List.any_eq_false] at h ⊢
    exact fun m hm => h.1 m (List.mem_filter.1 hm).1
  · have lost := h.2
    rw [key]
    generalize sliceKey v o line = key at lost
    show (_ && (v.home.dieLost.contains _ || (!v.home.chanLost.isEmpty && v.home.chanLost.contains key &&
      !(_ ++ v.home.cleared).contains (line, key)))) = false
    rw [List.contains_append]
    generalize v.home.cleared.contains (line, key) = c at lost ⊢
    cases c <;> simp_all

/-- What the stores to a replica leave besides its bytes: marks go, and none comes. -/
structure Replicated (s v : State) : Prop where
  log : v.home.replLog = s.home.replLog
  dies : v.dies = s.dies
  owners : v.owners = s.owners
  marks : ∀ o line, marked s o line = false → marked v o line = false

theorem replicaWrite_unmarked {s v : State} {die : Nat} {r : ReplStore} (h : Replicated s v) (idle : ∀ o, (s.ownerSt o).mpass = none)
    (hm : marked s r.owner (replicaPa r.pa die / 128) = false) :
    Replicated s (replicaWrite v die r) ∧ (replicaWrite v die r).mem = memWrite v.mem (replicaPa r.pa die) r.data := by
  have captured : capturePage v r.ctx (replicaPa r.pa die) = v := by
    have none_ : (v.ownerSt (v.ctxOf r.ctx).fir.oid.toNat).mpass = none := by rw [State.ownerSt, h.owners]; exact idle _
    simp only [capturePage, none_]
  simp only [replicaWrite, h.marks _ _ hm, captured, Bool.false_and, Bool.false_eq_true, if_false]
  split
  · exact ⟨⟨h.log, h.dies, h.owners, fun o line hl => unmark_unmarked _ _ _ (h.marks o line hl)⟩, rfl⟩
  · exact ⟨⟨h.log, h.dies, h.owners, h.marks⟩, rfl⟩

theorem replicaWrites_unmarked {s : State} {die : Nat} (idle : ∀ o, (s.ownerSt o).mpass = none) : ∀ (rs : List ReplStore) (v : State),
    Replicated s v → (∀ q ∈ rs, marked s q.owner (replicaPa q.pa die / 128) = false) →
    let t := rs.foldl (fun s q => replicaWrite s die q) v
    Replicated s t ∧ t.mem = rs.foldl (fun m q => memWrite m (replicaPa q.pa die) q.data) v.mem := by
  intro rs
  induction rs with
  | nil => exact fun v h _ => ⟨h, rfl⟩
  | cons r rs ih =>
    intro v h hm
    obtain ⟨next, mem⟩ := replicaWrite_unmarked h idle (hm r (.head _))
    obtain ⟨last, bytes⟩ := ih _ next fun q hq => hm q (.tail _ hq)
    exact ⟨last, bytes.trans (by rw [mem]; rfl)⟩

/-- The replica of a die applies the stores of its oldest stamp (R210, R212). -/
theorem replicaApply_applies {die : Nat} {r : ReplStore} (hf : s.home.replLog.find? (fun (q : ReplStore) => q.dies.contains die) = some r)
    (hn : r.stamp ≠ s.now) (idle : ∀ o, (s.ownerSt o).mpass = none)
    (hm : ∀ q ∈ s.home.replLog.filter (fun (q : ReplStore) => q.stamp == r.stamp && q.dies.contains die),
      marked s q.owner (replicaPa q.pa die / 128) = false) :
    let t := replicaApply s die
    t.mem = (byCore (s.home.replLog.filter fun (q : ReplStore) => q.stamp == r.stamp && q.dies.contains die)).foldl
      (fun m q => memWrite m (replicaPa q.pa die) q.data) s.mem ∧
    (∀ q ∈ t.home.replLog, q.stamp = r.stamp → die ∉ q.dies) ∧
    (t.dieSt die).replMark = laterOf (s.dieSt die).replMark r.stamp := by
  obtain ⟨rest, mem⟩ := replicaWrites_unmarked (s := s) (die := die) idle
    (byCore (s.home.replLog.filter fun (q : ReplStore) => q.stamp == r.stamp && q.dies.contains die)) s ⟨rfl, rfl, rfl, fun _ _ h => h⟩
    fun q hq => hm q (mem_of_mem_byCore hq)
  rw [replicaApply, hf]
  dsimp only
  rw [if_neg (by simpa using hn)]
  generalize (byCore _).foldl (fun s q => replicaWrite s die q) s = v at rest mem ⊢
  refine ⟨mem, fun q hq hst => ?_, ?_⟩
  · obtain ⟨p, hp, rfl⟩ := List.mem_map.1 (show q ∈ lupd _ _ v.home.replLog from (List.mem_filter.1 hq).1)
    split at hst
    · next h => rw [if_pos h]; simp
    · next h => rw [if_neg h]; simpa [hst] using h
  · rw [State.dieSt_updDie_same]
    show laterOf (tget {} v.dies die).replMark r.stamp = _
    rw [rest.dies]
    rfl

/-- The marks of several dies follow fabric time. -/
theorem marks_follow (ds : List Nat) : ∀ v : State, ds.Nodup →
    let t := ds.foldl (fun s d => s.updDie d fun q => { q with replMark := laterOf q.replMark (s.now - 1) }) v
    t.mem = v.mem ∧ ∀ d, (t.dieSt d).replMark = if d ∈ ds then laterOf (v.dieSt d).replMark (v.now - 1) else (v.dieSt d).replMark := by
  induction ds with
  | nil => exact fun v _ => ⟨rfl, fun d => rfl⟩
  | cons e ds ih =>
    intro v h
    obtain ⟨fresh, rest⟩ := List.nodup_cons.1 h
    obtain ⟨mem, marks⟩ := ih (v.updDie e fun q => { q with replMark := laterOf q.replMark (v.now - 1) }) rest
    refine ⟨mem, fun d => ?_⟩
    rw [List.foldl_cons, marks, State.dieSt_updDie]
    by_cases hd : e = d
    · subst hd
      simp [fresh]
    · simp only [if_neg hd, List.mem_cons, show d ≠ e from fun h => hd h.symm, false_or]
      rfl

/-- Where no store flows, the marks of the replicas follow fabric time (R212). -/
theorem markReplicas_marks (h : s.home.replLog = []) : (markReplicas s).mem = s.mem ∧
    ∀ d < 9, ((markReplicas s).dieSt d).replMark = laterOf (s.dieSt d).replMark (s.now - 1) := by
  obtain ⟨mem, marks⟩ := marks_follow (List.range 9) s List.nodup_range
  rw [markReplicas, if_pos (by rw [h]; rfl)]
  exact ⟨mem, fun d hd => by rw [marks, if_pos (List.mem_range.2 hd)]⟩

/-! ### The steps of a home, the sequencer and a replica -/

theorem exec_homeApply (found : s.net.flight.find? (fun g => g.id == f.id) = some f) (hk : isCount f = false) :
    exec (.homeApply f.id) s = .next (homeStep s f.id) := by
  show (.next (if _ then _ else _) : Out) = _
  rw [if_pos]
  exact List.any_eq_true.2 ⟨f, List.mem_of_find?_eq_some found, by simp [hk]⟩

theorem exec_counterMessageApply (found : s.net.flight.find? (fun g => g.id == f.id) = some f) (hk : isCount f = true) :
    exec (.counterMessageApply f.id) s = .next (homeStep s f.id) := by
  show (.next (if _ then _ else _) : Out) = _
  rw [if_pos]
  exact List.any_eq_true.2 ⟨f, List.mem_of_find?_eq_some found, by simp [hk]⟩

theorem exec_replSequence (s : State) (id : Nat) : exec (.replSequence id) s = .next (sequencerTakes s id) := rfl
theorem exec_replReplicaApply (s : State) (die : Nat) : exec (.replReplicaApply die) s = .next (replicaApply s die) := rfl
theorem exec_replMark (s : State) : exec .replMark s = .next (markReplicas s) := rfl

theorem isCount_eq {n : Word} {b : Bool} (hk : f.kind = .count n b) : isCount f = true := by rw [isCount, hk]

/-- A flight that is no commit takes effect as its kind says, where only places, tags and counters have changed (R203). -/
theorem homeStep_takes (found : s.net.flight.find? (fun g => g.id == f.id) = some f)
    (sole : ∀ q ∈ f.path, (f.path = [q] ∧ ∀ g ∈ s.net.flight, g ≠ f → waitsAt s q (mayApply s) g = false) ∧
      (q.1 = 3 ∨ q.1 = 2 ∧ fetches s f = false))
    (clean : f.earlier = true → (∀ q ∈ s.home.copies, q.dirty = true → q.holder ≠ some f.ctx) ∧
      ∀ g ∈ s.net.flight, g.ctx = f.ctx → g.isLoad = false → g.id < f.id → g.left f.scope = false)
    (ha : mayApply s f = true) (hk : ∀ es ks b, f.kind ≠ .commit es ks b ∧ f.kind ≠ .requests es) :
    ∃ u k, Reads s u ∧ sameButPlace k = sameButPlace f ∧ homeStep s f.id = applyFlight u k := by
  obtain ⟨t, g, arrived, step⟩ := homeStep_applies found sole ha
  rw [step]
  exact applyNow_arrived arrived clean hk

theorem marked_later (hr : Reads s u) (same : sameButPlace g = sameButPlace f) (hm : marked s f.owner (f.pa / 128) = true) :
    marked u g.owner (g.pa / 128) = true := by
  rw [marked_same hr, show g.owner = f.owner from (congrArg Flight.owner same :), show g.pa = f.pa from (congrArg Flight.pa same :)]
  exact hm

/-- A flight that takes effect at a marked line is refused (R226, R396). -/
theorem takes_refused (takes : ∃ u k, Reads s u ∧ sameButPlace k = sameButPlace f ∧ homeStep s f.id = applyFlight u k)
    (hm : marked s f.owner (f.pa / 128) = true) (hl : f.isLoad = false) (hc : ∀ c q, f.kind ≠ .pclr c q)
    (hp : ∀ d na, f.kind ≠ .priv d na) (hs : ∀ n, f.kind ≠ .count n true) :
    (homeStep s f.id).mem = s.mem ∧ ∀ g ∈ (homeStep s f.id).net.flight, g.id = f.id → g.state = .refused := by
  obtain ⟨u, k, hr, same, step⟩ := takes
  have kind : k.kind = f.kind := (congrArg Flight.kind same :)
  have load : k.isLoad = f.isLoad := by rw [Flight.isLoad, Flight.isLoad, kind]
  obtain ⟨mem, states⟩ := refuse_refuses u k
  rw [step, applyFlight_refused (marked_later hr same hm) (load.trans hl) (kind ▸ hc) (kind ▸ hp) (kind ▸ hs)]
  rw [show k.id = f.id from (congrArg Flight.id same :)] at states
  exact ⟨mem.trans (congrArg State.mem hr.package :), states⟩

end
end Sys2Proof.Machine

open Sys2Proof Sys2Proof.Machine Sys2Proof.Claim

/-- Settles O55, from what a grant to a flight that waits alone leaves as it was (`homeStep_applies`, `applyNow_arrived`), and from what
each kind of access does that takes effect there. -/
theorem homesApply : Obligations.HomesApply := by
  unfold Obligations.HomesApply
  intro s f die r
  dsimp only
  refine ⟨fun found sole clean ⟨idle, plain⟩ hc ha => ?takes, fun found hk ha fetch q ⟨path, alone⟩ two => ?fetched,
    fun found ha hk => ?clears, fun found ha bs hk => ⟨fun hm => ?marked, fun hm => ?logs⟩,
    fun hf hn idle hm => ⟨_, exec_replReplicaApply s die, replicaApply_applies hf hn idle hm⟩,
    fun h => ⟨_, exec_replMark s, markReplicas_marks h⟩⟩
  case takes =>
    have takes := fun hk => homeStep_takes found sole clean ha hk
    refine ⟨fun hm hl hp hk hpr => ⟨fun hc => ?refuses, fun n => ⟨fun hn => ?refuses_count, fun hn => ?drops⟩⟩,
      fun hm hw => ⟨fun bs hk => ?store, fun op sz x e hk => ?atomic, fun xs fmt hk => ?mxacc, fun n b hk watch => ?count⟩, fun hk => ?pclr⟩
    case refuses =>
      refine ⟨_, exec_homeApply found hc, ?_⟩
      exact takes_refused (takes hk) hm hl hp hpr fun n hn => by simp [isCount_eq hn] at hc
    case refuses_count =>
      refine ⟨_, exec_counterMessageApply found (isCount_eq hn), ?_⟩
      exact takes_refused (takes hk) hm hl hp hpr fun n h => by simp [hn] at h
    case drops =>
      obtain ⟨u, k, hr, same, step⟩ := takes hk
      refine ⟨_, exec_counterMessageApply found (isCount_eq hn), ?_⟩
      have kind : k.kind = .count n true := (congrArg Flight.kind same :).trans hn
      have id : k.id = f.id := (congrArg Flight.id same :)
      rw [step, applyFlight_dropped (marked_later hr same hm) kind, ← id, ← show u.mem = s.mem from (congrArg State.mem hr.package :)]
      exact dropped_gone u k _
    case store =>
      obtain ⟨u, k, hr, same, step⟩ := takes fun _ _ _ => by simp [hk]
      refine ⟨_, exec_homeApply found (by rw [isCount, hk]), ?_⟩
      rw [step]
      exact store_lands hr same idle hc ⟨hm, hw⟩ hk
    case atomic =>
      obtain ⟨u, k, hr, same, step⟩ := takes fun _ _ _ => by simp [hk]
      obtain ⟨⟨mem, landed⟩, value⟩ := atomic_lands hr same idle hc plain ⟨hm, hw⟩ hk
      refine ⟨_, exec_homeApply found (by rw [isCount, hk]), ?_⟩
      rw [step]
      exact ⟨mem, landed, value⟩
    case mxacc =>
      obtain ⟨u, k, hr, same, step⟩ := takes fun _ _ _ => by simp [hk]
      obtain ⟨⟨mem, landed⟩, value⟩ := mxacc_lands hr same idle hc plain ⟨hm, hw⟩ hk
      refine ⟨_, exec_homeApply found (by rw [isCount, hk]), ?_⟩
      rw [step]
      exact ⟨mem, landed, value⟩
    case count =>
      obtain ⟨u, k, hr, same, step⟩ := takes fun _ _ _ => by simp [hk]
      refine ⟨_, exec_counterMessageApply found (isCount_eq hk), ?_⟩
      rw [step]
      exact count_lands hr same idle hc watch ⟨hm, hw⟩ hk
    case pclr =>
      obtain ⟨u, k, hr, same, step⟩ := takes fun _ _ _ => by simp [hk]
      obtain ⟨⟨mem, landed⟩, marks⟩ := pclr_lands hr same idle hc hk
      refine ⟨_, exec_homeApply found (by rw [isCount, hk]), ?_⟩
      rw [step]
      exact ⟨mem, landed, marks⟩
  case fetched =>
    obtain ⟨t, reads, net, step, granted⟩ := homeStep_fetches found path alone ha fetch two
    refine ⟨_, exec_homeApply found hk, ?_⟩
    rw [step]
    refine ⟨(congrArg State.mem reads.package :), f.granted t q, ?_, rfl, rfl, by rw [granted]⟩
    exact List.mem_of_find?_eq_some (find_lupd_id (h := (·.granted t q)) (fun _ => rfl) (net ▸ found))
  case clears =>
    refine ⟨_, exec_replSequence s f.id, ?_⟩
    rw [sequencerTakes_pclr found ha hk]
    exact sequence_takes s f [(f.pa, List.replicate 128 0)] true
  case marked =>
    refine ⟨_, exec_replSequence s f.id, ?_⟩
    rw [sequencerTakes_repl found ha hk, if_pos hm]
    exact refuse_refuses s f
  case logs =>
    refine ⟨_, exec_replSequence s f.id, ?_⟩
    rw [sequencerTakes_repl found ha hk, if_neg (by simp [hm])]
    exact sequence_takes s f [(f.pa, bs)] false

end

section
/-! Where the package meets the world: the apertures, the endpoint's registers, NVMe, boot, power and cooling (R202, R417 to R431). -/

namespace Sys2Proof.Machine

open Claim

section
variable {s t u v : State} {q : Inbound} {a : Aperture} {l : Leaf} {n : Nat} {d : List Byte}

/-! ### Pieces and units of a request (R202, R419) -/

/-- An access that does not leave its line is one piece. -/
theorem linePieces_one {va : Word} (k : Nat) (hn : 0 < n) (h : va.toNat % 128 + n ≤ 128) : linePieces (k + 2) va 0 n = [(0, n)] := by
  have all : min n (128 - (va.toNat + 0) % 128) = n := by omega
  rw [linePieces, if_neg (by omega)]
  dsimp only
  rw [all, Nat.sub_self, linePieces, if_pos rfl]

/-- An access that does not leave its 8 aligned bytes is one unit. -/
theorem unitsOf_one (k : Nat) (hn : 0 < n) (h : l.pa % 8 + n ≤ 8) :
    unitsOf (k + 2) (0, n, l) = [⟨0, n, l.entry, l.level, l.entryPa, l.pa⟩] := by
  have all : min n (8 - l.pa % 8) = n := by omega
  rw [unitsOf, if_neg (by omega)]
  dsimp only
  rw [all, Nat.sub_self, unitsOf, if_pos rfl]

theorem unitsOf_more (k : Nat) (h : 8 < l.pa % 8 + n) : 2 ≤ (unitsOf (k + 2) (0, n, l)).length := by
  have next : ∀ (off m : Nat) (k' : Leaf), 0 < m → 1 ≤ (unitsOf (k + 1) (off, m, k')).length := fun off m k' hm => by
    rw [unitsOf, if_neg (by omega)]
    simp
  rw [unitsOf, if_neg (by omega)]
  exact Nat.succ_le_succ (next _ _ _ (by omega))

/-- The units of a piece lie in its page, at its bytes. -/
theorem unitsOf_mem {k off : Nat} {x : InUnit} (h : x ∈ unitsOf k (off, n, l)) :
    x.entry = l.entry ∧ l.pa ≤ x.pa ∧ x.pa < l.pa + n := by
  induction k generalizing off n l with
  | zero => simp [unitsOf] at h
  | succ k ih =>
    rw [unitsOf] at h
    split at h
    · simp at h
    · next hn =>
      rcases List.mem_cons.1 h with rfl | h
      · exact ⟨rfl, le_rfl, Nat.lt_add_of_pos_right (by omega)⟩
      · obtain ⟨entry, low, high⟩ := ih h
        dsimp only at entry low high
        exact ⟨entry, by omega, by omega⟩

/-! ### The page that a request finds (R346, R419) -/

/-- Within a line, an access lies in its page where its address says. -/
theorem leafPa_low (e : Word) (level : Nat) (va : Word) : leafPa e level va % 128 = va.toNat % 128 := by
  obtain ⟨k, hk⟩ : ∃ k, 2 ^ levelShift level = 128 * k := by
    unfold levelShift
    split
    · exact ⟨2 ^ 9, rfl⟩
    · exact ⟨2 ^ 14, rfl⟩
    · exact ⟨2 ^ 23, rfl⟩
    · exact ⟨2 ^ 36, rfl⟩
  rw [leafPa, entryBase, hk, Nat.add_mod, Nat.mod_mul_right_mod]
  omega

theorem walkFrom_low {c : CtxId} {oid payer : Nat} {va : Word} {level table : Nat}
    (h : walkFrom s c oid payer va level table = (.ok l, t)) : l.pa % 128 = va.toNat % 128 := by
  induction level generalizing s table with
  | zero =>
    unfold walkFrom at h
    grind [leafPa_low, xlateAt]
  | succ n ih =>
    unfold walkFrom at h
    grind [leafPa_low, xlateAt]

theorem inCheck_low {oid : Nat} {va : Word} (h : inCheck s q oid va = (some l, t)) : l.pa % 128 = va.toNat % 128 := by
  have old (w : State) (k : Leaf) : (underOld w oid va k).pa = k.pa := by unfold underOld; split <;> rfl
  unfold inCheck at h
  grind [walkFrom_low]

theorem inLeaves_one {oid : Nat} {va : Word} (h : inLeaves q oid va [(0, n)] s = (some [(0, n, l)], u)) :
    inCheck s q oid va = (some l, u) := by
  rw [inLeaves, show va + BitVec.ofNat 64 0 = va by simp] at h
  rcases hc : inCheck s q oid va with ⟨_ | k, w⟩ <;> rw [hc] at h
  · simp at h
  · simp only [inLeaves, Option.map_some, Prod.mk.injEq, Option.some.injEq, List.cons.injEq, and_true, true_and] at h
    rw [h.1, h.2]

/-! ### A request is made or waits (R419) -/

theorem inbound_first (hq : ∀ r ∈ s.dev.inQueue, r.src ≠ q.src) (hb : ∀ w ∈ s.dev.inBusy, w.q.src ≠ q.src) (h : inTry s q = some t) :
    inbound s q = t := by
  have queue : (s.dev.inQueue.any fun r => r.src == q.src) = false := List.any_eq_false.2 fun r hr => by simpa using hq r hr
  have busy : (s.dev.inBusy.any fun w => w.q.src == q.src) = false := List.any_eq_false.2 fun w hw => by simpa using hb w hw
  rw [inbound, queue, busy, h]
  rfl

theorem inTry_abort (h : apertureOf s q = none) : inTry s q = some (s.answers .abort) := by rw [inTry, h]

/-! ### A request of one piece, in an SM page (R418, R419) -/

theorem marked_sm {va : Word} {off : Nat} (hc : l.cls = clsSm) (hm : marked s l.owner l.line = false) : inMarked s va (off, n, l) = false := by
  rw [inMarked, hc]
  exact hm

theorem reads_dev (h : Reads s t) : t.dev = s.dev := (congrArg State.dev h.package :)
theorem wrote_dev {m : List Host.Cell} (h : Reads { s with mem := m } t) : t.dev = s.dev := (congrArg State.dev h.package :)
theorem reads_mem (h : Reads s t) : t.mem = s.mem := (congrArg State.mem h.package :)

theorem inProceeds_reads (s : State) (q : Inbound) (oid : Nat) (p : InPiece) : Reads s (inProceeds s q oid [p]) := pass_reads ..

theorem inSeals_reads (s : State) (q : Inbound) (oid : Nat) (p : InPiece) : Reads s (inSeals s q oid [p]) := sealFrame_reads ..

theorem inOrder_sm {off : Nat} (hp : inPending s q.src = false) (hc : l.cls = clsSm) (t : State) :
    inOrder s q [(off, n, l)] t = some t := by
  have notRepl : (clsSm == clsRepl) = false := rfl
  simp [inOrder, hp, hc, notRepl]

/-- What a request of one piece asks that is let through: its aperture, its page, and no earlier write of its source (R418, R419). -/
structure Asks (s : State) (q : Inbound) (a : Aperture) (l : Leaf) (u : State) : Prop where
  aperture : apertureOf s q = some a
  plain : a.cnt = false
  inside : q.off + inLen q.op ≤ a.size.toNat
  settled : inPending s q.src = false
  some_ : 0 < inLen q.op
  line : (a.vbase + BitVec.ofNat 64 q.off).toNat % 128 + inLen q.op ≤ 128
  leaf : inLeaves q a.oid (a.vbase + BitVec.ofNat 64 q.off) [(0, inLen q.op)] s = (some [(0, inLen q.op, l)], u)
  cls : l.cls = clsSm
  unmarked : marked u l.owner l.line = false

/-- Where the page of a request that is let through begins to serve it. -/
def served (u : State) (q : Inbound) (a : Aperture) (l : Leaf) : State :=
  inSeals (inProceeds u q a.oid [(0, inLen q.op, l)]) q a.oid [(0, inLen q.op, l)]

theorem served_reads (u : State) (q : Inbound) (a : Aperture) (l : Leaf) : Reads u (served u q a l) :=
  (inProceeds_reads ..).trans (inSeals_reads ..)

/-- A request that is let through, with all its units to come. -/
def workOf (q : Inbound) (a : Aperture) (l : Leaf) : InWork :=
  ⟨q, a.oid, a.vbase + BitVec.ofNat 64 q.off, unitsOf 17 (0, inLen q.op, l), List.replicate (inLen q.op) 0⟩

/-- A request that is taking effect is among those that are. -/
def State.works (s : State) (w : InWork) : State := s.onDev fun d => { d with inBusy := d.inBusy ++ [w] }

theorem inTry_begins (h : Asks s q a l u) (hop : q.op = .read n ∨ q.op = .write d ∧ a.w = true) : inTry s q =
    some (inUnit ((served u q a l).works (workOf q a l)) (workOf q a l)) := by
  have begins : inBegins (inProceeds u q a.oid [(0, inLen q.op, l)]) q a.oid (a.vbase + BitVec.ofNat 64 q.off) [(0, inLen q.op, l)] =
      inUnit ((served u q a l).works (workOf q a l)) (workOf q a l) := by
    simp [inBegins, workOf, served, State.works]
  have pieces := linePieces_one (inLen q.op / 128) h.some_ h.line
  have open_ := marked_sm (n := inLen q.op) (off := 0) (va := a.vbase + BitVec.ofNat 64 q.off) h.cls
    ((marked_same (inProceeds_reads u q a.oid (0, inLen q.op, l)) ..).trans h.unmarked)
  have notCr : (clsSm == clsCr) = false := rfl
  have notRo : (clsSm == clsRo) = false := rfl
  have inside := Nat.not_lt.2 h.inside
  have order := inOrder_sm (n := inLen q.op) (off := 0) h.settled h.cls
  rw [inTry, h.aperture]
  dsimp only
  rw [pieces, h.leaf, h.plain, ← begins]
  clear begins
  generalize inLen q.op = len at pieces open_ inside order ⊢
  obtain hr | ⟨hw, w⟩ := hop
  · simp [hr, inWrites, inside, h.cls, notCr, order, open_]
  · simp [hw, inWrites, inside, h.cls, notCr, notRo, order, open_, w]

/-! ### One unit of a request (R202) -/

/-- An access from outside the cores is measured by no pass (R367). -/
theorem writeHome_touches (s : State) {c : CtxId} (hc : c.which = 3) (owner pa : Nat) (bs : List Byte) (oid : Nat) :
    writeHome s c owner pa bs oid = touchHome { s with mem := memWrite s.mem pa bs } c oid owner (pa / 128) true := by
  have captured : capturePage s c pa = s := by
    unfold capturePage
    dsimp only
    split
    · rfl
    · simp [hc]
  rw [writeHome, captured]

theorem writeHome_outside (s : State) {c : CtxId} (hc : c.which = 3) (owner pa : Nat) (bs : List Byte) (oid : Nat) :
    Reads { s with mem := memWrite s.mem pa bs } (writeHome s c owner pa bs oid) := by
  rw [writeHome_touches s hc]
  exact touchHome_reads ..

theorem enters_which (src : Nat) : (enters src).which = 3 := by
  unfold enters outside
  split <;> rfl

theorem inRead_sm (hc : l.cls = clsSm) (src oid off : Nat) (va : Word) : (inRead s src oid va (off, n, l)).1 = memRead s.mem l.pa n ∧
    Reads s (inRead s src oid va (off, n, l)).2 := by
  have notCr : (clsSm == clsCr) = false := rfl
  have notRepl : (clsSm == clsRepl) = false := rfl
  simp only [inRead, hc, notCr, notRepl, Bool.false_eq_true, if_false]
  exact ⟨trivial, touchHome_reads ..⟩

theorem inWrite_sm (hc : l.cls = clsSm) (src oid : Nat) (bs : List Byte) :
    Reads { s with mem := memWrite s.mem l.pa bs } (inWrite s src oid l bs) := by
  have notRepl : (clsSm == clsRepl) = false := rfl
  simp only [inWrite, hc, notRepl, Bool.false_eq_true, if_false]
  exact writeHome_outside _ (enters_which src) ..

section
variable {w : InWork} {x : InUnit}

/-- The unit of a request that is taken next (R202). -/
theorem inUnit_picks (s : State) (h : 2 ≤ w.left.length) : ∃ i x, (if w.left.length ≤ 1 then 0 else Config.choice s.tick % w.left.length) = i ∧
    w.left[i]? = some x ∧ x ∈ w.left ∧ (w.left.eraseIdx i).length + 1 = w.left.length ∧ (w.left.eraseIdx i).isEmpty = false := by
  rw [if_neg (by omega)]
  have below : Config.choice s.tick % w.left.length < w.left.length := Nat.mod_lt _ (by omega)
  have fewer := List.length_eraseIdx_of_lt below
  refine ⟨_, _, rfl, List.getElem?_eq_getElem below, List.getElem_mem below, by omega, ?_⟩
  rw [List.isEmpty_eq_false_iff, ← List.length_pos_iff]
  omega

theorem inUnit_last_read (hl : w.left = [x]) (hop : w.q.op = .read n) (hm : inMarked s w.va x.piece = false) (hc : x.piece.2.2.cls = clsSm) :
    (inUnit s w).mem = s.mem ∧ (inUnit s w).dev.answers =
      s.dev.answers ++ [.data (w.got.take x.off ++ memRead s.mem x.pa x.len ++ w.got.drop (x.off + x.len))] := by
  obtain ⟨bytes, rest⟩ := inRead_sm (s := s) (n := x.piece.2.1) hc w.q.src w.oid x.piece.1 w.va
  have ends : inUnit s w = ((inRead s w.q.src w.oid w.va x.piece).2.onDev fun d =>
      { d with inBusy := d.inBusy.filter fun v => v.q.src != w.q.src }).answers
        (.data (w.got.take x.off ++ (inRead s w.q.src w.oid w.va x.piece).1 ++ w.got.drop (x.off + x.len))) := by
    simp [inUnit, hl, hop, hm]
  replace bytes : (inRead s w.q.src w.oid w.va x.piece).1 = memRead s.mem x.pa x.len := bytes
  have mem := reads_mem rest
  have dev := congrArg DevSt.answers (reads_dev rest)
  rw [ends, bytes]
  exact ⟨mem, congrArg (· ++ _) dev⟩

theorem inUnit_last_write (hl : w.left = [x]) (hop : w.q.op = .write d) (hm : inMarked s w.va x.piece = false) (hc : x.piece.2.2.cls = clsSm) :
    (inUnit s w).mem = memWrite s.mem x.pa ((d.drop x.off).take x.len) ∧ (inUnit s w).dev.answers = s.dev.answers ++ [.done] := by
  have written := inWrite_sm (s := s) hc w.q.src w.oid ((d.drop x.off).take x.len)
  have ends : inUnit s w = (((inWrite s w.q.src w.oid x.piece.2.2 ((d.drop x.off).take x.len)).inStamp w.q.src).onDev fun d =>
      { d with inBusy := d.inBusy.filter fun v => v.q.src != w.q.src }).answers .done := by
    simp [inUnit, hl, hop, hm]
  have mem := reads_mem written
  have dev := congrArg DevSt.answers (wrote_dev written)
  rw [ends]
  generalize inWrite s w.q.src w.oid x.piece.2.2 ((d.drop x.off).take x.len) = r at mem dev ⊢
  exact ⟨mem, congrArg (· ++ _) dev⟩

/-- With units left the request stays on the way, and is not answered. -/
def Begun (s t : State) (w : InWork) : Prop := t.dev.answers = s.dev.answers ∧ ∃ v ∈ t.dev.inBusy, v.q = w.q ∧ v.left.length + 1 = w.left.length

theorem begun_of_dev {t' : State} {y : InWork} (hd : t'.dev.answers = s.dev.answers ∧ t'.dev.inBusy = s.dev.inBusy) (hw : w ∈ s.dev.inBusy)
    (hq : y.q = w.q) (hl : y.left.length + 1 = w.left.length) :
    Begun s (t'.onDev fun d => { d with inBusy := d.inBusy.map fun v => if v.q.src == w.q.src then y else v }) w := by
  refine ⟨hd.1, y, List.mem_map.2 ⟨w, hd.2 ▸ hw, by simp⟩, hq, hl⟩

theorem inUnit_more_read (h : 2 ≤ w.left.length) (hop : w.q.op = .read n) (hw : w ∈ s.dev.inBusy)
    (hm : ∀ x ∈ w.left, inMarked s w.va x.piece = false ∧ x.piece.2.2.cls = clsSm) : Begun s (inUnit s w) w := by
  obtain ⟨i, x, pick, at_, mem, length, more⟩ := inUnit_picks s h
  obtain ⟨unmarked, cls⟩ := hm x mem
  have dev := reads_dev (inRead_sm (s := s) (n := x.piece.2.1) cls w.q.src w.oid x.piece.1 w.va).2
  simp only [inUnit, hop, pick, at_, unmarked, more, Bool.false_eq_true, if_false]
  exact begun_of_dev ⟨congrArg DevSt.answers dev, congrArg DevSt.inBusy dev⟩ hw rfl length

theorem inUnit_more_write (h : 2 ≤ w.left.length) (hop : w.q.op = .write d) (hw : w ∈ s.dev.inBusy)
    (hm : ∀ x ∈ w.left, inMarked s w.va x.piece = false ∧ x.piece.2.2.cls = clsSm) : Begun s (inUnit s w) w := by
  obtain ⟨i, x, pick, at_, mem, length, more⟩ := inUnit_picks s h
  obtain ⟨unmarked, cls⟩ := hm x mem
  have dev := wrote_dev (inWrite_sm (s := s) cls w.q.src w.oid ((d.drop x.off).take x.len))
  simp only [inUnit, hop, pick, at_, unmarked, more, Bool.false_eq_true, if_false]
  exact begun_of_dev (t' := State.inStamp _ _) ⟨(congrArg DevSt.answers dev :), (congrArg DevSt.inBusy dev :)⟩ hw rfl length

end

/-! ### A request of one piece takes effect, or begins to -/

section
variable (h : Asks s q a l u)
include h

/-- No unit of a request that is let through meets a mark. -/
theorem Asks.units {x : InUnit} (hx : x ∈ (workOf q a l).left) (va : Word) :
    inMarked ((served u q a l).works (workOf q a l)) va x.piece = false ∧ x.piece.2.2.cls = clsSm := by
  obtain ⟨entry, low, high⟩ := unitsOf_mem hx
  have cls : x.piece.2.2.cls = clsSm := by
    show entryCls x.entry = _
    rw [entry]
    exact h.cls
  have home := inCheck_low (inLeaves_one h.leaf)
  have line := h.line
  have same : x.pa / 128 = l.pa / 128 := by omega
  refine ⟨marked_sm cls ?_, cls⟩
  show marked (served u q a l) (entryOwner x.entry) (x.pa / 128) = false
  rw [entry, same, marked_same (served_reads u q a l)]
  exact h.unmarked

/-- A read of one unit gives its bytes (R202, R419). -/
theorem Asks.reads (hop : q.op = .read n) (h8 : l.pa % 8 + inLen q.op ≤ 8) : ∃ t, inTry s q = some t ∧ t.mem = u.mem ∧
    t.dev.answers = u.dev.answers ++ [.data (memRead u.mem l.pa n)] := by
  have len : inLen q.op = n := by rw [hop, inLen]
  have one : (workOf q a l).left = [⟨0, n, l.entry, l.level, l.entryPa, l.pa⟩] := len ▸ unitsOf_one 15 h.some_ h8
  obtain ⟨unmarked, cls⟩ := h.units (one ▸ List.mem_singleton.2 rfl) (workOf q a l).va
  obtain ⟨mem, answers⟩ := inUnit_last_read one hop unmarked cls
  have got : (workOf q a l).got.drop (0 + n) = [] := List.drop_eq_nil_of_le (by simp [workOf, len])
  have before := reads_mem (served_reads u q a l)
  refine ⟨_, inTry_begins (d := []) h (.inl hop), mem.trans before, ?_⟩
  rw [answers, got, List.append_nil]
  show (served u q a l).dev.answers ++ [.data (memRead (served u q a l).mem l.pa n)] = _
  rw [reads_dev (served_reads u q a l), before]

/-- A write of one unit writes its bytes (R202, R419). -/
theorem Asks.writes (hop : q.op = .write d) (hw : a.w = true) (h8 : l.pa % 8 + inLen q.op ≤ 8) : ∃ t, inTry s q = some t ∧
    t.mem = memWrite u.mem l.pa d ∧ t.dev.answers = u.dev.answers ++ [.done] := by
  have len : inLen q.op = d.length := by rw [hop, inLen]
  have one : (workOf q a l).left = [⟨0, d.length, l.entry, l.level, l.entryPa, l.pa⟩] := len ▸ unitsOf_one 15 h.some_ h8
  obtain ⟨unmarked, cls⟩ := h.units (one ▸ List.mem_singleton.2 rfl) (workOf q a l).va
  obtain ⟨mem, answers⟩ := inUnit_last_write one hop unmarked cls
  have before := reads_mem (served_reads u q a l)
  have dev := congrArg DevSt.answers (reads_dev (served_reads u q a l))
  refine ⟨_, inTry_begins (n := 0) h (.inr ⟨hop, hw⟩), ?_, ?_⟩
  · rw [mem, List.drop_zero, List.take_length]
    exact congrArg (memWrite · l.pa d) before
  · rw [answers]
    exact congrArg (· ++ _) dev

/-- Of a longer request one unit is gone when it has begun (R202). -/
theorem Asks.begins (hop : q.op = .read n ∨ q.op = .write d ∧ a.w = true) (h8 : 8 < l.pa % 8 + inLen q.op) : ∃ t, inTry s q = some t ∧
    t.dev.answers = u.dev.answers ∧ ∃ w ∈ t.dev.inBusy, w.q = q ∧ w.left.length + 1 = (unitsOf 17 (0, inLen q.op, l)).length := by
  have dev := congrArg DevSt.answers (reads_dev (served_reads u q a l))
  have two : 2 ≤ (workOf q a l).left.length := unitsOf_more 15 h8
  have units := fun x (hx : x ∈ (workOf q a l).left) => h.units hx (workOf q a l).va
  have here : workOf q a l ∈ ((served u q a l).works (workOf q a l)).dev.inBusy :=
    List.mem_append_right _ (List.mem_singleton.2 rfl)
  refine ⟨_, inTry_begins h hop, ?_⟩
  have begun : Begun ((served u q a l).works (workOf q a l)) (inUnit ((served u q a l).works (workOf q a l)) (workOf q a l))
      (workOf q a l) := by
    obtain hr | ⟨hw, -⟩ := hop
    · exact inUnit_more_read two hr here units
    · exact inUnit_more_write two hw here units
  exact ⟨begun.1.trans dev, begun.2⟩

end

/-! ### A write through a counting aperture (R283, R420) -/

/-- A counter that no trigger watches takes what a write from outside adds. -/
theorem counterApply_outside (s : State) {c : CtxId} (hc : c.which = 3) (owner pa : Nat) (x wit : Word) (hw : ∀ w ∈ s.home.watches, w.pa ≠ pa) :
    (counterApply s c owner pa x wit).mem = memWrite s.mem pa (leBytes 8 ((leNat (memRead s.mem pa 8) + x.toNat) % 2 ^ 64)) ∧
    (counterApply s c owner pa x wit).dev = s.dev := by
  have written := writeHome_outside s hc owner pa (leBytes 8 ((leNat (memRead s.mem pa 8) + x.toNat) % 2 ^ 64)) (s.ctxOf c).fir.oid.toNat
  have watches := (congrArg HomeSt.watches written.home :)
  have mem := reads_mem written
  have dev := wrote_dev written
  rw [counterApply_unwatched x wit (by rw [watches]; exact hw)]
  exact ⟨mem, dev⟩

theorem inbound_counts (hap : apertureOf s q = some a) (hcnt : a.cnt = true) (hwr : a.w = true) (hop : q.op = .write d)
    (hd : d.length = 8) (hal : (a.vbase + BitVec.ofNat 64 q.off).toNat % 8 = 0) (hin : q.off + 8 ≤ a.size.toNat)
    (hp : inPending s q.src = false) (hl : inCheck s q a.oid (a.vbase + BitVec.ofNat 64 q.off) = (some l, u)) (hc : l.cls = clsSm)
    (hm : marked u l.owner l.line = false) (hw : ∀ w ∈ u.home.watches, w.pa ≠ l.pa) : ∃ t, inTry s q = some t ∧
    t.mem = memWrite u.mem l.pa (leBytes 8 ((leNat (memRead u.mem l.pa 8) + leNat d % 2 ^ 64) % 2 ^ 64)) ∧
    t.dev.answers = u.dev.answers ++ [.done] := by
  have inside := Nat.not_lt.2 hin
  have passed := inProceeds_reads u q a.oid (0, 8, l)
  have sealed := passed.trans (inSeals_reads (inProceeds u q a.oid [(0, 8, l)]) q a.oid (0, 8, l))
  have unmarked := (marked_same passed l.owner l.line).trans hm
  have order := inOrder_sm (n := 8) (off := 0) hp hc
  have takes : inTry s q = countWrite s q := by
    rw [inTry, hap]
    simp [hcnt, hop, inWrites]
  rw [takes, countWrite, hap, hop]
  dsimp only
  rw [hl]
  simp only [hwr, hd, hal, inside, hc, order, unmarked, Bool.not_true, bne_self_eq_false, Bool.or_self, decide_false,
    Bool.false_eq_true, if_false]
  refine ⟨_, rfl, ?_⟩
  generalize inSeals (inProceeds u q a.oid [(0, 8, l)]) q a.oid [(0, 8, l)] = v at sealed ⊢
  have watches := (congrArg HomeSt.watches sealed.home :)
  obtain ⟨mem, dev⟩ := counterApply_outside v (enters_which q.src) l.owner l.pa (BitVec.ofNat 64 (leNat d)) (mkWit .device (tfind v.dev.lastIn q.src))
    (by rw [watches]; exact hw)
  rw [reads_mem sealed, BitVec.toNat_ofNat] at mem
  have answers := congrArg DevSt.answers (dev.trans (reads_dev sealed))
  generalize counterApply v _ _ _ _ _ = r at mem answers ⊢
  exact ⟨mem, congrArg (· ++ _) answers⟩

/-! ### What a trace record leaves of the device's registers (R364, R424) -/

theorem reachFor_dev (s : State) (c : CtxId) (oid owner line : Nat) (arrived : Option Bool) : (reachFor s c oid owner line arrived).dev = s.dev :=
  reads_dev (reachFor_reads ..)

theorem countEv_dev (s : State) (c : CtxId) (code n oid launch : Nat) : (s.countEv c code n oid launch).dev = s.dev := by
  unfold State.countEv
  split <;> rfl

theorem tlbFill_dev (s : State) (payer : Nat) (es : List TlbEntry) (cap idx : Nat) (e : TlbEntry) : (tlbFill s payer es cap idx e).2.dev = s.dev := by
  unfold tlbFill
  dsimp only
  split
  · rfl
  · split <;> rfl

theorem noteClass_dev (s : State) (oid level vpage : Nat) (e : Word) : (s.noteClass oid level vpage e).dev = s.dev := by
  unfold State.noteClass
  split <;> rfl

theorem sealFrame_dev (s : State) (w : Who) (e : Word) (pa : Nat) : (s.sealFrame w e pa).dev = s.dev := reads_dev (sealFrame_reads ..)

theorem walkFrom_dev (s : State) (c : CtxId) (oid payer : Nat) (va : Word) (level table : Nat) :
    (walkFrom s c oid payer va level table).2.dev = s.dev := by
  induction level generalizing s table with
  | zero =>
    unfold walkFrom
    grind [reachFor_dev]
  | succ n ih =>
    unfold walkFrom
    grind [reachFor_dev, tlbFill_dev, State.updDie_dev]

theorem tlbTried_dev (s : State) (c : CtxId) (oid payer : Nat) (va : Word) : (tlbTried s c oid payer va).2.dev = s.dev := by
  have tlb1 (t : State) (n e) : (tlb1Fill t n e).dev = t.dev := rfl
  grind [tlbTried, countEv_dev, walkFrom_dev, tlbFill_dev, noteClass_dev, State.updCluster_dev]

theorem check_dev (s : State) (c : CtxId) (w : Who) (va : Word) (n : Nat) (k : Kind) (payer : Nat) :
    ChkOk (·.2.dev = s.dev) (check s c w va n k payer) := by
  have tried := tlbTried_dev s c w.oid payer va
  grind [check, translate, = except_map, tlbTranslate, ChkOk]

theorem traceWrite_dev (s : State) (c : CtxId) (opener : Nat) (va : Word) (bs : List Byte) :
    ChkOk (·.dev = s.dev) (traceWrite s c opener va bs) := by
  have written (t : State) (oid p m w e pa) : ({ t.pass oid p with mem := m }.sealFrame w e pa).dev = t.dev := sealFrame_dev ..
  refine (check_dev ..).bind fun r hr => ?_
  dsimp only
  exact .either .error (.either .error (.either .error (.ok ((written ..).trans hr))))

theorem trace_dev (s : State) (oid kind payload : Nat) (c : CtxId) : (s.trace oid kind payload c).dev = s.dev := by
  unfold State.trace
  dsimp only
  split
  · rfl
  · split
    · rfl
    · split
      · rfl
      · split
        · rfl
        · next heq => exact ((traceWrite_dev ..).of_eq heq :)

/-- A session that is closed is no more (R407, R424). -/
theorem closeTrace_closes (s : State) (oid : Nat) (cut : Bool) (c : CtxId) : let t := closeTrace s oid cut c
    (t.ownerSt oid).trace = none ∧ t.dev = s.dev := by
  unfold closeTrace
  dsimp only
  split
  · next h => exact ⟨h, rfl⟩
  · refine ⟨by rw [State.ownerSt_updOwner_same], ?_⟩
    rw [State.updOwner_dev, trace_dev]
    split
    · rfl
    · exact trace_dev ..

/-! ### Reset and NVMe (R421, R425) -/

/-- After a reset owner 0 alone exists (R325, R421). -/
theorem resetPackage_valid (s : State) (on : Bool) (o : Nat) : ((resetPackage s on).ownerSt o).valid = decide (o = 0) := by
  show ((State.reset.updOwner 0 fun o => { o with seed := freshSeed s 0 }).ownerSt o).valid = _
  rw [State.ownerSt_updOwner, State.reset_ownerSt]
  by_cases h : o = 0
  · simp [h]
  · simp [State.reset_ownerSt, h, Ne.symm h]

/-- A write of the system cores by NVMe that stays in one line (R425). -/
theorem nvmeWrite_line (s : State) {addr : Nat} (hd : d ≠ []) (hl : addr % 128 + d.length ≤ 128) (ha : addr < hbmEnd)
    (hf : addr / 65536 ∈ s.dev.nvmeDma) (hs : tfind s.home.sealTags (addr / 65536) = none) (hm : marked s 0 (addr / 128) = false) :
    ∃ t, execNvmeDmaWrite false addr d s = .next t ∧ t.mem = memWrite s.mem addr d ∧ t.cx = s.cx := by
  have pos : 0 < d.length := List.length_pos_iff.2 hd
  have nat : (BitVec.ofNat 64 addr).toNat = addr := by
    rw [BitVec.toNat_ofNat, Nat.mod_eq_of_lt]
    exact ha.trans (by decide)
  have one := linePieces_one (va := BitVec.ofNat 64 addr) (d.length / 128) pos (nat.symm ▸ hl)
  have inside : inHbm addr = true := by simpa [inHbm] using ha
  have ok : s.dev.nvmeDma.contains (addr / 65536) = true := by simpa using hf
  have passed := pass_reads s 0 (inPath s 0 (sliceKey s 0 (addr / 128)))
  have written := writeHome_outside (s.pass 0 (inPath s 0 (sliceKey s 0 (addr / 128)))) (c := outside) rfl 0 addr d
    ((s.pass 0 (inPath s 0 (sliceKey s 0 (addr / 128)))).ctxOf outside).fir.oid.toNat
  have mem := reads_mem written
  refine ⟨writeHome (s.pass 0 (inPath s 0 (sliceKey s 0 (addr / 128)))) outside 0 addr d, ?_, mem, ?_⟩
  · simp only [execNvmeDmaWrite, one, Bool.false_eq_true, if_false, List.all_cons, List.all_nil, Nat.add_zero, ok, inside, hs, hm,
      Option.isNone_none, Bool.not_false, Bool.and_self, if_true, List.foldl_cons, List.foldl_nil, List.drop_zero, List.take_length]
  · rw [writeHome_touches _ rfl]
    rfl

/-! ### Boot (R428) -/

/-- A byte that a memory does not list reads as one that no write has touched. -/
theorem memGet_unlisted {x : Nat} : ∀ {m : List Host.Cell}, (∀ c ∈ m, c.1 ≠ x) → memGet m x = memGet [] x := by
  intro m
  induction m with
  | nil => exact fun _ => rfl
  | cons c m ih =>
    intro h
    obtain ⟨j, b⟩ := c
    show (if j = x then b else if x < j then Memory.unlisted else memGet m x) = _
    rw [if_neg (h _ (.head _))]
    split
    · rfl
    · exact ih fun c hc => h c (.tail _ hc)

/-- Bytes that are cleared, cell by cell of a memory. -/
theorem memGet_cleared {p n x : Nat} (low : p ≤ x) (high : x < p + n) : ∀ (l m : List Host.Cell), Memory.wf m = true →
    (memGet m x = Memory.unlisted ∨ ∃ c ∈ l, c.1 = x) →
    memGet (l.foldl (fun b (c : Host.Cell) => if p ≤ c.1 && c.1 < p + n then memPut b c.1 Memory.unlisted else b) m) x =
      Memory.unlisted := by
  intro l
  induction l with
  | nil => exact fun m _ h => h.elim id fun ⟨_, hc, _⟩ => absurd hc List.not_mem_nil
  | cons c l ih =>
    intro m wf h
    rw [List.foldl_cons]
    refine ih _ ?_ ?_
    · split
      · exact memPut_wf _ _ wf
      · exact wf
    · by_cases hx : c.1 = x
      · rw [if_pos (by simp [hx, low, high]), memGet_memPut _ _ wf, if_pos hx.symm]
        exact .inl rfl
      · refine h.imp (fun h => ?_) fun ⟨e, he, same⟩ => ⟨e, ?_, same⟩
        · split
          · rw [memGet_memPut _ _ wf, if_neg (Ne.symm hx), h]
          · exact h
        · exact (List.mem_cons.1 he).resolve_left fun h => hx (h ▸ same)

theorem memGet_memClear {m : List Host.Cell} {p n x : Nat} (wf : Memory.wf m = true) (low : p ≤ x) (high : x < p + n) :
    memGet (memClear m p n) x = Memory.unlisted := by
  refine memGet_cleared low high m m wf ?_
  by_cases h : ∃ c ∈ m, c.1 = x
  · exact .inr h
  · exact .inl (memGet_unlisted fun c hc e => h ⟨c, hc, e⟩)

theorem memRead_range (m : List Host.Cell) (p n : Nat) : memRead m p n = (List.range n).map fun i => memGet m (p + i) := by
  induction n generalizing p with
  | zero => rfl
  | succ n ih =>
    rw [memRead, ih, List.range_succ_eq_map, List.map_cons, List.map_map]
    refine congrArg _ (List.map_congr_left fun i _ => ?_)
    rw [Function.comp_apply, Nat.succ_eq_add_one, Nat.add_right_comm, Nat.add_assoc]

/-- The entry of owner 0 that the device kernel starts with, byte by byte. -/
def firstEntry : List Byte := (List.range 64).map fun i => if i = 7 then 0x80 else Memory.unlisted

theorem kernelStarts_entry {s : State} (wf : Memory.wf s.mem = true) :
    memRead (kernelStarts s).mem (Config.ownerTablePa.toNat + 64 * 0) 64 = firstEntry := by
  have images := foldl_wf (f := fun m d => memWrite m (s.dieSt d).pmapbase.toNat recordImage) (fun _ _ hm => memWrite_wf _ _ hm)
    (List.range 9) wf
  have cleared := memClear_wf Config.ownerTablePa.toNat (64 * 256) images
  rw [kernelStarts, memRead_range, firstEntry]
  dsimp only
  refine List.map_congr_left fun i hi => ?_
  have below := List.mem_range.1 hi
  rw [memWrite, memWrite, memGet_memPut _ _ cleared]
  by_cases h : i = 7
  · rw [if_pos (by omega), if_pos h]
  · rw [if_neg (by omega), if_neg h, memGet_memClear images (by omega) (by omega)]

/-- The owner table that the device kernel starts with says that owner 0 exists (R428). -/
theorem kernelStarts_owner {s : State} (wf : Memory.wf s.mem = true) : entryValid (ownerEntry (kernelStarts s) 0) = true := by
  rw [ownerEntry, kernelStarts_entry wf]
  decide +kernel

theorem ownerEvent_rest (s : State) (kind oid : Nat) (fid : BitVec 32) (core index addr : Nat) :
    (s.ownerEvent kind oid fid core index addr).cx = s.cx ∧ (s.ownerEvent kind oid fid core index addr).dev.linksDown = s.dev.linksDown := by
  unfold State.ownerEvent State.sysEvent
  split <;> exact ⟨rfl, rfl⟩

section
variable (hp : s.powered = true) (hb : s.bootst.toNat < 7)
include hp hb

theorem bootStep_passes (h : s.bootst.toNat + 1 ≠ s.dev.bootFail.toNat ∨ s.bootst.toNat + 1 = 7) :
    bootStep s = { bootDoes s (s.bootst.toNat + 1) with bootst := BitVec.ofNat 64 (s.bootst.toNat + 1) } := by
  have on : booting s = true := by simp [booting, hp, hb]
  have goes : (s.bootst.toNat + 1 != s.dev.bootFail.toNat || s.bootst.toNat + 1 == 7) = true := by simpa using h
  rw [bootStep, on]
  dsimp only
  rw [goes]
  rfl

theorem bootStep_stays (h : s.bootst.toNat + 1 = s.dev.bootFail.toNat) (h5 : s.bootst.toNat + 1 ≤ 5) :
    bootStep s = { s with bootst := BitVec.ofNat 64 ((s.bootst.toNat + 1) * 257) } := by
  have on : booting s = true := by simp [booting, hp, hb]
  have fails : (s.bootst.toNat + 1 != s.dev.bootFail.toNat || s.bootst.toNat + 1 == 7) = false := by
    rw [Bool.or_eq_false_iff]
    exact ⟨by simpa using h, beq_false_of_ne (by omega)⟩
  rw [bootStep, on]
  dsimp only
  rw [fails, if_pos h5]
  rfl

theorem bootStep_link (h : s.bootst.toNat + 1 = s.dev.bootFail.toNat) (h6 : s.bootst.toNat + 1 = 6) :
    (bootStep s).bootst = BitVec.ofNat 64 (s.bootst.toNat + 1) ∧ (bootStep s).cx = s.cx ∧
    Config.deadLink s.tick % 16 ∈ (bootStep s).dev.linksDown := by
  have on : booting s = true := by simp [booting, hp, hb]
  have fails : (s.bootst.toNat + 1 != s.dev.bootFail.toNat || s.bootst.toNat + 1 == 7) = false := by
    rw [Bool.or_eq_false_iff]
    exact ⟨by simpa using h, beq_false_of_ne (by omega)⟩
  rw [bootStep, on]
  dsimp only
  rw [fails, if_neg (show ¬s.bootst.toNat + 1 ≤ 5 by omega), if_neg (show ¬(!true) = true by decide), if_neg Bool.false_ne_true]
  dsimp only
  rw [(ownerEvent_rest ..).1, (ownerEvent_rest ..).2]
  refine ⟨rfl, rfl, ?_⟩
  simp only [State.onDev]
  split
  · next h => simpa using h
  · exact .head _

end

theorem kernelStarts_cx (s : State) : (kernelStarts s).cx = s.cx := by rw [kernelStarts]

theorem bootDoes_seven (s : State) : bootDoes s 7 = kernelStarts s := by rw [bootDoes]

theorem bootDoes_cx (s : State) (n : Nat) : (bootDoes s n).cx = s.cx := by
  unfold bootDoes
  split
  · rfl
  · rfl
  · exact kernelStarts_cx s
  · rfl

/-- Where boot is after a step: on, or in ROM with the step as its code (R428). -/
def booted (s t : State) (b : BitVec 8) : Prop := t.bootst = (if b = BitVec.ofNat 8 (s.bootst.toNat + 1) ∧ s.bootst.toNat + 1 ≤ 5 then
  BitVec.ofNat 64 ((s.bootst.toNat + 1) * 257) else BitVec.ofNat 64 (s.bootst.toNat + 1)) ∧ t.cx = s.cx

/-- The step that the failure code names (R428). -/
theorem bootFail_iff (b : BitVec 8) (hb : n < 7) : b = BitVec.ofNat 8 (n + 1) ↔ n + 1 = b.toNat := by
  rw [← BitVec.toNat_inj, BitVec.toNat_ofNat]
  omega

theorem bootStep_booted (hp : s.powered = true) (hb : s.bootst.toNat < 7) : booted s (bootStep s) s.dev.bootFail := by
  unfold booted
  simp only [bootFail_iff _ hb]
  by_cases hf : s.bootst.toNat + 1 = s.dev.bootFail.toNat
  · by_cases h5 : s.bootst.toNat + 1 ≤ 5
    · rw [bootStep_stays hp hb hf h5, if_pos ⟨hf, h5⟩]
      exact ⟨rfl, rfl⟩
    · rw [if_neg fun h => h5 h.2]
      by_cases h7 : s.bootst.toNat + 1 = 7
      · rw [bootStep_passes hp hb (.inr h7)]
        exact ⟨rfl, bootDoes_cx ..⟩
      · obtain ⟨at_, cx, -⟩ := bootStep_link hp hb hf (by omega)
        exact ⟨at_, cx⟩
  · rw [bootStep_passes hp hb (.inl hf), if_neg fun h => hf h.1]
    exact ⟨rfl, bootDoes_cx ..⟩

/-- The first step of boot, whether it fails or not, leaves memory and the code of the failure to come (R428). -/
theorem bootStep_first (hp : s.powered = true) (h0 : s.bootst.toNat = 0) :
    (bootStep s).dev.bootFail = s.dev.bootFail ∧ (bootStep s).mem = s.mem := by
  by_cases hf : s.bootst.toNat + 1 = s.dev.bootFail.toNat
  · rw [bootStep_stays hp (by omega) hf (by omega)]
    exact ⟨rfl, rfl⟩
  · rw [bootStep_passes hp (by omega) (.inl hf), h0]
    exact ⟨rfl, rfl⟩

/-- Step 5 of boot writes all of HBM to zero (R428). -/
theorem bootStep_zeroes (hp : s.powered = true) (h5 : s.bootst.toNat + 1 = 5) (hf : s.dev.bootFail ≠ 5) {x : Nat} (hx : x < hbmEnd) :
    memGet (bootStep s).mem x = memGet [] x := by
  have goes : s.bootst.toNat + 1 ≠ s.dev.bootFail.toNat := fun h => hf (BitVec.eq_of_toNat_eq (by rw [← h, h5]; rfl))
  rw [bootStep_passes hp (by omega) (.inl goes), h5]
  refine memGet_unlisted fun c hc e => ?_
  have window : inWindow c.1 = true := (List.mem_filter.1 (show c ∈ s.mem.filter fun c => inWindow c.1 from hc)).2
  rw [e] at window
  have below : x < 0x24000000000 := hx
  simp only [inWindow, inHost, inLink, Bool.or_eq_true, Bool.and_eq_true, decide_eq_true_eq] at window
  omega

/-- Step 7 of boot starts the device kernel, as owner 0 (R428). -/
theorem bootStep_starts (hp : s.powered = true) (h7 : s.bootst.toNat + 1 = 7) (wf : Memory.wf s.mem = true) :
    entryValid (ownerEntry (bootStep s) 0) = true := by
  have starts := kernelStarts_owner wf
  rw [bootStep_passes hp (by omega) (.inr h7), h7, bootDoes_seven]
  generalize kernelStarts s = k at starts ⊢
  exact starts

/-! ### Power and cooling (R430, R431) -/

/-- The clocks of clusters after each of several has been slowed. -/
theorem clocks_slowed (base : Nat) : ∀ (is : List Nat) (v : State), is.Nodup →
    let t := is.foldl (fun s i => s.updCluster (base + i) fun k => { k with clockKHz := k.clockKHz - 100000 }) v
    t.cx = v.cx ∧ t.mem = v.mem ∧ ∀ i, (t.clusterSt (base + i)).clockKHz =
      if i ∈ is then (v.clusterSt (base + i)).clockKHz - 100000 else (v.clusterSt (base + i)).clockKHz := by
  intro is
  induction is with
  | nil => exact fun v _ => ⟨rfl, rfl, fun i => rfl⟩
  | cons j is ih =>
    intro v h
    obtain ⟨fresh, rest⟩ := List.nodup_cons.1 h
    obtain ⟨cx, mem, clocks⟩ := ih (v.updCluster (base + j) fun k => { k with clockKHz := k.clockKHz - 100000 }) rest
    refine ⟨cx, mem, fun i => ?_⟩
    rw [List.foldl_cons, clocks, State.clusterSt_updCluster]
    by_cases hj : j = i
    · subst hj
      simp [fresh]
    · simp [hj, Ne.symm hj]

/-! ### The acts of the world -/

theorem exec_inboundRequest (hq : ∀ r ∈ s.dev.inQueue, r.src ≠ q.src) (hb : ∀ w ∈ s.dev.inBusy, w.q.src ≠ q.src) (h : inTry s q = some t) :
    exec (.inboundRequest q) s = .next t := congrArg _ (inbound_first hq hb h)

theorem exec_apertureCounterWrite (hap : apertureOf s q = some a) (hcnt : a.cnt = true) (hop : q.op = .write d)
    (hq : ∀ r ∈ s.dev.inQueue, r.src ≠ q.src) (hb : ∀ w ∈ s.dev.inBusy, w.q.src ≠ q.src) (h : inTry s q = some t) :
    exec (.apertureCounterWrite q) s = .next t := by
  show execApertureCounterWrite q s = _
  rw [execApertureCounterWrite, hap]
  simp only [hcnt, hop, inWrites, Bool.and_self, if_true]
  exact congrArg _ (inbound_first hq hb h)

theorem exec_mbox_plain (x : Word) (h : fieldN s.bootst 15 8 < 2 ∨ 4 < fieldN s.bootst 15 8) :
    exec (.mbox x) s = .next (s.onDev fun d => { d with mbox := d.mbox ++ [x] }) := by
  have other : (decide (2 ≤ fieldN s.bootst 15 8) && decide (fieldN s.bootst 15 8 ≤ 4)) = false := by
    simp only [Bool.and_eq_false_iff, decide_eq_false_iff_not]
    omega
  exact congrArg Host.Outcome.next (if_neg (ne_true_of_eq_false other))

/-- After a failure of the image, of the record or of the minimum version MBOX begins the recovery (R428). -/
theorem exec_mbox_recovers (x : Word) (h2 : 2 ≤ fieldN s.bootst 15 8) (h4 : fieldN s.bootst 15 8 ≤ 4) :
    exec (.mbox x) s = .next (State.onDev { s with bootst := 1, dev := { s.dev with mbox := s.dev.mbox ++ [x] } } fun d =>
      { d with bootFail := Config.recovery s.tick }) := by
  have mends : (decide (2 ≤ fieldN s.bootst 15 8) && decide (fieldN s.bootst 15 8 ≤ 4)) = true := by simp [h2, h4]
  exact congrArg Host.Outcome.next (if_pos mends)

theorem exec_boot_first (b : BitVec 8) (h : s.bootst = 0) :
    exec (.boot b) s = .next (bootStep (s.onDev fun d => { d with bootFail := b })) := by
  show execBoot b s = _
  rw [execBoot, if_pos h]

theorem exec_boot_next (b : BitVec 8) (h : 0 < s.bootst.toNat) : exec (.boot b) s = .next (bootStep s) := by
  show execBoot b s = _
  rw [execBoot, if_neg (fun e => by simp [e] at h)]

end
end Sys2Proof.Machine

open Sys2Proof Sys2Proof.Machine Sys2Proof.Claim

/-- Settles O60, from what a request of one piece does (`Asks`), from the steps of boot (`bootStep_booted`), and from what a trace record
leaves of the device's registers. -/
theorem worldActs : Obligations.WorldActs := by
  unfold Obligations.WorldActs
  intro s u q a l n cl die w addr clock d x fail
  dsimp only
  refine ⟨fun ⟨hq, hb⟩ h => ⟨_, exec_inboundRequest hq hb (inTry_abort h), rfl⟩,
    fun ⟨⟨hq, hb⟩, hap, plain, inside, settled, pos, line, leaf, cls, unmarked⟩ => ?asked,
    fun ⟨hq, hb⟩ settled hap cnt hw hop len align inside leaf cls unmarked watch => ?counts, ?qreset, fun h => ?mbox, fun h2 h4 => ?recovers,
    rfl, ⟨_, rfl, rfl, rfl, rfl, rfl, rfl, rfl, rfl, rfl, rfl, resetPackage_valid s true⟩, fun h => congrArg _ (if_pos h),
    fun hd hl ha hf hs hm => nvmeWrite_line s hd hl ha hf hs hm, fun on zero => ?boots, fun on pos le => ?goes, rfl, rfl, ?power, fun _ => ?cooling,
    ⟨_, rfl, rfl, rfl⟩⟩
  case asked =>
    have asks : Asks s q a l u := ⟨hap, plain, inside, settled, pos, line, leaf, cls, unmarked⟩
    refine ⟨fun h8 => ⟨fun hop => ?_, fun hop hw => ?_⟩, fun h8 hop => ?_⟩
    · obtain ⟨t, tries, gives⟩ := asks.reads hop h8
      exact ⟨t, exec_inboundRequest hq hb tries, gives⟩
    · obtain ⟨t, tries, writes⟩ := asks.writes hop hw h8
      exact ⟨t, exec_inboundRequest hq hb tries, writes⟩
    · obtain ⟨t, tries, begins⟩ := asks.begins hop h8
      exact ⟨t, exec_inboundRequest hq hb tries, begins⟩
  case counts =>
    obtain ⟨t, tries, adds⟩ := inbound_counts hap cnt hw hop len align inside settled leaf cls unmarked watch
    exact ⟨t, exec_apertureCounterWrite hap cnt hop hq hb tries, adds⟩
  case qreset =>
    obtain ⟨closed, dev⟩ := closeTrace_closes s (fieldN x 7 0) true outside
    have owner : (x.setWidth 8).toNat = fieldN x 7 0 := by simp [fieldN]
    refine ⟨_, rfl, ?_, ?_⟩
    · rw [owner]
      exact closed
    · exact congrArg (fun d : DevSt => d.mbox ++ [x]) dev
  case mbox =>
    exact exec_mbox_plain x h
  case recovers =>
    exact ⟨_, exec_mbox_recovers x h2 h4, rfl, rfl, rfl⟩
  case boots =>
    have start : s.bootst.toNat = 0 := by rw [zero]; rfl
    have below : (s.onDev fun d => { d with bootFail := fail }).bootst.toNat < 7 := by rw [State.onDev_bootst, start]; decide
    exact ⟨_, exec_boot_first fail zero, bootStep_booted on below, bootStep_first on start⟩
  case goes =>
    refine ⟨_, exec_boot_next fail pos, bootStep_booted on (by omega), fun h5 _ hf x hx => bootStep_zeroes on h5 hf hx,
      fun h6 hf => (bootStep_link on (by omega) (by rw [hf, h6]; rfl) h6).2.2, fun h7 wf => bootStep_starts on h7 wf⟩
  case power =>
    refine ⟨_, rfl, rfl, ?_, fun i hi => ?_, rfl, rfl⟩
    · rw [List.foldl_cons, List.foldl_nil, State.clusterSt_updCluster_same]
      rfl
    · rw [List.foldl_cons, List.foldl_nil, State.clusterSt_updCluster, if_neg (Ne.symm hi)]
      rfl
  case cooling =>
    obtain ⟨cx, mem, clocks⟩ := clocks_slowed (die * 32) (List.range 32) (s.updDie die fun d => { d with tempC := max 100 d.tempC }) List.nodup_range
    refine ⟨_, rfl, fun i hi => ?_, cx, mem⟩
    exact (clocks i).trans (if_pos (List.mem_range.2 hi))

end
